-- ==== Sys2Proof/Word.lean ====
section
/-!
DEFINITION. The word types of the Stolbor S1 and their plainest arithmetic: bytes, 32- and 64-bit words, lane masks,
256-byte cache lines, and the serial comparison of logical times (R7).
-/

namespace Sys2Proof

abbrev Byte := BitVec 8
abbrev W16 := BitVec 16
abbrev W32 := BitVec 32
abbrev W64 := BitVec 64
/-- A set of lanes of one warp, at most 128 of them (R75); bit j is lane j. -/
abbrev Mask := BitVec 128
/-- The bytes of one 256-byte cache line (R107), byte i in bits 8i+7 : 8i. -/
abbrev Line := BitVec 2048
/-- One bit for each byte of a cache line (R108). -/
abbrev ByteMask := BitVec 256

/-- serial_lt of R7: true when d := (b − a) mod 2^32 lies in 1 to 2^31 − 1. -/
def serialLt (a b : W32) : Bool :=
  let d := (b - a).toNat
  1 ≤ d && d < 2147483648

/-- serial_le of R7. -/
def serialLe (a b : W32) : Bool := a == b || serialLt a b

/-- serial_max of R7. -/
def serialMax (a b : W32) : W32 := if serialLt a b then b else a

end Sys2Proof
end

