-- ==== Sys2Proof/Config.lean ====
section
/-!
DEFINITION. The free values of the model: what the spec leaves open and the model does not choose. Each is an opaque
constant, so nothing can be proved of its value; each is named in the assumption log.
-/

namespace Sys2Proof.Config

/-- A stream of unconstrained words; the step applies it to the counter State.fresh and advances the counter
(log entry 4). -/
opaque freeValue : Nat → BitVec 2048

/-- Whether a read that comes before a fixed-latency result has landed sees it (true) or the old value (R259): for the read
numbered 'read', the result numbered 'result', in a lane, of a register (log entry 4). -/
opaque seesNew : (read result lane reg : Nat) → Bool

/-- The fixed result of an approximate function of the transcendental unit (R341), as a code of its type, FP32 or FP64: a function of the
instruction's minor code, its type code, .ftz and the operand's bits. It counts only where it lies within the bound of R341 (log entry 6). -/
opaque approx : (minor : Nat) → (ty : Nat) → (ftz : Bool) → (bits : BitVec 64) → BitVec 64

/-- The AES-XTS-256 key pair that slot 0 draws from the package's entropy source at reset (R59; log entry 7). -/
opaque bootKey : BitVec 512

/-- KMAC256 over bytes 0 to 23 of a cap frame under the hall key, truncated to 16 bytes (R35; log entry 8). -/
opaque kmac : (hallKey : BitVec 256) → (frame : BitVec 192) → BitVec 128

/-- SHA3-256 (R40, R41) over a byte string (log entry 8). -/
opaque sha3 : List (BitVec 8) → BitVec 256

/-- Whether an ML-DSA-44 signature verifies (R40) over a digest under Ubmer's public key (log entry 8). -/
opaque mldsaVerify : (digest : BitVec 256) → (signature : List (BitVec 8)) → Bool

/-- The ML-DSA-44 signature of the package's device identity key over a report (R41; log entry 8). -/
opaque mldsaSign : List (BitVec 8) → BitVec 19360

/-- The hash that picks one port of a route mask from the source core and the destination address (R25; log entry 9). -/
opaque portHash : (core : Nat) → (addr : Nat) → Nat

end Sys2Proof.Config
end

