-- ==== Sys2Proof/Fields.lean ====
section
/-!
DEFINITION. The parts an instruction is made of: the cause codes (R106), the operand types (R254), the operands (R251), the
control fields and the decoded fields of a word (R246), and what the events of the part carry.
-/

namespace Sys2Proof

/-- Cause codes (R106). -/
inductive Cause where
  | none | illegalOpcode | illegalOperand | retiredForm | privilege | controlOnly | tagRequired | fetchAlign
  | softwareTrap | breakpoint | callDepth | widthContract | misalignedAtomic
  | translation | permission | noncanonical | addressWrap | scratchBounds | rangeLock | dataUncorrectable
  | hostPath | peerPath | keyInvalid | formatEntry | regionMap
  | copyFault | matrixSlot | barrierOverrun | queueOverrun | serviceError | launchDepth | slotConflict
  | engineUncorrectable
  | watchpoint | debugHalt | singleStep | forcedSave | preemptSave
deriving DecidableEq, Repr

/-- Operand types (R254), in the order of their codes. -/
inductive Ty where
  | i32 | n32 | i64 | n64 | i16 | n16 | i8 | n8 | f32 | f64 | f16 | bf16 | t8 | t4 | b32 | b64
deriving DecidableEq, Repr

/-- One operand field of a word (R251). 'raw' is a field that the instruction leaves unused or reads as a plain number. -/
inductive Opnd where
  | v (n : BitVec 8)        -- v0–v255
  | s (n : BitVec 6)        -- s0–s63
  | k (c : BitVec 5)        -- constant, the code less 320: its value is c − 16
  | p (n : BitVec 3)        -- p0–p7, or q0–q7 in the uniform set
  | lit32 (x : W32)
  | lit64 (x : W64)
  | raw (x : BitVec 9)
deriving DecidableEq, Repr

/-- The control fields and the guard of a word (R246, R249). -/
structure Ctl where
  gap   : BitVec 4
  yld   : Bool
  alloc : BitVec 3
  wait  : BitVec 7
  neg   : Bool
  guard : BitVec 3
deriving DecidableEq, Repr

/-- The decoded fields of one instruction word (R246): destination d, sources a, b and c (the fields DST, SA, SB, SC), the
type and the ten MOD bits that the instruction's entry names. -/
structure Args where
  ctl : Ctl
  d   : Opnd
  a   : Opnd
  b   : Opnd
  c   : Opnd
  ty  : Ty
  mod : BitVec 10
deriving DecidableEq, Repr

/-- Who issues: the warp with key 128 × global core + 16 × slot + index (R8), or the control thread of the team with key
8 × global core + residency index. -/
inductive Agent where
  | warp (w : Nat)
  | ct (t : Nat)
deriving DecidableEq, Repr

/-- The three answers of a service core to a fault (R162). -/
inductive FaultAnswer where
  | retry | translation | permission
deriving DecidableEq, Repr

/-- Where an uncorrectable or corrected ECC error strikes (R130, R39). -/
inductive EccSite where
  | corrected (unit : Nat)                         -- the structure's index in R39's list
  | l1Clean (core line : Nat)
  | l1State (core line : Nat)
  | l1Dirty (core line : Nat) (bytes : ByteMask)
  | l2Data (line : Nat) (bytes : ByteMask)
  | l2Stamp (line : Nat)
  | l2Host (line : Nat)
  | scratch (team off : Nat)
  | elsewhere (unit addr : Nat)                    -- an uncorrected error in another structure of R39's list
deriving DecidableEq, Repr

/-- What a peer asks of this chip (R164), or what a Belcy message carries (R25): 'reply' is the answer to a request of this
chip, with the cause that refused it. -/
inductive PeerOp where
  | read (n : Nat)
  | write (n : Nat) (data : BitVec 512)
  | atomic (op : Nat) (ty : Ty) (operand cmp : W64)
  | reply (id : Nat) (data : BitVec 512) (cause : Cause)
deriving DecidableEq, Repr

/-- The causes of FATAL (R32). -/
inductive FatalCause where
  | unroutable | temperature | uncorrectable | currentLimit
deriving DecidableEq, Repr

/-- What Vudor measures when it computes levels (R36, R37): package power in W and, for each partition, its dynamic power in
W scaled to level 64. All are whole watts: the spec gives no resolution (DESIGN CHOICE, log entry 42). -/
structure Measure where
  power : Nat
  dyn   : List Nat
deriving DecidableEq, Repr

/-- What a host programs into the two HDM decoders of a CXL port (R42, R43): the bytes of device memory that decoder 0 covers, the number
of ports that share it line by line and this port's place among them, and whether decoder 1 covers the command window. -/
structure Hdm where
  size   : Nat := 0
  ways   : Nat := 1
  pos    : Nat := 0
  window : Bool := false
deriving DecidableEq, Repr

/-- What the training of a host port comes to (R28, R42): CXL, and what the host then programs; else PCIe. -/
structure Training where
  cxl : Bool
  hdm : Hdm := {}
deriving DecidableEq, Repr

/-- A read of a register (R5, R44): its address, and the host port that reads, if one does. -/
structure RegRead where
  addr : Nat
  port : Option Nat := none
deriving DecidableEq, Repr

/-- A measurement of temperature (R38, R39): the highest on the package, and that of each die, in degrees. -/
structure Heat where
  celsius : Nat
  dies    : List Nat := []
deriving DecidableEq, Repr

/-- A firmware image (R40): its body, its signature, its security version, and whether it asks the fused minimum to rise. -/
structure Image where
  body : List Byte
  sig  : List Byte
  secVersion : Nat
  raiseMin : Bool
deriving DecidableEq, Repr

end Sys2Proof
end

