-- ==== Sys2Proof/Syntax.lean ====
section
/-!
DEFINITION. The steps of the Stolbor S1 as syntax: the one inductive Instr with a constructor for every row of
spec/opcode_table.json: 172 instruction forms, each carrying the decoded fields of its word, and 116 events of the part, each
carrying what the outside or the choice of the event supplies.
-/

namespace Sys2Proof

/-- Every row of spec/opcode_table.json. The instruction forms come first, in the table's order; each carries its decoded
word. The events follow, nearly in the table's order: those that the step itself brings about stand before the others. -/
inductive Instr where
  -- lane class 0x0
  | iadd (x : Args) | isub (x : Args) | imul (x : Args) | imulh (x : Args) | imad (x : Args) | imadw (x : Args)
  | ineg (x : Args) | iabs (x : Args) | imin (x : Args) | imax (x : Args) | iaddc (x : Args) | isubb (x : Args)
  | lea (x : Args) | idot4 (x : Args) | isad (x : Args)
  -- lane class 0x1
  | and (x : Args) | or (x : Args) | xor (x : Args) | andn (x : Args) | bool3 (x : Args) | shl (x : Args)
  | shr (x : Args) | sar (x : Args) | rot (x : Args) | shf (x : Args) | bfx (x : Args) | bfi (x : Args)
  | popc (x : Args) | clz (x : Args) | ctz (x : Args) | brev (x : Args) | bytep (x : Args)
  -- lane class 0x2
  | icmp (x : Args) | fcmp (x : Args) | sel (x : Args) | pset (x : Args) | pmov (x : Args) | pmovUnpack (x : Args)
  | mov (x : Args) | shfl (x : Args) | vote (x : Args) | match_ (x : Args) | redux (x : Args) | scan (x : Args)
  -- lane class 0x3
  | fadd (x : Args) | fsub (x : Args) | fmul (x : Args) | ffma (x : Args) | fmin (x : Args) | fmax (x : Args)
  | frnd (x : Args) | fscale (x : Args) | fclass (x : Args) | fdot2 (x : Args) | padd (x : Args) | pmul (x : Args)
  | pfma (x : Args) | pmin (x : Args) | pmax (x : Args)
  -- lane class 0x4
  | frcp (x : Args) | frsq (x : Args) | fsqrt (x : Args) | fexp2 (x : Args) | flog2 (x : Args) | fsin (x : Args)
  | fcos (x : Args) | ftanh (x : Args) | fcvt (x : Args) | icvt (x : Args) | fcvti (x : Args) | pack (x : Args)
  | unpk (x : Args)
  -- lane class 0x5
  | ld (x : Args) | st (x : Args) | ldf (x : Args) | stf (x : Args) | pref (x : Args) | cwb (x : Args)
  | cwbAll (x : Args) | spmap (x : Args) | spwb (x : Args) | sprel (x : Args)
  -- lane class 0x6
  | atom (x : Args) | atomn (x : Args) | acas (x : Args) | fence (x : Args)
  -- lane class 0x7
  | bari (x : Args) | bara (x : Args) | barax (x : Args) | barw (x : Args) | barq (x : Args) | waitc (x : Args)
  | jset (x : Args) | join (x : Args) | yield_ (x : Args) | nap (x : Args)
  -- lane class 0x8
  | bra (x : Args) | brx (x : Args) | call (x : Args) | callx (x : Args) | ret (x : Args) | exit (x : Args)
  | exitTeam (x : Args) | exitGrid (x : Args) | trap (x : Args) | brk (x : Args) | step_ (x : Args) | safe (x : Args)
  -- lane class 0x9
  | mxq (x : Args) | mxz (x : Args) | mxrd (x : Args) | mxrdCfg (x : Args) | mxwr (x : Args) | mxld (x : Args)
  | mxst (x : Args) | mxcfg (x : Args)
  -- lane class 0xA
  | cpy (x : Args) | cpys (x : Args) | dqpop (x : Args) | dqpeek (x : Args) | svc (x : Args)
  -- lane class 0xB
  | sread (x : Args) | swrite (x : Args) | featq (x : Args) | rft (x : Args) | dbgret (x : Args) | unpark (x : Args)
  | tlbsync (x : Args)
  -- lane class 0xC
  | imad24 (x : Args) | barsync (x : Args) | frcpa (x : Args) | ldgx (x : Args)
  -- uniform class 0x0
  | uadd (x : Args) | usub (x : Args) | umul (x : Args) | umad (x : Args) | umin (x : Args) | umax (x : Args)
  | uand (x : Args) | uor (x : Args) | uxor (x : Args) | ushl (x : Args) | ushr (x : Args) | usar (x : Args)
  | ubfx (x : Args) | ulea (x : Args)
  -- uniform class 0x1
  | ucmp (x : Args) | usel (x : Args) | umov (x : Args) | ufrom (x : Args) | uld (x : Args) | ust (x : Args)
  | uatom (x : Args)
  -- uniform class 0x2
  | ubra (x : Args) | ubrx (x : Args) | ucall (x : Args) | uret (x : Args) | uloop (x : Args) | uexit (x : Args)
  -- uniform class 0x3
  | dqpush (x : Args) | ucpy (x : Args) | ucpys (x : Args) | ulaunch (x : Args) | utrig (x : Args) | ugwait (x : Args)
  | evpop (x : Args) | evwait (x : Args) | uclock (x : Args)
  -- uniform class 0x4
  | usread (x : Args) | uswrite (x : Args) | uswriteRft (x : Args) | ufence (x : Args)
  -- events of issue and waiting
  | branchResolve (w : Nat)
  | tagFree (g : Agent) (tag : Nat)
  | joinTimeout (w k : Nat)
  | napExpire (w : Nat)
  | evwaitTimeout (t : Nat)
  | barwRetest (w : Nat)
  | svcReply (w : Nat) (value : W64) (err : Bool)
  | deferredCallComplete (t : Nat) (request : W32) (value : W64) (err : Bool)
  | faultReply (ticket : Nat) (answer : FaultAnswer)
  | priReply (request : Nat) (ok : Bool)
  -- coherence
  | homeRenew (req : Nat)
  | renewalReply (req : Nat)
  | home1Read (req : Nat)
  | homeWriteback (req : Nat)
  | writebackReply (req : Nat)
  | homeAtomic (req : Nat)
  | atomicReply (req : Nat)
  | clockCreep (g : Agent)
  | l2SweepStep (home : Nat)
  | clockFloorBroadcast
  | cacheError (site : EccSite)
  | peerRequest (chip : Nat) (pasid : W16) (va : W64) (op : PeerOp)
  | remoteWriteAck (id : Nat)
  | datumWindowStart
  -- translation
  | pageWalkComplete (walk : Nat)
  | tlbinvLeaf (asid : W16)
  | tlbinvAsid (asid : W16)
  | tlbinvNonglobal
  | tlbinvAll
  | tlbInvalidationComplete
  -- engines
  | matrixPassStart (core : Nat)
  | matrixPassWrite (core : Nat)
  | accPortOperation (core : Nat)
  | engineUncorrectable (w tile : Nat)
  | transferPieceLand (cmd : Nat)
  | transferPieceFault (cmd : Nat)
  | multicastAck (cmd rank : Nat)
  | scheduleDescriptorIssue (t : Nat)
  -- launch front
  | recordConsume (q : Nat) (uncorrectable : Bool)
  | launchCheck (entry : Nat)
  | gridDependencesMet (entry : Nat)
  | slotAdmission (entry : Nat)
  | placementDecision
  | teamStart (t : Nat)
  | formatTableLoad (t : Nat)
  | teamExit (t : Nat)
  | gridEndRequest (t : Nat)
  | partitionIdle (p : Nat)
  | pcSample (core : Nat)
  | memorySample (core : Nat)
  | gridRetire (entry : Nat)
  | completionRecordWrite (entry : Nat)
  -- pre-emption
  | rankPressure (entry : Nat)
  | saveAreaSupplied (t : Nat) (base : Option W64)
  | saveAreaRetry (t : Nat)
  | multicastDrainDone (t : Nat)
  | safePointTake (g : Agent)
  | preemptDeadline (t : Nat)
  | hardwareSave (t : Nat)
  | teamRestore (entry : Nat)
  | preemptGo (p : Nat) (minRank : BitVec 3)
  | preemptHold (p : Nat) (hold : Bool)
  -- queues, partitions, keys
  | post (q off size : Nat) (value : W64)
  | queueEnable (q : Nat) (word0 : W64)
  | queueDisable (q : Nat) (word0 : W64)
  | queueSync (q : Nat) (word1 : W64)
  | partitionEnable (p : Nat) (word0 : W64)
  | partitionDisable (p : Nat) (word0 : W64)
  | keyLoad (slot : BitVec 6)
  | keyClear (slot : BitVec 6)
  -- host port
  | hostSharedRead (port line : Nat)
  | hostOwnershipRead (port line : Nat)
  | hostWriteback (port line : Nat) (data : Line) (bytes : ByteMask) (keep : Bool)
  | bisnpResponse (line : Nat) (data : Line) (bytes : ByteMask)
  | hostBar4Write (port pa n : Nat) (data : BitVec 512)
  | hostBar4Read (port pa n : Nat)
  | hostAtomic (port pa : Nat) (op : Nat) (ty : Ty) (operand cmp : W64)
  | hostRefusedAccess (port off : Nat) (write : Bool)
  | registerWrite (addr : Nat) (value : W64) (port : Option Nat)
  -- links and pod
  | dlctlPin (link : Nat) (value : W64)
  | linkStepUp (link : Nat)
  | linkStepDown (link : Nat)
  | retrainWindowEnd (link : Nat)
  | flitCrcError (link : Nat)
  | linkDown (link : Nat)
  | belcyMessageArrive (port dest src : Nat) (edge : W64) (op : PeerOp) (pasid : W16) (va : W64)
  | belcyLaneFail (port : Nat)
  | chipcfgWrite (value : W64)
  -- power and management
  | powerOn
  | bootVerify
  | corePowerUp
  | fatalEntry (cause : FatalCause)
  | packageReset
  | hallCapFrame (frame : BitVec 320) (m : Measure)
  | hallRecompute (m : Measure)
  | hallHoldExpire
  | boardLimitMeasure (m : Measure)
  | thermalStep (heat : Heat)
  | currentLimitTrip
  | currentLimitRestore
  | pwrcfgWrite (p : Nat) (value : W64)
  | lifetimeCommit
  | lifetimeRead
  | firmwareUpdate (image : Image) (interrupted : Bool)
  | attestationRequest (nonce : BitVec 256)
  | setStoredChipId (id : BitVec 10)
  -- debug and sampling
  | debugPoll
  -- register side effects, ports, standby, the rest
  | rcRegisterRead (read : RegRead)
  | hostPortLinkTraining (port : Nat) (training : Training)
  | hostPortDown (port : Nat)
  | standbyPowerOn
  | standbyPowerLoss
  | keyOperationDone
  | fixedLatencyResultLand (g : Agent) (lanes : Mask)
  | hostWindowCompletion (id : Nat) (data : Line) (ok : Bool)
  | jtagAccess (off n : Nat) (write : Bool) (data : W64)
deriving DecidableEq, Repr

end Sys2Proof
end

