-- ==== Sys2Proof/Machine/Forms.lean ====
section
/-!
DEFINITION. What every instruction form says of its word: which operand fields it uses and for what (R251 to R253), the types
and the MOD bits it accepts (R254 to R256), whether it needs a tag (R261), which counter it raises (R262), whether it may be
issued speculatively (R92) and its fixed latency (R259).
-/

namespace Sys2Proof.Machine

/-! ## Types -/

/-- Width N of a type in bits (R294). -/
def Ty.bits (t : Ty) : Nat :=
  match t with
  | .i32 | .n32 | .f32 | .b32 => 32
  | .i64 | .n64 | .f64 | .b64 => 64
  | .i16 | .n16 | .f16 | .bf16 => 16
  | .i8 | .n8 | .t8 => 8
  | .t4 => 4

/-- The code of a type (R254). -/
def Ty.code (t : Ty) : BitVec 4 :=
  match t with
  | .i32 => 0 | .n32 => 1 | .i64 => 2 | .n64 => 3 | .i16 => 4 | .n16 => 5 | .i8 => 6 | .n8 => 7
  | .f32 => 8 | .f64 => 9 | .f16 => 10 | .bf16 => 11 | .t8 => 12 | .t4 => 13 | .b32 => 14 | .b64 => 15

/-- The type of a code (R254). -/
def Ty.ofCode (n : Nat) : Ty :=
  match n with
  | 0 => .i32 | 1 => .n32 | 2 => .i64 | 3 => .n64 | 4 => .i16 | 5 => .n16 | 6 => .i8 | 7 => .n8
  | 8 => .f32 | 9 => .f64 | 10 => .f16 | 11 => .bf16 | 12 => .t8 | 13 => .t4 | 14 => .b32 | _ => .b64

/-- Whether a type is read as a signed integer (R294). -/
def Ty.signed (t : Ty) : Bool := t == .i8 || t == .i16 || t == .i32 || t == .i64

/-- Registers that an operand of a type takes (R252). -/
def Ty.regs (t : Ty) : Nat := if Ty.bits t = 64 then 2 else 1

/-- Bits h down to l of a MOD field, as a number. -/
def modBits (m : BitVec 10) (h l : Nat) : Nat := (m.toNat >>> l) % 2 ^ (h + 1 - l)

/-- One bit of a MOD field. -/
def modBit (m : BitVec 10) (k : Nat) : Bool := m.getLsbD k

/-! ## Operand roles -/

/-- What an operand field of a form is used for. n registers from a multiple of al. -/
inductive Role where
  | unused | raw
  | dst (n al : Nat)              -- destination: lane registers in the lane set, uniform registers in the uniform set
  | dstU (n al : Nat)             -- destination: uniform registers
  | dstEither (n al : Nat)        -- destination: lane or uniform registers
  | dstMask                       -- destination: the mask layout of R308, ceil(w/32) registers
  | pred                          -- predicate code
  | src (t : Ty)                  -- source of a type: register, constant, predicate or literal
  | wide (consts : Bool)          -- source: a pair or a 64-bit literal, or with 'consts' a constant
  | wideU (consts : Bool)         -- the same, without lane registers (R317, R359)
  | srcU (t : Ty)                 -- as 'src', used once: no lane register (R379)
  | lane (n al : Nat)             -- source: lane registers only
  | uni (n al : Nat)              -- source: uniform registers only
  | either (n al : Nat)           -- source: lane or uniform registers only
  | baseG | baseS                 -- memory base under .g, and under .sp or .spc (R350)
  | baseGU | baseSU               -- the same, used once
  | carry                         -- carry in of R297
  | jmask                         -- rejoin mask: constant code 336 + k (R372)
  | mask (n : Nat)                -- n uniform registers, a constant or a literal (R388)
  | maskW                         -- the mask layout of R308 as a uniform source
deriving DecidableEq, Repr

/-- A form's use of its word. 'ok' gathers the form's own limits on MOD and on its raw fields. -/
structure Sig where
  uni : Bool := false             -- uniform set
  d   : Role := .unused
  a   : Role := .unused
  b   : Role := .unused
  c   : Role := .unused
  tys : List Ty := [.i32]         -- accepted types; a form without types requires code 0 (R255)
  mod : Nat := 0                  -- MOD bits that the form defines (R256)
  ok  : Bool := true
deriving DecidableEq, Repr

def intTys : List Ty := [.i32, .n32, .i64, .n64, .i16, .n16, .i8, .n8]
def logTys : List Ty := [.i32, .n32, .b32, .i64, .n64, .b64]
def ieeeTys : List Ty := [.f32, .f64, .f16, .bf16]
def wideTys : List Ty := [.i32, .n32, .f32, .b32, .i64, .n64, .f64, .b64]
def memTys : List Ty := [.i8, .n8, .i16, .n16, .i32, .n32, .b32, .i64, .n64, .b64]
def int4Tys : List Ty := [.i32, .n32, .i64, .n64]
def f16Tys : List Ty := [.f16, .bf16]
def convTys : List Ty := [.f32, .f64, .f16, .bf16, .t8, .t4]

/-- d, a, b of the instruction's type. -/
def sig2 (t : Ty) (tys : List Ty) (mod : Nat) (ok : Bool := true) : Sig :=
  { d := .dst (Ty.regs t) (Ty.regs t), a := .src t, b := .src t, tys := tys, mod := mod, ok := ok }

def sig1 (t : Ty) (tys : List Ty) (mod : Nat) (ok : Bool := true) : Sig := { sig2 t tys mod ok with b := .unused }

def sig3 (t : Ty) (tys : List Ty) (mod : Nat) (ok : Bool := true) : Sig := { sig2 t tys mod ok with c := .src t }

/-- b is "32" (R295). -/
def sigB32 (t : Ty) (tys : List Ty) (mod : Nat) (ok : Bool := true) : Sig := { sig2 t tys mod ok with b := .src .n32 }

/-- Rounding fields of R256 other than 5 to 7. -/
def roundOk (m : BitVec 10) : Bool := modBits m 2 0 ≤ 4

def spaceOf (m : BitVec 10) : Nat := modBits m 1 0
def scopeOf (m : BitVec 10) : Nat := modBits m 4 2
def orderOf (m : BitVec 10) : Nat := modBits m 6 5

/-- The base, offset and rank fields of a memory operand (R350). -/
def baseRole (m : BitVec 10) : Role := if spaceOf m = 1 ∨ spaceOf m = 2 then .baseS else .baseG
def baseRoleU (m : BitVec 10) : Role := if spaceOf m = 1 ∨ spaceOf m = 2 then .baseSU else .baseGU
def rankRole (m : BitVec 10) : Role := if spaceOf m = 2 then .src .n32 else .unused

/-- Registers of an LD or ST operand: a quad with MOD 7 (R352). -/
def memRegs (x : Args) : Nat := if modBit x.mod 7 then 4 else Ty.regs x.ty

def memOk (x : Args) : Bool :=
  spaceOf x.mod ≤ 2 && scopeOf x.mod ≤ 4 && (!modBit x.mod 7 || x.ty == .b64)

/-- Register count of LDF and STF (R355). -/
def ldfRegs (x : Args) : Nat :=
  let n := if modBit x.mod 7 then 32 else 16
  if x.ty == .f32 then n else n / 2

/-- Types that an atomic operation accepts (R360). -/
def atomTys (op : Nat) (uni : Bool) : List Ty :=
  if op ≤ 2 then [.i32, .n32, .i64, .n64, .f32, .f64]
  else if op ≤ 5 then logTys
  else if op = 6 then logTys ++ [.f32, .f64]
  else if uni then [.b32, .b64] else [.n32, .n64]

/-- The number a raw field holds. -/
def rawOf (o : Opnd) : Nat := match o with | .raw x => x.toNat | _ => 0

def rawBelow (o : Opnd) (n : Nat) : Bool := decide (rawOf o < n)

/-- A convergent use of the special-register index (R397): index, whether it is a write, the .hi bit. -/
def srOk (idx : Nat) (hi : Bool) : Bool := idx ≤ 33 && (!hi || (16 ≤ idx && idx ≤ 18))

/-- Registers that SWRITE may name in a warp (R397). -/
def srWritable (idx : Nat) : Bool := idx == 12 || idx == 19 || idx == 22 || idx == 23 || idx == 29 || idx == 30

def predFieldMod : Nat := 0x380

/-- Conversion destination (R330). -/
def cvtDst (x : Args) : Ty := Ty.ofCode (modBits x.mod 8 5)
def packDst (m : BitVec 10) : Ty := match modBits m 6 5 with | 0 => .f16 | 1 => .bf16 | 2 => .t8 | _ => .t4
def unpkDst (m : BitVec 10) : Ty := match modBits m 6 5 with | 0 => .f32 | 1 => .f16 | _ => .bf16

/-- T8 and T4 destinations take no rounding field (R330). -/
def roundFor (dst : Ty) (m : BitVec 10) : Bool :=
  if dst == .t8 || dst == .t4 then modBits m 2 0 == 0 else roundOk m

def combOk (x : Args) (maxCond : Nat) : Bool := modBits x.mod 7 5 ≤ maxCond

/-- The use of the word by each form; none for an event. -/
def sigOf (i : Instr) : Option Sig :=
  match i with
  -- R296 to R299
  | .iadd x => some (sig2 x.ty intTys 0x10) | .isub x => some (sig2 x.ty intTys 0x10)
  | .imul x => some (sig2 x.ty intTys 0x10) | .imulh x => some (sig2 x.ty intTys 0)
  | .imad x => some (sig3 x.ty intTys 0x10)
  | .imadw x => some { d := .dst 2 2, a := .src x.ty, b := .src x.ty, c := .src (if x.ty == .n32 then .n64 else .i64),
                       tys := [.i32, .n32], mod := 0x10 }
  | .ineg x => some (sig1 x.ty [.i8, .i16, .i32, .i64] 0x10) | .iabs x => some (sig1 x.ty [.i8, .i16, .i32, .i64] 0x10)
  | .imin x => some (sig2 x.ty intTys 0) | .imax x => some (sig2 x.ty intTys 0)
  | .iaddc x => some { sig2 x.ty int4Tys predFieldMod with c := .carry }
  | .isubb x => some { sig2 x.ty int4Tys predFieldMod with c := .carry }
  | .lea x => some (sigB32 x.ty [.n32, .n64] 0x3E0 (x.ty == .n64 || !modBit x.mod 9))
  | .idot4 x => some (sig3 x.ty [.i32, .n32] 0x10)
  | .isad x => some { d := .dst 1 1, a := .src .n32, b := .src .n32, c := .src .n32,
                      tys := [.i32, .n32, .i16, .n16, .i8, .n8], mod := 0x10 }
  -- R300 to R303
  | .and x => some (sig2 x.ty logTys 0) | .or x => some (sig2 x.ty logTys 0) | .xor x => some (sig2 x.ty logTys 0)
  | .andn x => some (sig2 x.ty logTys 0) | .bool3 x => some (sig3 x.ty logTys 0xFF)
  | .shl x => some (sigB32 x.ty logTys 0) | .shr x => some (sigB32 x.ty logTys 0) | .sar x => some (sigB32 x.ty logTys 0)
  | .rot x => some (sigB32 x.ty logTys 0x20)
  | .shf x => some { sig2 x.ty logTys 0x20 with c := .src .n32 }
  | .bfx x => some (sigB32 x.ty logTys 0)
  | .bfi x => some { sig2 x.ty logTys 0 with c := .src .n32 }
  | .popc x => some { sig1 x.ty logTys 0 with d := .dst 1 1 } | .clz x => some { sig1 x.ty logTys 0 with d := .dst 1 1 }
  | .ctz x => some { sig1 x.ty logTys 0 with d := .dst 1 1 } | .brev x => some (sig1 x.ty logTys 0)
  | .bytep x => some (sig3 x.ty [.b32] 0)
  -- R304 to R310
  | .icmp x => some { d := .pred, a := .src x.ty, b := .src x.ty,
                      c := if modBits x.mod 9 8 = 0 then .unused else .pred, tys := intTys ++ [.b32, .b64], mod := 0x3E0, ok := combOk x 5 }
  | .fcmp x => some { d := .pred, a := .src x.ty, b := .src x.ty,
                      c := if modBits x.mod 9 8 = 0 then .unused else .pred, tys := ieeeTys, mod := 0x3E8 }
  | .sel x => some { sig2 x.ty wideTys 0 with c := .src .n32 }
  | .pset _ => some { d := .pred, a := .src .n32, b := .src .n32, mod := 0x1E0 }
  | .pmov _ => some { d := .dst 1 1, mod := 0 }
  | .pmovUnpack _ => some { a := .src .n32, mod := 0xFF }
  | .mov x => some (sig1 x.ty wideTys 0)
  | .shfl x => some { sigB32 x.ty wideTys 0x3FC with c := .src x.ty, ok := modBits x.mod 4 2 ≤ 4 }
  | .vote x => some { d := if modBits x.mod 6 5 = 0 then .dstMask else .dst 1 1, a := .src .n32, mod := 0x3E0 }
  | .match_ x => some { d := if modBit x.mod 5 then .dstMask else .dst 1 1, a := .src x.ty, tys := wideTys, mod := 0x3A0 }
  | .redux x => some (foldSig x 0)
  | .scan x => some (foldSig x 0x100)
  -- R333 to R340
  | .fadd x => some (sig2 x.ty ieeeTys 0x1F (roundOk x.mod)) | .fsub x => some (sig2 x.ty ieeeTys 0x1F (roundOk x.mod))
  | .fmul x => some (sig2 x.ty ieeeTys 0x1F (roundOk x.mod)) | .ffma x => some (sig3 x.ty ieeeTys 0x1F (roundOk x.mod))
  | .fmin x => some (sig2 x.ty ieeeTys 0x8) | .fmax x => some (sig2 x.ty ieeeTys 0x8)
  | .frnd x => some (sig1 x.ty ieeeTys 0x1F (roundOk x.mod))
  | .fscale x => some (sigB32 x.ty ieeeTys 0x1F (roundOk x.mod))
  | .fclass x => some { sig1 x.ty ieeeTys 0 with d := .dst 1 1 }
  | .fdot2 x => some { sig3 x.ty f16Tys 0x1F (roundOk x.mod) with c := .src .f32 }
  | .padd x => some (sig2 x.ty f16Tys 0x1F (roundOk x.mod)) | .pmul x => some (sig2 x.ty f16Tys 0x1F (roundOk x.mod))
  | .pfma x => some (sig3 x.ty f16Tys 0x1F (roundOk x.mod))
  | .pmin x => some (sig2 x.ty f16Tys 0x8) | .pmax x => some (sig2 x.ty f16Tys 0x8)
  -- R341 to R347
  | .frcp x => some (sig1 x.ty ieeeTys 0x1F (roundOk x.mod)) | .fsqrt x => some (sig1 x.ty ieeeTys 0x1F (roundOk x.mod))
  | .frsq x => some (sig1 x.ty [.f32, .f64] 0x18)
  | .fexp2 x => some (sig1 x.ty [.f32, .f16, .bf16] 0x18) | .flog2 x => some (sig1 x.ty [.f32, .f16, .bf16] 0x18)
  | .fsin x => some (sig1 x.ty [.f32, .f16, .bf16] 0x18) | .fcos x => some (sig1 x.ty [.f32, .f16, .bf16] 0x18)
  | .ftanh x => some (sig1 x.ty [.f32, .f16, .bf16] 0x18)
  | .fcvt x => some { d := .dst (Ty.regs (cvtDst x)) (Ty.regs (cvtDst x)), a := .src x.ty, tys := convTys, mod := 0x1FF,
                      ok := convTys.contains (cvtDst x) && roundFor (cvtDst x) x.mod }
  | .icvt x => some { d := .dst (Ty.regs (cvtDst x)) (Ty.regs (cvtDst x)), a := .src x.ty, tys := intTys, mod := 0x1FF,
                      ok := convTys.contains (cvtDst x) && roundFor (cvtDst x) x.mod }
  | .fcvti x => some { d := .dst (Ty.regs (cvtDst x)) (Ty.regs (cvtDst x)), a := .src x.ty, tys := convTys, mod := 0x1EF,
                       ok := intTys.contains (cvtDst x) && roundOk x.mod }
  | .pack x => some { d := .dst 1 1, a := .src x.ty, b := .src x.ty,
                      c := if modBits x.mod 6 5 < 2 then .unused else .src .n32, tys := ieeeTys, mod := 0x1FF,
                      ok := roundFor (packDst x.mod) x.mod &&
                      decide (modBits x.mod 8 7 < (if modBits x.mod 6 5 < 2 then 1 else if modBits x.mod 6 5 = 2 then 2 else 4)) }
  | .unpk x => some { d := if modBits x.mod 6 5 = 0 then .dst 2 2 else .dst 1 1, a := .src x.ty,
                      tys := [.f16, .bf16, .t8, .t4], mod := 0x1FF,
                      ok := roundOk x.mod && modBits x.mod 6 5 ≤ 2 &&
                      decide (modBits x.mod 8 7 < (if x.ty == .t8 then 2 else if x.ty == .t4 then 4 else 1)) }
  -- R352 to R359
  | .ld x => some { d := .dst (memRegs x) (memRegs x), a := baseRole x.mod, b := .src .i32, c := rankRole x.mod,
                    tys := memTys, mod := 0xFF, ok := memOk x && orderOf x.mod ≤ 1 }
  | .st x => some { d := .either (memRegs x) (memRegs x), a := baseRole x.mod, b := .src .i32, c := rankRole x.mod,
                    tys := memTys, mod := 0xFF, ok := memOk x && (orderOf x.mod == 0 || orderOf x.mod == 2) }
  | .ldf x => some { d := .dst (ldfRegs x) 8, a := .baseG, b := .src .i32, tys := [.f32, .f16, .bf16], mod := 0xFF,
                     ok := spaceOf x.mod == 0 && scopeOf x.mod ≤ 4 && orderOf x.mod ≤ 1 }
  | .stf x => some { d := .lane (ldfRegs x) 8, a := .baseG, b := .src .i32, tys := [.f32, .f16, .bf16], mod := 0xFF,
                     ok := spaceOf x.mod == 0 && scopeOf x.mod ≤ 4 && (orderOf x.mod == 0 || orderOf x.mod == 2) }
  | .pref x => some { a := .baseG, b := .src .i32, mod := 0x103, ok := spaceOf x.mod == 0 }
  | .cwb x => some { a := .baseG, b := .src .i32, mod := 0x103, ok := spaceOf x.mod == 0 }
  | .cwbAll x => some { mod := 0x103, ok := spaceOf x.mod == 0 }
  | .spmap _ => some { a := .baseSU, b := .baseSU, c := .wideU false, mod := 0x7 }
  | .spwb _ => some { mod := 0xFF } | .sprel _ => some { mod := 0xFF }
  -- R360 to R362
  | .atom x => some { d := .dst (Ty.regs x.ty) (Ty.regs x.ty), a := baseRole x.mod, b := .src x.ty, c := rankRole x.mod,
                      tys := atomTys (modBits x.mod 9 7) false, mod := 0x3FF, ok := spaceOf x.mod ≤ 2 && scopeOf x.mod ≤ 4 }
  | .atomn x => some { a := baseRole x.mod, b := .src x.ty, c := rankRole x.mod,
                       tys := atomTys (modBits x.mod 9 7) false, mod := 0x3FF, ok := spaceOf x.mod ≤ 2 && scopeOf x.mod ≤ 4 }
  | .acas x => some { d := .dst (Ty.regs x.ty) (Ty.regs x.ty), a := baseRole x.mod,
                      b := .either (2 * Ty.regs x.ty) (2 * Ty.regs x.ty), c := rankRole x.mod, tys := logTys, mod := 0x3FF,
                      ok := spaceOf x.mod ≤ 2 && scopeOf x.mod ≤ 4 }
  | .fence x => some { mod := 0x7C, ok := scopeOf x.mod ≤ 4 }
  -- R366 to R375
  | .bari x => some { a := baseRole x.mod, b := .src .n32, c := rankRole x.mod, mod := 0x7F,
                      ok := spaceOf x.mod ≤ 2 && scopeOf x.mod ≤ 4 && (orderOf x.mod == 0 || orderOf x.mod == 2) }
  | .bara x => some { a := baseRole x.mod, c := rankRole x.mod, mod := 0x7, ok := spaceOf x.mod ≤ 2 }
  | .barax x => some { a := baseRole x.mod, b := .src .i32, c := rankRole x.mod, mod := 0xF, ok := spaceOf x.mod ≤ 2 }
  | .barw x => some { a := baseRole x.mod, b := .src .n32, mod := 0x3FB, ok := spaceOf x.mod ≤ 1 }
  | .barq x => some { d := .pred, a := baseRole x.mod, b := .src .n32, mod := 0x3, ok := spaceOf x.mod ≤ 1 }
  | .waitc x => some { d := .raw, a := .raw, b := .raw, c := .raw, mod := 0x3F8,
                       ok := rawBelow x.d 64 && rawBelow x.a 64 && rawBelow x.b 64 && rawBelow x.c 64 }
  | .jset x => some { a := if modBits x.mod 1 0 = 1 then .maskW else .unused, b := .jmask, mod := 0x3 }
  | .join _ => some { d := .pred, a := .srcU .n32, b := .jmask, mod := 0x3F8 }
  | .yield_ x => some { d := .raw, a := .raw, b := .raw, c := .raw,
                        ok := rawBelow x.d 1 && rawBelow x.a 1 && rawBelow x.b 1 && rawBelow x.c 1 }
  | .nap _ => some { a := .srcU .n32 }
  -- R311 to R318
  | .bra _ => some { a := .raw, b := .raw, c := .raw }
  | .brx _ => some { a := .lane 2 2 }
  | .call _ => some { d := .dst 2 2, a := .raw, b := .raw, c := .raw }
  | .callx _ => some { d := .dst 2 2, a := .lane 2 2 }
  | .ret _ => some { a := .lane 2 2 }
  | .exit _ => some { mod := 0x60 } | .exitTeam _ => some { mod := 0x60 } | .exitGrid _ => some { mod := 0x60 }
  | .trap _ => some { mod := 0x3FF } | .brk _ => some { mod := 0x3FF }
  | .step_ _ => some { a := .wideU true }
  | .safe _ => some { mod := 0x3F }
  -- R380 to R385
  | .mxq x => some { d := .raw, a := .lane 8 8, b := .srcU .n32, c := if modBits x.mod 2 1 = 0 then .unused else .lane 1 1,
                     mod := 0x3F, ok := rawBelow x.d 64 && modBits x.mod 2 1 ≤ 2 && modBits x.mod 5 3 ≤ 5 &&
                     (modBits x.mod 2 1 == 0 || modBits x.mod 5 3 ≤ 1) }
  | .mxz x => some { d := .raw, mod := 0x3F, ok := rawBelow x.d 64 }
  | .mxrd x => some { d := .dst 8 8, a := .raw, mod := 0xF, ok := rawBelow x.a 64 }
  | .mxrdCfg _ => some { d := .dst 1 1, mod := 0x20F }
  | .mxwr x => some { d := .raw, a := .lane 8 8, mod := 0x1F, ok := rawBelow x.d 64 }
  | .mxld x => some { d := .raw, a := baseRoleU x.mod, b := .srcU .i32, mod := 0x7F,
                      ok := rawBelow x.d 64 && spaceOf x.mod ≤ 1 && modBits x.mod 6 5 ≤ 2 }
  | .mxst x => some { d := .raw, a := baseRoleU x.mod, b := .srcU .i32, mod := 0x7F,
                      ok := rawBelow x.d 64 && spaceOf x.mod ≤ 1 && modBits x.mod 6 5 ≤ 1 }
  | .mxcfg x => some { mod := 0xF, ok := modBits x.mod 2 0 ≤ 4 }
  -- R386 to R391
  | .cpy _ => some { a := .srcU .n32 }
  | .cpys x => some { a := if modBit x.mod 0 then .unused else .srcU .n32, mod := 0x1 }
  | .dqpop _ => some { d := .dstEither 2 2, mod := 0x3F8 }
  | .dqpeek _ => some { d := .dstEither 2 2, mod := 0x380 }
  | .svc x => some { d := .dstU 2 2, a := if modBits x.mod 9 7 = 0 then .unused else .uni (2 * modBits x.mod 9 7) 2,
                     mod := 0x3FF, ok := modBits x.mod 9 7 ≤ 4 }
  -- R396 to R403
  | .sread x => some { d := .dst (Ty.regs x.ty) (Ty.regs x.ty), tys := [.b32, .b64], mod := 0x1FF,
                       ok := srOk (modBits x.mod 7 0) (modBit x.mod 8) }
  | .swrite x => some { a := if modBits x.mod 7 0 = 12 then .src x.ty else .srcU x.ty, tys := [.b32, .b64], mod := 0xFF,
                        ok := srWritable (modBits x.mod 7 0) }
  | .featq _ => some { d := .dstEither 2 2, a := .srcU .n32 }
  | .rft _ => some { mod := 0x1 }
  | .dbgret _ => some { a := .wide false }
  | .unpark x => some { a := if modBit x.mod 0 then .unused else .maskW, mod := 0x1 }
  | .tlbsync _ => some {}
  -- R404
  | .imad24 x => some (sig3 x.ty [.i32, .n32] 0)
  | .barsync x => some { a := baseRole x.mod, mod := 0x3, ok := spaceOf x.mod ≤ 1 }
  | .frcpa x => some (sig1 x.ty [.f32] 0)
  | .ldgx x => some { d := .dst (Ty.regs x.ty) (Ty.regs x.ty), a := .baseG, b := .src .i32, tys := memTys }
  -- R321 to R323, R354, R360
  | .uadd x => some (u (sig2 x.ty logTys 0x10)) | .usub x => some (u (sig2 x.ty logTys 0x10))
  | .umul x => some (u (sig2 x.ty logTys 0x10)) | .umad x => some (u (sig3 x.ty logTys 0x10))
  | .umin x => some (u (sig2 x.ty logTys 0)) | .umax x => some (u (sig2 x.ty logTys 0))
  | .uand x => some (u (sig2 x.ty logTys 0)) | .uor x => some (u (sig2 x.ty logTys 0)) | .uxor x => some (u (sig2 x.ty logTys 0))
  | .ushl x => some (u (sigB32 x.ty logTys 0)) | .ushr x => some (u (sigB32 x.ty logTys 0))
  | .usar x => some (u (sigB32 x.ty logTys 0)) | .ubfx x => some (u (sigB32 x.ty logTys 0))
  | .ulea x => some (u (sigB32 x.ty [.n32, .n64] 0x3E0 (x.ty == .n64 || !modBit x.mod 9)))
  | .ucmp x => some { uni := true, d := .pred, a := .src x.ty, b := .src x.ty,
                      c := if modBits x.mod 9 8 = 0 then .unused else .pred, tys := logTys, mod := 0x3E0, ok := combOk x 5 }
  | .usel x => some (u { sig2 x.ty wideTys 0 with c := .src .n32 })
  | .umov x => some (u (sig1 x.ty wideTys 0))
  | .ufrom x => some { uni := true, d := .dst (Ty.regs x.ty) (Ty.regs x.ty), a := .lane (Ty.regs x.ty) (Ty.regs x.ty),
                       b := if modBit x.mod 5 then .unused else .src .n32, tys := [.b32, .b64], mod := 0x3A0 }
  | .uld x => some { uni := true, d := .dst (memRegs x) (memRegs x), a := baseRoleU x.mod, b := .src .i32,
                     c := rankRole x.mod, tys := memTys, mod := 0xFF, ok := memOk x && orderOf x.mod ≤ 1 }
  | .ust x => some { uni := true, d := .uni (memRegs x) (memRegs x), a := baseRoleU x.mod, b := .src .i32,
                     c := rankRole x.mod, tys := memTys, mod := 0xFF, ok := memOk x && (orderOf x.mod == 0 || orderOf x.mod == 2) }
  | .uatom x => some { uni := true, d := .dst (Ty.regs x.ty) (Ty.regs x.ty), a := baseRoleU x.mod,
                       b := if modBits x.mod 9 7 = 7 then .uni (2 * Ty.regs x.ty) (2 * Ty.regs x.ty) else .src x.ty, c := rankRole x.mod,
                       tys := atomTys (modBits x.mod 9 7) true, mod := 0x3FF, ok := spaceOf x.mod ≤ 2 && scopeOf x.mod ≤ 4 }
  -- R324 to R326
  | .ubra _ => some { uni := true, a := .raw, b := .raw, c := .raw }
  | .ubrx _ => some { uni := true, a := .uni 2 2 }
  | .ucall _ => some { uni := true, d := .dst 2 2, a := .raw, b := .raw, c := .raw }
  | .uret _ => some { uni := true, a := .uni 2 2 }
  | .uloop _ => some { uni := true, d := .dst 1 1, a := .raw, b := .raw, c := .raw }
  | .uexit x => some { uni := true, mod := 0x60, ok := modBits x.mod 6 5 ≤ 2 }
  -- R386 to R395
  | .dqpush x => some { uni := true, a := .wide true, b := if modBit x.mod 0 then .unused else .mask 4, mod := 0x1 }
  | .ucpy _ => some { uni := true, a := .src .n32 }
  | .ucpys x => some { uni := true, a := if modBit x.mod 0 then .unused else .src .n32, mod := 0x1 }
  | .ulaunch _ => some { uni := true, d := .dst 2 2, a := .wide false }
  | .utrig x => some { uni := true, a := .src .n32, ok := trigOk x.a }
  | .ugwait _ => some { uni := true, a := .wide false, mod := 0x3F8 }
  | .evpop _ => some { uni := true, d := .dst 8 8, b := .pred }
  | .evwait _ => some { uni := true, d := .dst 8 8, a := .src .n32, b := .pred, mod := 0x3F8 }
  | .uclock _ => some { uni := true, d := .dst 2 2 }
  -- R396 to R398, R362
  | .usread x => some { uni := true, d := .dst (Ty.regs x.ty) (Ty.regs x.ty), tys := [.b32, .b64], mod := 0x3FF,
                        ok := srOk (modBits x.mod 7 0) (modBit x.mod 8) && modBits x.mod 7 0 != 0 && modBits x.mod 7 0 != 12 }
  | .uswrite x => some { uni := true, a := .src x.ty, tys := [.b32, .b64], mod := 0xFF,
                         ok := srWritable (modBits x.mod 7 0) || modBits x.mod 7 0 == 25 }
  | .uswriteRft x => some { uni := true, a := .src x.ty, tys := [.b32, .b64], mod := 0x2FF, ok := modBits x.mod 7 0 == 25 }
  | .ufence x => some { uni := true, mod := 0x7C, ok := scopeOf x.mod ≤ 4 }
  -- events
  | _ => none
where
  /-- The uniform counterpart of a lane form (R320). -/
  u (g : Sig) : Sig := { g with uni := true }
  /-- REDUX and SCAN (R310): SB is raw; the float fields belong to .f32. -/
  foldSig (x : Args) (extra : Nat) : Sig :=
    let op := modBits x.mod 7 5
    { d := .dst (Ty.regs x.ty) (Ty.regs x.ty), a := .src x.ty, b := .raw,
      tys := if op ≤ 2 then [.i32, .n32, .i64, .n64, .f32] else logTys,
      mod := 0xE0 + extra + (if x.ty == .f32 then (if op = 0 then 0xF else 0x8) else 0),
      ok := op ≤ 5 && rawBelow x.b 5 && roundOk x.mod }
  /-- A trigger level is a uniform register, or a constant from 1 to 15 (R393). -/
  trigOk (o : Opnd) : Bool :=
    match o with
    | .k c => decide (17 ≤ c.toNat ∧ c.toNat ≤ 31)
    | .s _ => true
    | _ => false

/-! ## Legality of the operand codes -/

/-- A 64-bit literal is legal for 64-bit types only, a constant for no .t8 or .t4 operand (R253). -/
def codeOk (t : Ty) (o : Opnd) : Bool :=
  match o with
  | .k _ | .p _ => t != .t8 && t != .t4
  | .lit32 _ => true
  | .lit64 _ => Ty.bits t == 64
  | .raw _ => false
  | .v n => n.toNat % Ty.regs t == 0
  | .s n => n.toNat % Ty.regs t == 0

/-- Whether an operand may stand in a field of a role, register counts left aside (R251 to R253, R350). -/
def roleOk (uni : Bool) (r : Role) (o : Opnd) : Bool :=
  match r, o with
  | .unused, .raw _ => true
  | .raw, .raw _ => true
  | .dst _ al, .v n => !uni && n.toNat % al == 0
  | .dst _ al, .s n => uni && n.toNat % al == 0
  | .dstU _ al, .s n => n.toNat % al == 0
  | .dstEither _ al, .v n => n.toNat % al == 0
  | .dstEither _ al, .s n => n.toNat % al == 0
  | .dstMask, .v _ => true
  | .pred, .p _ => true
  | .src t, .v n => !uni && codeOk t (.v n)
  | .wide _, .v n => !uni && n.toNat % 2 == 0
  | .wide _, .s n => n.toNat % 2 == 0
  | .wide k, .k _ => k
  | .wide _, .lit64 _ => true
  | .wideU _, .s n => n.toNat % 2 == 0
  | .wideU k, .k _ => k
  | .wideU _, .lit64 _ => true
  | .src t, o => codeOk t o
  | .srcU _, .v _ => false
  | .srcU t, o => codeOk t o
  | .lane _ al, .v n => n.toNat % al == 0
  | .uni _ al, .s n => n.toNat % al == 0
  | .either _ al, .v n => n.toNat % al == 0
  | .either _ al, .s n => n.toNat % al == 0
  | .baseG, .v n => n.toNat % 2 == 0
  | .baseG, .s n => n.toNat % 2 == 0
  | .baseG, .lit64 _ => true
  | .baseS, .v _ => true
  | .baseS, .s _ => true
  | .baseS, .k _ => true
  | .baseS, .lit32 _ => true
  | .baseGU, .s n => n.toNat % 2 == 0
  | .baseGU, .lit64 _ => true
  | .baseSU, .s _ => true
  | .baseSU, .k _ => true
  | .baseSU, .lit32 _ => true
  | .carry, .p _ => true
  | .carry, .k c => c == 16 || c == 17
  | .jmask, .k c => decide (16 ≤ c.toNat)
  | .mask n, .s k => k.toNat % n == 0
  | .mask _, .k _ => true
  | .mask _, .p _ => true
  | .mask _, .lit32 _ => true
  | .maskW, .s _ => true
  | .maskW, .k _ => true
  | .maskW, .p _ => true
  | .maskW, .lit32 _ => true
  | .maskW, .lit64 _ => true
  | _, _ => false

/-- Whether an operand is a literal. -/
def isLit (o : Opnd) : Bool := match o with | .lit32 _ => true | .lit64 _ => true | _ => false

/-- The decode checks of R257 step 3 that need only the word: operand codes, pairs, literal count, type and MOD bits. -/
def sigOk (g : Sig) (x : Args) : Bool :=
  g.tys.contains x.ty && (x.mod.toNat &&& (1023 - g.mod) == 0) && g.ok &&
  roleOk g.uni g.d x.d && roleOk g.uni g.a x.a && roleOk g.uni g.b x.b && roleOk g.uni g.c x.c &&
  decide ((if isLit x.d then 1 else 0) + (if isLit x.a then 1 else 0) + (if isLit x.b then 1 else 0) +
    (if isLit x.c then 1 else 0) ≤ 1)

/-- The decoded word of a form. -/
def argsOf (i : Instr) : Option Args :=
  match i with
  | .iadd x | .isub x | .imul x | .imulh x | .imad x | .imadw x | .ineg x | .iabs x | .imin x | .imax x | .iaddc x | .isubb x
  | .lea x | .idot4 x | .isad x | .and x | .or x | .xor x | .andn x | .bool3 x | .shl x | .shr x | .sar x | .rot x | .shf x
  | .bfx x | .bfi x | .popc x | .clz x | .ctz x | .brev x | .bytep x | .icmp x | .fcmp x | .sel x | .pset x | .pmov x
  | .pmovUnpack x | .mov x | .shfl x | .vote x | .match_ x | .redux x | .scan x | .fadd x | .fsub x | .fmul x | .ffma x
  | .fmin x | .fmax x | .frnd x | .fscale x | .fclass x | .fdot2 x | .padd x | .pmul x | .pfma x | .pmin x | .pmax x
  | .frcp x | .frsq x | .fsqrt x | .fexp2 x | .flog2 x | .fsin x | .fcos x | .ftanh x | .fcvt x | .icvt x | .fcvti x
  | .pack x | .unpk x | .ld x | .st x | .ldf x | .stf x | .pref x | .cwb x | .cwbAll x | .spmap x | .spwb x | .sprel x
  | .atom x | .atomn x | .acas x | .fence x | .bari x | .bara x | .barax x | .barw x | .barq x | .waitc x | .jset x | .join x
  | .yield_ x | .nap x | .bra x | .brx x | .call x | .callx x | .ret x | .exit x | .exitTeam x | .exitGrid x | .trap x
  | .brk x | .step_ x | .safe x | .mxq x | .mxz x | .mxrd x | .mxrdCfg x | .mxwr x | .mxld x | .mxst x | .mxcfg x | .cpy x
  | .cpys x | .dqpop x | .dqpeek x | .svc x | .sread x | .swrite x | .featq x | .rft x | .dbgret x | .unpark x | .tlbsync x
  | .imad24 x | .barsync x | .frcpa x | .ldgx x | .uadd x | .usub x | .umul x | .umad x | .umin x | .umax x | .uand x
  | .uor x | .uxor x | .ushl x | .ushr x | .usar x | .ubfx x | .ulea x | .ucmp x | .usel x | .umov x | .ufrom x | .uld x
  | .ust x | .uatom x | .ubra x | .ubrx x | .ucall x | .uret x | .uloop x | .uexit x | .dqpush x | .ucpy x | .ucpys x
  | .ulaunch x | .utrig x | .ugwait x | .evpop x | .evwait x | .uclock x | .usread x | .uswrite x | .uswriteRft x
  | .ufence x => some x
  | _ => none

/-! ## Issue properties -/

/-- A variable-latency register writer, which must allocate a tag (R261). -/
def needsTag (i : Instr) : Bool :=
  match i with
  | .ld _ | .ldf _ | .atom _ | .acas _ | .frcp _ | .frsq _ | .fsqrt _ | .fexp2 _ | .flog2 _ | .fsin _ | .fcos _ | .ftanh _
  | .mxrd _ | .mxrdCfg _ | .dqpop _ | .dqpeek _ | .svc _ | .uld _ | .uatom _ => true
  | .sread x => modBits x.mod 7 0 == 14 || modBits x.mod 7 0 == 15
  | .usread x => modBits x.mod 7 0 == 14 || modBits x.mod 7 0 == 15
  | _ => false

/-- The completion counters (R262). -/
inductive CntSel where
  | none | ld | st | cp | mx
deriving DecidableEq, Repr

/-- The counter that a form raises at issue (R262). -/
def raises (i : Instr) : CntSel :=
  match i with
  | .ld _ | .ldf _ | .atom _ | .acas _ | .uld _ | .uatom _ => .ld
  | .st _ | .stf _ | .atomn _ | .cwb _ | .cwbAll _ | .spwb _ | .sprel _ | .ust _ | .bari _ => .st
  | .cpy _ => .cp
  | .mxq _ | .mxz _ | .mxwr _ | .mxld _ | .mxst _ | .mxcfg _ => .mx
  | _ => .none

/-- Instructions that do not issue while a branch is unresolved (R92, R313, R266). -/
def nonSpec (i : Instr) : Bool :=
  match i with
  | .atom _ | .atomn _ | .acas _ | .fence _ | .bari _ | .bara _ | .barax _ | .barw _ | .barq _ | .waitc _ | .jset _ | .join _
  | .yield_ _ | .nap _ | .shfl _ | .vote _ | .match_ _ | .redux _ | .scan _ | .exit _ | .exitTeam _ | .exitGrid _ | .trap _
  | .brk _ | .step_ _ | .safe _ | .cwb _ | .cwbAll _ | .spmap _ | .spwb _ | .sprel _ | .mxq _ | .mxz _ | .mxrd _ | .mxrdCfg _
  | .mxwr _ | .mxld _ | .mxst _ | .mxcfg _ | .cpy _ | .cpys _ | .dqpop _ | .dqpeek _ | .svc _ | .sread _ | .swrite _
  | .featq _ | .rft _ | .dbgret _ | .unpark _ | .tlbsync _ | .imad24 _ | .barsync _ | .frcpa _ | .ldgx _ | .uld _ | .ust _
  | .uatom _ | .dqpush _ | .ucpy _ | .ucpys _ | .ulaunch _ | .utrig _ | .ugwait _ | .evpop _ | .evwait _ | .uclock _
  | .usread _ | .uswrite _ | .uswriteRft _ | .ufence _ | .uexit _ => true
  | _ => false

/-- Instructions that a program buffer refuses (R235): lane class 0x8, uniform class 0x2 and those that block, BARSYNC's wait included
(R404). -/
def bufferRefuses (i : Instr) : Bool :=
  match i with
  | .bra _ | .brx _ | .call _ | .callx _ | .ret _ | .exit _ | .exitTeam _ | .exitGrid _ | .trap _ | .brk _ | .step_ _ | .safe _
  | .ubra _ | .ubrx _ | .ucall _ | .uret _ | .uloop _ | .uexit _ | .join _ | .barw _ | .waitc _ | .dqpop _ | .nap _
  | .evwait _ | .ugwait _ | .barsync _ => true
  | _ => false

/-- The fixed latency of a form's results in core cycles (R259, R404). -/
def latency (i : Instr) : Nat :=
  match i with
  | .imul x | .imulh x | .imad x | .imadw x => if x.ty == .i64 || x.ty == .n64 then 8 else 4
  | .fadd x | .fsub x | .fmul x | .ffma x | .fmin x | .fmax x | .frnd x | .fscale x | .fclass x =>
    if x.ty == .f64 then 8 else 5
  | .fdot2 _ | .padd _ | .pmul _ | .pfma _ | .pmin _ | .pmax _ => 5
  | .fcvt _ | .icvt _ | .fcvti _ | .pack _ | .unpk _ | .shfl _ | .vote _ | .match_ _ | .redux _ | .scan _ => 6
  | .imad24 _ => 12
  | _ => 4

/-- A matrix instruction (lane class 0x9), which takes a queue entry (R175). -/
def isMatrix (i : Instr) : Bool :=
  match i with
  | .mxq _ | .mxz _ | .mxrd _ | .mxrdCfg _ | .mxwr _ | .mxld _ | .mxst _ | .mxcfg _ => true
  | _ => false

/-- The forms of class 0xC (R266). -/
def isRetired (i : Instr) : Bool := match i with | .imad24 _ | .barsync _ | .frcpa _ | .ldgx _ => true | _ => false

/-- Transcendental instructions: they take their slot's unit (R329). -/
def isTrans (i : Instr) : Bool :=
  match i with | .frcp _ | .fsqrt _ | .frsq _ | .fexp2 _ | .flog2 _ | .fsin _ | .fcos _ | .ftanh _ => true | _ => false

/-- A retired form in its trapped state (R264, R290). -/
def isTrapped (i : Instr) : Bool := match i with | .frcpa _ | .ldgx _ => true | _ => false

/-- Instructions that only a control thread issues (R257 step 4). -/
def controlOnly (i : Instr) : Bool := match i with | .dqpush _ | .evpop _ | .evwait _ => true | _ => false

/-- A word that is never guarded true: GUARD 0b1111 (R249). -/
def never (c : Ctl) : Bool := c.neg && c.guard == 7

end Sys2Proof.Machine
end

