-- ==== Sys2Proof/Machine/Num.lean ====
section
/-!
DEFINITION. Numbers: the binary formats (R206), exact values, rounding (R207 to R209, R331), the arithmetic of R334 to R342, T8 and
T4 (R210 to R213), and conversion between formats (R343 to R345). Signed zero, infinities and NaN are kept apart from exact reals.
-/

namespace Sys2Proof.Machine

/-! ## Formats and flags -/

/-- A binary format of R206: significand bits and exponent bias. -/
structure Fmt where
  prec : Nat
  bias : Nat
deriving DecidableEq, Repr

/-- The format of a type; FP32 for a type that has none. -/
def fmtOf (t : Ty) : Fmt :=
  match t with
  | .f64 => ⟨53, 1023⟩ | .f16 => ⟨11, 15⟩ | .bf16 => ⟨8, 127⟩ | _ => ⟨24, 127⟩

/-- Bits of a format less the sign. -/
def Fmt.top (f : Fmt) : Nat := (2 * f.bias + 1) * 2 ^ (f.prec - 1)

/-- The weight of the sign bit: the codes of magnitude run from 0 to this. -/
def Fmt.sign (f : Fmt) : Nat := (2 * f.bias + 2) * 2 ^ (f.prec - 1)

/-- R206: the canonical NaN. -/
def Fmt.nan (f : Fmt) : Nat := f.top + 2 ^ (f.prec - 2)

def Fmt.inf (f : Fmt) (neg : Bool) : Nat := f.top + if neg then f.sign else 0
def Fmt.largest (f : Fmt) (neg : Bool) : Nat := f.top - 1 + if neg then f.sign else 0
def Fmt.zero (f : Fmt) (neg : Bool) : Nat := if neg then f.sign else 0

/-- The exponent of the last place of subnormal numbers. -/
def Fmt.low (f : Fmt) : Int := 2 - (f.bias : Int) - f.prec

/-- FLAGS bits (R102). -/
abbrev Fl := BitVec 5
def flNV : Fl := 1
def flDZ : Fl := 2
def flOF : Fl := 4
def flUF : Fl := 8
def flNX : Fl := 16

/-- A value with the flags raised so far. -/
structure Res where
  bits : Nat
  fl   : Fl := 0
deriving DecidableEq, Repr

/-- An exact value: magnitude man × 2^exp, or just above it where 'more' is set (between man and man + 1 in the last place). -/
inductive Val where
  | nan
  | inf (neg : Bool)
  | fin (neg : Bool) (man : Nat) (exp : Int) (more : Bool)
deriving DecidableEq, Repr

/-- An exact dyadic value. -/
def Val.dy (neg : Bool) (man : Nat) (exp : Int) : Val := .fin neg man exp false

/-- Index of the highest set bit. -/
def topBit (n : Nat) : Nat := n.log2

/-! ## Reading -/

/-- The value of an encoding. -/
def Fmt.decode (f : Fmt) (bits : Nat) : Val :=
  let neg := bits / f.sign % 2 = 1
  let m := bits % f.sign
  if f.top < m then .nan
  else if m = f.top then .inf neg
  else
    let e := m / 2 ^ (f.prec - 1)
    let fr := m % 2 ^ (f.prec - 1)
    if e = 0 then .dy neg fr f.low else .dy neg (fr + 2 ^ (f.prec - 1)) (f.low + (e - 1 : Nat))

/-- A signalling NaN: the quiet bit is clear. -/
def Fmt.signals (f : Fmt) (bits : Nat) : Bool :=
  decide (f.top < bits % f.sign) && (bits % f.sign) / 2 ^ (f.prec - 2) % 2 == 0

/-- A subnormal encoding other than zero. -/
def Fmt.subnormal (f : Fmt) (bits : Nat) : Bool :=
  let m := bits % f.sign
  decide (m < 2 ^ (f.prec - 1)) && m != 0

/-- fin of R331: the value of an operand, and NV for a signalling NaN. -/
def Fmt.fin (f : Fmt) (ftz : Bool) (bits : Nat) : Val × Fl :=
  let fl := if f.signals bits then flNV else 0
  if ftz && f.subnormal bits then (.dy (decide (bits / f.sign % 2 = 1)) 0 0, fl) else (f.decode bits, fl)

/-! ## Rounding -/

/-- Drop 'shift' low bits of a magnitude in a rounding mode (R207): 0 .rn, 1 .rz, 2 .ru, 3 .rd, 4 .ra. -/
def roundDrop (mode : Nat) (neg : Bool) (man : Nat) (more : Bool) (shift : Nat) : Nat :=
  let q := man / 2 ^ shift
  let r := man % 2 ^ shift
  let inexact := r != 0 || more
  let tie := 2 * r = 2 ^ shift ∧ !more
  let above := 2 ^ shift < 2 * r ∨ (2 * r = 2 ^ shift ∧ more)
  let up := match mode with
    | 0 => decide above || (decide tie && q % 2 == 1)
    | 1 => false
    | 2 => inexact && !neg
    | 3 => inexact && neg
    | _ => decide above || decide tie
  if up then q + 1 else q

/-- Round a magnitude to multiples of 2^q. -/
def roundAt (mode : Nat) (neg : Bool) (man : Nat) (exp : Int) (more : Bool) (q : Int) : Nat :=
  if q ≤ exp then roundDrop mode neg (man * 2 ^ (exp - q).toNat) more 0 else roundDrop mode neg man more (q - exp).toNat

/-- The magnitude is not a multiple of 2^q. -/
def inexactAt (man : Nat) (exp : Int) (more : Bool) (q : Int) : Bool :=
  more || (decide (exp < q) && man % 2 ^ (q - exp).toNat != 0)

/-- What an overflow delivers (R207). -/
def overflowTo (f : Fmt) (mode : Nat) (neg : Bool) : Nat :=
  match mode with
  | 1 => f.largest neg
  | 2 => if neg then f.largest true else f.inf false
  | 3 => if neg then f.inf true else f.largest false
  | _ => f.inf neg

/-- Round a finite value to a format and raise OF, UF and NX (R207, R209). -/
def roundTo (f : Fmt) (mode : Nat) (neg : Bool) (man : Nat) (exp : Int) (more : Bool) : Res :=
  if man = 0 ∧ !more then { bits := f.zero neg }
  else
    let e := exp + topBit man
    let free := e - (f.prec - 1 : Nat)
    let q := max free f.low
    let m := roundAt mode neg man exp more q
    let code := (q - f.low).toNat * 2 ^ (f.prec - 1) + m
    let nx := inexactAt man exp more q
    if f.top ≤ code then { bits := overflowTo f mode neg, fl := flOF ||| flNX }
    else
      -- the value rounded to the precision with an unbounded exponent lies below the smallest normal magnitude
      let wide := roundAt mode neg man exp more free
      let tiny := decide (free + topBit wide < f.low + (f.prec - 1 : Nat))
      { bits := code + (if neg then f.sign else 0), fl := (if nx then flNX else 0) ||| (if nx && tiny then flUF else 0) }

/-- The modifiers of a float instruction: rounding, .ftz, .sat (R330). -/
structure FMod where
  mode : Nat := 0
  ftz  : Bool := false
  sat  : Bool := false
deriving DecidableEq, Repr

/-- fout of R331. -/
def Fmt.fout (f : Fmt) (m : FMod) (v : Val) : Res :=
  let r : Res := match v with
    | .nan => { bits := f.nan }
    | .inf neg => { bits := f.inf neg }
    | .fin neg man exp more =>
      let r := roundTo f m.mode neg man exp more
      if m.ftz && f.subnormal r.bits then { bits := f.zero neg, fl := r.fl ||| flUF ||| flNX } else r
  if m.sat && r.bits % f.sign == f.top then { r with bits := r.bits - 1 } else r

/-- A result with flags raised before it. -/
def Res.raise (r : Res) (fl : Fl) : Res := { r with fl := r.fl ||| fl }

/-! ## Sums and products (R334, R339) -/

/-- The sign of a value; of NaN, none. -/
def Val.neg (v : Val) : Bool := match v with | .nan => false | .inf n => n | .fin n .. => n

def Val.isNan (v : Val) : Bool := match v with | .nan => true | _ => false
def Val.isZero (v : Val) : Bool := match v with | .fin _ m _ more => m == 0 && !more | _ => false
def Val.isInf (v : Val) : Bool := match v with | .inf _ => true | _ => false

def Val.negate (v : Val) : Val := match v with | .nan => .nan | .inf n => .inf !n | .fin n m e x => .fin (!n) m e x

/-- The exact product; 0 × ∞ is invalid. -/
def Val.mul (a b : Val) : Val × Fl :=
  if (a.isZero && b.isInf) || (a.isInf && b.isZero) then (.nan, flNV)
  else match a, b with
    | .nan, _ => (.nan, 0)
    | _, .nan => (.nan, 0)
    | .fin n m e _, .fin n' m' e' _ => (.dy (n != n') (m * m') (e + e'), 0)
    | a, b => (.inf (a.neg != b.neg), 0)

/-- The exponents of the terms of a sum, the least. -/
def leastExp (vs : List Val) : Int :=
  vs.foldl (fun (a : Int) v => match v with | .fin _ _ e _ => min a e | _ => a) 0

/-- A term as a multiple of 2^q. -/
def Val.units (q : Int) (v : Val) : Int :=
  match v with
  | .fin n m e _ => let k : Int := (m * 2 ^ (e - q).toNat : Nat); if n then -k else k
  | _ => 0

/-- The exact sum of terms (R334): ∞ − ∞ is invalid; an exact zero is +0, or −0 under .rd, unless all terms are zeros of one
sign. -/
def sumVals (mode : Nat) (vs : List Val) : Val × Fl :=
  if vs.any Val.isNan then (.nan, 0)
  else if vs.any Val.isInf then
    let infs := vs.filter Val.isInf
    let neg := (infs.headD .nan).neg
    if infs.any (fun v => v.neg != neg) then (.nan, flNV) else (.inf neg, 0)
  else
    let q := leastExp vs
    let t := vs.foldl (fun (a : Int) v => a + v.units q) 0
    if t = 0 then
      let neg := (vs.headD .nan).neg
      if vs.all (fun v => v.isZero && v.neg == neg) then (.dy neg 0 0, 0) else (.dy (mode == 3) 0 0, 0)
    else (.dy (decide (t < 0)) t.natAbs q, 0)

def fAdd (f : Fmt) (m : FMod) (a b : Nat) : Res :=
  let (x, fx) := f.fin m.ftz a
  let (y, fy) := f.fin m.ftz b
  let (v, fv) := sumVals m.mode [x, y]
  (f.fout m v).raise (fx ||| fy ||| fv)

def fSub (f : Fmt) (m : FMod) (a b : Nat) : Res :=
  let (x, fx) := f.fin m.ftz a
  let (y, fy) := f.fin m.ftz b
  let (v, fv) := sumVals m.mode [x, y.negate]
  (f.fout m v).raise (fx ||| fy ||| fv)

def fMul (f : Fmt) (m : FMod) (a b : Nat) : Res :=
  let (x, fx) := f.fin m.ftz a
  let (y, fy) := f.fin m.ftz b
  let (v, fv) := x.mul y
  (f.fout m v).raise (fx ||| fy ||| fv)

def fFma (f : Fmt) (m : FMod) (a b c : Nat) : Res :=
  let (x, fx) := f.fin m.ftz a
  let (y, fy) := f.fin m.ftz b
  let (z, fz) := f.fin m.ftz c
  let (p, fp) := x.mul y
  let (v, fv) := sumVals m.mode [p, z]
  (f.fout m v).raise (fx ||| fy ||| fz ||| fp ||| fv)

/-- +∞ and −∞ among the terms are invalid, a NaN beside them notwithstanding (R339). -/
def clashing (vs : List Val) : Fl := if vs.any (fun v => v == .inf false) && vs.any (fun v => v == .inf true) then flNV else 0

/-- R339: elements of format f, c and the result in FP32. -/
def fDot2 (f : Fmt) (m : FMod) (a0 b0 a1 b1 c : Nat) : Res :=
  let g := fmtOf .f32
  let (x0, f0) := f.fin m.ftz a0
  let (y0, g0) := f.fin m.ftz b0
  let (x1, f1) := f.fin m.ftz a1
  let (y1, g1) := f.fin m.ftz b1
  let (z, fz) := g.fin m.ftz c
  let (p0, h0) := x0.mul y0
  let (p1, h1) := x1.mul y1
  let (v, fv) := sumVals m.mode [p0, p1, z]
  (g.fout m v).raise (f0 ||| g0 ||| f1 ||| g1 ||| fz ||| h0 ||| h1 ||| fv ||| clashing [p0, p1, z])

/-! ## Minimum, rounding, scaling, classes (R335 to R338) -/

/-- a < b, with −0 below +0. Both are numbers. -/
def Val.less (a b : Val) : Bool :=
  match a, b with
  | .inf true, .inf true => false
  | .inf true, _ => true
  | _, .inf true => false
  | .inf false, _ => false
  | _, .inf false => true
  | a, b =>
    let q := leastExp [a, b]
    let x := a.units q
    let y := b.units q
    decide (x < y) || (decide (x = y) && a.neg && !b.neg)

/-- R335: the operand returned is written as it was read. -/
def fMinMax (f : Fmt) (ftz wantMax : Bool) (a b : Nat) : Res :=
  let (x, fx) := f.fin ftz a
  let (y, fy) := f.fin ftz b
  let pick (v : Val) : Res := { bits := (f.fout {} v).bits, fl := fx ||| fy }
  if x.isNan && y.isNan then { bits := f.nan, fl := fx ||| fy }
  else if x.isNan then pick y
  else if y.isNan then pick x
  else if y.less x != wantMax then pick y else pick x

/-- A finite value rounded to an integer in a mode: sign, magnitude, and whether it changed. -/
def roundInt (mode : Nat) (neg : Bool) (man : Nat) (exp : Int) : Nat × Bool :=
  (roundAt mode neg man exp false 0, inexactAt man exp false 0)

/-- R336. -/
def fRnd (f : Fmt) (m : FMod) (a : Nat) : Res :=
  let (x, fx) := f.fin m.ftz a
  match x with
  | .fin neg man exp _ =>
    let (n, nx) := roundInt m.mode neg man exp
    { bits := (f.fout {} (.dy neg n 0)).bits, fl := fx ||| (if nx then flNX else 0) }
  | v => { bits := (f.fout { sat := m.sat } v).bits, fl := fx }

/-- R337: n is clamped where every further step gives the same result. -/
def fScale (f : Fmt) (m : FMod) (a : Nat) (n : Int) : Res :=
  let (x, fx) := f.fin m.ftz a
  match x with
  | .fin neg man exp more => (f.fout m (.fin neg man (exp + max (-8192) (min 8192 n)) more)).raise fx
  | v => (f.fout m v).raise fx

/-- R338. -/
def fClass (f : Fmt) (a : Nat) : Nat :=
  let neg := a / f.sign % 2 = 1
  let m := a % f.sign
  if f.top < m then (if f.signals a then 256 else 512)
  else if m = f.top then (if neg then 1 else 128)
  else if m = 0 then (if neg then 8 else 16)
  else if m < 2 ^ (f.prec - 1) then (if neg then 4 else 32)
  else if neg then 2 else 64

/-! ## Reciprocal and square root (R341, R342) -/

/-- Integer square root by bits: the largest r with r × r ≤ n, over k bits. -/
def isqrt (k n r : Nat) : Nat :=
  match k with
  | 0 => r
  | j + 1 => let t := r + 2 ^ j; if t * t ≤ n then isqrt j n t else isqrt j n r

/-- 1/a, with enough bits for one rounding to prec. -/
def recipVal (prec : Nat) (neg : Bool) (man : Nat) (exp : Int) : Val :=
  let k := topBit man + prec + 4
  .fin neg (2 ^ k / man) (-(k : Int) - exp) (2 ^ k % man != 0)

/-- √a for a > 0, with enough bits for one rounding to prec. -/
def sqrtVal (prec : Nat) (man : Nat) (exp : Int) : Val :=
  let t := 2 * (prec + 4) + (if exp % 2 = 0 then 0 else 1)
  let n := man * 2 ^ t
  let r := isqrt ((topBit n) / 2 + 1) n 0
  .fin false r ((exp - (t : Int)) / 2) (r * r != n)

def fRcp (f : Fmt) (m : FMod) (a : Nat) : Res :=
  let (x, fx) := f.fin m.ftz a
  match x with
  | .nan => (f.fout m .nan).raise fx
  | .inf n => (f.fout m (.dy n 0 0)).raise fx
  | .fin n man exp _ => if man = 0 then (f.fout m (.inf n)).raise (fx ||| flDZ) else (f.fout m (recipVal f.prec n man exp)).raise fx

def fSqrt (f : Fmt) (m : FMod) (a : Nat) : Res :=
  let (x, fx) := f.fin m.ftz a
  match x with
  | .nan => (f.fout m .nan).raise fx
  | .inf n => if n then (f.fout m .nan).raise (fx ||| flNV) else (f.fout m (.inf false)).raise fx
  | .fin n man exp more =>
    if man = 0 then (f.fout m (.fin n 0 0 more)).raise fx
    else if n then (f.fout m .nan).raise (fx ||| flNV)
    else (f.fout m (sqrtVal f.prec man exp)).raise fx

/-! ## T8 and T4 (R210 to R213) -/

/-- Leading zeros of a k-bit field. -/
def leadZeros (k m : Nat) : Nat := if m = 0 then k else k - 1 - topBit m

/-- R210: the magnitude of m, not 0, as a multiple of 2^−17. -/
def t8Units (m : Nat) : Nat :=
  if m = 1 then 2 ^ 34
  else
    let z := leadZeros 7 m
    let rest := m - 2 ^ (6 - z)
    let ef : Int × Nat × Nat := match z with
      | 0 => (((rest / 16 : Nat) : Int) - 2, rest % 16, 4)
      | 1 => let e := rest / 4 % 4; (if rest / 16 = 1 then 2 + (e : Int) else -3 - e, rest % 4, 2)
      | 2 => let e := rest / 2 % 4; (if rest / 8 = 1 then 6 + (e : Int) else -7 - e, rest % 2, 1)
      | 3 => let e := rest % 4; (if rest / 4 = 1 then 10 + (e : Int) else -11 - e, 0, 0)
      | 4 => let e := rest % 2; (if rest / 2 = 1 then 14 + (e : Int) else -15 - e, 0, 0)
      | _ => (if rest = 1 then 16 else -17, 0, 0)
    (2 ^ ef.2.2 + ef.2.1) * 2 ^ (ef.1 + 17 - ef.2.2).toNat

/-- R212: the magnitude of m, not 0, as a multiple of 2^−2. -/
def t4Units (m : Nat) : Nat :=
  match m with | 1 => 16 | 2 => 1 | 3 => 8 | 4 => 2 | 5 => 3 | 6 => 4 | _ => 6

def t8Decode (code : Nat) : Val :=
  let c := code % 256
  if c = 0x80 then .nan else if c = 0 then .dy false 0 0 else .dy (decide (128 < c)) (t8Units (c % 128)) (-17)

def t4Decode (code : Nat) : Val :=
  let c := code % 16
  if c = 8 then .nan else if c = 0 then .dy false 0 0 else .dy (decide (8 < c)) (t4Units (c % 8)) (-2)

/-- The value of a code of an element type (R210, R212). -/
def elemVal (t : Ty) (code : Nat) : Val := match t with | .t8 => t8Decode code | _ => t4Decode code

/-- The code, of those 1 to k, whose magnitude is nearest to man × 2^exp: ties go to the code with bit 0 clear, else to the
smaller magnitude (R211). Units are multiples of 2^−low. -/
def nearestCode (units : Nat → Nat) (k low man : Nat) (exp : Int) : Nat :=
  let up := (exp + low).toNat
  let down := (-(exp + low)).toNat
  let x := man * 2 ^ up
  let dist (c : Nat) : Nat := let u := units c * 2 ^ down; if u ≤ x then x - u else u - x
  (List.range k).foldl (fun best i =>
    let c := i + 1
    let d := dist c
    let b := dist best
    if d < b then c
    else if d = b ∧ c ≠ best then
      (if c % 2 = best % 2 then (if units c < units best then c else best) else if c % 2 = 0 then c else best)
    else best) 1

/-- man × 2^exp compared with n × 2^−low: less. -/
def belowUnits (man : Nat) (exp : Int) (n low : Nat) : Bool :=
  decide (man * 2 ^ (exp + low).toNat < n * 2 ^ (-(exp + low)).toNat)

def sameUnits (man : Nat) (exp : Int) (n low : Nat) : Bool :=
  decide (man * 2 ^ (exp + low).toNat = n * 2 ^ (-(exp + low)).toNat)

/-- cvt_t8 and cvt_t4 (R211, R213): largest and smallest magnitudes by their codes 1 and 2. -/
def cvtSmall (units : Nat → Nat) (codes low : Nat) (v : Val) : Res :=
  let sgn (neg : Bool) (c : Nat) : Nat := if neg then c + (codes + 1) else c
  match v with
  | .nan => { bits := codes + 1 }
  | .inf n => { bits := sgn n 1, fl := flOF ||| flNX }
  | .fin n man exp _ =>
    if man = 0 then { bits := 0 }
    else if !(belowUnits man exp (units 1) low) && !(sameUnits man exp (units 1) low) then { bits := sgn n 1, fl := flOF ||| flNX }
    else if belowUnits man exp 1 (low + 1) then { bits := 0, fl := flUF ||| flNX }
    else if belowUnits man exp 1 low then { bits := sgn n 2, fl := flUF ||| flNX }
    else
      let c := nearestCode units codes low man exp
      let exact := sameUnits man exp (units c) low
      { bits := sgn n c, fl := if exact then 0 else if c = 2 then flUF ||| flNX else flNX }

def cvtT8 (v : Val) : Res := cvtSmall t8Units 127 17 v
def cvtT4 (v : Val) : Res := cvtSmall t4Units 7 2 v

/-! ## Conversions (R343 to R345) -/

/-- The value of a source operand of a floating type, with its NV (R343). -/
def convIn (t : Ty) (ftz : Bool) (bits : Nat) : Val × Fl :=
  match t with
  | .t8 => (t8Decode bits, 0)
  | .t4 => (t4Decode bits, 0)
  | _ => (fmtOf t).fin ftz bits

/-- A value written in a floating destination type. -/
def convOut (t : Ty) (m : FMod) (v : Val) : Res :=
  match t with
  | .t8 => cvtT8 v
  | .t4 => cvtT4 v
  | _ => (fmtOf t).fout m v

def fCvt (src dst : Ty) (m : FMod) (a : Nat) : Res :=
  let (v, fl) := convIn src m.ftz a
  (convOut dst m v).raise fl

def iCvt (dst : Ty) (m : FMod) (v : Int) : Res := convOut dst m (.dy (decide (v < 0)) v.natAbs 0)

/-- R345: the integer and the flags. -/
def fCvtI (src : Ty) (m : FMod) (lo hi : Int) (a : Nat) : Int × Fl :=
  let (v, fl) := convIn src m.ftz a
  match v with
  | .nan => (0, fl ||| flNV)
  | .inf n => (if n then lo else hi, fl ||| flNV)
  | .fin n man exp _ =>
    let (k, nx) := roundInt m.mode n man exp
    let y : Int := if n then -(k : Int) else k
    if y < lo then (lo, fl ||| flNV ||| flOF ||| flNX)
    else if hi < y then (hi, fl ||| flNV ||| flOF ||| flNX)
    else (y, fl ||| (if nx then flNX else 0))

end Sys2Proof.Machine
end

