-- ==== Sys2Proof/Machine/Approx.lean ====
section
/-!
DEFINITION. The approximate functions of the transcendental unit (R341, R342): their exact and special results, their true values in fixed
point, and the result of the part, which is open within the bound of R341 (log entry 6).
-/

namespace Sys2Proof.Machine

/-! ## Exact and special results -/

/-- A magnitude that is a power of two: its exponent. -/
def powerOf (man : Nat) (exp : Int) : Option Int :=
  if man = 2 ^ topBit man then some (exp + topBit man) else none

/-- An integral value. -/
def intOf (neg : Bool) (man : Nat) (exp : Int) : Option Int :=
  if inexactAt man exp false 0 then none
  else
    let k : Int := (roundAt 1 neg man exp false 0 : Nat)
    some (if neg then -k else k)

/-- The exact results of R341 and the special results of R342 for one finite operand or infinity, with the flags they raise. -/
def approxExact (minor : Nat) (x : Val) : Option (Val × Fl) :=
  match minor, x with
  | _, .nan => some (.nan, 0)
  | 1, .inf n => some (if n then (.nan, flNV) else (.dy false 0 0, 0))
  | 3, .inf n => some (if n then (.dy false 0 0, 0) else (.inf false, 0))
  | 4, .inf n => some (if n then (.nan, flNV) else (.inf false, 0))
  | 7, .inf n => some (.dy n 1 0, 0)
  | _, .inf _ => some (.nan, flNV)
  | 1, .fin n m e _ =>
    if m = 0 then some (.inf n, flDZ)
    else if n then some (.nan, flNV)
    else match powerOf m e with | some j => if j % 2 = 0 then some (.dy false 1 (-(j / 2)), 0) else none | none => none
  | 3, .fin n m e _ =>
    if m = 0 then some (.dy false 1 0, 0)
    else match intOf n m e with
      | some k => some (.dy false 1 (max (-8192) (min 8192 k)), 0)
      | none => if !n && decide (129 ≤ e + topBit m) then some (.dy false 1 8192, 0) else none
  | 4, .fin n m e _ =>
    if m = 0 then some (.inf true, flDZ)
    else if n then some (.nan, flNV)
    else (powerOf m e).map (fun j => (.dy (decide (j < 0)) j.natAbs 0, 0))
  | 5, .fin n m _ _ => if m = 0 then some (.dy n 0 0, 0) else none
  | 6, .fin _ m _ _ => if m = 0 then some (.dy false 1 0, 0) else none
  | _, .fin n m _ _ => if m = 0 then some (.dy n 0 0, 0) else none

/-! ## True values

Each is a magnitude cut off below the true one, with a relative error below 2^−74, which roundTo takes as lying above its digits; the error of
sin and cos is absolute, below 2^−180. -/

/-- ln 2 and log2 e in units of 2^−96, and π/2 in units of 2^−340. -/
def fixLn2 : Nat := 54916777467707473351141471128
def fixLog2e : Nat := 114302077158074026402637675936
def fixHalfPi : Nat := 3518182813971077616189225552691857059114749310757581069078813173010511019991003499121606859902964069027

/-- man × 2^exp in units of 2^−frac. -/
def fixed (frac man : Nat) (exp : Int) : Nat :=
  let k := exp + frac
  if 0 ≤ k then man * 2 ^ k.toNat else man / 2 ^ (-k).toNat

/-- 1/√a. -/
def rsqrtVal (man : Nat) (exp : Int) : Val :=
  let n := if exp % 2 = 0 then man else 2 * man
  let e := if exp % 2 = 0 then exp else exp - 1
  let k := 120 + topBit n
  .fin false (isqrt 240 (2 ^ (2 * k) / n) 0) (-(k : Int) - e / 2) true

/-- The sum of the first terms of a series in fixed point: t, then each next term from its predecessor. -/
def series (next : Nat → Nat → Nat) (fuel i t : Nat) : Nat :=
  match fuel with
  | 0 => 0
  | k + 1 => t + series next k (i + 1) (next i t)

/-- 2^(x / 2^96): a magnitude in units of 2^−96 and an exponent. -/
def exp2Fix (x : Int) : Nat × Int :=
  let y := (x % 2 ^ 96).toNat * fixLn2 / 2 ^ 96
  (series (fun i t => t * y / 2 ^ 96 / (i + 1)) 32 0 (2 ^ 96), x / 2 ^ 96)

/-- 2^a; far below every format the value is cut off at 2^−1024. -/
def exp2Val (neg : Bool) (man : Nat) (exp : Int) : Val :=
  let m := fixed 96 man exp
  let x : Int := if neg then -m - 1 else m
  if x < -(1024 * 2 ^ 96) then .fin false 1 (-1024) true
  else .fin false (exp2Fix x).1 ((exp2Fix x).2 - 96) true

/-- The first k binary digits of log2 of m / 2^200, for m from 2^200 up to 2^201. -/
def log2Bits (k m acc : Nat) : Nat :=
  match k with
  | 0 => acc
  | j + 1 =>
    let q := m * m / 2 ^ 200
    if q < 2 ^ 201 then log2Bits j q (2 * acc) else log2Bits j (q / 2) (2 * acc + 1)

/-- log2 a: its digits lie at most two units below it, so those of a negative one are cut off two units nearer to 0. -/
def log2Val (man : Nat) (exp : Int) : Val :=
  let e := exp + topBit man
  let v : Int := e * 2 ^ 100 + log2Bits 100 (fixed 200 man (-(topBit man : Int))) 0
  .fin (decide (v < 0)) (if v < 0 then v.natAbs - 2 else v.natAbs) (-100) true

/-- sin and cos of x / 2^192, for |x| up to π/4, in units of 2^−192. -/
def sinCosFix (x : Int) : Int × Int :=
  let m := x.natAbs
  let q := m * m / 2 ^ 192
  let odd (a b : Nat) : Int := (a : Int) - b
  let term (k : Nat) (t i : Nat) : Nat := t * q / 2 ^ 192 * q / 2 ^ 192 / ((k + 4 * i) * (k + 4 * i + 1) * (k + 4 * i + 2) * (k + 4 * i + 3))
  -- every other term of each series, by sign
  let s := odd (series (fun i t => term 2 t i) 16 0 m) (series (fun i t => term 4 t i) 16 0 (m * q / 2 ^ 192 / 6))
  let c := odd (series (fun i t => term 1 t i) 16 0 (2 ^ 192)) (series (fun i t => term 3 t i) 16 0 (q / 2))
  (if x < 0 then -s else s, c)

/-- sin a or cos a: the argument is reduced exactly (R341). -/
def sinCosVal (cosine neg : Bool) (man : Nat) (exp : Int) : Val :=
  let x := fixed 192 man exp
  let k := (x * 2 ^ 149 / fixHalfPi + 1) / 2
  let r : Int := ((x * 2 ^ 148 : Nat) : Int) - ((k * fixHalfPi : Nat) : Int)
  let (s, c) := sinCosFix (r / 2 ^ 148)
  let turn := (k + if cosine then 1 else 0) % 4
  let v : Int := if turn = 0 then s else if turn = 1 then c else if turn = 2 then -s else -c
  .fin (decide (v < 0) != (neg && !cosine)) v.natAbs (-192) true

/-- tanh a: by its series near 0, whose next term is below 2^−76, by 2^(2a log2 e) elsewhere, and 1 less a trifle far out, where it lies above
1 − 2^−91. -/
def tanhVal (neg : Bool) (man : Nat) (exp : Int) : Val :=
  let e := exp + topBit man
  if e < -12 then
    let q := fixed 96 (man * man) (2 * exp)
    .fin neg (man * (2 ^ 96 - q / 3 - 2 ^ 20 + 2 * q * q / 15 / 2 ^ 96)) (exp - 96) true
  else if 5 ≤ e then .fin neg (2 ^ 96 - 2 ^ 5) (-96) true
  else
    let (m, k) := exp2Fix ((2 * fixed 96 man exp * fixLog2e / 2 ^ 96 : Nat) : Int)
    let y := m * 2 ^ k.toNat
    .fin neg ((y - 2 ^ 96) * 2 ^ 96 / (y + 2 ^ 96)) (-96) true

/-- The true value of a function (by its minor code) at a finite operand for which R341 lists no exact result. -/
def approxTrue (minor : Nat) (neg : Bool) (man : Nat) (exp : Int) : Val :=
  match minor with
  | 1 => rsqrtVal man exp
  | 3 => exp2Val neg man exp
  | 4 => log2Val man exp
  | 5 => sinCosVal false neg man exp
  | 6 => sinCosVal true neg man exp
  | _ => tanhVal neg man exp

/-! ## The result of the part -/

/-- The exponent of the unit in the last place of a format at a value. -/
def Fmt.ulp (f : Fmt) (man : Nat) (exp : Int) : Int := max (exp + topBit man - (f.prec - 1 : Nat)) f.low

/-- A value lies within n × 2^q of one whose digits are cut off with a relative error below 2^−74. -/
def Val.within (v w : Val) (n : Nat) (q : Int) : Bool :=
  match v, w with
  | .fin .., .fin .. =>
    let l := min (leastExp [v, w]) q
    decide ((v.units l - w.units l).natAbs * 2 ^ 74 + (w.units l).natAbs ≤ n * 2 ^ (q - l).toNat * 2 ^ 74)
  | _, _ => false

/-- The bound of R341 on a result of FP32 or FP64, in units of the last place there or of 2^−22. -/
def approxBound (f : Fmt) (minor : Nat) (a : Val) (man : Nat) (exp : Int) : Nat × Int :=
  let half := Val.dy false 1 (-1)
  let two := Val.dy false 1 1
  if minor = 5 ∨ minor = 6 ∨ (minor = 4 ∧ !a.less half ∧ !two.less a) then (1, -22)
  else (if minor = 1 then 1 else 2, f.ulp man exp)

/-- UF of a true value: it is tiny after rounding with unbounded exponents (R209). -/
def Fmt.tiny (f : Fmt) (m : FMod) (true_ : Val) : Fl := (f.fout { m with ftz := false, sat := false } true_).fl &&& flUF

/-- A result delivered for a true value: UF goes by the true value, or .ftz has flushed it (R209). -/
def Res.for_ (r : Res) (f : Fmt) (m : FMod) (true_ : Val) : Res :=
  { r with fl := (if m.ftz then r.fl else r.fl &&& ~~~flUF) ||| f.tiny m true_ }

/-- R341: a result of the FP32 form is one that a 16-bit form of the function rounds to within 1 ulp of the true value in its type, for each of
the two types that the operand x belongs to. -/
def narrowOk (x cand true_ : Val) (man : Nat) (exp : Int) : Bool :=
  ([.f16, .bf16] : List Ty).all (fun t =>
    let f := fmtOf t
    let near := (f.fout {} cand).bits
    (f.fout {} x).fl &&& flNX != 0 || (f.decode near).within true_ 1 (f.ulp man exp) || near == (f.fout {} true_).bits)

/-- A value that is near enough to the true one is the result; else the true one, rounded. Either is inexact (R341). -/
def Fmt.settle (f : Fmt) (m : FMod) (true_ cand : Val) (near : Bool) : Res :=
  if near then ((f.fout m cand).for_ f m true_).raise flNX else (f.fout m true_).raise flNX

/-- One approximate function on FP32 or FP64 (log entry 6). 'ap' is what the part would give, a code of the type. FRSQ has no 16-bit form. -/
def fApprox (ap : BitVec 64) (t : Ty) (minor : Nat) (m : FMod) (a : Nat) : Res :=
  let f := fmtOf t
  let (x, fx) := f.fin m.ftz a
  match approxExact minor x, x with
  | some (v, fl), _ => (f.fout m v).raise (fx ||| fl)
  | none, .fin neg man exp _ =>
    (match approxTrue minor neg man exp with
      | .fin sg mt et more =>
        let (n, q) := approxBound f minor x mt et
        let true_ := Val.fin sg mt et more
        let cand := f.decode (ap.toNat % (2 * f.sign))
        (f.settle m true_ cand (cand.within true_ n q && (minor == 1 || narrowOk x cand true_ mt et))).raise fx
      | v => (f.fout m v).raise fx)
  | none, _ => { bits := f.nan, fl := fx }

/-- An approximate function in any of its types: a 16-bit form widens exactly to FP32, applies the FP32 form and rounds the result to its type
(R341). -/
def approxOp (minor : Nat) (t : Ty) (m : FMod) (a : Nat) : Res :=
  let ap (t : Ty) (a : Nat) : BitVec 64 := Config.approx minor (Ty.code t).toNat m.ftz (BitVec.ofNat 64 a)
  if t == .f16 || t == .bf16 then
    let f := fmtOf t
    let (v, fl) := f.fin m.ftz a
    let w := ((fmtOf .f32).fout {} v).bits
    let r := fApprox (ap .f32 w) .f32 minor { m with sat := false } w
    let near := (f.fout { m with mode := 0 } ((fmtOf .f32).decode r.bits)).raise (fl ||| r.fl)
    match approxExact minor v, v with
    | none, .fin neg man exp _ =>
      (match approxTrue minor neg man exp with
        | .fin sg mt et more => near.for_ f m (.fin sg mt et more)
        | _ => near)
    | _, _ => near
  else fApprox (ap t a) t minor m a

end Sys2Proof.Machine
end

