-- ==== Sys2Proof/WellFormed.lean ====
section
/-!
DEFINITION. Well-formed instructions: the forms whose word passes the decode checks that the word alone decides (R251 to R256),
with the MOD bits that select the form. An event is well formed as it stands: what it carries is checked by its meaning.
-/

namespace Sys2Proof

open Machine

/-- The MOD bits that select one of several forms of one minor code (R305, R358, R383, R315, R396). -/
def selects (i : Instr) : Bool :=
  match i with
  | .pmov x => !modBit x.mod 7
  | .pmovUnpack x => modBit x.mod 7
  | .cwb x => !modBit x.mod 8
  | .cwbAll x => modBit x.mod 8
  | .mxrd x => !modBit x.mod 9
  | .mxrdCfg x => modBit x.mod 9
  | .exit x => modBits x.mod 6 5 == 0
  | .exitTeam x => modBits x.mod 6 5 == 1
  | .exitGrid x => modBits x.mod 6 5 == 2
  | .uswrite x => !modBit x.mod 9
  | .uswriteRft x => modBit x.mod 9
  | _ => true

/-- The static decode checks hold (R257 step 3, register counts left aside). -/
def WellFormed (i : Instr) : Bool :=
  match sigOf i, argsOf i with
  | some g, some x => selects i && sigOk g x
  | _, _ => true

end Sys2Proof
end

