-- ==== Sys2Proof/Decode.lean ====
section
/-!
DEFINITION. The decoder and the encoder of instruction words (R246 to R257, R264, R265). The decoder is total on any 26 bytes
(a word and the longest literals that R247 counts) and rejects by cause; the encoder writes the word and literal of a
well-formed instruction from the same tables.
-/

namespace Sys2Proof

open Machine

/-- The opcode map (R264, R265): the form of a key 1024 × S + 64 × CLASS + MINOR. -/
def formOfKey (key : Nat) : Option (Args → Instr) :=
  match key with
  -- lane class 0x0
  | 0 => some .iadd | 1 => some .isub | 2 => some .imul | 3 => some .imulh | 4 => some .imad | 5 => some .imadw
  | 6 => some .ineg | 7 => some .iabs | 8 => some .imin | 9 => some .imax | 10 => some .iaddc | 11 => some .isubb
  | 12 => some .lea | 13 => some .idot4 | 14 => some .isad
  -- lane class 0x1
  | 64 => some .and | 65 => some .or | 66 => some .xor | 67 => some .andn | 68 => some .bool3 | 69 => some .shl
  | 70 => some .shr | 71 => some .sar | 72 => some .rot | 73 => some .shf | 74 => some .bfx | 75 => some .bfi
  | 76 => some .popc | 77 => some .clz | 78 => some .ctz | 79 => some .brev | 80 => some .bytep
  -- lane class 0x2
  | 128 => some .icmp | 129 => some .fcmp | 130 => some .sel | 131 => some .pset
  | 132 => some (fun x => if modBit x.mod 7 then .pmovUnpack x else .pmov x)
  | 133 => some .mov | 134 => some .shfl | 135 => some .vote | 136 => some .match_ | 137 => some .redux
  | 138 => some .scan
  -- lane class 0x3
  | 192 => some .fadd | 193 => some .fsub | 194 => some .fmul | 195 => some .ffma | 196 => some .fmin | 197 => some .fmax
  | 198 => some .frnd | 199 => some .fscale | 200 => some .fclass | 201 => some .fdot2 | 202 => some .padd
  | 203 => some .pmul | 204 => some .pfma | 205 => some .pmin | 206 => some .pmax
  -- lane class 0x4
  | 256 => some .frcp | 257 => some .frsq | 258 => some .fsqrt | 259 => some .fexp2 | 260 => some .flog2
  | 261 => some .fsin | 262 => some .fcos | 263 => some .ftanh | 264 => some .fcvt | 265 => some .icvt
  | 266 => some .fcvti | 267 => some .pack | 268 => some .unpk
  -- lane class 0x5
  | 320 => some .ld | 321 => some .st | 322 => some .ldf | 323 => some .stf | 324 => some .pref
  | 325 => some (fun x => if modBit x.mod 8 then .cwbAll x else .cwb x)
  | 326 => some .spmap | 327 => some .spwb | 328 => some .sprel
  -- lane class 0x6
  | 384 => some .atom | 385 => some .atomn | 386 => some .acas | 387 => some .fence
  -- lane class 0x7
  | 448 => some .bari | 449 => some .bara | 450 => some .barax | 451 => some .barw | 452 => some .barq
  | 453 => some .waitc | 454 => some .jset | 455 => some .join | 456 => some .yield_ | 457 => some .nap
  -- lane class 0x8
  | 512 => some .bra | 513 => some .brx | 514 => some .call | 515 => some .callx | 516 => some .ret
  | 517 => some (fun x => if modBits x.mod 6 5 = 0 then .exit x else if modBits x.mod 6 5 = 1 then .exitTeam x else .exitGrid x)
  | 518 => some .trap | 519 => some .brk | 520 => some .step_ | 521 => some .safe
  -- lane class 0x9
  | 576 => some .mxq | 577 => some .mxz
  | 578 => some (fun x => if modBit x.mod 9 then .mxrdCfg x else .mxrd x)
  | 579 => some .mxwr | 580 => some .mxld | 581 => some .mxst | 582 => some .mxcfg
  -- lane class 0xA
  | 640 => some .cpy | 641 => some .cpys | 642 => some .dqpop | 643 => some .dqpeek | 644 => some .svc
  -- lane class 0xB
  | 704 => some .sread | 705 => some .swrite | 706 => some .featq | 707 => some .rft | 708 => some .dbgret
  | 709 => some .unpark | 710 => some .tlbsync
  -- lane class 0xC
  | 768 => some .imad24 | 769 => some .barsync | 770 => some .frcpa | 771 => some .ldgx
  -- uniform class 0x0
  | 1024 => some .uadd | 1025 => some .usub | 1026 => some .umul | 1027 => some .umad | 1028 => some .umin
  | 1029 => some .umax | 1030 => some .uand | 1031 => some .uor | 1032 => some .uxor | 1033 => some .ushl
  | 1034 => some .ushr | 1035 => some .usar | 1036 => some .ubfx | 1037 => some .ulea
  -- uniform class 0x1
  | 1088 => some .ucmp | 1089 => some .usel | 1090 => some .umov | 1091 => some .ufrom | 1092 => some .uld
  | 1093 => some .ust | 1094 => some .uatom
  -- uniform class 0x2
  | 1152 => some .ubra | 1153 => some .ubrx | 1154 => some .ucall | 1155 => some .uret | 1156 => some .uloop
  | 1157 => some .uexit
  -- uniform class 0x3
  | 1216 => some .dqpush | 1217 => some .ucpy | 1218 => some .ucpys | 1219 => some .ulaunch | 1220 => some .utrig
  | 1221 => some .ugwait | 1222 => some .evpop | 1223 => some .evwait | 1224 => some .uclock
  -- uniform class 0x4
  | 1280 => some .usread
  | 1281 => some (fun x => if modBit x.mod 9 then .uswriteRft x else .uswrite x)
  | 1282 => some .ufence
  | _ => none

/-- The key of a form: the opcode map read the other way. -/
def keyOf (i : Instr) : Option Nat :=
  match i with
  -- lane class 0x0
  | .iadd _ => some 0 | .isub _ => some 1 | .imul _ => some 2 | .imulh _ => some 3 | .imad _ => some 4 | .imadw _ => some 5
  | .ineg _ => some 6 | .iabs _ => some 7 | .imin _ => some 8 | .imax _ => some 9 | .iaddc _ => some 10 | .isubb _ => some 11
  | .lea _ => some 12 | .idot4 _ => some 13 | .isad _ => some 14
  -- lane class 0x1
  | .and _ => some 64 | .or _ => some 65 | .xor _ => some 66 | .andn _ => some 67 | .bool3 _ => some 68 | .shl _ => some 69
  | .shr _ => some 70 | .sar _ => some 71 | .rot _ => some 72 | .shf _ => some 73 | .bfx _ => some 74 | .bfi _ => some 75
  | .popc _ => some 76 | .clz _ => some 77 | .ctz _ => some 78 | .brev _ => some 79 | .bytep _ => some 80
  -- lane class 0x2
  | .icmp _ => some 128 | .fcmp _ => some 129 | .sel _ => some 130 | .pset _ => some 131 | .pmov _ => some 132
  | .pmovUnpack _ => some 132 | .mov _ => some 133 | .shfl _ => some 134 | .vote _ => some 135 | .match_ _ => some 136
  | .redux _ => some 137 | .scan _ => some 138
  -- lane class 0x3
  | .fadd _ => some 192 | .fsub _ => some 193 | .fmul _ => some 194 | .ffma _ => some 195 | .fmin _ => some 196
  | .fmax _ => some 197 | .frnd _ => some 198 | .fscale _ => some 199 | .fclass _ => some 200 | .fdot2 _ => some 201
  | .padd _ => some 202 | .pmul _ => some 203 | .pfma _ => some 204 | .pmin _ => some 205 | .pmax _ => some 206
  -- lane class 0x4
  | .frcp _ => some 256 | .frsq _ => some 257 | .fsqrt _ => some 258 | .fexp2 _ => some 259 | .flog2 _ => some 260
  | .fsin _ => some 261 | .fcos _ => some 262 | .ftanh _ => some 263 | .fcvt _ => some 264 | .icvt _ => some 265
  | .fcvti _ => some 266 | .pack _ => some 267 | .unpk _ => some 268
  -- lane class 0x5
  | .ld _ => some 320 | .st _ => some 321 | .ldf _ => some 322 | .stf _ => some 323 | .pref _ => some 324
  | .cwb _ => some 325 | .cwbAll _ => some 325 | .spmap _ => some 326 | .spwb _ => some 327 | .sprel _ => some 328
  -- lane class 0x6
  | .atom _ => some 384 | .atomn _ => some 385 | .acas _ => some 386 | .fence _ => some 387
  -- lane class 0x7
  | .bari _ => some 448 | .bara _ => some 449 | .barax _ => some 450 | .barw _ => some 451 | .barq _ => some 452
  | .waitc _ => some 453 | .jset _ => some 454 | .join _ => some 455 | .yield_ _ => some 456 | .nap _ => some 457
  -- lane class 0x8
  | .bra _ => some 512 | .brx _ => some 513 | .call _ => some 514 | .callx _ => some 515 | .ret _ => some 516
  | .exit _ => some 517 | .exitTeam _ => some 517 | .exitGrid _ => some 517 | .trap _ => some 518 | .brk _ => some 519
  | .step_ _ => some 520 | .safe _ => some 521
  -- lane class 0x9
  | .mxq _ => some 576 | .mxz _ => some 577 | .mxrd _ => some 578 | .mxrdCfg _ => some 578 | .mxwr _ => some 579
  | .mxld _ => some 580 | .mxst _ => some 581 | .mxcfg _ => some 582
  -- lane class 0xA
  | .cpy _ => some 640 | .cpys _ => some 641 | .dqpop _ => some 642 | .dqpeek _ => some 643 | .svc _ => some 644
  -- lane class 0xB
  | .sread _ => some 704 | .swrite _ => some 705 | .featq _ => some 706 | .rft _ => some 707 | .dbgret _ => some 708
  | .unpark _ => some 709 | .tlbsync _ => some 710
  -- lane class 0xC
  | .imad24 _ => some 768 | .barsync _ => some 769 | .frcpa _ => some 770 | .ldgx _ => some 771
  -- uniform class 0x0
  | .uadd _ => some 1024 | .usub _ => some 1025 | .umul _ => some 1026 | .umad _ => some 1027 | .umin _ => some 1028
  | .umax _ => some 1029 | .uand _ => some 1030 | .uor _ => some 1031 | .uxor _ => some 1032 | .ushl _ => some 1033
  | .ushr _ => some 1034 | .usar _ => some 1035 | .ubfx _ => some 1036 | .ulea _ => some 1037
  -- uniform class 0x1
  | .ucmp _ => some 1088 | .usel _ => some 1089 | .umov _ => some 1090 | .ufrom _ => some 1091 | .uld _ => some 1092
  | .ust _ => some 1093 | .uatom _ => some 1094
  -- uniform class 0x2
  | .ubra _ => some 1152 | .ubrx _ => some 1153 | .ucall _ => some 1154 | .uret _ => some 1155 | .uloop _ => some 1156
  | .uexit _ => some 1157
  -- uniform class 0x3
  | .dqpush _ => some 1216 | .ucpy _ => some 1217 | .ucpys _ => some 1218 | .ulaunch _ => some 1219 | .utrig _ => some 1220
  | .ugwait _ => some 1221 | .evpop _ => some 1222 | .evwait _ => some 1223 | .uclock _ => some 1224
  -- uniform class 0x4
  | .usread _ => some 1280 | .uswrite _ => some 1281 | .uswriteRft _ => some 1281 | .ufence _ => some 1282
  | _ => none

/-- Bits h down to l of a word, as a number. -/
def field (w : BitVec 208) (h l : Nat) : Nat := (w.toNat >>> l) % 2 ^ (h + 1 - l)

/-- The control fields and guard of a word (R246). -/
def ctlOf (w : BitVec 208) : Ctl :=
  { gap := BitVec.ofNat 4 (field w 78 75), yld := w.getLsbD 74, alloc := BitVec.ofNat 3 (field w 73 71),
    wait := BitVec.ofNat 7 (field w 70 64), neg := w.getLsbD 53, guard := BitVec.ofNat 3 (field w 52 50) }

/-- An operand field by its role (R251): unused and raw fields hold plain numbers; a reserved code stays a number too. -/
def decodeOpnd (r : Role) (code : Nat) (lit : BitVec 64) : Opnd :=
  match r with
  | .unused => .raw (BitVec.ofNat 9 code)
  | .raw => .raw (BitVec.ofNat 9 code)
  | _ =>
    if code < 256 then .v (BitVec.ofNat 8 code)
    else if code < 320 then .s (BitVec.ofNat 6 (code - 256))
    else if code < 352 then .k (BitVec.ofNat 5 (code - 320))
    else if code < 360 then .p (BitVec.ofNat 3 (code - 352))
    else if code = 510 then .lit32 (lit.setWidth 32)
    else if code = 511 then .lit64 lit
    else .raw (BitVec.ofNat 9 code)

/-- Bytes that an operand adds to the instruction (R247). -/
def opndLen (o : Opnd) : Nat := match o with | .lit32 _ => 4 | .lit64 _ => 8 | _ => 0

/-- The form and fields that a word names, its operands still unchecked; none where CLASS and MINOR name nothing. -/
def readWord (w : BitVec 208) : Option Instr :=
  match formOfKey (field w 79 60 / 2 ^ 19 * 1024 + field w 63 54) with
  | none => none
  | some mk =>
    let rawArgs : Args := { ctl := ctlOf w, d := .raw (BitVec.ofNat 9 (field w 49 41)),
                            a := .raw (BitVec.ofNat 9 (field w 40 32)), b := .raw (BitVec.ofNat 9 (field w 31 23)),
                            c := .raw (BitVec.ofNat 9 (field w 22 14)), ty := Ty.ofCode (field w 13 10),
                            mod := BitVec.ofNat 10 (field w 9 0) }
    match sigOf (mk rawArgs) with
    | none => none
    | some g =>
      let lit := BitVec.ofNat 64 (field w 143 80)
      some (mk { rawArgs with d := decodeOpnd g.d (field w 49 41) lit, a := decodeOpnd g.a (field w 40 32) lit,
                              b := decodeOpnd g.b (field w 31 23) lit, c := decodeOpnd g.c (field w 22 14) lit })

/-- The length of an instruction (R247): 10 bytes, and the literals that its used fields name. -/
def lengthOf (w : BitVec 208) : Nat :=
  match readWord w with
  | none => 10
  | some i =>
    match argsOf i with
    | none => 10
    | some x => 10 + opndLen x.d + opndLen x.a + opndLen x.b + opndLen x.c

/-- The word's own checks in the order of R257: the opcode map, then, past the retirement ladder, the operand checks. -/
def decode (w : BitVec 208) : Except Cause Instr :=
  match readWord w with
  | none => .error .illegalOpcode
  | some i => if isTrapped i || WellFormed i then .ok i else .error .illegalOperand

/-- Bytes in address order as one number, the first byte lowest (R3, R246). -/
def wordOfBytes (bs : List Byte) : Nat :=
  match bs with
  | [] => 0
  | b :: r => b.toNat + 256 * wordOfBytes r

/-- The decoder on bytes: the instruction and how many bytes it takes, or the cause that rejects it. Bytes that are not given
count as zero. -/
def decodeBytes (bs : List Byte) : Except Cause (Instr × Nat) :=
  let w := BitVec.ofNat 208 (wordOfBytes bs)
  match decode w with
  | .ok i => .ok (i, lengthOf w)
  | .error c => .error c

/-! ## The encoder -/

/-- The code of an operand (R251). -/
def opndCode (o : Opnd) : Nat :=
  match o with
  | .v n => n.toNat
  | .s n => 256 + n.toNat
  | .k c => 320 + c.toNat
  | .p n => 352 + n.toNat
  | .lit32 _ => 510
  | .lit64 _ => 511
  | .raw x => x.toNat

/-- The literal of an operand as a number. -/
def opndLit (o : Opnd) : Nat := match o with | .lit32 x => x.toNat | .lit64 x => x.toNat | _ => 0

/-- The control fields of a word, bits 79 to 50 less CLASS and MINOR. -/
def ctlBits (c : Ctl) : Nat :=
  c.gap.toNat * 2 ^ 75 + (if c.yld then 2 ^ 74 else 0) + c.alloc.toNat * 2 ^ 71 + c.wait.toNat * 2 ^ 64 +
  (if c.neg then 2 ^ 53 else 0) + c.guard.toNat * 2 ^ 50

/-- The word and literal of a form with its fields, as one number (R246, R247). -/
def encodeArgs (key : Nat) (x : Args) : Nat :=
  (key / 1024) * 2 ^ 79 + (key % 1024) * 2 ^ 54 + ctlBits x.ctl + opndCode x.d * 2 ^ 41 + opndCode x.a * 2 ^ 32 +
  opndCode x.b * 2 ^ 23 + opndCode x.c * 2 ^ 14 + (Ty.code x.ty).toNat * 2 ^ 10 + x.mod.toNat +
  (opndLit x.d + opndLit x.a + opndLit x.b + opndLit x.c) * 2 ^ 80

/-- The bytes window of a well-formed instruction; none for an event. -/
def encode (i : Instr) : Option (BitVec 208) :=
  match keyOf i, argsOf i with
  | some k, some x => some (BitVec.ofNat 208 (encodeArgs k x))
  | _, _ => none

/-- Bytes of a number, least significant first. -/
def bytesOfNat (n v : Nat) : List Byte :=
  match n with
  | 0 => []
  | k + 1 => BitVec.ofNat 8 v :: bytesOfNat k (v / 256)

/-- The bytes of a well-formed instruction in address order. -/
def encodeBytes (i : Instr) : List Byte :=
  match encode i with
  | some w => bytesOfNat (lengthOf w) w.toNat
  | none => []

/-- The instruction that the decoder reads from an instruction whose bits are w, numbered from bit 0 of its first byte. -/
def decodeTableWord (nbits w : Nat) : Option Instr :=
  match decodeBytes (bytesOfNat 26 (w % 2 ^ nbits)) with
  | .ok (i, _) => some i
  | .error _ => none

end Sys2Proof
end

