-- ==== Sys2Proof/Machine/Table.lean ====
section
/-!
DEFINITION. Tables as plain data: a list of (key, value) pairs with keys strictly rising, and a default for every key that is
not listed. 'put' keeps the form and lists no default, so that equal tables are equal lists.
-/

namespace Sys2Proof.Machine

/-- A sparse table with Nat keys. -/
abbrev Tab (α : Type) := List (Nat × α)

/-- The value listed at k, if any. -/
def Tab.find {α : Type} (t : Tab α) (k : Nat) : Option α :=
  match t with
  | [] => none
  | (j, v) :: r => if j = k then some v else Tab.find r k

/-- The value at k, d where none is listed. -/
def Tab.get {α : Type} (d : α) (t : Tab α) (k : Nat) : α := (Tab.find t k).getD d

/-- List v at k. -/
def Tab.set {α : Type} (t : Tab α) (k : Nat) (v : α) : Tab α :=
  match t with
  | [] => [(k, v)]
  | (j, w) :: r => if j < k then (j, w) :: Tab.set r k v else if j = k then (k, v) :: r else (k, v) :: (j, w) :: r

/-- List nothing at k. -/
def Tab.erase {α : Type} (t : Tab α) (k : Nat) : Tab α :=
  match t with
  | [] => []
  | (j, w) :: r => if j = k then Tab.erase r k else (j, w) :: Tab.erase r k

/-- Write v at k, keeping defaults unlisted. -/
def Tab.put {α : Type} [DecidableEq α] (d : α) (t : Tab α) (k : Nat) (v : α) : Tab α :=
  if v = d then Tab.erase t k else Tab.set t k v

/-- Change the value listed at k, if one is. -/
def Tab.upd {α : Type} (t : Tab α) (k : Nat) (f : α → α) : Tab α :=
  match t with
  | [] => []
  | (j, w) :: r => if j = k then (j, f w) :: r else (j, w) :: Tab.upd r k f

/-- Keys strictly rising. -/
def Tab.wf {α : Type} (t : Tab α) : Bool :=
  match t with
  | [] => true
  | [_] => true
  | (i, _) :: (j, w) :: r => i < j && Tab.wf ((j, w) :: r)

end Sys2Proof.Machine
end

