-- ==== Sys2Proof/Machine/State.lean ====
section
/-!
DEFINITION. The state of one UBS-1604 package as plain data: memory and the homes, the cores with their caches, locks and
engines, the warps and control threads, the teams and grids, the launch front, the host port, the register block, the links,
power and management, and what the model itself keeps (the order in which the agents move). State.reset is the machine right
after package reset. The stop reasons Fault and Refusal stand here too.
-/

namespace Sys2Proof.Machine

/-! ## Why a step can stop -/

/-- Faults of the model. -/
inductive Fault where
  /-- Raised by a meaning that is called without the agent that would issue it (Cursor.none). Safe: step never does so. -/
  | noIssuer
deriving DecidableEq, Repr

/-- Refusals of the model. -/
inductive Refusal where
  /-- Raised by an arm of exec whose instruction has no meaning yet. Safe. -/
  | notModelled (mnemonic : String)
deriving DecidableEq, Repr

/-! ## Memory -/

/-- A memory: (address, byte) pairs with rising addresses, none of them zero, since an unlisted byte reads as zero
(log entry 1). -/
abbrev Mem := List Host.Cell

/-- The canonical form of a memory. -/
def Memory.wf (m : Mem) : Bool :=
  match m with
  | [] => true
  | [(_, v)] => v != 0
  | (i, v) :: (j, w) :: r => v != 0 && decide (i < j) && Memory.wf ((j, w) :: r)

/-- The key that a slot holds (R58, R59): the key drawn at reset, or 64 loaded bytes. 'none' is no key. -/
inductive KeyVal where
  | boot | loaded (k : BitVec 512)
deriving DecidableEq, Repr

/-- Host state of a line in its home's directory (R60). -/
inductive HState where
  | hi | hs | he
deriving DecidableEq, Repr

/-- What a home keeps of a resident line besides its bytes (R108). -/
structure L2Line where
  wts    : W32
  rts    : W32
  cls    : BitVec 2 := 0
  host   : HState := .hi
  key    : BitVec 6 := 0
  pinned : Bool := false
  dirty  : ByteMask := 0
  snoop  : Option Bool := none    -- a back-invalidation is outstanding (R126): for data, or (true) to invalidate
  forWrite : Bool := false        -- it is for a device write or atomic to the line
  copy   : Option Line := none    -- its bytes where they are DRAM bytes seen under another key (R58)
  way    : Nat := 0
  recalled : Bool := false        -- its host copy was invalidated for the write that comes next (R125)
deriving DecidableEq, Repr

/-- A line of the host-homed window in the L2 of its I/O die (R127): its bytes and the time of its fill. -/
structure HostLine where
  data   : Line
  filled : Nat
  way    : Nat := 0
  poison : ByteMask := 0          -- R130
deriving DecidableEq, Repr

/-- A line of a core's L1 (R108). 'peer' is the datum window in which a peer line was filled (R128). -/
structure L1Line where
  data  : Line := 0
  valid : BitVec 4 := 0
  dirty : ByteMask := 0
  wts   : W32 := 0
  rts   : W32 := 0
  dclk  : W32 := 0
  key   : BitVec 6 := 0
  known : Bool := false           -- wts and rts come from the home
  peer  : Option Nat := none
  sent  : List (Nat × ByteMask) := []   -- write-backs in flight: their request, and the bytes it carries not stored again since (R114)
  poison : ByteMask := 0          -- R130
  part  : Nat := 0
  home2 : Bool := false           -- its page is HOME 2
deriving DecidableEq, Repr

/-! ## Translation -/

/-- What an access does (R155, R161). CWB's needs a valid leaf and no permission (R358). -/
inductive Access where
  | read | write | atomic | fetch | clean
deriving DecidableEq, Repr

/-- A leaf held in a TLB (R151, R158). 'size' is its page size in bytes. -/
structure TlbEntry where
  asid  : W16
  base  : Nat                     -- first virtual address of the page
  size  : Nat
  leaf  : W64
deriving DecidableEq, Repr

/-- An entry of a walk cache (R158): the 8 bytes read at a physical address, for walks of one ASID. -/
structure WalkEntry where
  asid : W16
  pa   : Nat
  word : W64
deriving DecidableEq, Repr

/-- An engine command: a copy command, or a queue entry of a warp at the matrix engine. -/
inductive EngRef where
  | cmd (id : Nat)
  | mx (w id : Nat)
deriving DecidableEq, Repr

/-- Who waits on a walk or is parked on a fault. -/
inductive Waiter where
  | lanes (a : Agent) (m : Mask)
  | engine (r : EngRef)
  | peer (id : Nat)
  | grid (entry : Nat)            -- the completion record of a grid (R55)
  | hw (core part : Nat)          -- a read that the hardware makes for a core's agents (R63)
  | prefetch (a : Agent) (l2 : Bool)      -- the prefetch of one lane (R357)
deriving DecidableEq, Repr

/-- Who waits on a walk, with the address and the kind of its own access (R157, R159). -/
structure WalkWaiter where
  who    : Waiter
  va     : W64
  access : Access
deriving DecidableEq, Repr

/-- A walk queued or running on a die (R158, R159). -/
structure Walk where
  id      : Nat
  die     : Nat
  asid    : W16
  va      : W64
  access  : Access
  waiters : List WalkWaiter
  stale   : Bool := false         -- an invalidation was posted while it was in flight (R166)
deriving DecidableEq, Repr

/-- A request to the service cores for a fault (R161). -/
structure FaultReq where
  id      : Nat
  asid    : W16
  va      : W64
  access  : Access
  who     : Waiter
deriving DecidableEq, Repr

/-- A request through PRI for the host-homed window (R63). -/
structure PriReq where
  id   : Nat
  pa   : Nat
  asid : W16
  who  : Waiter
  ticket : Nat
deriving DecidableEq, Repr

/-! ## Requests at the homes -/

/-- Who sent a request to a home (R126); 'own' is the device itself (R431). -/
inductive Src where
  | core (c : Nat) | engine (c : Nat) | own | peer (chip : Nat)
deriving DecidableEq, Repr

/-- What waits for a reply: a result being gathered, a counter, a release in progress, an engine command. -/
inductive Await where
  | none
  | flight (a : Agent) (id : Nat) (lane off at_ n : Nat)      -- n bytes from offset off of the line go to byte at_ of lane
  | store (a : Agent) (id : Nat) (rel : Bool) (lane : Nat) (pc va : W64)  -- a write of a cnt.st instruction; rel raises WCLK (R115, R116)
  | region (a : Option Agent) (team k line off n : Nat)              -- bytes of the first touch of a line of region k (R123)
  | engine (r : EngRef) (piece pos off n : Nat)               -- n bytes from offset off of the line are source bytes from pos on
  | engineW (r : EngRef) (piece : Nat)                        -- a write of a piece
  | fetch (a : Agent)
  | peer (id off n : Nat)                                     -- n bytes from offset off of the line answer a peer (R164)
  | grid (entry : Nat)                                        -- a write of a grid's completion record (R55)
  | prefetch (core : Nat)                                     -- bytes for an L1 alone (R357)
  | evict
deriving DecidableEq, Repr

/-- The operation of an atomic at its point of performance (R361): the operation code of R360, 8 for compare-and-swap. -/
structure AtomOp where
  op  : Nat
  ty  : Ty
  b   : W64
  cmp : W64 := 0
deriving DecidableEq, Repr

/-- An atomic that the device makes on its own account (R431): bits set in a word (R154), or a count that saturates (R291). -/
inductive OwnOp where
  | setBits (b : W64) | count
deriving DecidableEq, Repr

/-- What a request asks of the home of its line. -/
inductive ReqKind where
  | renew (wts : Option W32) (sector : Nat) (pin : Option (BitVec 2)) (l2only : Bool)          -- R111
  | read1                                                                                        -- R112
  | wback (data : Line) (bytes : ByteMask) (wts : Option W32) (poison : ByteMask)                -- R114
  | atomic (off : Nat) (op : AtomOp)                                                             -- R116
  | rawRead                                                                                      -- R109, HOME 3
  | rawWrite (data : Line) (bytes : ByteMask)                                                    -- R109, HOME 3
  | own (off : Nat) (op : OwnOp)                                                                 -- R431
deriving DecidableEq, Repr

/-- A request for a line of homes 0–5, with the clock c it carries. 'sent' is when it left, 'path' the links of its way (R16), 'arrived'
the 940 MHz cycle in which it reached the home (R126); 'evicted' that its line left the L1 meanwhile (R129). -/
structure Req where
  id    : Nat
  src   : Src
  core  : Nat
  line  : Nat
  key   : BitVec 6
  part  : Nat
  home2 : Bool := false
  c     : W32
  kind  : ReqKind
  awaits : List Await
  sent  : Nat := 0
  path  : List Nat := []
  arrived : Option Nat := none
  evicted : Bool := false
  kept    : Line := 0             -- the dirty bytes that its line held when it left the L1 (R129, R135), and which of them are poisoned
  keptMask : ByteMask := 0
  keptBad : ByteMask := 0
  keptClk : W32 := 0              -- and the clock of its writers
deriving DecidableEq, Repr

/-- A reply on its way back to a core. -/
structure Reply where
  id    : Nat
  req   : Req
  wts   : W32
  rts   : W32
  data  : Line
  sectors : BitVec 4
  same  : Bool
  old   : W64 := 0
  bad   : ByteMask := 0           -- poisoned bytes (R130)
  cause : Cause := .none          -- the request failed at the home
  sent  : Nat := 0                -- when it left the home, and the links of its way
  path  : List Nat := []
deriving DecidableEq, Repr

/-! ## Results on their way -/

/-- The register that one write goes to. Lane destinations hold for the write's lane. -/
inductive Dest where
  | v (n : Nat) | p (n : Nat) | s (n : Nat) | q (n : Nat) | j (k : Nat) | flags | sr (idx : Nat) | tag (k : Nat) | cd
deriving DecidableEq, Repr

/-- One register write in one lane. -/
structure RegWrite where
  lane : Nat
  dest : Dest
  val  : BitVec 128
deriving DecidableEq, Repr

/-- A fixed-latency result that has issued and not landed (R259, R260): it lands in the core cycle 'due'. -/
structure Landing where
  id     : Nat
  due    : Nat
  lanes  : Mask
  writes : List RegWrite
  spec   : Option Nat := none     -- the speculation entry it belongs to (R92)
deriving DecidableEq, Repr

/-- How the bytes of a load become registers. -/
inductive Form where
  | plain (d : Opnd) (ty : Ty) (size : Nat)                                     -- R353, R360
  | cas (d : Opnd) (ty : Ty) (pd : Nat)                                         -- R361, ACAS
  | ldf (d : Nat) (wide : Ty) (t4 : Bool)                                       -- R355, R356
  | ready                                                                       -- the writes are already formed
deriving DecidableEq, Repr

/-- The completion counter that an instruction holds raised (R262). -/
inductive Counter where
  | none | ld | st
deriving DecidableEq, Repr

/-- A variable-latency result (R261): the bytes gathered so far, keyed 64 × lane + byte, and how many pieces are missing. -/
structure Flight where
  id      : Nat
  tag     : Nat
  cnt     : Counter
  pc      : W64
  lanes   : Mask
  form    : Form
  bytes   : Tab Byte := []
  missing : Nat := 0
  bad     : Tab Cause := []       -- lanes whose bytes could not be had (R130, R164)
  vas     : Tab W64 := []         -- the lanes' access addresses
  writes  : List RegWrite := []
  cmp     : Tab W64 := []         -- ACAS: the compare value of each lane
  acquire : Option Nat := none    -- scope of an acquire that completes with it (R134)
  dead    : Mask := 0             -- lanes undone or trapped since (R93, R261)
  svc     : Bool := false         -- the SVC whose reply it awaits (R201)
  blame   : Mask := 0             -- the lanes that answer for a uniform access: every executing one
  spec    : Option Nat := none
  room    : Mask := 0             -- lanes of its instruction that wait for room in the miss buffer (R159)
deriving DecidableEq, Repr

/-- An access to a scratchpad array that has issued and is not yet performed (R353). -/
inductive ArrayKind where
  | load (flight : Nat) (at_ : Nat)
  | store (data : BitVec 128)
  | atomic (op : AtomOp) (flight : Option Nat)
deriving DecidableEq, Repr

structure ArrayOp where
  id    : Nat
  agent : Agent
  lane  : Nat
  team  : Nat                     -- whose allocation
  off   : Nat
  n     : Nat
  kind  : ArrayKind
  cnt   : Counter
  owner : Nat := 0                -- the cnt.st instruction it belongs to
  pc    : W64 := 0                -- the instruction's address
  blame : Mask := 0               -- the lanes that answer for it: every executing one, for a uniform access
  whole : Nat × Nat := (0, 0)     -- offset and length of the access whose piece it is, and the number of its first piece
  first : Nat := 0
  passed : Bool := false          -- the range locks have let the access in (R142)
deriving DecidableEq, Repr

/-! ## Waiting -/

/-- Where a barrier object lies. -/
inductive ObjLoc where
  | sp (team off : Nat)
  | glob (pa : Nat) (va : W64) (leaf : W64)
deriving DecidableEq, Repr

/-- Why a lane is blocked at its instruction (R85). -/
inductive Why where
  | join (k pd : Nat)
  | barw (obj : ObjLoc) (epoch : Nat)
  | barq
  | waitc (ld st cp mx : Nat)
  | dqpop (d : Opnd) (flight : Nat)
  | nap (until_ : Nat)
  | walk (ids : List Nat)                       -- its page is walked for (R159)
deriving DecidableEq, Repr

/-- A blocked lane: why, since when, and where it goes on. -/
structure Block where
  why   : Why
  since : Nat                     -- core cycle
  time  : Nat                     -- machine time, for the stations of long waits (R244)
  next  : W64                     -- address past the instruction
deriving DecidableEq, Repr

/-- Why an agent as a whole is not ready, its LPC or CPC still at the instruction (release, fence, TLBSYNC, translation), or
waits in it (EVWAIT, UGWAIT). -/
inductive Hold where
  | none
  | release (began : Nat)                       -- R115, R145
  | scales (flight : Nat)                       -- STF reads its scale bytes (R218)
  | walk (ids : List Nat)                       -- R159
  | tlbsync (g : W32)                           -- R403
  | evwait (until_ : Option Nat) (since : Nat)  -- R390
  | ugwait (since : Nat)                        -- R394
deriving DecidableEq, Repr

/-- One piece of an access: 'n' bytes from byte 'pos' of the access, within one 64-byte sector. -/
structure Seg where
  va   : W64
  pa   : Nat
  pos  : Nat
  n    : Nat
  leaf : W64
deriving DecidableEq, Repr

/-- A store held back under speculation (R92): its pieces in global memory, or a team and offset of a scratchpad. -/
structure HeldStore where
  lane : Nat
  segs : List Seg := []
  sp   : Option (Nat × Nat) := none
  n    : Nat
  data : BitVec 128
  rel  : Option Nat := none       -- the scope of a release store
deriving DecidableEq, Repr

inductive SpecKind where
  | plain
  | branch (p : Nat) (neg : Bool) (taken : Tab W64) (predicted : Mask) (call : Bool) (awaits : List Nat)
  | svc (flight : Nat) (value : W64)
deriving DecidableEq, Repr

/-- One entry of the speculation window (R92): what it would take to undo it, and what it holds back. -/
structure SpecEntry where
  id       : Nat
  pc       : W64
  next     : W64
  lanes    : Mask
  kind     : SpecKind
  undo     : List RegWrite := []      -- old values, newest first
  held     : List HeldStore := []
  flags    : List (Nat × BitVec 5) := []
  deferred : Mask := 0
  began    : Option Nat := none       -- when the release of its stores began (R115)
deriving DecidableEq, Repr

/-- One predictor entry (R91): kind code and last mask. The reset value is none-taken. -/
structure PredEntry where
  kind : Nat := 1
  last : Mask := 0
deriving DecidableEq, Repr

/-- A fault ticket of a warp (R97): its lanes with the address at which each faulted. 'reply' is an answer held while the warp is in
handler mode or saved (R98, R82): none to retry, or the cause that the lanes are to raise. -/
structure Ticket where
  id    : Nat
  page  : Nat
  lanes : Mask
  vas   : Tab W64 := []
  reply : Option (Option Cause) := none
deriving DecidableEq, Repr

/-- A cause that a lane is to raise when it runs again, with its address (R98, R161); 'guess' says that a walk failed for it under
speculation, so that the cause is deferred with its entry and not kept (R92); 'handler' that it was met in handler mode. 'pc' is the
instruction that the lane is to execute again, 'since' the cycle in which a ticket's answer brought the cause (R406). -/
structure Owed where
  cause : Cause
  va    : W64
  pc    : W64
  since : Option Nat := none
  guess : Bool := false
  handler : Bool := false
deriving DecidableEq, Repr

/-- A trap that waits for the warp's next issue decision (R203) or for speculation to resolve (R100). -/
structure PendTrap where
  lanes : Mask
  cause : Cause
  pc    : W64
  addr  : W64
  keep  : Bool := false           -- the lanes keep the LPC at which they stand
  access : Nat := 0               -- the number of the access whose answer raised it, 0 for an instruction in issue
deriving DecidableEq, Repr

/-! ## Agents -/

/-- What a warp and a control thread share. -/
structure Ctx where
  team     : Nat
  s        : Tab W32 := []                      -- s0–s63 (R263)
  q        : BitVec 8 := 0x80                   -- q0–q7, q7 true
  wclk     : W32 := 0                           -- R110
  flags    : BitVec 5 := 0                      -- R102
  edge     : W64 := 0                           -- R229
  busy     : BitVec 8 := 0                      -- bit k: tag k busy (R261)
  ld       : Nat := 0                           -- completion counters (R262)
  st       : Nat := 0
  cp       : Nat := 0
  mx       : Nat := 0
  hold     : Hold := .none
  holdX    : Mask := 0                          -- the executing lanes of the instruction that holds
  gapUntil : Nat := 0                           -- R258, in core cycles
  yld      : Bool := false                      -- YLD of its last issue, and one more than the cycle of that issue (R258)
  yldAt    : Nat := 0
  readyAt : Nat := 0                            -- one more than the cycle since which it has been ready, 0 for not ready (R74)
  landings : List Landing := []                 -- oldest first
  landed   : Nat × List Landing := (0, [])      -- a cycle, and the results that have landed in it (R260)
  flights  : List Flight := []
  stores   : Tab Nat := []                      -- instruction id → write-backs it waits for (cnt.st)
  storeFor : Tab Mask := []                     -- instruction id → the lanes that answer for a uniform one
  roomFor  : Tab Mask := []                     -- by cnt.st instruction: the lanes of it that wait for room in the miss buffer (R159)
  storeBad : Tab (W64 × List (Nat × Cause × W64)) := []  -- by instruction id: its address, and the lanes whose bytes were refused (R163, R164)
  handler  : Bool := false                      -- handler mode (R100)
  trapMask : Mask := 0
  trapCause : BitVec 6 := 0
  trapAddr : W64 := 0
  trapPc   : W64 := 0
  saveBase : W64 := 0                           -- R78, R82
  trap     : Option PendTrap := none
  errMx    : Option (Cause × W64) := none       -- raised by the next WAITC (R181)
  cmdClock : W32 := 0                           -- serial_max of T of the commands counted down (R141)
  lastCmd  : BitVec 128 := 0                    -- words 4–7 of the last copy command counted down (R243)
  lastMx   : BitVec 128 := 0                    -- and of the last matrix command
  mxLast   : Bool := false                      -- the last matrix command was counted down after the last copy command
  sysAcq   : Nat := 0                           -- time of the latest system-scope acquire (R127)
  seen     : Option W32 := none                 -- the clock left with bytes that it has read, for its next acquire (R140)
  placedAt : Nat := 0                           -- core cycle of placement, for creep and age (R119, R74)
  creeps   : Nat := 0
  age      : Nat := 0                           -- placement order
  halted   : Bool := false                      -- a control thread halted by the debugger (R234)
  safe     : Option Nat := none                 -- recorded safe-point index, while its save routine runs (R78)
  saved    : Bool := false                      -- its state has been taken (routine ended or forced)
  forced   : Bool := false
deriving DecidableEq, Repr

/-- How the source bytes of an engine's piece become its destination bytes (R187): as they are; decoded from a 16-byte piece, from
byte 'skip' of the result; encoded, the first element being number 'first' of its 16-byte piece. -/
inductive Conv where
  | raw
  | decode (t4 : Bool) (wide : Ty) (scales skip : Nat)
  | encode (t4 : Bool) (wide : Ty) (scales first : Nat)
deriving DecidableEq, Repr

/-- A piece that an engine moves (R190): destination bytes at_ to at_ + n − 1 of the command. 'raw' gathers the source bytes, by
number, and scale bytes from 256 on; 'missing' counts the reads awaited, 'writes' the writes awaited once 'sent'. -/
structure Piece where
  at_     : Nat
  n       : Nat
  raw     : Tab Byte := []
  missing : Nat := 0
  conv    : Conv := .raw
  dst     : List Seg := []
  sp      : List (Nat × Nat) := []              -- scratchpad destinations: team and offset
  sent    : Bool := false
  writes  : Nat := 0
  from_   : Nat := 0                            -- address of source byte 0, and of the scale bytes
  scaleVas : List Nat := []
  bad     : Bool := false                       -- its source could not be read, or its destination refused it (R193)
deriving DecidableEq, Repr

/-- A queue entry at the matrix engine (R175): an operation with what it captured at issue. -/
structure MxOp where
  id      : Nat
  kind    : Nat                                 -- minor code (R380); 7 for MXRD.cfg
  acc     : Nat                                 -- first quarter-tile
  n       : Nat := 0                            -- quarter-tiles named
  mod     : BitVec 10
  lanes   : Mask                                -- active lanes
  rows    : Tab W32 := []                       -- captured registers, keyed 16 × lane + register; 15: the scales
  boff    : Nat := 0                            -- B offset, or the address of MXLD and MXST
  sp      : Bool := false                       -- the address is a scratchpad offset
  d       : Nat := 0                            -- MXRD: destination register
  flight  : Nat := 0                            -- MXRD: its flight
  arrival : Nat                                 -- core cycle
  left    : List Nat := []                      -- quarters still to pass
  writing : List Nat := []                      -- quarters in passes that have started and not written
  started : Bool := false
  done    : Nat := 0                            -- MXLD, MXST: bytes done
  buf     : Tab Byte := []                      -- MXLD: bytes gathered; MXST: bytes to store
  pieces  : List Piece := []
  cfg     : BitVec 4 := 0                       -- the output setting at its place in the queue (R383)
  failed  : Option (Cause × W64) := none
  c       : W32 := 0
  t       : W32 := 0
  pc      : W64 := 0                            -- of its instruction (R241)
  cpc     : W64 := 0
  csn     : W32 := 0
  edge    : W64 := 0
  stopped : Option Nat := none                  -- suspended on a fault request
  noPage  : Option (W64 × Cause) := none        -- a walk for it failed at an address (R161)
deriving DecidableEq, Repr

/-- A warp (R70, R263). -/
structure Warp where
  ctx     : Ctx
  core    : Nat
  slot    : Nat
  idx     : Nat                                 -- index within the slot
  k       : Nat                                 -- index in the team
  width   : Nat
  live    : Mask
  parked  : Mask := 0
  halted  : Mask := 0
  deferred : Mask := 0
  blocks  : Tab Block := []
  lpc     : Tab W64 := []
  savedLpc : Tab W64 := []
  starve  : Tab Nat := []                       -- wait[i] of R86
  depth   : Tab Nat := []                       -- call depth of each lane, CD (R312)
  v       : Tab W32 := []                       -- v0–v255, keyed 256 × lane + n
  p       : Tab Bool := []                      -- p0–p6, keyed 8 × lane + n
  j       : Tab Mask := []
  arrived : Tab Mask := []                      -- Ak (R88)
  rounds  : Tab (Nat × Nat) := []               -- a join round: the cycle it began in, its timeout, 0 for none (R89)
  acc     : Tab (BitVec 48) := []               -- keyed 1024 × tile + 128 × row + column (R172)
  poison  : BitVec 64 := 0                      -- poisoned quarter-tiles (R181)
  mxcfg   : BitVec 4 := 0                       -- output code and .sat (R173)
  latch   : Option (Nat × Mask × Tab W32) := none   -- R174
  mxq     : List MxOp := []                     -- at most 4 (R175)
  tickets : List Ticket := []
  noTicket : Mask := 0
  unpend  : List (Nat × Owed) := []             -- by lane: lanes to raise a cause when they run again (R98, R161)
  window  : List SpecEntry := []                -- oldest first (R92)
  pred    : Tab PredEntry := []                 -- R91
  pend    : Tab (List (Nat × Option Nat)) := [] -- writes to a predicate with their speculation entry, youngest first, keyed 8 × lane + n (R90)
  reexec  : Mask := 0                           -- lanes that re-execute a deferred condition (R94)
  predstat : W64 := 0                           -- R96
  svc     : Option Nat := none                  -- flight of the SVC in progress (R201)
  safeLive : Mask := 0                          -- live lanes and call depths at the safe point taken (R78, R312)
  safeDepth : Tab Nat := []
  haltAsk : Bool := false                       -- a HALT command waits for its speculation to resolve (R234)
  lastPc  : W64 := 0                            -- address and executing lanes of its last issue (R240)
  lastX   : Mask := 0
  issuedAt : Nat := 0
deriving DecidableEq, Repr

/-- A record of the event queue (R105), with its hidden clock and edge id. -/
structure EvRec where
  source : BitVec 8
  status : BitVec 8
  cause  : BitVec 8
  flags  : BitVec 8
  csn    : W32
  bytes  : W32
  cpc    : W64
  object : W64
  t      : W32
  edge   : W64
deriving DecidableEq, Repr

/-- An entry of the decision queue (R104). -/
structure DqEntry where
  value  : W64
  mask   : Mask
  popped : Mask := 0
  clock  : W32
  edge   : W64
deriving DecidableEq, Repr

/-- A scratchpad region (R123). -/
structure Region where
  off    : Nat
  len    : Nat
  base   : W64
  filled : Tab Unit := []           -- lines filled, by number within the region
  dirty  : List Nat := []           -- dirty byte offsets
  clock  : W32 := 0                 -- serial_max of its writers' WCLK (R124)
  asked  : Tab Unit := []           -- lines whose first read is in flight, and how many pieces of each are awaited
  parts  : Tab Nat := []
  closing : Option Nat := none      -- the SPREL that unmaps it once its write-backs have replied (R359)
  gone    : Bool := false           -- it is unmapped but for lines whose first read was in flight then
deriving DecidableEq, Repr

/-- A copy command (R183–R195). -/
structure Cmd where
  id      : Nat
  core    : Nat
  team    : Nat
  warp    : Option Nat              -- the warp whose cnt.cp it holds
  desc    : BitVec 512
  c       : W32
  t       : W32
  pc      : W64 := 0                -- of its CPY (R241)
  cpc     : W64
  csn     : W32
  edge    : W64
  index   : List W32 := []          -- scatter: the captured index list (R185)
  next    : Nat := 0                -- destination bytes issued
  moved   : Nat := 0                -- destination bytes landed
  inflight : List Piece := []       -- pieces issued and not landed
  total   : Nat := 0                -- T of R185
  recv    : List Nat := []          -- the teams that receive the bytes
  failed  : Option Cause := none    -- it issues no more pieces and completes with this error (R193)
  acks    : List Nat := []          -- ranks that have not acknowledged
  suspended : Option Nat := none    -- fault request
  tail    : Bool := false
  complete : Bool := false
  noPage  : Option (W64 × Cause) := none    -- a walk for it failed at an address (R161)
  fmt     : Tab W64 := []           -- the format entries captured at its issue (R217)
  carry   : Tab Byte := []          -- by address: bytes of the last source piece read (R131), and of its scales (R219),
  scarry  : Tab Byte := []
  carryAt : Nat := 0                -- kept for the piece from this destination byte on
  unit    : Nat := 0                -- DECODE: the source piece that the next bytes come from, and how many of its bytes are done; ENCODE:
  off     : Nat := 0                -- source bytes of the item that are done (R187)
  uconv   : Conv := .raw            -- DECODE: the conversion of that source piece, and the addresses of its scales
  uscales : List Nat := []
  barAt   : Option (Nat × W64) := none      -- where its last piece found a global BAR: physical address and leaf
  since   : Nat := 0                -- the cycle of its issue
  fmtNew  : Bool := false           -- FMTBASE was written in that cycle: it waits for the new table (R406)
deriving DecidableEq, Repr

/-- A range held by an engine command (R142). -/
structure Lock where
  owner : Nat                       -- command or matrix operation id
  team  : Option Nat                -- a scratchpad range of this team, else a global range of asid
  asid  : W16
  lo    : Nat
  n     : Nat
  dest  : Bool
  since : Nat := 0                -- core cycle in which it was taken (R147)
deriving DecidableEq, Repr

/-- A reply predictor entry (R202). -/
structure SvcPred where
  pc    : W64
  call  : Nat
  value : W64
deriving DecidableEq, Repr

/-- An SVC request sent and not answered (R201). -/
structure SvcReq where
  warp  : Nat
  flight : Nat
  call  : Nat
  args  : List W64
  cpc   : W64
  csn   : W32
  pc    : W64
  lanes : Mask
  d     : Nat
  predicted : Option Nat            -- the speculation entry
  old   : W64
deriving DecidableEq, Repr

/-- A deferred call that has been accepted (R204). -/
structure Deferred where
  request : W32
  team    : Nat
  grid    : Nat
  num     : Nat
  csn     : W32
  cpc     : W64
  order   : Nat := 0                -- the grid's order of consumption, to tell it from a later one
deriving DecidableEq, Repr

/-- A schedule descriptor of a team (R196, R197): its bytes and, once released, what it takes from the agent that released
it. -/
structure SchedDesc where
  desc     : BitVec 512
  released : Option (W32 × W64 × W32 × W64) := none    -- c, CPC, CSN, edge id
  id       : Nat := 0               -- the number of its command, once it is released
  locked   : Bool := false          -- it has taken its range-lock entries (R142)
  at_      : Nat := 0               -- the cycle of its release (R406)
deriving DecidableEq, Repr

/-- A multicast held unissued by a pre-emption request (R78): its descriptor and what it took at issue. -/
structure HeldCast where
  desc : BitVec 512
  c    : W32
  pc   : W64 := 0
  cpc  : W64
  csn  : W32
  edge : W64
  warp : Option Nat
deriving DecidableEq, Repr

/-- How far the pre-emption of a team has come (R78). -/
inductive Preempt where
  | none
  | area (deadline : Nat)
  | retry (at_ : Nat)
  | drain (base : W64) (deadline : Nat)
  | points (base : W64) (deadline : Nat)
  | writeBack (base : W64)        -- every agent is saved; the release of the save area is under way (R81)
deriving DecidableEq, Repr

/-- A format-table entry as read from memory (R216). -/
abbrev FmtWord := W64

/-- A resident team with its control thread (R70, R72, R103). -/
structure Team where
  grid     : Nat                                -- launch-front entry
  num      : Nat                                -- t of R70
  core     : Nat
  k        : Nat                                -- residency index
  x : Nat
  y : Nat
  z : Nat
  rank     : Nat                                -- CLUSTERRANK
  ct       : Ctx
  cpc      : W64
  savedCpc : W64 := 0
  csn      : W32 := 0
  ctExited : Bool := false
  ctDepth  : Nat := 0
  ctSafeDepth : Nat := 0                        -- at the safe point taken (R312)
  ctFault  : Option Owed := none
  ctTicket : Option Ticket := none              -- a parked control thread
  warps    : List Nat                           -- keys of its warps, by k
  exited   : Mask := 0                          -- warps that have exited
  scr      : Mem := []                          -- its scratchpad allocation
  scrPoison : List Nat := []
  objClock : Tab W32 := []                      -- hidden object clocks, keyed by offset / 32 (R364)
  relClock : Tab W32 := []                      -- clocks that releases to the scratchpad left, keyed by offset / 32 (R136)
  regions  : Tab Region := []                   -- R123
  stage    : Nat := 0                           -- R197
  stageWas : Nat × Nat × Nat := (0, 0, 0)       -- the cycle of the last advance, STAGE before it, and STAGE as its warps alone have it (R406)
  sched    : List SchedDesc := []               -- descriptors not yet issued, in order
  dq       : List DqEntry := []                 -- R104
  eq       : List EvRec := []                   -- R105
  lost     : Bool := false                      -- a record was discarded
  trig     : Nat := 0                           -- R67
  trapBase : W64 := 0
  fmtBase  : W64 := 0
  fmt      : Tab FmtWord := []                  -- the 16 entries read (R217)
  fmtLoad  : Bool := false                      -- a table read is awaited
  fmtBy    : Option (Agent × Bool) := none      -- who wrote FMTBASE, and whether in handler mode (R217)
  fmtFlight : Option (Agent × Nat × W64) := none -- the read of the table under way: by whom, its number, the table's address
  leaves   : List W64                           -- feature leaves 0–6 (R287)
  svcPred  : Tab SvcPred := []
  preempt  : Preempt := .none
  reqMark  : Nat := 0                           -- requests and commands numbered below it are older than its pre-emption request (R78)
  reqRank  : Option Nat := none                 -- the waiting grid whose rank pressure asked for it (R77)
  heldCmd  : List HeldCast := []                -- multicasts held by a request (R78)
  started  : Bool := false
  ended    : Bool := false                      -- the grid was ended
  ending   : Bool := false                      -- EXIT.team or EXIT.grid has issued: its agents end in the next cycle (R315)
  array    : List ArrayOp := []                 -- accesses to its scratchpad not yet performed
deriving DecidableEq, Repr

/-- A saved warp (R80, R81): its state if saved by force, else only its safe-point index. -/
structure SavedWarp where
  k      : Nat
  safe   : Option Nat
  forced : Option Warp
  exited : Bool
  live   : Mask                                 -- saved through its routine: what the hardware keeps (R78, R312)
  depth  : Tab Nat
  wclk   : W32
  edge   : W64
  sysAcq : Nat := 0                             -- its latest system-scope acquire (R127), and what its next acquire takes
  seen   : Option W32 := none
deriving DecidableEq, Repr

/-- A saved team waiting to be placed again (R81, R82). -/
structure SavedTeam where
  team  : Team
  warps : List SavedWarp
  ctSafe : Option Nat
  area  : W64
  clock : W32                                   -- serial maximum of its object clocks (R364)
  release : W32 := 0                            -- clock of the release of its save area (R81)
  cmds  : List Cmd                              -- suspended commands
  events : List EvRec := []                     -- records held for it
  evLost : Bool := false
deriving DecidableEq, Repr

/-- Launch record fields (R51). -/
structure LaunchRec where
  code    : W64
  gx : Nat
  gy : Nat
  gz : Nat
  tx : Nat
  ty : Nat
  tz : Nat
  width   : Nat
  cluster : Bool
  vregs   : Nat
  sregs   : Nat
  acc     : Nat
  scratch : Nat
  rank    : Nat
  part    : Nat
  depth   : Nat
  pred    : List W64
  sched   : W64
  slots   : W64
  args    : W64
  compl   : W64
  legal   : Bool                                -- every field within the limits of R51
deriving DecidableEq, Repr

/-- The header fields that a placed team needs (R274, R275). -/
structure Header where
  lentry : Nat
  centry : Nat
  safe   : List (W64 × W64)                     -- the safe-point table, two words an entry
  fmtOff : Nat
  trapOff : Nat
deriving DecidableEq, Repr

/-- States of a grid in the launch front (R64). 'read' and 'checked' are the steps of R52 before WAITING. -/
inductive GState where
  | consumed | waiting | admitting | placing | running | draining | retired
deriving DecidableEq, Repr

/-- Who launched a child grid (R392). -/
structure Parent where
  entry : Nat
  team  : Nat
  num   : Nat                                   -- team number, to find it again after a save
  cpc   : W64
  csn   : W32
  clock : W32                                   -- the ULAUNCH's release
deriving DecidableEq, Repr

/-- A station that waits for its sequence number until the cycle ends (R244, R426). -/
structure Station where
  g       : Agent
  began   : Nat
  release : Nat
  arriver : W32
  edge    : W64
  kind    : Nat
  object  : Nat
deriving DecidableEq, Repr

/-- How far the completion record of a retired grid has come, where it goes to a window (R55): nothing yet, PRI asked and answered, bytes
8 to 31 sent and done, bytes 0 to 7 sent and done, or it cannot be written. -/
inductive Compl where
  | start | asked | ready | first | firstDone | last | done | failed
deriving DecidableEq, Repr

/-- A consumed launch that has not retired (R49, R64). -/
structure Grid where
  seq     : W32                                 -- launch sequence number
  queue   : Option Nat
  index   : W32                                 -- record index in its queue
  parent  : Option Parent := none
  raw     : BitVec 1024
  recAddr : Option W64 := none                  -- ULAUNCH: the record is read by the check
  rec_    : LaunchRec
  hdr     : Header
  asid    : W16
  part    : Nat
  rank    : Nat
  depth   : Nat
  order   : Nat                                 -- order of consumption
  state   : GState := .consumed
  token   : W64                                 -- GRIDID
  placed  : Nat := 0                            -- teams placed so far
  resident : List (Nat × Nat) := []             -- (team number, team key)
  exitedN : Nat := 0
  saved   : List SavedTeam := []
  trigs   : Tab (List (Nat × W32)) := []        -- by team number: (level, clock) of each raise
  begin_  : Nat := 0                            -- datum time of the first placement (R54)
  end_    : Nat := 0                            -- time of the retirement
  began   : Bool := false
  roomless : Option Nat := none                 -- since when its next team lacks only room (R77)
  tr      : W32 := 0                            -- retirement clock so far (R67)
  trAny   : Bool := false
  start   : W32 := 0                            -- clocks acquired by its placement
  cores   : List Nat := []                      -- cores that held its teams
  groups  : Tab Nat := []                       -- the cluster of each cluster group placed (R70)
  status  : Nat := 0
  cause   : BitVec 6 := 0
  lease   : W32 := 0                            -- LEASECFG (R118)
  ending  : Bool := false                       -- EXIT.grid or a failed handler ends it
  endBy   : Option (Nat × Nat) := none          -- the cycle in which it was ended, and the number of the team that ended it (R327)
  released : Bool := false                      -- the retirement write-backs are queued
  compl   : Compl := .start
  deriving DecidableEq, Repr

/-! ## Cores -/

/-- The cycle count of a core since it powered up, across clock divisions (R33, R395): 'base' cycles at time 'at_', and since
then one cycle each 50 × 2^div time units. -/
structure Clk where
  base : Nat := 0
  at_  : Nat := 0
  div  : Nat := 0
deriving DecidableEq, Repr

/-- A started array pass (R177, R178): who contributes which quarter, when it ends and when it writes. -/
structure Pass where
  parts  : List (Nat × Nat × Nat)               -- warp, operation id, quarter
  ends   : Nat
  writes : Nat
  tiles  : Tab (Tab Byte) := []                 -- by team: the B bytes read when the pass started
deriving DecidableEq, Repr

/-- A fetch line (R248). -/
structure FetchLine where
  asid : W16
  va   : Nat                                    -- virtual address / 64
  data : BitVec 512
  priv : Bool := false                          -- its page is PRIV (R155)
deriving DecidableEq, Repr

/-- A watchpoint of a core (R238). -/
structure Watch where
  obj    : ObjLoc
  target : W32                    -- identity of the warp that SETWP named
deriving DecidableEq, Repr

/-- A sampled request of a core that has not completed (R241). -/
structure SampReq where
  kind   : Nat
  issuer : W32
  datum  : Nat
  pc     : W64
  cpc    : W64
  csn    : W32
  va     : W64
  ref    : Nat                    -- the number of the request
  hops   : BitVec 8               -- the hops that it passes
deriving DecidableEq, Repr

structure Core where
  powered : Bool := false
  clk     : Clk := {}
  eclk    : W32 := 0xE0000000                   -- R108: CLKFLOOR at package reset
  l1      : Tab L1Line := []                    -- keyed by physical line number
  fetch   : List FetchLine := []
  tlb     : List TlbEntry := []
  locks   : List Lock := []                     -- at most 32 (R142)
  mxPtr   : Nat := 127                          -- R177
  portPtr : Nat := 127                          -- R179
  passes  : List Pass := []
  mxFree  : Nat := 0                            -- cycle from which the array is free
  portFree : Nat := 0
  portOp  : Option (Nat × Nat) := none          -- warp and operation that the accumulator port serves (R179)
  lead    : Option (Nat × Nat × Nat) := none    -- warp and operation that lead the next pass, and until when it waits (R177)
  joined  : List (Nat × Nat × Nat) := []        -- the quarters that have joined it so far: warp, operation, quarter
  leftover : Option (Nat × Nat) := none         -- warp and operation with quarters left
  slotFree : Tab Nat := []                      -- cycle from which quarter 4 × slot + q is free (R75)
  pipeFree : Nat := 0                           -- control pipe (R76)
  picks   : Tab (Nat × Nat) := []               -- by slot, 8 for the pipe: one more than the cycles of the last decision and the one before
  tuFree  : Tab Nat := []                       -- cycle from which a slot's transcendental unit is free (R329)
  watch   : Tab Watch := []
  sampPos : Nat := 0                            -- R240
  sampAt  : Nat := 0                            -- the cycle of the last PC sample, or that from which its periods count (R240)
  sampReq : Nat := 0                            -- requests since the last memory sample (R241)
  sampPend : List SampReq := []
deriving DecidableEq, Repr

/-! ## The package -/

/-- A command queue (R45–R49): its two configuration words and the slot's registers. -/
structure Queue where
  word0 : W64 := 0x3800000000000000             -- RANK 7
  word1 : W64 := 0
  heldBase : W64 := 0                           -- BASE and LOG2N when EN was last cleared
  head  : W32 := 0
  tail  : W32 := 0
  overrun : Bool := false
  badpost : Bool := false
  stale : Bool := false
  recfault : Bool := false
  cerr  : Bool := false
deriving DecidableEq, Repr

/-- A partition (R34, R38, R56, R84, R239). -/
structure Part where
  word0  : W64 := 0x0000000000320100            -- EN 0, SHARE 1, DEADLINE 50
  clusters : W64 := 0
  hbmshare : W64 := 0x40404040
  l2ways : W64 := 0xFFFF
  slots  : W64 := 0
  belcylo : W64 := 0
  belcyhi : W64 := 0
  keys   : W64 := 1
  refused : Bool := false
  pwrcfg : W64 := 0x4007                        -- PRANK 7, CAPLEVEL 64
  levels : List Nat := [64, 64, 64, 64, 64]     -- by cause (R34); the fourth follows CAPLEVEL
  thrAcc : List Nat := [0, 0, 0, 0, 0]          -- time each cause has been binding, up to thrAt
  thrAt  : Nat := 0
  minRank : BitVec 3 := 0                       -- PREEMPTCTL
  hold   : Bool := false
  goTeams : List (Nat × Nat × Nat) := []        -- teams of the last GO still in progress: key, the grid's order, team number
  savedN : Nat := 0
  forcedN : Nat := 0
  sampctl : W64 := 0x1820                       -- PCK 16, MEMK 12
  sampbuf : W64 := 0x10                         -- LOG2B 16
  sampN  : W32 := 0                             -- SAMPCTL.WRITTEN
  cur    : Tab Nat := []
  idleAt : Nat := 0                             -- since when it has no resident team and no queued launch
deriving DecidableEq, Repr

/-- A die-to-die link (R18–R23). -/
structure Link where
  rate     : Nat := 0                           -- 0 full, 1 half, 2 quarter, 3 down
  window   : Option (Nat × Nat) := none         -- a retraining window: opened at, new rate
  degraded : Bool := false
  request  : Option (Nat × Nat) := none         -- a waiting step request: the cycle it was raised in, target rate
  retrains : Nat := 0
  crc      : Nat := 0
  pin      : BitVec 2 := 0
  lastStep : Nat := 0
  fails    : Nat := 0                           -- CRC failures of the present flit in a row
  failing  : Bool := false                      -- its request or window is that of retry exhaustion
deriving DecidableEq, Repr

/-- A Belcy port (R24, R146). -/
structure Belcy where
  budget : BitVec 16 := 600
  late   : Nat := 0
  lanesDown : Nat := 0
  used   : Nat := 0                             -- bytes admitted in the present window
  lateNow : Bool := false
  wrote  : Bool := false                        -- it carried a write in the present window
deriving DecidableEq, Repr

/-- A remote write sent and not acknowledged (R144). -/
structure RemoteWrite where
  id     : Nat
  core   : Nat
  port   : Nat
  window : Nat
  owner  : Await := .none
  sentAt : Nat := 0
  pa     : Nat := 0
deriving DecidableEq, Repr

/-- A window in which remote writes of a core were sent, for the waits of R145. -/
structure SentWindow where
  core   : Nat
  window : Nat
  late   : Bool
  first  : Nat := 0               -- when its first write was sent
deriving DecidableEq, Repr

/-- A remote read or atomic that awaits its answer, or one that a peer has asked of this chip. -/
structure PeerWait where
  id     : Nat
  chip   : Nat
  pasid  : W16
  va     : W64
  op     : PeerOp
  await  : Await := .none
  edge   : W64 := 0
  pa     : Nat := 0                             -- the peer-window address here
  core   : Nat := 0
  stale  : Bool := false                        -- the L1 is not to keep its bytes (R138, R147)
deriving DecidableEq, Repr

/-- A host port (R28, R42, R44). -/
structure HostPort where
  admin : Bool := false
  hkey  : BitVec 6 := 0
  cxl   : Bool := false
  down  : Bool := false
  hdm   : Hdm := {}
deriving DecidableEq, Repr

/-- A transaction of the host-homed window in progress (R63, R127). -/
structure HostTxn where
  id    : Nat
  pa    : Nat
  n     : Nat
  write : Bool
  asid  : W16
  core  : Nat
  line  : Nat
  fill  : Bool                                  -- install the line in the I/O die's L2
  data  : BitVec 512 := 0
  atom  : Option AtomOp := none
  await : Await
  part  : Nat := 8
  later : ByteMask := 0           -- bytes of its line stored since a read was sent, and what they hold (R127)
  laterData : Line := 0
deriving DecidableEq, Repr

/-- A home and its clock (R110, R120, R122). -/
structure Home where
  mts    : W32 := 0
  spill  : Nat := 0
  sweeps : BitVec 8 := 0
  sweep  : Option (W32 × Nat) := none           -- limit, next set
  errors : List Nat := []                       -- error log, newest first
deriving DecidableEq, Repr

/-- Package states (R30); 'off' is without standby power. -/
inductive Pkg where
  | off | standby | boot | recovery | start | run | fatal
deriving DecidableEq, Repr

/-- An invalidation posted and not completed (R165, R166). -/
structure Inval where
  kind  : Nat
  asid  : W16
  va    : W64
  walks : List Nat                              -- walks in flight when it was posted
  uses  : List Nat                              -- accesses in flight when it was posted
  posted : Nat
deriving DecidableEq, Repr

/-- A debug context (R232, R237). Once it is detached, its warps keep LANESTOP. -/
structure DbgCtx where
  asid  : W16
  laneStop : Bool
  attached : Bool := true
  bps   : Tab W64 := []
deriving DecidableEq, Repr

/-- A program buffer in progress (R235): its slot, the agent, the entries not yet run and how many have run of 'count'; or, with count 0,
a single step (R236), at_ 1 once it has issued. -/
structure DbgRun where
  slot  : Nat
  seq   : W32
  agent : Agent
  at_   : Nat
  count : Nat
  words : List (BitVec 192)
  lanes : Mask := 0               -- the lanes that the step executed on
  handler : Bool := false         -- the agent was in handler mode when the step began
  hold    : Hold := .none         -- what a buffer's agent was held in, with its lanes: it goes on with that after the buffer
  holdX   : Mask := 0
  holdPc  : W64 := 0              -- the address at which those lanes stood
deriving DecidableEq, Repr

/-- A write of the device that waits until the device's writes numbered before 'mark' are performed (R232, R244). -/
structure LateWrite where
  mark : Nat
  core : Nat
  pa   : Nat
  n    : Nat
  v    : Nat
deriving DecidableEq, Repr

/-- A fatal record (R39). -/
structure FatalRec where
  cause : FatalCause
  datum : Nat
deriving DecidableEq, Repr

/-- The counters among the lifetime records (R39). -/
structure Counts where
  powerOn     : Nat := 0                        -- time units (log entry 3)
  tempHours   : Tab Nat := []                   -- die × 32 + bin, in steps of 100 µs
  voltHours   : Tab Nat := []
  corrected   : Tab W32 := []                   -- by structure
  uncorrected : Tab W32 := []
  retrains    : Tab W32 := []                   -- per link
  downs       : Tab W32 := []                   -- per link
  laneEvents  : Tab W32 := []                   -- per Belcy port
  throttle    : List Nat := [0, 0, 0, 0, 0]     -- time units per cause
deriving DecidableEq, Repr

/-- Vudor's own state: flash, records, image, hall frame (R35 to R41). -/
structure Vudor where
  image     : Option Image := none
  minVersion : Nat := 0
  chipId    : Option (BitVec 10) := none        -- stored configuration
  hallKey   : BitVec 256 := 0
  counts    : Counts := {}
  stored    : Counts := {}                      -- as last committed to flash
  committedAt : Nat := 0
  lastUnc   : List (Nat × Nat × Nat) := []      -- datum, structure, address; newest first, at most 64
  fatal     : List FatalRec := []               -- newest first, at most 16
  -- hall frame in force (R36)
  frame     : Option (BitVec 320) := none
  lapseAt   : Nat := 0
  hallAt    : Nat := 0                          -- when the hall levels were last computed
deriving DecidableEq, Repr

/-- What the package has sent to the outside, oldest first. -/
inductive Out where
  | hostData (port : Nat) (line : Nat) (data : Line) (poisoned : Bool)
  | hostWord (port : Nat) (value : BitVec 512)
  | hostOld (port : Nat) (value : W64)
  | grant (port : Nat) (line : Nat) (data : Line)
  | bisnp (line : Nat) (invalidate : Bool)
  | msix (port vec : Nat)
  | hostWrite (port : Nat) (pa : Nat) (data : BitVec 512) (n : Nat) (pasid : W16)
  | hostRead (port : Nat) (pa : Nat) (n : Nat) (pasid : W16)
  | hostAtomic (port : Nat) (pa : Nat) (op : AtomOp) (pasid : W16)
  | ats (port : Nat) (pa : Nat) (pasid : W16)
  | fault (req : Nat) (asid : W16) (va : W64)
  | svc (warp : Nat) (call : Nat) (args : List W64)
  | peer (id port : Nat) (src chip : Nat) (pasid : W16) (va : W64) (op : PeerOp) (edge : W64)
  | saveArea (team : Nat)
  | linkDown (link : Nat)
  | laneEvent (port : Nat)
  | fatal (port : Nat)
  | report (body : List Byte) (sig : List Byte)
  | records (words : List W64)
  | value (w : W64)
  | retire (entry : Nat)
deriving DecidableEq, Repr

/-- One byte event, or one single-copy atomic piece, of an access that has several (R131): of a lane's load or store, or of what an engine
reads or writes in global memory or in a scratchpad. -/
inductive UnitKind where
  | load (g : Agent) (fid lane : Nat) (sg : Seg)
  | store (g : Agent) (id lane : Nat) (pc : W64) (sg : Seg) (data : Nat) (rel : Bool)
  | read (r : EngRef) (at_ : Nat) (c : W32) (edge : W64) (sg : Seg)
  | write (r : EngRef) (at_ : Nat) (c : W32) (edge : W64) (sg : Seg) (data : Nat)
  | spRead (r : EngRef) (at_ off pos n : Nat)
  | spWrite (r : EngRef) (at_ team off n data : Nat) (c : W32)
deriving DecidableEq, Repr

/-- Such an event of an agent or a command of a team, which has issued and is not yet performed. -/
structure ByteUnit where
  id   : Nat
  team : Nat
  kind : UnitKind
deriving DecidableEq, Repr

/-- An answer from outside the chip, to it or for it to pass on, that a link does not let through yet (R17, R19). -/
inductive Flit where
  | hostDone (id : Nat) (data : Line) (ok : Bool)
  | ack (id : Nat)
  | peer (port dest src : Nat) (edge : W64) (op : PeerOp) (pasid : W16) (va : W64)
  | answer (p : PeerWait) (v : Nat) (c : Cause)
deriving DecidableEq, Repr

/-- One move of an agent (log entry 3): a slot of a core or its control pipe makes an issue decision, the time moves on, an
array performs one access, a byte event of another access is performed, a held answer finds its way open, or an event of the part comes
about. -/
inductive Move where
  | slot (core slot : Nat)
  | pipe (core : Nat)
  | tick (n : Nat)
  | array (team id : Nat)
  | unit (id : Nat)
  | flit (since : Nat) (f : Flit)
  | event (e : Instr)
deriving DecidableEq, Repr

/-- Whose turn it is when no move is listed. -/
inductive Turn where
  | place (n : Nat)               -- 9 × core + slot, or + 8 for the control pipe: agents issue
  | events                        -- a cycle begins: its internal events come first
  | listed                        -- these are listed as moves
  | late                          -- the agents have issued: what comes at the end of the cycle
deriving DecidableEq, Repr

/-- The address given to a word of a program buffer (R235): an odd one, which no instruction has. -/
def bufferPc : W64 := 1

/-- The issue in progress: who issues, the instruction's address and length, and the executing lanes X (R86). 'spec' is the
number of the speculation entry that the instruction takes (R92), 'buffer' says that the word comes from a debugger's program
buffer (R235), 'step' that a debugger steps the agent (R236). -/
structure Cursor where
  agent  : Option Agent := none
  pc     : W64 := 0
  len    : Nat := 0
  lanes  : Mask := 0
  spec   : Option Nat := none
  buffer : Bool := false
  step   : Bool := false
  stalled : Bool := false         -- the instruction did not issue
  trapped : Option Cause := none  -- a trap inside a program buffer (R235)
  ret    : Option W64 := none     -- the value that DBGRET returns (R401)
deriving DecidableEq, Repr

/-- The machine. -/
structure State where
  -- the model's own fields (log entries 3 and 4)
  time    : Nat                   -- 1/47 ns since reset: a core cycle is 50 units, a nanosecond 47
  resetAt : Nat                   -- time of the last package reset
  moves   : List Move
  turn    : Turn
  cur     : Cursor
  fresh   : Nat                   -- counter of free values
  nextId  : Nat                   -- next number for a request, a flight or a command
  outbox  : List Out
  -- memory and homes
  mem     : Mem                   -- the bytes of homes 0–5 and of HOME 3 targets in them, as the homes hold them
  viewKey : Tab KeyVal            -- key under which a 16-byte block was last written, by its number (R58)
  poison  : List Nat              -- poisoned byte addresses (R130)
  homes   : List Home             -- six
  l2      : Tab L2Line            -- keyed by physical line number
  hostL2  : Tab HostLine          -- lines of the host-homed window (R127)
  hwLines : Tab (Nat × Option (BitVec 512)) -- by sector: what a peer gave to a hardware read, none for a failure, and when
  hclk    : W32                   -- R61
  floor   : W32                   -- CLKFLOOR
  floorN  : Nat                   -- floor broadcasts due so far (R121)
  reqs    : List Req              -- in arrival order
  replies : List Reply
  -- cores
  cores   : Tab Core
  warps   : Tab Warp              -- keyed 128 × core + 16 × slot + index
  teams   : Tab Team              -- keyed 8 × core + residency index
  cmds    : List Cmd              -- copy commands in flight, oldest first
  -- translation
  l2tlb   : List (Nat × TlbEntry) -- per die
  walkc   : List (Nat × WalkEntry)
  walks   : List Walk
  faults  : List FaultReq
  pris    : List PriReq
  asidcfg : W64
  peercfg : W64
  tlbinv0 : W64
  tlbIssued : W32
  tlbDone : W32
  invals  : List Inval
  -- launch front
  queues  : Tab Queue
  grids   : Tab Grid              -- by launch-front entry
  launchSeq : W32
  orderN  : Nat
  ageN    : Nat
  curPart : Tab Nat               -- cur[k] (R66)
  credit  : Tab Nat               -- credit[k]
  decisions : List (Nat × Nat × Nat) -- placement decisions sent to a dispatch unit: core, entry, team number
  lastPlace : Nat
  pressure : List (Nat × Nat)     -- waiting teams whose rank pressure holds lower ones back: order of the grid, team number (R77)
  -- partitions, keys, host ports, power
  parts   : List Part             -- eight
  keySlot : BitVec 6
  keyBusy : Option Bool           -- some true: LOAD in progress; some false: CLEAR
  keyValid : W64
  keyData : BitVec 512
  keys    : Tab KeyVal
  ports   : List HostPort         -- four
  boardw  : W64
  hallSeq : W32
  hallShort : Bool
  hallRejects : Nat
  boardTime : Nat
  levelTime : List Nat            -- when the thermal and current causes last moved
  -- links and pod
  links   : List Link             -- thirteen
  belcy   : Tab Belcy             -- 128
  routes  : Tab W64               -- die × 1024 + chip id (R25)
  chipcfg : W64
  remotes : List RemoteWrite
  sent    : List SentWindow
  heldFlits : List (Nat × Flit)   -- answers that the links do not let through yet (R17, R19), each with the time since which it waits
  units   : List ByteUnit         -- byte events that have issued and are not performed (R131), oldest first
  farClock : Tab W32              -- by 32-byte block of what has no lease: the clock left with what was stored there (R136, R140)
  peerOut : List PeerWait         -- requests of this chip that await an answer
  peerIn  : List PeerWait         -- requests of peers that wait on a fault here
  hostTxns : List HostTxn
  window  : Nat                   -- present datum window (R144)
  -- registers of debug, sampling, traverses, features
  dbgbase : W64
  dbgctx  : List DbgCtx
  dbgrun  : Option DbgRun
  dbgPoll : Nat                   -- number of the microsecond of the last poll (R232)
  ownLate : List LateWrite        -- writes of the device that release its earlier ones (R232, R244), oldest first
  dbgLog  : List Nat              -- event records that wait for the line of EVCOUNT (R60, R233), oldest first
  trcfg   : List W64              -- four
  trcfgWas : Tab (Nat × W64)      -- by die: the cycle of the last change of TRCFG, and the value before it (R327)
  trseq   : List W32
  trthresh : List (BitVec 16)
  stations : List Station         -- stations of waits released in the present cycle
  featcfg : W64
  retcfg  : W64
  -- services
  svcs    : List SvcReq
  deferred : List Deferred
  -- package
  pkg     : Pkg
  powerSeq : List Nat             -- cores still to power up, in order (R31)
  powerAt : Option Nat            -- when the last one powered up
  vudor   : Vudor
deriving DecidableEq, Repr

/-- R44: ADMIN is 1 for port 0 alone. R28 does not say what a port is before it has trained: the model starts all four up, in PCIe mode,
which is what MODE reads (DESIGN CHOICE, log entry 2). -/
def resetPorts : List HostPort := [{ admin := true }, {}, {}, {}]

/-- The machine right after package reset: every register at its reset value, memory and caches empty, time 0, no agent
resident, and the package about to verify its firmware (R30; log entries 1, 2 and 5). -/
def State.reset : State where
  time := 0
  resetAt := 0
  moves := []
  turn := .events
  cur := {}
  fresh := 0
  nextId := 1
  outbox := []
  mem := []
  viewKey := []
  poison := []
  homes := List.replicate 6 {}
  l2 := []
  hostL2 := []
  hwLines := []
  hclk := 0
  floor := 0xE0000000
  floorN := 0
  reqs := []
  replies := []
  cores := []
  warps := []
  teams := []
  cmds := []
  l2tlb := []
  walkc := []
  walks := []
  faults := []
  pris := []
  asidcfg := 0
  peercfg := 0
  tlbinv0 := 0
  tlbIssued := 0
  tlbDone := 0
  invals := []
  queues := []
  grids := []
  launchSeq := 0
  orderN := 0
  ageN := 0
  curPart := []
  credit := []
  decisions := []
  lastPlace := 0
  pressure := []
  parts := List.replicate 8 {}
  keySlot := 0
  keyBusy := none
  keyValid := 1
  keyData := 0
  keys := [(0, .boot)]
  ports := resetPorts
  boardw := 3200
  hallSeq := 0
  hallShort := false
  hallRejects := 0
  boardTime := 0
  levelTime := [0, 0]
  links := List.replicate 13 {}
  belcy := []
  routes := []
  chipcfg := 0x3FF
  remotes := []
  sent := []
  heldFlits := []
  units := []
  farClock := []
  peerOut := []
  peerIn := []
  hostTxns := []
  window := 0
  dbgbase := 0
  dbgctx := []
  dbgrun := none
  dbgPoll := 0
  ownLate := []
  dbgLog := []
  trcfg := List.replicate 4 0x18
  trcfgWas := []
  trseq := List.replicate 4 0
  trthresh := List.replicate 4 1000
  stations := []
  featcfg := 0
  retcfg := 0
  svcs := []
  deferred := []
  pkg := .boot
  powerSeq := []
  powerAt := none
  vudor := {}

end Sys2Proof.Machine
end

