-- ==== Sys2Proof/Machine/Bytes.lean ====
section
/-!
DEFINITION. Bytes of a memory in canonical form, words of bytes, bytes of lines, and sets of lanes.
-/

namespace Sys2Proof.Machine

/-! ## One memory -/

/-- The byte at an address: zero where none is listed. -/
def Mem.read (m : Mem) (a : Nat) : Byte :=
  match m with
  | [] => 0
  | (i, v) :: r => if i = a then v else if a < i then 0 else Mem.read r a

/-- The memory with byte v at address a, in canonical form. -/
def Mem.write (m : Mem) (a : Nat) (v : Byte) : Mem :=
  match m with
  | [] => if v = 0 then [] else [(a, v)]
  | (i, w) :: r =>
    if i < a then (i, w) :: Mem.write r a v
    else if i = a then (if v = 0 then r else (a, v) :: r)
    else if v = 0 then (i, w) :: r else (a, v) :: (i, w) :: r

/-- n bytes from address a as a number, little-endian (R3). -/
def Mem.readN (m : Mem) (a n : Nat) : Nat :=
  match n with
  | 0 => 0
  | k + 1 => (Mem.read m a).toNat + 256 * Mem.readN m (a + 1) k

/-- Write the low n bytes of v at address a, little-endian. -/
def Mem.writeN (m : Mem) (a n v : Nat) : Mem :=
  match n with
  | 0 => m
  | k + 1 => Mem.writeN (Mem.write m a (BitVec.ofNat 8 v)) (a + 1) k (v / 256)

/-- Bytes of the line at address a. -/
def Mem.line (m : Mem) (a : Nat) : Line := BitVec.ofNat 2048 (Mem.readN m a 256)

/-- Write the bytes of a line whose mask bit is set; k bytes from byte i on. -/
def Mem.writeMasked (m : Mem) (a : Nat) (data : Line) (mask : ByteMask) (i k : Nat) : Mem :=
  match k with
  | 0 => m
  | j + 1 =>
    let m := if mask.getLsbD i then Mem.write m (a + i) (BitVec.ofNat 8 (data.toNat >>> (8 * i))) else m
    Mem.writeMasked m a data mask (i + 1) j

/-! ## Lines -/

/-- Byte i of a line. -/
def lineByte (d : Line) (i : Nat) : Byte := BitVec.ofNat 8 (d.toNat >>> (8 * i))

/-- The byte mask as a bit mask over the line. -/
def spread (mask : ByteMask) : Line := BitVec.ofNat 2048 (go 256 mask.toNat)
where
  go (k m : Nat) : Nat := match k with | 0 => 0 | j + 1 => (if m % 2 = 1 then 255 else 0) + 256 * go j (m / 2)

/-- The bytes of 'new' where the mask is set, of 'old' elsewhere. -/
def mergeLine (old new : Line) (mask : ByteMask) : Line := (old &&& ~~~spread mask) ||| (new &&& spread mask)

/-- n bytes from byte off. -/
def byteRange (off n : Nat) : ByteMask := BitVec.ofNat 256 ((2 ^ n - 1) * 2 ^ off)

/-- n bytes of a line from byte off, as a number. -/
def lineField (d : Line) (off n : Nat) : Nat := (d.toNat >>> (8 * off)) % 2 ^ (8 * n)

/-- A line that holds v in its bytes from off on. -/
def lineOf (off v : Nat) : Line := BitVec.ofNat 2048 (v <<< (8 * off))

/-- The bytes of the sectors in a set of sectors. -/
def sectorBytes (sec : BitVec 4) : ByteMask :=
  BitVec.ofNat 256 ((if sec.getLsbD 0 then 2 ^ 64 - 1 else 0) + (if sec.getLsbD 1 then (2 ^ 64 - 1) * 2 ^ 64 else 0) +
    (if sec.getLsbD 2 then (2 ^ 64 - 1) * 2 ^ 128 else 0) + (if sec.getLsbD 3 then (2 ^ 64 - 1) * 2 ^ 192 else 0))

/-- The sectors whose 64 bytes are all in the mask. -/
def fullSectors (m : ByteMask) : BitVec 4 :=
  BitVec.ofNat 4 ((List.range 4).foldl (fun a k => if (m >>> (64 * k)).setWidth 64 = BitVec.allOnes 64 then a + 2 ^ k else a) 0)

/-- The number of one list of bytes, the first lowest. -/
def numOfBytes (bs : List Byte) : Nat := match bs with | [] => 0 | b :: r => b.toNat + 256 * numOfBytes r

/-- n bytes of a number, least significant first. -/
def bytesOf (n v : Nat) : List Byte := match n with | 0 => [] | k + 1 => BitVec.ofNat 8 v :: bytesOf k (v / 256)

/-! ## Sets of lanes -/

/-- The lanes of a mask in ascending order. -/
def lanesOf (m : Mask) : List Nat := (List.range 128).filter (fun j => m.getLsbD j)

/-- The set of one lane. -/
def laneBit (j : Nat) : Mask := BitVec.ofNat 128 (2 ^ j)

/-- The set of the lanes in a list. -/
def maskOf (l : List Nat) : Mask := l.foldl (fun m j => m ||| laneBit j) 0

/-- Lanes 0 to w − 1. -/
def firstLanes (w : Nat) : Mask := BitVec.ofNat 128 (2 ^ w - 1)

/-- The lowest lane of a mask. -/
def lowest (m : Mask) : Nat := (lanesOf m).headD 0

/-- Keep the first element of each value. -/
def dedup {α : Type} [DecidableEq α] (l : List α) : List α :=
  match l with
  | [] => []
  | a :: r => a :: (dedup r).filter (fun b => !(b == a))

/-- sext(x, 32) of a 32-bit value, modulo 2^64 (R7). -/
def sext32 (x : W32) : W64 := x.signExtend 64

end Sys2Proof.Machine
end

