-- ==== Sys2Proof/Machine/Xts.lean ====
section
/-!
DEFINITION. AES-XTS-256, which R58 names as the cipher of the memory controllers. The spec names the cipher and does not write it out: the
text here is the published standard's (AES-256 with XTS), and which half of the 64 bytes is the data key is the standard's too
(PRESUMED, log entry 7).
-/

namespace Sys2Proof.Machine

/-! ## The field of 256 elements -/

/-- Twice an element, modulo x^8 + x^4 + x^3 + x + 1. -/
def gfDouble (a : Byte) : Byte := (a <<< 1) ^^^ (if a.msb then 0x1B else 0)

/-- The product of two elements over the low n bits of the second. -/
def gfMulBits (n : Nat) (a b : Byte) : Byte :=
  match n with
  | 0 => 0
  | k + 1 => (if b.getLsbD 0 then a else 0) ^^^ gfMulBits k (gfDouble a) (b >>> 1)

def gfMul (a b : Byte) : Byte := gfMulBits 8 a b

/-- The inverse, and 0 for 0: the product of the squares a^2, a^4, … a^128. -/
def gfInv (a : Byte) : Byte :=
  ((List.range 7).foldl (fun (p : Byte × Byte) _ => let q := gfMul p.1 p.1; (q, gfMul p.2 q)) (a, 1)).2

/-- A byte of the substitution, and of its inverse. -/
def sBox (a : Byte) : Byte :=
  let b := gfInv a
  b ^^^ b.rotateLeft 1 ^^^ b.rotateLeft 2 ^^^ b.rotateLeft 3 ^^^ b.rotateLeft 4 ^^^ 0x63

def sBoxInv (a : Byte) : Byte := gfInv (a.rotateLeft 1 ^^^ a.rotateLeft 3 ^^^ a.rotateLeft 6 ^^^ 0x05)

/-! ## AES-256 -/

def xorBytes (a b : List Byte) : List Byte := List.zipWith (· ^^^ ·) a b

/-- One more word of a key schedule, whose words stand newest first. -/
def nextKeyWord (ws : List (List Byte)) (i : Nat) : List (List Byte) :=
  let t := ws.headD []
  let t := if i % 8 = 0 then xorBytes ((t.drop 1 ++ t.take 1).map sBox) [1 <<< (i / 8 - 1), 0, 0, 0]
    else if i % 8 = 4 then t.map sBox else t
  xorBytes (ws.getD 7 []) t :: ws

/-- Consecutive pieces of n elements of a list. -/
def chunks {α : Type} (n k : Nat) (l : List α) : List (List α) := (List.range k).map (fun i => (l.drop (n * i)).take n)

/-- The fifteen round keys of a key of 32 bytes. -/
def roundKeys (key : List Byte) : List (List Byte) :=
  chunks 16 15 ((List.range 52).foldl (fun ws i => nextKeyWord ws (i + 8)) (chunks 4 8 key).reverse).reverse.flatten

/-- The rows of a state of 16 bytes, column by column, shifted by d times their number. -/
def shiftRows (d : Nat) (s : List Byte) : List Byte := (List.range 16).map (fun i => s.getD (4 * ((i / 4 + d * (i % 4)) % 4) + i % 4) 0)

/-- Each column multiplied by the circulant of four coefficients. -/
def mixColumns (m : List Byte) (s : List Byte) : List Byte :=
  (List.range 16).map (fun i => (List.range 4).foldl (fun acc k => acc ^^^ gfMul (m.getD k 0) (s.getD (i / 4 * 4 + (i % 4 + k) % 4) 0)) 0)

/-- One block encrypted: 'mix' is left out of the last round. -/
def aesEncrypt (keys : List (List Byte)) (b : List Byte) : List Byte :=
  let sub (s : List Byte) := shiftRows 1 (s.map sBox)
  match keys with
  | [] => b
  | k0 :: r =>
    let s := r.dropLast.foldl (fun s k => xorBytes (mixColumns [2, 3, 1, 1] (sub s)) k) (xorBytes b k0)
    xorBytes (sub s) (r.getLastD [])

/-- One block decrypted. -/
def aesDecrypt (keys : List (List Byte)) (b : List Byte) : List Byte :=
  let sub (s : List Byte) := (shiftRows 3 s).map sBoxInv
  match keys.reverse with
  | [] => b
  | k0 :: r =>
    let s := r.dropLast.foldl (fun s k => mixColumns [14, 11, 13, 9] (xorBytes (sub s) k)) (xorBytes b k0)
    xorBytes (sub s) (r.getLastD [])

/-! ## XTS over sectors of 64 bytes (R58) -/

/-- The tweak of the next block of a sector. -/
def xtsDouble (t : BitVec 128) : BitVec 128 := (t <<< 1) ^^^ (if t.msb then 0x87 else 0)

/-- The tweak of the 16-byte block with a number, whose sector is physical address bits 51:6. -/
def xtsTweak (key2 : List Byte) (block : Nat) : List Byte :=
  let t := BitVec.ofNat 128 (numOfBytes (aesEncrypt (roundKeys key2) (bytesOf 16 (block / 4 % 2 ^ 46))))
  bytesOf 16 ((List.range (block % 4)).foldl (fun t _ => xtsDouble t) t).toNat

def xtsEncrypt (key : BitVec 512) (block : Nat) (d : BitVec 128) : BitVec 128 :=
  let k := bytesOf 64 key.toNat
  let t := xtsTweak (k.drop 32) block
  BitVec.ofNat 128 (numOfBytes (xorBytes (aesEncrypt (roundKeys (k.take 32)) (xorBytes (bytesOf 16 d.toNat) t)) t))

def xtsDecrypt (key : BitVec 512) (block : Nat) (d : BitVec 128) : BitVec 128 :=
  let k := bytesOf 64 key.toNat
  let t := xtsTweak (k.drop 32) block
  BitVec.ofNat 128 (numOfBytes (xorBytes (aesDecrypt (roundKeys (k.take 32)) (xorBytes (bytesOf 16 d.toNat) t)) t))

/-- A block written under one key and read under another (R58): the decryption of its ciphertext under the reader's key. -/
def xtsCross (old new : BitVec 512) (block : Nat) (d : BitVec 128) : BitVec 128 := xtsDecrypt new block (xtsEncrypt old block d)

end Sys2Proof.Machine
end

