-- ==== Sys2Proof/Machine/Homes.lean ====
section
/-!
DEFINITION. The physical map (R13, R14), the homes with their L2 directories, clocks and sweeps (R108 to R120), memory
encryption (R58), and what a home does with a renewal, a read, a write-back and an atomic (R111, R112, R114, R116).
-/

namespace Sys2Proof.Machine

/-! ## The physical map -/

/-- What a physical address is (R13). -/
inductive Phys where
  | home (k : Nat) | host (port : Nat) | peer | regs | none
deriving DecidableEq, Repr

/-- R13: the range that holds a physical address, populated or not. -/
def physKind (pa : Nat) : Phys :=
  if pa < 0x4000000000 then .home (pa / 0x1000000000)
  else if 0x10000000000 ≤ pa ∧ pa < 0x1EE6B280000 then .home 4
  else if 0x20000000000 ≤ pa ∧ pa < 0x2EE6B280000 then .home 5
  else if 0x4000000000000 ≤ pa ∧ pa < 0x8000000000000 then .host (pa / 0x1000000000000 % 4)
  else if 0x8000000000000 ≤ pa ∧ pa < 0xC000000000000 then .peer
  else if 0xFFF0000000000 ≤ pa then .regs
  else .none

/-- The home of an address of homes 0 to 5. -/
def homeOf (pa : Nat) : Option Nat := match physKind pa with | .home k => some k | _ => none

/-- The home of a line. -/
def lineHome (line : Nat) : Option Nat := homeOf (256 * line)

/-- The home that logs an access to an unpopulated address. R14 names the nearest home and does not say what is near: the model takes the
one whose range lies nearest below (DESIGN CHOICE, log entry 37). -/
def nearestHome (pa : Nat) : Nat := if pa < 0x10000000000 then 3 else if pa < 0x20000000000 then 4 else 5

/-! ## Records -/

def State.home (s : State) (k : Nat) : Home := s.homes.getD k {}
def State.setHome (s : State) (k : Nat) (h : Home) : State := { s with homes := s.homes.set k h }
def State.part (s : State) (p : Nat) : Part := s.parts.getD p {}
def State.setPart (s : State) (p : Nat) (x : Part) : State := { s with parts := s.parts.set p x }
def State.core (s : State) (c : Nat) : Core := Tab.get {} s.cores c
def State.setCore (s : State) (c : Nat) (x : Core) : State := { s with cores := Tab.set s.cores c x }

/-- Append to what the package sends out. -/
def State.emit (s : State) (o : Out) : State := { s with outbox := s.outbox ++ [o] }

/-- Record an address in a home's error log. -/
def State.logError (s : State) (k pa : Nat) : State :=
  let h := s.home k
  s.setHome k { h with errors := pa :: h.errors }

/-- Take a free word: the next of the stream Config.freeValue (log entry 4). -/
def State.free (s : State) : BitVec 2048 × State := (Config.freeValue s.fresh, { s with fresh := s.fresh + 1 })

/-- Datum time in ns (R4). R12 allows the dies a skew of up to 8 ns; the model has one datum for all of them (DESIGN CHOICE, log
entry 3). -/
def State.datum (s : State) : Nat := s.time / 47

/-- Cycles of a core since it powered up (R395). -/
def Clk.now (c : Clk) (time : Nat) : Nat := c.base + (time - c.at_) / (50 * 2 ^ c.div)

def State.cycle (s : State) (core : Nat) : Nat := Clk.now (s.core core).clk s.time

/-! ## Home clocks and sweeps -/

/-- Raise mts_k (R110); an update past a multiple of 2^28 begins a sweep (R120). R120 does not say what becomes of a sweep in progress then: the
model begins anew from set 0 with the new limit, and SWEEPS counts the two as one (DESIGN CHOICE, log entry 46). -/
def State.raiseMts (s : State) (k : Nat) (x : W32) : State :=
  let h := s.home k
  let m := serialMax h.mts x
  let sweep := if m.toNat / 2 ^ 28 ≠ h.mts.toNat / 2 ^ 28 then some (m - 0x20000000, 0) else h.sweep
  s.setHome k { h with mts := m, sweep := sweep }

/-- Sets of a home's L2 (R107). -/
def l2Sets (k : Nat) : Nat := if k < 4 then 16384 else 8192

/-- The set of a line (the index is not in the spec: log entry 9). -/
def l2Set (k line : Nat) : Nat := line % l2Sets k

/-- A time raised by a sweep with a limit (R120). -/
def sweepTime (limit t : W32) : W32 := if serialLt t limit then limit else t

def sweepLine (limit : W32) (l : L2Line) : L2Line :=
  { l with wts := sweepTime limit l.wts, rts := sweepTime limit l.rts }

/-- A request to a line in a set that the sweep has not visited raises that line's times first (R120). -/
def State.sweepFirst (s : State) (k line : Nat) : State :=
  match (s.home k).sweep with
  | some (limit, next) =>
    if next ≤ l2Set k line then { s with l2 := Tab.upd s.l2 line (sweepLine limit) } else s
  | none => s

/-! ## Keys -/

/-- The key of a slot, if it holds one. -/
def State.keyOf (s : State) (slot : BitVec 6) : Option KeyVal :=
  if s.keyValid.getLsbD slot.toNat then Tab.find s.keys slot.toNat else none

/-- R58: the slot is valid and its partition may name it. -/
def State.keyUsable (s : State) (part : Nat) (slot : BitVec 6) : Bool :=
  s.keyValid.getLsbD slot.toNat && (s.part part).keys.getLsbD slot.toNat

/-- The 64 bytes of a key pair. -/
def keyBytes (k : KeyVal) : BitVec 512 := match k with | .boot => Config.bootKey | .loaded b => b

/-- The bytes of a line as they appear under a key (R58), block by block: those of a block that was written under another key are the
decryption of its ciphertext, and what memory holds stays as it is. -/
def crossLine (old : Tab KeyVal) (new : KeyVal) (line : Nat) (d : Line) : Line :=
  BitVec.ofNat 2048 ((List.range 16).foldl (fun acc i =>
    let b := BitVec.ofNat 128 (d.toNat >>> (128 * i))
    let v := match Tab.find old (16 * line + i) with
      | some k => if k = new then b else xtsCross (keyBytes k) (keyBytes new) (16 * line + i) b
      | none => b
    acc + v.toNat * 2 ^ (128 * i)) 0)

/-- The 16-byte blocks of a line that masked bytes touch. -/
def blocksOf (mask : ByteMask) : List Nat := (List.range 16).filter (fun i => mask &&& byteRange (16 * i) 16 != 0)

/-- All bytes of these blocks. -/
def blockBytes (mask : ByteMask) : ByteMask := (blocksOf mask).foldl (fun m i => m ||| byteRange (16 * i) 16) 0

/-- Blocks of a line are written under a key. -/
def State.rekey (s : State) (line : Nat) (mask : ByteMask) (key : Option KeyVal) : Tab KeyVal :=
  match key with
  | some v => (blocksOf mask).foldl (fun t i => Tab.set t (16 * line + i) v) s.viewKey
  | none => s.viewKey

/-- The bytes that a home holds for a line. -/
def State.lineData (s : State) (line : Nat) : Line :=
  match Tab.find s.l2 line with
  | some { copy := some d, .. } => d
  | _ => Mem.line s.mem (256 * line)

/-- How the bytes of a line in memory appear under a key slot, where some of them were written under another key (R58). -/
def State.crossView (s : State) (line : Nat) (key : BitVec 6) : Option Line :=
  match s.keyOf key with
  | some new =>
    if (List.range 16).all (fun i => match Tab.find s.viewKey (16 * line + i) with | some k => k == new | none => true) then none
    else some (crossLine s.viewKey new line (Mem.line s.mem (256 * line)))
  | none => none

/-- The bytes of a line as an access under a key slot finds them (R58). -/
def State.lineAs (s : State) (line : Nat) (key : BitVec 6) : Line :=
  match Tab.find s.l2 line with
  | some l => if l.key = key then s.lineData line else (s.crossView line key).getD (Mem.line s.mem (256 * line))
  | none => (s.crossView line key).getD (Mem.line s.mem (256 * line))

/-- Write bytes of a line at its home under its slot, and mark them dirty towards DRAM (R108). The blocks that they touch are encrypted
under that slot's key from then on; the others keep the ciphertext they had (R58). -/
def State.writeLine (s : State) (line : Nat) (data : Line) (mask : ByteMask) : State :=
  let slot := match Tab.find s.l2 line with | some l => l.key | none => 0
  let mem := match Tab.find s.l2 line with
    | some { copy := some d, .. } => Mem.writeMasked s.mem (256 * line) d (blockBytes mask) 0 256
    | _ => s.mem
  { s with
    mem := Mem.writeMasked mem (256 * line) data mask 0 256
    viewKey := s.rekey line mask (s.keyOf slot)
    l2 := Tab.upd s.l2 line (fun l => { l with copy := l.copy.map (fun d => mergeLine d data mask), dirty := l.dirty ||| mask }) }

/-- The poisoned bytes of a line. -/
def State.poisonOf (s : State) (line : Nat) : ByteMask :=
  BitVec.ofNat 256 (s.poison.foldl (fun m a => if a / 256 = line then m ||| 2 ^ (a % 256) else m) 0)

/-- Set the poison of the masked bytes of a line. -/
def State.setPoison (s : State) (line : Nat) (mask bad : ByteMask) : State :=
  if s.poisonOf line &&& mask = bad &&& mask then s
  else
    let kept := s.poison.filter (fun a => !(a / 256 == line && mask.getLsbD (a % 256)))
    { s with poison := kept ++ ((List.range 256).filter (fun i => (bad &&& mask).getLsbD i)).map (fun i => 256 * line + i) }

/-- Write bytes of a line past the L2, under a key slot (R109, HOME 3): a copy that the L2 holds under that slot takes the bytes, one
held under another slot leaves. -/
def State.writeRaw (s : State) (line : Nat) (key : BitVec 6) (data : Line) (mask : ByteMask) : State :=
  let whole := s.lineAs line key
  let s : State := { s with
    mem := Mem.writeMasked (Mem.writeMasked s.mem (256 * line) whole (blockBytes mask) 0 256) (256 * line) data mask 0 256
    viewKey := s.rekey line mask (s.keyOf key)
    l2 := match Tab.find s.l2 line with
      | some l => if l.key = key then Tab.set s.l2 line { l with copy := l.copy.map (fun d => mergeLine d data mask), recalled := false }
                  else Tab.erase s.l2 line
      | none => s.l2 }
  s.setPoison line mask 0

/-! ## Filling the L2 -/

/-- Lines of one set of home k, with their numbers. -/
def State.setLines (s : State) (k line : Nat) : List (Nat × L2Line) :=
  s.l2.filter (fun e => lineHome e.1 == some k && l2Set k e.1 == l2Set k line)

/-- The home whose L2 holds the lines of a host port: home 4 for H0 and H1, home 5 for H2 and H3 (R127). -/
def hostHome (line : Nat) : Nat := if 256 * line / 0x1000000000000 % 4 < 2 then 4 else 5

/-- A line that counts against the limit of R109: pinned, or in host state HS or HE. -/
def heldLine (l : L2Line) : Bool := l.pinned || l.host != .hi || l.snoop.isSome

/-- The ways of a line's set that are taken: the way, the line that has it, and whether it may not be displaced. Lines of the host window
share the sets of homes 4 and 5 (R127). -/
def State.taken (s : State) (k line : Nat) : List (Nat × Nat × Bool) :=
  (s.setLines k line).map (fun e => (e.2.way, e.1, heldLine e.2)) ++
  (s.hostL2.filter (fun e => hostHome e.1 == k && l2Set k e.1 == l2Set k line)).map (fun e => (e.2.way, e.1, false))

/-- A way of some ways for a line: a free one, or that of a victim which is neither pinned nor held by a host (R107, R109); pseudo-LRU
leaves the victim open. -/
def State.wayAmong (s : State) (k line : Nat) (ways : List Nat) : Option Nat × State :=
  let set := s.taken k line
  match ways.find? (fun w => !(set.any (fun e => e.1 == w))) with
  | some w => (some w, s)
  | none =>
    let victims := set.filter (fun e => ways.contains e.1 && !e.2.2)
    let (f, s1) := s.free
    match victims[f.toNat % victims.length]? with
    | some e => (some e.1, { s1 with l2 := Tab.erase s1.l2 e.2.1, hostL2 := Tab.erase s1.hostL2 e.2.1 })
    | none => (none, s)

/-- The ways that a partition's misses fill (R56). -/
def State.partWays (s : State) (part : Nat) : List Nat := (List.range 16).filter (fun w => (s.part part).l2ways.getLsbD w)

/-- Make room in the set of a line: among the partition's L2WAYS; where pinned lines fill all of these, among all ways, which the spec
does not say (DESIGN CHOICE, log entry 37). At least four ways of a set are never pinned or held (R109). -/
def State.findWay (s : State) (k line part : Nat) : Nat × State :=
  match s.wayAmong k line (s.partWays part) with
  | (some w, s) => (w, s)
  | (none, s) => match s.wayAmong k line (List.range 16) with
    | (some w, s) => (w, s)
    | (none, s) => (0, s)

/-- R60, last row: a line whose fill finds no way of its partition but those of pinned lines and of lines that a host holds has one of the
latter recalled first. -/
def State.wayHolder (s : State) (k line part : Nat) : Option Nat :=
  let ways := s.partWays part
  let set := s.taken k line
  if ways.all (fun w => set.any (fun e => e.1 == w && e.2.2)) then
    ((s.setLines k line).find? (fun e => ways.contains e.2.way && e.2.host != .hi)).map (·.1)
  else none

/-- Lines of a set that are pinned or held by a host (R109). -/
def State.heldWays (s : State) (k line : Nat) : Nat := ((s.setLines k line).filter (fun e => e.1 != line && heldLine e.2)).length

/-- Have a line resident in its home under a key slot (R58, R110): a line held under another slot is dropped and filled again.
A HOME 2 fill is pinned unless the set's limit forbids it (R109). -/
def State.fetchLine (s : State) (k line : Nat) (key : BitVec 6) (part : Nat) (home2 : Bool) : State :=
  let fill (s : State) : State :=
    let (w, s) := s.findWay k line part
    let room := decide (s.heldWays k line < 12)
    let s := if home2 && !room then
        let h := s.home k
        s.setHome k { h with spill := min (h.spill + 1) 0xFFFF } else s
    let m := (s.home k).mts
    { s with l2 := Tab.set s.l2 line { wts := m, rts := m, key := key, pinned := home2 && room, copy := s.crossView line key, way := w } }
  match Tab.find s.l2 line with
  | some l => if l.key = key then s else fill { s with l2 := Tab.erase s.l2 line }
  | none => fill s

/-! ## Stamping -/

/-- Lease lengths (R117). -/
def leaseLen (c : BitVec 2) : W32 := match c.toNat with | 0 => 10 | 1 => 40 | 2 => 160 | _ => 640

/-- The stamp of a write with clock c on a resident line (R114): the new time, the class, and what the home's clock becomes. -/
def stampLine (l : L2Line) (c : W32) : W32 × L2Line :=
  let jumped := serialLe c l.rts || l.recalled
  let w := serialMax c (l.rts + 1)
  (w, { l with wts := w, rts := w, cls := if jumped && l.cls != 0 then l.cls - 1 else l.cls, recalled := false })

/-- A write with clock c at its home (R114): merge the bytes and stamp. Answers w' and the line's wts before. -/
def State.homeWrite (s : State) (k line : Nat) (key : BitVec 6) (part : Nat) (home2 : Bool) (c : W32) (data : Line)
    (mask bad : ByteMask) : (W32 × W32) × State :=
  let s := (s.sweepFirst k line).raiseMts k c
  let s := s.fetchLine k line key part home2
  match Tab.find s.l2 line with
  | none => ((c, c), s)
  | some l =>
    let (w, l') := stampLine l c
    let s := { s with l2 := Tab.set s.l2 line l' }
    let s := (s.writeLine line data mask).setPoison line mask bad
    ((w, l.wts), s.raiseMts k w)

/-- The slot under which the device itself reaches a line: the line's own, if it is resident, else one that holds the key its first written
block was last written under (log entry 7). -/
def State.slotOf (s : State) (line : Nat) : BitVec 6 :=
  match Tab.find s.l2 line with
  | some l => l.key
  | none =>
    match (List.range 16).findSome? (fun i => Tab.find s.viewKey (16 * line + i)) with
    | none => 0
    | some v => match s.keys.find? (fun e => e.2 == v && s.keyValid.getLsbD e.1) with
      | some e => BitVec.ofNat 6 e.1
      | none => 0

/-- A host owns the line, so that a device read must first recall it (R60). -/
def State.hostOwns (s : State) (line : Nat) : Bool :=
  match Tab.find s.l2 line with | some l => l.host == .he || l.snoop.isSome | none => false

/-- A host shares the line. -/
def State.hostShares (s : State) (line : Nat) : Bool := match Tab.find s.l2 line with | some l => l.host == .hs | none => false

/-- Ask the host for a line that an access needs, unless a request is out: for its data, or to give it up, for a device write or not. -/
def State.snoop (s : State) (line : Nat) (invalidate forWrite : Bool) : State :=
  match Tab.find s.l2 line with
  | some l => if l.snoop.isSome then s
              else ({ s with l2 := Tab.set s.l2 line { l with snoop := some invalidate, forWrite := forWrite } } : State).emit (.bisnp line invalidate)
  | none => s

/-- What an access at a line's home must wait for from a host, if anything (R60, R126): its own back-invalidation, or that of a line whose
way it needs. Answers the state with the request sent. A line that is held under another key slot leaves the L2, so a host that
shares it gives it up as well. -/
def State.clearHost (s : State) (line : Nat) (key : BitVec 6) (part : Nat) (write : Bool) : Option State :=
  match Tab.find s.l2 line with
  | some l =>
    let drop := write || l.key != key
    if l.snoop.isSome then some (if write && l.snoop == some true then { s with l2 := Tab.set s.l2 line { l with forWrite := true } } else s)
    else if l.host == .he || (drop && l.host == .hs) then some (s.snoop line drop write)
    else none
  | none =>
    match lineHome line with
    | none => none
    | some k => (s.wayHolder k line part).map (fun n => s.snoop n true false)

/-- The partition number under which the device, a host or a peer fills a line: none of the eight, so that no L2WAYS binds it. R56 gives
such fills no partition (DESIGN CHOICE, log entry 37). -/
def noPart : Nat := 8

/-- A request waits at the home of a line. -/
def State.lineBusy (s : State) (line : Nat) : Bool := s.reqs.any (fun r => r.line == line && r.arrived.isSome)

/-- A request that the device makes on its own account reaches the line's home. -/
def State.ownReq (s : State) (line : Nat) (key : BitVec 6) (home2 : Bool) (kind : ReqKind) (await : Await) : State :=
  let req : Req := { id := s.nextId, src := .own, core := 0, line := line, key := key, part := noPart, home2 := home2, c := 0, kind := kind,
                     awaits := [await], sent := s.time, arrived := some (s.time / 50) }
  { s with nextId := s.nextId + 1, reqs := s.reqs ++ [req] }

/-- A write that the device makes on its own account to a line of homes 0 to 5 (R431), under a key slot, through a HOME 2 page or not: c is
the home's mts, and the write is stamped whatever the page's HOME says. It is performed at once, or becomes a request where a host holds the line or another request waits there. Answers whether it is
performed. -/
def State.ownStore (s : State) (k line : Nat) (key : BitVec 6) (home2 : Bool) (data : Line) (mask : ByteMask) (await : Await) : Bool × State :=
  match s.lineBusy line, s.clearHost line key noPart true with
  | false, none => (true, (s.homeWrite k line key noPart home2 (s.home k).mts data mask 0).2)
  | _, some s => (false, s.ownReq line key home2 (.wback data mask none 0) await)
  | true, none => (false, s.ownReq line key home2 (.wback data mask none 0) await)

/-- The value that an atomic of the device leaves in eight bytes. -/
def OwnOp.apply (o : OwnOp) (old : Nat) : Nat :=
  match o with
  | .setBits b => old ||| b.toNat
  | .count => min (old + 1) (2 ^ 64 - 1)

/-- An atomic of the device at its home (R431, R116): the line is filled after the home's clock has its value, and stamped. -/
def State.ownPerform (s : State) (k line : Nat) (key : BitVec 6) (off : Nat) (o : OwnOp) : State :=
  let s := (s.sweepFirst k line).fetchLine k line key noPart false
  (s.homeWrite k line key noPart false (s.home k).mts (lineOf off (o.apply (lineField (s.lineData line) off 8))) (byteRange off 8) 0).2

/-- An atomic that the device makes on its own account to eight bytes (R431), at once or as a request, as for a write. -/
def State.ownAtomic (s : State) (pa : Nat) (key : BitVec 6) (o : OwnOp) : State :=
  match homeOf pa with
  | none => s
  | some k =>
    match s.lineBusy (pa / 256), s.clearHost (pa / 256) key noPart true with
    | false, none => s.ownPerform k (pa / 256) key (pa % 256) o
    | _, some s => s.ownReq (pa / 256) key false (.own (pa % 256) o) .none
    | true, none => s.ownReq (pa / 256) key false (.own (pa % 256) o) .none

/-- n bytes of a line that the device itself reads at a physical address: under the slot by which the line is resident or was written
(log entry 7). -/
def State.homeRead (s : State) (pa n : Nat) : Nat := lineField (s.lineData (pa / 256)) (pa % 256) n

/-- The same under a key slot (R58). -/
def State.homeReadAs (s : State) (pa : Nat) (key : BitVec 6) (n : Nat) : Nat := lineField (s.lineAs (pa / 256) key) (pa % 256) n

/-- The serial maximum of the six home clocks. -/
def State.maxMts (s : State) : W32 := (List.range 6).foldl (fun m k => serialMax m (s.home k).mts) (s.home 0).mts

/-! ## Error log, unpopulated addresses -/

/-- An access to an unpopulated address is logged (R14). -/
def State.logStray (s : State) (pa : Nat) : State := s.logError (nearestHome pa) pa

end Sys2Proof.Machine
end

