-- ==== Sys2Proof/Machine/Routes.lean ====
section
/-!
DEFINITION. The die-to-die links and the routes of requests and replies over them (R15 to R17, R19, R21). A die is numbered by R15: 0 to 3
for the compute dies, 4 and 5 for I/O dies 0 and 1.
-/

namespace Sys2Proof.Machine

def State.link (s : State) (n : Nat) : Link := s.links.getD n {}
def State.setLink (s : State) (n : Nat) (l : Link) : State := { s with links := s.links.set n l }

/-- The dies that a link joins (R15). -/
def linkEnds (n : Nat) : Nat × Nat :=
  match n with
  | 0 => (0, 1) | 1 => (2, 3) | 2 => (0, 2) | 3 => (1, 3)
  | 4 => (0, 4) | 5 => (0, 4) | 6 => (1, 4) | 7 => (1, 4)
  | 8 => (2, 5) | 9 => (2, 5) | 10 => (3, 5) | 11 => (3, 5)
  | _ => (4, 5)

/-- The compute die of a core (R11). -/
def dieOf (core : Nat) : Nat := core / 40

/-- The die that carries a home (R13). -/
def homeDie (k : Nat) : Nat := k

/-- A link that is not down. -/
def State.linkUp (s : State) (n : Nat) : Bool := decide ((s.link n).rate < 3)

/-- Links that are all up, else no way. -/
def State.allUp (s : State) (p : List Nat) : Option (List Nat) := if p.all s.linkUp then some p else none

/-! ## Fixed routes (R16) and their replacements (R21 stage 3) -/

/-- The compute die across a bit of the die number. -/
def flipDie (d bit : Nat) : Nat := if d / 2 ^ bit % 2 = 1 then d - 2 ^ bit else d + 2 ^ bit

/-- The ring link of a compute die across a bit of its number. -/
def ringLink (d bit : Nat) : Nat := if bit = 0 then d / 2 else 2 + d % 2

/-- The links on the way from a compute die across some bits of its number, in order. -/
def ringWalk (d : Nat) (bits : List Nat) : List Nat :=
  match bits with
  | [] => []
  | b :: r => ringLink d b :: ringWalk (flipDie d b) r

/-- Between compute dies: bit 0 first, then bit 1; past a down link the other way round the ring. -/
def State.ringRoute (s : State) (a b : Nat) : Option (List Nat) :=
  let diff := (if a % 2 = b % 2 then [] else [0]) ++ (if a / 2 = b / 2 then [] else [1])
  match s.allUp (ringWalk a diff) with
  | some p => some p
  | none => match diff with
    | [x] => s.allUp (ringWalk a [1 - x, x, 1 - x])
    | _ => s.allUp (ringWalk a diff.reverse)

/-- A compute die's link to its own I/O die: (a) for lines with PA bit 8 clear, (b) for the others, or the one that is not down. -/
def State.twinLink (s : State) (d : Nat) (odd : Bool) : Option Nat :=
  let a := 4 + 2 * d + (if odd then 1 else 0)
  let b := 4 + 2 * d + (if odd then 0 else 1)
  if s.linkUp a then some a else if s.linkUp b then some b else none

/-- From a compute die to its own I/O die, or through its bit-0 neighbour where both its links are down. -/
def State.attach (s : State) (d : Nat) (odd : Bool) : Option (List Nat) :=
  match s.twinLink d odd with
  | some l => some [l]
  | none =>
    match s.ringRoute d (flipDie d 0), s.twinLink (flipDie d 0) odd with
    | some p, some l => some (p ++ [l])
    | _, _ => none

/-- From a compute die to an I/O die; one that is not attached to it crosses to its bit-1 neighbour first. -/
def State.toIo (s : State) (d io : Nat) (odd : Bool) : Option (List Nat) :=
  if d / 2 = io - 4 then s.attach d odd
  else match s.ringRoute d (flipDie d 1), s.attach (flipDie d 1) odd with
    | some p, some q => some (p ++ q)
    | _, _ => none

/-- Between the I/O dies: DL12, or the compute ring. Which compute dies the way round uses is not in the spec: the model takes 0 and 2
(log entry 36). -/
def State.ioCross (s : State) (odd : Bool) : Option (List Nat) :=
  match s.allUp [12] with
  | some p => some p
  | none => match s.attach 0 odd, s.ringRoute 0 2, s.attach 2 odd with
    | some p, some q, some r => some (p.reverse ++ q ++ r)
    | _, _, _ => none

/-- The prescribed route between two dies. The way from an I/O die to a compute die is that of the other direction reversed
(log entry 36). -/
def State.fixedRoute (s : State) (a b : Nat) (odd : Bool) : Option (List Nat) :=
  if a = b then some []
  else if a < 4 then (if b < 4 then s.ringRoute a b else s.toIo a b odd)
  else if b < 4 then (s.toIo b a odd).map List.reverse
  else s.ioCross odd

/-- Dies reached from a die over at most n links that are up, with the links taken. -/
def State.reached (s : State) (a n : Nat) : List (Nat × List Nat) :=
  match n with
  | 0 => [(a, [])]
  | k + 1 =>
    let l := s.reached a k
    (List.range 13).foldl (fun l n =>
      let (x, y) := linkEnds n
      let add (l : List (Nat × List Nat)) (u v : Nat) : List (Nat × List Nat) :=
        if l.any (fun e => e.1 == v) then l else match l.find? (fun e => e.1 == u) with
          | some e => l ++ [(v, e.2 ++ [n])]
          | none => l
      if s.linkUp n then add (add l x y) y x else l) l

/-- The links that a message takes between two dies, for a line with PA bit 8 as given. Where several links are down at once and none
of the ways of R21 is whole, it takes some way that is (log entry 36). -/
def State.route (s : State) (a b : Nat) (odd : Bool) : List Nat :=
  match s.fixedRoute a b odd with
  | some p => p
  | none => match (s.reached a 6).find? (fun e => e.1 == b) with | some e => e.2 | none => []

/-- Every pair of dies can be joined (R21). -/
def State.routable (s : State) : Bool := (s.reached 0 6).length == 6

/-! ## On the way -/

/-- R19: a message sent into an open retraining window is held until it closes. -/
def State.held (s : State) (path : List Nat) (sent : Nat) : Bool :=
  path.any (fun n => match (s.link n).window with | some (t, _) => decide (t ≤ sent) | none => false)

/-- The route while every link is up (R16). -/
def State.usualRoute (s : State) (a b : Nat) (odd : Bool) : List Nat := ({ s with links := [] } : State).route a b odd

/-- A message of a line, between two dies, that is on its way keeps ahead of a later one of another line. Over one route messages keep their order
(R16, R17); one that takes a new route waits for those on an old one, whose link is down (R21 stage 4). Between compute dies there is one route
for all lines. -/
def State.sameWay (s : State) (a b line line' : Nat) (path path' : List Nat) : Bool :=
  (decide (a < 4) && decide (b < 4)) || line % 2 == line' % 2 || path == path' ||
  (path.any (fun n => !s.linkUp n) && path' != s.usualRoute a b (line' % 2 = 1))

/-- The die from which a source's requests leave. A peer's come in by an I/O die, which the model takes to be I/O die 0; the device's own
begin at the line's home (log entry 36). -/
def srcDie (src : Src) (home : Nat) : Nat :=
  match src with
  | .core c => dieOf c
  | .engine c => dieOf c
  | .peer _ => 4
  | .own => homeDie home

/-- The place of a source in the order of R126; the device's own requests rank with the bridge's (log entry 36). -/
def srcRank (src : Src) : Nat :=
  match src with
  | .own => 0
  | .core c => 1 + c
  | .engine c => 1001 + c
  | .peer chip => 2001 + chip

/-- The number of the 940 MHz cycle. -/
def State.tick50 (s : State) : Nat := s.time / 50

/-- Two sources whose messages leave one place: a core and its engines send through one port (R17). -/
def oneSource (a b : Src) : Bool :=
  match a, b with
  | .core c, .engine d => c == d
  | .engine c, .core d => c == d
  | a, b => a == b

/-- The die of the home of a line. -/
def lineDie (line : Nat) : Nat := homeDie ((lineHome line).getD 0)

/-- An earlier request of the same source to the same home, over the same route, is still on its way. -/
def State.behind (s : State) (r : Req) : Bool :=
  (s.reqs.takeWhile (fun o => o.id != r.id)).any (fun o =>
    o.arrived.isNone && oneSource o.src r.src && lineHome o.line == lineHome r.line &&
    s.sameWay (srcDie r.src (lineDie r.line)) (lineDie r.line) o.line r.line o.path r.path)

/-- A request on its way may reach its home now. -/
def State.mayArrive (s : State) (r : Req) : Bool := !s.held r.path r.sent && !s.behind r

/-- A request comes before another of its line in the order of R126. -/
def Req.before (a b : Req) : Bool :=
  match a.arrived, b.arrived with
  | some x, some y => decide (x < y) || (x == y && (decide (srcRank a.src < srcRank b.src) || (srcRank a.src == srcRank b.src && decide (a.id < b.id))))
  | _, _ => false

/-! ## Ports (R24, R25) -/

/-- R25: the port of an I/O die that a message takes: one of its mask, chosen by a hash of core and address; none where the mask is
zero. -/
def State.portOn (s : State) (io core chip addr : Nat) : Option Nat :=
  let mask := Tab.get 0 s.routes (io * 1024 + chip)
  let ports := (List.range 64).filter (fun p => mask.getLsbD p)
  match ports[Config.portHash core addr % ports.length]? with
  | some p => some (64 * io + p)
  | none => none

/-- R25: a port of this I/O die, or, for a chip that this die has no port for, one of the other I/O die, which the message reaches across
DL12. 'none' where neither has one. -/
def State.pickPort (s : State) (io core chip addr : Nat) : Option Nat :=
  match s.portOn io core chip addr with
  | some p => some p
  | none => s.portOn (1 - io) core chip addr

/-- The chip id that Belcy messages name as their source (R26). -/
def State.chipId (s : State) : Nat := s.chipcfg.toNat % 1024

/-! ## Between a core and the ports of the I/O dies -/

/-- The I/O die that a core's traffic reaches first (R16). R25 does not say by which I/O die's table a message leaves: the model takes that
of this die (DESIGN CHOICE, log entry 36). -/
def ioDieOf (core : Nat) : Nat := if dieOf core < 2 then 0 else 1

/-- The I/O die to which an access of a core goes that is for no home: its host port's, the one by which it leaves for a peer, or for a
register that of the launch front (log entry 36). -/
def ioOf (core pa : Nat) : Option Nat :=
  match physKind pa with
  | .host p => some (4 + p / 2)
  | .peer => some (4 + ioDieOf core)   -- and on across DL12, where its port is on the other one
  | .regs => some 4
  | _ => none

/-- A link of the way between two dies is retraining (R19). -/
def State.shut (s : State) (a b : Nat) (odd : Bool) : Bool := (s.route a b odd).any (fun n => (s.link n).window.isSome)

/-- An access of a core to a port waits at the core: a link of its way is retraining, or a flit that the core sent to that die before is
still on its way (R16, R17, R19). -/
def State.portShut (s : State) (core pa : Nat) : Bool :=
  match ioOf core pa with
  | none => false
  | some io =>
    let odd := decide (pa / 256 % 2 = 1)
    let path := s.route (dieOf core) io odd
    s.shut (dieOf core) io odd ||
    s.reqs.any (fun r => r.arrived.isNone && oneSource (.core core) r.src && lineDie r.line == io &&
      s.sameWay (dieOf core) io r.line (pa / 256) r.path path)

/-- A message of a core that leaves for a peer by a port of the other I/O die crosses DL12 (R25), and waits while a link of that way is
retraining. -/
def State.crossShut (s : State) (io port : Nat) (odd : Bool) : Bool :=
  let other := port / 64 % 2
  io != other && s.shut (4 + io) (4 + other) odd

/-! ## Answers that come in -/

/-- The way of an answer over the dies: from a die to a die, for whom, and by which line it chooses a twin link. -/
structure Way where
  a    : Nat
  b    : Nat
  dest : Src
  line : Nat
deriving DecidableEq, Repr

/-- A message that a port of an I/O die takes in, or that begins there, and that leaves by a port of the other one (R25). -/
def State.transitWay (s : State) (io src chip : Nat) (va : W64) : Option Way :=
  match s.pickPort io src chip va.toNat with
  | some q => if q / 64 % 2 = io then none else some { a := 4 + io, b := 4 + q / 64 % 2, dest := .peer chip, line := va.toNat / 256 }
  | none => none

/-- The way of the acknowledgement of a core's remote write, which comes in by the port by which the write left (log entry 36). -/
def State.ackWay (s : State) (id : Nat) : Option Way :=
  (s.remotes.find? (fun r => r.id == id)).map (fun r => { a := 4 + r.port / 64 % 2, b := dieOf r.core, dest := .core r.core, line := r.pa / 256 })

/-- The way of an answer, if it goes over links of the package. -/
def State.flitWay (s : State) (f : Flit) : Option Way :=
  match f with
  | .hostDone id _ _ => (s.hostTxns.find? (fun t => t.id == id)).bind (fun t =>
      (ioOf t.core t.pa).map (fun io => { a := io, b := dieOf t.core, dest := .core t.core, line := t.pa / 256 }))
  | .ack id => s.ackWay id
  | .peer port dest src _ op _ va =>
    if dest % 1024 = s.chipId then
      match op with
      | .reply id .. => (match s.peerOut.find? (fun p => p.id == id) with
        | some p => some { a := 4 + port / 64 % 2, b := dieOf p.core, dest := .core p.core, line := p.pa / 256 }
        | none => s.ackWay id)
      | _ => none
    else s.transitWay (port / 64 % 2) src (dest % 1024) va
  | .answer p _ _ => s.transitWay 0 0 p.chip p.va

/-- Two ways on which messages keep their order (R17, R21): the message of the first is on its way. -/
def State.sameFlow (s : State) (x y : Way) : Bool :=
  x.a == y.a && x.b == y.b && oneSource x.dest y.dest &&
  s.sameWay x.a x.b x.line y.line (s.route x.a x.b (x.line % 2 = 1)) (s.route y.a y.b (y.line % 2 = 1))

/-- An answer waits at its I/O die: a link of its way is retraining, or an earlier answer or reply that keeps ahead of it has not come through (R17,
R19, R21). -/
def State.flitShut (s : State) (f : Flit) : Bool :=
  match s.flitWay f with
  | none => false
  | some w =>
    s.shut w.a w.b (w.line % 2 = 1) ||
    s.heldFlits.any (fun e => match s.flitWay e.2 with | some v => s.sameFlow v w | none => false) ||
    s.replies.any (fun p => lineDie p.req.line == w.a && srcDie p.req.src w.a == w.b && oneSource w.dest p.req.src &&
      s.sameWay w.a w.b p.req.line w.line p.path (s.route w.a w.b (w.line % 2 = 1)))

/-! ## Replies of the homes -/

/-- An earlier reply of the same home to the same core, over the same route, is still on its way, or an answer that waits at the same die (R17,
R138). -/
def State.replyBehind (s : State) (p : Reply) : Bool :=
  let home := lineDie p.req.line
  let dest := srcDie p.req.src home
  (s.replies.takeWhile (fun o => o.id != p.id)).any (fun o =>
    oneSource o.req.src p.req.src && lineHome o.req.line == lineHome p.req.line &&
    s.sameWay home dest o.req.line p.req.line o.path p.path) ||
  s.heldFlits.any (fun e => decide (e.1 < p.sent) && (match s.flitWay e.2 with
    | some v => v.a == home && v.b == dest && oneSource v.dest p.req.src && s.sameWay home dest v.line p.req.line (s.route home dest (v.line % 2 = 1)) p.path
    | none => false))

/-- A reply may reach its core now. -/
def State.replyReady (s : State) (p : Reply) : Bool := !s.held p.path p.sent && !s.replyBehind p

end Sys2Proof.Machine
end

