-- ==== Sys2Proof/Machine/Walk.lean ====
section
/-!
DEFINITION. Address translation (R148 to R161): canonical addresses, page-table entries, the walk, the TLBs and walk caches, the
checks of an access, and reads that the hardware makes through a translation of its own.
-/

namespace Sys2Proof.Machine

/-! ## Addresses -/

/-- R148: bits 63:57 all equal bit 56. -/
def canonical (va : W64) : Bool :=
  let h := va.toNat / 2 ^ 56
  h == 0 || h == 255

/-- R156: the checks on the first and last byte of an access of n bytes. -/
def rangeFault (va : W64) (n : Nat) : Option Cause :=
  if !canonical va then some .noncanonical
  else
    let last := va.toNat + (n - 1)
    if va.toNat / 2 ^ 56 = 0 then (if last < 2 ^ 56 then none else some .addressWrap)
    else if last < 2 ^ 64 then none else some .addressWrap

/-! ## Page-table entries (R151) -/

def pteV (e : W64) : Bool := e.getLsbD 0
def pteR (e : W64) : Bool := e.getLsbD 1
def pteW (e : W64) : Bool := e.getLsbD 2
def pteX (e : W64) : Bool := e.getLsbD 3
def ptePriv (e : W64) : Bool := e.getLsbD 4
def pteG (e : W64) : Bool := e.getLsbD 5
def pteA (e : W64) : Bool := e.getLsbD 6
def pteD (e : W64) : Bool := e.getLsbD 7
def pteSpan (e : W64) : Bool := e.getLsbD 8
def pteHome (e : W64) : Nat := e.toNat / 2 ^ 9 % 4
def pteFmt (e : W64) : Nat := e.toNat / 2 ^ 11 % 16
def pteKey (e : W64) : BitVec 6 := BitVec.ofNat 6 (e.toNat / 2 ^ 15)
def ptePpn (e : W64) : Nat := e.toNat / 2 ^ 22 % 2 ^ 40

def pteLeaf (e : W64) : Bool := pteR e || pteW e || pteX e

/-- Page size of a leaf at a level (R150). -/
def pageSize (level : Nat) (e : W64) : Nat :=
  if level = 3 then 2 ^ 30
  else if level = 2 then (if pteSpan e then 2 ^ 25 else 2 ^ 21)
  else if pteSpan e then 2 ^ 16 else 2 ^ 12

/-- R152: a malformed entry with V = 1. -/
def malformed (level : Nat) (e : W64) : Bool :=
  (pteLeaf e && decide (4 ≤ level)) || (!pteLeaf e && level == 1) ||
  (!pteLeaf e && e.toNat / 2 ^ 4 % 2 ^ 17 != 0) || e.getLsbD 21 || (pteW e && !pteR e) ||
  (pteLeaf e && pteSpan e && level == 3) || (pteLeaf e && ptePpn e % (pageSize level e / 4096) != 0)

/-- Index of a level (R150). -/
def walkIndex (va : W64) (level : Nat) : Nat := va.toNat / 2 ^ (12 + 9 * (level - 1)) % 512

/-! ## The walk -/

/-- Eight bytes of a table, from the die's walk cache or else from the home (R158, R160); none while a host owns their line, which the
home first recalls (R60). -/
def State.tableWord (s : State) (die : Nat) (asid : W16) (pa : Nat) : Option W64 :=
  match s.walkc.find? (fun e => e.1 == die && e.2.asid == asid && e.2.pa == pa) with
  | some e => some e.2.word
  | none => if s.hostOwns (pa / 256) then none else some (BitVec.ofNat 64 (s.homeRead pa 8))

/-- The address of an ASID's entry (R149). -/
def State.asidAddr (s : State) (asid : W16) : Nat := s.asidcfg.toNat / 4096 % 2 ^ 40 * 4096 + 16 * asid.toNat

/-- The ASID entry is in use and has its reserved bits zero, word 1 included (R149). -/
def asidOk (e word1 : W64) : Bool := e.getLsbD 0 && e.toNat / 8 % 512 == 0 && e.toNat / 2 ^ 52 == 0 && word1 == 0

/-- PARK of an ASID (R149). -/
def State.parks (s : State) (asid : W16) : Bool := (BitVec.ofNat 64 (s.homeRead (s.asidAddr asid) 8)).getLsbD 1

/-- PEER of an ASID (R149, R164): where the entry is not in use, the request goes on and meets a translation fault. -/
def State.peerOk (s : State) (asid : W16) : Bool := (BitVec.ofNat 64 (s.homeRead (s.asidAddr asid) 8)).getLsbD 2

/-- What a walk finds: a leaf with its level and the physical address of its entry, and the pointer entries it read. -/
structure Walked where
  leaf  : W64
  level : Nat
  entry : Nat
  read  : List (Nat × W64)
deriving DecidableEq, Repr

/-- How a walk ends: with a leaf; with a translation fault, which may have met an unpopulated address (R14); or not yet, since the home must
recall a line that a host owns. -/
inductive WalkEnd where
  | leaf (w : Walked)
  | fault (stray : Option Nat)
  | wait (pa : Nat)
deriving DecidableEq, Repr

/-- The unpopulated address of a read outside the homes, if it is one. -/
def strayOf (pa : Nat) : Option Nat := if physKind pa = .none then some pa else none

/-- The access met an unpopulated address, or none (R14). -/
def State.logMaybe (s : State) (stray : Option Nat) : State := match stray with | some pa => s.logStray pa | none => s

/-- The levels from 'level' down, from a table (R150, R152). -/
def State.walkFrom (s : State) (die : Nat) (asid : W16) (va : W64) (level table : Nat) (read : List (Nat × W64)) : WalkEnd :=
  match level with
  | 0 => .fault none
  | l + 1 =>
    let pa := table + 8 * walkIndex va (l + 1)
    match homeOf pa, s.tableWord die asid pa with
    | none, _ => .fault (strayOf pa)
    | some _, none => .wait pa
    | some _, some e =>
      if !pteV e || malformed (l + 1) e then .fault none
      else if pteLeaf e then (if s.hostOwns (pa / 256) then .wait pa else .leaf ⟨BitVec.ofNat 64 (s.homeRead pa 8), l + 1, pa, read⟩)
      else s.walkFrom die asid va l (ptePpn e * 4096) ((pa, e) :: read)

/-- A whole walk (R149, R150). -/
def State.walk (s : State) (die : Nat) (asid : W16) (va : W64) : WalkEnd :=
  let a := s.asidAddr asid
  match homeOf a, s.tableWord die asid a, s.tableWord die asid (a + 8) with
  | none, _, _ => .fault (strayOf a)
  | some _, some e, some e1 =>
    if asidOk e e1 then s.walkFrom die asid va 5 (e.toNat / 4096 % 2 ^ 40 * 4096) [(a, e), (a + 8, e1)] else .fault none
  | some _, _, _ => .wait a

/-- The physical address of va under a leaf (R153). -/
def leafPa (leaf : W64) (size : Nat) (va : W64) : Nat := ptePpn leaf * 4096 + va.toNat % size

/-- R155: whether a leaf permits an access; CWB's is not checked (R358). -/
def permits (leaf : W64) (access : Access) (handler : Bool) : Bool :=
  match access with
  | .read => pteR leaf && (!ptePriv leaf || handler)
  | .write => pteW leaf && (!ptePriv leaf || handler)
  | .atomic => pteR leaf && pteW leaf && (!ptePriv leaf || handler)
  | .fetch => pteX leaf && (!ptePriv leaf || handler)
  | .clean => true

/-! ## TLBs -/

def tlbHit (asid : W16) (va : W64) (e : TlbEntry) : Bool :=
  (e.asid == asid || pteG e.leaf) && decide (e.base ≤ va.toNat ∧ va.toNat < e.base + e.size)

/-- The entry that a core's access finds: in its L1 TLB, or in its die's L2 TLB (R158). -/
def State.tlbFind (s : State) (core : Nat) (asid : W16) (va : W64) : Option TlbEntry :=
  match (s.core core).tlb.find? (tlbHit asid va) with
  | some e => some e
  | none => (s.l2tlb.find? (fun e => e.1 == dieOf core && tlbHit asid va e.2)).map (·.2)

/-- What translation answers for one byte of an access. -/
inductive Xl where
  | ok (pa : Nat) (leaf : W64)
  | miss
  | fault (c : Cause)
deriving DecidableEq, Repr

/-- Translate through the TLBs (R154, R155): an entry whose A is 0 serves no access, and one whose D is 0 no write. -/
def State.xlate (s : State) (core : Nat) (asid : W16) (va : W64) (access : Access) (handler : Bool) : Xl :=
  match s.tlbFind core asid va with
  | none => .miss
  | some e =>
    if !permits e.leaf access handler then .fault .permission
    else if !pteA e.leaf || ((access == .write || access == .atomic) && !pteD e.leaf) then .miss
    else .ok (leafPa e.leaf e.size va) e.leaf

/-- The key slot of a leaf may be used for an access to a physical address: outside homes 0 to 5 it is not checked (R58, R155). -/
def State.keyFor (s : State) (part pa : Nat) (leaf : W64) : Bool := (homeOf pa).isNone || s.keyUsable part (pteKey leaf)

/-- The set of an L2 TLB entry: 32,768 entries in 8 ways. The index is not in the spec (log entry 9). -/
def tlbSet (e : TlbEntry) : Nat := e.base / 4096 % 4096

/-- Keep fewer than n entries of those that a rule picks, dropping one that is open. -/
def roomFor {α : Type} (l : List α) (pick : α → Bool) (n i : Nat) : List α :=
  if (l.filter pick).length < n then l
  else
    let victims := (l.zipIdx.filter (fun e => pick e.1)).map (·.2)
    match victims[i % victims.length]? with | some k => l.eraseIdx k | none => l

/-- Hold an entry in a core's L1 TLB of 512 entries and in its die's L2 TLB (R158); which entry goes is open. -/
def State.installTlb (s : State) (core : Nat) (e : TlbEntry) : State :=
  let c := s.core core
  let (f, s) := s.free
  let same (x : TlbEntry) : Bool := x.asid == e.asid && x.base == e.base && x.size == e.size
  let l1 := e :: roomFor (c.tlb.filter (fun x => !same x)) (fun _ => true) 512 f.toNat
  let s := s.setCore core { c with tlb := l1 }
  let l2 := s.l2tlb.filter (fun x => !(x.1 == dieOf core && same x.2))
  { s with l2tlb := (dieOf core, e) :: roomFor l2 (fun x => x.1 == dieOf core && tlbSet x.2 == tlbSet e) 8 (f.toNat / 2 ^ 32) }

/-- Hold pointer entries in a die's walk cache of 1,024 entries (R158). -/
def State.installWalk (s : State) (die : Nat) (asid : W16) (read : List (Nat × W64)) : State :=
  let (f, s) := s.free
  read.foldl (fun s e =>
    let old := s.walkc.filter (fun x => !(x.1 == die && x.2.asid == asid && x.2.pa == e.1))
    { s with walkc := (die, ({ asid := asid, pa := e.1, word := e.2 } : WalkEntry)) :: roomFor old (fun x => x.1 == die) 1024 f.toNat }) s

/-! ## A finished walk (R154, R159) -/

/-- The bits that an access has the walker set in the entry of a leaf that permits it (R154). -/
def adBits (leaf : W64) (access : Access) (handler : Bool) : W64 :=
  let d : W64 := match access with | .write => 0x80 | .atomic => 0x80 | _ => 0
  if permits leaf access handler then (0x40 ||| d) &&& ~~~leaf else 0

/-- The walker's atomic OR at an entry's home may be performed: no host holds its line and no request waits there (R60, R126). -/
def State.adReady (s : State) (w : Walked) (access : Access) (handler : Bool) : Bool :=
  adBits w.leaf access handler == 0 ||
  (!s.lineBusy (w.entry / 256) && (s.clearHost (w.entry / 256) (s.slotOf (w.entry / 256)) noPart true).isNone)

/-- R154: set A, and D for a write or an atomic, in the entry that was read, with one atomic OR. The walk reads the entry in the same
step, so the OR finds the value that the walk found. -/
def State.setAd (s : State) (w : Walked) (access : Access) (handler : Bool) : W64 × State :=
  let b := adBits w.leaf access handler
  if b = 0 then (w.leaf, s) else (w.leaf ||| b, s.ownAtomic w.entry (s.slotOf (w.entry / 256)) (.setBits b))

/-- The TLB entry of a leaf for an address. -/
def leafEntry (asid : W16) (va : W64) (w : Walked) (leaf : W64) : TlbEntry :=
  let size := pageSize w.level leaf
  { asid := asid, base := va.toNat / size * size, size := size, leaf := leaf }

/-- A walk made and finished at once: a leaf that permits the access is held in the TLBs. It comes to nothing where a home would first have
to recall a line from a host. -/
def State.walkNow (s : State) (core : Nat) (asid : W16) (va : W64) (access : Access) (handler : Bool) : State :=
  match s.walk (dieOf core) asid va with
  | .leaf w =>
    if permits w.leaf access handler && s.adReady w access handler then
      let (leaf, s) := s.setAd w access handler
      (s.installTlb core (leafEntry asid va w leaf)).installWalk (dieOf core) asid w.read
    else s
  | .fault (some pa) => s.logStray pa
  | _ => s

/-! ## Reads by the hardware -/

/-- A read that the hardware makes for itself: its value, a failure, or an address that must first arrive or be recalled. -/
inductive HwRead where
  | val (v : Nat)
  | fail (c : Cause)
  | wait (pa : Nat)
deriving DecidableEq, Repr

/-- A line is resident under another key slot than an access names (R58). -/
def State.otherSlot (s : State) (line : Nat) (key : Option (BitVec 6)) : Bool :=
  match Tab.find s.l2 line, key with | some l, some k => l.key != k | _, _ => false

/-- R58: a hardware read of a line that is resident under another slot has it written back and dropped, and filled again under its own;
through a HOME 3 page it is not filled (R109). -/
def State.rehome (s : State) (pa : Nat) (leaf : W64) : State :=
  let line := pa / 256
  match homeOf pa with
  | some k =>
    if !s.otherSlot line (some (pteKey leaf)) then s
    else if pteHome leaf = 3 then { s with l2 := Tab.erase s.l2 line }
    else (s.sweepFirst k line).fetchLine k line (pteKey leaf) noPart (pteHome leaf == 2)
  | none => s

/-- Bytes at a physical address for a hardware read: the home's current bytes, under a key slot where a translation names one (R58), once no
host shares a line that leaves its slot; zero where nothing is populated (R14); a host line that is resident (R127); what a peer has answered lately (R128). Poisoned bytes
fail (R130). -/
def State.hwPhys (s : State) (pa n : Nat) (key : Option (BitVec 6)) : HwRead :=
  match physKind pa with
  | .home _ =>
    if s.hostOwns (pa / 256) || (s.otherSlot (pa / 256) key && s.hostShares (pa / 256)) then .wait pa
    else if (s.poisonOf (pa / 256) &&& byteRange (pa % 256) n) = 0 then
      .val (match key with | some k => s.homeReadAs pa k n | none => s.homeRead pa n)
    else .fail .dataUncorrectable
  | .host port =>
    if (s.ports.getD port {}).down then .fail .hostPath
    else match Tab.find s.hostL2 (pa / 256), Tab.find s.hwLines (pa / 64) with
      | some l, _ => if l.poison &&& byteRange (pa % 256) n = 0 then .val (lineField l.data (pa % 256) n) else .fail .dataUncorrectable
      | none, some (_, none) => .fail .hostPath
      | none, _ => .wait pa
  | .peer =>
    match Tab.find s.hwLines (pa / 64) with
    | some (_, some d) => .val (d.toNat / 2 ^ (8 * (pa % 64)) % 2 ^ (8 * n))
    | some (_, none) => .fail .peerPath
    | none => .wait pa
  | .regs => .fail .permission
  | .none => .val 0

/-- How a translation that the hardware makes for itself ends: a leaf with the physical address, a failure, or a wait for a line. -/
inductive HwLeaf where
  | ok (pa : Nat) (leaf : W64) (w : Walked)
  | fail (c : Cause)
  | wait (pa : Nat)
deriving DecidableEq, Repr

/-- R100, R156, R196, R217, R280: translate n bytes within one line by a walk of its own. 'handler' says that it reaches PRIV pages: it
does for the hardware only where it acts for an agent in handler mode (R155; log entry 38). -/
def State.hwLeaf (s : State) (die : Nat) (asid : W16) (part : Nat) (va : W64) (n : Nat) (access : Access) (handler : Bool) : HwLeaf :=
  match rangeFault va n with
  | some c => .fail c
  | none =>
    match s.walk die asid va with
    | .fault _ => .fail .translation
    | .wait pa => .wait pa
    | .leaf w =>
      let pa := leafPa w.leaf (pageSize w.level w.leaf) va
      if !permits w.leaf access handler then .fail .permission
      else if !s.keyFor part pa w.leaf then .fail .keyInvalid
      else if !s.adReady w access handler then .wait w.entry
      else .ok pa w.leaf w

/-- A hardware read of n bytes within one line at a virtual address. -/
def State.hwRead (s : State) (die : Nat) (asid : W16) (part : Nat) (va : W64) (n : Nat) (handler : Bool) : HwRead :=
  match s.hwLeaf die asid part va n .read handler with
  | .ok pa leaf _ => s.hwPhys pa n (some (pteKey leaf))
  | .fail c => .fail c
  | .wait pa => .wait pa

/-- The same over k pieces of n bytes one after another, the first failure first. -/
def State.hwReads (s : State) (die : Nat) (asid : W16) (part : Nat) (va : W64) (n k : Nat) (handler : Bool) : HwRead :=
  match k with
  | 0 => .val 0
  | j + 1 =>
    match s.hwRead die asid part va n handler with
    | .val v =>
      match s.hwReads die asid part (va + BitVec.ofNat 64 n) n j handler with
      | .val r => .val (v + r * 2 ^ (8 * n))
      | x => x
    | x => x

/-- What a hardware access does besides its bytes: A and D of the leaf are set (R154), an unpopulated address is logged (R14), and a line
that it reads changes its slot (R58). -/
def State.hwTouch (s : State) (die : Nat) (asid : W16) (part : Nat) (va : W64) (n : Nat) (access : Access) (handler : Bool) : State :=
  match s.hwLeaf die asid part va n access handler with
  | .ok pa leaf w =>
    let s := (s.setAd w access handler).2
    if physKind pa = .none then s.logStray pa else if access == .read then s.rehome pa leaf else s
  | .fail _ => (match s.walk die asid va with | .fault (some pa) => s.logStray pa | _ => s)
  | .wait _ => s

end Sys2Proof.Machine
end

