-- ==== Sys2Proof/Machine/Regs.lean ====
section
/-!
DEFINITION. The agents' records, their registers, and results on their way: reading a register under the fixed-latency contract
(R259, R260), writing one, and landing results (R259 to R261).
-/

namespace Sys2Proof.Machine

/-- The code of a cause (R106). -/
def causeCode (c : Cause) : Nat :=
  match c with
  | .none => 0 | .illegalOpcode => 1 | .illegalOperand => 2 | .retiredForm => 3 | .privilege => 4 | .controlOnly => 5
  | .tagRequired => 6 | .fetchAlign => 7 | .softwareTrap => 8 | .breakpoint => 9 | .callDepth => 10 | .widthContract => 11
  | .misalignedAtomic => 12 | .translation => 16 | .permission => 17 | .noncanonical => 18 | .addressWrap => 19
  | .scratchBounds => 20 | .rangeLock => 21 | .dataUncorrectable => 22 | .hostPath => 23 | .peerPath => 24 | .keyInvalid => 25
  | .formatEntry => 26 | .regionMap => 27 | .copyFault => 32 | .matrixSlot => 33 | .barrierOverrun => 34 | .queueOverrun => 35
  | .serviceError => 36 | .launchDepth => 37 | .slotConflict => 38 | .engineUncorrectable => 39 | .watchpoint => 48
  | .debugHalt => 49 | .singleStep => 50 | .forcedSave => 51 | .preemptSave => 52

/-! ## Agents -/

/-- Identity codes (R228). -/
def identity (g : Agent) : W32 :=
  match g with
  | .warp w => BitVec.ofNat 32 (w / 128 / 40 * 2 ^ 13 + w / 128 % 40 * 2 ^ 7 + w % 128)
  | .ct t => BitVec.ofNat 32 (2 ^ 29 + t / 8 / 40 * 2 ^ 13 + t / 8 % 40 * 2 ^ 7 + t % 8)

/-- The core of an agent (R8). -/
def agentCore (g : Agent) : Nat := match g with | .warp w => w / 128 | .ct t => t / 8

def State.warp (s : State) (w : Nat) : Option Warp := Tab.find s.warps w
def State.team (s : State) (t : Nat) : Option Team := Tab.find s.teams t
def State.grid (s : State) (e : Nat) : Option Grid := Tab.find s.grids e
def State.updWarp (s : State) (w : Nat) (f : Warp → Warp) : State := { s with warps := Tab.upd s.warps w f }
def State.updTeam (s : State) (t : Nat) (f : Team → Team) : State := { s with teams := Tab.upd s.teams t f }
def State.updGrid (s : State) (e : Nat) (f : Grid → Grid) : State := { s with grids := Tab.upd s.grids e f }
def State.updCore (s : State) (c : Nat) (f : Core → Core) : State := s.setCore c (f (s.core c))

/-- No agent: in the place of one for what the hardware does by itself. Its core does not exist. -/
def noAgent : Agent := .ct 1280

/-- What a warp and a control thread share. -/
def State.ctx (s : State) (g : Agent) : Option Ctx :=
  match g with
  | .warp w => (s.warp w).map (·.ctx)
  | .ct t => (s.team t).map (·.ct)

def State.updCtx (s : State) (g : Agent) (f : Ctx → Ctx) : State :=
  match g with
  | .warp w => s.updWarp w (fun x => { x with ctx := f x.ctx })
  | .ct t => s.updTeam t (fun x => { x with ct := f x.ct })

/-- A number for a request, a flight, a command or a landing. -/
def State.newId (s : State) : Nat × State := (s.nextId, { s with nextId := s.nextId + 1 })

/-- Where an agent belongs. -/
structure Who where
  g       : Agent
  core    : Nat
  team    : Nat
  grid    : Nat
  asid    : W16
  part    : Nat
  handler : Bool
deriving DecidableEq, Repr

def State.who (s : State) (g : Agent) : Option Who :=
  match s.ctx g with
  | none => none
  | some c =>
    match s.team c.team with
    | none => none
    | some t =>
      match s.grid t.grid with
      | none => none
      | some x => some { g := g, core := agentCore g, team := c.team, grid := t.grid, asid := x.asid, part := x.part,
                         handler := c.handler }

/-! ## Registers -/

/-- The value of a register with every landed write and no other. Registers 64 bits wide or less stand in the low bits. -/
def State.base (s : State) (g : Agent) (lane : Nat) (d : Dest) : BitVec 128 :=
  match g, d with
  | _, .s n => match s.ctx g with | some c => (Tab.get 0 c.s n).setWidth 128 | none => 0
  | _, .q n => match s.ctx g with | some c => if c.q.getLsbD n || n == 7 then 1 else 0 | none => 0
  | _, .flags => match s.ctx g with | some c => c.flags.setWidth 128 | none => 0
  | .warp w, .v n => match s.warp w with | some x => (Tab.get 0 x.v (256 * lane + n)).setWidth 128 | none => 0
  | .warp w, .p n =>
    if n = 7 then 1 else match s.warp w with | some x => if Tab.get false x.p (8 * lane + n) then 1 else 0 | none => 0
  | .warp w, .j k => match s.warp w with | some x => Tab.get 0 x.j k | none => 0
  | .warp w, .cd => match s.warp w with | some x => BitVec.ofNat 128 (Tab.get 0 x.depth lane) | none => 0
  | .ct t, .cd => match s.team t with | some x => BitVec.ofNat 128 x.ctDepth | none => 0
  | _, _ => 0

/-- The operand code of a register, to name it in Config.seesNew. -/
def destCode (d : Dest) : Nat :=
  match d with
  | .v n => n | .s n => 256 + n | .p n => 352 + n | .q n => 360 + n | .j k => 368 + k | .flags => 384 | .cd => 385
  | .tag k => 386 + k | .sr i => 400 + i

/-- Registers held per lane. -/
def perLane (d : Dest) : Bool := match d with | .v _ => true | .p _ => true | .cd => true | _ => false

/-- Whether a write goes to a register as one lane sees it. -/
def hits (w : RegWrite) (lane : Nat) (d : Dest) : Bool := w.dest == d && (w.lane == lane || !perLane d)

/-- R259, R260: the value read in a cycle, with the results that have landed, and each later result where Config.seesNew says
that this read already sees it, by the code of the operand: an operand of several registers is old or new as a whole. Landings are
listed in the order in which they land. -/
def readThrough (fresh cycle : Nat) (ls : List Landing) (lane code : Nat) (d : Dest) (v : BitVec 128) : BitVec 128 :=
  ls.foldl (fun v l =>
    if decide (l.due ≤ cycle) || Config.seesNew fresh l.id lane code then
      l.writes.foldl (fun v w => if hits w lane d then (if d == .flags then v ||| w.val else w.val) else v) v
    else v) v

/-- The value that an instruction issued now by g reads from a register in a lane, as part of the operand that begins at the register
'first' (R259). -/
def State.regPart (s : State) (g : Agent) (lane : Nat) (first d : Dest) : BitVec 128 :=
  match s.ctx g with
  | some c =>
    match d with
    | .p 7 => 1
    | .q 7 => 1
    | _ => readThrough s.fresh (s.cycle (agentCore g)) c.landings lane (destCode first) d (s.base g lane d)
  | none => 0

/-- The same for an operand of one register. -/
def State.reg (s : State) (g : Agent) (lane : Nat) (d : Dest) : BitVec 128 := s.regPart g lane d d

/-! ## Landing -/

/-- Writes to a warp's own registers. -/
def Warp.put (x : Warp) (w : RegWrite) : Warp :=
  match w.dest with
  | .v n => { x with v := Tab.put 0 x.v (256 * w.lane + n) (w.val.setWidth 32) }
  | .p n => if n = 7 then x else { x with p := Tab.put false x.p (8 * w.lane + n) (w.val != 0) }
  | .j k => { x with j := Tab.put 0 x.j k w.val }
  | .cd => { x with depth := Tab.put 0 x.depth w.lane w.val.toNat }
  | _ => x

/-- Writes to what a warp and a control thread share. -/
def Ctx.put (c : Ctx) (w : RegWrite) : Ctx :=
  match w.dest with
  | .s n => { c with s := Tab.put 0 c.s n (w.val.setWidth 32) }
  | .q n => if n = 7 then c else
      { c with q := if w.val = 0 then c.q &&& ~~~(BitVec.ofNat 8 (2 ^ n)) else c.q ||| BitVec.ofNat 8 (2 ^ n) }
  | .flags => { c with flags := c.flags ||| w.val.setWidth 5 }
  | .tag k => { c with busy := c.busy &&& ~~~(BitVec.ofNat 8 (2 ^ k)) }
  | _ => c

/-- Bits of FMTBASE that hold a value (R217). -/
def fmtBaseMask : W64 := 0xFFFFFFFFFFFFFF00

/-- A write to a special register takes effect (R396 to R398). A write to FMTBASE has the format table read (R217). Where another agent's LDF or
STF issues in the cycle in which it lands, R227 and R398 leave open which entries it uses: the agents of a cycle go in the order of their
places, so that one before the writer uses the old entries and one after it waits for the new (DESIGN CHOICE, log entry 46). -/
def State.writeSr (s : State) (g : Agent) (lane idx : Nat) (v : W64) : State :=
  match s.ctx g with
  | none => s
  | some c =>
    match idx with
    | 12 => match g with
      | .warp w => s.updWarp w (fun x => { x with savedLpc := Tab.set x.savedLpc lane (v &&& ~~~1) })
      | .ct _ => s
    | 19 => s.updCtx g (fun c => { c with trapCause := v.setWidth 6 })
    | 22 => s.updTeam c.team (fun t => { t with trapBase := v &&& ~~~7 })
    | 23 => s.updCtx g (fun c => { c with flags := v.setWidth 5 })
    | 25 => s.updTeam c.team (fun t => { t with savedCpc := v &&& ~~~1 })
    | 29 => match s.team c.team with
      | some t => s.updGrid t.grid (fun x => { x with lease := v.setWidth 32 &&& 7 })
      | none => s
    | 30 => s.updTeam c.team (fun t => { t with fmtBase := v &&& fmtBaseMask, fmtLoad := true, fmtBy := some (g, c.handler) })
    | _ => s

/-- Keep what a speculative write replaces (R92). -/
def Warp.logUndo (x : Warp) (spec : Option Nat) (old : RegWrite) : Warp :=
  match spec with
  | none => x
  | some id => { x with window := x.window.map (fun e => if e.id = id then { e with undo := old :: e.undo } else e) }

/-- FLAGS bits of a speculative entry are held with it, by lane (R92). -/
def Warp.holdFlags (x : Warp) (id lane : Nat) (v : BitVec 5) : Warp :=
  { x with window := x.window.map (fun e => if e.id = id then { e with flags := e.flags ++ [(lane, v)] } else e) }

/-- One register write lands. -/
def State.putReg (s : State) (g : Agent) (spec : Option Nat) (w : RegWrite) : State :=
  match w.dest, spec, g with
  | .sr idx, _, _ => s.writeSr g w.lane idx (w.val.setWidth 64)
  | .flags, some id, .warp k => s.updWarp k (fun x => x.holdFlags id w.lane (w.val.setWidth 5))
  | _, _, _ =>
    match g with
    | .warp k => s.updWarp k (fun x =>
        let x := x.logUndo spec { w with val := s.base g w.lane w.dest }
        let x := x.put w
        { x with ctx := x.ctx.put w })
    | .ct t => s.updTeam t (fun x =>
        let x := match w.dest with | .cd => { x with ctDepth := w.val.toNat } | _ => x
        { x with ct := x.ct.put w })

/-- Register writes land in order. -/
def State.putRegs (s : State) (g : Agent) (spec : Option Nat) (ws : List RegWrite) : State :=
  ws.foldl (fun s w => s.putReg g spec w) s

/-- A landing takes its place in the order in which results land: by cycle, and among those of one cycle by issue (R260); but a
write of FLAGS comes before the bits that other instructions raise in its cycle (R349). -/
def insertLanding (l : Landing) (ls : List Landing) : List Landing :=
  let first := l.writes.any (fun w => w.dest == .sr 23)
  match ls with
  | [] => [l]
  | a :: r => if a.due < l.due || (a.due == l.due && !first) then a :: insertLanding l r else l :: a :: r

/-- Register writes have landed in a cycle, those of an instruction of some number: a result of an earlier one that lands in the cycle as well
comes before them (R260). -/
def Ctx.noteLanded (c : Ctx) (now id : Nat) (ws : List RegWrite) : Ctx :=
  let old := if c.landed.1 = now then c.landed.2 else []
  { c with landed := (now, old ++ [{ id := id, due := now, lanes := 0, writes := ws }]) }

/-- The writes of an instruction that no later one of the same cycle has overtaken (R260, R272). -/
def Ctx.notOvertaken (c : Ctx) (now id : Nat) (ws : List RegWrite) : List RegWrite :=
  if c.landed.1 = now then
    ws.filter (fun w => !c.landed.2.any (fun l => decide (id < l.id) && l.writes.any (fun o => w.dest != .flags && hits o w.lane w.dest)))
  else ws

/-- Landings that have landed leave, or keep what of them has not. -/
def Ctx.dropLanded (c : Ctx) (rest : Landing → Option Landing) : Ctx := { c with landings := c.landings.filterMap rest }

/-- The results of an agent that are due land in the given lanes; registers that are not held per lane take theirs with any of them. -/
def State.landIn (s : State) (g : Agent) (lanes : Mask) : State :=
  match s.ctx g with
  | none => s
  | some c =>
    let now := s.cycle (agentCore g)
    let due := c.landings.filter (fun l => decide (l.due ≤ now))
    let in_ (w : RegWrite) : Bool := lanes.getLsbD w.lane || !perLane w.dest
    let s := due.foldl (fun s l => s.putRegs g l.spec (l.writes.filter in_)) s
    let rest (l : Landing) : Option Landing :=
      if now < l.due then some l
      else
        let left := l.writes.filter (fun w => !in_ w)
        if left.isEmpty then none else some { l with writes := left, lanes := l.lanes &&& ~~~lanes }
    s.updCtx g (fun c => (due.foldl (fun c l => if l.due = now then c.noteLanded now l.id (l.writes.filter in_) else c) c).dropLanded rest)

/-- The predicate writes of a result become the youngest of their lanes (R90). -/
def Warp.pendWrite (x : Warp) (id : Nat) (spec : Option Nat) (ws : List RegWrite) : Warp :=
  let flying (e : Nat × Option Nat) : Bool := x.ctx.landings.any (fun l => l.id == e.1) || x.ctx.flights.any (fun f => f.id == e.1)
  let young (t : Tab (List (Nat × Option Nat))) (r : RegWrite) : Tab (List (Nat × Option Nat)) :=
    match r.dest with
    | .p n => Tab.set t (8 * r.lane + n) ((id, spec) :: (Tab.get [] t (8 * r.lane + n)).filter flying)
    | _ => t
  { x with pend := ws.foldl young x.pend }

/-- Issue a fixed-latency result that lands in a cycle. Predicate writes become the youngest of their lanes (R90). -/
def State.addLanding (s : State) (g : Agent) (due : Nat) (lanes : Mask) (ws : List RegWrite) (spec : Option Nat) : State :=
  if ws.isEmpty then s
  else
    let (id, s) := s.newId
    let l : Landing := { id := id, due := due, lanes := lanes, writes := ws, spec := spec }
    let s := s.updCtx g (fun c => { c with landings := insertLanding l c.landings })
    match g with
    | .warp w => s.updWarp w (fun x => x.pendWrite id spec ws)
    | .ct _ => s

/-! ## Predicates and pending bits -/

/-- The results on their way that a number may name. -/
def Ctx.inFlight (c : Ctx) (now id : Nat) : Bool :=
  c.landings.any (fun l => l.id == id && decide (now < l.due)) || c.flights.any (fun f => f.id == id)

/-- The pending bit of a predicate in a lane, given as the number of the youngest write still on its way (R90). -/
def State.pendingId (s : State) (w lane n : Nat) : Option Nat :=
  match s.warp w with
  | none => none
  | some x =>
    match Tab.find x.pend (8 * lane + n) with
    | some ((id, _) :: _) => if x.ctx.inFlight (s.cycle (w / 128)) id then some id else none
    | _ => none

/-- The value of a guard as read now: the predicate of a lane, or q in the uniform set, negated if the guard says so (R249). -/
def State.guardTrue (s : State) (g : Agent) (uni : Bool) (lane : Nat) (c : Ctl) : Bool :=
  let v := if uni then s.reg g 0 (.q c.guard.toNat) else s.reg g lane (.p c.guard.toNat)
  (v != 0) != c.neg

/-- The lanes among some in which the guard of a word holds; a uniform word's guard is one for all of them (R86). -/
def State.guarded (s : State) (g : Agent) (uni : Bool) (c : Ctl) (lanes : Mask) : Mask :=
  if uni then (if s.guardTrue g true 0 c then lanes else 0) else maskOf ((lanesOf lanes).filter (fun j => s.guardTrue g false j c))

/-! ## Program counters -/

/-- The LPC of a lane, or the CPC (R86, R103). -/
def State.pcOf (s : State) (g : Agent) (lane : Nat) : W64 :=
  match g with
  | .warp w => match s.warp w with | some x => Tab.get 0 x.lpc lane | none => 0
  | .ct t => match s.team t with | some x => x.cpc | none => 0

/-- Set the LPC of some lanes, or the CPC. -/
def State.setPcs (s : State) (g : Agent) (lanes : List Nat) (tgt : W64) : State :=
  match g with
  | .warp w => s.updWarp w (fun x => { x with lpc := lanes.foldl (fun t j => Tab.set t j tgt) x.lpc })
  | .ct t => if lanes.isEmpty then s else s.updTeam t (fun x => { x with cpc := tgt })

/-- Eligible lanes (R85). -/
def Warp.eligible (x : Warp) : Mask :=
  x.live &&& ~~~x.parked &&& ~~~x.halted &&& ~~~(maskOf (x.blocks.map (·.1)))

/-- Slot cycles of an instruction (R75): lane-set instructions take a pass for each 32 lanes. -/
def passesOf (uni : Bool) (width : Nat) : Nat := if uni then 1 else max 1 (width / 32)

end Sys2Proof.Machine
end

