-- ==== Sys2Proof/Machine/Cache.lean ====
section
/-!
DEFINITION. The first-level cache of a core (R108 to R115, R128) and the requests it sends: hits, stores, write-backs, evictions;
the bytes of results being gathered; the resolution of an access to its physical pieces (R156, R157); the range-lock table
(R142).
-/

namespace Sys2Proof.Machine

/-! ## Requests -/

/-- Send a request to the home of a line, by the route of R16. -/
def State.send (s : State) (src : Src) (core line : Nat) (key : BitVec 6) (part : Nat) (home2 : Bool) (c : W32) (kind : ReqKind)
    (awaits : List Await) : State :=
  let (id, s) := s.newId
  let home := (lineHome line).getD 0
  { s with reqs := s.reqs ++ [{ id := id, src := src, core := core, line := line, key := key, part := part, home2 := home2,
                                c := c, kind := kind, awaits := awaits, sent := s.time,
                                path := s.route (srcDie src home) (homeDie home) (line % 2 = 1) }] }

/-! ## Sampling of requests (R241) -/

/-- The partition that a core runs for: the enabled one that owns its cluster, or else, after EN was cleared, that of the teams resident on
it (R57). -/
def State.partOfCore (s : State) (core : Nat) : Option Nat :=
  match (List.range 8).find? (fun p => (s.part p).word0.getLsbD 0 && (s.part p).clusters.getLsbD (core / 4)) with
  | some p => some p
  | none => (s.teams.find? (fun e => e.1 / 8 == core)).bind (fun e => (s.grid e.2.grid).map (·.part))

/-- The hops of a request from a core to a physical address (R241), in the order of the record: L1 queue, core crossbar, die network, links,
L2 home, memory controller, host bridge, Belcy. -/
def State.hopsOf (s : State) (core pa : Nat) : BitVec 8 :=
  match physKind pa with
  | .home k =>
    0x17 ||| (if s.route (dieOf core) (homeDie k) (pa / 256 % 2 = 1) = [] then 0 else 8) ||| (if (Tab.find s.l2 (pa / 256)).isSome then 0 else 0x20)
  | .host _ => 0x4F
  | .peer => 0x8F
  | _ => 0x07

/-- Count a request that leaves a core, and keep what the sample record of every 2^MEMK-th one says. It is the next request to be
numbered. -/
def State.countReq (s : State) (core kind : Nat) (issuer : W32) (pc cpc : W64) (csn : W32) (va : W64) (pa : Nat) : State :=
  match s.partOfCore core with
  | none => s
  | some p =>
    let ctl := (s.part p).sampctl
    if ctl.getLsbD 8 then
      let c := s.core core
      let n := c.sampReq + 1
      let hit := n % 2 ^ (ctl.toNat / 2 ^ 9 % 32) = 0
      let r : SampReq := { kind := kind, issuer := issuer, datum := s.datum, pc := pc, cpc := cpc, csn := csn, va := va,
                           ref := s.nextId, hops := s.hopsOf core pa }
      s.setCore core { c with sampReq := n, sampPend := if hit then c.sampPend ++ [r] else c.sampPend }
    else s

/-- The same for a request of an agent's access. -/
def State.countLane (s : State) (g : Agent) (kind : Nat) (va : W64) (pa : Nat) : State :=
  match s.ctx g with
  | none => s
  | some c =>
    match s.team c.team with
    | some t => s.countReq (agentCore g) kind (identity g) s.cur.pc t.cpc t.csn va pa
    | none => s

/-- A write-back of a line that no instruction names, by a release or an eviction: a request of the agent that issues now. What its record gives as
the virtual address, and as the issuer and its place where no agent issues, the spec leaves open (log entry 33). -/
def State.countFlushAt (s : State) (core pa : Nat) : State :=
  let (va, s) := s.free
  match s.cur.agent with
  | some g => s.countLane g 1 (va.setWidth 64) pa
  | none =>
    let (who, s) := s.free
    let (pc, s) := s.free
    let (cpc, s) := s.free
    s.countReq core 1 (who.setWidth 32) (pc.setWidth 64) (cpc.setWidth 64) (who.extractLsb' 32 32) (va.setWidth 64) pa

def State.countFlush (s : State) (core line : Nat) : State := s.countFlushAt core (256 * line)

/-! ## Lines of the L1 -/

def State.l1 (s : State) (core line : Nat) : Option L1Line := Tab.find (s.core core).l1 line
def State.setL1 (s : State) (core line : Nat) (x : L1Line) : State :=
  s.updCore core (fun c => { c with l1 := Tab.set c.l1 line x })
def State.dropL1 (s : State) (core line : Nat) : State := s.updCore core (fun c => { c with l1 := Tab.erase c.l1 line })

/-- The sector of a byte offset of a line. -/
def sectorOf (off : Nat) : Nat := off / 64

/-- R114: send the given bytes of a line as a write-back with a clock, and remember that they are on their way. -/
def State.writeBack (s : State) (core line : Nat) (mask : ByteMask) (clk : W32) (awaits : List Await) : State :=
  match s.l1 core line with
  | none => s
  | some l =>
    let s := s.setL1 core line { l with sent := l.sent ++ [(s.nextId, mask)] }
    s.send (.core core) core line l.key l.part l.home2 clk (.wback l.data mask (if l.known then some l.wts else none) l.poison)
      awaits

/-- The dirty bytes of a line that no write-back in flight carries. -/
def unsent (l : L1Line) : ByteMask := l.sent.foldl (fun m e => m &&& ~~~e.2) l.dirty

/-- Bytes of a line that change are no longer those that write-backs in flight carry (R114). -/
def L1Line.resent (l : L1Line) (mask : ByteMask) : List (Nat × ByteMask) := l.sent.map (fun e => (e.1, e.2 &&& ~~~mask))

/-- Write back one line's unsent dirty bytes under its dclk (R114, R115). -/
def State.flushLine (s : State) (core line : Nat) (awaits : List Await) : State :=
  match s.l1 core line with
  | none => s
  | some l => if unsent l = 0 then s else (s.countFlush core line).writeBack core line (unsent l) l.dclk awaits

/-- The lines of a core's L1 that hold unsent dirty bytes. -/
def State.dirtyLines (s : State) (core : Nat) : List Nat :=
  ((s.core core).l1.filter (fun e => unsent e.2 != 0)).map (·.1)

/-- R115 step 1, CWB.all: write back every dirty line of a core's L1. -/
def State.flushAll (s : State) (core : Nat) (awaits : List Await) : State :=
  (s.dirtyLines core).foldl (fun s l => s.flushLine core l awaits) s

/-- A renewal learns that its line has left the L1 (R129). It keeps the dirty bytes that go home behind it, so that its reader finds them (R111,
R135, R138). -/
def Req.loses (r : Req) (l : L1Line) : Req :=
  if l.key = r.key ∧ l.dirty ≠ 0 then
    { r with
      evicted := true
      kept := mergeLine r.kept l.data l.dirty
      keptMask := r.keptMask ||| l.dirty
      keptBad := (r.keptBad &&& ~~~l.dirty) ||| (l.poison &&& l.dirty)
      keptClk := if r.keptMask = 0 then l.dclk else serialMax r.keptClk l.dclk }
  else { r with evicted := true }

/-- The renewals of a core and its engines for a line that are on their way learn that the line leaves the L1. -/
def State.noteEvicted (s : State) (core line : Nat) (l : L1Line) : State :=
  let note (r : Req) : Req := if (r.src = .core core ∨ r.src = .engine core) ∧ r.line = line then r.loses l else r
  { s with reqs := s.reqs.map note, replies := s.replies.map (fun p => { p with req := note p.req }) }

/-- An eviction (R115): the dirty bytes go home and the line leaves. -/
def State.evictL1 (s : State) (core line : Nat) : State :=
  match s.l1 core line with
  | some l => ((s.flushLine core line [.evict]).dropL1 core line).noteEvicted core line l
  | none => s

/-- Make room for a line in its set of the L1: 512 sets of 12 ways, indexed by PA bits 16:8 (R107); the victim is open. -/
def State.roomL1 (s : State) (core line : Nat) : State :=
  match s.l1 core line with
  | some _ => s
  | none =>
    let set := (s.core core).l1.filter (fun e => e.1 % 512 == line % 512)
    if set.length < 12 then s
    else
      let (f, s) := s.free
      match set[f.toNat % set.length]? with
      | some e => s.evictL1 core e.1
      | none => s

/-- The line as it stands for a page: a line held under another key slot is evicted first (R58). -/
def State.takeL1 (s : State) (core line : Nat) (key : BitVec 6) (part : Nat) (home2 : Bool) : L1Line × State :=
  match s.l1 core line with
  | some l => if l.key = key then (l, s) else ({ key := key, part := part, home2 := home2 }, s.evictL1 core line)
  | none => ({ key := key, part := part, home2 := home2 }, s.roomL1 core line)

/-- R113: bytes of a store into a HOME 0 or 2 line. -/
def State.storeL1 (s : State) (core line : Nat) (key : BitVec 6) (part : Nat) (home2 : Bool) (wclk : W32) (data : Line)
    (mask : ByteMask) : State :=
  let (l, s) := s.takeL1 core line key part home2
  let dirty := l.dirty ||| mask
  s.setL1 core line { l with
    data := mergeLine l.data data mask
    dirty := dirty
    sent := l.resent mask
    valid := l.valid ||| fullSectors dirty
    poison := l.poison &&& ~~~mask
    dclk := if l.dirty = 0 then wclk else serialMax l.dclk wclk }

/-- R111 at the L1: the line, if a reader with clock c hits in the sector. R113 gives a line that a store allocates without a fill no wts and no
rts: the model has it have none until a fill, so that no read hits it by R111 (DESIGN CHOICE, log entry 46). -/
def State.hitL1 (s : State) (core line sector : Nat) (key : BitVec 6) (c : W32) : Option L1Line :=
  match s.l1 core line with
  | some l => if l.key = key && l.peer.isNone && l.known && l.valid.getLsbD sector && serialLe c l.rts then some l else none
  | none => none

/-- The wts that a renewal carries (R111). -/
def State.renewWts (s : State) (core line : Nat) (key : BitVec 6) : Option W32 :=
  match s.l1 core line with
  | some l => if l.key = key && l.known && l.valid != 0 then some l.wts else none
  | none => none

/-! ## Results being gathered -/

def State.flight (s : State) (g : Agent) (id : Nat) : Option Flight :=
  match s.ctx g with
  | some c => c.flights.find? (fun f => f.id == id)
  | none => none

def State.updFlight (s : State) (g : Agent) (id : Nat) (f : Flight → Flight) : State :=
  s.updCtx g (fun c => { c with flights := c.flights.map (fun x => if x.id = id then f x else x) })

/-- List bytes that are not listed yet: byte k of the value at 64 × lane + at + k. -/
def gather (t : Tab Byte) (lane pos n v : Nat) : Tab Byte :=
  (List.range n).foldl (fun t k =>
    match Tab.find t (64 * lane + pos + k) with
    | some _ => t
    | none => Tab.set t (64 * lane + pos + k) (BitVec.ofNat 8 (v >>> (8 * k)))) t

/-- n bytes arrive for a lane of a flight. -/
def State.bytesIn (s : State) (g : Agent) (id lane pos n v : Nat) : State :=
  s.updFlight g id (fun f => { f with bytes := gather f.bytes lane pos n v })

/-- The bytes of a lane of a flight cannot be had: they are poisoned (R130), or the target refused (R164). -/
def State.badIn (s : State) (g : Agent) (id lane : Nat) (c : Cause) : State :=
  s.updFlight g id (fun f => { f with bad := Tab.set f.bad lane c })

def State.missIn (s : State) (g : Agent) (id : Nat) : State := s.updFlight g id (fun f => { f with missing := f.missing + 1 })
def State.pieceIn (s : State) (g : Agent) (id : Nat) : State := s.updFlight g id (fun f => { f with missing := f.missing - 1 })

/-- WCLK := serial_max(WCLK, t) (R110). -/
def State.raiseClk (s : State) (g : Agent) (t : W32) : State := s.updCtx g (fun c => { c with wclk := serialMax c.wclk t })

/-- ECLK := serial_max(ECLK, t) (R108). -/
def State.raiseEclk (s : State) (core : Nat) (t : W32) : State :=
  s.updCore core (fun c => { c with eclk := serialMax c.eclk t })

/-! ## Counters -/

/-- One write of a cnt.st instruction is performed; the last lowers the counter (R262). -/
def Ctx.storeDone (c : Ctx) (id : Nat) : Ctx :=
  match Tab.find c.stores id with
  | none => c
  | some n => if n ≤ 1 then { c with stores := Tab.erase c.stores id, storeFor := Tab.erase c.storeFor id, st := c.st - 1 }
              else { c with stores := Tab.set c.stores id (n - 1) }

/-- A cnt.st instruction with n writes to await; with none the counter is lowered at once (R262). 'blame' are the lanes that answer for a
uniform one. -/
def Ctx.storeBegin (c : Ctx) (id n : Nat) (blame : Mask) : Ctx :=
  if n = 0 then c
  else { c with stores := Tab.set c.stores id n, storeFor := if blame = 0 then c.storeFor else Tab.set c.storeFor id blame, st := c.st + 1 }

/-- Its lanes that wait for room in the miss buffer keep it among those that are awaited (R159). -/
def Ctx.storeRoom (c : Ctx) (id : Nat) (room : Mask) : Ctx :=
  if room = 0 ∨ (Tab.find c.stores id).isNone then c else { c with roomFor := Tab.set c.roomFor id room }

/-! ## Resolving an access -/

/-- What kind of target a physical address with its leaf is (R109, R127, R128, R132). -/
inductive Target where
  | leased (k : Nat) (home2 : Bool) | home1 (k : Nat) | untimed (k : Nat) | host (port : Nat) | peer | regs | none
deriving DecidableEq, Repr

def targetOf (pa : Nat) (leaf : W64) : Target :=
  match physKind pa with
  | .home k =>
    if pteHome leaf = 0 then .leased k false else if pteHome leaf = 2 then .leased k true
    else if pteHome leaf = 1 then .home1 k else .untimed k
  | .host p => .host p
  | .peer => .peer
  | .regs => .regs
  | .none => .none

/-- Cut n bytes from an address at the sector boundaries: pairs of first byte and count. -/
def cuts (fuel va pos n : Nat) : List (Nat × Nat) :=
  match fuel with
  | 0 => []
  | k + 1 =>
    if n = 0 then []
    else
      let m := min n (64 - va % 64)
      (pos, m) :: cuts k (va + m) (pos + m) (n - m)

/-- How an access resolves in one lane: its pieces, a cause with the address it concerns, a fault that the service cores can be
asked about (R161), or a page that a walk must first find. -/
inductive Reach where
  | ok (segs : List Seg)
  | trap (c : Cause) (va : W64)
  | serve (c : Cause) (va : W64)
  | miss (va : W64)
deriving DecidableEq, Repr

/-- The key slot of a leaf serves an access (R58): its partition may name it and it holds a key; bytes that the L1 holds for the reader
stay readable after a CLEAR (R59). -/
def State.keyServes (s : State) (w : Who) (pa : Nat) (leaf : W64) (access : Access) : Bool :=
  let key := pteKey leaf
  let held := match access, s.ctx w.g with
    | .read, some c => (s.hitL1 w.core (pa / 256) (sectorOf (pa % 256)) key c.wclk).isSome
    | _, _ => false
  (homeOf pa).isNone || ((s.part w.part).keys.getLsbD key.toNat && (s.keyValid.getLsbD key.toNat || held))

/-- R156, R157: the pieces of an access of n bytes by an agent at va. -/
def State.reach (s : State) (w : Who) (va : W64) (n : Nat) (access : Access) : Reach :=
  match rangeFault va n with
  | some c => .trap c va
  | none =>
    (cuts 6 va.toNat 0 n).foldl (fun r cut =>
      match r with
      | .ok segs =>
        let a := va + BitVec.ofNat 64 cut.1
        match s.xlate w.core w.asid a access w.handler with
        | .ok pa leaf => if s.keyServes w pa leaf access then .ok (segs ++ [⟨a, pa, cut.1, cut.2, leaf⟩]) else .trap .keyInvalid a
        | .miss => .miss a
        | .fault .permission => .serve .permission a
        | .fault c => .trap c a
      | r => r) (.ok [])

/-! ## Range locks (R142) -/

/-- What an access does to a locked range. -/
def lockStops (l : Lock) (access : Access) : Bool := l.dest || access == .write || access == .atomic

def overlap (lo n lo' n' : Nat) : Bool := lo < lo' + n' && lo' < lo + n

/-- A lock that was taken in an earlier cycle: an access of the cycle in which it is taken comes before it (R147). -/
def State.lockOld (s : State) (core : Nat) (l : Lock) : Bool := decide (l.since < s.cycle core)

/-- An access to global memory meets a held range. -/
def State.lockedVa (s : State) (core : Nat) (asid : W16) (va : W64) (n : Nat) (access : Access) : Bool :=
  (s.core core).locks.any (fun l => l.team.isNone && s.lockOld core l && l.asid == asid && overlap l.lo l.n va.toNat n && lockStops l access)

/-- An access to a team's scratchpad meets a held range of the team's core. -/
def State.lockedSp (s : State) (team off n : Nat) (access : Access) : Bool :=
  (s.core (team / 8)).locks.any (fun l => l.team == some team && s.lockOld (team / 8) l && overlap l.lo l.n off n && lockStops l access)

/-! ## Scratchpad (R71, R123, R350) -/

/-- Bytes of a team's allocation. -/
def State.scratchSize (s : State) (t : Nat) : Nat :=
  match s.team t with
  | some x => match s.grid x.grid with | some g => g.rec_.scratch | none => 0
  | none => 0

/-- The team of a cluster rank as an agent's team names it under .spc (R350); none raises SCRATCH_BOUNDS. -/
def State.rankTeam (s : State) (t rank : Nat) : Option Nat :=
  match s.team t with
  | none => none
  | some x =>
    if rank = x.rank then some t
    else
      match s.grid x.grid with
      | none => none
      | some g =>
        if g.rec_.cluster && rank ≤ 3 then
          (s.teams.find? (fun e => e.2.grid == x.grid && e.2.core / 4 == x.core / 4 && e.2.rank == rank &&
            e.2.num / 4 == x.num / 4)).map (·.1)
        else none

/-- The mapped region that holds an offset, with its number. -/
def Team.regionAt (t : Team) (off : Nat) : Option (Nat × Region) :=
  t.regions.find? (fun e => e.2.off ≤ off && off < e.2.off + e.2.len)

/-- The region lines that n bytes from an offset touch, as (region, line) pairs that are not filled yet. -/
def Team.untouched (t : Team) (off n : Nat) : List (Nat × Nat) :=
  dedup ((cuts 6 off 0 n).filterMap (fun cut =>
    match t.regionAt (off + cut.1) with
    | some (k, r) =>
      let line := (off + cut.1 - r.off) / 256
      if (Tab.find r.filled line).isSome || (r.gone && (Tab.find r.asked line).isNone) then none else some (k, line)
    | none => none))

/-- SPREL's last write-back has replied: its regions are unmapped, but for lines whose first read is in flight (R359, R378). -/
def Team.closeRegions (t : Team) (id : Nat) : Team :=
  { t with regions := t.regions.map (fun e => (e.1, if e.2.closing = some id then { e.2 with gone := true, closing := none } else e.2)) }

def Team.dropRegions (t : Team) : Team := { t with regions := t.regions.filter (fun e => !(e.2.gone && e.2.asked.isEmpty)) }

/-- Write bytes of a team's allocation, and the dirty bytes of the regions they fall in with the writer's clock (R123, R124). -/
def State.writeScratch (s : State) (t off n v : Nat) (clk : W32) : State :=
  let region (r : Region) : Region :=
    let new := ((List.range n).map (off + ·)).filter (fun a => decide (r.off ≤ a ∧ a < r.off + r.len) && !r.dirty.contains a)
    { r with dirty := r.dirty ++ new, clock := if r.dirty.isEmpty then clk else serialMax r.clock clk }
  s.updTeam t (fun x => { x with
    scr := Mem.writeN x.scr off n v
    scrPoison := x.scrPoison.filter (fun a => !(decide (off ≤ a ∧ a < off + n)))
    regions := x.regions.map (fun e => if overlap e.2.off e.2.len off n then (e.1, region e.2) else e) })

def State.readScratch (s : State) (t off n : Nat) : Nat :=
  match s.team t with | some x => Mem.readN x.scr off n | none => 0

def State.scratchBad (s : State) (t off n : Nat) : Bool :=
  match s.team t with | some x => x.scrPoison.any (fun a => decide (off ≤ a ∧ a < off + n)) | none => false

/-- Queue an access to a scratchpad array (R353). -/
def State.queueArray (s : State) (team : Nat) (op : ArrayOp) : State :=
  s.updTeam team (fun x => { x with array := x.array ++ [op] })

/-- An access that is single-copy atomic: 1, 2, 4, 8 or 16 bytes, naturally aligned (R131). -/
def wholeAccess (a n : Nat) : Bool := decide (n ≤ 16) && decide (a % n = 0)

/-- n bytes from an offset: first byte and count of each byte event, or of the access where it is single-copy atomic (R131). -/
def byteEvents (off n : Nat) : List (Nat × Nat) := if wholeAccess off n then [(0, n)] else (List.range n).map (fun k => (k, 1))

/-- n bytes from an address as an engine moves them: its aligned 16-byte pieces, each whole, and its other bytes one by one (R131). -/
def engineEvents (a n : Nat) : List (Nat × Nat) :=
  let head := min n ((16 - a % 16) % 16)
  let mid := (n - head) / 16
  let ends := head + 16 * mid
  (List.range head).map (fun k => (k, 1)) ++ (List.range mid).map (fun k => (head + 16 * k, 16)) ++
    (List.range (n - ends)).map (fun k => (ends + k, 1))

/-- A part of a piece. -/
def Seg.cut (sg : Seg) (e : Nat × Nat) : Seg :=
  { sg with va := sg.va + BitVec.ofNat 64 e.1, pa := sg.pa + e.1, pos := sg.pos + e.1, n := e.2 }

/-- One piece of an access to an array. -/
def ArrayOp.piece (o : ArrayOp) (id pos n : Nat) : ArrayOp :=
  { o with
    id := id
    off := o.off + pos
    n := n
    whole := (o.off, o.n)
    kind := match o.kind with | .load f at_ => .load f (at_ + pos) | .store d => .store (d >>> (8 * pos)) | k => k }

/-- Queue an access, byte event by byte event (R131, R205). Answers how many. -/
def State.queuePieces (s : State) (team : Nat) (op : ArrayOp) : Nat × State :=
  let op : ArrayOp := { op with first := s.nextId }
  (byteEvents op.off op.n).foldl (fun acc e => let (id, s) := acc.2.newId; (acc.1 + 1, s.queueArray team (op.piece id e.1 e.2))) (0, s)

/-- Accesses of an agent that no array has performed yet. -/
def State.arrayPending (s : State) (g : Agent) : Bool := s.teams.any (fun e => e.2.array.any (fun o => o.agent == g))

/-- Queue a byte event for a team (R131). -/
def State.queueUnit (s : State) (team : Nat) (k : UnitKind) : State :=
  let (id, s) := s.newId
  { s with units := s.units ++ [{ id := id, team := team, kind := k }] }

/-! ## What is still on its way -/

/-- Write-backs of a core that have not been answered (R115 step 2). -/
def State.wbInFlight (s : State) (core : Nat) : Bool :=
  let wb (r : Req) : Bool := r.src == .core core && (match r.kind with | .wback .. => true | .atomic .. => true | _ => false)
  s.reqs.any wb || s.replies.any (fun r => wb r.req)

/-- Loads, atomics, stores and scratchpad accesses of an agent that are not performed yet. -/
def State.busyMem (s : State) (g : Agent) : Bool :=
  match s.ctx g with
  | none => false
  | some c => c.flights.any (fun f => f.missing != 0) || !c.stores.isEmpty || s.arrayPending g

/-- An await of an agent. -/
def Await.ofAgent (a : Await) (g : Agent) : Bool :=
  match a with | .flight h _ _ _ _ _ => h == g | .store h _ _ _ _ _ => h == g | _ => false

/-- What a byte event of an agent's access reaches, and whether it stores. -/
def UnitKind.ofAgent (k : UnitKind) (g : Agent) : Option (Seg × Bool) :=
  match k with
  | .load h _ _ sg => if h = g then some (sg, false) else none
  | .store h _ _ _ sg _ _ => if h = g then some (sg, true) else none
  | _ => none

/-- Byte events of an agent that are not performed yet, some of them. -/
def State.unitsOf (s : State) (g : Agent) (p : Seg → Bool → Bool) : Bool :=
  s.units.any (fun u => match u.kind.ofAgent g with | some (sg, st) => p sg st | none => false)

/-- An access of the same agent to the same line is in flight: the next one waits for it (R135 point 1); the model keeps all lanes of a warp
in order there, since a uniform access is every executing lane's. In the host and peer windows these are its reads and atomics; its
writes there leave in order, and its reads see them. -/
def State.sameLine (s : State) (g : Agent) (line : Nat) : Bool :=
  let mine (a : Await) : Bool := a.ofAgent g
  s.reqs.any (fun r => r.line == line && r.awaits.any mine) || s.replies.any (fun r => r.req.line == line && r.req.awaits.any mine) ||
  s.hostTxns.any (fun t => t.line == line && (!t.write || t.atom.isSome) && mine t.await) ||
  s.peerOut.any (fun p => p.pa / 256 == line && mine p.await) || s.unitsOf g (fun sg _ => sg.pa / 256 == line)

/-- A target performed at once and in order (R132), which speculation may not reach (R92). -/
def untimed (sg : Seg) : Bool := match targetOf sg.pa sg.leaf with | .untimed _ => true | .regs => true | _ => false

/-- A HOME 3 access of an agent is not performed yet: its next one keeps behind it (R109, R132). -/
def State.rawBusy (s : State) (g : Agent) : Bool :=
  s.reqs.any (fun r => (match r.kind with | .rawRead => true | .rawWrite .. => true | _ => false) && r.awaits.any (fun a => a.ofAgent g)) ||
  s.unitsOf g (fun sg _ => untimed sg)

/-- A store or an atomic of an agent is on its way to the place where it is performed, or its answer has not raised the agent's clock. -/
def State.unperformed (s : State) (g : Agent) : Bool :=
  let writes (r : Req) : Bool := (match r.kind with | .wback .. => true | .rawWrite .. => true | .atomic .. => true | _ => false) &&
    r.awaits.any (fun a => a.ofAgent g)
  s.reqs.any writes || s.replies.any (fun p => writes p.req) || s.unitsOf g (fun _ st => st) ||
  s.hostTxns.any (fun t => t.write && t.await.ofAgent g) || s.remotes.any (fun r => r.owner.ofAgent g) ||
  s.peerOut.any (fun p => (match p.op with | .atomic .. => true | _ => false) && p.await.ofAgent g)

/-- The runs of set bytes of a mask within the sectors of a line: first byte and count. -/
def maskRuns (mask : ByteMask) : List (Nat × Nat) :=
  ((List.range 256).foldl (fun (l : List (Nat × Nat)) i =>
    if !mask.getLsbD i then l
    else match l with
      | (a, n) :: r => if a + n = i && i % 64 != 0 then (a, n + 1) :: r else (i, 1) :: l
      | [] => [(i, 1)]) []).reverse

end Sys2Proof.Machine
end

