-- ==== Sys2Proof/Machine/RegBlock.lean ====
section
/-!
DEFINITION. The package register block (R22, R26, R38, R44 to R46, R56, R57, R59, R84, R122, R146, R165, R230, R239, R242, R288):
which register an address names, what a read returns and clears, what a write does; and the operations that such a write begins:
a link step, a queue or partition enable, a key operation, an invalidation, a round of pre-emption requests.
-/

namespace Sys2Proof.Machine

/-! ## Time and power -/

/-- Time units in a microsecond (log entry 3). -/
def usec : Nat := 47000

/-- R34: the level of a partition, the minimum of its five causes. -/
def Part.level (p : Part) : Nat := p.levels.foldl min 64

/-- R34: the causes that bind. -/
def Part.binding (p : Part) : List Bool := p.levels.map (fun l => decide (l = p.level ∧ l < 64))

/-- R33: the clock division of a level, as a power of two. -/
def divOf (level : Nat) : Nat := if 16 ≤ level then 0 else if 8 ≤ level then 1 else 2

/-- R33: cycles out of 64 in which slots and the matrix engine may issue. -/
def gateOf (level : Nat) : Nat := level * 2 ^ divOf level

/-- Bring the times of a partition's binding causes up to now (R38). -/
def State.tally (s : State) (p : Nat) : State :=
  let x := s.part p
  let acc := (x.thrAcc.zip x.binding).map (fun e => if e.2 then e.1 + (s.time - x.thrAt) else e.1)
  s.setPart p { x with thrAcc := acc, thrAt := s.time }

/-- Give the cores of a partition the clock of its level, counting on from the cycles they have reached (R33, R395). -/
def State.retime (s : State) (p : Nat) : State :=
  let div := divOf (s.part p).level
  { s with cores := s.cores.map (fun e =>
    if s.partOfCore e.1 == some p && e.2.clk.div != div then
    (e.1, { e.2 with clk := { base := e.2.clk.now s.time, at_ := s.time, div := div } })
    else e) }

/-- The sampling periods of a partition's cores count from where their clocks stand (R239, R240). -/
def State.restartSamples (s : State) (p : Nat) : State :=
  { s with cores := s.cores.map (fun e =>
    if (s.part p).clusters.getLsbD (e.1 / 4) then (e.1, { e.2 with sampAt := e.2.clk.now s.time }) else e) }

/-- Set the level of one cause of a partition (R34). -/
def State.setLevel (s : State) (p cause level : Nat) : State :=
  let s := s.tally p
  let x := s.part p
  (s.setPart p { x with levels := x.levels.set cause level }).retime p

/-! ## Links (R18 to R23) -/

/-- Raise a step request to a rate (R20); a later request of one link replaces its earlier one, but for that of retry exhaustion. -/
def State.raiseStep (s : State) (n rate : Nat) : State :=
  let l := s.link n
  if l.failing && l.request.isSome then s else s.setLink n { l with request := some (s.time / 50, rate) }

/-- R23: a write of PIN. A pin ends an automatic request that still waits; a pin of another rate raises its own. -/
def State.writePin (s : State) (n : Nat) (v : W64) : State :=
  let l := s.link n
  let pin := v.setWidth 2
  if l.rate = 3 then s
  else
    let s := s.setLink n { l with pin := pin }
    if pin = 0 then s
    else if pin.toNat - 1 != l.rate then s.raiseStep n (pin.toNat - 1)
    else if l.failing then s
    else s.setLink n { l with pin := pin, request := none }

/-! ## Queues (R45, R46) -/

def qBase (w : W64) : Nat := w.toNat % 2 ^ 52
def qLog (w : W64) : Nat := w.toNat / 2 ^ 52 % 16
def qPart (w : W64) : Nat := w.toNat / 2 ^ 56 % 8
def qRank (w : W64) : Nat := w.toNat / 2 ^ 59 % 8
def qEn (w : W64) : Bool := w.getLsbD 62

def State.queue (s : State) (q : Nat) : Queue := Tab.get {} s.queues q
def State.setQueue (s : State) (q : Nat) (x : Queue) : State := { s with queues := Tab.put {} s.queues q x }

/-- The ring lies wholly within the populated range of one home (R46). -/
def ringFits (w : W64) : Bool :=
  match homeOf (qBase w), homeOf (qBase w + 2 ^ (qLog w + 4) * 128 - 1) with
  | some a, some b => a == b
  | _, _ => false

/-- BASE and LOG2N. -/
def qRing (w : W64) : W64 := w &&& 0x00FFFFFFFFFFFFFF

def State.writeQ0 (s : State) (q : Nat) (v : W64) : State :=
  let x := s.queue q
  let v := v &&& 0x7FFFFFFFFFFFFFFF
  if qEn x.word0 then
    let w := (x.word0 &&& 0x07FFFFFFFFFFFFFF) ||| (v &&& 0x7800000000000000)
    s.setQueue q (if qEn v then { x with word0 := w } else { x with word0 := w, heldBase := qRing w })
  else if qEn v && (!ringFits v || (x.head != x.tail && qRing v != x.heldBase)) then s
  else s.setQueue q { x with word0 := v }

def State.writeQ1 (s : State) (q : Nat) (v : W64) : State :=
  let x := s.queue q
  let v0 := v &&& 0x7FFFFFFF
  if qEn x.word0 then s.setQueue q { x with word1 := (v0 &&& ~~~(0xFFFF : W64)) ||| (x.word1 &&& 0xFFFF) }
  else s.setQueue q { x with word1 := v0, head := if v.getLsbD 31 then x.tail else x.head }

/-! ## The command window (R47, R48) -/

/-- A write to a slot: a post of 8 bytes at offset 0, the write-1-to-clear flags at 0x10; nothing else has an effect. -/
def State.post (s : State) (q off size : Nat) (v : W64) : State :=
  let x := s.queue q
  if off = 0 ∧ size = 8 then
    let w : W32 := v.setWidth 32
    if w = x.tail then s
    else if serialLt x.tail w then
      s.setQueue q (if 2 ^ (qLog x.word0 + 4) < (w - x.head).toNat then { x with overrun := true } else { x with tail := w })
    else s.setQueue q { x with stale := true }
  else if off < 8 then s.setQueue q { x with badpost := true }
  else if off = 0x10 then s.setQueue q { x with
    overrun := x.overrun && !v.getLsbD 1
    badpost := x.badpost && !v.getLsbD 2
    stale := x.stale && !v.getLsbD 3
    recfault := x.recfault && !v.getLsbD 4
    cerr := x.cerr && !v.getLsbD 5 }
  else s

/-- What a slot's register reads as. -/
def State.readSlot (s : State) (q off : Nat) : W64 :=
  let x := s.queue q
  let bit (b : Bool) (k : Nat) : Nat := if b then 2 ^ k else 0
  if off = 8 then x.head.setWidth 64
  else if off = 0x10 then BitVec.ofNat 64 (bit (qEn x.word0) 0 + bit x.overrun 1 + bit x.badpost 2 + bit x.stale 3 + bit x.recfault 4 + bit x.cerr 5 +
    x.tail.toNat * 2 ^ 32)
  else 0

/-! ## Partitions (R56, R57) -/

/-- A team of the partition is resident. -/
def State.partActive (s : State) (p : Nat) : Bool :=
  s.teams.any (fun e => match s.grid e.2.grid with | some g => g.part == p | none => false)

/-- R57: what an enable needs. -/
def State.canEnable (s : State) (p : Nat) : Bool :=
  let x := s.part p
  x.clusters != 0 && (List.range 8).all (fun o =>
    let y := s.part o
    o == p || !y.word0.getLsbD 0 ||
      (x.clusters &&& y.clusters == 0 && x.slots &&& y.slots == 0 && x.belcylo &&& y.belcylo == 0 && x.belcyhi &&& y.belcyhi == 0))

def State.writePart0 (s : State) (p : Nat) (v : W64) : State :=
  let x := s.part p
  let share := if v.toNat / 2 ^ 8 % 256 = 0 then x.word0.toNat / 2 ^ 8 % 256 else v.toNat / 2 ^ 8 % 256
  let dead := if v.toNat / 2 ^ 16 % 65536 = 0 then x.word0.toNat / 2 ^ 16 % 65536 else v.toNat / 2 ^ 16 % 65536
  let low := BitVec.ofNat 64 (share * 2 ^ 8 + dead * 2 ^ 16)
  let en := x.word0.getLsbD 0
  if !v.getLsbD 0 then s.setPart p { x with word0 := low }
  else if en then (s.setPart p { x with word0 := low ||| 1 }).retime p
  else if s.canEnable p then ((s.setPart p { x with word0 := low ||| 1 }).retime p).restartSamples p
  else s.setPart p { x with word0 := low, refused := true }

def State.writePart (s : State) (p off : Nat) (v : W64) : State :=
  let x := s.part p
  let free := !x.word0.getLsbD 0 && !s.partActive p
  match off with
  | 0x00 => s.writePart0 p v
  | 0x08 => if free then s.setPart p { x with clusters := v &&& 0xFFFFFFFFFF } else s
  | 0x10 => if free then s.setPart p { x with hbmshare := v &&& 0xFFFFFFFF } else s
  | 0x18 => if v &&& 0xFFFF = 0 then s else s.setPart p { x with l2ways := v &&& 0xFFFF }
  | 0x20 => if free then s.setPart p { x with slots := v } else s
  | 0x28 => if free then s.setPart p { x with belcylo := v } else s
  | 0x30 => if free then s.setPart p { x with belcyhi := v } else s
  | 0x38 => s.setPart p { x with keys := v }
  | 0x40 => s.setPart p { x with refused := x.refused && !v.getLsbD 1 }
  | _ => s

def State.readPart (s : State) (p off : Nat) : W64 :=
  let x := s.part p
  match off with
  | 0x00 => x.word0 | 0x08 => x.clusters | 0x10 => x.hbmshare | 0x18 => x.l2ways | 0x20 => x.slots | 0x28 => x.belcylo
  | 0x30 => x.belcyhi | 0x38 => x.keys
  | 0x40 => BitVec.ofNat 64 ((if s.partActive p then 1 else 0) + (if x.refused then 2 else 0))
  | _ => 0

/-! ## Keys (R59) -/

/-- R59: begin LOAD or CLEAR; both bits set begin LOAD. KEYCTL ignores writes while BUSY. -/
def State.writeKeyctl (s : State) (v : W64) : State :=
  if s.keyBusy.isSome then s
  else
    let op := if v.getLsbD 8 then some true else if v.getLsbD 9 then some false else none
    { s with keySlot := v.setWidth 6, keyBusy := op }

/-! ## Pre-emption requests (R77, R78, R84) -/

/-- A pre-emption request for the team is in progress (R78): one that was abandoned for want of a save area is not, although R77 will
raise it again. -/
def Team.asked (x : Team) : Bool := match x.preempt with | .none => false | .retry _ => false | _ => true

/-- R78: a request for a team. With a second request, or for a team that is ending, nothing happens (R83). -/
def State.askPreempt (s : State) (t : Nat) : State :=
  match s.team t with
  | none => s
  | some x =>
    if !x.asked && !x.ended && !x.ending then
      let part := match s.grid x.grid with | some g => g.part | none => 0
      let dead := s.time + (s.part part).word0.toNat / 2 ^ 16 % 65536 * usec
      (s.updTeam t (fun x => { x with preempt := .area dead, reqMark := s.nextId })).emit (.saveArea t)
    else s

/-- The teams that one request covers: the whole cluster group of a cluster-scoped team (R78). -/
def State.group (s : State) (t : Nat) : List Nat :=
  match s.team t with
  | none => []
  | some x =>
    match s.grid x.grid with
    | some g => if g.rec_.cluster then
        (s.teams.filter (fun e => e.2.grid == x.grid && e.2.num / 4 == x.num / 4)).map (·.1) else [t]
    | none => [t]

/-- The order of consumption of a launch-front entry's grid, which tells it from others that had the entry. -/
def State.gridOrder (s : State) (e : Nat) : Nat := match s.grid e with | some g => g.order | none => 0

/-- R84: GO. Ignored while BUSY. -/
def State.preemptBusy (s : State) (p : Nat) : Bool :=
  (s.part p).goTeams.any (fun t => match s.team t.1 with | some x => x.asked && x.num == t.2.2 && s.gridOrder x.grid == t.2.1 | none => false)

def State.goPreempt (s : State) (p : Nat) (minRank : BitVec 3) : State :=
  if s.preemptBusy p then s
  else
    let hit := (s.teams.filter (fun e => match s.grid e.2.grid with
      | some g => g.part == p && decide (minRank.toNat ≤ g.rank)
      | none => false)).map (·.1)
    let all := dedup (hit.flatMap (fun t => s.group t))
    let s := all.foldl (fun s t => s.askPreempt t) s
    s.setPart p { s.part p with goTeams := all.filterMap (fun t => (s.team t).map (fun x => (t, s.gridOrder x.grid, x.num))), minRank := minRank }

/-- The request that the last GO made for a team is over (R84). -/
def State.goOver (s : State) (t : Nat) : State :=
  { s with parts := s.parts.map (fun p => { p with goTeams := p.goTeams.filter (fun e => e.1 != t) }) }

/-- A write to PREEMPTCTL. -/
def State.writePreempt (s : State) (p : Nat) (v : W64) : State :=
  let s := s.setPart p { s.part p with minRank := v.setWidth 3, hold := v.getLsbD 9 }
  if v.getLsbD 8 then s.goPreempt p (v.setWidth 3) else s

/-! ## Invalidations (R165, R166) -/

/-- What an invalidation removes. -/
def Inval.covers (v : Inval) (e : TlbEntry) : Bool :=
  match v.kind with
  | 0 => tlbHit v.asid (v.va &&& ~~~(0xFFF : W64)) e
  | 1 => e.asid == v.asid
  | 2 => !pteG e.leaf
  | _ => true

/-- Whether it removes a walk-cache entry: that of KIND 0 goes with every entry of its ASID. -/
def Inval.coversWalk (v : Inval) (e : WalkEntry) : Bool :=
  match v.kind with | 0 => e.asid == v.asid | 1 => e.asid == v.asid | _ => true

/-- A peer's translated access that waits for a host page, or for the host itself (R63): its number here. -/
def State.peerUses (s : State) : List Nat :=
  s.pris.filterMap (fun r => match r.who with | .peer id => some (2 ^ 128 + id) | _ => none) ++
  s.hostTxns.filterMap (fun t => match t.await with | .peer id _ _ => some (2 ^ 128 + id) | _ => none)

/-- The translated accesses that have not performed their byte events, by number: requests, array accesses, held stores, pieces. -/
def State.usesNow (s : State) : List Nat :=
  s.peerUses ++ s.reqs.map (·.id) ++ s.replies.map (·.id) ++ s.hostTxns.map (·.id) ++ s.peerOut.map (·.id) ++ s.remotes.map (·.id) ++
  s.teams.flatMap (fun e => e.2.array.map (·.id)) ++ s.units.map (·.id) ++
  s.warps.flatMap (fun e => (e.2.window.filter (fun o => !o.held.isEmpty)).map (·.id)) ++
  s.cmds.flatMap (fun c => c.inflight.map (fun p => (c.id + 1) * 2 ^ 64 + p.at_)) ++
  s.warps.flatMap (fun e => e.2.mxq.flatMap (fun o => o.pieces.map (fun p => (o.id + 1) * 2 ^ 64 + p.at_)))

/-- Post an invalidation: its entries leave the TLBs and walk caches, and it takes note of the walks and the accesses in flight. -/
def State.postInval (s : State) (kind : Nat) (asid : W16) (va : W64) : State :=
  let v : Inval := { kind := kind, asid := asid, va := va, walks := s.walks.map (·.id), uses := s.usesNow, posted := s.time }
  { s with
    invals := s.invals ++ [v]
    cores := s.cores.map (fun e => (e.1, { e.2 with tlb := e.2.tlb.filter (fun x => !v.covers x) }))
    l2tlb := s.l2tlb.filter (fun x => !v.covers x.2)
    walkc := s.walkc.filter (fun x => !v.coversWalk x.2)
    walks := s.walks.map (fun w => { w with stale := true })
    tlbIssued := s.tlbIssued + 1 }

/-! ## Features (R287, R288) -/

/-- Native leaves. -/
def natLeaf (n : Nat) : W64 :=
  match n with
  | 0 => 0x16040001
  | 1 => 0xFFF
  | 2 => BitVec.ofNat 64 (128 + 8 * 2 ^ 8 + 768 * 2 ^ 12 + 192 * 2 ^ 24 + 1024 * 2 ^ 32 + 10 * 2 ^ 48)
  | 3 => 0xA5
  | _ => 0

/-! ## The map -/

/-- The registers of the block. -/
inductive Reg where
  | dlstat (n : Nat) | dlctl (n : Nat) | thrcause (p : Nat) | thrtime (p k : Nat) | pwrcfg (p : Nat) | boardw | hallstat
  | partcfg (p off : Nat) | keyctl | keyvalid | keydata (i : Nat) | hostctl (p : Nat) | preemptctl (p : Nat)
  | clkfloor | hclk | homestat (k : Nat) | bwin (p : Nat) | asidcfg | peercfg | tlbinv0 | tlbinv1 | tlbseq
  | dbgbase | sampctl (p : Nat) | sampbuf (p : Nat) | trcfg (d : Nat) | trseq (d : Nat) | featcfg | retcfg | natfeat (n : Nat)
  | chipcfg | qcfg (q word : Nat) | slot (q off : Nat) | route (n : Nat) | none
deriving DecidableEq, Repr

/-- The first address of the block (R13). -/
def regBase : Nat := 0xFFF0000000000

/-- Which register an aligned 8-byte address names. The route tables have no address in the spec: the model numbers them from
2^52, past every physical address (log entry 13). -/
def regOf (addr : Nat) : Reg :=
  if 2 ^ 52 ≤ addr then (if addr < 2 ^ 52 + 8 * 2048 && addr % 8 = 0 then .route ((addr - 2 ^ 52) / 8) else .none)
  else if addr < regBase then .none
  else
    let o := addr - regBase
    if o % 8 ≠ 0 then .none
    else if 0xF000000000 ≤ o ∧ o < 0xF001000000 then .slot ((o - 0xF000000000) / 4096) (o % 4096)
    else if 0x1000 ≤ o ∧ o < 0x1000 + 16 * 13 then (if o % 16 = 0 then .dlstat ((o - 0x1000) / 16) else .dlctl ((o - 0x1000) / 16))
    else if 0x2000 ≤ o ∧ o < 0x2200 then
      let p := (o - 0x2000) / 64
      let r := o % 64
      if r = 0 then .thrcause p else if r ≤ 0x28 then .thrtime p (r / 8 - 1) else if r = 0x30 then .pwrcfg p else .none
    else if o = 0x2400 then .boardw
    else if o = 0x2408 then .hallstat
    else if 0x3000 ≤ o ∧ o < 0x3400 then .partcfg ((o - 0x3000) / 128) (o % 128)
    else if o = 0x4000 then .keyctl
    else if o = 0x4008 then .keyvalid
    else if 0x4040 ≤ o ∧ o < 0x4080 then .keydata ((o - 0x4040) / 8)
    else if 0x5000 ≤ o ∧ o < 0x5020 then .hostctl ((o - 0x5000) / 8)
    else if 0x6000 ≤ o ∧ o < 0x6080 ∧ o % 16 = 0 then .preemptctl ((o - 0x6000) / 16)
    else if o = 0x7000 then .clkfloor
    else if o = 0x7008 then .hclk
    else if 0x7010 ≤ o ∧ o < 0x7040 then .homestat ((o - 0x7010) / 8)
    else if 0x8000 ≤ o ∧ o < 0x8400 then .bwin ((o - 0x8000) / 8)
    else if o = 0x9000 then .asidcfg
    else if o = 0x9008 then .peercfg
    else if o = 0x9010 then .tlbinv0
    else if o = 0x9018 then .tlbinv1
    else if o = 0x9020 then .tlbseq
    else if o = 0xA000 then .dbgbase
    else if 0xA100 ≤ o ∧ o < 0xA180 then (if o % 16 = 0 then .sampctl ((o - 0xA100) / 16) else .sampbuf ((o - 0xA100) / 16))
    else if 0xA200 ≤ o ∧ o < 0xA240 then (if o % 16 = 0 then .trcfg ((o - 0xA200) / 16) else .trseq ((o - 0xA200) / 16))
    else if o = 0xB000 then .featcfg
    else if o = 0xB008 then .retcfg
    else if 0xB040 ≤ o ∧ o < 0xB078 then .natfeat ((o - 0xB040) / 8)
    else if o = 0xC000 then .chipcfg
    else if 0x100000 ≤ o ∧ o < 0x110000 then .qcfg ((o - 0x100000) / 16) (o / 8 % 2)
    else .none

/-- What a register holds, read without side effect. -/
def State.regPeek (s : State) (r : Reg) : W64 :=
  match r with
  | .dlstat n =>
    let l := s.link n
    BitVec.ofNat 64 (l.rate + (if l.window.isSome then 4 else 0) + (if l.degraded then 8 else 0) +
      (if l.request.isSome then 16 else 0) + min l.retrains 0xFFFF * 2 ^ 16 + min l.crc 0xFFFF * 2 ^ 32)
  | .dlctl n => (s.link n).pin.setWidth 64
  | .thrcause p =>
    let x := s.part p
    let act := ((x.binding.zipIdx).foldl (fun a e => if e.1 then a + 2 ^ e.2 else a) 0)
    BitVec.ofNat 64 (act + x.level * 2 ^ 16 + divOf x.level * 2 ^ 23)
  | .thrtime p k =>
    let x := (s.tally p).part p
    BitVec.ofNat 64 (x.thrAcc.getD k 0 / usec)
  | .pwrcfg p => (s.part p).pwrcfg
  | .boardw => s.boardw
  | .hallstat => BitVec.ofNat 64 (s.hallSeq.toNat + (if s.vudor.frame.isSome then 2 ^ 32 else 0) + (if s.hallShort then 2 ^ 33 else 0) +
      min s.hallRejects 0xFFFF * 2 ^ 48)
  | .partcfg p off => s.readPart p off
  | .keyctl => BitVec.ofNat 64 (s.keySlot.toNat + (if s.keyBusy.isSome then 2 ^ 16 else 0))
  | .keyvalid => s.keyValid
  | .keydata _ => 0
  | .hostctl p =>
    let x := s.ports.getD p {}
    BitVec.ofNat 64 ((if x.admin then 1 else 0) + x.hkey.toNat * 2 ^ 8 + (if x.cxl then 2 ^ 16 else 0))
  | .preemptctl p =>
    let x := s.part p
    BitVec.ofNat 64 (x.minRank.toNat + (if x.hold then 2 ^ 9 else 0) + (if s.preemptBusy p then 2 ^ 16 else 0) +
      min x.savedN 0xFFFF * 2 ^ 32 + min x.forcedN 0xFFFF * 2 ^ 48)
  | .clkfloor => s.floor.setWidth 64
  | .hclk => s.hclk.setWidth 64
  | .homestat k =>
    let h := s.home k
    BitVec.ofNat 64 (h.mts.toNat + h.spill * 2 ^ 32 + h.sweeps.toNat * 2 ^ 48 + (if h.sweep.isSome then 2 ^ 56 else 0))
  | .bwin p => let b := Tab.get {} s.belcy p; BitVec.ofNat 64 (b.budget.toNat + min b.late 0xFFFF * 2 ^ 32)
  | .asidcfg => s.asidcfg
  | .peercfg => s.peercfg
  | .tlbinv0 => s.tlbinv0
  | .tlbinv1 => 0
  | .tlbseq => BitVec.ofNat 64 (s.tlbIssued.toNat + s.tlbDone.toNat * 2 ^ 32)
  | .dbgbase => s.dbgbase
  | .sampctl p => (s.part p).sampctl ||| ((s.part p).sampN.setWidth 64 <<< 32)
  | .sampbuf p => (s.part p).sampbuf
  | .trcfg d => s.trcfg.getD d 0
  | .trseq d => BitVec.ofNat 64 ((s.trseq.getD d 0).toNat + (s.trthresh.getD d 0).toNat * 2 ^ 32)
  | .featcfg => s.featcfg
  | .retcfg => s.retcfg
  | .natfeat n => natLeaf n
  | .chipcfg => s.chipcfg
  | .qcfg q w => if w = 0 then (s.queue q).word0 else (s.queue q).word1
  | .slot q off => s.readSlot q off
  | .route n => Tab.get 0 s.routes n
  | .none => 0

/-- What a read clears: the RC fields (R5). -/
def State.regClear (s : State) (r : Reg) : State :=
  match r with
  | .dlstat n => s.setLink n { s.link n with crc := 0 }
  | .hallstat => { s with hallRejects := 0 }
  | .preemptctl p => s.setPart p { s.part p with savedN := 0, forcedN := 0 }
  | .homestat k => s.setHome k { s.home k with spill := 0 }
  | .bwin p => { s with belcy := Tab.put {} s.belcy p { Tab.get {} s.belcy p with late := 0 } }
  | _ => s

def State.regRead (s : State) (r : Reg) : W64 × State := (s.regPeek r, s.regClear r)

/-- Bits 51:12, the base fields. -/
def baseBits : W64 := 0x000FFFFFFFFFF000

/-- PCK of SAMPCTL; values below 8 act as 8 (R239). -/
def samplePeriod (ctl : W64) : Nat := max 8 (ctl.toNat / 2 % 32)

/-- SAMPCTL is written: each core of the partition counts its periods of the new length from where its clock stands (R239, R240). -/
def State.writeSampctl (s : State) (p : Nat) (v : W64) : State := (s.setPart p { s.part p with sampctl := v }).restartSamples p

/-- A write by a service core or Vudor. Read-only and reserved fields ignore it. -/
def State.regWrite (s : State) (r : Reg) (v : W64) : State :=
  match r with
  | .dlstat n => s.setLink n { s.link n with degraded := (s.link n).degraded && !v.getLsbD 3 }
  | .dlctl n => s.writePin n v
  | .pwrcfg p =>
    let x := s.part p
    let cap := v.toNat / 2 ^ 8 % 128
    let ok := decide (4 ≤ cap ∧ cap ≤ 64)
    let keep := if ok then cap else x.pwrcfg.toNat / 2 ^ 8 % 128
    let s := s.setPart p { x with pwrcfg := BitVec.ofNat 64 (v.toNat % 8 + keep * 2 ^ 8) }
    s.setLevel p 3 keep
  | .boardw => { s with boardw := v &&& 0xFFFF }
  | .partcfg p off => s.writePart p off v
  | .keyctl => s.writeKeyctl v
  | .keydata i =>
    let word := BitVec.ofNat 512 ((2 ^ 64 - 1) * 2 ^ (64 * i))
    { s with keyData := (s.keyData &&& ~~~word) ||| BitVec.ofNat 512 (v.toNat * 2 ^ (64 * i)) }
  | .hostctl p =>
    let x := s.ports.getD p {}
    { s with ports := s.ports.set p { x with admin := v.getLsbD 0, hkey := BitVec.ofNat 6 (v.toNat / 2 ^ 8) } }
  | .preemptctl p => s.writePreempt p v
  | .bwin p => { s with belcy := Tab.put {} s.belcy p { Tab.get {} s.belcy p with budget := v.setWidth 16 } }
  | .asidcfg => { s with asidcfg := v &&& baseBits }
  | .peercfg => { s with peercfg := v &&& baseBits }
  | .tlbinv0 => { s with tlbinv0 := v }
  | .tlbinv1 => s.postInval (v.toNat / 2 ^ 16 % 4) (v.setWidth 16) s.tlbinv0
  | .dbgbase => { s with dbgbase := v &&& (baseBits ||| 1) }
  | .sampctl p => s.writeSampctl p (v &&& 0x3F3F)
  | .sampbuf p => s.setPart p { s.part p with sampbuf := v &&& (baseBits ||| 0x3F) }
  | .trcfg d =>
    let now := s.time / 50
    let was := match Tab.find s.trcfgWas d with | some (at_, w) => if at_ = now then w else s.trcfg.getD d 0 | none => s.trcfg.getD d 0
    { s with trcfg := s.trcfg.set d (v &&& (baseBits ||| 0x3F)), trcfgWas := Tab.set s.trcfgWas d (now, was) }
  | .trseq d => { s with trthresh := s.trthresh.set d (BitVec.ofNat 16 (v.toNat / 2 ^ 32)) }
  | .featcfg => { s with featcfg := v &&& baseBits }
  | .retcfg => { s with retcfg := v &&& (baseBits ||| 1) }
  | .chipcfg => if s.chipcfg.getLsbD 16 then s else { s with chipcfg := v &&& 0x103FF }
  | .qcfg q w => if w = 0 then s.writeQ0 q v else s.writeQ1 q v
  | .slot q off => s.post q off 8 v
  | .route n => { s with routes := Tab.put 0 s.routes n v }
  | _ => s

/-- A write by an agent of the device or a peer, whose page maps the block: the key registers and HOSTCTL are written only by service cores
and, HOSTCTL, by Vudor (R44, R59), so that such a write of them is ignored. -/
def State.regWriteBy (s : State) (r : Reg) (v : W64) : State :=
  match r with
  | .keyctl => s
  | .keydata _ => s
  | .hostctl _ => s
  | r => s.regWrite r v

/-- R44: registers that a host may read through BAR 0. -/
def hostReads (r : Reg) : Bool :=
  match r with
  | .dlstat _ | .dlctl _ | .thrcause _ | .thrtime .. | .pwrcfg _ | .boardw | .hallstat | .hostctl _ | .keyvalid | .qcfg .. => true
  | .partcfg _ _ => true
  | .slot .. => true
  | _ => false

/-- R44: registers that a host may write through an ADMIN port. -/
def hostWrites (r : Reg) : Bool :=
  match r with
  | .qcfg .. | .partcfg .. | .pwrcfg _ => true
  | .slot .. => true
  | _ => false

end Sys2Proof.Machine
end

