-- ==== Sys2Proof/Machine/Access.lean ====
section
/-!
DEFINITION. What an access does at its target: renewals and reads at a home (R111, R112), stores (R113 to R115), untimed targets
(R109, R132), the host window (R63, R127), the peer window (R128, R144, R163), atomics (R116), and the checks that belong to a
target. Releases and acquires of a core (R115, R145).
-/

namespace Sys2Proof.Machine

/-! ## Datum windows and Belcy ports (R24, R25, R144) -/

/-- R144: begin the datum window that time has reached: settle which ports were late in the last one, and count from zero. A
message may have left its port after the window's end; that is open (log entry 4). -/
def State.rollWindow (s : State) : State :=
  let now := s.datum / 1000
  if now = s.window then s
  else
    let step (acc : State × Bool × Tab Belcy) (e : Nat × Belcy) : State × Bool × Tab Belcy :=
      let (s, any, t) := acc
      let b := e.2
      let (f, s) := if b.used = 0 then (0, s) else s.free
      let late := b.lateNow || decide (b.budget.toNat * 256 < b.used) || f.getLsbD 0
      let b' := { b with used := 0, lateNow := false, wrote := false, late := if late then min (b.late + 1) 0xFFFF else b.late }
      (s, any || (late && b.wrote), Tab.put {} t e.1 b')
    let (s, any, t) := s.belcy.foldl step (s, false, [])
    { s with
      belcy := t
      sent := s.sent.map (fun x => if x.window = s.window && any then { x with late := true } else x)
      window := now }

/-- Admit a message to a port (R144). -/
def State.admitBytes (s : State) (port bytes : Nat) (write : Bool) : State :=
  let b := Tab.get {} s.belcy port
  { s with belcy := Tab.put {} s.belcy port { b with used := b.used + bytes, wrote := b.wrote || write } }

/-- The entry of the handle table for a peer address (R163). -/
def State.handleAt (s : State) (pa : Nat) : Nat := s.peercfg.toNat + 16 * (pa / 2 ^ 38 % 4096)

/-- A host owns the line of that entry: the device recalls it before it reads (R60). -/
def State.handleHeld (s : State) (pa : Nat) : Bool := physKind pa == .peer && s.hostOwns (s.handleAt pa / 256)

/-- What the handle table says of a peer address (R163): chip, PASID, address on the peer. -/
def State.peerTarget (s : State) (pa n : Nat) : Option (Nat × W16 × W64) :=
  let o := pa % 2 ^ 38
  let e := s.handleAt pa
  let base := s.homeRead e 8
  let w := s.homeRead (e + 8) 8
  let va := BitVec.ofNat 64 (base + o)
  if w % 2 = 1 && decide (o + n ≤ 4096 * (w / 2 ^ 27 % 2 ^ 27)) && canonical va then
    some (w / 2 % 1024, BitVec.ofNat 16 (w / 2 ^ 11), va)
  else none

/-- R163, R25, R26: where a peer access leaves, if it can. Before LOCK no port sends; what an access then comes to is not in the spec, and
the model has it fail with PEER_PATH, as one without a route (DESIGN CHOICE, log entry 36). -/
def State.peerRoute (s : State) (core pa n : Nat) : Option (Nat × Nat × W16 × W64) :=
  match s.peerTarget pa n with
  | none => none
  | some (chip, pasid, va) =>
    if s.chipcfg.getLsbD 16 then
      match s.pickPort (ioDieOf core) core chip va.toNat with
      | some port => some (port, chip, pasid, va)
      | none => none
    else none

/-- A peer access that finds no way read an entry of the handle table: at an unpopulated address the read is logged (R14). -/
def State.notePath (s : State) (w : Who) (c : Cause) (va : W64) : State :=
  match c, s.tlbFind w.core w.asid va with
  | .peerPath, some e => (match strayOf (s.handleAt (leafPa e.leaf e.size va)) with | some a => s.logStray a | none => s)
  | _, _ => s

/-! ## Checks that belong to a target -/

/-- Operations that the host window accepts as AtomicOps (R139, R361): add, exch and compare-and-swap on 4 or 8 byte integers. -/
def hostAtomic (op : AtomOp) : Bool :=
  (op.op == 0 || op.op == 6 || op.op == 8) &&
  (op.ty == .i32 || op.ty == .n32 || op.ty == .b32 || op.ty == .i64 || op.ty == .n64 || op.ty == .b64)

/-- What the target of one piece refuses: register accesses other than 8 aligned bytes and atomics on them (R132), atomics on
HOME 3 pages (R361), a port that is down (R63), a peer that cannot be reached (R163). 'n' is the whole access. -/
def State.targetFault (s : State) (core : Nat) (sg : Seg) (n : Nat) (atom : Option AtomOp) : Option Cause :=
  match targetOf sg.pa sg.leaf with
  | .regs => if atom.isSome || n != 8 || sg.pa % 8 != 0 then some .permission else none
  | .untimed _ => if atom.isSome then some .permission else none
  | .host p =>
    if (match atom with | some o => !hostAtomic o | none => false) then some .permission
    else if (s.ports.getD p {}).down then some .hostPath else none
  | .peer => if s.handleHeld sg.pa || (s.peerRoute core sg.pa sg.n).isSome then none else some .peerPath
  | _ => none

/-- A piece waits before it leaves its core: for the way to a port, or for the handle table's line (R16, R17, R19, R25, R60). -/
def State.segShut (s : State) (core : Nat) (sg : Seg) : Bool :=
  s.portShut core sg.pa || s.handleHeld sg.pa ||
  (match targetOf sg.pa sg.leaf with
    | .peer => (match s.peerRoute core sg.pa sg.n with | some (port, _) => s.crossShut (ioDieOf core) port (decide (sg.pa / 256 % 2 = 1)) | none => false)
    | _ => false)

/-- The lines of the handle table that pieces need are recalled from the hosts that own them (R60). -/
def State.recallHandles (s : State) (segs : List Seg) : State :=
  segs.foldl (fun s sg => if s.handleHeld sg.pa then s.snoop (s.handleAt sg.pa / 256) false false else s) s

/-- The pieces of an access, after the checks of its address, of the range locks (which hold virtual addresses: R142) and of its
translation, in this order. -/
def State.reachFree (s : State) (w : Who) (va : W64) (n : Nat) (access : Access) : Reach :=
  if (rangeFault va n).isNone && s.lockedVa w.core w.asid va n access then .trap .rangeLock va else s.reach w va n access

/-- The parts of an access that are performed by themselves (R131): the access whole, or its bytes. -/
def byteSegs (va : W64) (n : Nat) (segs : List Seg) : List Seg :=
  if wholeAccess va.toNat n then segs else segs.flatMap (fun sg => (List.range sg.n).map (fun k => sg.cut (k, 1)))

/-- One access of an agent in one lane: its pieces, after those checks and the target's own. -/
def State.access (s : State) (w : Who) (va : W64) (n : Nat) (access : Access) (atom : Option AtomOp) : Reach :=
  match s.reachFree w va n access with
  | .ok segs =>
    match segs.findSome? (fun sg => (s.targetFault w.core sg n atom).map (fun c => (c, sg.va))) with
    | some (c, a) => .trap c a
    | none => .ok (byteSegs va n segs)
  | r => r

/-- R63: whether ATS holds no translation for a host page that an access needs; the bridge then asks through PRI. Which pages
ATS translates is the host's: open (log entry 4). -/
def State.atsMiss (s : State) (segs : List Seg) : Option Seg × State :=
  match segs.find? (fun sg => match targetOf sg.pa sg.leaf with | .host _ => true | _ => false) with
  | none => (none, s)
  | some sg => let (f, s) := s.free; if f.getLsbD 0 then (some sg, s) else (none, s)

/-! ## Host window (R127) -/

/-- Reads of the host window in flight learn of bytes written to their line since (R127); an atomic makes what they bring too old to
keep. -/
def HostTxn.noteWrite (t : HostTxn) (line : Nat) (data : Line) (mask : ByteMask) (atomic : Bool) : HostTxn :=
  if t.line = line ∧ !t.write then
    (if atomic then { t with fill := false } else { t with later := t.later ||| mask, laterData := mergeLine t.laterData data mask })
  else t

/-- Begin a transaction with the host, under a PASID (R63). A write updates the L2 copy of its line (R127); an atomic, whose result the
host alone knows, has the copy dropped. -/
def State.hostSend (s : State) (asid : W16) (core part pa n : Nat) (write fill : Bool) (data : BitVec 512) (atom : Option AtomOp)
    (await : Await) : State :=
  let (id, s) := s.newId
  let t : HostTxn := { id := id, pa := pa, n := n, write := write, asid := asid, core := core, line := pa / 256,
                       fill := fill, data := data, atom := atom, await := await, part := part }
  let port := pa / 2 ^ 48 % 4
  let off := pa % 256
  let txns := if write then s.hostTxns.map (fun o => o.noteWrite (pa / 256) (lineOf off data.toNat) (byteRange off n) atom.isSome) else s.hostTxns
  let l2 := if !write then s.hostL2
    else if atom.isSome then Tab.erase s.hostL2 (pa / 256)
    else Tab.upd s.hostL2 (pa / 256) (fun l => { l with
      data := mergeLine l.data (lineOf off data.toNat) (byteRange off n), poison := l.poison &&& ~~~(byteRange off n) })
  let s := { s with hostTxns := txns ++ [t], hostL2 := l2 }
  s.emit (match atom with
    | some o => .hostAtomic port pa o asid
    | none => if write then .hostWrite port pa data n asid else .hostRead port pa n asid)

/-- The same for an agent. -/
def State.hostTxn (s : State) (w : Who) (pa n : Nat) (write fill : Bool) (data : BitVec 512) (atom : Option AtomOp)
    (await : Await) : State := s.hostSend w.asid w.core w.part pa n write fill data atom await

/-- Bytes that have no lease leave their writer's clock beside them, and an acquire after a read of them takes it (R132, R136, R140). The spec says
that such accesses order others, not by which clock: the model keeps one for each 32 bytes (DEDUCED, log entry 39). -/
def State.leaveFar (s : State) (pa : Nat) (clk : W32) : State :=
  { s with farClock := Tab.set s.farClock (pa / 32) (match Tab.find s.farClock (pa / 32) with | some c => serialMax c clk | none => clk) }

/-- A clock that an agent meets with what it reads: an acquire takes it at once, another read leaves it for the next acquire. -/
def State.meetClock (s : State) (g : Agent) (acquires : Bool) (clk : W32) : State :=
  if acquires then s.raiseClk g clk
  else s.updCtx g (fun c => { c with seen := some (match c.seen with | some o => serialMax o clk | none => clk) })

/-- A read of an agent brings bytes of a block that has such a clock. -/
def State.meetFar (s : State) (a : Await) (line : Nat) : State :=
  match a with
  | .flight g fid _ off _ _ =>
    (match s.flight g fid, Tab.find s.farClock ((256 * line + off) / 32) with
      | some f, some clk => s.meetClock g f.acquire.isSome clk
      | _, _ => s)
  | _ => s

/-- A resident host line that a reader may still use: filled in a later cycle than its latest system-scope acquire (R127). The line is
held by its physical address: whether another ASID, used as PASID, may hit it is not in the spec (DESIGN CHOICE, log entry 37). -/
def State.hostHit (s : State) (line acq : Nat) : Option HostLine :=
  match Tab.find s.hostL2 line with
  | some l => if acq / 50 < l.filled / 50 then some l else none
  | none => none

/-! ## Peer window (R128) -/

/-- Note that a core has sent a remote write in the present window (R145). -/
def State.noteSent (s : State) (core : Nat) : State :=
  if s.sent.any (fun x => x.core == core && x.window == s.window) then s
  else { s with sent := s.sent ++ [{ core := core, window := s.window, late := false, first := s.time }] }

/-- Send a request or a write to a peer from a core. A write and an atomic are remote writes, acknowledged or answered from their home
(R144). -/
def State.sendPeerOn (s : State) (core : Nat) (edge : W64) (pa n : Nat) (op : PeerOp) (await : Await) : State :=
  match s.peerRoute core pa n with
  | none => s
  | some (port, chip, pasid, va) =>
    let s := s.rollWindow
    let (id, s) := s.newId
    let plain := match op with | .write .. => true | _ => false
    let writes := match op with | .write .. => true | .atomic .. => true | _ => false
    let s := s.admitBytes port (n + 32) writes
    let wr : RemoteWrite := { id := id, core := core, port := port, window := s.window, owner := if plain then await else .none,
                              sentAt := s.time, pa := pa }
    let rd : PeerWait := { id := id, chip := chip, pasid := pasid, va := va, op := op, await := await, edge := edge, pa := pa, core := core }
    let s := if writes then { s.noteSent core with remotes := s.remotes ++ [wr] } else s
    let s : State := if plain then s else { s with peerOut := s.peerOut ++ [rd] }
    s.emit (.peer id port s.chipId chip pasid va op edge)

/-- The same for an agent. -/
def State.sendPeer (s : State) (w : Who) (edge : W64) (pa n : Nat) (op : PeerOp) (await : Await) : State :=
  s.sendPeerOn w.core edge pa n op await

/-! ## The device's own accesses (R431) -/

/-- One piece, within a sector, of a write that the device makes on its own account: at the line's home, under the leaf of a translation if
there is one; through to the host under a PASID, or to a peer. -/
def State.ownPiece (s : State) (core : Nat) (asid : W16) (pa n v : Nat) (leaf : Option W64) : State :=
  let line := pa / 256
  let (key, home2) := match leaf with | some l => (pteKey l, pteHome l == 2) | none => (s.slotOf line, false)
  match physKind pa with
  | .home k => (s.ownStore k line key home2 (lineOf (pa % 256) v) (byteRange (pa % 256) n) .none).2
  | .host port => if (s.ports.getD port {}).down then s else s.hostSend asid core noPart pa n true false (BitVec.ofNat 512 v) none .none
  | .peer => s.sendPeerOn core 0 pa n (.write n (BitVec.ofNat 512 v)) .none
  | .regs => s
  | .none => s.logStray pa

/-- Such a write of n bytes. -/
def State.ownWrite (s : State) (core : Nat) (asid : W16) (pa n v : Nat) (leaf : Option W64) : State :=
  (cuts (n / 64 + 2) pa 0 n).foldl (fun s cut => s.ownPiece core asid (pa + cut.1) cut.2 (v / 2 ^ (8 * cut.1) % 2 ^ (8 * cut.2)) leaf) s

/-- Add 1, saturating, to eight bytes: a relaxed atomic at their home (R291). -/
def State.ownCount (s : State) (core : Nat) (asid : W16) (pa : Nat) : State :=
  match physKind pa with
  | .home _ => s.ownAtomic pa (s.slotOf (pa / 256)) .count
  | .host port =>
    if (s.ports.getD port {}).down then s else s.hostSend asid core noPart pa 8 true false 0 (some { op := 0, ty := .n64, b := 1 }) .none
  | .peer => s.sendPeerOn core 0 pa 8 (.atomic 0 .n64 1 0) .none
  | .regs => s
  | .none => s.logStray pa

/-- What reads of peer lines in flight for a core bring is not kept in its L1: a store has changed the line (R138), or a system-scope
acquire has completed (R147). -/
def State.stalePeers (s : State) (core : Nat) (hit : Nat → Bool) : State :=
  { s with peerOut := s.peerOut.map (fun p => if p.core = core ∧ hit (p.pa / 256) then { p with stale := true } else p) }

/-- A write of a core to a peer line reaches the copy that its L1 holds (R128). -/
def State.storePeerL1 (s : State) (core line : Nat) (data : Line) (mask : ByteMask) : State :=
  let s := s.stalePeers core (· == line)
  match s.l1 core line with
  | some l => if l.peer.isSome then s.setL1 core line { l with data := mergeLine l.data data mask } else s
  | none => s

/-- A peer line of the L1 that has not expired (R128): filled in window N, it expires at the start of window N + 2. -/
def State.peerHit (s : State) (core line sector : Nat) : Option L1Line :=
  match s.l1 core line with
  | some l => match l.peer with
    | some n => if l.valid.getLsbD sector && decide (s.datum / 1000 < n + 2) then some l else none
    | none => none
  | none => none

/-! ## Loads -/

/-- Ask the home of a line for a sector (R111); pieces of one instruction that need the same sector wait on one renewal. -/
def State.askRenew (s : State) (w : Who) (fid line sector : Nat) (key : BitVec 6) (home2 : Bool) (clk : W32) (pin : Option (BitVec 2))
    (va : W64) (await : Await) : State :=
  let same (r : Req) : Bool :=
    r.line == line && r.key == key && (match r.kind with | .renew _ k _ false => k == sector | _ => false) &&
    r.awaits.any (fun a => match a with | .flight g id .. => g == w.g && id == fid | _ => false)
  if s.reqs.any same then
    { s with reqs := s.reqs.map (fun r => if same r then { r with awaits := r.awaits ++ [await] } else r) }
  else
    let s := s.countLane w.g 0 va (256 * line)
    s.send (.core w.core) w.core line key w.part home2 clk (.renew (s.renewWts w.core line key) sector pin false) [await]

/-- LEASECFG of a grid, as a renewal carries it (R117). -/
def State.pinOf (s : State) (grid : Nat) : Option (BitVec 2) :=
  match s.grid grid with
  | some g => if g.lease.getLsbD 2 then some (g.lease.setWidth 2) else none
  | none => none

/-- An agent that reads bytes that its core's L1 holds dirty reads stores of its team or its core, which carry the line's dclk: an acquire raises
its clock to that (R136, R137, R140; log entry 39). -/
def State.takeDirty (s : State) (g : Agent) (fid : Nat) (l : L1Line) (mask : ByteMask) : State :=
  match s.flight g fid with
  | some f => if l.dirty &&& mask != 0 then s.meetClock g f.acquire.isSome l.dclk else s
  | none => s

/-- The bytes of one piece of a load (R353): at once where they are at hand, else asked for. -/
def State.loadSeg (s : State) (w : Who) (fid lane : Nat) (sg : Seg) : State :=
  match s.ctx w.g with
  | none => s
  | some c =>
    let line := sg.pa / 256
    let off := sg.pa % 256
    let key := pteKey sg.leaf
    let here (v : Nat) (bad : Bool) (s : State) : State :=
      let s := s.bytesIn w.g fid lane sg.pos sg.n v
      if bad then s.badIn w.g fid lane .dataUncorrectable else s
    let await : Await := .flight w.g fid lane off sg.pos sg.n
    let count (s : State) : State := s.countLane w.g 0 sg.va sg.pa
    match targetOf sg.pa sg.leaf with
    | .leased _ h2 =>
      match s.hitL1 w.core line (sectorOf off) key c.wclk with
      | some l => here (lineField l.data off sg.n) (l.poison &&& byteRange off sg.n != 0) ((s.raiseClk w.g l.wts).takeDirty w.g fid l (byteRange off sg.n))
      | none =>
        (s.missIn w.g fid).askRenew w fid line (sectorOf off) key h2 c.wclk (s.pinOf w.grid) sg.va await
    | .home1 _ =>
      ((s.missIn w.g fid).countLane w.g 0 sg.va sg.pa).send (.core w.core) w.core line key w.part false c.wclk .read1 [await]
    | .untimed _ =>
      ((s.missIn w.g fid).countLane w.g 0 sg.va sg.pa).send (.core w.core) w.core line key w.part false c.wclk .rawRead [await]
    | .host _ =>
      match s.hostHit line c.sysAcq with
      | some l => here (lineField l.data off sg.n) (l.poison &&& byteRange off sg.n != 0) (s.meetFar await line)
      | none => ((s.missIn w.g fid).countLane w.g 0 sg.va sg.pa).hostTxn w sg.pa sg.n false true 0 none await
    | .peer =>
      match s.peerHit w.core line (sectorOf off) with
      | some l => here (lineField l.data off sg.n) false (s.meetFar await line)
      | none =>
        ((s.missIn w.g fid).countLane w.g 0 sg.va sg.pa).sendPeer w c.edge (sg.pa / 64 * 64) 64 (.read 64) await
    | .regs => let (v, s) := (count s).newId.2.regRead (regOf sg.pa); here v.toNat false (s.meetFar await line)
    | .none => here 0 false ((count s).newId.2.logStray sg.pa)

/-! ## Stores -/

/-- Bytes of one piece of a store reach their target (R353). Answers how many replies the instruction awaits for it. 'rel' says
that the piece is a release write-back (R115 step 4). -/
def State.storeSeg (s : State) (w : Who) (id lane : Nat) (pc : W64) (sg : Seg) (data : Nat) (rel : Bool) : Nat × State :=
  match s.ctx w.g with
  | none => (0, s)
  | some c =>
    let line := sg.pa / 256
    let off := sg.pa % 256
    let key := pteKey sg.leaf
    let v := (data >>> (8 * sg.pos)) % 2 ^ (8 * sg.n)
    let mask := byteRange off sg.n
    let await : Await := .store w.g id rel lane pc sg.va
    let count (s : State) : State := s.countLane w.g 1 sg.va sg.pa
    match targetOf sg.pa sg.leaf with
    | .leased _ h2 =>
      let s := s.storeL1 w.core line key w.part h2 c.wclk (lineOf off v) mask
      if rel then (1, (s.countLane w.g 1 sg.va sg.pa).writeBack w.core line mask c.wclk [await]) else (0, s)
    | .home1 _ =>
      (1, (s.countLane w.g 1 sg.va sg.pa).send (.core w.core) w.core line key w.part false c.wclk
        (.wback (lineOf off v) mask none 0) [await])
    | .untimed _ =>
      (1, ((count s).leaveFar sg.pa c.wclk).send (.core w.core) w.core line key w.part false c.wclk (.rawWrite (lineOf off v) mask) [await])
    | .host _ =>
      (1, ((count s).leaveFar sg.pa c.wclk).hostTxn w sg.pa sg.n true false (BitVec.ofNat 512 v) none await)
    | .peer =>
      let s := s.storePeerL1 w.core line (lineOf off v) mask
      (1, ((count s).leaveFar sg.pa c.wclk).sendPeer w c.edge sg.pa sg.n (.write sg.n (BitVec.ofNat 512 v)) await)
    | .regs => (0, ((count s).newId.2.leaveFar sg.pa c.wclk).regWriteBy (regOf sg.pa) (BitVec.ofNat 64 v))
    | .none => (0, (count s).newId.2.logStray sg.pa)

/-- A lane's store: at once where it is single-copy atomic, else byte event by byte event, each of which is awaited (R131). -/
def State.storeSegs (s : State) (w : Who) (id lane : Nat) (pc : W64) (segs : List Seg) (data : Nat) (rel : Bool) : Nat × State :=
  match segs with
  | [sg] => s.storeSeg w id lane pc sg data rel
  | _ => (segs.length, segs.foldl (fun s sg => s.queueUnit w.team (.store w.g id lane pc sg data rel)) s)

/-! ## Atomics -/

/-- R116: the core's dirty bytes of the line go first, then the atomic, with the issuing warp's clock. -/
def State.atomSeg (s : State) (w : Who) (sg : Seg) (op : AtomOp) (await : Await) : State :=
  match s.ctx w.g with
  | none => s
  | some c =>
    let line := sg.pa / 256
    let count (s : State) : State := s.countLane w.g 2 sg.va sg.pa
    match targetOf sg.pa sg.leaf with
    | .leased _ h2 =>
      (count (s.flushLine w.core line [.evict])).send (.core w.core) w.core line (pteKey sg.leaf) w.part h2 c.wclk
        (.atomic (sg.pa % 256) op) [await]
    | .home1 _ =>
      (count s).send (.core w.core) w.core line (pteKey sg.leaf) w.part false c.wclk (.atomic (sg.pa % 256) op) [await]
    | .host _ => ((count s).leaveFar sg.pa c.wclk).hostTxn w sg.pa sg.n true false 0 (some op) await
    | .peer =>
      -- the core's copy of the line does not hold what the atomic leaves there
      let s := s.stalePeers w.core (· == line)
      let s := match s.l1 w.core line with | some l => if l.peer.isSome then s.dropL1 w.core line else s | none => s
      ((count s).leaveFar sg.pa c.wclk).sendPeer w c.edge sg.pa sg.n (.atomic op.op op.ty op.b op.cmp) await
    | .none => (count s).newId.2.logStray sg.pa
    | _ => s

/-! ## Releases and acquires -/

/-- R115 step 1 for a release of cluster scope or wider. -/
def State.releaseStart (s : State) (core : Nat) : State := s.flushAll core [.evict]

/-- R145: every remote write that a core sent up to a time has waited out its windows, and its acknowledgement where the
window was late. -/
def State.remoteClear (s : State) (core began : Nat) : Bool :=
  (s.sent.filter (fun x => x.core == core && decide (x.first ≤ began))).all (fun x =>
    decide ((x.window + 2) * 1000 ≤ s.datum) &&
    (!x.late || !(s.remotes.any (fun r => r.core == core && r.window == x.window && decide (r.sentAt ≤ began)))))

/-- Write-throughs of a core to the host window are complete (R127, R143). -/
def State.hostClear (s : State) (core : Nat) : Bool := !(s.hostTxns.any (fun t => t.core == core && t.write))

/-- The wait of a release has ended (R115 step 2, R135 point 2, R145). -/
def State.releaseOver (s : State) (g : Agent) (scope began : Nat) : Bool :=
  let core := agentCore g
  !s.busyMem g && (scope < 2 || !s.wbInFlight core) && (scope < 4 || (s.hostClear core && s.remoteClear core began))

/-- R115 step 3. -/
def State.releaseEnd (s : State) (g : Agent) (scope : Nat) : State :=
  if scope < 2 then s else s.raiseClk g (s.core (agentCore g)).eclk

/-- An acquire raises its agent's clock to those left with the bytes that the agent has read (R136, R140; log entry 39). -/
def State.takeSeen (s : State) (g : Agent) : State :=
  match (s.ctx g).bind (·.seen) with
  | some clk => (s.raiseClk g clk).updCtx g (fun c => { c with seen := none })
  | none => s

/-- What an acquire does when it completes (R145): it takes the clocks of what it has read; at system scope, peer lines expire, host lines filled so
far are no longer used, and the clock rises to the homes' clocks. -/
def State.acquireEnd (s : State) (g : Agent) (scope : Nat) : State :=
  let s := s.takeSeen g
  if scope < 4 then s
  else
    let s := (s.updCore (agentCore g) (fun c => { c with l1 := c.l1.filter (fun e => e.2.peer.isNone) })).stalePeers (agentCore g) (fun _ => true)
    (s.raiseClk g s.maxMts).updCtx g (fun c => { c with sysAcq := s.time })

end Sys2Proof.Machine
end

