-- ==== Sys2Proof/Machine/Spec.lean ====
section
/-!
DEFINITION. Speculation past predicted branches and predicted service calls (R90 to R96, R203, R313): undoing entries, repairing a
branch, committing entries, and landing an agent's results while its branches resolve.
-/

namespace Sys2Proof.Machine

/-- The scope of the release store that an entry holds back, if it holds one. -/
def SpecEntry.release (e : SpecEntry) : Option Nat := e.held.findSome? (·.rel)

/-- The entry is a branch or a service call that has not resolved, or it holds a release store whose wait is not over. -/
def SpecEntry.open_ (e : SpecEntry) : Bool := e.kind != .plain || e.release.isSome

/-- Some predicted branch or call of the warp is unresolved (R92). -/
def Warp.speculating (x : Warp) : Bool := x.window.any SpecEntry.open_

/-- Predicted branches that are unresolved (R92). -/
def Warp.openBranches (x : Warp) : Nat :=
  (x.window.filter (fun e => match e.kind with | .branch .. => true | _ => false)).length

/-! ## Undoing (R93) -/

/-- Put back one old value. -/
def Warp.restore (x : Warp) (w : RegWrite) : Warp :=
  let x := x.put w
  { x with ctx := x.ctx.put w }

/-- A write of a speculative entry that is on its way, taken out for the undone lanes; a uniform write only with its last
lane. -/
def dropWrites (lanes : Mask) (whole : Bool) (ws : List RegWrite) : List RegWrite :=
  ws.filter (fun w => if perLane w.dest || w.dest == .flags then !lanes.getLsbD w.lane else !whole)

/-- Undo one entry in some lanes. Its writes to predicates there no longer make them pending (R90, R313). -/
def Warp.undoEntry (x : Warp) (e : SpecEntry) (lanes : Mask) : SpecEntry × Warp :=
  let hit := e.lanes &&& lanes
  let left := e.lanes &&& ~~~hit
  let whole := left = 0
  let back := e.undo.filter (fun w => if perLane w.dest then hit.getLsbD w.lane else whole)
  let x := back.foldl Warp.restore x
  let ctx := { x.ctx with
    landings := x.ctx.landings.map (fun l => if l.spec = some e.id then { l with writes := dropWrites hit whole l.writes } else l)
    flights := x.ctx.flights.map (fun f => if f.spec = some e.id then { f with dead := f.dead ||| hit } else f) }
  let undo := e.undo.filter (fun w => if perLane w.dest then !hit.getLsbD w.lane else !whole)
  let held := e.held.filter (fun h => !hit.getLsbD h.lane)
  let flags := e.flags.filter (fun f => !hit.getLsbD f.1)
  let pend := x.pend.map (fun p => if hit.getLsbD (p.1 / 8) then (p.1, p.2.filter (fun w => w.2 != some e.id)) else p)
  ({ e with lanes := left, undo := undo, held := held, flags := flags, deferred := e.deferred &&& ~~~hit }, { x with ctx := ctx, pend := pend })

/-- Undo the entries numbered after 'after' in some lanes, newest first; answers how many lane entries were undone. -/
def Warp.undoAfter (x : Warp) (after : Nat) (lanes : Mask) : Nat × Warp :=
  x.window.reverse.foldl (fun acc e =>
    let (n, x) := acc
    if after < e.id && e.lanes &&& lanes != 0 then
      let k := (lanesOf (e.lanes &&& lanes)).length
      let (e', x) := x.undoEntry e lanes
      (n + k, { x with window := x.window.map (fun o => if o.id = e.id then e' else o) })
    else (n, x)) (0, x)

/-! ## The predictor (R91) -/

/-- Number of the entry for a branch at an address. -/
def predIndex (pc : W64) : Nat := (pc.toNat / 2 % 256) ^^^ (pc.toNat / 2 ^ 9 % 256)

def Warp.predicted (x : Warp) (pc : W64) (lanes : Mask) : Mask :=
  let e := Tab.get {} x.pred (predIndex pc)
  match e.kind with
  | 0 => lanes
  | 1 => 0
  | 2 => lanes &&& e.last
  | _ => lanes &&& ~~~e.last

def PredEntry.learn (e : PredEntry) (x m : Mask) : PredEntry :=
  let kind := if m = x then 0 else if m = 0 then 1 else if m = x &&& e.last then 2 else if m = x &&& ~~~e.last then 3 else 2
  { kind := kind, last := m }

/-- Add to a 16-bit count of PREDSTAT, saturating (R96). -/
def countPred (v : W64) (at_ n : Nat) : W64 :=
  let old := v.toNat / 2 ^ at_ % 2 ^ 16
  v + BitVec.ofNat 64 ((min (old + n) 0xFFFF - old) * 2 ^ at_)

/-! ## Resolving and committing -/

/-- Lanes of a warp go to an address. -/
def Warp.goTo (x : Warp) (lanes : List Nat) (tgt : W64) : Warp :=
  { x with lpc := lanes.foldl (fun t j => Tab.set t j tgt) x.lpc }

/-- Some lanes leave the path that they were on: what they waited for at an instruction there, and the faults that walks found for them,
are dropped. -/
def Warp.offPath (x : Warp) (lanes : Mask) : Warp :=
  let c := x.ctx
  let c := match c.hold with
    | .scales f => if c.holdX &&& lanes = 0 then c else { c with hold := .none, holdX := 0, flights := c.flights.filter (fun o => o.id != f) }
    | _ => c
  { x with
    ctx := c
    blocks := x.blocks.filter (fun b => !(lanes.getLsbD b.1 && (match b.2.why with | .walk _ => true | _ => false)))
    unpend := x.unpend.filter (fun u => !(u.2.guess && lanes.getLsbD u.1)) }

/-- Resolve one branch entry with its actual taken lanes m (R93, R313). -/
def Warp.resolve (x : Warp) (e : SpecEntry) (m : Mask) : Warp :=
  match e.kind with
  | .branch _ _ taken predicted call _ =>
    let lanes := e.lanes
    let p := predicted &&& lanes
    let m := m &&& lanes
    let wrong := p ^^^ m
    let younger (j : Nat) : Bool := x.window.any (fun o => decide (e.id < o.id) && o.lanes.getLsbD j)
    let fresh := (lanesOf wrong).filter (fun j => !younger j)
    let x := x.offPath wrong
    let (n, x) := x.undoAfter e.id wrong
    -- a call that a lane took wrongly gives back its link and its depth
    let (e', x) := if call then x.undoEntry e (p &&& ~~~m) else (e, x)
    let x := x.goTo (lanesOf (p &&& ~~~m)) e.next
    let x := (lanesOf (m &&& ~~~p)).foldl (fun x j =>
      match Tab.find taken j with
      | some t => x.goTo [j] (if call then e.pc else t)
      | none => x.goTo [j] e.pc) x
    let k := predIndex e.pc
    let pred := if lanes = 0 then x.pred else Tab.put {} x.pred k ((Tab.get {} x.pred k).learn lanes m)
    let st := countPred (countPred (countPred x.predstat 16 (if p = m then 0 else 1)) 32 n) 48 fresh.length
    let e' := { e' with lanes := lanes, kind := .plain, deferred := e'.deferred &&& ~~~(p &&& ~~~m) }
    { x with pred := pred, predstat := st, window := x.window.map (fun o => if o.id = e.id then e' else o) }
  | _ => x

/-- A branch resolves once the youngest write to its guard in each of its lanes has landed (R93). -/
def State.resolveBranches (s : State) (w : Nat) : State :=
  match s.warp w with
  | none => s
  | some x0 =>
    x0.window.foldl (fun s e0 =>
      match s.warp w with
      | none => s
      | some x =>
        match x.window.find? (fun e => e.id == e0.id) with
        | none => s
        | some e =>
          match e.kind with
          | .branch p neg _ _ _ awaits =>
            let waiting (id : Nat) : Bool := x.ctx.landings.any (fun l => l.id == id) || x.ctx.flights.any (fun f => f.id == id)
            if awaits.any waiting && e.lanes != 0 then s
            else
              let m := maskOf ((lanesOf e.lanes).filter (fun j => (s.base (.warp w) j (.p p) != 0) != neg))
              s.updWarp w (fun x => x.resolve e m)
          | _ => s) s

/-- One held store commits (R94): its bytes are performed under the warp's clock now. -/
def State.commitStore (s : State) (w : Who) (id : Nat) (pc : W64) (h : HeldStore) : Nat × State :=
  match h.sp with
  | none => s.storeSegs w id h.lane pc h.segs h.data.toNat (match h.rel with | some scope => decide (2 ≤ scope) | none => false)
  | some (team, off) =>
    s.queuePieces team { id := 0, agent := w.g, lane := h.lane, team := team, off := off, n := h.n, kind := .store h.data, cnt := .st,
                         owner := id, pc := pc }

/-- An invalidation that waits for the held stores of an entry waits for the requests that they become (R166). -/
def State.passUses (s : State) (id first : Nat) : State :=
  let new := (List.range (s.nextId - first)).map (first + ·)
  { s with invals := s.invals.map (fun v => if v.uses.contains id then { v with uses := v.uses ++ new } else v) }

/-- The release steps that an entry's release store needs before it is performed (R115, R145): true once they are over. -/
def State.entryRelease (s : State) (w : Nat) (e : SpecEntry) : Bool × State :=
  match e.release with
  | none => (true, s)
  | some scope =>
    let g := Agent.warp w
    if s.unitsOf g (fun _ st => st) then (false, s) else
    let s := if e.began.isNone && decide (2 ≤ scope) then s.releaseStart (w / 128) else s
    if s.releaseOver g scope (e.began.getD s.time) then (true, s.releaseEnd g scope)
    else (false, s.updWarp w (fun x => { x with window := x.window.map (fun o => if o.id = e.id then { o with began := some (e.began.getD s.time) } else o) }))

/-- The oldest entry commits (R94). -/
def State.commitEntry (s : State) (w : Nat) (e : SpecEntry) : State :=
  let g := Agent.warp w
  let s := s.updWarp w (fun x =>
    let ctx := { x.ctx with
      landings := x.ctx.landings.map (fun l => if l.spec = some e.id then { l with spec := none } else l)
      flights := x.ctx.flights.map (fun f => if f.spec = some e.id then { f with spec := none } else f)
      flags := e.flags.foldl (fun a f => a ||| f.2) x.ctx.flags }
    { x with ctx := ctx, window := x.window.filter (fun o => o.id != e.id) })
  let s := match s.who g with
    | none => s
    | some who =>
      if e.held.isEmpty then s
      else
        let first := s.nextId
        let (n, s) := e.held.foldl (fun acc h => let (k, s) := acc.2.commitStore who e.id e.pc h; (acc.1 + k, s)) (0, s)
        (s.updCtx g (fun c => c.storeBegin e.id n 0)).passUses e.id first
  if e.deferred = 0 then s
  else s.updWarp w (fun x =>
    let x := ((x.undoAfter e.id e.deferred).2).offPath e.deferred
    { x.goTo (lanesOf e.deferred) e.pc with reexec := x.reexec ||| e.deferred })

/-- Entries commit in order up to the oldest that is still unresolved (R94); the fuel is the window's length. -/
def State.commit (s : State) (w fuel : Nat) : State :=
  match fuel with
  | 0 => s
  | k + 1 =>
    match s.warp w with
    | some x =>
      match x.window with
      | e :: _ =>
        if e.kind != .plain then s
        else if !e.held.isEmpty && x.ctx.st == 63 then s        -- cnt.st is full (R262)
        else if e.held.any (fun h => h.segs.any untimed) && s.rawBusy (.warp w) then s   -- in program order (R132)
        else match s.entryRelease w e with
          | (false, s) => s
          | (true, s) => (s.commitEntry w e).commit w k
      | [] => s
    | none => s

/-- Resolve what can resolve, then commit. -/
def State.settleSpec (s : State) (w : Nat) : State :=
  match s.warp w with
  | none => s
  | some x => if x.window.isEmpty then s else (s.resolveBranches w).commit w x.window.length

/-- Land the results of a warp that are due, cycle by cycle, its branches resolving as their guards land (R93). -/
def State.landWarp (s : State) (w : Nat) (due : List Landing) : State :=
  match due with
  | [] => s.settleSpec w
  | l :: r =>
    let s := match s.warp w with
      | none => s
      | some x =>
        match x.ctx.landings.find? (fun (o : Landing) => o.id == l.id) with
        | none => s
        | some o =>
          let now := s.cycle (w / 128)
          let s := s.updCtx (.warp w) (fun c =>
            let c := { c with landings := c.landings.filter (fun o => o.id != l.id) }
            if o.due = now then c.noteLanded now o.id o.writes else c)
          s.putRegs (.warp w) o.spec o.writes
    let last := match r with | [] => true | o :: _ => o.due != l.due
    (if last then s.settleSpec w else s).landWarp w r

/-- Bring an agent's registers up to now. -/
def State.land (s : State) (g : Agent) : State :=
  match g with
  | .ct _ => s.landIn g (BitVec.allOnes 128)
  | .warp w =>
    match s.warp w with
    | none => s
    | some x => s.landWarp w (x.ctx.landings.filter (fun l => decide (l.due ≤ s.cycle (w / 128))))

end Sys2Proof.Machine
end

