-- ==== Sys2Proof/Machine/Ops.lean ====
section
/-!
DEFINITION. The shared operations of an issue: joins (R88, R89), exits and the end of teams and grids (R315), parking (R97), walks
that an access waits for (R159), taking a trap (R99, R100) and returning from one (R101, R400), fetching (R247, R248), the checks of
a word (R257), and the frame around every instruction: guard, tag, lanes, program counters, GAP and YLD (R86, R249, R258, R261).
-/

namespace Sys2Proof.Machine

/-! ## Joins (R88, R89) -/

/-- Release the arrived lanes of jk past their JOINs; each lane's predicate is set. -/
def Warp.joinRelease (x : Warp) (k : Nat) (timedOut : Bool) : Warp :=
  let lanes := lanesOf (Tab.get 0 x.arrived k)
  let x := lanes.foldl (fun x j =>
    match Tab.find x.blocks j with
    | some { why := .join _ pd, next := n, .. } =>
      let x := x.put { lane := j, dest := .p pd, val := if timedOut then 1 else 0 }
      { x with lpc := Tab.set x.lpc j n, blocks := Tab.erase x.blocks j }
    | _ => x) x
  { x with arrived := Tab.erase x.arrived k, rounds := Tab.erase x.rounds k }

/-- The value of jk as the join hardware has it in a cycle: a JSET counts for it from the next cycle on (R372), although an instruction that reads
jk waits for the integer latency (R376; log entry 45). -/
def Warp.maskJ (x : Warp) (now k : Nat) : Mask :=
  readThrough 0 (now + 3) (x.ctx.landings.filter (fun l => decide (l.due ≤ now + 3))) 0 (destCode (.j k)) (.j k) (Tab.get 0 x.j k)

/-- R88: complete every join whose lanes have arrived, are not live or were removed. -/
def Warp.joinCheck (x : Warp) (now : Nat) : Warp :=
  (List.range 16).foldl (fun x k =>
    let a := Tab.get 0 x.arrived k
    if a != 0 && (x.maskJ now k &&& x.live &&& ~~~a) = 0 then x.joinRelease k false else x) x

def State.joinCheck (s : State) (w : Nat) : State :=
  let now := s.cycle (w / 128)
  s.updWarp w (fun x => x.joinCheck now)

/-! ## Exits (R101, R104, R315, R326) -/

/-- Entries of the decision queue that every warp in their mask has popped or left retire (R104). -/
def Team.retireDq (t : Team) : Team := { t with dq := t.dq.filter (fun e => e.mask &&& ~~~e.popped &&& ~~~t.exited != 0) }

/-- The clock of an agent that ends enters the retirement clock of its grid (R67). -/
def State.endClock (s : State) (g : Agent) : State :=
  match s.ctx g with
  | none => s
  | some c =>
    match s.team c.team with
    | none => s
    | some t => s.updGrid t.grid (fun x => { x with tr := if x.trAny then serialMax x.tr c.wclk else c.wclk, trAny := true })

/-- A warp has no live lane left: it has exited, or its save routine has ended (R78). -/
def State.warpGone (s : State) (w : Nat) : State :=
  match s.warp w with
  | none => s
  | some x =>
    if x.live != 0 then s
    else if x.ctx.safe.isSome then s.updCtx (.warp w) (fun c => { c with saved := true, hold := .none })
    else
      let s := s.updWarp w (fun x => { x with
        tickets := [], noTicket := 0, window := [], unpend := [], svc := none, haltAsk := false
        ctx := { x.ctx with hold := .none, trap := none } })
      let s := s.endClock (.warp w)
      s.updTeam x.ctx.team (fun t => ({ t with exited := t.exited ||| laneBit x.k }).retireDq)

/-- Lanes of a warp stop being live (R315): their results are discarded, their tickets cancelled, and joins go on without
them. -/
def State.exitLanes (s : State) (w : Nat) (lanes : Mask) : State :=
  let s := s.updWarp w (fun x =>
    let keep := ~~~lanes
    let ctx := { x.ctx with
      landings := x.ctx.landings.map (fun l => { l with
        writes := l.writes.filter (fun r => !(perLane r.dest && lanes.getLsbD r.lane)) })
      flights := x.ctx.flights.map (fun f => { f with dead := f.dead ||| lanes }) }
    { x with
      ctx := ctx
      live := x.live &&& keep
      parked := x.parked &&& keep
      halted := x.halted &&& keep
      noTicket := x.noTicket &&& keep
      reexec := x.reexec &&& keep
      blocks := x.blocks.filter (fun b => keep.getLsbD b.1)
      arrived := (x.arrived.map (fun a => (a.1, a.2 &&& keep))).filter (fun a => a.2 != 0)
      tickets := (x.tickets.map (fun t => { t with lanes := t.lanes &&& keep })).filter (fun t => t.lanes != 0)
      unpend := x.unpend.filter (fun u => keep.getLsbD u.1) })
  (s.joinCheck w).warpGone w

/-- A control thread stops being live (R326), or its save routine has ended. -/
def State.exitCt (s : State) (t : Nat) : State :=
  match s.team t with
  | none => s
  | some x =>
    if x.ct.safe.isSome then s.updTeam t (fun x => { x with ct := { x.ct with saved := true } })
    else
      (s.endClock (.ct t)).updTeam t (fun x => { x with
        ctExited := true, ctTicket := none, ctFault := none, ct := { x.ct with hold := .none, trap := none } })

/-- Every warp and the control thread of a team end (R315, .team). -/
def State.endTeam (s : State) (t : Nat) : State :=
  match s.team t with
  | none => s
  | some x =>
    let s := s.updTeam t (fun x => { x with ct := { x.ct with safe := none } })
    let s := x.warps.foldl (fun s w =>
      (s.updCtx (.warp w) (fun c => { c with safe := none })).exitLanes w (BitVec.allOnes 128)) s
    let s := if x.ctExited then s else s.exitCt t
    s.updTeam t (fun x => { x with dq := [], ended := true })

/-- A team ends in the next cycle (R315). -/
def State.endSoon (s : State) (t : Nat) : State := s.updTeam t (fun x => { x with ending := true })

/-- A cycle of a core ends within the next dt units. -/
def State.cycleEnds (s : State) (core dt : Nat) : Bool := s.cycle core != Clk.now (s.core core).clk (s.time + dt)

/-- The teams that were to end in a cycle that ends within dt units end (R315). -/
def State.endTeams (s : State) (dt : Nat) : State :=
  (s.teams.filter (fun e => e.2.ending && !e.2.ended && s.cycleEnds e.2.core dt)).foldl (fun s e => s.endTeam e.1) s

/-- R315, R101: a grid is ended by one of its teams with a cause. The first request that reaches the launch front gives the cause, and of those of
one cycle that of the lower team number (R327); other teams end when the request reaches them (GRID_END_REQUEST). -/
def State.gridEnds (s : State) (t : Nat) (cause : BitVec 6) : State :=
  match s.team t with
  | none => s
  | some x =>
    -- the saved teams end where they are: the retirement covers their clocks (R67)
    let clocks (y : SavedTeam) : List W32 := y.team.ct.wclk :: y.warps.map (·.wclk)
    s.updGrid x.grid (fun g =>
      if g.ending then
        (match g.endBy with
          | some (at_, n) => if at_ = s.time / 50 ∧ x.num < n then { g with cause := cause, endBy := some (at_, x.num) } else g
          | none => g)
      else { g with
        ending := true, endBy := some (s.time / 50, x.num), status := 2, cause := cause, saved := []
        tr := (g.saved.flatMap clocks).foldl serialMax (if g.trAny then g.tr else s.floor)
        trAny := true })

/-- The same where a trap cannot be handled: the team ends at once (R100). -/
def State.endGrid (s : State) (t : Nat) (cause : BitVec 6) : State := (s.gridEnds t cause).endTeam t

/-! ## Taking a trap (R100) -/

/-- Blocked lanes leave their instruction (R100): a DQPOP that has popped nothing lets its tag go. -/
def Warp.leaveBlocks (x : Warp) : Warp :=
  let ids := x.blocks.filterMap (fun b => match b.2.why with | .dqpop _ f => some f | _ => none)
  let gone := x.ctx.flights.filter (fun f => ids.contains f.id)
  let free := gone.foldl (fun (m : BitVec 8) f => m ||| BitVec.ofNat 8 (2 ^ f.tag)) 0
  { x with
    blocks := []
    arrived := []
    rounds := []
    ctx := { x.ctx with flights := x.ctx.flights.filter (fun f => !ids.contains f.id), busy := x.ctx.busy &&& ~~~free } }

/-- Lanes or the control thread start at a handler. The trapping lanes stand at the instruction (R99), unless they keep the LPC at which
they are (R203). -/
def State.vector (s : State) (g : Agent) (p : PendTrap) (handler : W64) : State :=
  let regs (c : Ctx) (m : Mask) : Ctx := { c with
    handler := true, trapMask := m, trapCause := BitVec.ofNat 6 (causeCode p.cause), trapPc := p.pc, trapAddr := p.addr,
    hold := .none, trap := none }
  match g with
  | .ct t => s.updTeam t (fun x => { x with ct := regs x.ct 1, savedCpc := if p.keep then x.cpc else p.pc, cpc := handler })
  | .warp w => s.updWarp w (fun x =>
      let x := if p.keep then x else x.goTo (lanesOf (p.lanes &&& x.live &&& ~~~x.parked)) p.pc
      let x := x.leaveBlocks
      let go := lanesOf (x.live &&& ~~~x.parked)
      let saved := go.foldl (fun t j => Tab.set t j (Tab.get 0 x.lpc j)) (x.savedLpc.filter (fun e => !x.parked.getLsbD e.1))
      { x with ctx := regs x.ctx p.lanes, savedLpc := saved, lpc := go.foldl (fun t j => Tab.set t j handler) x.lpc,
               deferred := 0, latch := none })

/-- The edge id that a message of an agent carries (R229). -/
def State.edgeNow (s : State) (g : Agent) : W64 := match s.ctx g with | some c => c.edge | none => 0

/-- What a hardware read waits for has been asked for. -/
def State.fillAsked (s : State) (pa : Nat) : Bool :=
  match physKind pa with
  | .peer => s.peerOut.any (fun p => p.await == .none && p.pa == pa / 64 * 64)
  | .home _ => s.lineBusy (pa / 256) || (match Tab.find s.l2 (pa / 256) with | some l => l.snoop.isSome | none => false)
  | _ => s.hostTxns.any (fun t => t.line == pa / 256 && t.fill) ||
    s.pris.any (fun p => p.pa / 256 == pa / 256 && (match p.who with | .hw _ _ => true | _ => false))

/-- What a hardware read waits for is asked for once: a line that a host holds (R60); a line of the host window (R127), or its translation
through PRI where ATS holds none (R63), which is open (log entry 4); bytes of a peer (R128). -/
def State.fillHost (s : State) (w : Who) (pa : Nat) : State :=
  if s.fillAsked pa then s
  else match physKind pa with
    | .peer =>
      if (s.peerRoute w.core (pa / 64 * 64) 64).isNone then { s with hwLines := Tab.set s.hwLines (pa / 64) (s.datum / 1000, none) }
      else s.sendPeer w (s.edgeNow w.g) (pa / 64 * 64) 64 (.read 64) .none
    | .home _ =>
      let line := pa / 256
      if s.hostOwns line then s.snoop line false false else (s.clearHost line (s.slotOf line) noPart true).getD s
    | _ =>
      let (f, s) := s.free
      if f.getLsbD 0 then
        let (id, s) := s.newId
        ({ s with pris := s.pris ++ [{ id := id, pa := pa, asid := w.asid, who := .hw w.core w.part, ticket := id }] } : State).emit
          (.ats (pa / 2 ^ 48 % 4) pa w.asid)
      else s.hostTxn w (pa / 256 * 256) 64 false true 0 none .none

/-- R100: take a trap. The warp first resolves its speculation; a trap in handler mode, or a handler address that is 0, odd or
unreadable, ends the grid, as does one with TRAPBASE 0 (R281). -/
def State.takeTrap (s : State) (g : Agent) (p : PendTrap) : State :=
  match s.who g with
  | none => s
  | some w =>
    let busy := match g with | .warp k => (match s.warp k with | some x => !x.window.isEmpty | none => false) | .ct _ => false
    let code := causeCode p.cause
    if busy then s.updCtx g (fun c => { c with trap := some p })
    else if w.handler then s.endGrid w.team (BitVec.ofNat 6 code)
    else
      let base := match s.team w.team with | some t => t.trapBase | none => 0
      -- R281: with TRAPBASE 0 the read of the handler's address counts as failed
      if base = 0 then s.endGrid w.team (BitVec.ofNat 6 code) else
      let at_ := base + BitVec.ofNat 64 (8 * code)
      let read (s : State) : State := s.hwTouch (dieOf w.core) w.asid w.part at_ 8 .read true
      match s.hwRead (dieOf w.core) w.asid w.part at_ 8 true with
      | .val h => if h = 0 || h % 2 = 1 then (read s).endGrid w.team (BitVec.ofNat 6 code) else (read s).vector g p (BitVec.ofNat 64 h)
      | .fail _ => (read s).endGrid w.team (BitVec.ofNat 6 code)
      | .wait pa => (s.updCtx g (fun c => { c with trap := some p })).fillHost w pa

/-- Memory causes: those that carry an address (R100, R106). The spec does not list them: the model takes the causes of accesses to memory and
to barrier objects, and leaves REGION_MAP out, since SPMAP accesses nothing (DESIGN CHOICE, log entry 46). -/
def memoryCause (c : Cause) : Bool :=
  match c with
  | .translation | .permission | .noncanonical | .addressWrap | .scratchBounds | .rangeLock | .dataUncorrectable | .hostPath
  | .peerPath | .keyInvalid | .formatEntry | .misalignedAtomic | .copyFault | .barrierOverrun => true
  | _ => false

/-- R99: of the causes that lanes hold, the lowest is taken, by the lanes that hold it. -/
def lowestCause (cs : List (Nat × Cause × W64)) : Option (Cause × Mask × W64) :=
  match cs with
  | [] => none
  | c :: r =>
    let code := r.foldl (fun m x => min m (causeCode x.2.1)) (causeCode c.2.1)
    let hold := (c :: r).filter (fun x => causeCode x.2.1 == code)
    let lanes := maskOf (hold.map (·.1))
    match hold.find? (fun x => x.1 == lowest lanes) with
    | some x => some (x.2.1, lanes, if memoryCause x.2.1 then x.2.2 else 0)
    | none => none

/-! ## Parking (R97, R161) -/

/-- Lanes, or a control thread, park with a ticket; lanes that fault on one page share one, and beyond 16 tickets a lane parks
without one. Answers the ticket's number if it is a new one. -/
def State.parkTicket (s : State) (g : Agent) (lanes : Mask) (va : W64) : Option Nat × State :=
  let page := va.toNat / 4096
  let (id, s) := s.newId
  match g with
  | .ct t => (some id, s.updTeam t (fun x => { x with ctTicket := some { id := id, page := page, lanes := 1, vas := [(0, va)] } }))
  | .warp k =>
    match s.warp k with
    | none => (none, s)
    | some x =>
      let s := s.updWarp k (fun x => { x with parked := x.parked ||| lanes })
      let vas (t : Tab W64) : Tab W64 := (lanesOf lanes).foldl (fun t j => Tab.set t j va) t
      match x.tickets.find? (fun t => t.page == page && t.reply.isNone) with
      | some t => (none, s.updWarp k (fun x => { x with
          tickets := x.tickets.map (fun o => if o.id = t.id then { o with lanes := o.lanes ||| lanes, vas := vas o.vas } else o) }))
      | none =>
        if x.tickets.length < 16 then
          (some id, s.updWarp k (fun x => { x with tickets := x.tickets ++ [{ id := id, page := page, lanes := lanes, vas := vas [] }] }))
        else (none, s.updWarp k (fun x => { x with noTicket := x.noTicket ||| lanes }))

/-- Park on a fault; a new ticket's request goes to the service cores (R161). -/
def State.park (s : State) (g : Agent) (asid : W16) (lanes : Mask) (va : W64) (access : Access) : State :=
  match s.parkTicket g lanes va with
  | (none, s) => s
  | (some id, s) =>
    let req : FaultReq := { id := id, asid := asid, va := va, access := access, who := .lanes g lanes }
    ({ s with faults := s.faults ++ [req] } : State).emit (.fault id asid va)

/-- Park on a host page that PRI is asked for (R63). -/
def State.parkPri (s : State) (g : Agent) (asid : W16) (lanes : Mask) (va : W64) (pa : Nat) : State :=
  match s.parkTicket g lanes va with
  | (none, s) => s
  | (some id, s) =>
    let req : PriReq := { id := id, pa := pa, asid := asid, who := .lanes g lanes, ticket := id }
    ({ s with pris := s.pris ++ [req] } : State).emit (.ats (pa / 2 ^ 48 % 4) pa asid)

/-! ## Walks (R159) -/

/-- The core of a waiter. -/
def State.waiterCore (s : State) (w : Waiter) : Option Nat :=
  match w with
  | .lanes g _ => some (agentCore g)
  | .engine (.mx w _) => some (w / 128)
  | .engine (.cmd id) => (s.cmds.find? (fun c => c.id == id)).map (·.core)
  | .prefetch g _ => some (agentCore g)
  | _ => none

/-- A walk is for the 4 KiB page of an address, on a die. -/
def Walk.isFor (k : Walk) (die : Nat) (asid : W16) (va : W64) : Bool :=
  k.die == die && k.asid == asid && k.va.toNat / 4096 == va.toNat / 4096

/-- The walk is among the outstanding pages of a core (R159). -/
def State.inBuffer (s : State) (core : Nat) (k : Walk) : Bool := k.waiters.any (fun x => s.waiterCore x.who == some core)

/-- The walks of a die that its 64 walkers run: the oldest; the others are queued (R158, R159). -/
def State.running (s : State) (die : Nat) : List Walk := (s.walks.filter (fun k => k.die == die)).take 64

/-- Have the page of an address walked for; misses on one 4 KiB page of an ASID on a die share a walk. 'none' where the core's miss buffer
of 32 pages is full, or the die's queue of 256 walks (R159). -/
def State.askWalk (s : State) (core : Nat) (asid : W16) (va : W64) (access : Access) (who : Waiter) : Option (Nat × State) :=
  let die := dieOf core
  let x : WalkWaiter := { who := who, va := va, access := access }
  let room := decide ((s.walks.filter (s.inBuffer core)).length < 32)
  match s.walks.find? (fun k => k.isFor die asid va) with
  | some k =>
    if s.inBuffer core k || room then
      some (k.id, { s with walks := s.walks.map (fun o => if o.id = k.id then { o with waiters := o.waiters ++ [x] } else o) })
    else none
  | none =>
    if room && decide ((s.walks.filter (fun k => k.die == die)).length < 64 + 256) then
      let (id, s) := s.newId
      some (id, { s with walks := s.walks ++ [{ id := id, die := die, asid := asid, va := va, access := access, waiters := [x] }] })
    else none

/-- The agent runs a program buffer (R235). -/
def State.buffers (s : State) (g : Agent) : Bool := match s.dbgrun with | some r => r.agent == g && r.count != 0 | none => false

/-- A lane waits at its instruction for some walks; for none of them, that there is room to ask for one (R159). -/
def Warp.blockWalk (x : Warp) (ids : List Nat) (now time : Nat) (lanes : Mask) : Warp :=
  let old (j : Nat) : List Nat := match Tab.find x.blocks j with | some { why := .walk l, .. } => l | _ => []
  { x with blocks := (lanesOf lanes).foldl (fun b j => Tab.set b j { why := .walk (old j ++ ids), since := now, time := time, next := 0 }) x.blocks }

/-- An access that misses the TLBs in some lanes keeps these at their instruction until their walks end; the other lanes, and the other
instructions of the agent, go on (R159, R168). A page for which there is no room is asked for again once there is. -/
def State.holdWalks (s : State) (w : Who) (pages : List (W64 × Mask)) (access : Access) : State :=
  pages.foldl (fun s p =>
    let (ids, s) := match s.askWalk w.core w.asid p.1 access (.lanes w.g p.2) with
      | some (id, s) => ([id], s)
      | none => ([], s)
    match w.g, s.cur.buffer with
    | .warp k, false => s.updWarp k (fun x => x.blockWalk ids (s.cycle w.core) s.time p.2)
    | _, _ => if ids.isEmpty then s else s.updCtx w.g (fun c => { c with hold := .walk ((match c.hold with | .walk l => l | _ => []) ++ ids) })) s

/-- There is room for one more walk of a core (R159). -/
def State.walkRoom (s : State) (core : Nat) : Bool :=
  decide ((s.walks.filter (s.inBuffer core)).length < 32) && decide ((s.walks.filter (fun k => k.die == dieOf core)).length < 64 + 256)

/-! ## Fetching (R247, R248) -/

/-- A fetch line that the core holds. -/
def State.heldFetch (s : State) (core : Nat) (asid : W16) (va : Nat) : Option FetchLine :=
  (s.core core).fetch.find? (fun f => f.asid == asid && f.va == va / 64)

def State.fetchLineOf (s : State) (core : Nat) (asid : W16) (va : Nat) : Option (BitVec 512) := (s.heldFetch core asid va).map (·.data)

/-- n bytes of code from fetch lines, or the first address that no line holds. -/
def State.codeBytes (s : State) (core : Nat) (asid : W16) (va n : Nat) : Except Nat Nat :=
  (cuts 4 va 0 n).foldl (fun r cut =>
    match r with
    | .ok v =>
      match s.fetchLineOf core asid (va + cut.1) with
      | some d => .ok (v + (d.toNat >>> (8 * ((va + cut.1) % 64))) % 2 ^ (8 * cut.2) * 2 ^ (8 * cut.1))
      | none => .error (va + cut.1)
    | e => e) (.ok 0)

/-- The length of the word at an address, as far as its bytes are held (R247). -/
def State.lengthHeld (s : State) (core : Nat) (asid : W16) (pc : W64) : Nat :=
  match s.codeBytes core asid pc.toNat 10 with | .ok v => lengthOf (BitVec.ofNat 208 v) | .error _ => 10

/-- The word at an address with the bytes of its literals (R246, R247), or the address whose line is missing. -/
def State.codeWord (s : State) (core : Nat) (asid : W16) (pc : W64) : Except Nat (BitVec 208) :=
  match s.codeBytes core asid pc.toNat (s.lengthHeld core asid pc) with
  | .error a => .error a
  | .ok v => .ok (BitVec.ofNat 208 v)

/-- The first byte of a word, as far as its length is known, that an agent cannot take from the lines that its core holds: its line is
missing, or lies on a PRIV page, which is for agents in handler mode (R155). -/
def State.fetchStop (s : State) (core : Nat) (asid : W16) (pc : W64) (handler : Bool) : Option (Nat × Bool) :=
  (cuts 4 pc.toNat 0 (s.lengthHeld core asid pc)).findSome? (fun cut =>
    match s.heldFetch core asid (pc.toNat + cut.1) with
    | some f => if f.priv && !handler then some (pc.toNat + cut.1, true) else none
    | none => some (pc.toNat + cut.1, false))

/-- A held line of a word lies on a PRIV page: the first byte there. -/
def State.privByte (s : State) (core : Nat) (asid : W16) (pc : W64) : Option Nat :=
  match s.fetchStop core asid pc false with | some (a, true) => some a | _ => none

/-- The first byte of a range that lies outside the canonical addresses, or past their top (R156, R247). -/
def wrapByte (c : Cause) (va : W64) : W64 :=
  match c with
  | .addressWrap => if va.toNat / 2 ^ 56 = 0 then BitVec.ofNat 64 (2 ^ 56) else 0
  | _ => va

/-- What a fetch comes to. -/
inductive Fetched where
  | word (w : BitVec 208) (s : State)
  | wait (s : State)
  | idle
  | trap (c : Cause) (va : W64)
  | serve (c : Cause) (va : W64)
  | pri (va : W64) (pa : Nat) (s : State)

/-- The core takes one fetch line (R248), under a leaf. A line of the host window is asked for as a lane's would be, through PRI where ATS
holds no translation (R63). -/
def State.fillFetch (s : State) (w : Who) (va : W64) (pa : Nat) (leaf : W64) : Fetched :=
  let line := pa / 64 * 64
  let keep (v : Nat) (s : State) : Fetched :=
    .wait (s.updCore w.core (fun c => { c with
      fetch := { asid := w.asid, va := va.toNat / 64, data := BitVec.ofNat 512 v, priv := ptePriv leaf } :: c.fetch }))
  let read (go : Nat → Fetched) : Fetched :=
    match s.hwPhys line 64 (some (pteKey leaf)) with
    | .val v => keep v (if physKind pa = .none then s.logStray pa else s.rehome pa leaf)
    | .fail c => .trap c va
    | .wait p => if s.fillAsked p then .idle else go p
  match physKind pa with
  | .peer =>
    if (s.peerRoute w.core line 64).isNone then .trap .peerPath va
    else match s.peerHit w.core (line / 256) (line % 256 / 64) with
      | some l => keep (lineField l.data (line % 256) 64) s
      | none => if s.peerOut.any (fun p => p.await == .fetch w.g) then .idle
        else .wait (s.sendPeer w (s.edgeNow w.g) line 64 (.read 64) (.fetch w.g))
  | .host _ => read (fun p =>
      let (f, s) := s.free
      if f.getLsbD 0 then .pri va p s else .wait (s.hostTxn w (p / 256 * 256) 64 false true 0 none .none))
  | _ => read (fun p => .wait (s.fillHost w p))

/-- Fetch at a program counter: the checks of its whole length as far as it is known (R156, R247), then one line at a time. Code of a PRIV
page that the core holds is for agents in handler mode (R155). -/
def State.fetch (s : State) (w : Who) (pc : W64) (lanes : Mask) : Fetched :=
  match rangeFault pc (s.lengthHeld w.core w.asid pc), (if w.handler then none else s.privByte w.core w.asid pc) with
  | some c, _ => .trap c (wrapByte c pc)
  | none, some a => .serve .permission (BitVec.ofNat 64 a)
  | none, none =>
    match s.codeWord w.core w.asid pc with
    | .ok k => .word k s
    | .error a =>
      let va := BitVec.ofNat 64 a
      match s.xlate w.core w.asid va .fetch w.handler with
      | .ok pa leaf => if s.keyFor w.part pa leaf then s.fillFetch w va pa leaf else .trap .keyInvalid va
      | .miss =>
        if (s.askWalk w.core w.asid va .fetch (.lanes w.g lanes)).isNone then .idle else .wait (s.holdWalks w [(va, lanes)] .fetch)
      | .fault .permission => .serve .permission va
      | .fault c => .trap c va

/-! ## Returning from a trap (R101, R400) -/

/-- The length of the word at an address, as RFT .next needs it, or what its read must wait for. Where the word cannot be read any more its
length is none that the spec states: one of the five there are (log entry 4). -/
def State.lengthAt (s : State) (core : Nat) (asid : W16) (part : Nat) (pc : W64) : Except Nat Nat :=
  match s.codeWord core asid pc with
  | .ok w => .ok (lengthOf w)
  | .error _ =>
    match s.hwReads (dieOf core) asid part pc 2 5 true with
    | .val v => .ok (lengthOf (BitVec.ofNat 208 v))
    | .wait pa => .error pa
    | .fail _ => .ok (10 + 4 * (s.free.1.toNat % 5))

/-- RFT: each lane's LPC comes from its saved LPC, past a word of some length for .next; replies held during handler mode are delivered after
it. -/
def State.rft (s : State) (k : Nat) (next : Bool) (length : Nat) : State :=
  match s.warp k with
  | none => s
  | some x =>
    let len := BitVec.ofNat 64 length
    let target (j : Nat) (v : W64) : W64 := if next && x.ctx.trapMask.getLsbD j && v == x.ctx.trapPc then v + len else v
    let lpc := x.savedLpc.foldl (fun t e => if x.live.getLsbD e.1 then Tab.set t e.1 (target e.1 e.2) else t) x.lpc
    s.updWarp k (fun x => { x with lpc := lpc, unpend := x.unpend.filter (fun u => !u.2.handler), ctx := { x.ctx with handler := false } })

/-! ## Answers to tickets (R98, R162) -/

/-- A lane owes one cause for an instruction. -/
def oweIn (l : List (Nat × Owed)) (lane : Nat) (o : Owed) : List (Nat × Owed) :=
  l.filter (fun e => !(e.1 == lane && e.2.pc == o.pc)) ++ [(lane, o)]

/-- Lanes leave the parked state; with a cause they raise it when they execute again, at the address where they faulted. -/
def Warp.unpark (x : Warp) (lanes : Mask) (cause : Option (Cause × Tab W64)) (since : Option Nat := none) : Warp :=
  let back := x.parked &&& lanes
  let unpend := match cause with
    | none => x.unpend
    | some c => (lanesOf back).foldl (fun l j => oweIn l j { cause := c.1, va := Tab.get 0 c.2 j, pc := Tab.get 0 x.lpc j, since := since }) x.unpend
  { x with parked := x.parked &&& ~~~lanes, noTicket := x.noTicket &&& ~~~lanes, unpend := unpend,
           tickets := (x.tickets.map (fun t => { t with lanes := t.lanes &&& ~~~lanes })).filter (fun t => t.lanes != 0) }

/-- UNPARK (R402): lanes leave the parked state. Of lanes that an answer of the same cycle has returned already, the ticket is cancelled with its
cause (R406). -/
def Warp.unparkNow (x : Warp) (lanes : Mask) (now : Nat) : Warp :=
  { x.unpark lanes none with unpend := x.unpend.filter (fun u => !(lanes.getLsbD u.1 && u.2.since == some now)) }

/-- The cause that an answer gives (R162). -/
def answerCause (a : FaultAnswer) : Option Cause :=
  match a with | .retry => none | .translation => some .translation | .permission => some .permission

/-- Deliver the answer of a ticket: its lanes return, and with any answer the lanes without a ticket. -/
def Warp.answer (x : Warp) (t : Ticket) (a : Option Cause) (since : Option Nat := none) : Warp :=
  let x := x.unpark t.lanes (a.map (fun c => (c, t.vas))) since
  x.unpark x.noTicket none

/-- Answers that were held are delivered once the warp is out of handler mode (R98). -/
def Warp.deliver (x : Warp) : Warp :=
  if x.ctx.handler then x
  else x.tickets.foldl (fun x t => match t.reply with | some a => x.answer t a | none => x) x

/-! ## The checks of a word (R257) -/

/-- Registers that an operand of a role takes; w is the warp's width. -/
def roleCount (r : Role) (w : Nat) : Nat :=
  match r with
  | .dst n _ | .dstU n _ | .dstEither n _ | .lane n _ | .uni n _ | .either n _ | .mask n => n
  | .dstMask | .maskW => (w + 31) / 32
  | .src t | .srcU t => Ty.regs t
  | .baseG | .baseGU | .wide _ | .wideU _ => 2
  | _ => 1

/-- R252, R308: the registers of an operand lie below the declared counts, and a mask's group stands at a multiple of its size. -/
def countOk (vregs sregs w : Nat) (r : Role) (o : Opnd) : Bool :=
  match r, o with
  | .unused, _ => true
  | .raw, _ => true
  | .dstMask, .v n => decide (n.toNat + roleCount r w ≤ vregs) && n.toNat % roleCount r w == 0
  | .maskW, .s n => decide (n.toNat + roleCount r w ≤ sregs) && n.toNat % roleCount r w == 0
  | r, .v n => decide (n.toNat + roleCount r w ≤ vregs)
  | r, .s n => decide (n.toNat + roleCount r w ≤ sregs)
  | _, _ => true

/-- Special registers that a control thread holds (R397). -/
def ctHolds (idx : Nat) : Bool :=
  (3 ≤ idx && idx ≤ 11) || (13 ≤ idx && idx ≤ 15) || (18 ≤ idx && idx ≤ 31)

/-- R257: the cause that a word raises as a whole, if any. 'buffer' is a word of a program buffer (R401). -/
def State.wordCause (s : State) (g : Agent) (i : Instr) (x : Args) (buffer : Bool) : Option Cause :=
  match sigOf i, s.who g with
  | some sg, some w =>
    let rec_ := match s.grid w.grid with | some r => (r.rec_.vregs, r.rec_.sregs, r.rec_.width) | none => (0, 0, 8)
    let isCt := match g with | .ct _ => true | .warp _ => false
    let dbgret := match i with | .dbgret _ => buffer | _ => false
    let idx := modBits x.mod 7 0
    let held := match i with
      | .usread _ => !isCt || (ctHolds idx && !(modBit x.mod 8 && idx != 18))
      | .uswrite _ => if isCt then ctHolds idx else idx != 25
      | .uswriteRft _ => isCt
      | .ufrom _ => !isCt
      | .dbgret _ => !isCt || (match x.a with | .v _ => false | _ => true)
      | _ => true
    let cnt (r : Role) (o : Opnd) : Bool := countOk rec_.1 rec_.2.1 rec_.2.2 r o
    if (isCt && !sg.uni && !dbgret) || (buffer && bufferRefuses i) then some .illegalOpcode
    else if isTrapped i then some .retiredForm
    else if !(selects i && sigOk sg x && held && cnt sg.d x.d && cnt sg.a x.a && cnt sg.b x.b && cnt sg.c x.c) then
      some .illegalOperand
    else if controlOnly i && !isCt then some .controlOnly
    else if needsTag i && x.ctl.alloc == 0 then some .tagRequired
    else none
  | _, _ => some .illegalOpcode

/-! ## The frame around an instruction -/

/-- The issue of one instruction: who, where, on which lanes, and in which of them it takes effect. -/
structure Iss where
  w    : Who
  x    : Args
  uni  : Bool
  pc   : W64
  next : W64
  lanes : Mask
  act  : Mask
  spec : Option Nat
  now  : Nat
  last : Nat                      -- cycle of the last pass

/-- What the effect of an instruction comes to: the state, the causes it raises by lane, the lanes that stay at the instruction,
and the lanes that branch. -/
structure Eff where
  st     : State
  stalled : Bool := false
  causes : List (Nat × Cause × W64) := []
  stay   : Mask := 0
  go     : Tab W64 := []

/-- The instruction does not issue now (R74, R92): its agent stays at it. -/
def Eff.stall (s : State) : Eff := { st := s, stalled := true }

/-- Every active lane holds a cause. -/
def Eff.all (s : State) (lanes : Mask) (c : Cause) (va : W64) : Eff :=
  { st := s, causes := (lanesOf lanes).map (fun j => (j, c, va)) }

/-- Move the program counters of an issue. -/
def State.advance (s : State) (iss : Iss) (lanes : Mask) (go : Tab W64) : State :=
  match iss.w.g with
  | .ct t => if lanes = 0 then s else s.updTeam t (fun x => { x with cpc := (Tab.find go 0).getD iss.next })
  | .warp w => s.updWarp w (fun x => { x with
      lpc := (lanesOf lanes).foldl (fun t j => Tab.set t j ((Tab.find go j).getD iss.next)) x.lpc })

/-- Lanes that stay at an instruction have not executed it: they have no part in its speculation entry. -/
def State.leaveEntry (s : State) (iss : Iss) (stay : Mask) : State :=
  match iss.spec, iss.w.g with
  | some id, .warp w => if stay = 0 then s else s.updWarp w (fun x => { x with
      window := x.window.map (fun o => if o.id = id then { o with lanes := o.lanes &&& ~~~stay } else o) })
  | _, _ => s

/-- The end of an issue: program counters, GAP and YLD (R258), and a trap if lanes hold causes (R99), or deferred conditions if
the instruction is speculative (R92). -/
def State.finish (iss : Iss) (e : Eff) : State :=
  if e.stalled then { e.st with cur := { e.st.cur with stalled := true } }
  else
    let bad := maskOf (e.causes.map (·.1))
    let s := { e.st with fresh := e.st.fresh + 1 }
    let s := s.leaveEntry iss e.stay
    let s := if s.cur.buffer then s
      else s.advance iss (iss.lanes &&& ~~~e.stay &&& (if iss.spec.isSome then iss.lanes else ~~~bad)) e.go
    let s := s.updCtx iss.w.g (fun c => { c with
      gapUntil := if iss.x.ctl.gap = 0 then c.gapUntil else iss.last + 1 + iss.x.ctl.gap.toNat, yld := iss.x.ctl.yld, yldAt := iss.now + 1 })
    match lowestCause e.causes with
    | none => s
    | some (c, lanes, va) =>
      if s.cur.buffer then { s with cur := { s.cur with trapped := some c } }
      else match iss.spec, iss.w.g with
        | some id, .warp w => s.updWarp w (fun x => { x with
            window := x.window.map (fun o => if o.id = id then { o with deferred := o.deferred ||| bad } else o) })
        | _, _ => s.takeTrap iss.w.g { lanes := lanes, cause := c, pc := iss.pc, addr := va }

/-- Take a tag at issue (R261). -/
def State.takeTag (s : State) (g : Agent) (k : BitVec 3) : State :=
  if k = 0 then s else s.updCtx g (fun c => { c with busy := c.busy ||| BitVec.ofNat 8 (2 ^ k.toNat) })

/-- A tag taken at issue frees in the next cycle: no lane takes effect, or the word is never guarded true (R249, R261). -/
def State.passTag (s : State) (iss : Iss) : State :=
  let k := iss.x.ctl.alloc
  if k = 0 then s
  else (s.takeTag iss.w.g k).addLanding iss.w.g (iss.last + 1) iss.lanes
    [{ lane := lowest iss.lanes, dest := .tag k.toNat, val := 0 }] none

/-- Retired forms that issue are counted (R266, R291); a word that is no instruction for its agent (step 1 of R257) is none of them. -/
def State.countRetired (s : State) (w : Who) (i : Instr) : State :=
  let minor := match i with | .imad24 _ => some 0 | .barsync _ => some 1 | .frcpa _ => some 2 | .ldgx _ => some 3 | _ => none
  match minor with
  | none => s
  | some m =>
    if s.retcfg.getLsbD 0 then
      s.ownCount w.core w.asid (s.retcfg.toNat / 4096 % 2 ^ 40 * 4096 + 32 * w.asid.toNat + 8 * m)
    else s

/-- The speculation entry of an issue (R92): none where nothing is unresolved, or where lanes re-execute a deferred condition. -/
def State.openEntry (s : State) (g : Agent) (lanes : Mask) (next : W64) : Option Nat × State :=
  match g with
  | .ct _ => (none, s)
  | .warp w =>
    match s.warp w with
    | none => (none, s)
    | some x =>
      if x.speculating && x.reexec &&& lanes = 0 then
        let (id, s) := s.newId
        (some id, s.updWarp w (fun x => { x with
          window := x.window ++ [{ id := id, pc := s.cur.pc, next := next, lanes := lanes, kind := .plain }] }))
      else (none, s)

/-- Whether speculation keeps an instruction from issuing (R92): a non-speculable form, or a full window. -/
def State.specStops (s : State) (g : Agent) (lanes : Mask) (i : Instr) (n : Bool) : Bool :=
  match g with
  | .ct _ => false
  | .warp w =>
    match s.warp w with
    | none => false
    | some x => x.speculating && x.reexec &&& lanes = 0 && ((nonSpec i && (!n || isRetired i)) || decide (32 ≤ x.window.length))

/-- The causes that some lanes, or the control thread, are to raise when they execute the instruction at an address again (R98, R99, R161): those met outside handler mode only
outside it, and those that a walk under speculation found only while the instruction is speculative. A program buffer's words raise
none of them. -/
def State.owedBy (s : State) (w : Who) (act : Mask) (pc : W64) (spec : Bool) : List (Nat × Cause × W64) :=
  let due (o : Owed) : Bool := o.pc == pc && o.handler == w.handler && (!o.guess || spec)
  if act = 0 || s.cur.buffer then [] else match w.g with
    | .warp k => (match s.warp k with
      | some y => (y.unpend.filter (fun u => act.getLsbD u.1 && due u.2)).map (fun u => (u.1, u.2.cause, u.2.va))
      | none => [])
    | .ct t => (match s.team t with
      | some y => (match y.ctFault with | some o => if due o then [(0, o.cause, o.va)] else [] | none => [])
      | none => [])

/-- Lanes, or the control thread, no longer owe a cause for an instruction; with 'guess' only what was found under speculation. -/
def State.clearOwed (s : State) (g : Agent) (lanes : Mask) (pc : W64) (guess : Bool) : State :=
  match g with
  | .warp k => s.updWarp k (fun y => { y with
      unpend := y.unpend.filter (fun u => !(lanes.getLsbD u.1 && u.2.pc == pc && (!guess || u.2.guess))) })
  | .ct t => s.updTeam t (fun y => { y with ctFault := none })

/-- What an issue does to the causes that its lanes owe: those of the lanes that trap are raised (R99); the others stay, and under speculation
the lanes that are deferred keep what a reply brought (R92, R98). -/
def State.payOwed (s : State) (g : Agent) (pc : W64) (spec : Option Nat) (owed causes : List (Nat × Cause × W64)) : State :=
  if owed.isEmpty then s
  else if spec.isSome then s.clearOwed g (maskOf (owed.map (·.1))) pc true
  else match lowestCause (owed ++ causes) with
    | some (_, lanes, _) => s.clearOwed g (lanes &&& maskOf (owed.map (·.1))) pc false
    | none => s

/-- An instruction that does not issue takes no entry of the window, and its lanes still re-execute. -/
def State.unissue (s s0 : State) (g : Agent) (spec : Option Nat) : State :=
  match g with
  | .warp k =>
    let again := match s0.warp k with | some y => y.reexec | none => 0
    s.updWarp k (fun y => { y with reexec := again, window := y.window.filter (fun o => some o.id != spec) })
  | .ct _ => s

/-- Whether an instruction belongs to the uniform set (R246). -/
def isUni (i : Instr) : Bool := match sigOf i with | some g => g.uni | none => true

/-- The lanes in which an instruction takes effect (R86, R249). -/
def State.actOf (s : State) (i : Instr) (x : Args) (g : Agent) : Mask :=
  s.guarded g (isUni i) x.ctl s.cur.lanes

/-- Slot cycles that an instruction of an agent takes (R75). -/
def State.passes (s : State) (i : Instr) (g : Agent) : Nat :=
  passesOf (isUni i) (match g with | .warp k => (match s.warp k with | some y => y.width | none => 8) | .ct _ => 1)

/-- The address behind the instruction in issue. -/
def State.nextPc (s : State) : W64 := s.cur.pc + BitVec.ofNat 64 s.cur.len

/-- The speculation entry that an issue takes, and the state with it open (R92); an instruction of a program buffer takes none. -/
def State.openedBy (s : State) (g : Agent) : Option Nat × State :=
  if s.cur.buffer then (none, s) else s.openEntry g s.cur.lanes s.nextPc

/-- The issue of an instruction by an agent. -/
def State.issOf (s : State) (i : Instr) (x : Args) (w : Who) : Iss where
  w := w
  x := x
  uni := isUni i
  pc := s.cur.pc
  next := s.nextPc
  lanes := s.cur.lanes
  act := s.actOf i x w.g
  spec := (s.openedBy w.g).1
  now := s.cycle w.core
  last := s.cycle w.core + s.passes i w.g - 1

/-- The state in which the effect of an issue takes place: its speculation entry is open, and its lanes no longer re-execute. -/
def State.opened (s : State) (g : Agent) : State :=
  match g with
  | .warp k => (s.openedBy g).2.updWarp k (fun y => { y with reexec := y.reexec &&& ~~~s.cur.lanes })
  | .ct _ => (s.openedBy g).2

/-- The end of an issue whose effect took place in the lanes that owe no cause: the others raise theirs. An instruction that stalls has
not issued. -/
def State.conclude (s : State) (i : Instr) (iss : Iss) (owed : List (Nat × Cause × W64)) (e : Eff) : State :=
  if e.stalled then State.finish iss { e with st := e.st.unissue s iss.w.g iss.spec }
  else State.finish iss { e with
    st := (e.st.payOwed iss.w.g iss.pc iss.spec owed e.causes).countRetired iss.w i
    causes := owed ++ e.causes }

/-- Who issues: the resident agent that the cursor names. -/
def State.issuer (s : State) : Option Who := s.cur.agent.bind s.who

/-- The frame of an instruction: the checks of its word, the guard, and what every issue does besides the effect. -/
def State.issue (s : State) (i : Instr) (x : Args) (body : Iss → State → Eff) : Host.Outcome State Fault Refusal :=
  match s.issuer with
  | none => .fault .noIssuer
  | some w =>
    let iss := s.issOf i x w
    let s1 := s.opened w.g
    if s.specStops w.g iss.lanes i (never x.ctl) && !s.cur.buffer then
      .next (State.finish { iss with act := 0, spec := none } (.stall s))
    else match s.wordCause w.g i x s.cur.buffer with
      | some c => .next (State.finish iss (Eff.all (if c == .illegalOpcode then s1 else s1.countRetired w i) iss.lanes c 0))
      | none =>
        if never x.ctl then .next (State.finish iss { st := (s1.countRetired w i).passTag iss })
        else
          let owed := s1.owedBy w iss.act iss.pc iss.spec.isSome
          .next (s.conclude i iss owed (body { iss with act := iss.act &&& ~~~maskOf (owed.map (·.1)) } s1))

end Sys2Proof.Machine
end

