-- ==== Sys2Proof/Machine/Flags.lean ====
section
/-!
DEFINITION. FLAGS (R102, R332): the IEEE exceptions that the lanes of an instruction raise, as writes that land with its results.
The flag computations of each operation stand with the operation, in Num.lean.
-/

namespace Sys2Proof.Machine

/-- The FLAGS bits that one lane raises, as a write that is ORed in when it lands; none where the lane raises nothing. -/
def flagWrites (lane : Nat) (fl : Fl) : List RegWrite :=
  if fl = 0 then [] else [{ lane := lane, dest := .flags, val := fl.setWidth 128 }]

end Sys2Proof.Machine
end

