-- ==== Sys2Proof/Machine/Operands.lean ====
section
/-!
DEFINITION. Operands: what each operand code supplies under a type (R251 to R253), the value of an operand and how a result is
fitted and written (R252, R294), and the shape of an instruction of fixed latency (R259, R293).
-/

namespace Sys2Proof.Machine

/-! ## Constants and literals (R253) -/

/-- A small integer in a type: a constant, or a predicate's 0 or 1. -/
def constVal (t : Ty) (packed : Bool) (c : Int) : W64 :=
  match t with
  | .i64 | .n64 | .b64 => BitVec.ofInt 64 c
  | .f32 | .f64 => BitVec.ofNat 64 (iCvt t {} c).bits
  | .f16 | .bf16 =>
    let b := (iCvt t {} c).bits
    BitVec.ofNat 64 (if packed then b + b * 2 ^ 16 else b)
  | _ => (BitVec.ofInt 32 c).setWidth 64

/-- FP32 widened to FP64 (R253). -/
def widen32 (x : Nat) : Nat := ((fmtOf .f64).fout {} ((fmtOf .f32).decode x)).bits

/-- A 32-bit literal in a type. -/
def litVal (t : Ty) (x : W32) : W64 :=
  match t with
  | .i64 => sext32 x
  | .f64 => BitVec.ofNat 64 (widen32 x.toNat)
  | _ => x.setWidth 64

/-- A lane register or uniform register, or the pair that begins there. -/
def State.regPair (s : State) (g : Agent) (lane n : Nat) (mk : Nat → Dest) (pair : Bool) : W64 :=
  let lo := (s.reg g lane (mk n)).setWidth 32
  if pair then ((s.regPart g lane (mk n) (mk (n + 1))).setWidth 32 ++ lo : BitVec 64) else lo.setWidth 64

/-- The bits that an operand supplies in a lane (R251 to R253): a pair for a 64-bit type, one register otherwise. -/
def State.opnd (s : State) (g : Agent) (uni packed : Bool) (lane : Nat) (t : Ty) (o : Opnd) : W64 :=
  match o with
  | .v n => s.regPair g lane n.toNat .v (Ty.bits t == 64)
  | .s n => s.regPair g lane n.toNat .s (Ty.bits t == 64)
  | .k c => constVal t packed ((c.toNat : Int) - 16)
  | .p n => constVal t packed (if s.reg g lane (if uni then .q n.toNat else .p n.toNat) = 0 then 0 else 1)
  | .lit32 x => litVal t x
  | .lit64 x => x
  | .raw _ => 0

/-! ## Values and results (R294) -/

/-- val: the low N bits, read in the type's signedness. -/
def valOf (t : Ty) (w : W64) : Int :=
  let n := w.toNat % 2 ^ Ty.bits t
  if Ty.signed t && decide (2 ^ (Ty.bits t - 1) ≤ n) then (n : Int) - 2 ^ Ty.bits t else n

def loOf (t : Ty) : Int := if Ty.signed t then -(2 ^ (Ty.bits t - 1)) else 0
def hiOf (t : Ty) : Int := if Ty.signed t then 2 ^ (Ty.bits t - 1) - 1 else 2 ^ Ty.bits t - 1

/-- fit: with .sat, clamped; without it, modulo 2^N. -/
def fitTo (t : Ty) (sat : Bool) (r : Int) : Int := if sat then max (loOf t) (min (hiOf t) r) else r

/-- What put writes: narrow integer results are extended to 32 bits in the type's signedness (R252). -/
def putVal (t : Ty) (r : Int) : W64 :=
  match t with
  | .i8 => (BitVec.ofInt 8 r).signExtend 32 |>.setWidth 64
  | .i16 => (BitVec.ofInt 16 r).signExtend 32 |>.setWidth 64
  | .n8 | .t8 => (BitVec.ofInt 8 r).setWidth 64
  | .t4 => (BitVec.ofInt 4 r).setWidth 64
  | .n16 | .f16 | .bf16 => (BitVec.ofInt 16 r).setWidth 64
  | .i64 | .n64 | .b64 | .f64 => BitVec.ofInt 64 r
  | _ => (BitVec.ofInt 32 r).setWidth 64

/-- ext: a k-bit field, sign-extended if asked. -/
def extBits (x k : Nat) (signed : Bool) : Int :=
  let f := x % 2 ^ k
  if signed && decide (2 ^ (k - 1) ≤ f) then (f : Int) - 2 ^ k else f

/-! ## Writes -/

/-- n registers from an operand on, with the bits of a value. -/
def regWrites (o : Opnd) (lane n v : Nat) : List RegWrite :=
  match o with
  | .v m => (List.range n).map (fun k => { lane := lane, dest := .v (m.toNat + k), val := BitVec.ofNat 128 ((v >>> (32 * k)) % 2 ^ 32) })
  | .s m => (List.range n).map (fun k => { lane := lane, dest := .s (m.toNat + k), val := BitVec.ofNat 128 ((v >>> (32 * k)) % 2 ^ 32) })
  | _ => []

/-- put: a result of a type to d. -/
def putWrites (t : Ty) (o : Opnd) (lane : Nat) (v : W64) : List RegWrite := regWrites o lane (Ty.regs t) v.toNat

/-- A predicate, p in the lane set and q in the uniform set; number 7 is discarded. -/
def predWrites (uni : Bool) (lane n : Nat) (v : Bool) : List RegWrite :=
  if n = 7 then []
  else [{ lane := lane, dest := if uni then .q n else .p n, val := if v then 1 else 0 }]

/-- The predicate number of an operand. -/
def predNum (o : Opnd) : Nat := match o with | .p n => n.toNat | _ => 7

/-! ## Instructions of fixed latency -/

/-- The lanes in which the instruction takes effect: once for a uniform instruction (R249). -/
def Iss.each (iss : Iss) : List Nat :=
  if iss.uni then (if iss.act = 0 then [] else [lowest iss.lanes]) else lanesOf iss.act

/-- Results of the active lanes issue, to land at a latency. -/
def Iss.results (iss : Iss) (s : State) (lat : Nat) (ws : List RegWrite) : State :=
  s.addLanding iss.w.g (iss.last + lat) iss.act ws iss.spec

/-- An instruction whose only effect is register writes, each lane's from its own sources, at the form's latency (R293). -/
def State.fixed (s : State) (i : Instr) (x : Args) (f : Iss → State → Nat → List RegWrite) :
    Host.Outcome State Fault Refusal :=
  s.issue i x (fun iss s => { st := iss.results s (latency i) (iss.each.flatMap (f iss s)) })

/-- A source of the instruction's own type. -/
def Iss.src (iss : Iss) (s : State) (lane : Nat) (t : Ty) (o : Opnd) : W64 := s.opnd iss.w.g iss.uni false lane t o

/-- A source marked "32" (R295). -/
def Iss.src32 (iss : Iss) (s : State) (lane : Nat) (o : Opnd) : Nat := (iss.src s lane .n32 o).toNat % 2 ^ 32

/-- put(d, r) of one lane, from the values of a and b (R294). -/
def State.intOp2 (s : State) (i : Instr) (x : Args) (f : Int → Int → Int) : Host.Outcome State Fault Refusal :=
  s.fixed i x (fun iss s j => putWrites x.ty x.d j (putVal x.ty (f (valOf x.ty (iss.src s j x.ty x.a)) (valOf x.ty (iss.src s j x.ty x.b)))))

def State.intOp1 (s : State) (i : Instr) (x : Args) (f : Int → Int) : Host.Outcome State Fault Refusal :=
  s.fixed i x (fun iss s j => putWrites x.ty x.d j (putVal x.ty (f (valOf x.ty (iss.src s j x.ty x.a)))))

/-- put(d, r) of one lane, from the bits of a and b as unsigned numbers. -/
def State.bitOp2 (s : State) (i : Instr) (x : Args) (f : Nat → Nat → Nat) : Host.Outcome State Fault Refusal :=
  s.fixed i x (fun iss s j => putWrites x.ty x.d j (putVal x.ty (f (iss.src s j x.ty x.a).toNat (iss.src s j x.ty x.b).toNat)))

/-- The same where b is marked "32". -/
def State.bitOpB (s : State) (i : Instr) (x : Args) (f : Nat → Nat → Nat) : Host.Outcome State Fault Refusal :=
  s.fixed i x (fun iss s j => putWrites x.ty x.d j (putVal x.ty (f (iss.src s j x.ty x.a).toNat (iss.src32 s j x.b))))

end Sys2Proof.Machine
end

