-- ==== Sys2Proof/Machine/Integer.lean ====
section
/-!
DEFINITION. Lane class 0x0: integer arithmetic (R296 to R299), written over the values of R294 so that the uniform forms share it,
and the retired IMAD24 (R404).
-/

namespace Sys2Proof.Machine

/-! ## Values -/

def addVal (t : Ty) (sat : Bool) (a b : Int) : Int := fitTo t sat (a + b)
def subVal (t : Ty) (sat : Bool) (a b : Int) : Int := fitTo t sat (a - b)
def mulVal (t : Ty) (sat : Bool) (a b : Int) : Int := fitTo t sat (a * b)
def madVal (t : Ty) (sat : Bool) (a b c : Int) : Int := fitTo t sat (a * b + c)
def mulHigh (t : Ty) (a b : Int) : Int := a * b / 2 ^ Ty.bits t

/-- R298: base and shifted index; for .n64 a 32-bit index, sign-extended under .sx. -/
def leaVal (t : Ty) (sx : Bool) (sh a b : Nat) : Int :=
  (a : Int) + extBits b 32 (sx && Ty.bits t == 64) * 2 ^ sh

/-- R299: the sum of the products of the bytes. -/
def dot4 (signed : Bool) (a b : Nat) : Int :=
  (List.range 4).foldl (fun (r : Int) k => r + extBits (a >>> (8 * k)) 8 signed * extBits (b >>> (8 * k)) 8 signed) 0

/-- R299: the sum of the absolute differences of the elements. -/
def sadSum (e : Nat) (signed : Bool) (a b : Nat) : Int :=
  (List.range (32 / e)).foldl (fun (r : Int) k =>
    r + ((extBits (a >>> (e * k)) e signed - extBits (b >>> (e * k)) e signed).natAbs : Int)) 0

/-- .sat in MOD 4. -/
def satOf (x : Args) : Bool := modBit x.mod 4

/-! ## Meanings -/

def execIadd (x : Args) (s : State) : Host.Outcome State Fault Refusal := s.intOp2 (.iadd x) x (addVal x.ty (satOf x))
def execIsub (x : Args) (s : State) : Host.Outcome State Fault Refusal := s.intOp2 (.isub x) x (subVal x.ty (satOf x))
def execImul (x : Args) (s : State) : Host.Outcome State Fault Refusal := s.intOp2 (.imul x) x (mulVal x.ty (satOf x))
def execImulh (x : Args) (s : State) : Host.Outcome State Fault Refusal := s.intOp2 (.imulh x) x (mulHigh x.ty)

/-- Three values of the instruction's type. -/
def State.intOp3 (s : State) (i : Instr) (x : Args) (f : Int → Int → Int → Int) : Host.Outcome State Fault Refusal :=
  s.fixed i x (fun iss s j =>
    let v (o : Opnd) : Int := valOf x.ty (iss.src s j x.ty o)
    putWrites x.ty x.d j (putVal x.ty (f (v x.a) (v x.b) (v x.c))))

def execImad (x : Args) (s : State) : Host.Outcome State Fault Refusal := s.intOp3 (.imad x) x (madVal x.ty (satOf x))

/-- R296: c and d are 64 bits wide, of the type's signedness. -/
def execImadw (x : Args) (s : State) : Host.Outcome State Fault Refusal :=
  s.fixed (.imadw x) x (fun iss s j =>
    let w : Ty := if x.ty == .n32 then .n64 else .i64
    let r := madVal w (satOf x) (valOf x.ty (iss.src s j x.ty x.a)) (valOf x.ty (iss.src s j x.ty x.b)) (valOf w (iss.src s j w x.c))
    putWrites w x.d j (putVal w r))

def execIneg (x : Args) (s : State) : Host.Outcome State Fault Refusal := s.intOp1 (.ineg x) x (fun a => fitTo x.ty (satOf x) (-a))
def execIabs (x : Args) (s : State) : Host.Outcome State Fault Refusal :=
  s.intOp1 (.iabs x) x (fun a => fitTo x.ty (satOf x) (a.natAbs : Int))
def execImin (x : Args) (s : State) : Host.Outcome State Fault Refusal := s.intOp2 (.imin x) x (fun a b => min a b)
def execImax (x : Args) (s : State) : Host.Outcome State Fault Refusal := s.intOp2 (.imax x) x (fun a b => max a b)

/-- R297: the unsigned sum or difference, and its carry or borrow. -/
def carryOp (t : Ty) (sub : Bool) (a b ci : Nat) : Int × Bool :=
  let n := 2 ^ Ty.bits t
  let a := a % n
  let b := b % n
  if sub then ((a : Int) - b - ci, decide (a < b + ci)) else ((a : Int) + b + ci, decide (n ≤ a + b + ci))

def State.carry (s : State) (i : Instr) (x : Args) (sub : Bool) : Host.Outcome State Fault Refusal :=
  s.fixed i x (fun iss s j =>
    let r := carryOp x.ty sub (iss.src s j x.ty x.a).toNat (iss.src s j x.ty x.b).toNat (iss.src32 s j x.c)
    putWrites x.ty x.d j (putVal x.ty r.1) ++ predWrites false j (modBits x.mod 9 7) r.2)

def execIaddc (x : Args) (s : State) : Host.Outcome State Fault Refusal := s.carry (.iaddc x) x false
def execIsubb (x : Args) (s : State) : Host.Outcome State Fault Refusal := s.carry (.isubb x) x true

/-- R298, lane and uniform. -/
def State.leaOp (s : State) (i : Instr) (x : Args) : Host.Outcome State Fault Refusal :=
  s.fixed i x (fun iss s j =>
    putWrites x.ty x.d j (putVal x.ty
      (leaVal x.ty (modBit x.mod 9) (modBits x.mod 8 5) (iss.src s j x.ty x.a).toNat (iss.src32 s j x.b))))

def execLea (x : Args) (s : State) : Host.Outcome State Fault Refusal := s.leaOp (.lea x) x

def execIdot4 (x : Args) (s : State) : Host.Outcome State Fault Refusal :=
  s.fixed (.idot4 x) x (fun iss s j =>
    let r := valOf x.ty (iss.src s j x.ty x.c) + dot4 (Ty.signed x.ty) (iss.src s j x.ty x.a).toNat (iss.src s j x.ty x.b).toNat
    putWrites x.ty x.d j (putVal x.ty (fitTo x.ty (satOf x) r)))

def execIsad (x : Args) (s : State) : Host.Outcome State Fault Refusal :=
  s.fixed (.isad x) x (fun iss s j =>
    let w : Ty := if Ty.signed x.ty then .i32 else .n32
    let r := valOf w (iss.src s j w x.c) + sadSum (Ty.bits x.ty) (Ty.signed x.ty) (iss.src32 s j x.a) (iss.src32 s j x.b)
    putWrites w x.d j (putVal w (fitTo w (satOf x) r)))

end Sys2Proof.Machine
end

