-- ==== Sys2Proof/Machine/Logic.lean ====
section
/-!
DEFINITION. Lane class 0x1: logic, shifts, bit fields and counts (R300 to R303).
-/

namespace Sys2Proof.Machine

/-! ## Values: a and b are N-bit strings as numbers -/

/-- R301. -/
def shlVal (n a s : Nat) : Nat := if n ≤ s then 0 else a * 2 ^ s % 2 ^ n
def shrVal (n a s : Nat) : Nat := if n ≤ s then 0 else a / 2 ^ s
def sarVal (n a s : Nat) : Nat :=
  let neg := a / 2 ^ (n - 1) % 2 = 1
  if n ≤ s then (if neg then 2 ^ n - 1 else 0)
  else a / 2 ^ s + (if neg then 2 ^ n - 2 ^ (n - s) else 0)
def rotVal (n : Nat) (right : Bool) (a s : Nat) : Nat :=
  let k := if right then (n - s % n) % n else s % n
  (a * 2 ^ k % 2 ^ n) + a / 2 ^ (n - k)
def shfVal (n : Nat) (left : Bool) (a b s : Nat) : Nat :=
  let k := min s n
  if left then (a * 2 ^ n + b) * 2 ^ k / 2 ^ n % 2 ^ n else (b * 2 ^ n + a) / 2 ^ k % 2 ^ n

/-- R302. -/
def bfxVal (n : Nat) (signed : Bool) (a b : Nat) : Int :=
  let p := b % 256
  let l := min (b / 256 % 256) n
  if n ≤ p ∨ l = 0 then 0 else extBits (a / 2 ^ p) l signed
def bfiVal (n a b c : Nat) : Nat :=
  let p := c % 256
  let l := min (c / 256 % 256) n
  if n ≤ p ∨ l = 0 then a
  else
    let m := (2 ^ l - 1) * 2 ^ p % 2 ^ n
    (a &&& (2 ^ n - 1 - m)) ||| ((b * 2 ^ p) &&& m)

/-- R300: bit i of the result is bit 4·a + 2·b + c of the table. -/
def bool3Val (lut : Nat) (a b c : W64) : W64 :=
  let pick (k : Nat) : W64 :=
    if lut.testBit k then
      (if k / 4 = 1 then a else ~~~a) &&& (if k / 2 % 2 = 1 then b else ~~~b) &&& (if k % 2 = 1 then c else ~~~c)
    else 0
  pick 0 ||| pick 1 ||| pick 2 ||| pick 3 ||| pick 4 ||| pick 5 ||| pick 6 ||| pick 7

def popCount (n a : Nat) : Nat := (List.range n).foldl (fun k i => if a.testBit i then k + 1 else k) 0
def trailZeros (n a : Nat) : Nat := ((List.range n).find? (fun i => a.testBit i)).getD n
def revBits (n a : Nat) : Nat := (List.range n).foldl (fun r i => if a.testBit (n - 1 - i) then r + 2 ^ i else r) 0

/-- R303. -/
def bytePerm (a b c : Nat) : Nat :=
  let src := a + b * 2 ^ 32
  (List.range 4).foldl (fun r k =>
    let n := c / 2 ^ (4 * k) % 16
    let v := src / 2 ^ (8 * (n % 8)) % 256
    r + (if n < 8 then v else if 128 ≤ v then 255 else 0) * 2 ^ (8 * k)) 0

/-! ## Meanings -/

def execAnd (x : Args) (s : State) : Host.Outcome State Fault Refusal := s.bitOp2 (.and x) x (fun a b => a &&& b)
def execOr (x : Args) (s : State) : Host.Outcome State Fault Refusal := s.bitOp2 (.or x) x (fun a b => a ||| b)
def execXor (x : Args) (s : State) : Host.Outcome State Fault Refusal := s.bitOp2 (.xor x) x (fun a b => a ^^^ b)
def execAndn (x : Args) (s : State) : Host.Outcome State Fault Refusal :=
  s.bitOp2 (.andn x) x (fun a b => a &&& (2 ^ 64 - 1 - b))

def execBool3 (x : Args) (s : State) : Host.Outcome State Fault Refusal :=
  s.fixed (.bool3 x) x (fun iss s j =>
    let v (o : Opnd) : W64 := iss.src s j x.ty o
    putWrites x.ty x.d j (putVal x.ty ((bool3Val (modBits x.mod 7 0) (v x.a) (v x.b) (v x.c)).toNat : Int)))

def execShl (x : Args) (s : State) : Host.Outcome State Fault Refusal := s.bitOpB (.shl x) x (shlVal (Ty.bits x.ty))
def execShr (x : Args) (s : State) : Host.Outcome State Fault Refusal := s.bitOpB (.shr x) x (shrVal (Ty.bits x.ty))
def execSar (x : Args) (s : State) : Host.Outcome State Fault Refusal := s.bitOpB (.sar x) x (sarVal (Ty.bits x.ty))
def execRot (x : Args) (s : State) : Host.Outcome State Fault Refusal :=
  s.bitOpB (.rot x) x (rotVal (Ty.bits x.ty) (modBit x.mod 5))

def execShf (x : Args) (s : State) : Host.Outcome State Fault Refusal :=
  s.fixed (.shf x) x (fun iss s j =>
    let r := shfVal (Ty.bits x.ty) (modBit x.mod 5) (iss.src s j x.ty x.a).toNat (iss.src s j x.ty x.b).toNat (iss.src32 s j x.c)
    putWrites x.ty x.d j (putVal x.ty (r : Int)))

/-- R302, lane and uniform. -/
def State.bfxOp (s : State) (i : Instr) (x : Args) : Host.Outcome State Fault Refusal :=
  s.fixed i x (fun iss s j =>
    putWrites x.ty x.d j (putVal x.ty
      (bfxVal (Ty.bits x.ty) (Ty.signed x.ty) (iss.src s j x.ty x.a).toNat (iss.src32 s j x.b))))

def execBfx (x : Args) (s : State) : Host.Outcome State Fault Refusal := s.bfxOp (.bfx x) x

def execBfi (x : Args) (s : State) : Host.Outcome State Fault Refusal :=
  s.fixed (.bfi x) x (fun iss s j =>
    let r := bfiVal (Ty.bits x.ty) (iss.src s j x.ty x.a).toNat (iss.src s j x.ty x.b).toNat (iss.src32 s j x.c)
    putWrites x.ty x.d j (putVal x.ty (r : Int)))

/-- A count of a's bits, to one 32-bit register (R300). -/
def State.countOp (s : State) (i : Instr) (x : Args) (f : Nat → Nat → Nat) : Host.Outcome State Fault Refusal :=
  s.fixed i x (fun iss s j => regWrites x.d j 1 (f (Ty.bits x.ty) (iss.src s j x.ty x.a).toNat))

def execPopc (x : Args) (s : State) : Host.Outcome State Fault Refusal := s.countOp (.popc x) x popCount
def execClz (x : Args) (s : State) : Host.Outcome State Fault Refusal := s.countOp (.clz x) x leadZeros
def execCtz (x : Args) (s : State) : Host.Outcome State Fault Refusal := s.countOp (.ctz x) x trailZeros

def execBrev (x : Args) (s : State) : Host.Outcome State Fault Refusal :=
  s.fixed (.brev x) x (fun iss s j =>
    putWrites x.ty x.d j (putVal x.ty (revBits (Ty.bits x.ty) (iss.src s j x.ty x.a).toNat : Int)))

def execBytep (x : Args) (s : State) : Host.Outcome State Fault Refusal :=
  s.fixed (.bytep x) x (fun iss s j =>
    putWrites .b32 x.d j (putVal .b32 (bytePerm (iss.src32 s j x.a) (iss.src32 s j x.b) (iss.src32 s j x.c) : Int)))

end Sys2Proof.Machine
end

