-- ==== Sys2Proof/Machine/Compare.lean ====
section
/-!
DEFINITION. Lane class 0x2, first part: comparison, selection and moves (R304, R305).
-/

namespace Sys2Proof.Machine

/-- R304: a condition on two integers. -/
def intCond (cond : Nat) (a b : Int) : Bool :=
  match cond with
  | 0 => decide (a = b) | 1 => decide (a ≠ b) | 2 => decide (a < b) | 3 => decide (a ≤ b) | 4 => decide (b < a) | _ => decide (b ≤ a)

/-- R304: equality of numbers, with +0 = −0. -/
def Val.same (a b : Val) : Bool := (a.isZero && b.isZero) || (!a.less b && !b.less a)

/-- R304: a condition on two floats, and whether it is invalid on NaN. -/
def floatCond (cond : Nat) (a b : Val) : Bool × Fl :=
  if a.isNan || b.isNan then
    match cond with
    | 1 => (true, 0) | 7 => (true, 0) | 0 => (false, 0) | 6 => (false, 0) | _ => (false, flNV)
  else
    let lt := a.less b && !(a.same b)
    let gt := b.less a && !(a.same b)
    match cond with
    | 0 => (a.same b, 0) | 1 => (!(a.same b), 0) | 2 => (lt, 0) | 3 => (!gt, 0) | 4 => (gt, 0) | 5 => (!lt, 0)
    | 6 => (true, 0) | _ => (false, 0)

/-- R304: the combine operation with the predicate that SC names. -/
def combine (op : Nat) (t pc : Bool) : Bool :=
  match op with | 0 => t | 1 => t && pc | 2 => t || pc | _ => t != pc

/-- R304, lane and uniform. -/
def State.cmpOp (s : State) (i : Instr) (x : Args) : Host.Outcome State Fault Refusal :=
  s.fixed i x (fun iss s j =>
    let t := intCond (modBits x.mod 7 5) (valOf x.ty (iss.src s j x.ty x.a)) (valOf x.ty (iss.src s j x.ty x.b))
    let op := modBits x.mod 9 8
    let pc := op != 0 && iss.src32 s j x.c != 0
    predWrites iss.uni j (predNum x.d) (combine op t pc))

def execIcmp (x : Args) (s : State) : Host.Outcome State Fault Refusal := s.cmpOp (.icmp x) x

def execFcmp (x : Args) (s : State) : Host.Outcome State Fault Refusal :=
  s.fixed (.fcmp x) x (fun iss s j =>
    let f := fmtOf x.ty
    let (a, fa) := f.fin (modBit x.mod 3) ((iss.src s j x.ty x.a).toNat % 2 ^ Ty.bits x.ty)
    let (b, fb) := f.fin (modBit x.mod 3) ((iss.src s j x.ty x.b).toNat % 2 ^ Ty.bits x.ty)
    let (t, fl) := floatCond (modBits x.mod 7 5) a b
    let op := modBits x.mod 9 8
    let pc := op != 0 && iss.src32 s j x.c != 0
    predWrites false j (predNum x.d) (combine op t pc) ++ flagWrites j (fa ||| fb ||| fl))

/-- R305, lane and uniform. -/
def State.selOp (s : State) (i : Instr) (x : Args) : Host.Outcome State Fault Refusal :=
  s.fixed i x (fun iss s j =>
    putWrites x.ty x.d j (if iss.src32 s j x.c = 0 then iss.src s j x.ty x.b else iss.src s j x.ty x.a))

def execSel (x : Args) (s : State) : Host.Outcome State Fault Refusal := s.selOp (.sel x) x

def execPset (x : Args) (s : State) : Host.Outcome State Fault Refusal :=
  s.fixed (.pset x) x (fun iss s j =>
    let k := (if iss.src32 s j x.a = 0 then 0 else 2) + (if iss.src32 s j x.b = 0 then 0 else 1)
    predWrites false j (predNum x.d) ((modBits x.mod 8 5).testBit k))

def execPmov (x : Args) (s : State) : Host.Outcome State Fault Refusal :=
  s.fixed (.pmov x) x (fun iss s j =>
    regWrites x.d j 1 ((List.range 8).foldl (fun r k => r + (if s.reg iss.w.g j (.p k) = 0 then 0 else 2 ^ k)) 0))

def execPmovUnpack (x : Args) (s : State) : Host.Outcome State Fault Refusal :=
  s.fixed (.pmovUnpack x) x (fun iss s j =>
    let a := iss.src32 s j x.a
    (List.range 7).flatMap (fun k => if modBit x.mod k then predWrites false j k (a.testBit k) else []))

/-- R305, lane and uniform. -/
def State.movOp (s : State) (i : Instr) (x : Args) : Host.Outcome State Fault Refusal :=
  s.fixed i x (fun iss s j => putWrites x.ty x.d j (iss.src s j x.ty x.a))

def execMov (x : Args) (s : State) : Host.Outcome State Fault Refusal := s.movOp (.mov x) x

end Sys2Proof.Machine
end

