-- ==== Sys2Proof/Machine/CrossLane.lean ====
section
/-!
DEFINITION. Lane class 0x2, second part: the cross-lane instructions SHFL, VOTE, MATCH, REDUX and SCAN (R306 to R310). The
participating lanes are the active lanes of the issue.
-/

namespace Sys2Proof.Machine

/-- The width of the issuing warp. -/
def State.widthOf (s : State) (g : Agent) : Nat :=
  match g with
  | .warp w => match s.warp w with | some x => x.width | none => 8
  | .ct _ => 1

/-- Segment width (R307). -/
def segOf (g w : Nat) : Nat := min (2 ^ (g + 3)) w

/-- R307: the source lane. -/
def shflLane (mode seg i : Nat) (b : Nat) : Option Nat :=
  let base := i - i % seg
  let sel : Int := extBits b 32 true
  match mode with
  | 0 => if 0 ≤ sel ∧ sel < seg then some (base + sel.toNat) else none
  | 1 =>
    let t := (i : Int) + sel
    if (base : Int) ≤ t ∧ t < base + seg then some t.toNat else none
  | 2 => some (base + ((((i : Int) - base + sel) % seg).toNat))
  | _ => some (i ^^^ (b % seg))

def execShfl (x : Args) (s : State) : Host.Outcome State Fault Refusal :=
  s.fixed (.shfl x) x (fun iss s i =>
    let seg := segOf (modBits x.mod 4 2) (s.widthOf iss.w.g)
    let pick (v : W64) (ok : Bool) : List RegWrite := putWrites x.ty x.d i v ++ predWrites false i (modBits x.mod 9 7) ok
    match shflLane (modBits x.mod 6 5) seg i (iss.src32 s i x.b) with
    | some j => if iss.act.getLsbD j then pick (iss.src s j x.ty x.a) true else pick (iss.src s i x.ty x.c) false
    | none => pick (iss.src s i x.ty x.c) false)

/-- The mask layout of R308: ceil(w/32) registers. -/
def maskWrites (o : Opnd) (lane w : Nat) (m : Mask) : List RegWrite := regWrites o lane ((w + 31) / 32) m.toNat

def execVote (x : Args) (s : State) : Host.Outcome State Fault Refusal :=
  s.fixed (.vote x) x (fun iss s i =>
    let w := s.widthOf iss.w.g
    let part := lanesOf iss.act
    let yes := part.filter (fun j => iss.src32 s j x.a != 0)
    let all := decide (yes.length = part.length)
    let (ws, p) : List RegWrite × Bool := match modBits x.mod 6 5 with
      | 0 => (maskWrites x.d i w (maskOf yes), !yes.isEmpty)
      | 1 => (regWrites x.d i 1 yes.length, all)
      | 2 => (regWrites x.d i 1 part.length, all || yes.isEmpty)
      | _ => (regWrites x.d i 1 (yes.headD w), !yes.isEmpty)
    ws ++ predWrites false i (modBits x.mod 9 7) p)

def execMatch_ (x : Args) (s : State) : Host.Outcome State Fault Refusal :=
  s.fixed (.match_ x) x (fun iss s i =>
    let v (j : Nat) : W64 := iss.src s j x.ty x.a
    let same := (lanesOf iss.act).filter (fun j => v j == v i)
    let (ws, p) : List RegWrite × Bool :=
      if modBit x.mod 5 then
        (maskWrites x.d i (s.widthOf iss.w.g) (maskOf same), decide (same.length = (lanesOf iss.act).length))
      else (regWrites x.d i 1 (same.headD i), decide (same.headD i = i))
    ws ++ predWrites false i (modBits x.mod 9 7) p)

/-! ## Folds (R310) -/

/-- One step of a fold. -/
def foldStep (t : Ty) (op : Nat) (m : FMod) (a b : W64) : W64 × Fl :=
  if t == .f32 then
    let r := match op with
      | 0 => fAdd (fmtOf .f32) m a.toNat b.toNat
      | 1 => fMinMax (fmtOf .f32) m.ftz false a.toNat b.toNat
      | _ => fMinMax (fmtOf .f32) m.ftz true a.toNat b.toNat
    (BitVec.ofNat 64 r.bits, r.fl)
  else
    let i (f : Int → Int → Int) : W64 := putVal t (f (valOf t a) (valOf t b))
    match op with
    | 0 => (i (fun a b => a + b), 0)
    | 1 => (i (fun a b => min a b), 0)
    | 2 => (i (fun a b => max a b), 0)
    | 3 => (a &&& b, 0)
    | 4 => (a ||| b, 0)
    | _ => (a ^^^ b, 0)

/-- The identity of a fold. -/
def foldUnit (t : Ty) (op : Nat) : W64 :=
  match op with
  | 1 => if t == .f32 then BitVec.ofNat 64 ((fmtOf .f32).inf false) else putVal t (hiOf t)
  | 2 => if t == .f32 then BitVec.ofNat 64 ((fmtOf .f32).inf true) else putVal t (loOf t)
  | 3 => if Ty.bits t = 64 then BitVec.allOnes 64 else 0xFFFFFFFF
  | _ => 0

/-- A value that a fold hands on as it is: a NaN as the canonical one (R206), under .ftz a subnormal as zero (R208). -/
def foldLone (t : Ty) (m : FMod) (v : W64) : W64 × Fl :=
  if t = .f32 then
    let f := fmtOf .f32
    let bits := v.toNat % 2 ^ 32
    let fl := (f.fin m.ftz bits).2
    match f.decode bits with
    | .nan => (BitVec.ofNat 64 f.nan, fl)
    | _ => if m.ftz && f.subnormal bits then (BitVec.ofNat 64 (bits / f.sign % 2 * f.sign), fl) else (v, fl)
  else (v, 0)

/-- The fold of values in order. -/
def foldVals (t : Ty) (op : Nat) (m : FMod) (vs : List W64) : W64 × Fl :=
  match vs with
  | [] => (foldUnit t op, 0)
  | [v] => foldLone t m v
  | v :: r => r.foldl (fun a b => let k := foldStep t op m a.1 b; (k.1, a.2 ||| k.2)) (v, 0)

/-- The modifiers of a float instruction in MOD 4:0 (R330). -/
def fmodOf (m : BitVec 10) : FMod := { mode := modBits m 2 0, ftz := modBit m 3, sat := modBit m 4 }

/-- REDUX and SCAN: 'upTo' picks the lanes whose values a lane folds. -/
def State.foldOp (s : State) (i : Instr) (x : Args) (upTo : Nat → Nat → Bool) : Host.Outcome State Fault Refusal :=
  s.fixed i x (fun iss s j =>
    let seg := segOf (rawOf x.b % 8) (s.widthOf iss.w.g)
    let lanes := (lanesOf iss.act).filter (fun k => k / seg == j / seg && upTo j k)
    let r := foldVals x.ty (modBits x.mod 7 5) { fmodOf x.mod with sat := false } (lanes.map (fun k => iss.src s k x.ty x.a))
    putWrites x.ty x.d j r.1 ++ flagWrites j r.2)

def execRedux (x : Args) (s : State) : Host.Outcome State Fault Refusal := s.foldOp (.redux x) x (fun _ _ => true)
def execScan (x : Args) (s : State) : Host.Outcome State Fault Refusal :=
  s.foldOp (.scan x) x (fun j k => if modBit x.mod 8 then decide (k < j) else decide (k ≤ j))

end Sys2Proof.Machine
end

