-- ==== Sys2Proof/Machine/Float.lean ====
section
/-!
DEFINITION. Lane class 0x3: floating point (R328 to R340); the first eight minors of lane class 0x4, the transcendental instructions
(R341, R342), which are results of variable latency (R261); and the conversions (R343 to R347).
-/

namespace Sys2Proof.Machine

/-- The bits of a scalar source in its type (R328). -/
def Iss.fsrc (iss : Iss) (s : State) (lane : Nat) (t : Ty) (o : Opnd) : Nat := (iss.src s lane t o).toNat % 2 ^ Ty.bits t

/-- A result with its flags in one lane. -/
def resWrites (t : Ty) (o : Opnd) (lane : Nat) (r : Res) : List RegWrite :=
  putWrites t o lane (BitVec.ofNat 64 r.bits) ++ flagWrites lane r.fl

/-- A float instruction on one, two or three sources of its type. -/
def State.float1 (s : State) (i : Instr) (x : Args) (f : Nat → Res) : Host.Outcome State Fault Refusal :=
  s.fixed i x (fun iss s j => resWrites x.ty x.d j (f (iss.fsrc s j x.ty x.a)))

def State.float2 (s : State) (i : Instr) (x : Args) (f : Nat → Nat → Res) : Host.Outcome State Fault Refusal :=
  s.fixed i x (fun iss s j => resWrites x.ty x.d j (f (iss.fsrc s j x.ty x.a) (iss.fsrc s j x.ty x.b)))

def State.float3 (s : State) (i : Instr) (x : Args) (f : Nat → Nat → Nat → Res) : Host.Outcome State Fault Refusal :=
  s.fixed i x (fun iss s j =>
    resWrites x.ty x.d j (f (iss.fsrc s j x.ty x.a) (iss.fsrc s j x.ty x.b) (iss.fsrc s j x.ty x.c)))

def execFadd (x : Args) (s : State) : Host.Outcome State Fault Refusal := s.float2 (.fadd x) x (fAdd (fmtOf x.ty) (fmodOf x.mod))
def execFsub (x : Args) (s : State) : Host.Outcome State Fault Refusal := s.float2 (.fsub x) x (fSub (fmtOf x.ty) (fmodOf x.mod))
def execFmul (x : Args) (s : State) : Host.Outcome State Fault Refusal := s.float2 (.fmul x) x (fMul (fmtOf x.ty) (fmodOf x.mod))
def execFfma (x : Args) (s : State) : Host.Outcome State Fault Refusal := s.float3 (.ffma x) x (fFma (fmtOf x.ty) (fmodOf x.mod))
def execFmin (x : Args) (s : State) : Host.Outcome State Fault Refusal :=
  s.float2 (.fmin x) x (fMinMax (fmtOf x.ty) (modBit x.mod 3) false)
def execFmax (x : Args) (s : State) : Host.Outcome State Fault Refusal :=
  s.float2 (.fmax x) x (fMinMax (fmtOf x.ty) (modBit x.mod 3) true)
def execFrnd (x : Args) (s : State) : Host.Outcome State Fault Refusal := s.float1 (.frnd x) x (fRnd (fmtOf x.ty) (fmodOf x.mod))

def execFscale (x : Args) (s : State) : Host.Outcome State Fault Refusal :=
  s.fixed (.fscale x) x (fun iss s j =>
    resWrites x.ty x.d j (fScale (fmtOf x.ty) (fmodOf x.mod) (iss.fsrc s j x.ty x.a) (extBits (iss.src32 s j x.b) 32 true)))

def execFclass (x : Args) (s : State) : Host.Outcome State Fault Refusal :=
  s.fixed (.fclass x) x (fun iss s j => regWrites x.d j 1 (fClass (fmtOf x.ty) (iss.fsrc s j x.ty x.a)))

/-! ## Packed forms (R339, R340) -/

/-- A packed source: two elements of 16 bits. -/
def Iss.psrc (iss : Iss) (s : State) (lane : Nat) (t : Ty) (o : Opnd) : Nat × Nat :=
  let w := (s.opnd iss.w.g iss.uni true lane t o).toNat
  (w % 2 ^ 16, w / 2 ^ 16 % 2 ^ 16)

/-- Both halves of d, with the flags of both elements. -/
def packWrites (o : Opnd) (lane : Nat) (r0 r1 : Res) : List RegWrite :=
  regWrites o lane 1 (r0.bits + r1.bits * 2 ^ 16) ++ flagWrites lane (r0.fl ||| r1.fl)

def State.packed2 (s : State) (i : Instr) (x : Args) (f : Nat → Nat → Res) : Host.Outcome State Fault Refusal :=
  s.fixed i x (fun iss s j =>
    let a := iss.psrc s j x.ty x.a
    let b := iss.psrc s j x.ty x.b
    packWrites x.d j (f a.1 b.1) (f a.2 b.2))

def execFdot2 (x : Args) (s : State) : Host.Outcome State Fault Refusal :=
  s.fixed (.fdot2 x) x (fun iss s j =>
    let a := iss.psrc s j x.ty x.a
    let b := iss.psrc s j x.ty x.b
    resWrites .f32 x.d j (fDot2 (fmtOf x.ty) (fmodOf x.mod) a.1 b.1 a.2 b.2 (iss.fsrc s j .f32 x.c)))

def execPadd (x : Args) (s : State) : Host.Outcome State Fault Refusal := s.packed2 (.padd x) x (fAdd (fmtOf x.ty) (fmodOf x.mod))
def execPmul (x : Args) (s : State) : Host.Outcome State Fault Refusal := s.packed2 (.pmul x) x (fMul (fmtOf x.ty) (fmodOf x.mod))

def execPfma (x : Args) (s : State) : Host.Outcome State Fault Refusal :=
  s.fixed (.pfma x) x (fun iss s j =>
    let a := iss.psrc s j x.ty x.a
    let b := iss.psrc s j x.ty x.b
    let c := iss.psrc s j x.ty x.c
    let f := fFma (fmtOf x.ty) (fmodOf x.mod)
    packWrites x.d j (f a.1 b.1 c.1) (f a.2 b.2 c.2))

def execPmin (x : Args) (s : State) : Host.Outcome State Fault Refusal :=
  s.packed2 (.pmin x) x (fMinMax (fmtOf x.ty) (modBit x.mod 3) false)
def execPmax (x : Args) (s : State) : Host.Outcome State Fault Refusal :=
  s.packed2 (.pmax x) x (fMinMax (fmtOf x.ty) (modBit x.mod 3) true)

/-! ## Results of variable latency (R261) -/

/-- Take the tag and the counter of an instruction and begin the result that TAG_FREE will write. -/
def State.beginFlight (s : State) (iss : Iss) (f : Flight) : State :=
  let k := iss.x.ctl.alloc
  (s.takeTag iss.w.g k).updCtx iss.w.g (fun c => { c with
    flights := c.flights ++ [{ f with tag := k.toNat, pc := iss.pc, lanes := iss.act, spec := iss.spec }]
    ld := if f.cnt == .ld then c.ld + 1 else c.ld
    st := if f.cnt == .st then c.st + 1 else c.st })

/-- A result of variable latency whose writes are known at issue. With no active lane the tag frees in the next cycle. Predicates
among the writes are pending until the tag frees (R90). -/
def State.later (s : State) (iss : Iss) (ws : List RegWrite) : State :=
  if iss.act = 0 then s.passTag iss
  else
    let (id, s) := s.newId
    let s := s.beginFlight iss { id := id, tag := 0, cnt := .none, pc := 0, lanes := 0, form := .ready, writes := ws }
    match iss.w.g with
    | .warp w => s.updWarp w (fun x => x.pendWrite id iss.spec ws)
    | .ct _ => s

/-! ## Transcendental instructions (R329, R341, R342) -/

/-- The slot's transcendental unit is free; 'busy' cycles are then taken. -/
def State.takeUnit (s : State) (iss : Iss) (f64 : Bool) : Option State :=
  match iss.w.g with
  | .ct _ => some s
  | .warp w =>
    match s.warp w with
    | none => some s
    | some x =>
      let c := s.core x.core
      if iss.now < Tab.get 0 c.tuFree x.slot then none
      else
        let busy := max 1 (x.width / (if f64 then 2 else 8))
        some (s.setCore x.core { c with tuFree := Tab.set c.tuFree x.slot (iss.now + busy) })

/-- The transcendental unit of the agent's slot is busy: a transcendental instruction is not ready (R329). -/
def State.unitBusy (s : State) (g : Agent) : Bool :=
  match g with
  | .ct _ => false
  | .warp w => match s.warp w with | some x => decide (s.cycle x.core < Tab.get 0 (s.core x.core).tuFree x.slot) | none => false

def State.transOp (s : State) (i : Instr) (x : Args) (f : Nat → Res) : Host.Outcome State Fault Refusal :=
  s.issue i x (fun iss s =>
    if s.unitBusy iss.w.g then .stall s
    else if iss.act = 0 then { st := s.passTag iss }
    else match s.takeUnit iss (x.ty == .f64) with
      | none => .stall s
      | some s1 => { st := s1.later iss (iss.each.flatMap (fun j => resWrites x.ty x.d j (f (iss.fsrc s j x.ty x.a)))) })

def execFrcp (x : Args) (s : State) : Host.Outcome State Fault Refusal := s.transOp (.frcp x) x (fRcp (fmtOf x.ty) (fmodOf x.mod))
def execFsqrt (x : Args) (s : State) : Host.Outcome State Fault Refusal := s.transOp (.fsqrt x) x (fSqrt (fmtOf x.ty) (fmodOf x.mod))
def execFrsq (x : Args) (s : State) : Host.Outcome State Fault Refusal := s.transOp (.frsq x) x (approxOp 1 x.ty (fmodOf x.mod))
def execFexp2 (x : Args) (s : State) : Host.Outcome State Fault Refusal := s.transOp (.fexp2 x) x (approxOp 3 x.ty (fmodOf x.mod))
def execFlog2 (x : Args) (s : State) : Host.Outcome State Fault Refusal := s.transOp (.flog2 x) x (approxOp 4 x.ty (fmodOf x.mod))
def execFsin (x : Args) (s : State) : Host.Outcome State Fault Refusal := s.transOp (.fsin x) x (approxOp 5 x.ty (fmodOf x.mod))
def execFcos (x : Args) (s : State) : Host.Outcome State Fault Refusal := s.transOp (.fcos x) x (approxOp 6 x.ty (fmodOf x.mod))
def execFtanh (x : Args) (s : State) : Host.Outcome State Fault Refusal := s.transOp (.ftanh x) x (approxOp 7 x.ty (fmodOf x.mod))

/-! ## Conversions (R343 to R347) -/

def execFcvt (x : Args) (s : State) : Host.Outcome State Fault Refusal :=
  s.fixed (.fcvt x) x (fun iss s j =>
    resWrites (cvtDst x) x.d j (fCvt x.ty (cvtDst x) (fmodOf x.mod) (iss.fsrc s j x.ty x.a)))

def execIcvt (x : Args) (s : State) : Host.Outcome State Fault Refusal :=
  s.fixed (.icvt x) x (fun iss s j =>
    resWrites (cvtDst x) x.d j (iCvt (cvtDst x) (fmodOf x.mod) (valOf x.ty (iss.src s j x.ty x.a))))

def execFcvti (x : Args) (s : State) : Host.Outcome State Fault Refusal :=
  s.fixed (.fcvti x) x (fun iss s j =>
    let d := cvtDst x
    let r := fCvtI x.ty (fmodOf x.mod) (loOf d) (hiOf d) (iss.fsrc s j x.ty x.a)
    putWrites d x.d j (putVal d r.1) ++ flagWrites j r.2)

/-- R346: where the converted values go. -/
def packPlace (dst : Ty) (k c ca cb : Nat) : Nat :=
  let put (c at_ n v : Nat) : Nat := c - (c / 2 ^ at_ % 2 ^ n) * 2 ^ at_ + v * 2 ^ at_
  match dst with
  | .t8 => put (put c (16 * k) 8 ca) (16 * k + 8) 8 cb
  | .t4 => put c (8 * k) 8 (ca + cb * 16)
  | _ => ca + cb * 2 ^ 16

def execPack (x : Args) (s : State) : Host.Outcome State Fault Refusal :=
  s.fixed (.pack x) x (fun iss s j =>
    let d := packDst x.mod
    let ca := fCvt x.ty d (fmodOf x.mod) (iss.fsrc s j x.ty x.a)
    let cb := fCvt x.ty d (fmodOf x.mod) (iss.fsrc s j x.ty x.b)
    let c := if d == .t8 || d == .t4 then iss.src32 s j x.c else 0
    regWrites x.d j 1 (packPlace d (modBits x.mod 8 7) c ca.bits cb.bits) ++ flagWrites j (ca.fl ||| cb.fl))

def execUnpk (x : Args) (s : State) : Host.Outcome State Fault Refusal :=
  s.fixed (.unpk x) x (fun iss s j =>
    let d := unpkDst x.mod
    let k := modBits x.mod 8 7
    let a := (s.opnd iss.w.g iss.uni true j x.ty x.a).toNat
    let elem (n : Nat) : Res := fCvt x.ty d (fmodOf x.mod) (a / 2 ^ (Ty.bits x.ty * n) % 2 ^ Ty.bits x.ty)
    let r0 := elem (2 * k)
    let r1 := elem (2 * k + 1)
    let v := if d == .f32 then r0.bits + r1.bits * 2 ^ 32 else r0.bits + r1.bits * 2 ^ 16
    regWrites x.d j (if d == .f32 then 2 else 1) v ++ flagWrites j (r0.fl ||| r1.fl))

end Sys2Proof.Machine
end

