-- ==== Sys2Proof/Machine/Uniform.lean ====
section
/-!
DEFINITION. Uniform classes 0x0 and 0x1 without the memory instructions (R320 to R323): the lane-set effects on uniform registers,
once for the warp or control thread.
-/

namespace Sys2Proof.Machine

def execUadd (x : Args) (s : State) : Host.Outcome State Fault Refusal := s.intOp2 (.uadd x) x (addVal x.ty (satOf x))
def execUsub (x : Args) (s : State) : Host.Outcome State Fault Refusal := s.intOp2 (.usub x) x (subVal x.ty (satOf x))
def execUmul (x : Args) (s : State) : Host.Outcome State Fault Refusal := s.intOp2 (.umul x) x (mulVal x.ty (satOf x))
def execUmad (x : Args) (s : State) : Host.Outcome State Fault Refusal := s.intOp3 (.umad x) x (madVal x.ty (satOf x))
def execUmin (x : Args) (s : State) : Host.Outcome State Fault Refusal := s.intOp2 (.umin x) x (fun a b => min a b)
def execUmax (x : Args) (s : State) : Host.Outcome State Fault Refusal := s.intOp2 (.umax x) x (fun a b => max a b)
def execUand (x : Args) (s : State) : Host.Outcome State Fault Refusal := s.bitOp2 (.uand x) x (fun a b => a &&& b)
def execUor (x : Args) (s : State) : Host.Outcome State Fault Refusal := s.bitOp2 (.uor x) x (fun a b => a ||| b)
def execUxor (x : Args) (s : State) : Host.Outcome State Fault Refusal := s.bitOp2 (.uxor x) x (fun a b => a ^^^ b)
def execUshl (x : Args) (s : State) : Host.Outcome State Fault Refusal := s.bitOpB (.ushl x) x (shlVal (Ty.bits x.ty))
def execUshr (x : Args) (s : State) : Host.Outcome State Fault Refusal := s.bitOpB (.ushr x) x (shrVal (Ty.bits x.ty))
def execUsar (x : Args) (s : State) : Host.Outcome State Fault Refusal := s.bitOpB (.usar x) x (sarVal (Ty.bits x.ty))
def execUbfx (x : Args) (s : State) : Host.Outcome State Fault Refusal := s.bfxOp (.ubfx x) x
def execUlea (x : Args) (s : State) : Host.Outcome State Fault Refusal := s.leaOp (.ulea x) x
def execUcmp (x : Args) (s : State) : Host.Outcome State Fault Refusal := s.cmpOp (.ucmp x) x
def execUsel (x : Args) (s : State) : Host.Outcome State Fault Refusal := s.selOp (.usel x) x
def execUmov (x : Args) (s : State) : Host.Outcome State Fault Refusal := s.movOp (.umov x) x

/-- R323: only an executing lane is read. -/
def execUfrom (x : Args) (s : State) : Host.Outcome State Fault Refusal :=
  s.fixed (.ufrom x) x (fun iss s j =>
    let lane := if modBit x.mod 5 then lowest iss.lanes else iss.src32 s j x.b
    let ok := decide (lane < 128) && iss.lanes.getLsbD lane
    let v := if ok then s.opnd iss.w.g false false lane x.ty x.a else 0
    putWrites x.ty x.d j v ++ predWrites true j (modBits x.mod 9 7) ok)

end Sys2Proof.Machine
end

