-- ==== Sys2Proof/Machine/LaneAccess.lean ====
section
/-!
DEFINITION. How an instruction reaches memory: addresses (R350), the outcome of each lane's access (R97, R99, R156, R157, R161), the
gates of releases and acquires (R115, R135, R145), held stores seen by speculative loads (R92), and the element formats of the format
table (R216 to R219).
-/

namespace Sys2Proof.Machine

/-! ## Addresses (R350) -/

/-- The lanes that answer for a lane's access: every executing lane, for a uniform instruction. -/
def Iss.blame (iss : Iss) (lane : Nat) : Mask := if iss.uni then iss.lanes else laneBit lane

def Iss.causes (iss : Iss) (lane : Nat) (c : Cause) (va : W64) : List (Nat × Cause × W64) :=
  (lanesOf (iss.blame lane)).map (fun j => (j, c, va))

/-- A global address: base, and an offset if the form has one. -/
def Iss.globalVa (iss : Iss) (s : State) (lane : Nat) (a : Opnd) (off : Option Opnd) : W64 :=
  let o := match off with | some b => sext32 (BitVec.ofNat 32 (iss.src32 s lane b)) | none => 0
  iss.src s lane .n64 a + o

/-- A scratchpad offset. -/
def Iss.scratchOff (iss : Iss) (s : State) (lane : Nat) (a : Opnd) (off : Option Opnd) : Nat :=
  let o := match off with | some b => iss.src32 s lane b | none => 0
  (iss.src32 s lane a + o) % 2 ^ 32

/-- What an access of one lane comes to. 'fills' are lines of mapped regions to touch first: region, line, and the piece of global
memory that holds it. -/
inductive LaneRes where
  | glob (va : W64) (segs : List Seg)
  | sp (team off : Nat) (fills : List (Nat × Nat × Seg))
  | trap (c : Cause) (va : W64)
  | serve (c : Cause) (va : W64)
  | miss (va : W64)
deriving DecidableEq, Repr

/-- A global access. -/
def State.globalRes (s : State) (w : Who) (va : W64) (n : Nat) (access : Access) (atom : Option AtomOp) : LaneRes :=
  match s.access w va n access atom with
  | .ok segs => .glob va segs
  | .trap c a => .trap c a
  | .serve c a => .serve c a
  | .miss a => .miss a

/-- The first touch of a region line (R123): its global address is translated for a read. -/
def State.fillRes (s : State) (w : Who) (t : Team) (e : Nat × Nat) : Except LaneRes (Nat × Nat × Seg) :=
  match Tab.find t.regions e.1 with
  | none => .error (.trap .regionMap 0)
  | some r =>
    let va := r.base + BitVec.ofNat 64 (256 * e.2)
    match s.reach w va 256 .read with
    | .ok (sg :: _) =>
      (match s.targetFault w.core { sg with n := 256 } 256 none with
        | some c => .error (.trap c va)
        | none => .ok (e.1, e.2, sg))
    | .ok [] => .error (.trap .permission va)
    | .trap c a => .error (.trap c a)
    | .serve c a => .error (.serve c a)
    | .miss a => .error (.miss a)

/-- A scratchpad access of n bytes at an offset of a team's allocation. -/
def State.scratchRes (s : State) (w : Who) (team off n : Nat) (access : Access) : LaneRes :=
  match s.team team with
  | none => .trap .scratchBounds (BitVec.ofNat 64 off)
  | some t =>
    if s.scratchSize team < off + n then .trap .scratchBounds (BitVec.ofNat 64 off)
    else if team / 8 == w.core && s.lockedSp team off n access then .trap .rangeLock (BitVec.ofNat 64 off)
    else
      let fills := (t.untouched off n).foldl (fun (r : Except LaneRes (List (Nat × Nat × Seg))) e =>
        match r with
        | .ok l => (match s.fillRes w t e with | .ok x => .ok (l ++ [x]) | .error x => .error x)
        | x => x) (.ok [])
      match fills with
      | .error r => r
      | .ok l => .sp team off l

/-- One lane's access by its space (R350): own team under .sp, the named rank's under .spc. -/
def State.laneRes (s : State) (iss : Iss) (lane : Nat) (off : Option Opnd) (n : Nat) (access : Access) (atom : Option AtomOp) :
    LaneRes :=
  let aligned (a : Nat) : Bool := atom.isNone || a % n == 0
  match spaceOf iss.x.mod with
  | 0 =>
    let va := iss.globalVa s lane iss.x.a off
    if aligned va.toNat then s.globalRes iss.w va n access atom else .trap .misalignedAtomic va
  | sp =>
    let o := iss.scratchOff s lane iss.x.a off
    if !aligned o then .trap .misalignedAtomic (BitVec.ofNat 64 o)
    else
      let team := if sp = 1 then some iss.w.team else s.rankTeam iss.w.team (iss.src32 s lane iss.x.c)
      match team with
      | some t => s.scratchRes iss.w t o n access
      | none => .trap .scratchBounds (BitVec.ofNat 64 o)

/-! ## Lanes that fault, park or wait -/

/-- What the lanes of an access come to: the lanes that perform it, those that hold a cause, those that parked. -/
structure Plan where
  st     : State
  ok     : List (Nat × LaneRes) := []
  causes : List (Nat × Cause × W64) := []
  stay   : Mask := 0

/-- Lanes of an agent that wait for room in the miss buffer (R159). -/
def State.noRoom (s : State) (g : Agent) : Mask :=
  match g with
  | .ct _ => 0
  | .warp w => match s.warp w with
    | some x => maskOf ((x.blocks.filter (fun b => b.2.why == .walk [])).map (·.1))
    | none => 0

/-- The lanes of an access that wait for room there: its tag and counters wait with them (R159). -/
def Plan.waiting (p : Plan) (g : Agent) : Mask := p.stay &&& p.st.noRoom g

/-- The lanes that perform their access. -/
def Plan.lanes (p : Plan) : Mask := maskOf (p.ok.map (·.1))

/-- The address of a lane's access. -/
def LaneRes.addr (r : LaneRes) : W64 := match r with | .glob va _ => va | .sp _ off _ => BitVec.ofNat 64 off | .trap _ va => va | .serve _ va => va | .miss va => va

/-- The access addresses of the lanes that perform theirs. -/
def Plan.addrs (p : Plan) : Tab W64 := p.ok.foldl (fun t r => Tab.set t r.1 r.2.addr) []

/-- R97, R99, R161: lanes that fault park or hold a cause. 'now' says that bytes are touched at issue. -/
def State.planLanes (s : State) (iss : Iss) (access : Access) (now : Bool) (res : List (Nat × LaneRes)) : Plan :=
  res.foldl (fun p r =>
    let hold (c : Cause) (va : W64) (p : Plan) : Plan := { p with st := p.st.notePath iss.w c va, causes := p.causes ++ iss.causes r.1 c va }
    match r.2 with
    | .trap c va => hold c va p
    | .serve c va =>
      if iss.spec.isSome || !p.st.parks iss.w.asid then hold c va p
      else { p with st := p.st.park iss.w.g iss.w.asid (iss.blame r.1) va access, stay := p.stay ||| iss.blame r.1 }
    | .miss va => hold .translation va p
    | .sp _ _ fills =>
      (match p.st.atsMiss (fills.map (·.2.2)) with
        | (none, s) => { p with st := s, ok := p.ok ++ [r] }
        | (some sg, s) =>
          if iss.spec.isSome then hold .hostPath sg.va { p with st := s }
          else { p with st := s.parkPri iss.w.g iss.w.asid (iss.blame r.1) sg.va sg.pa, stay := p.stay ||| iss.blame r.1 })
    | .glob va segs =>
      if now && iss.spec.isSome && segs.any untimed then hold .permission va p
      else match p.st.atsMiss segs with
        | (none, s) => { p with st := s, ok := p.ok ++ [r] }
        | (some sg, s) =>
          if iss.spec.isSome then hold .hostPath sg.va { p with st := s }
          else { p with st := s.parkPri iss.w.g iss.w.asid (iss.blame r.1) sg.va sg.pa, stay := p.stay ||| iss.blame r.1 }) { st := s }

/-- The pages that lanes must have walked for first (R159). -/
def missPages (iss : Iss) (res : List (Nat × LaneRes)) : List (W64 × Mask) :=
  res.filterMap (fun r => match r.2 with | .miss va => some (va, iss.blame r.1) | _ => none)

/-- An earlier access of the agent to one of the lines, or to HOME 3, is still in flight (R135 point 1, R132), or a piece cannot leave the core
yet. -/
def State.sameLines (s : State) (g : Agent) (res : List (Nat × LaneRes)) : Bool :=
  res.any (fun r => match r.2 with
    | .glob _ segs => segs.any (fun sg => s.sameLine g (sg.pa / 256) || (untimed sg && s.rawBusy g) || s.segShut (agentCore g) sg)
    | .sp _ _ fills => fills.any (fun f => s.segShut (agentCore g) f.2.2)
    | _ => false)

/-- Whether a fault parks is read from the ASID's entry: a host that owns its line gives it up first (R60). -/
def State.parkHeld (s : State) (asid : W16) : Bool := s.hostOwns (s.asidAddr asid / 256)

/-- The host has been asked for that entry, and has not answered. -/
def State.parkAsked (s : State) (asid : W16) : Bool := (Tab.find s.l2 (s.asidAddr asid / 256)).any (·.snoop.isSome)

def State.recallPark (s : State) (asid : W16) : State := s.snoop (s.asidAddr asid / 256) false false

/-- The page of the access must first be walked for. -/
def LaneRes.misses (r : LaneRes) : Bool := match r with | .miss _ => true | _ => false

/-- A fault that the service cores can be asked about. -/
def LaneRes.serves (r : LaneRes) : Bool := match r with | .serve _ _ => true | _ => false

/-- The pieces of global memory of a lane's access. -/
def LaneRes.segs (r : LaneRes) : List Seg := match r with | .glob _ l => l | .sp _ _ fills => fills.map (·.2.2) | _ => []

/-- Some lanes of an access cannot go on now. -/
def State.accessShut (s : State) (iss : Iss) (res : List (Nat × LaneRes)) : Bool :=
  s.sameLines iss.w.g res || (res.any (fun r => r.2.serves) && s.parkHeld iss.w.asid)

/-- What they wait for is asked for from the hosts that hold it. -/
def State.accessRecall (s : State) (iss : Iss) (res : List (Nat × LaneRes)) : State :=
  let s := s.recallHandles (res.flatMap (fun r => r.2.segs))
  if res.any (fun r => r.2.serves) && s.parkHeld iss.w.asid then s.recallPark iss.w.asid else s

/-! ## Order (R135, R145) -/

/-- An acquire of the agent has not completed: no later access is performed yet. -/
def State.acquiring (s : State) (g : Agent) : Bool :=
  match s.ctx g with | some c => c.flights.any (fun f => f.acquire.isSome) | none => false

/-- A command of an engine does not issue yet: an acquire of the agent, or a store of it that comes before, has not been performed (R135, R141). -/
def State.engineHeld (s : State) (g : Agent) : Bool := s.acquiring g || s.arrayPending g || s.unperformed g

/-- The agent stays in the instruction until its wait is over. -/
def State.holdIn (s : State) (iss : Iss) (h : Hold) : State := s.updCtx iss.w.g (fun c => { c with hold := h, holdX := iss.lanes })

def State.endHold (s : State) (g : Agent) : State := s.updCtx g (fun c => { c with hold := .none, holdX := 0 })

/-- R115 steps 1 to 3 and the waits of R145 before a release: true once they are over and what the instruction waits for besides. The agent's
earlier stores are in the L1 before its first step. -/
def State.gate (s : State) (iss : Iss) (scope : Nat) (ready : Bool := true) : Bool × State :=
  let g := iss.w.g
  if s.unitsOf g (fun _ st => st) then (false, s) else
  let began := match s.ctx g with | some { hold := .release t, .. } => some t | _ => none
  let s := if began.isNone && decide (2 ≤ scope) then s.releaseStart iss.w.core else s
  if ready && s.releaseOver g scope (began.getD s.time) then (true, (s.releaseEnd g scope).endHold g)
  else (false, if began.isSome then s else s.holdIn iss (.release s.time))

/-! ## The accesses themselves -/

/-- n bytes of a region line arrive, from byte off on; with the last of them the line is filled (R123). -/
def State.regionBytes (s : State) (team k line off n : Nat) (data : Line) (bad : ByteMask) : State :=
  match (s.team team).bind (fun t => Tab.find t.regions k) with
  | none => s
  | some r =>
    match Tab.find r.asked line with
    | none => s
    | some _ =>
      let base := r.off + 256 * line
      let mask := byteRange off n
      let left := Tab.get 1 r.parts line - 1
      let done (r : Region) : Region :=
        if left = 0 then { r with asked := Tab.erase r.asked line, parts := Tab.erase r.parts line, filled := Tab.set r.filled line () }
        else { r with parts := Tab.set r.parts line left }
      s.updTeam team (fun t => Team.dropRegions { t with
        scr := Mem.writeMasked t.scr base data mask 0 256
        scrPoison := t.scrPoison.filter (fun a => !(decide (base ≤ a ∧ a < base + 256) && mask.getLsbD (a - base))) ++
          ((List.range 256).filter (fun i => (bad &&& mask).getLsbD i)).map (base + ·)
        regions := Tab.upd t.regions k done })

/-- First reads of region lines go to their homes by R112, or to the host or a peer (R123), with the clock and the edge id of the agent or the
command that touches them. 'count' counts each as a request of its issuer (R241). -/
def State.fillRegions (s : State) (w : Who) (for_ : Option Agent) (c : W32) (edge : W64) (team : Nat) (fills : List (Nat × Nat × Seg))
    (count : State → Seg → State) : State :=
  fills.foldl (fun s e =>
    let (k, line, sg) := e
    let asked := match s.team team with
      | some t => (match Tab.find t.regions k with | some r => (Tab.find r.asked line).isSome | none => true)
      | none => true
    if asked then s
    else
      let parts := match physKind sg.pa with | .peer => 4 | _ => 1
      let ask (r : Region) : Region := { r with asked := Tab.set r.asked line (), parts := Tab.set r.parts line parts }
      let s := s.updTeam team (fun t => { t with regions := Tab.upd t.regions k ask })
      let pa := sg.pa / 256 * 256
      match physKind pa with
      | .host _ => (count s sg).hostTxn w pa 256 false true 0 none (.region for_ team k line 0 256)
      | .peer => (List.range 4).foldl (fun s i => (count s (sg.cut (64 * i, 64))).sendPeer w edge (pa + 64 * i) 64 (.read 64) (.region for_ team k line (64 * i) 64)) s
      | .none => ((count s sg).newId.2.logStray pa).regionBytes team k line 0 256 0 0
      | _ => (count s sg).send (.core w.core) w.core (pa / 256) (pteKey sg.leaf) w.part (pteHome sg.leaf == 2) c .read1 [.region for_ team k line 0 256]) s

/-- The same for an agent's access. -/
def State.touchRegions (s : State) (w : Who) (team : Nat) (fills : List (Nat × Nat × Seg)) : State :=
  match s.ctx w.g with
  | some c => s.fillRegions w (some w.g) c.wclk c.edge team fills (fun s sg => s.countLane w.g 0 sg.va sg.pa)
  | none => s

/-- An access goes to a scratchpad array, piece by piece. Answers in how many. -/
def State.toArray (s : State) (iss : Iss) (lane team off n : Nat) (fills : List (Nat × Nat × Seg)) (kind : ArrayKind) (cnt : Counter)
    (owner : Nat) : Nat × State :=
  (s.touchRegions iss.w team fills).queuePieces team {
    id := 0, agent := iss.w.g, lane := lane, team := team, off := off, n := n, kind := kind, cnt := cnt, owner := owner, pc := iss.pc
    blame := if iss.uni then iss.lanes else 0 }

/-- The byte of a held store at a physical address, or at an offset of a scratchpad. -/
def HeldStore.at_ (h : HeldStore) (loc : Nat ⊕ (Nat × Nat)) : Option Nat :=
  match loc with
  | .inl pa => (h.segs.find? (fun sg => decide (sg.pa ≤ pa ∧ pa < sg.pa + sg.n))).map (fun sg => sg.pos + (pa - sg.pa))
  | .inr (t, o) => match h.sp with
    | some (t', o') => if t = t' ∧ o' ≤ o ∧ o < o' + h.n then some (o - o') else none
    | none => none

/-- R92: a lane's speculative load takes bytes from its own newest held store that holds them. -/
def State.overlay (s : State) (g : Agent) (fid lane pos : Nat) (loc : Nat ⊕ (Nat × Nat)) : State :=
  match g with
  | .ct _ => s
  | .warp w =>
    match s.warp w with
    | none => s
    | some x =>
      let held := (x.window.reverse.flatMap (fun e => e.held.reverse)).filter (fun h => h.lane == lane)
      match held.findSome? (fun h => (h.at_ loc).map (fun k => (h.data.toNat >>> (8 * k)) % 256)) with
      | some b => s.bytesIn g fid lane pos 1 b
      | none => s

/-- Pieces of global memory that a lane loads: held bytes first (R92), then the pieces, at once where there is one, else as byte events of their
own (R131). -/
def State.loadPieces (s : State) (w : Who) (fid lane : Nat) (segs : List Seg) : State :=
  let s := segs.foldl (fun s sg => (List.range sg.n).foldl (fun s k => s.overlay w.g fid lane (sg.pos + k) (.inl (sg.pa + k))) s) s
  match segs with
  | [sg] => s.loadSeg w fid lane sg
  | _ => segs.foldl (fun s sg => (s.missIn w.g fid).queueUnit w.team (.load w.g fid lane sg)) s

/-- One lane of a load. -/
def State.loadLane (s : State) (iss : Iss) (fid : Nat) (n : Nat) (r : Nat × LaneRes) : State :=
  match r.2 with
  | .glob _ segs => s.loadPieces iss.w fid r.1 segs
  | .sp t o fills =>
    let s := (List.range n).foldl (fun s k => s.overlay iss.w.g fid r.1 k (.inr (t, o + k))) s
    let (k, s) := s.toArray iss r.1 t o n fills (.load fid 0) .ld 0
    (List.range k).foldl (fun s _ => s.missIn iss.w.g fid) s
  | _ => s

/-- A load of planned lanes (R353): its bytes gather until TAG_FREE writes them. Lanes without a write let the tag go. -/
def State.loadLanes (iss : Iss) (p : Plan) (n : Nat) (form : Form) (acquire : Option Nat) : Eff :=
  let done (s : State) : Eff := { st := s, causes := p.causes, stay := p.stay }
  if p.ok.isEmpty then done (p.st.passTag iss)
  else
    let (fid, s) := p.st.newId
    let room := p.waiting iss.w.g
    let s := s.beginFlight { iss with act := p.lanes } { id := fid, tag := 0, cnt := .ld, pc := 0, lanes := 0, form := form, acquire := acquire, vas := p.addrs,
                                                                blame := if iss.uni then iss.lanes else 0, room := room, missing := if room = 0 then 0 else 1 }
    done (p.ok.foldl (fun s r => s.loadLane iss fid n r) s)

/-- A store of planned lanes (R353), held while it is speculative (R92). 'rel' is the scope of a release. -/
def State.storeLanes (iss : Iss) (p : Plan) (n : Nat) (rel : Option Nat) (data : Nat → Nat) : Eff :=
  let (id, s) := p.st.newId
  let held : List HeldStore := p.ok.filterMap (fun r => match r.2 with
    | .glob _ segs => some { lane := r.1, segs := segs, n := n, data := BitVec.ofNat 128 (data r.1), rel := rel }
    | .sp t o _ => some { lane := r.1, sp := some (t, o), n := n, data := BitVec.ofNat 128 (data r.1), rel := rel }
    | _ => none)
  let wide := match rel with | some scope => decide (2 ≤ scope) | none => false
  let touch (s : State) : State :=
    p.ok.foldl (fun s r => match r.2 with | .sp t _ fills => s.touchRegions iss.w t fills | _ => s) s
  let st := match iss.spec, iss.w.g with
    | some e, .warp w => (touch s).updWarp w (fun x => { x with
        window := x.window.map (fun o => if o.id = e then { o with held := o.held ++ held } else o) })
    | _, _ =>
      let r := p.ok.foldl (fun (acc : Nat × State) r => match r.2 with
        | .glob _ segs => let k := acc.2.storeSegs iss.w id r.1 iss.pc segs (data r.1) wide; (acc.1 + k.1, k.2)
        | .sp t o fills => let k := acc.2.toArray iss r.1 t o n fills (.store (BitVec.ofNat 128 (data r.1))) .st id; (acc.1 + k.1, k.2)
        | _ => acc) (0, s)
      let room := p.waiting iss.w.g
      r.2.updCtx iss.w.g (fun c => (c.storeBegin id (r.1 + if room = 0 ∨ p.ok.isEmpty then 0 else 1) (if iss.uni then iss.lanes else 0)).storeRoom id room)
  { st := st, causes := p.causes, stay := p.stay }

/-! ## Element formats (R216 to R219) -/

/-- A valid entry of the format table. -/
structure FmtEntry where
  t4    : Bool
  blk   : Nat                     -- elements of a block, 16 or 32
  place : Nat
  wide  : Ty
  soff  : W64
deriving DecidableEq, Repr

def fmtEntry (t : Team) (k : Nat) : Option FmtEntry :=
  let w := (Tab.get 0 t.fmt (2 * k)).toNat
  let elem := w % 256
  let blk := w / 2 ^ 8 % 256
  let place := w / 2 ^ 16 % 256
  let wide := w / 2 ^ 24 % 256
  if w / 2 ^ 63 = 1 && w / 2 ^ 32 % 2 ^ 31 == 0 && (elem == 1 || elem == 2) && decide (blk ≤ 1) && decide (place ≤ 2) &&
      decide (wide ≤ 2) then
    some { t4 := elem == 2, blk := if blk = 0 then 16 else 32, place := place,
           wide := if wide = 0 then .f32 else if wide = 1 then .bf16 else .f16, soff := Tab.get 0 t.fmt (2 * k + 1) }
  else none

/-- Bytes of a block. -/
def FmtEntry.bytes (e : FmtEntry) : Nat := if e.t4 then e.blk / 2 else e.blk

/-- Element bytes of a PLACE 1 line. -/
def FmtEntry.lineLimit (e : FmtEntry) : Nat := 256 / (e.bytes + 1) * e.bytes

/-- The addresses of the scales of the 16-byte piece at va, in a page of a size (R218); none where the piece is not element
data. -/
def FmtEntry.scales (e : FmtEntry) (va : W64) (page : Nat) : Option (List W64) :=
  let n := if e.bytes = 8 then 2 else 1
  match e.place with
  | 0 => some []
  | 1 =>
    let off := va.toNat % 256
    if e.lineLimit ≤ off then none
    else some ((List.range n).map (fun i => va - BitVec.ofNat 64 off + BitVec.ofNat 64 (e.lineLimit + off / e.bytes + i)))
  | _ =>
    let off := va.toNat % page
    some ((List.range n).map (fun i => va - BitVec.ofNat 64 off + e.soff + BitVec.ofNat 64 (off / e.bytes + i)))

/-- The scale 2^(e − 127) of a byte as an exponent; none for 0xFF (R215). -/
def scaleExp (b : Nat) : Option Int := if b = 255 then none else some ((b : Int) - 127)

/-- A value times 2^k. -/
def Val.shift (v : Val) (k : Int) : Val := match v with | .fin n m e x => .fin n m (e + k) x | v => v

/-- One element decoded with its scale and written in the wide type (R219). -/
def decodeElem (t4 : Bool) (wide : Ty) (code scale : Nat) : Res :=
  match scaleExp scale with
  | none => { bits := (fmtOf wide).nan }
  | some k => (fmtOf wide).fout {} ((elemVal (if t4 then .t4 else .t8) code).shift k)

/-- One wide value encoded under a scale (R219). -/
def encodeElem (t4 : Bool) (wide : Ty) (bits scale : Nat) : Res :=
  let (v, fl) := (fmtOf wide).fin false bits
  let cvt (v : Val) : Res := if t4 then cvtT4 v else cvtT8 v
  match scaleExp scale with
  | none => (cvt .nan).raise fl
  | some k => (cvt (v.shift (-k))).raise fl

/-- Elements of a piece, and which scale governs an element: the first, or the second where a block holds 8 bytes. -/
def pieceElems (t4 : Bool) : Nat := if t4 then 32 else 16
def scaleOf (scales : List Nat) (t4 : Bool) (j : Nat) : Nat :=
  if scales.length = 2 then scales.getD (j / (pieceElems t4 / 2)) 127 else scales.getD 0 127

/-- R219: the registers that a piece decodes to, as one number, with the flags. -/
def decodePiece (t4 : Bool) (wide : Ty) (piece : Nat) (scales : List Nat) : Nat × Fl :=
  let e := if t4 then 4 else 8
  (List.range (pieceElems t4)).foldl (fun (acc : Nat × Fl) j =>
    let r := decodeElem t4 wide (piece / 2 ^ (e * j) % 2 ^ e) (scaleOf scales t4 j)
    (acc.1 + r.bits * 2 ^ (Ty.bits wide * j), acc.2 ||| r.fl)) (0, 0)

/-- R219: the piece that registers encode to. -/
def encodePiece (t4 : Bool) (wide : Ty) (regs : Nat) (scales : List Nat) : Nat × Fl :=
  let e := if t4 then 4 else 8
  (List.range (pieceElems t4)).foldl (fun (acc : Nat × Fl) j =>
    let r := encodeElem t4 wide (regs / 2 ^ (Ty.bits wide * j) % 2 ^ Ty.bits wide) (scaleOf scales t4 j)
    (acc.1 + r.bits * 2 ^ (e * j), acc.2 ||| r.fl)) (0, 0)

/-- The page size of an address that the TLBs hold. -/
def State.pageOf (s : State) (core : Nat) (asid : W16) (va : W64) : Nat :=
  match s.tlbFind core asid va with | some e => e.size | none => 4096

/-- One lane of LDF or STF (R356): alignment, address and translation, entry, and the pieces of the scale bytes at 16 and 17. -/
def State.formatRes (s : State) (iss : Iss) (lane : Nat) (access : Access) : LaneRes :=
  let va := iss.globalVa s lane iss.x.a (some iss.x.b)
  if va.toNat % 16 ≠ 0 then .trap .formatEntry va
  else match s.globalRes iss.w va 16 access none with
    | .glob _ segs =>
      let leaf := match segs with | sg :: _ => sg.leaf | [] => 0
      let entry := match s.team iss.w.team with | some t => fmtEntry t (pteFmt leaf) | none => none
      match entry with
      | none => .trap .formatEntry va
      | some e =>
        if e.t4 != modBit iss.x.mod 7 || e.wide != iss.x.ty then .trap .formatEntry va
        else match e.scales va (s.pageOf iss.w.core iss.w.asid va) with
          | none => .trap .formatEntry va
          | some vas =>
            vas.zipIdx.foldl (fun (r : LaneRes) a =>
              match r with
              | .glob va segs =>
                (match s.globalRes iss.w a.1 1 .read none with
                  | .glob _ more => .glob va (segs ++ more.map (fun sg => { sg with pos := 16 + a.2 }))
                  | x => x)
              | x => x) (.glob va segs)
    | r => r

/-- Registers of a lane as one number, n of them. -/
def State.regsVal (s : State) (g : Agent) (lane : Nat) (o : Opnd) (n : Nat) : Nat :=
  (List.range n).foldl (fun v k =>
    let r := match o with
      | .v m => s.regPart g lane (.v m.toNat) (.v (m.toNat + k))
      | .s m => s.regPart g lane (.s m.toNat) (.s (m.toNat + k))
      | _ => 0
    v + r.toNat % 2 ^ 32 * 2 ^ (32 * k)) 0

end Sys2Proof.Machine
end

