-- ==== Sys2Proof/Machine/Memory.lean ====
section
/-!
DEFINITION. Lane class 0x5 and the uniform loads and stores (R352 to R359): LD, ST, LDF, STF, PREF, CWB, SPMAP, SPWB, SPREL, ULD,
UST.
-/

namespace Sys2Proof.Machine

/-! ## Loads and stores -/

/-- Lanes that hold a cause for an access. -/
def State.causeLanes (s : State) (iss : Iss) (res : List (Nat × LaneRes)) : Mask :=
  res.foldl (fun m r => match r.2 with
    | .trap _ _ => m ||| iss.blame r.1
    | .serve _ _ => if s.parks iss.w.asid then m else m ||| iss.blame r.1
    | _ => m) 0

/-- The walks for which lanes wait at an instruction, if some do; none of them where one waits for room to ask. -/
def Warp.walksAt (x : Warp) (pc : W64) : Option (List Nat) :=
  let l := x.blocks.filterMap (fun b => match b.2.why with | .walk ids => if Tab.get 0 x.lpc b.1 = pc then some ids else none | _ => none)
  if l.isEmpty then none else some (if l.any (·.isEmpty) then [] else l.flatten)

/-- R168, R99: of the causes that the lanes of an instruction come to hold, the lowest is taken: lanes that hold one wait with those that have a page
walked for there. Answers the lanes that wait. -/
def State.causesWait (s : State) (iss : Iss) (res : List (Nat × LaneRes)) : Mask × State :=
  let lanes := s.causeLanes iss res
  match iss.w.g with
  | .ct _ => (0, s)
  | .warp w => match (s.warp w).bind (fun x => x.walksAt iss.pc) with
    | some ids => if lanes = 0 then (0, s) else (lanes, s.updWarp w (fun x => x.blockWalk ids (s.cycle iss.w.core) s.time lanes))
    | none => (0, s)

/-- The lanes of an access that may go on now, and those that stay at the instruction. Lanes whose pages are present do not wait for the
others' walks (R159, R168): the instruction issues in them, and the others execute it once their walks end. A word of a program buffer, which is
issued once (R235), waits for all of them. -/
def State.splitAccess (s : State) (iss : Iss) (access : Access) (res : List (Nat × LaneRes)) : Except State (State × List (Nat × LaneRes) × Mask) :=
  if s.acquiring iss.w.g then .error s
  else
    let pages := missPages iss res
    let s := s.holdWalks iss.w pages access
    let (late, s) := s.causesWait iss res
    let here := res.filter (fun r => !r.2.misses && !late.getLsbD r.1)
    if (here.isEmpty && !res.isEmpty) || (s.cur.buffer && !pages.isEmpty) || s.accessShut iss here then .error (s.accessRecall iss here)
    else .ok (s, here, pages.foldl (fun m p => m ||| p.2) late)

/-- The part of an issue in the lanes that go on. -/
def Iss.without (iss : Iss) (stay : Mask) : Iss := { iss with lanes := iss.lanes &&& ~~~stay, act := iss.act &&& ~~~stay }

/-- Lanes that stay at the instruction besides those that park. -/
def Plan.staying (p : Plan) (m : Mask) : Plan := { p with stay := p.stay ||| m }

/-- Access size of a memory instruction (R352). -/
def memSize (x : Args) : Nat := if modBit x.mod 7 then 16 else Ty.bits x.ty / 8

/-- .acq of a load (R353). -/
def acquireOf (x : Args) : Option Nat := if orderOf x.mod = 1 || orderOf x.mod = 3 then some (scopeOf x.mod) else none

/-- LD and ULD (R353, R354). -/
def State.loadOp (s : State) (i : Instr) (x : Args) : Host.Outcome State Fault Refusal :=
  s.issue i x (fun iss s =>
    if iss.act = 0 then { st := s.passTag iss }
    else
      let res := iss.each.map (fun j => (j, s.laneRes iss j (some x.b) (memSize x) .read none))
      match s.splitAccess iss .read res with
      | .error s => .stall s
      | .ok (s, res, stay) =>
        State.loadLanes iss ((s.planLanes iss .read true res).staying stay) (memSize x) (.plain x.d x.ty (memSize x)) (acquireOf x))

def execLd (x : Args) (s : State) : Host.Outcome State Fault Refusal := s.loadOp (.ld x) x
def execUld (x : Args) (s : State) : Host.Outcome State Fault Refusal := s.loadOp (.uld x) x

/-- The scope of a release; none for .rlx and .acq. -/
def releaseOf (x : Args) : Option Nat := if 2 ≤ orderOf x.mod then some (scopeOf x.mod) else none

/-- What a release waits for (R115, R145). A speculative store is held, and its release comes with its commit (R92). -/
def State.waitRelease (s : State) (iss : Iss) : Bool × State :=
  match releaseOf iss.x with
  | none => (true, s)
  | some scope => if iss.spec.isSome then (true, s) else s.gate iss scope

/-- ST and UST (R353, R354). The release steps come once, after every lane's address is found. -/
def State.storeOp (s : State) (i : Instr) (x : Args) : Host.Outcome State Fault Refusal :=
  s.issue i x (fun iss s =>
    if iss.act = 0 then { st := s }
    else
      let res := iss.each.map (fun j => (j, s.laneRes iss j (some x.b) (memSize x) .write none))
      match s.splitAccess iss .write res with
      | .error s => .stall s
      | .ok (s, res, stay) =>
        let data (j : Nat) : Nat := s.regsVal iss.w.g j x.d (memRegs x) % 2 ^ (8 * memSize x)
        match s.waitRelease (iss.without stay) with
        | (false, s) => .stall s
        | (true, s) => State.storeLanes iss ((s.planLanes iss .write false res).staying stay) (memSize x) (releaseOf x) data)

def execSt (x : Args) (s : State) : Host.Outcome State Fault Refusal := s.storeOp (.st x) x
def execUst (x : Args) (s : State) : Host.Outcome State Fault Refusal := s.storeOp (.ust x) x

/-! ## LDF and STF (R355, R356) -/

/-- The team's format table is being read: element accesses wait for it (R217). -/
def State.fmtLoading (s : State) (iss : Iss) : Bool := match s.team iss.w.team with | some t => t.fmtLoad | none => false

def execLdf (x : Args) (s : State) : Host.Outcome State Fault Refusal :=
  s.issue (.ldf x) x (fun iss s =>
    if iss.act = 0 then { st := s.passTag iss }
    else
      let res := iss.each.map (fun j => (j, s.formatRes iss j .read))
      match (if s.fmtLoading iss then .error s else s.splitAccess iss .read res) with
      | .error s => .stall s
      | .ok (s, res, stay) => State.loadLanes iss ((s.planLanes iss .read true res).staying stay) 16 (.ldf (match x.d with | .v n => n.toNat | _ => 0) x.ty (modBit x.mod 7))
          (acquireOf x))

/-- The pieces of scale bytes of a lane, and those of its data. -/
def scaleSegs (r : LaneRes) : List Seg := match r with | .glob _ segs => segs.filter (fun sg => decide (16 ≤ sg.pos)) | _ => []
def dataSegs (r : LaneRes) : LaneRes :=
  match r with | .glob va segs => .glob va (segs.filter (fun sg => decide (sg.pos < 16))) | r => r

/-- STF reads its scale bytes first: a result of its own, which no tag names. -/
def State.askScales (s : State) (iss : Iss) (ok : List (Nat × LaneRes)) : State :=
  let (fid, s) := s.newId
  let s := s.updCtx iss.w.g (fun c => { c with
    flights := c.flights ++ [{ id := fid, tag := 0, cnt := .none, pc := iss.pc, lanes := maskOf (ok.map (·.1)), form := .ldf 0 .f32 false }] })
  let s := ok.foldl (fun s r => s.loadPieces iss.w fid r.1 (scaleSegs r.2)) s
  s.holdIn iss (.scales fid)

/-- The scale bytes that a lane has read. -/
def Flight.scales (f : Flight) (lane : Nat) (r : LaneRes) : List Nat :=
  (scaleSegs r).map (fun sg => (Tab.get 0 f.bytes (64 * lane + sg.pos)).toNat)

/-- The scale bytes that an STF in progress reads. -/
def State.scaleFlight (s : State) (iss : Iss) : Option Flight :=
  match s.ctx iss.w.g with | some { hold := .scales id, .. } => s.flight iss.w.g id | _ => none

/-- An STF writes its pieces, encoded with the scales that it has read. Lanes whose scale bytes were poisoned raise their cause (R130). -/
def State.stfGo (s : State) (iss : Iss) (res : List (Nat × LaneRes)) (stay : Mask) (rd : Option Flight) (regs : Nat → Nat) : Eff :=
  let x := iss.x
  let f : Flight := rd.getD { id := 0, tag := 0, cnt := .none, pc := 0, lanes := 0, form := .ready }
  let piece (j : Nat) : Nat × Fl :=
    encodePiece (modBit x.mod 7) x.ty (regs j) (match res.find? (fun r => r.1 == j) with | some r => f.scales j r.2 | none => [])
  let s := if rd.isSome then (s.updCtx iss.w.g (fun c => { c with flights := c.flights.filter (fun o => o.id != f.id) })).endHold iss.w.g else s
  let p := (s.planLanes iss .write false (res.map (fun r => (r.1, dataSegs r.2)))).staying stay
  let bad := p.ok.filter (fun r => (Tab.find f.bad r.1).isSome)
  let p := { p with
    ok := p.ok.filter (fun r => (Tab.find f.bad r.1).isNone)
    causes := p.causes ++ bad.map (fun r => (r.1, Tab.get .dataUncorrectable f.bad r.1, iss.globalVa s r.1 x.a (some x.b))) }
  let e := State.storeLanes iss p 16 (releaseOf x) (fun j => (piece j).1)
  { e with st := iss.results e.st 6 (p.ok.flatMap (fun r => flagWrites r.1 (piece r.1).2)) }

/-- The scale bytes that were read are given up. -/
def State.dropScales (s : State) (iss : Iss) (f : Flight) : State :=
  (s.updCtx iss.w.g (fun c => { c with flights := c.flights.filter (fun o => o.id != f.id) })).endHold iss.w.g

/-- A scale byte that speculation may not read (R92). -/
def specScale (iss : Iss) (r : Nat × LaneRes) : Bool := iss.spec.isSome && (scaleSegs r.2).any untimed

/-- Scale bytes on such pages make the lane's store a deferred one. -/
def deferScales (iss : Iss) (res : List (Nat × LaneRes)) : List (Nat × LaneRes) :=
  res.map (fun r => if specScale iss r then (r.1, .trap .permission r.2.addr) else r)

/-- STF: the accesses resolve, the scale bytes are read, and the pieces go out. A page that has left the TLBs meanwhile is walked for again,
and the scale bytes are read again. -/
def execStf (x : Args) (s : State) : Host.Outcome State Fault Refusal :=
  s.issue (.stf x) x (fun iss s =>
    if iss.act = 0 then { st := s }
    else
      let res := deferScales iss (iss.each.map (fun j => (j, s.formatRes iss j .write)))
      let regs (j : Nat) : Nat := s.regsVal iss.w.g j x.d (ldfRegs x)
      if s.fmtLoading iss then .stall s
      else match s.scaleFlight iss with
        | some f =>
          if !(missPages iss res).isEmpty then .stall ((s.dropScales iss f).holdWalks iss.w (missPages iss res) .write)
          else if f.missing != 0 then .stall s
          else match s.waitRelease iss with
            | (false, s) => .stall s
            | (true, s) => s.stfGo iss res 0 (some f) regs
        | none =>
          match s.splitAccess iss .write res with
          | .error s => .stall s
          | .ok (s, res, stay) =>
            let need := res.filter (fun r => !(scaleSegs r.2).isEmpty)
            if !need.isEmpty then .stall (s.askScales (iss.without stay) need)
            else match s.waitRelease (iss.without stay) with
              | (false, s) => .stall s
              | (true, s) => s.stfGo iss res stay none regs)

/-! ## PREF (R357) -/

/-- A prefetch that holds a range of its core as a source or destination does nothing there (R142). -/
def State.inRange (s : State) (core : Nat) (asid : W16) (va : W64) : Bool :=
  (s.core core).locks.any (fun l => l.team.isNone && s.lockOld core l && l.asid == asid && overlap l.lo l.n va.toNat 1)

/-- A prefetch of an agent at an address that the TLBs hold: no cause, no counter, no clock. -/
def State.prefAt (s : State) (w : Who) (l2 : Bool) (va : W64) : State :=
  match s.xlate w.core w.asid va .read w.handler with
  | .ok pa leaf =>
    if s.inRange w.core w.asid va || !s.keyFor w.part pa leaf then s
    else
      let line := pa / 256
      let key := pteKey leaf
      match targetOf pa leaf, s.ctx w.g with
      | .leased _ h2, some c =>
        if !l2 && (s.hitL1 w.core line (sectorOf (pa % 256)) key c.wclk).isSome then s
        else (s.countLane w.g 0 va pa).send (.core w.core) w.core line key w.part h2 c.wclk
          (.renew (if l2 then none else s.renewWts w.core line key) (sectorOf (pa % 256)) (s.pinOf w.grid) l2) [.none]
      | .home1 _, some c =>
        if l2 then (s.countLane w.g 0 va pa).send (.core w.core) w.core line key w.part false c.wclk
          (.renew none (sectorOf (pa % 256)) none true) [.none]
        else s
      | .host p, _ =>
        let (miss, s) := s.atsMiss [⟨va, pa, 0, 1, leaf⟩]
        if miss.isSome || (s.ports.getD p {}).down || s.hostTxns.any (fun t => t.line == line && t.fill) then s
        else (s.countLane w.g 0 va pa).hostTxn w (pa / 64 * 64) 64 false true 0 none .none
      | .peer, some c =>
        if l2 || (s.peerHit w.core line (sectorOf (pa % 256))).isSome then s
        else if (s.peerRoute w.core pa 1).isNone then s.logMaybe (strayOf (s.handleAt pa))
        else (s.countLane w.g 0 va pa).sendPeer w c.edge (pa / 64 * 64) 64 (.read 64) (.prefetch w.core)
      | .none, _ => s.logStray pa
      | _, _ => s
  | _ => s

/-- One lane of a prefetch. Where the TLBs hold no translation it has a walk made, whose end brings the sector (R159, R357); a lane that finds no
room for its walk waits at the instruction. -/
def State.prefLane (s : State) (iss : Iss) (l2 : Bool) (j : Nat) : Mask × State :=
  let va := iss.globalVa s j iss.x.a (some iss.x.b)
  if (rangeFault va 1).isSome then (0, s)
  else match s.xlate iss.w.core iss.w.asid va .read iss.w.handler with
    | .miss =>
      (match s.askWalk iss.w.core iss.w.asid va .read (.prefetch iss.w.g l2) with
        | some (_, s) => (0, s)
        | none => (iss.blame j, match iss.w.g with
          | .warp k => if s.cur.buffer then s else s.updWarp k (fun x => x.blockWalk [] (s.cycle iss.w.core) s.time (iss.blame j))
          | .ct _ => s))
    | _ =>
      -- the lane waits for its way and for the line of the handle table, where the prefetch has an effect at all
      match s.xlate iss.w.core iss.w.asid va .read iss.w.handler with
      | .ok pa leaf =>
        let sg : Seg := ⟨va, pa, 0, 1, leaf⟩
        if !(l2 && targetOf pa leaf == .peer) && s.segShut iss.w.core sg then (iss.blame j, s.recallHandles [sg])
        else (0, s.prefAt iss.w l2 va)
      | _ => (0, s)

def execPref (x : Args) (s : State) : Host.Outcome State Fault Refusal :=
  s.issue (.pref x) x (fun iss s =>
    let r := iss.each.foldl (fun (acc : Mask × State) j => let (m, s) := acc.2.prefLane iss (modBit x.mod 8) j; (acc.1 ||| m, s)) (0, s)
    if r.1 != 0 && (r.1 = iss.act || s.cur.buffer) then .stall r.2 else { st := r.2, stay := r.1 })

/-! ## CWB (R358) -/

/-- One lane of CWB: a valid leaf is used whatever it permits, once its A bit is set as for a read. -/
def State.cwbRes (s : State) (iss : Iss) (lane : Nat) : LaneRes :=
  let va := iss.globalVa s lane iss.x.a (some iss.x.b)
  match rangeFault va 1 with
  | some c => .trap c va
  | none =>
    match s.xlate iss.w.core iss.w.asid va .clean iss.w.handler with
    | .ok pa leaf => if s.keyFor iss.w.part pa leaf then .glob va [⟨va, pa, 0, 1, leaf⟩] else .trap .keyInvalid va
    | .miss => .miss va
    | .fault c => .trap c va

/-- Write-backs of a line of a core that are on their way: a CWB of it awaits them too (R358). Answers how many. -/
def State.joinWriteBacks (s : State) (core line : Nat) (a : Await) : Nat × State :=
  let hit (r : Req) : Bool := r.src == .core core && r.line == line && (match r.kind with | .wback .. => true | _ => false)
  let more (r : Req) : Req := if hit r then { r with awaits := r.awaits ++ [a] } else r
  ((s.reqs.filter hit).length + (s.replies.filter (fun p => hit p.req)).length,
    { s with reqs := s.reqs.map more, replies := s.replies.map (fun p => { p with req := more p.req }) })

/-- The lines that CWB writes back, and the wait for their replies. -/
def State.writeLines (s : State) (iss : Iss) (lines : List Nat) : State :=
  let (id, s) := s.newId
  let await : Await := .store iss.w.g id false (lowest iss.act) iss.pc 0
  let (n, s) := lines.foldl (fun (acc : Nat × State) l => let (k, s) := acc.2.joinWriteBacks iss.w.core l await; (acc.1 + k, s)) (0, s)
  let dirty := lines.filter (fun l => (s.dirtyLines iss.w.core).contains l)
  (dirty.foldl (fun s l => s.flushLine iss.w.core l [await]) s).updCtx iss.w.g (fun c => c.storeBegin id (n + dirty.length) 0)

def execCwb (x : Args) (s : State) : Host.Outcome State Fault Refusal :=
  s.issue (.cwb x) x (fun iss s =>
    if iss.act = 0 then { st := s }
    else
      let res := iss.each.map (fun j => (j, s.cwbRes iss j))
      match s.splitAccess iss .clean res with
      | .error s => .stall s
      | .ok (s, res, stay) =>
        let causes := res.flatMap (fun r => match r.2 with | .trap c va => iss.causes r.1 c va | _ => [])
        let lines := dedup (res.flatMap (fun r => match r.2 with
          | .glob _ segs => segs.filterMap (fun sg => match targetOf sg.pa sg.leaf with | .leased .. => some (sg.pa / 256) | _ => none)
          | _ => []))
        { st := s.writeLines iss lines, causes := causes, stay := stay })

/-- The lines of a core's L1 with dirty bytes, on their way home or not. -/
def State.dirtyOrSent (s : State) (core : Nat) : List Nat := ((s.core core).l1.filter (fun e => e.2.dirty != 0)).map (·.1)

def execCwbAll (x : Args) (s : State) : Host.Outcome State Fault Refusal :=
  s.issue (.cwbAll x) x (fun iss s =>
    if iss.act = 0 then { st := s }
    else if s.unitsOf iss.w.g (fun _ st => st) then .stall s
    else { st := s.writeLines iss (s.dirtyOrSent iss.w.core) })

/-! ## Regions (R359, R123, R124) -/

/-- R123: what a region must meet. -/
def Team.regionOk (t : Team) (size k off len : Nat) (base : W64) : Bool :=
  (Tab.find t.regions k).isNone && off % 256 == 0 && len % 256 == 0 && base.toNat % 256 == 0 && decide (256 ≤ len) &&
  decide (off + len ≤ size) && !(t.regions.any (fun e => overlap e.2.off e.2.len off len))

def execSpmap (x : Args) (s : State) : Host.Outcome State Fault Refusal :=
  s.issue (.spmap x) x (fun iss s =>
    if iss.act = 0 then { st := s }
    else
      let j := lowest iss.act
      let k := modBits x.mod 2 0
      let off := iss.src32 s j x.a
      let len := iss.src32 s j x.b
      let base := iss.src s j .n64 x.c
      match s.team iss.w.team with
      | some t =>
        -- accesses that issued before it stay under the old map
        if t.regions.any (·.2.gone) || t.array.any (fun o => overlap off len o.off o.n) then .stall s
        else if t.regionOk (s.scratchSize iss.w.team) k off len base then
          { st := s.updTeam iss.w.team (fun t => { t with regions := Tab.set t.regions k { off := off, len := len, base := base } }) }
        else .all s iss.act .regionMap 0
      | none => { st := s })

/-- The dirty bytes of one line of a region. -/
def Region.lineMask (r : Region) (line : Nat) : ByteMask :=
  BitVec.ofNat 256 (r.dirty.foldl (fun m a => if (a - r.off) / 256 = line then m ||| 2 ^ ((a - r.off) % 256) else m) 0)

/-- The lines of a region that hold dirty bytes. -/
def Region.dirtyLines (r : Region) : List Nat := dedup (r.dirty.map (fun a => (a - r.off) / 256))

/-- R124, R166: the dirty bytes of a region go home, each line as one write-back to the place that 'target' gives, or in the windows as
writes of its runs of bytes; answers how many. 'count' counts each as a request of its issuer (R241). -/
def State.writeRegion (s : State) (core team part k : Nat) (asid : W16) (edge : W64) (target : Nat → Option (Nat × W64)) (await : Await)
    (count : State → W64 → Nat → State) : Nat × State :=
  match s.team team with
  | none => (0, s)
  | some t =>
    match Tab.find t.regions k with
    | none => (0, s)
    | some r =>
      let s := s.updTeam team (fun t => { t with regions := Tab.upd t.regions k (fun r => { r with dirty := [] }) })
      r.dirtyLines.foldl (fun (acc : Nat × State) line =>
        match target line with
        | none => acc
        | some (pa, leaf) =>
          let data : Line := BitVec.ofNat 2048 (Mem.readN t.scr (r.off + 256 * line) 256)
          let poison : ByteMask := BitVec.ofNat 256 (t.scrPoison.foldl (fun m a =>
            if r.off + 256 * line ≤ a ∧ a < r.off + 256 * line + 256 then m ||| 2 ^ (a - (r.off + 256 * line)) else m) 0)
          let one (s : State) (k : Nat) : State := count s (r.base + BitVec.ofNat 64 (256 * line + k)) (pa + k)
          match targetOf pa leaf with
          | .host _ => (maskRuns (r.lineMask line)).foldl (fun acc e =>
              (acc.1 + 1, (one acc.2 e.1).hostSend asid core part (pa + e.1) e.2 true false (BitVec.ofNat 512 (lineField data e.1 e.2)) none await)) acc
          | .peer => (maskRuns (r.lineMask line)).foldl (fun acc e =>
              (acc.1 + 1, (one acc.2 e.1).sendPeerOn core edge (pa + e.1) e.2 (.write e.2 (BitVec.ofNat 512 (lineField data e.1 e.2))) await)) acc
          | .none => (acc.1, (one acc.2 0).newId.2.logStray pa)
          | _ => (acc.1 + 1, (one acc.2 0).send (.core core) core (pa / 256) (pteKey leaf) part (pteHome leaf == 2) r.clock
              (.wback data (r.lineMask line) none poison) [await])) (0, s)

/-- R166: the write-back of a region line is translated again. -/
def State.regionRes (s : State) (w : Who) (r : Region) (line : Nat) : LaneRes :=
  let va := r.base + BitVec.ofNat 64 (256 * line)
  match s.reach w va 256 .write with
  | .ok (sg :: _) => (match s.targetFault w.core { sg with n := 256 } 256 none with | some c => .trap c va | none => .glob va [sg])
  | .ok [] => .trap .permission va
  | .trap c a => .trap c a
  | .serve c a => .serve c a
  | .miss a => .miss a

/-- The dirty lines of the named regions go home, each to where it was translated; SPREL has each region unmapped with the last reply. -/
def State.writeRegions (s : State) (iss : Iss) (named : List (Nat × Region)) (res : List (Nat × Nat × LaneRes)) (unmap : Bool) : State :=
  let (id, s) := s.newId
  let target (k line : Nat) : Option (Nat × W64) :=
    (res.find? (fun e => e.1 == k && e.2.1 == line)).bind (fun e => match e.2.2 with | .glob _ (sg :: _) => some (sg.pa, sg.leaf) | _ => none)
  let (n, s) := named.foldl (fun (acc : Nat × State) e =>
    let r := acc.2.writeRegion iss.w.core iss.w.team iss.w.part e.1 iss.w.asid (s.edgeNow iss.w.g) (target e.1) (.store iss.w.g id true (lowest iss.act) iss.pc 0)
      (fun s va pa => s.countLane iss.w.g 1 va pa)
    (acc.1 + r.1, r.2)) (0, s)
  let s := s.updCtx iss.w.g (fun c => c.storeBegin id n 0)
  let drop (t : Tab Region) (k : Nat) : Tab Region :=
    if n = 0 then Tab.erase t k else Tab.upd t k (fun g => { g with closing := some id })
  if unmap then s.updTeam iss.w.team (fun t => { t with regions := (named.map (·.1)).foldl drop t.regions }) else s

/-- The mapped regions that an SPWB or SPREL names. -/
def State.namedRegions (s : State) (iss : Iss) : List (Nat × Region) :=
  match s.team iss.w.team with | some t => t.regions.filter (fun e => modBit iss.x.mod e.1 && !e.2.gone) | none => []

/-- Accesses to a region have issued and are not performed: a touch fills first and is then written back (R378). -/
def Team.inUse (t : Team) (r : Region) : Bool := !r.asked.isEmpty || t.array.any (fun o => overlap r.off r.len o.off o.n)

def State.regionsInUse (s : State) (team : Nat) (named : List (Nat × Region)) : Bool :=
  match s.team team with | some t => named.any (fun e => t.inUse e.2) | none => false

/-- SPWB and SPREL: write back the named mapped regions, once the accesses that have issued to them are performed; SPREL unmaps each once every
write-back has replied. -/
def State.regionOp (s : State) (i : Instr) (x : Args) (unmap : Bool) : Host.Outcome State Fault Refusal :=
  s.issue i x (fun iss s =>
    if iss.act = 0 then { st := s }
    else
      let named := s.namedRegions iss
      let at_ : Iss := { iss with uni := true, lanes := iss.act }
      let res : List (Nat × Nat × LaneRes) := named.flatMap (fun e => e.2.dirtyLines.map (fun l => (e.1, l, s.regionRes iss.w e.2 l)))
      let flat := res.map (fun e => (lowest iss.act, e.2.2))
      let pages := missPages at_ flat
      if s.acquiring iss.w.g || s.regionsInUse iss.w.team named then .stall s
      else if !pages.isEmpty then .stall (s.holdWalks iss.w pages .write)
      else if s.accessShut at_ flat then .stall (s.accessRecall at_ flat)
      else
        let p := s.planLanes at_ .write false flat
        if !p.causes.isEmpty || p.stay != 0 then { st := p.st, causes := p.causes, stay := p.stay }
        else
          { st := p.st.writeRegions iss named res unmap })

def execSpwb (x : Args) (s : State) : Host.Outcome State Fault Refusal := s.regionOp (.spwb x) x false
def execSprel (x : Args) (s : State) : Host.Outcome State Fault Refusal := s.regionOp (.sprel x) x true

end Sys2Proof.Machine
end

