-- ==== Sys2Proof/Machine/Atomic.lean ====
section
/-!
DEFINITION. Lane class 0x6 and the uniform atomic and fence (R360 to R362); the completion of stores and of results of variable latency
(R261, R262, R353), and the accesses that a scratchpad array performs.
-/

namespace Sys2Proof.Machine

/-! ## The operation (R360, R361) -/

/-- What an atomic writes. -/
def atomNew (o : AtomOp) (old : Nat) : Nat :=
  let n := 2 ^ Ty.bits o.ty
  let b := o.b.toNat % n
  let int (f : Int → Int → Int) : Nat := (f (valOf o.ty (BitVec.ofNat 64 old)) (valOf o.ty o.b) % (n : Int)).toNat
  let float := o.ty == .f32 || o.ty == .f64
  match o.op with
  | 0 => if float then (fAdd (fmtOf o.ty) {} old b).bits else (old + b) % n
  | 1 => if float then (fMinMax (fmtOf o.ty) false false old b).bits else int (fun x y => min x y)
  | 2 => if float then (fMinMax (fmtOf o.ty) false true old b).bits else int (fun x y => max x y)
  | 3 => old &&& b
  | 4 => old ||| b
  | 5 => old ^^^ b
  | 6 => b
  | 7 => if b ≤ old then 0 else old + 1
  | _ => if old = o.cmp.toNat % n then b else old

/-- The operation of one lane: compare-and-swap takes the compare value in the low half of SB and the new value in the high half. -/
def Iss.atomOf (iss : Iss) (s : State) (cas : Bool) (lane : Nat) : AtomOp :=
  let x := iss.x
  if cas then
    let n := Ty.regs x.ty
    let v := s.regsVal iss.w.g lane x.b (2 * n)
    { op := 8, ty := x.ty, b := BitVec.ofNat 64 (v / 2 ^ (32 * n)), cmp := BitVec.ofNat 64 (v % 2 ^ (32 * n)) }
  else { op := modBits x.mod 9 7, ty := x.ty, b := iss.src s lane x.ty x.b }

/-- One lane's atomic goes to its point of performance. -/
def State.atomLane (s : State) (iss : Iss) (fid n : Nat) (cas : Bool) (r : Nat × LaneRes) : State :=
  let op := iss.atomOf s cas r.1
  match r.2 with
  | .glob _ segs => segs.foldl (fun s sg =>
      match targetOf sg.pa sg.leaf with
      | .none => (s.bytesIn iss.w.g fid r.1 sg.pos sg.n 0).atomSeg iss.w sg op .none
      | _ => (s.missIn iss.w.g fid).atomSeg iss.w sg op (.flight iss.w.g fid r.1 (sg.pa % 256) sg.pos sg.n)) s
  | .sp t o fills => ((s.missIn iss.w.g fid).toArray iss r.1 t o n fills (.atomic op (some fid)) .none 0).2
  | _ => s

/-! ## Completion of results (R261, R332) -/

/-- The bytes gathered for a lane, n of them from the first. -/
def Flight.value (f : Flight) (lane n : Nat) : Nat :=
  (List.range n).foldl (fun v k => v + (Tab.get 0 f.bytes (64 * lane + k)).toNat * 2 ^ (8 * k)) 0

/-- Lanes that receive the result. -/
def Flight.landing (f : Flight) : List Nat := (lanesOf (f.lanes &&& ~~~f.dead)).filter (fun j => (Tab.find f.bad j).isNone)

/-- The writes of one lane. -/
def Flight.laneWrites (f : Flight) (j : Nat) : List RegWrite :=
  match f.form with
  | .plain d ty size =>
    let v := f.value j size
    regWrites d j (max 1 (size / 4)) (if size < 4 then (putVal ty (v : Int)).toNat else v)
  | .cas d ty pd =>
    let v := f.value j (Ty.bits ty / 8)
    let ok := v == (Tab.get 0 f.cmp j).toNat % 2 ^ Ty.bits ty
    putWrites ty d j (BitVec.ofNat 64 v) ++ predWrites false j pd ok
  | .ldf d wide t4 =>
    -- the scale bytes that the lane has read: none, one or two
    let sc := (List.range 2).filterMap (fun k => (Tab.find f.bytes (64 * j + 16 + k)).map (·.toNat))
    let (v, fl) := decodePiece t4 wide (f.value j 16) sc
    (List.range (pieceElems t4 * Ty.bits wide / 32)).map (fun k =>
      { lane := j, dest := .v (d + k), val := BitVec.ofNat 128 (v / 2 ^ (32 * k) % 2 ^ 32) }) ++ flagWrites j fl
  | .ready => f.writes.filter (fun w => w.lane == j)

/-- Lower the counter that a result holds. -/
def Ctx.lower (c : Ctx) (k : Counter) : Ctx :=
  match k with | .none => c | .ld => { c with ld := c.ld - 1 } | .st => { c with st := c.st - 1 }

/-- Lanes go back to an instruction that they have not executed after all: what they issued since under speculation is undone. A word of a
program buffer has no address, and moves no lane (R235). -/
def State.goBack (s : State) (g : Agent) (lanes : Mask) (pc : W64) : State :=
  if pc == bufferPc then s else match g with
  | .ct t => if lanes = 0 then s else s.updTeam t (fun x => { x with cpc := pc })
  | .warp w => s.updWarp w (fun x =>
      let m := lanes &&& x.live &&& ~~~x.parked
      ((x.undoAfter 0 m).2.offPath m).goTo (lanesOf m) pc)

/-- Lanes hold a cause that they raise when they execute an instruction again: that at an address, or the one at which they stand. -/
def State.owe (s : State) (g : Agent) (lanes : Mask) (c : Cause) (va : W64) (pc : Option W64) : State :=
  match g with
  | .ct t => if lanes = 0 then s else s.updTeam t (fun x => { x with
      ctFault := some { cause := c, va := va, pc := pc.getD x.cpc, handler := x.ct.handler } })
  | .warp w => s.updWarp w (fun x => { x with
      unpend := (lanesOf lanes).foldl (fun u j =>
        oweIn u j { cause := c, va := va, pc := pc.getD (Tab.get 0 x.lpc j), handler := x.ctx.handler }) x.unpend })

/-- The access of a trap that waits issued before another access. -/
def PendTrap.before (t : PendTrap) (id : Nat) : Bool := t.keep || (t.access != 0 && decide (t.access < id))

/-- Lanes hold a cause for an access while a trap waits already. They wait at the access and raise their cause there; but those that the
trap has too stay at whichever of the two instructions issued first, and owe the other's cause (R99). -/
def State.lateBeside (s : State) (g : Agent) (t p : PendTrap) : State :=
  let both := p.lanes &&& t.lanes
  if t.before p.access || both = 0 then (s.goBack g p.lanes p.pc).owe g p.lanes p.cause p.addr (some p.pc)
  else
    let left := t.lanes &&& ~~~both
    let s := (s.goBack g p.lanes p.pc).owe g both t.cause t.addr (some t.pc)
    if left = 0 then s.updCtx g (fun x => { x with trap := some p })
    else (s.owe g p.lanes p.cause p.addr (some p.pc)).updCtx g (fun x => { x with trap := some { t with lanes := left } })

/-- Causes that lanes turn out to hold for an access that had issued (R99, R130, R163): the lowest is taken at the agent's next decision, with
the lanes at the access; lanes with others execute it again. 'id' is the number of the access. -/
def State.lateCauses (s : State) (g : Agent) (id : Nat) (pc : W64) (bad : List (Nat × Cause × W64)) : State :=
  match lowestCause bad, s.ctx g with
  | some (c, lanes, va), some x =>
    let s := s.goBack g (maskOf (bad.map (·.1)) &&& ~~~lanes) pc
    let p : PendTrap := { lanes := lanes, cause := c, pc := pc, addr := va, access := id }
    match x.trap with
    | some t => if pc == bufferPc then s else s.lateBeside g t p
    | none => s.updCtx g (fun x => { x with trap := some p })
  | _, _ => s

/-- A result that has all its bytes is written, its tag and counter free, and an acquire completes. Lanes whose bytes were poisoned
raise DATA_UNCORRECTABLE (R130), those that a peer or the host refused its cause; of a speculative load that is a deferred condition
(R92). -/
def State.finishFlight (s : State) (g : Agent) (f : Flight) : State :=
  let s := s.updCtx g (fun c => { (c.lower f.cnt) with
    flights := c.flights.filter (fun o => o.id != f.id)
    busy := if f.tag = 0 then c.busy else c.busy &&& ~~~(BitVec.ofNat 8 (2 ^ f.tag)) })
  let now := s.cycle (agentCore g)
  let ws := f.landing.flatMap f.laneWrites
  let live := match s.ctx g with | some c => c.notOvertaken now f.id ws | none => ws
  let s := (s.putRegs g f.spec live).updCtx g (fun c => c.noteLanded now f.id ws)
  let s := match f.acquire with | some scope => s.acquireEnd g scope | none => s
  let bad := (f.bad.filter (fun b => (f.lanes &&& ~~~f.dead).getLsbD b.1)).flatMap (fun b =>
    (if f.blame = 0 then [b.1] else lanesOf (f.blame &&& ~~~f.dead)).map (fun j => (j, b.2, Tab.get 0 f.vas b.1)))
  match f.spec, g with
  | some id, .warp w => s.updWarp w (fun x => { x with
      window := x.window.map (fun o => if o.id = id then { o with deferred := o.deferred ||| maskOf (bad.map (·.1)) } else o) })
  | _, _ => s.lateCauses g f.id f.pc bad

/-- A piece of a result is complete; a result that no tag names finishes with its last piece. -/
def State.pieceDone (s : State) (g : Agent) (id : Nat) : State :=
  let s := s.pieceIn g id
  match s.flight g id with
  | some f => if f.tag = 0 && f.missing == 0 && f.form == .ready && f.cnt != .none then s.finishFlight g f else s
  | none => s

/-! ## The instructions (R360, R361) -/

/-- The lanes that perform their atomic: a result that TAG_FREE writes, or for ATOMN a count that the last reply lowers. -/
def State.atomLanes (iss : Iss) (p : Plan) (x : Args) (cas result : Bool) : Eff :=
  let n := Ty.bits x.ty / 8
  let done (s : State) : Eff := { st := s, causes := p.causes, stay := p.stay }
  if p.ok.isEmpty then done (if result then p.st.passTag iss else p.st)
  else
    let (fid, s) := p.st.newId
    let pd := if cas && !iss.uni then modBits x.mod 9 7 else 7
    let form : Form := if !result then .ready else if cas then .cas x.d x.ty pd else .plain x.d x.ty n
    let cmp : Tab W64 := if cas then p.ok.foldl (fun t r => Tab.set t r.1 (iss.atomOf s true r.1).cmp) [] else []
    let f : Flight := { id := fid, tag := 0, cnt := if result then .ld else .st, pc := 0, lanes := 0, form := form,
                        blame := if iss.uni then iss.lanes else 0, acquire := acquireOf x, cmp := cmp, vas := p.addrs
                        room := p.waiting iss.w.g, missing := if p.waiting iss.w.g = 0 then 0 else 1 }
    let iss' := { iss with act := p.lanes, x := if result then x else { x with ctl := { x.ctl with alloc := 0 } } }
    let s := s.beginFlight iss' f
    let s := match iss.w.g with
      | .warp w => if pd = 7 then s
        else s.updWarp w (fun y => y.pendWrite fid iss.spec (p.ok.map (fun (r : Nat × LaneRes) => { lane := r.1, dest := .p pd, val := 0 })))
      | .ct _ => s
    let s := p.ok.foldl (fun s r => s.atomLane iss fid n cas r) s
    -- an ATOMN that awaits nothing is performed
    done (match result, s.flight iss.w.g fid with
      | false, some f => if f.missing = 0 then s.finishFlight iss.w.g f else s
      | _, _ => s)

/-- ATOM, ATOMN, ACAS, UATOM. 'result' is false for ATOMN, which takes no tag and counts on cnt.st. -/
def State.atomOp (s : State) (i : Instr) (x : Args) (cas result : Bool) : Host.Outcome State Fault Refusal :=
  s.issue i x (fun iss s =>
    if iss.act = 0 then { st := if result then s.passTag iss else s }
    else
      let n := Ty.bits x.ty / 8
      let res := iss.each.map (fun j => (j, s.laneRes iss j none n .atomic (some (iss.atomOf s cas j))))
      match s.splitAccess iss .atomic res with
      | .error s => .stall s
      | .ok (s, res, stay) =>
        match s.waitRelease (iss.without stay) with
        | (false, s) => .stall s
        | (true, s) => State.atomLanes iss ((s.planLanes iss .atomic true res).staying stay) x cas result)

def execAtom (x : Args) (s : State) : Host.Outcome State Fault Refusal := s.atomOp (.atom x) x false true
def execAtomn (x : Args) (s : State) : Host.Outcome State Fault Refusal := s.atomOp (.atomn x) x false false
def execAcas (x : Args) (s : State) : Host.Outcome State Fault Refusal := s.atomOp (.acas x) x true true
def execUatom (x : Args) (s : State) : Host.Outcome State Fault Refusal :=
  s.atomOp (.uatom x) x (modBits x.mod 9 7 == 7) true

/-! ## Fences (R362) -/

/-- Loads, atomics and service replies of an agent that have not completed. -/
def State.awaiting (s : State) (g : Agent) : Bool :=
  match s.ctx g with | some c => c.flights.any (fun f => f.missing != 0 || f.svc) | none => false

/-- FENCE and UFENCE: the agent is not ready until the fence completes. One of order .rel or .ar begins its release at once (R115); one that
acquires also waits for what the agent has read so far, and every one for its HOME 3 accesses (R132, R135). -/
def State.fenceOp (s : State) (i : Instr) (x : Args) : Host.Outcome State Fault Refusal :=
  s.issue i x (fun iss s =>
    let order := orderOf x.mod
    if iss.act = 0 || order == 0 then { st := s }
    else
      let acq := order == 1 || order == 3
      let ready := !(acq && s.awaiting iss.w.g) && !s.rawBusy iss.w.g
      match (if 2 ≤ order then s.gate iss (scopeOf x.mod) ready
        else if ready then (true, s.endHold iss.w.g) else (false, s.holdIn iss (.release s.time))) with
        | (false, s) => .stall s
        | (true, s) => { st := if acq then s.acquireEnd iss.w.g (scopeOf x.mod) else s })

def execFence (x : Args) (s : State) : Host.Outcome State Fault Refusal := s.fenceOp (.fence x) x
def execUfence (x : Args) (s : State) : Host.Outcome State Fault Refusal := s.fenceOp (.ufence x) x

/-! ## Completion of stores (R262, R359) -/

/-- A write of a cnt.st instruction is refused in a lane: the cause is raised once all its writes are answered, so that the lanes that hold it
trap together (R99). -/
def State.storeRefused (s : State) (g : Agent) (id lane : Nat) (pc : W64) (c : Cause) (va : W64) : State :=
  s.updCtx g (fun x =>
    let lanes := match Tab.find x.storeFor id with | some m => lanesOf m | none => [lane]
    { x with storeBad := Tab.set x.storeBad id (pc, (Tab.get (pc, []) x.storeBad id).2 ++ lanes.map (fun j => (j, c, va))) })

/-- A write of a cnt.st instruction is performed, or refused; with its last one an SPREL unmaps its regions, and the lanes that were refused
hold their causes. -/
def State.storeDone (s : State) (g : Agent) (id : Nat) : State :=
  let s := s.updCtx g (fun c => c.storeDone id)
  match s.ctx g with
  | none => s
  | some c =>
    if (Tab.find c.stores id).isSome then s
    else
      let s := s.updTeam c.team (fun t => (t.closeRegions id).dropRegions)
      match Tab.find c.storeBad id with
      | some (pc, bad) => (s.updCtx g (fun c => { c with storeBad := Tab.erase c.storeBad id })).lateCauses g id pc bad
      | none => s

/-! ## Scratchpad arrays (R353, R361) -/

/-- An access may be performed: no earlier access of its agent to a common byte is waiting (R353, R361), and its region lines are filled. The
model keeps all lanes of a warp in order there, since a uniform access is every executing lane's (R135, R138). -/
def Team.arrayReady (t : Team) (o : ArrayOp) : Bool :=
  (t.array.takeWhile (fun e => e.id != o.id)).all (fun e => !(e.agent == o.agent && overlap e.off e.n o.off o.n)) && (t.untouched o.off o.n).isEmpty

/-- The 32-byte blocks of a scratchpad that n bytes touch. -/
def blocks32 (off n : Nat) : List Nat := (List.range ((off + n - 1) / 32 + 1 - off / 32)).map (off / 32 + ·)

/-- A store to the scratchpad leaves its agent's clock with the bytes; an acquire after a read of them takes it (R136, R137, R140), and the clock of
a barrier object there (R364, R369). The spec says that the two synchronise, not by which clock: the model keeps one for each 32 bytes
(DEDUCED, log entry 39). -/
def State.leaveClock (s : State) (team off n : Nat) (clk : W32) : State :=
  s.updTeam team (fun t => { t with
    relClock := (blocks32 off n).foldl (fun r k => Tab.set r k (match Tab.find r k with | some c => serialMax c clk | none => clk)) t.relClock })

def State.takeClock (s : State) (g : Agent) (acquires : Bool) (team off n : Nat) : State :=
  match s.team team with
  | none => s
  | some t => (blocks32 off n).foldl (fun s k => [Tab.find t.relClock k, Tab.find t.objClock k].foldl (fun s c =>
      match c with | some c => s.meetClock g acquires c | none => s) s) s

/-- The access of an array reads, or stores. -/
def ArrayOp.reads (o : ArrayOp) : Bool := match o.kind with | .load .. => true | .store _ => false | .atomic .. => true
def ArrayOp.stores (o : ArrayOp) : Bool := match o.kind with | .load .. => false | .store _ => true | .atomic .. => true

/-- The access of an array is part of an acquire. -/
def State.acquires (s : State) (o : ArrayOp) : Bool :=
  match o.kind with
  | .load fid _ => (match s.flight o.agent fid with | some f => f.acquire.isSome | none => false)
  | .atomic _ (some fid) => (match s.flight o.agent fid with | some f => f.acquire.isSome | none => false)
  | _ => false

/-- An access that comes from another core meets a held range as it arrives, that is with the first of its pieces (R142). -/
def State.arrayLocked (s : State) (team : Nat) (o : ArrayOp) : Bool :=
  let access : Access := match o.kind with | .load .. => .read | .store _ => .write | .atomic .. => .atomic
  agentCore o.agent != team / 8 && !o.passed && s.lockedSp team o.whole.1 o.whole.2 access

/-- A piece of such an access has no effect; its lanes raise RANGE_LOCK. -/
def State.refusePiece (s : State) (o : ArrayOp) : State :=
  let refuse (fid : Nat) : State := (s.badIn o.agent fid o.lane .rangeLock).pieceDone o.agent fid
  match o.kind with
  | .load fid _ => refuse fid
  | .atomic _ (some fid) => refuse fid
  | _ => (s.storeRefused o.agent o.owner o.lane o.pc .rangeLock (BitVec.ofNat 64 o.whole.1)).storeDone o.agent o.owner

/-- The whole access is refused, its other pieces with it. -/
def State.refuseArray (s : State) (team : Nat) (o : ArrayOp) : State :=
  let rest := match s.team team with | some t => t.array.filter (fun e => e.first == o.first) | none => []
  let s := s.updTeam team (fun t => { t with array := t.array.filter (fun e => e.first != o.first) })
  (o :: rest).foldl (fun s e => s.refusePiece e) s

/-- The range locks have let an access in: its other pieces are not checked again. -/
def Team.letIn (t : Team) (first : Nat) : Team :=
  { t with array := t.array.map (fun e => if e.first = first then { e with passed := true } else e) }

/-- One access is performed. -/
def State.performArray (s : State) (team : Nat) (o : ArrayOp) : State :=
  let s := s.updTeam team (fun t => { t with array := t.array.filter (fun e => e.id != o.id) })
  if s.arrayLocked team o then s.refuseArray team o else
  let s := s.updTeam team (fun t => t.letIn o.first)
  let s := if o.reads then s.takeClock o.agent (s.acquires o) team o.off o.n else s
  let s := if o.stores then (match s.ctx o.agent with | some c => s.leaveClock team o.off o.n c.wclk | none => s) else s
  let clk := match s.ctx o.agent with | some c => c.wclk | none => 0
  let bytes (fid pos : Nat) (v : Nat) (s : State) : State :=
    let s := s.bytesIn o.agent fid o.lane pos o.n v
    let s := if s.scratchBad team o.off o.n then s.badIn o.agent fid o.lane .dataUncorrectable else s
    s.pieceDone o.agent fid
  match o.kind with
  | .load fid pos => bytes fid pos (s.readScratch team o.off o.n) s
  | .store data => (s.writeScratch team o.off o.n data.toNat clk).storeDone o.agent o.owner
  | .atomic op fid =>
    let old := s.readScratch team o.off o.n
    let s1 := match fid with | some f => bytes f 0 old s | none => s
    s1.writeScratch team o.off o.n (atomNew op old) clk

/-- The lanes of an access that waited for room in the miss buffer have it, or have left: its tag and its counters wait for them no longer (R159). -/
def State.roomFound (s : State) (w : Nat) : State :=
  let g := Agent.warp w
  let still := s.noRoom g
  match s.ctx g with
  | none => s
  | some c =>
    let s := (c.flights.filter (fun f => f.room != 0 && f.room &&& still == 0)).foldl (fun s f =>
      (s.updFlight g f.id (fun f => { f with room := 0 })).pieceDone g f.id) s
    (c.roomFor.filter (fun e => e.2 &&& still == 0)).foldl (fun s e =>
      (s.updCtx g (fun c => { c with roomFor := Tab.erase c.roomFor e.1 })).storeDone g e.1) s

/-- The move of an array: the named access, if it may be performed. -/
def State.arrayMove (s : State) (team id : Nat) : State :=
  match s.team team with
  | none => s
  | some t =>
    match t.array.find? (fun o => o.id == id) with
    | some o => if t.arrayReady o then s.performArray team o else s
    | none => s

end Sys2Proof.Machine
end

