-- ==== Sys2Proof/Machine/Trace.lean ====
section
/-!
DEFINITION. What the debug and traverse units record: the event log of the debug window (R230, R231, R233) and the stations of long
waits (R229, R242, R244).
-/

namespace Sys2Proof.Machine

/-! ## The debug window -/

/-- R230: the base of an active window that lies within home 4's populated range. A BASE there that is no multiple of
16 KiB is not covered by R230: the model leaves the unit idle (DESIGN CHOICE, log entry 46). -/
def State.debugWindow (s : State) : Option Nat :=
  let base := s.dbgbase.toNat / 4096 * 4096 % 2 ^ 52
  if s.dbgbase.getLsbD 0 && homeOf base == some 4 && homeOf (base + 16383) == some 4 && base % 16384 == 0 then some base else none

/-- R233: a record goes to the log, a ring of 64, under the number that EVCOUNT gives. -/
def State.logRecord (s : State) (base v : Nat) : State :=
  let n := s.homeRead (base + 0x2800) 4
  (s.ownWrite 0 0 (base + 0x2000 + 32 * (n % 64)) 32 v none).ownWrite 0 0 (base + 0x2800) 4 ((n + 1) % 2 ^ 32) none

/-- The records that wait go to the log, as soon as no host holds the line of EVCOUNT (R60) and no write of it waits at its home. -/
def State.flushLog (s : State) : State :=
  match s.dbgLog, s.debugWindow with
  | [], _ => s
  | _, none => { s with dbgLog := [] }
  | l, some base =>
    let line := (base + 0x2800) / 256
    if s.hostOwns line then s.snoop line false false
    else if s.lineBusy line then s
    else
      match l with
      | v :: rest => ({ s with dbgLog := rest } : State).logRecord base v
      | [] => s

/-- The writes that the device made under numbers below a mark are performed. -/
def State.ownDone (s : State) (mark : Nat) : Bool :=
  !s.reqs.any (fun r => r.src == .own && decide (r.id < mark)) &&
  !s.hostTxns.any (fun t => t.write && t.await == .none && decide (t.id < mark))

/-- The first of the writes that wait for earlier ones, where it may go. -/
def State.flushOne (s : State) : State :=
  match s.ownLate with
  | e :: rest =>
    if s.dbgLog.isEmpty && s.ownDone e.mark then ({ s with ownLate := rest } : State).ownWrite e.core 0 e.pa e.n e.v none else s
  | [] => s

def State.flushLate (s : State) : State := s.ownLate.foldl (fun s _ => s.flushOne) s

/-- A write that the device makes as a release: after every write that it has made before (R232, R244). -/
def State.ownAfter (s : State) (core pa n v : Nat) : State :=
  ({ s with ownLate := s.ownLate ++ [{ mark := s.nextId, core := core, pa := pa, n := n, v := v }] } : State).flushLate

/-- R233: append an event record. -/
def State.logEvent (s : State) (cause : Cause) (identity : W32) (pc : W64) (arriver : W32) : State :=
  if s.debugWindow.isNone then s
  else
    let v := causeCode cause + identity.toNat * 2 ^ 32 + s.datum % 2 ^ 64 * 2 ^ 64 + pc.toNat * 2 ^ 128 + arriver.toNat * 2 ^ 192
    ({ s with dbgLog := s.dbgLog ++ [v] } : State).flushLog

/-! ## Traverses -/

/-- The edge id of a station (R229). -/
def edgeOf (die : Nat) (chip : Nat) (seq : W32) : W64 :=
  BitVec.ofNat 64 (2 ^ 63 + die * 2 ^ 60 + chip % 1024 * 2 ^ 50 + seq.toNat)

/-- The size of a die's buffer in stations; its register's field. -/
def trLog (w : W64) : Nat := w.toNat / 2 % 32

/-- TRCFG.EN of a die as a STEP finds it: the value before a change in the same cycle (R327). -/
def State.stepEn (s : State) (die : Nat) : Bool :=
  match Tab.find s.trcfgWas die with
  | some (at_, w) => (if at_ = s.time / 50 then w else s.trcfg.getD die 0).getLsbD 0
  | none => (s.trcfg.getD die 0).getLsbD 0

/-- The bytes of a station (R244). -/
def stationBytes (begin_ release : Nat) (waiter arriver : W32) (kind object : Nat) (edge : W64) : Nat :=
  begin_ % 2 ^ 32 + release % 2 ^ 32 * 2 ^ 32 + waiter.toNat * 2 ^ 64 + arriver.toNat * 2 ^ 96 +
    (object % 2 ^ 57 + kind * 2 ^ 57) * 2 ^ 128 + edge.toNat * 2 ^ 192

/-- Where the station with the next SEQ of a die lies (R242). -/
def State.stationAt (s : State) (die : Nat) : Nat :=
  let cfg := s.trcfg.getD die 0
  cfg.toNat / 4096 * 4096 % 2 ^ 52 + 32 * ((s.trseq.getD die 0).toNat % 2 ^ trLog cfg)

def State.nextSeq (s : State) (die : Nat) : State := { s with trseq := s.trseq.set die (s.trseq.getD die 0 + 1) }

/-- Write a station with the next SEQ of a core's die (R242, R244); answers its edge id. -/
def State.writeStation (s : State) (core : Nat) (begin_ release : Nat) (waiter arriver : W32) (kind : Nat) (object : Nat)
    (edge : W64) : W64 × State :=
  let die := dieOf core
  (edgeOf die s.chipcfg.toNat (s.trseq.getD die 0),
    (s.ownWrite core 0 (s.stationAt die) 32 (stationBytes begin_ release waiter arriver kind object edge) none).nextSeq die)

/-- Write the marker of a step (R244, R317): the stations that were written before it are visible before it. -/
def State.writeMarker (s : State) (core : Nat) (waiter : W32) (step : Nat) (edge : W64) : State :=
  (s.ownAfter core (s.stationAt (dieOf core)) 32 (stationBytes s.datum s.datum waiter waiter 5 step edge)).nextSeq (dieOf core)

/-- R244: the release of a wait in which the agent blocked from machine time 'began' on: it takes the arriver's edge id, or that of
a station if the wait was long. Stations are numbered when the cycle ends (R426); until then the agent does not issue. The spec gives
no OBJECT for the kinds 1 to 3: free bits (log entry 4). -/
def State.waitOver (s : State) (g : Agent) (began : Nat) (arriver : W32) (edge : W64) (kind object : Nat) : State :=
  let core := agentCore g
  let die := dieOf core
  let long := decide ((s.trthresh.getD die 0).toNat ≤ s.datum - began / 47)
  if long && (s.trcfg.getD die 0).getLsbD 0 then
    let (f, s1) := s.free
    let (obj, s) : Nat × State := if kind = 1 ∨ kind = 2 ∨ kind = 3 then (f.toNat % 2 ^ 57, s1) else (object, s)
    let next := s.cycle core + 1
    let x : Station := { g := g, began := began / 47, release := s.datum, arriver := arriver, edge := edge, kind := kind, object := obj }
    ({ s with stations := s.stations ++ [x] } : State).updCtx g (fun c => { c with gapUntil := max c.gapUntil next })
  else s.updCtx g (fun c => { c with edge := edge })

/-- Insert a station by the identity of its waiter. -/
def insertStation (x : Station) (l : List Station) : List Station :=
  match l with
  | [] => [x]
  | y :: r => if (identity x.g).toNat < (identity y.g).toNat then x :: y :: r else y :: insertStation x r

/-- R426: the stations of one core cycle take their numbers in the order of their waiters' identities, when the cycle ends: after the next dt
units. -/
def State.numberStations (s : State) (dt : Nat) : State :=
  let ends (x : Station) : Bool := s.cycleEnds (agentCore x.g) dt
  match s.stations.filter ends with
  | [] => s
  | l => (l.foldl (fun o x => insertStation x o) []).foldl (fun s x =>
      let (id, s) := s.writeStation (agentCore x.g) x.began x.release (identity x.g) x.arriver x.kind x.object x.edge
      s.updCtx x.g (fun c => { c with edge := id })) { s with stations := s.stations.filter (fun x => !ends x) }

/-- The identity of an engine command of a core (R228). -/
def engineCode (matrix : Bool) (core : Nat) : W32 := BitVec.ofNat 32 ((if matrix then 3 else 2) * 2 ^ 29 + core)

/-! ## Halting (R234, R237) -/

/-- The attached debug context that holds an ASID (R232). -/
def State.dbgOf (s : State) (asid : W16) : Option DbgCtx := s.dbgctx.find? (fun c => c.asid == asid && c.attached)

/-- The comparators of a context hold an address (R237). -/
def State.bpAt (s : State) (asid : W16) (pc : W64) : Option DbgCtx :=
  match s.dbgOf asid with
  | some d => if d.bps.any (fun b => b.2 == pc) then some d else none
  | none => none

/-- A warp or a control thread halts, or in lane-stop mode some lanes do; the event is logged. -/
def State.halt (s : State) (g : Agent) (lanes : Mask) (laneStop : Bool) (cause : Cause) (pc : W64) : State :=
  let s := match g with
    | .warp w => s.updWarp w (fun x => { x with halted := x.halted ||| (if laneStop then lanes else x.live) })
    | .ct t => s.updCtx (.ct t) (fun c => { c with halted := true })
  s.logEvent cause (identity g) pc 0

end Sys2Proof.Machine
end

