-- ==== Sys2Proof/Machine/Barrier.lean ====
section
/-!
DEFINITION. Barrier objects (R363 to R365, R367): their words, arrivals and flips, how an instruction reaches one, the watchpoints
that observe it (R238), and blocked lanes.
-/

namespace Sys2Proof.Machine

/-! ## Back-invalidations (R60) -/

/-- R112: a read at the home with clock c; answers the line's wts. -/
def State.stampRead (s : State) (k line : Nat) (key : BitVec 6) (part : Nat) (home2 : Bool) (c : W32) : W32 × State :=
  let s := ((s.sweepFirst k line).raiseMts k c).fetchLine k line key part home2
  match Tab.find s.l2 line with
  | none => (c, s)
  | some l =>
    let rts := serialMax l.rts c
    (l.wts, ({ s with l2 := Tab.set s.l2 line { l with rts := rts } } : State).raiseMts k rts)

/-! ## The object (R363) -/

/-- A barrier object's fields. 'last' is words 4 to 7: identity, CSN and edge id of the last arriver. -/
structure Obj where
  expect  : Nat
  epoch   : Nat
  scope   : Nat
  lastErr : Bool
  arrived : Nat
  err     : Bool
  pending : W32
  watch   : W32
  last    : BitVec 128
deriving DecidableEq, Repr

/-- Read 32 bytes as an object. -/
def Obj.ofBytes (v : Nat) : Obj where
  expect := v % 2 ^ 16
  epoch := v / 2 ^ 16 % 2 ^ 12
  scope := v / 2 ^ 28 % 8
  lastErr := v / 2 ^ 31 % 2 = 1
  arrived := v / 2 ^ 32 % 2 ^ 16
  err := v / 2 ^ 48 % 2 = 1
  pending := BitVec.ofNat 32 (v / 2 ^ 64)
  watch := BitVec.ofNat 32 (v / 2 ^ 96)
  last := BitVec.ofNat 128 (v / 2 ^ 128)

/-- Its 32 bytes; unlisted bits are zero. -/
def Obj.toBytes (o : Obj) : Nat :=
  o.expect + o.epoch * 2 ^ 16 + o.scope * 2 ^ 28 + (if o.lastErr then 2 ^ 31 else 0) + o.arrived * 2 ^ 32 +
  (if o.err then 2 ^ 48 else 0) + o.pending.toNat * 2 ^ 64 + o.watch.toNat * 2 ^ 96 + o.last.toNat * 2 ^ 128

/-- Words 4 to 7. -/
def lastWords (who csn : W32) (edge : W64) : BitVec 128 := edge ++ (csn ++ who)

/-- check(obj) of R365: whether the phase flips, and the object after it. -/
def Obj.check (o : Obj) : Bool × Obj :=
  if o.arrived = o.expect ∧ o.pending = 0 then
    (true, { o with epoch := (o.epoch + 1) % 4096, lastErr := o.err, err := false, arrived := 0 })
  else (false, o)

/-- arrive(obj, n, x) of R365; none is BARRIER_OVERRUN. -/
def Obj.arrive (o : Obj) (n : Nat) (x : W32) (last : BitVec 128) : Option (Bool × Obj) :=
  if o.expect < o.arrived + n then none
  else some (Obj.check { o with arrived := o.arrived + n, pending := o.pending + x, last := if n = 0 then o.last else last })

/-- bytes(obj, k) of R365. -/
def Obj.bytesDone (o : Obj) (k : Nat) (last : BitVec 128) : Bool × Obj :=
  Obj.check { o with pending := o.pending - BitVec.ofNat 32 k, last := last }

/-- R193 steps 3 and 4: the error bit is set and k bytes are given up. -/
def Obj.fail (o : Obj) (k : Nat) : Bool × Obj := Obj.check { o with err := true, pending := o.pending - BitVec.ofNat 32 k }

/-- R367: the epoch has passed e. -/
def epochPassed (epoch e : Nat) : Bool :=
  let d := (epoch + 4096 - e % 4096) % 4096
  decide (1 ≤ d ∧ d ≤ 2047)

/-! ## Objects in memory -/

/-- The address or offset of an object, as TRAPADDR, a station and an event record give it. -/
def ObjLoc.addr (o : ObjLoc) : W64 := match o with | .sp _ off => BitVec.ofNat 64 off | .glob _ va _ => va

def State.objGet (s : State) (o : ObjLoc) : Obj :=
  Obj.ofBytes (match o with | .sp t off => s.readScratch t off 32 | .glob pa _ leaf => s.homeReadAs pa (pteKey leaf) 32)

/-- The object's bytes are poisoned (R130). -/
def State.objBad (s : State) (o : ObjLoc) : Bool :=
  match o with
  | .sp t off => s.scratchBad t off 32
  | .glob pa _ _ => s.poisonOf (pa / 256) &&& byteRange (pa % 256) 32 != 0

/-- The object clock of a scratchpad object (R364). -/
def State.objClock (s : State) (t off : Nat) : W32 :=
  match s.team t with | some x => Tab.get 0 x.objClock (off / 32) | none => 0

/-- Raise it. -/
def State.raiseObj (s : State) (o : ObjLoc) (c : W32) : State :=
  match o with
  | .sp t off => s.updTeam t (fun x => { x with objClock := Tab.put 0 x.objClock (off / 32) (serialMax (Tab.get 0 x.objClock (off / 32)) c) })
  | .glob .. => s

/-- Write an object at its point of performance with clock c; answers the stamp of a global object (R116). -/
def State.objPut (s : State) (part : Nat) (o : ObjLoc) (c : W32) (v : Obj) : W32 × State :=
  match o with
  | .sp t off => (c, s.writeScratch t off 32 v.toBytes c)
  | .glob pa _ leaf =>
    match homeOf pa with
    | none => (c, s)
    | some k =>
      let r := s.homeWrite k (pa / 256) (pteKey leaf) part (pteHome leaf == 2) c (lineOf (pa % 256) v.toBytes) (byteRange (pa % 256) 32) 0
      (r.1.1, r.2)

/-! ## Watchpoints (R238) -/

/-- The transition that an object's armed watchpoint observes has come about: record it, and halt an arriving warp. -/
def State.fireWatch (s : State) (o : Obj) (addr : W64) (arriver : W32) (any flip : Bool) (warp : Option Nat) : State :=
  let mode := o.watch.toNat / 2 ^ 29 % 4
  let hit := match mode with | 0 => any | 1 => any && flip | _ => flip
  if o.watch.getLsbD 31 && hit then
    let core := o.watch.toNat / 2 ^ 8 % 256
    let target := match Tab.find (s.core core).watch (o.watch.toNat % 8) with | some w => w.target | none => 0
    let s := s.logEvent .watchpoint target addr arriver
    match warp with
    | some w => if o.watch.getLsbD 28 then s.updWarp w (fun x => { x with halted := x.live }) else s
    | none => s
  else s

/-! ## An instruction at an object (R366) -/

/-- Where an object of an instruction lies. -/
def objOf (r : LaneRes) : Option ObjLoc :=
  match r with
  | .sp t off _ => some (.sp t off)
  | .glob va (sg :: _) => some (.glob sg.pa va sg.leaf)
  | _ => none

/-- The address of a lane's object, its alignment, its place and the checks of its access (R363, R366). -/
def State.objRes (s : State) (iss : Iss) (lane : Nat) (access : Access) : LaneRes :=
  match spaceOf iss.x.mod with
  | 0 =>
    let va := iss.globalVa s lane iss.x.a none
    if va.toNat % 32 ≠ 0 then .trap .misalignedAtomic va
    else match s.reachFree iss.w va 32 access with
      | .ok segs =>
        let good := segs.all (fun sg => match targetOf sg.pa sg.leaf with | .leased .. => true | .home1 _ => true | _ => false)
        if !good then .trap .permission va else .glob va segs
      | .trap c a => .trap c a
      | .serve c a => .serve c a
      | .miss a => .miss a
  | sp =>
    let off := iss.scratchOff s lane iss.x.a none
    if off % 32 ≠ 0 then .trap .misalignedAtomic (BitVec.ofNat 64 off)
    else
      let team := if sp = 1 then some iss.w.team else s.rankTeam iss.w.team (iss.src32 s lane iss.x.c)
      match team with
      | some t => if s.lockedSp t off 32 access then .trap .rangeLock (BitVec.ofNat 64 off) else s.scratchRes iss.w t off 32 access
      | none => .trap .scratchBounds (BitVec.ofNat 64 off)

/-- What an access to an object must wait for: the core's own dirty bytes of its line (R116), its requests for the line and those that
came to the home earlier (R126), a host that holds it (R60). -/
def State.objHeld (s : State) (core part : Nat) (write : Bool) (o : ObjLoc) : Option State :=
  match o with
  | .sp .. => none
  | .glob pa _ leaf =>
    let line := pa / 256
    let unsentBytes : Bool := match s.l1 core line with | some l => unsent l != 0 | none => false
    if unsentBytes then some (s.flushLine core line [.evict])
    else if s.reqs.any (fun r => r.line == line && (r.arrived.isSome || r.src == .core core)) then some s
    else s.clearHost line (pteKey leaf) part write

/-- The same for an instruction, with region lines not filled yet (R123) and accesses of the agent that no array has performed
(R353). -/
def State.objWait (s : State) (iss : Iss) (write : Bool) (r : LaneRes) : Option State :=
  match r with
  | .glob va (sg :: _) => s.objHeld iss.w.core iss.w.part write (.glob sg.pa va sg.leaf)
  | .sp t off fills =>
    if !fills.isEmpty then some (s.touchRegions iss.w t fills)
    else
      let mine (x : Team) : Bool := x.array.any (fun o => o.agent == iss.w.g && overlap o.off o.n off 32)
      match s.team t with | some x => if mine x then some s else none | none => none
  | _ => none

/-- The first wait of several objects. -/
def State.objWaits (s : State) (iss : Iss) (write : Bool) (rs : List (Nat × LaneRes)) : Option State :=
  rs.findSome? (fun r => s.objWait iss write r.2)

/-- Lanes whose objects are poisoned raise DATA_UNCORRECTABLE (R130). -/
def Plan.checkObjs (p : Plan) (iss : Iss) : Plan :=
  let bad (r : Nat × LaneRes) : Bool := match objOf r.2 with | some o => p.st.objBad o | none => false
  { p with
    ok := p.ok.filter (fun r => !bad r)
    causes := p.causes ++ (p.ok.filter bad).flatMap (fun r => iss.causes r.1 .dataUncorrectable (match objOf r.2 with | some o => o.addr | none => 0)) }

/-- An access of an agent to a global object counts as a request, which completes at once (R241). -/
def State.countObj (s : State) (w : Who) (kind : Nat) (o : ObjLoc) : State :=
  match o with
  | .sp .. => s
  | .glob pa va _ => (s.countLane w.g kind va pa).newId.2

/-- An arrival of an agent at an object (R365, R364); none is BARRIER_OVERRUN. -/
def State.arrive (s : State) (w : Who) (o : ObjLoc) (n : Nat) (x : W32) : Option State :=
  match s.ctx w.g with
  | none => some s
  | some c =>
    let old := s.objGet o
    match old.arrive n x (lastWords (identity w.g) 0 c.edge) with
    | none => none
    | some (flip, new) =>
      let (t, s) := (s.countObj w 2 o).objPut w.part o c.wclk new
      let s := match o with
        | .sp .. => s.raiseObj o c.wclk
        | .glob .. => (s.raiseClk w.g t).raiseEclk w.core t
      some (s.fireWatch old o.addr (identity w.g) (n != 0) flip (match w.g with | .warp k => some k | .ct _ => none))

/-- An object whose phase has passed is read with an acquire at its scope (R364, R367). -/
def State.observe (s : State) (w : Who) (o : ObjLoc) : State :=
  let scope := (s.objGet o).scope
  let s := match o with
    | .sp t off => s.raiseClk w.g (s.objClock t off)
    | .glob pa _ leaf =>
      match homeOf pa, s.ctx w.g with
      | some k, some c =>
        let (t, s) := s.stampRead k (pa / 256) (pteKey leaf) w.part (pteHome leaf == 2) c.wclk
        s.raiseClk w.g t
      | _, _ => s
  s.acquireEnd w.g scope

/-- The identity and edge id that an object records (R243). -/
def Obj.arriver (o : Obj) : W32 := o.last.setWidth 32
def Obj.arriverEdge (o : Obj) : W64 := BitVec.ofNat 64 (o.last.toNat / 2 ^ 64)

/-! ## Blocked lanes (R85) -/

/-- Lanes block at the instruction of an issue. -/
def State.block (s : State) (iss : Iss) (lanes : List (Nat × Why)) : State :=
  match iss.w.g with
  | .ct _ => s
  | .warp w => s.updWarp w (fun x => { x with
      blocks := lanes.foldl (fun t l => Tab.set t l.1 { why := l.2, since := iss.now, time := s.time, next := iss.next }) x.blocks })

/-- Lanes leave the blocked state, past their instruction or still at it. -/
def Warp.unblock (x : Warp) (lanes : List Nat) (past : Bool) : Warp :=
  lanes.foldl (fun x j =>
    match Tab.find x.blocks j with
    | some b => { x with
        blocks := Tab.erase x.blocks j
        lpc := if past then Tab.set x.lpc j b.next else x.lpc }
    | none => x) x

end Sys2Proof.Machine
end

