-- ==== Sys2Proof/Machine/Sync.lean ====
section
/-!
DEFINITION. Lane class 0x7 (R366 to R375): barrier instructions, counter waits, rejoin masks, YIELD and NAP; and how blocked lanes go
on.
-/

namespace Sys2Proof.Machine

/-! ## Arrivals -/

/-- The lanes at whose objects an instruction acts, and the issue as their causes see it: each active lane, or the warp once, at the
object of its lowest active lane, for all of them (R366). -/
def Iss.arrivals (iss : Iss) (perLane : Bool) : List Nat × Iss :=
  if perLane then (lanesOf iss.act, iss) else ([lowest iss.act], { iss with uni := true, lanes := iss.act })

/-- The widest scope of the objects that are reached. -/
def State.objScope (s : State) (rs : List (Nat × LaneRes)) : Nat :=
  rs.foldl (fun m r => match objOf r.2 with | some o => max m (s.objGet o).scope | none => m) 0

/-- Reach the objects of an instruction, wait for them, release if asked, and act on each in lane order. 'f' answers none to raise
BARRIER_OVERRUN. 'release' gives the scope of the release that comes first. -/
def State.atObjects (s : State) (iss : Iss) (jss : List Nat × Iss) (write : Bool) (release : List (Nat × LaneRes) → Option Nat)
    (f : State → Nat → ObjLoc → Option State) : Eff :=
  let rs := jss.1.map (fun j => (j, s.objRes iss j (if write then .atomic else .read)))
  let at_ : Iss := { jss.2 with x := iss.x }
  match s.splitAccess at_ (if write then .atomic else .read) rs with
  | .error s => .stall s
  | .ok (s, rs, stay) =>
    match s.objWaits iss write rs with
    | some s => .stall s
    | none =>
      match (match release rs with | some scope => s.gate (iss.without stay) scope | none => (true, s)) with
      | (false, s) => .stall s
      | (true, s) =>
        let p := ((s.planLanes at_ (if write then .atomic else .read) true rs).checkObjs at_).staying stay
        let r := p.ok.foldl (fun (acc : State × List (Nat × Cause × W64)) r =>
          match objOf r.2 with
          | some o =>
            (match f acc.1 r.1 o with
              | some s => (s, acc.2)
              | none => (acc.1, acc.2 ++ at_.causes r.1 .barrierOverrun o.addr))
          | none => acc) (p.st, p.causes)
        { st := r.1, causes := r.2, stay := p.stay }

/-- An object is initialized (R366); its watch word stays. -/
def State.initObj (s : State) (iss : Iss) (expect : Nat) (o : ObjLoc) : State :=
  match s.ctx iss.w.g with
  | none => s
  | some c =>
    let new : Obj := { expect := expect, epoch := 0, scope := scopeOf iss.x.mod, lastErr := false, arrived := 0, err := false,
                       pending := 0, watch := (s.objGet o).watch, last := 0 }
    let (t, s) := (s.countObj iss.w 2 o).objPut iss.w.part o c.wclk new
    match o with | .sp .. => s | .glob .. => (s.raiseClk iss.w.g t).raiseEclk iss.w.core t

/-- BARI (R366): a lane whose expected count is out of range raises ILLEGAL_OPERAND. -/
def execBari (x : Args) (s : State) : Host.Outcome State Fault Refusal :=
  s.issue (.bari x) x (fun iss s =>
    if iss.act = 0 then { st := s }
    else
      let b (j : Nat) : Nat := iss.src32 s j x.b
      let bad := (lanesOf iss.act).filter (fun j => decide (b j = 0 ∨ 65535 < b j))
      let lanes := (lanesOf iss.act).filter (fun j => !bad.contains j)
      let e := s.atObjects iss (lanes, iss) true (fun _ => releaseOf x) (fun u j o => some (u.initObj iss (b j) o))
      { e with causes := bad.map (fun j => (j, .illegalOperand, 0)) ++ e.causes })

/-- BARA and BARAX: an arrival is a release at the object's scope (R365). -/
def State.arriveOp (s : State) (i : Instr) (x : Args) (n : Nat) (bytes : Iss → State → Nat → W32) :
    Host.Outcome State Fault Refusal :=
  s.issue i x (fun iss s =>
    if iss.act = 0 then { st := s }
    else s.atObjects iss (iss.arrivals (modBit x.mod 2)) true (fun rs => some (s.objScope rs))
      (fun s j o => s.arrive iss.w o n (bytes iss s j)))

def execBara (x : Args) (s : State) : Host.Outcome State Fault Refusal := s.arriveOp (.bara x) x 1 (fun _ _ _ => 0)

def execBarax (x : Args) (s : State) : Host.Outcome State Fault Refusal :=
  s.arriveOp (.barax x) x (if modBit x.mod 3 then 0 else 1) (fun iss s j => BitVec.ofNat 32 (iss.src32 s j x.b))

/-! ## Waiting on an object (R367, R368) -/

/-- BARW: lanes whose epoch has passed acquire and go on, or raise COPY_FAULT; the others block. -/
def execBarw (x : Args) (s : State) : Host.Outcome State Fault Refusal :=
  s.issue (.barw x) x (fun iss s =>
    if iss.act = 0 then { st := s }
    else
      let rs := (lanesOf iss.act).map (fun j => (j, s.objRes iss j .read))
      match s.splitAccess iss .read rs with
      | .error s => .stall s
      | .ok (s, rs, stay) =>
        match s.objWaits iss false rs with
        | some s => .stall s
        | none =>
          let p := ((s.planLanes iss .read true rs).checkObjs iss).staying stay
          let see : List (Nat × ObjLoc × Nat) := p.ok.filterMap (fun r => (objOf r.2).map (fun o => (r.1, o, iss.src32 s r.1 x.b % 4096)))
          let passed := see.filter (fun e => epochPassed (p.st.objGet e.2.1).epoch e.2.2)
          let waits := see.filter (fun e => !epochPassed (p.st.objGet e.2.1).epoch e.2.2)
          let failed := passed.filter (fun e => (p.st.objGet e.2.1).lastErr)
          let s := (passed.filter (fun e => !(p.st.objGet e.2.1).lastErr)).foldl (fun s e => s.observe iss.w e.2.1)
            (see.foldl (fun s e => s.countObj iss.w 0 e.2.1) p.st)
          { st := s.block iss (waits.map (fun e => (e.1, .barw e.2.1 e.2.2)))
            causes := p.causes ++ failed.map (fun e => (e.1, .copyFault, e.2.1.addr))
            stay := p.stay ||| maskOf (waits.map (·.1)) })

/-- BARQ: the test of BARW, as a predicate. It never blocks (R368), although R85 lists it among the instructions at which a lane
blocks: R368 describes the instruction itself, and the model follows it (DEDUCED, log entry 40). -/
def execBarq (x : Args) (s : State) : Host.Outcome State Fault Refusal :=
  s.issue (.barq x) x (fun iss s =>
    if iss.act = 0 then { st := s }
    else
      let rs := (lanesOf iss.act).map (fun j => (j, s.objRes iss j .read))
      match s.splitAccess iss .read rs with
      | .error s => .stall s
      | .ok (s, rs, stay) =>
        match s.objWaits iss false rs with
        | some s => .stall s
        | none =>
          let p := ((s.planLanes iss .read true rs).checkObjs iss).staying stay
          let see : List (Nat × ObjLoc × Bool) := p.ok.filterMap (fun r => (objOf r.2).map (fun o =>
            (r.1, o, epochPassed (p.st.objGet o).epoch (iss.src32 s r.1 x.b % 4096))))
          let bad (e : Nat × ObjLoc × Bool) : Bool := e.2.2 && (p.st.objGet e.2.1).lastErr
          let good := see.filter (fun e => !bad e)
          let s := good.foldl (fun s e => if e.2.2 then s.observe iss.w e.2.1 else s) (see.foldl (fun s e => s.countObj iss.w 0 e.2.1) p.st)
          { st := iss.results s (latency (.barq x)) (good.flatMap (fun e => predWrites false e.1 (predNum x.d) e.2.2))
            causes := p.causes ++ (see.filter bad).map (fun e => (e.1, .copyFault, e.2.1.addr))
            stay := p.stay })

/-- The object of a blocked lane as its next test finds it: a test of a global object is an access of its own, which uses no translation
that has been removed (R166). 'none' where the test is an access that faults: the lane then executes its BARW again. The walk of a
test that misses the TLBs takes no time (DESIGN CHOICE, log entry 3). -/
def State.findAgain (s : State) (w : Who) (o : ObjLoc) : Option ObjLoc × State :=
  match o with
  | .sp .. => (some o, s)
  | .glob _ va _ =>
    let s := match s.xlate w.core w.asid va .read w.handler with | .miss => s.walkNow w.core w.asid va .read w.handler | _ => s
    match s.xlate w.core w.asid va .read w.handler with
    | .ok pa leaf => (if s.keyFor w.part pa leaf then some (.glob pa va leaf) else none, s)
    | _ => (none, s)

/-- Lanes blocked at one BARW leave the blocked state to raise a cause there; lanes that cannot, since another trap waits, execute it
again. -/
def State.barwRaise (s : State) (w : Nat) (lanes : List Nat) (pc : W64) (c : Cause) (addr : W64) : State :=
  let p : PendTrap := { lanes := maskOf lanes, cause := c, pc := pc, addr := addr }
  (s.updWarp w (fun x => x.unblock lanes false)).updCtx (.warp w) (fun c => { c with trap := some (c.trap.getD p) })

/-- One test of the lanes that block on one object since one time: where the epoch has passed they go on with an acquire, or raise
COPY_FAULT at the BARW, the phase having ended in error; either is the release of one wait (R244). -/
def State.barwTest (s : State) (w : Nat) (who : Who) (b : Block) (lanes : List Nat) (o : ObjLoc) (e : Nat) : State :=
  let g := Agent.warp w
  match s.findAgain who o with
  | (none, s) => s.updWarp w (fun x => x.unblock lanes false)
  | (some o, s) =>
    match s.objHeld who.core who.part false o with
    | some s => s
    | none =>
      let obj := s.objGet o
      let pc := s.pcOf g (lanes.headD 0)
      let ended (s : State) : State := s.waitOver g b.time obj.arriver obj.arriverEdge 0 o.addr.toNat
      if s.objBad o then s.barwRaise w lanes pc .dataUncorrectable o.addr
      else if !epochPassed obj.epoch e then s
      else if obj.lastErr then (ended s).barwRaise w lanes pc .copyFault o.addr
      else (ended (s.observe who o)).updWarp w (fun x => x.unblock lanes true)

/-- BARW_RETEST: the blocked lanes test again. -/
def State.retestBarw (s : State) (w : Nat) : State :=
  match s.warp w, s.who (.warp w) with
  | some x, some who =>
    x.blocks.foldl (fun s b =>
      match b.2.why, (s.warp w).any (fun y => (Tab.find y.blocks b.1).isSome) with
      | .barw o e, true =>
        s.barwTest w who b.2 ((x.blocks.filter (fun c => c.2.why == b.2.why && c.2.time == b.2.time)).map (·.1)) o e
      | _, _ => s) s
  | _, _ => s

/-! ## WAITC (R370) -/

/-- The counters stand at or below the thresholds; 63 is any value. -/
def Ctx.countersOk (c : Ctx) (ld st cp mx : Nat) : Bool :=
  (ld == 63 || decide (c.ld ≤ ld)) && (st == 63 || decide (c.st ≤ st)) && (cp == 63 || decide (c.cp ≤ cp)) &&
  (mx == 63 || decide (c.mx ≤ mx))

def execWaitc (x : Args) (s : State) : Host.Outcome State Fault Refusal :=
  s.issue (.waitc x) x (fun iss s =>
    let (ld, st, cp, mx) := (rawOf x.d % 64, rawOf x.a % 64, rawOf x.b % 64, rawOf x.c % 64)
    match s.ctx iss.w.g with
    | none => { st := s }
    | some c =>
      if iss.act = 0 then { st := s }
      else if !c.countersOk ld st cp mx then
        { st := s.block iss ((lanesOf iss.act).map (fun j => (j, .waitc ld st cp mx))), stay := iss.act }
      else
        match (if mx = 63 then none else c.errMx) with
        | some e => Eff.all (s.updCtx iss.w.g (fun c => { c with errMx := none })) iss.act e.1 e.2
        | none => { st := s.raiseClk iss.w.g c.cmdClock })

/-- The words 4 to 7 of the command that ended a counter wait (R243): the last copy command for a wait on cnt.cp, the last matrix command for
one on cnt.mx, the later of the two for both. A wait on cnt.ld and cnt.st alone has no command: it records the warp (DEDUCED, log
entry 41). -/
def Ctx.lastOf (c : Ctx) (cp mx : Nat) (self : W32) : BitVec 128 :=
  if cp = 63 ∧ mx = 63 then lastWords self 0 c.edge
  else if mx = 63 then c.lastCmd
  else if cp = 63 then c.lastMx
  else if c.mxLast then c.lastMx else c.lastCmd

/-- Lanes blocked at a WAITC whose counters have come down go on with an acquire, or raise the pending cause of the engine. -/
def State.retestWaitc (s : State) (w : Nat) : State :=
  match s.warp w with
  | none => s
  | some x =>
    x.blocks.foldl (fun s b =>
      match b.2.why, s.ctx (.warp w) with
      | .waitc ld st cp mx, some c =>
        if (s.warp w).all (fun y => (Tab.find y.blocks b.1).isNone) || !c.countersOk ld st cp mx then s
        else
          match (if mx = 63 then none else c.errMx) with
          | some e =>
            let here := s.pcOf (.warp w) b.1
            let same := (x.blocks.filter (fun o => o.2.why == b.2.why && s.pcOf (.warp w) o.1 == here)).map (·.1)
            let p : PendTrap := { lanes := maskOf same, cause := e.1, pc := here, addr := e.2 }
            (s.updWarp w (fun x => x.unblock same false)).updCtx (.warp w) (fun c => if c.trap.isSome then c else { c with errMx := none, trap := some p })
          | none =>
            let last := c.lastOf cp mx (identity (.warp w))
            let s := (s.raiseClk (.warp w) c.cmdClock).waitOver (.warp w) b.2.time (last.setWidth 32) (BitVec.ofNat 64 (last.toNat / 2 ^ 64)) 2 0
            let same := (x.blocks.filter (fun o => o.2.why == b.2.why && o.2.time == b.2.time)).map (·.1)
            s.updWarp w (fun x => x.unblock same true)
      | _, _ => s) s

/-! ## Rejoin masks (R372, R373) -/

/-- The number of a rejoin mask. -/
def jnum (o : Opnd) : Nat := match o with | .k c => c.toNat % 16 | _ => 0

/-- A w-bit mask: a uniform register group, a constant or a literal. -/
def State.maskSrc (s : State) (g : Agent) (o : Opnd) (w : Nat) : Mask :=
  let v : BitVec 128 := match o with
    | .s n => BitVec.ofNat 128 ((List.range ((w + 31) / 32)).foldl (fun v k => v + (s.regPart g 0 (.s n.toNat) (.s (n.toNat + k))).toNat % 2 ^ 32 * 2 ^ (32 * k)) 0)
    | .k c => BitVec.ofInt 128 ((c.toNat : Int) - 16)
    | .p n => if s.reg g 0 (.p n.toNat) = 0 then 0 else 1
    | .lit32 x => x.setWidth 128
    | .lit64 x => x.setWidth 128
    | _ => 0
  v &&& firstLanes w

def execJset (x : Args) (s : State) : Host.Outcome State Fault Refusal :=
  s.issue (.jset x) x (fun iss s =>
    if iss.act = 0 then { st := s }
    else
      let k := jnum x.b
      let old : Mask := s.reg iss.w.g 0 (.j k)
      let new : Mask := match modBits x.mod 1 0 with
        | 0 => iss.act
        | 1 => s.maskSrc iss.w.g x.a (s.widthOf iss.w.g)
        | 2 => old &&& ~~~iss.act
        | _ => old ||| iss.act
      { st := s.addLanding iss.w.g (iss.last + latency (.jset x)) iss.act [{ lane := lowest iss.act, dest := .j k, val := new }] iss.spec })

/-- JOIN (R88, R373): active lanes arrive and block; the join may complete at once. -/
def execJoin (x : Args) (s : State) : Host.Outcome State Fault Refusal :=
  s.issue (.join x) x (fun iss s =>
    match iss.w.g with
    | .ct _ => { st := s }
    | .warp w =>
      if iss.act = 0 then { st := s }
      else
        let k := jnum x.b
        let n := iss.src32 s (lowest iss.act) x.a
        let s := s.block iss ((lanesOf iss.act).map (fun j => (j, .join k (predNum x.d))))
        let s := s.updWarp w (fun y => { y with
          rounds := if Tab.get 0 y.arrived k = 0 then Tab.set y.rounds k (iss.now, n) else y.rounds
          arrived := Tab.set y.arrived k (Tab.get 0 y.arrived k ||| iss.act) })
        { st := s.joinCheck w, stay := iss.act })

/-- JOIN_TIMEOUT (R89): the round of jk has lasted its n cycles without completing. -/
def State.joinTimeout (s : State) (w k : Nat) : State :=
  let s := s.joinCheck w
  match s.warp w with
  | none => s
  | some x =>
    match Tab.find x.rounds k with
    | some (began, n) => if n ≠ 0 ∧ began + n < s.cycle x.core then s.updWarp w (fun x => x.joinRelease k true) else s
    | none => s

/-! ## YIELD and NAP (R374, R375) -/

def execYield_ (x : Args) (s : State) : Host.Outcome State Fault Refusal :=
  s.issue (.yield_ x) x (fun iss s =>
    match iss.w.g with
    | .ct _ => { st := s }
    | .warp w => { st := s.updWarp w (fun y => { y with deferred := y.deferred ||| iss.act }) })

def execNap (x : Args) (s : State) : Host.Outcome State Fault Refusal :=
  s.issue (.nap x) x (fun iss s =>
    let n := min (iss.src32 s (lowest iss.lanes) x.a) 1048576
    if iss.act = 0 ∨ n = 0 then { st := s }
    else { st := s.block iss ((lanesOf iss.act).map (fun j => (j, .nap (iss.now + n)))), stay := iss.act })

/-- NAP_EXPIRE: lanes whose nap has ended move past it. -/
def State.napExpire (s : State) (w : Nat) : State :=
  match s.warp w with
  | none => s
  | some x =>
    let now := s.cycle x.core
    let done := x.blocks.filter (fun b => match b.2.why with | .nap t => decide (t ≤ now) | _ => false)
    s.updWarp w (fun x => x.unblock (done.map (·.1)) true)

end Sys2Proof.Machine
end

