-- ==== Sys2Proof/Machine/Control.lean ====
section
/-!
DEFINITION. Lane class 0x8 and uniform class 0x2 (R311 to R319, R324 to R326): branches with their prediction, calls, exits, traps,
STEP, SAFE and the taking of a safe point (R78, R79).
-/

namespace Sys2Proof.Machine

/-! ## Targets and calls -/

/-- The target of a branch-type word (R250). -/
def Iss.label (iss : Iss) : W64 :=
  let off : BitVec 27 := BitVec.ofNat 27 (rawOf iss.x.c + rawOf iss.x.b * 2 ^ 9 + rawOf iss.x.a * 2 ^ 18)
  iss.pc + 10 + 2 * off.signExtend 64

/-- The call depth of a lane, or of a control thread (R312). -/
def State.depthOf (s : State) (g : Agent) (lane : Nat) : Nat := (s.base g lane .cd).toNat

/-- Set it, logged with an entry if the issue is speculative. -/
def State.setDepth (s : State) (g : Agent) (spec : Option Nat) (lane n : Nat) : State :=
  s.putReg g spec { lane := lane, dest := .cd, val := BitVec.ofNat 128 n }

/-- The link of a call lands at 4 cycles. -/
def State.link_ (s : State) (iss : Iss) (lanes : List Nat) (spec : Option Nat) : State :=
  s.addLanding iss.w.g (iss.last + 4) (maskOf lanes) (lanes.flatMap (fun j => regWrites iss.x.d j 2 iss.next.toNat)) spec

/-- What keeps a lane from a branch or a call: its cause, if any (R319). -/
def State.branchCause (s : State) (g : Agent) (call : Bool) (lane : Nat) (target : W64) : Option Cause :=
  if target.getLsbD 0 then some .fetchAlign else if call && s.depthOf g lane == 255 then some .callDepth else none

/-! ## Prediction (R90 to R92, R313) -/

/-- The branch is predicted: its guard is pending in an executing lane, of a warp outside handler mode; but not where it re-executes without
speculation (R94). -/
def State.isPredicted (s : State) (iss : Iss) : Bool :=
  match iss.w.g with
  | .ct _ => false
  | .warp w =>
    match s.warp w with
    | none => false
    | some x => !iss.w.handler && (iss.spec.isSome || !x.speculating) &&
        (lanesOf iss.lanes).any (fun j => (s.pendingId w j iss.x.ctl.guard.toNat).isSome)

/-- Issue a predicted branch: an entry of the window holds what its resolution needs. -/
def State.predict (s : State) (iss : Iss) (w : Nat) (call : Bool) (target : Nat → W64) : Eff :=
  match s.warp w with
  | none => { st := s }
  | some x =>
    if 4 ≤ x.openBranches || (iss.spec.isNone && decide (32 ≤ x.window.length)) then .stall s
    else
      let p := x.predicted iss.pc iss.lanes
      let awaits := dedup ((lanesOf iss.lanes).filterMap (fun j => s.pendingId w j iss.x.ctl.guard.toNat))
      let taken : Tab W64 := (lanesOf iss.lanes).filterMap (fun j => if (target j).getLsbD 0 then none else some (j, target j))
      let bad := (lanesOf p).filter (fun j => (s.branchCause iss.w.g call j (target j)).isSome)
      let good := (lanesOf p).filter (fun j => !bad.contains j)
      let (id, s) : Nat × State := match iss.spec with
        | some id => (id, s)
        | none =>
          let (id, s) := s.newId
          (id, s.updWarp w (fun x => { x with window := x.window ++ [{ id := id, pc := iss.pc, next := iss.next, lanes := iss.lanes, kind := .plain }] }))
      let kind : SpecKind := .branch iss.x.ctl.guard.toNat iss.x.ctl.neg taken p call awaits
      let s := s.updWarp w (fun x => { x with
        predstat := countPred x.predstat 0 1
        window := x.window.map (fun e => if e.id = id then { e with kind := kind, deferred := e.deferred ||| maskOf bad } else e) })
      let s := if call then (good.foldl (fun s j => s.setDepth iss.w.g (some id) j (s.depthOf iss.w.g j + 1)) s).link_ iss good (some id) else s
      { st := s, go := good.map (fun j => (j, target j)) }

/-- BRA, BRX, CALL, CALLX (R311 to R313). -/
def State.branchOp (s : State) (i : Instr) (x : Args) (call : Bool) (target : Iss → State → Nat → W64) :
    Host.Outcome State Fault Refusal :=
  s.issue i x (fun iss s =>
    match iss.w.g, s.isPredicted iss with
    | .warp w, true => s.predict iss w call (target iss s)
    | g, _ =>
      let res := (lanesOf iss.act).map (fun j => (j, s.branchCause g call j (target iss s j)))
      let good := (res.filter (fun r => r.2.isNone)).map (·.1)
      let st := if call then (good.foldl (fun s j => s.setDepth g iss.spec j (s.depthOf g j + 1)) s).link_ iss good iss.spec else s
      { st := st
        causes := res.filterMap (fun r => r.2.map (fun c => (r.1, c, 0)))
        go := good.map (fun j => (j, target iss s j)) })

/-- A 64-bit target from a pair. -/
def Iss.pair (iss : Iss) (s : State) (lane : Nat) : W64 := iss.src s lane .n64 iss.x.a

def execBra (x : Args) (s : State) : Host.Outcome State Fault Refusal := s.branchOp (.bra x) x false (fun iss _ _ => iss.label)
def execBrx (x : Args) (s : State) : Host.Outcome State Fault Refusal := s.branchOp (.brx x) x false (fun iss s j => iss.pair s j)
def execCall (x : Args) (s : State) : Host.Outcome State Fault Refusal := s.branchOp (.call x) x true (fun iss _ _ => iss.label)
def execCallx (x : Args) (s : State) : Host.Outcome State Fault Refusal := s.branchOp (.callx x) x true (fun iss s j => iss.pair s j)

/-- RET (R312): never predicted. -/
def execRet (x : Args) (s : State) : Host.Outcome State Fault Refusal :=
  s.issue (.ret x) x (fun iss s =>
    let g := iss.w.g
    let cause (j : Nat) : Option Cause :=
      if (iss.pair s j).getLsbD 0 then some .fetchAlign else if s.depthOf g j = 0 then some .callDepth else none
    let good := (lanesOf iss.act).filter (fun j => (cause j).isNone)
    { st := good.foldl (fun s j => s.setDepth g iss.spec j (s.depthOf g j - 1)) s
      causes := (lanesOf iss.act).filterMap (fun j => (cause j).map (fun c => (j, c, 0)))
      go := good.map (fun j => (j, iss.pair s j)) })

/-! ## Exits (R315) -/

/-- EXIT: the active lanes end, or in handler mode the whole warp (R101). -/
def execExit (x : Args) (s : State) : Host.Outcome State Fault Refusal :=
  s.issue (.exit x) x (fun iss s =>
    match iss.w.g with
    | .ct _ => { st := s }
    | .warp w =>
      if iss.act = 0 then { st := s }
      else if iss.w.handler then { st := s.exitLanes w (BitVec.allOnes 128), stay := iss.lanes }
      else { st := s.exitLanes w iss.act, stay := iss.act })

/-- EXIT.team: only in handler mode; the team ends in the next cycle. -/
def execExitTeam (x : Args) (s : State) : Host.Outcome State Fault Refusal :=
  s.issue (.exitTeam x) x (fun iss s =>
    if iss.act = 0 then { st := s }
    else if iss.w.handler then { st := s.endSoon iss.w.team, stay := iss.lanes }
    else .all s iss.act .privilege 0)

/-- The TRAPCAUSE of an agent. -/
def State.trapCauseOf (s : State) (g : Agent) : BitVec 6 := match s.ctx g with | some c => c.trapCause | none => 0

/-- EXIT.grid: only in handler mode; the issuing team ends in the next cycle. -/
def execExitGrid (x : Args) (s : State) : Host.Outcome State Fault Refusal :=
  s.issue (.exitGrid x) x (fun iss s =>
    if iss.act = 0 then { st := s }
    else if iss.w.handler then { st := (s.gridEnds iss.w.team (s.trapCauseOf iss.w.g)).endSoon iss.w.team, stay := iss.lanes }
    else .all s iss.act .privilege 0)

/-! ## TRAP, BRK, STEP (R316, R317) -/

def execTrap (x : Args) (s : State) : Host.Outcome State Fault Refusal :=
  s.issue (.trap x) x (fun iss s => .all s iss.act .softwareTrap 0)

/-- BRK: delivered to an attached debugger by halting (R237), else BREAKPOINT. -/
def execBrk (x : Args) (s : State) : Host.Outcome State Fault Refusal :=
  s.issue (.brk x) x (fun iss s =>
    if iss.act = 0 then { st := s }
    else match s.dbgOf iss.w.asid with
      | some d => { st := s.halt iss.w.g iss.act d.laneStop .breakpoint iss.pc, stay := iss.act }
      | none => .all s iss.act .breakpoint 0)

def execStep_ (x : Args) (s : State) : Host.Outcome State Fault Refusal :=
  s.issue (.step_ x) x (fun iss s =>
    if iss.act = 0 then { st := s }
    else
      let die := dieOf iss.w.core
      let n := (iss.src s (lowest iss.act) .n64 x.a).toNat % 2 ^ 57
      let edge := match s.ctx iss.w.g with | some c => c.edge | none => 0
      let s := if s.stepEn die then
          s.writeMarker iss.w.core (identity iss.w.g) n edge else s
      { st := s.updCtx iss.w.g (fun c => { c with edge := 0 }) })

/-! ## Safe points (R78, R79, R275, R318) -/

/-- Entry i of the safe-point table, valid for a warp or for a control thread. -/
def Header.safeEntry (h : Header) (i : Nat) (ct : Bool) : Option (W64 × W64) :=
  match h.safe[i]? with
  | some e => if e.2.getLsbD 32 && e.2.getLsbD 33 == ct then some e else none
  | none => none

/-- S of R81: the largest BYTES over the valid entries. -/
def Header.saveBytes (h : Header) : Nat := h.safe.foldl (fun m e => if e.2.getLsbD 32 then max m (e.2.toNat % 2 ^ 32) else m) 0

/-- A of R81. -/
def Grid.areaSize (g : Grid) : Nat :=
  let f := 1024 + g.rec_.width * (4 * g.rec_.vregs + 16) + 6144 * g.rec_.acc
  (max g.hdr.saveBytes f + 255) / 256 * 256

/-- The area of an agent within its team's save area (R81); the control thread's lies past the warps'. -/
def Grid.areaOf (g : Grid) (base : W64) (k : Nat) : W64 := base + BitVec.ofNat 64 (4096 + g.rec_.scratch + k * g.areaSize)

/-- R79's exclusions for a warp, and that it is not in its save routine already. -/
def Warp.mayTake (x : Warp) : Bool :=
  !x.speculating && x.window.isEmpty && x.svc.isNone && !x.ctx.handler && x.halted == 0 && x.ctx.safe.isNone && x.ctx.trap.isNone

/-- Take safe point i, if the team's pre-emption waits for its agents and entry i is valid: the agent starts its save routine. -/
def State.takeSafe (s : State) (g : Agent) (i : Nat) : Option State :=
  match s.who g with
  | none => none
  | some w =>
    match s.team w.team, s.grid w.grid with
    | some t, some r =>
      match t.preempt with
      | .points base _ =>
        match g with
        | .warp k =>
          match s.warp k, r.hdr.safeEntry i false with
          | some x, some e =>
            if x.mayTake then
              let go := r.rec_.code + BitVec.ofNat 64 (e.1.toNat % 2 ^ 32)
              some (s.updWarp k (fun x =>
                let x := x.leaveBlocks
                { x with
                  safeLive := x.live
                  safeDepth := x.depth
                  latch := none
                  lpc := (lanesOf x.live).foldl (fun t j => Tab.set t j go) x.lpc
                  ctx := { x.ctx with safe := some i, saveBase := r.areaOf base x.k, hold := .none } }))
            else none
          | _, _ => none
        | .ct k =>
          match r.hdr.safeEntry i true with
          | some e =>
            if t.ct.handler || t.ct.halted || t.ct.safe.isSome then none
            else some (s.updTeam k (fun t => { t with
              cpc := r.rec_.code + BitVec.ofNat 64 (e.1.toNat % 2 ^ 32)
              ctSafeDepth := t.ctDepth
              ct := { t.ct with safe := some i, saveBase := r.areaOf base t.warps.length, hold := .none } }))
          | none => none
      | _ => none
    | _, _ => none

/-- A pre-emption request for the agent's team has not come to its safe points yet, and the agent could take safe point i: it waits there, so
that one at which it stands when the request arrives is taken (R78, R83). -/
def State.safeSoon (s : State) (g : Agent) (i : Nat) : Bool :=
  match s.who g with
  | none => false
  | some w =>
    match s.team w.team, s.grid w.grid with
    | some t, some r =>
      let early := match t.preempt with | .area _ => true | .drain _ _ => true | _ => false
      let may := match g with
        | .warp k => (match s.warp k with | some x => x.mayTake && (r.hdr.safeEntry i false).isSome | none => false)
        | .ct _ => !t.ct.handler && !t.ct.halted && t.ct.safe.isNone && t.ct.trap.isNone && !t.ctExited && (r.hdr.safeEntry i true).isSome
      early && may
    | _, _ => false

/-- SAFE: a safe point if every live lane executes it; otherwise it only advances. -/
def execSafe (x : Args) (s : State) : Host.Outcome State Fault Refusal :=
  s.issue (.safe x) x (fun iss s =>
    let live := match iss.w.g with | .warp w => (match s.warp w with | some y => y.live | none => 0) | .ct _ => 0
    if iss.act = 0 ∨ iss.lanes ≠ live then { st := s }
    else match s.takeSafe iss.w.g (modBits x.mod 5 0) with
      | some s => { st := s, stay := iss.lanes }
      | none => if s.safeSoon iss.w.g (modBits x.mod 5 0) then .stall s else { st := s })

/-! ## Uniform control flow (R324 to R326) -/

/-- Every executing lane, or the control thread, goes to one target. -/
def Iss.goAll (iss : Iss) (tgt : W64) : Tab W64 := (lanesOf iss.lanes).map (fun j => (j, tgt))

/-- A uniform branch: it may change the call depth of every executing lane, or raise for all of them. -/
def State.uniformGo (s : State) (iss : Iss) (tgt : W64) (cause : Option Cause) (depth : Nat → Nat) : Eff :=
  match cause with
  | some c => .all s iss.lanes c 0
  | none => { st := (lanesOf iss.lanes).foldl (fun s j => s.setDepth iss.w.g iss.spec j (depth (s.depthOf iss.w.g j))) s, go := iss.goAll tgt }

def execUbra (x : Args) (s : State) : Host.Outcome State Fault Refusal :=
  s.issue (.ubra x) x (fun iss s => if iss.act = 0 then { st := s } else { st := s, go := iss.goAll iss.label })

def execUbrx (x : Args) (s : State) : Host.Outcome State Fault Refusal :=
  s.issue (.ubrx x) x (fun iss s =>
    if iss.act = 0 then { st := s }
    else
      let tgt := iss.src s 0 .n64 x.a
      if tgt.getLsbD 0 then .all s iss.lanes .fetchAlign 0 else { st := s, go := iss.goAll tgt })

def execUcall (x : Args) (s : State) : Host.Outcome State Fault Refusal :=
  s.issue (.ucall x) x (fun iss s =>
    if iss.act = 0 then { st := s }
    else
      let full := (lanesOf iss.lanes).any (fun j => s.depthOf iss.w.g j == 255)
      if full then .all s iss.lanes .callDepth 0
      else
        let e := s.uniformGo iss iss.label none (fun n => n + 1)
        { e with st := iss.results e.st 4 (regWrites x.d (lowest iss.lanes) 2 iss.next.toNat) })

def execUret (x : Args) (s : State) : Host.Outcome State Fault Refusal :=
  s.issue (.uret x) x (fun iss s =>
    if iss.act = 0 then { st := s }
    else
      let tgt := iss.src s 0 .n64 x.a
      let none_ := (lanesOf iss.lanes).any (fun j => s.depthOf iss.w.g j == 0)
      s.uniformGo iss tgt (if tgt.getLsbD 0 then some .fetchAlign else if none_ then some .callDepth else none) (fun n => n - 1))

/-- ULOOP (R325). -/
def execUloop (x : Args) (s : State) : Host.Outcome State Fault Refusal :=
  s.issue (.uloop x) x (fun iss s =>
    if iss.act = 0 then { st := s }
    else
      let n : W32 := BitVec.ofNat 32 (iss.src32 s 0 x.d) - 1
      { st := iss.results s 4 (regWrites x.d (lowest iss.lanes) 1 n.toNat)
        go := if n = 0 then [] else iss.goAll iss.label })

def execUexit (x : Args) (s : State) : Host.Outcome State Fault Refusal :=
  s.issue (.uexit x) x (fun iss s =>
    if iss.act = 0 then { st := s }
    else match modBits x.mod 6 5, iss.w.handler, iss.w.g with
      | 0, h, .warp w => { st := s.exitLanes w (if h then BitVec.allOnes 128 else iss.lanes), stay := iss.lanes }
      | 0, _, .ct t => { st := s.exitCt t, stay := iss.lanes }
      | 1, true, _ => { st := s.endSoon iss.w.team, stay := iss.lanes }
      | _, true, g => { st := (s.gridEnds iss.w.team (s.trapCauseOf g)).endSoon iss.w.team, stay := iss.lanes }
      | _, false, _ => .all s iss.lanes .privilege 0)

end Sys2Proof.Machine
end

