-- ==== Sys2Proof/Machine/Engine.lean ====
section
/-!
DEFINITION. What the transfer and matrix engines share: access to memory piece by piece as engine commands (R141, R190, R193, R194), range
locks (R142), the conversions of the format table (R187), and event records (R105).
-/

namespace Sys2Proof.Machine

/-! ## Records and locks -/

/-- An engine acts for a team, outside handler mode. -/
def State.engWho (s : State) (team : Nat) : Option Who := (s.who (.ct team)).map (fun w => { w with handler := false })

/-- R105: append an event record; a full queue discards it. -/
def State.pushEvent (s : State) (team : Nat) (r : EvRec) : State :=
  s.updTeam team (fun t => if t.eq.length < 32 then { t with eq := t.eq ++ [r] } else { t with lost := true })

/-- A record for a team of a grid, by its number: one that is saved, or placed again and not yet restored, keeps it until it runs, behind those
that came before (R105). -/
def State.teamRecord (s : State) (entry num : Nat) (r : EvRec) : State :=
  if (s.grid entry).any (fun g => g.saved.any (fun x => x.team.num == num)) then
    s.updGrid entry (fun g => { g with saved := g.saved.map (fun x =>
      if x.team.num = num then (if x.events.length < 32 then { x with events := x.events ++ [r] } else { x with evLost := true }) else x) })
  else match s.teams.find? (fun e => e.2.grid == entry && e.2.num == num) with
    | some e => s.pushEvent e.1 r
    | none => s

/-- A record of an engine, with the command's clock and edge id. -/
def evRec (source status : Nat) (cause : Cause) (flags : Nat) (csn bytes : W32) (cpc object : W64) (t : W32) (edge : W64) : EvRec where
  source := BitVec.ofNat 8 source
  status := BitVec.ofNat 8 status
  cause := BitVec.ofNat 8 (causeCode cause)
  flags := BitVec.ofNat 8 flags
  csn := csn
  bytes := bytes
  cpc := cpc
  object := object
  t := t
  edge := edge

/-- Free entries of a core's range-lock table. -/
def State.lockRoom (s : State) (core : Nat) : Nat := 32 - (s.core core).locks.length

def State.lock (s : State) (core : Nat) (ls : List Lock) : State :=
  s.updCore core (fun c => { c with locks := c.locks ++ ls.map (fun l => { l with since := s.cycle core }) })

/-- Release locks of a command on every core: its destination ranges, or all. -/
def State.unlock (s : State) (owner : Nat) (destOnly : Bool) : State :=
  { s with cores := s.cores.map (fun e => (e.1, { e.2 with
      locks := e.2.locks.filter (fun l => !(l.owner == owner && (!destOnly || l.dest))) })) }

/-! ## Pieces -/

def State.updPiece (s : State) (r : EngRef) (at_ : Nat) (f : Piece → Piece) : State :=
  let upd (l : List Piece) : List Piece := l.map (fun p => if p.at_ = at_ then f p else p)
  match r with
  | .cmd id => { s with cmds := s.cmds.map (fun c => if c.id = id then { c with inflight := upd c.inflight } else c) }
  | .mx w id => s.updWarp w (fun x => { x with mxq := x.mxq.map (fun o => if o.id = id then { o with pieces := upd o.pieces } else o) })

def State.pieceOf (s : State) (r : EngRef) (at_ : Nat) : Option Piece :=
  match r with
  | .cmd id => (s.cmds.find? (fun c => c.id == id)).bind (fun c => c.inflight.find? (fun p => p.at_ == at_))
  | .mx w id => (s.warp w).bind (fun x => (x.mxq.find? (fun o => o.id == id)).bind (fun o => o.pieces.find? (fun p => p.at_ == at_)))

/-- The team, the timestamp c and the edge id of a command. -/
def State.engOf (s : State) (r : EngRef) : Option (Nat × W32 × W64) :=
  match r with
  | .cmd id => (s.cmds.find? (fun c => c.id == id)).map (fun c => (c.team, c.c, c.edge))
  | .mx w id => (s.warp w).bind (fun x => (x.mxq.find? (fun o => o.id == id)).map (fun o => (x.ctx.team, o.c, o.edge)))

/-- A reply raises the T that a command carries (R141). -/
def State.raiseT (s : State) (r : EngRef) (t : W32) : State :=
  match r with
  | .cmd id => { s with cmds := s.cmds.map (fun c => if c.id = id then { c with t := serialMax c.t t } else c) }
  | .mx w id => s.updWarp w (fun x => { x with mxq := x.mxq.map (fun o => if o.id = id then { o with t := serialMax o.t t } else o) })

/-- A command stops with an error; what it has issued lands first (R193, R181). -/
def State.engFail (s : State) (r : EngRef) (c : Cause) (va : W64) : State :=
  match r with
  | .cmd id => { s with cmds := s.cmds.map (fun x =>
      if x.id = id then { x with failed := some (x.failed.getD c), suspended := none, noPage := none } else x) }
  | .mx w id => s.updWarp w (fun x => { x with mxq := x.mxq.map (fun o =>
      if o.id = id then { o with failed := some (o.failed.getD (c, va)), stopped := none, noPage := none } else o) })

/-- The page for which a walk of a command has failed, with the cause (R161). -/
def State.noPageOf (s : State) (r : EngRef) : Option (W64 × Cause) :=
  match r with
  | .cmd id => (s.cmds.find? (fun c => c.id == id)).bind (·.noPage)
  | .mx w id => (s.warp w).bind (fun x => (x.mxq.find? (fun o => o.id == id)).bind (·.noPage))

/-- A walk of a command has failed, or its next piece no longer depends on it. -/
def State.setNoPage (s : State) (r : EngRef) (x : Option (W64 × Cause)) : State :=
  match r with
  | .cmd id => { s with cmds := s.cmds.map (fun c => if c.id = id then { c with noPage := x } else c) }
  | .mx w id => s.updWarp w (fun y => { y with mxq := y.mxq.map (fun o => if o.id = id then { o with noPage := x } else o) })

/-- The source of a piece cannot be read, or its destination refuses it: the command fails, and the piece's bytes are none that it has moved
(R193). -/
def State.pieceBad (s : State) (r : EngRef) (at_ : Nat) (c : Cause) (va : W64) : State :=
  (s.updPiece r at_ (fun p => { p with bad := true })).engFail r c va

/-- A fault that an engine meets by a handle table that lies in no target is logged as a stray access of the table (R14). -/
def State.engNote (s : State) (team : Nat) (c : Cause) (va : W64) : State :=
  match s.engWho team with | some w => s.notePath w c va | none => s

/-! ## Conversions (R187, R219) -/

/-- n bytes of a piece's source, from byte k. -/
def Piece.src (p : Piece) (k n : Nat) : Nat := (List.range n).foldl (fun v i => v + (Tab.get 0 p.raw (k + i)).toNat * 2 ^ (8 * i)) 0

/-- The scale bytes read. -/
def Piece.scales (p : Piece) (n : Nat) : List Nat := (List.range n).map (fun i => (Tab.get 0 p.raw (256 + i)).toNat)

/-- The destination bytes of a piece. -/
def Piece.value (p : Piece) : Nat :=
  match p.conv with
  | .raw => p.src 0 p.n
  | .decode t4 wide n skip => (decodePiece t4 wide (p.src 0 16) (p.scales n)).1 / 2 ^ (8 * skip) % 2 ^ (8 * p.n)
  | .encode t4 wide n first =>
    let wb := Ty.bits wide / 8
    let count := if t4 then 2 * p.n else p.n
    let regs := p.src 0 (count * wb) * 2 ^ (8 * wb * first)
    let off := if t4 then first / 2 else first
    (encodePiece t4 wide regs (p.scales n)).1 / 2 ^ (8 * off) % 2 ^ (8 * p.n)

/-! ## Reaching memory -/

/-- How an engine's access resolves. -/
inductive EngReach where
  | ok (segs : List Seg)
  | wait (s : State)
  | fault (c : Cause) (va : W64) (serve : Bool)

/-- A walk for an engine, asked for once. -/
def State.engWalk (s : State) (w : Who) (r : EngRef) (va : W64) (access : Access) : State :=
  if s.walks.any (fun k => k.waiters.any (fun x => x.who == .engine r)) then s
  else match s.askWalk w.core w.asid va access (.engine r) with | some (_, s) => s | none => s

/-- A page that the TLBs do not hold: a walk is asked for, unless one has failed for it. -/
def State.engMiss (s : State) (w : Who) (r : EngRef) (va : W64) (access : Access) : EngReach :=
  match s.noPageOf r with
  | some (p, c) => if p.toNat / 4096 = va.toNat / 4096 then .fault c va true else .wait (s.engWalk w r va access)
  | none => .wait (s.engWalk w r va access)

def State.engReach (s : State) (w : Who) (r : EngRef) (va : W64) (n : Nat) (access : Access) : EngReach :=
  match s.reach w va n access with
  | .trap c a => .fault c a false
  | .serve c a => .fault c a true
  | .miss a => s.engMiss w r a access
  | .ok segs =>
    match segs.findSome? (fun sg => (s.targetFault w.core sg n none).map (fun c => (c, sg.va))) with
    | some (c, a) => .fault c a false
    | none => if segs.any (fun sg => s.segShut w.core sg) then .wait (s.recallHandles segs) else .ok segs

/-- Lines of the regions of a team that a scratchpad range touches and that are not filled (R123). -/
def Team.rangeLines (t : Team) (off n : Nat) : List (Nat × Nat) :=
  t.regions.flatMap (fun e =>
    let r := e.2
    if overlap r.off r.len off n then
      let lo := (max off r.off - r.off) / 256
      let hi := (min (off + n) (r.off + r.len) - 1 - r.off) / 256
      ((List.range (hi + 1 - lo)).map (lo + ·)).filterMap (fun l =>
        if (Tab.find r.filled l).isSome || (r.gone && (Tab.find r.asked l).isNone) then none else some (e.1, l))
    else [])

/-- Count a request of a command for the samples (R241). -/
def State.countEng (s : State) (w : Who) (r : EngRef) (sg : Seg) : State :=
  match r with
  | .cmd id => match s.cmds.find? (fun c => c.id == id) with
    | some c => s.countReq w.core 3 (engineCode false w.core) c.pc c.cpc c.csn sg.va sg.pa
    | none => s
  | .mx k id => match (s.warp k).bind (fun x => x.mxq.find? (fun o => o.id == id)) with
    | some o => s.countReq w.core 3 (engineCode true w.core) o.pc o.cpc o.csn sg.va sg.pa
    | none => s

/-- An engine's access to a scratchpad range waits until the region lines it touches are filled. 'by' is the clock and the edge id of a command
that has not issued yet. -/
def State.engTouch (s : State) (w : Who) (r : EngRef) (team off n : Nat) (by_ : W32 × W64 := (0, 0)) : EngReach :=
  match s.team team with
  | none => .fault .scratchBounds (BitVec.ofNat 64 off) false
  | some t =>
    match t.rangeLines off n with
    | [] => .ok []
    | lines =>
      match lines.find? (fun e => match Tab.find t.regions e.1 with | some g => (Tab.find g.asked e.2).isNone | none => false) with
      | none => .wait s
      | some e =>
        match s.fillRes w t e with
        | .ok f =>
          if s.segShut w.core f.2.2 then .wait (s.recallHandles [f.2.2])
          else
            let (c, edge) := match s.engOf r with | some (_, c, e) => (c, e) | none => by_
            .wait (s.fillRegions w none c edge team [f] (fun s sg => s.countEng w r sg))
        | .error (.miss a) => s.engMiss w r a .read
        | .error (.serve c a) => .fault c a true
        | .error (.trap c a) => .fault c a false
        | .error _ => .fault .regionMap 0 false

/-! ## Reads and writes of a piece -/

/-- Source bytes of a piece arrive. -/
def State.engBytes (s : State) (r : EngRef) (at_ pos n v : Nat) : State :=
  s.updPiece r at_ (fun p => { p with raw := gather p.raw 0 pos n v })

/-- One read of an engine (R141): through the core's L1 as a reader with the command's clock. -/
def State.engRead (s : State) (w : Who) (r : EngRef) (at_ : Nat) (c : W32) (edge : W64) (sg : Seg) : State :=
  let line := sg.pa / 256
  let off := sg.pa % 256
  let key := pteKey sg.leaf
  let here (v : Nat) (bad : Bool) (s : State) : State :=
    if bad then s.pieceBad r at_ .dataUncorrectable sg.va else s.engBytes r at_ sg.pos sg.n v
  let await : Await := .engine r at_ sg.pos off sg.n
  let later (s : State) : State := (s.updPiece r at_ (fun p => { p with missing := p.missing + 1 })).countEng w r sg
  match targetOf sg.pa sg.leaf with
  | .leased _ h2 =>
    match s.hitL1 w.core line (sectorOf off) key c with
    | some l => here (lineField l.data off sg.n) (l.poison &&& byteRange off sg.n != 0) s
    | none => (later s).send (.engine w.core) w.core line key w.part h2 c
        (.renew (s.renewWts w.core line key) (sectorOf off) (s.pinOf w.grid) false) [await]
  | .home1 _ => (later s).send (.engine w.core) w.core line key w.part false c .read1 [await]
  | .untimed _ => (later s).send (.engine w.core) w.core line key w.part false c .rawRead [await]
  | .host _ => (later s).hostTxn w sg.pa sg.n false true 0 none await
  | .peer =>
    match s.peerHit w.core line (sectorOf off) with
    | some l => here (lineField l.data off sg.n) false s
    | none => (later s).sendPeer w edge (sg.pa / 64 * 64) 64 (.read 64) await
  | .regs => let (v, s) := (s.countEng w r sg).newId.2.regRead (regOf sg.pa); here v.toNat false s
  | .none => here 0 false ((s.countEng w r sg).newId.2.logStray sg.pa)

/-- One write of an engine: a write-back with the command's clock (R141). -/
def State.engWrite (s : State) (w : Who) (r : EngRef) (at_ : Nat) (c : W32) (edge : W64) (sg : Seg) (data : Nat) : State :=
  let line := sg.pa / 256
  let off := sg.pa % 256
  let v := data / 2 ^ (8 * sg.pos) % 2 ^ (8 * sg.n)
  let mask := byteRange off sg.n
  let await : Await := .engineW r at_
  let key := pteKey sg.leaf
  let later (s : State) : State := (s.updPiece r at_ (fun p => { p with writes := p.writes + 1 })).countEng w r sg
  match targetOf sg.pa sg.leaf with
  | .leased _ h2 => (later s).send (.engine w.core) w.core line key w.part h2 c (.wback (lineOf off v) mask none 0) [await]
  | .home1 _ => (later s).send (.engine w.core) w.core line key w.part false c (.wback (lineOf off v) mask none 0) [await]
  | .untimed _ => (later s).send (.engine w.core) w.core line key w.part false c (.rawWrite (lineOf off v) mask) [await]
  | .host _ => (later s).hostTxn w sg.pa sg.n true false (BitVec.ofNat 512 v) none await
  | .peer =>
    let s := s.storePeerL1 w.core line (lineOf off v) mask
    (later s).sendPeer w edge sg.pa sg.n (.write sg.n (BitVec.ofNat 512 v)) await
  | .regs => (s.countEng w r sg).newId.2.regWriteBy (regOf sg.pa) (BitVec.ofNat 64 v)
  | .none => (s.countEng w r sg).newId.2.logStray sg.pa

/-! ## The byte events of a piece (R131, R141) -/

/-- The parts of segments that an engine moves by themselves. -/
def engineSegs (segs : List Seg) : List Seg := segs.flatMap (fun sg => (engineEvents sg.va.toNat sg.n).map sg.cut)

def State.moreReads (s : State) (r : EngRef) (at_ : Nat) : State := s.updPiece r at_ (fun p => { p with missing := p.missing + 1 })
def State.moreWrites (s : State) (r : EngRef) (at_ : Nat) : State := s.updPiece r at_ (fun p => { p with writes := p.writes + 1 })
def State.readDone (s : State) (r : EngRef) (at_ : Nat) : State := s.updPiece r at_ (fun p => { p with missing := p.missing - 1 })
def State.writeDone (s : State) (r : EngRef) (at_ : Nat) : State := s.updPiece r at_ (fun p => { p with writes := p.writes - 1 })

/-- The reads of a piece: at once where there is one part, else each by itself. -/
def State.engReads (s : State) (w : Who) (r : EngRef) (at_ : Nat) (c : W32) (edge : W64) (segs : List Seg) : State :=
  match engineSegs segs with
  | [sg] => s.engRead w r at_ c edge sg
  | l => l.foldl (fun s sg => (s.moreReads r at_).queueUnit w.team (.read r at_ c edge sg)) s

/-- Its writes. -/
def State.engWrites (s : State) (w : Who) (r : EngRef) (at_ : Nat) (c : W32) (edge : W64) (segs : List Seg) (data : Nat) : State :=
  match engineSegs segs with
  | [sg] => s.engWrite w r at_ c edge sg data
  | l => l.foldl (fun s sg => (s.moreWrites r at_).queueUnit w.team (.write r at_ c edge sg data)) s

/-- Scratchpad bytes of a piece are read. -/
def State.spRead (s : State) (r : EngRef) (at_ team off pos n : Nat) : State :=
  if s.scratchBad team off n then s.pieceBad r at_ .dataUncorrectable (BitVec.ofNat 64 off)
  else s.engBytes r at_ pos n (s.readScratch team off n)

/-- Source bytes 'pos' on of a piece, from a scratchpad. -/
def State.spReads (s : State) (r : EngRef) (at_ team off pos n : Nat) : State :=
  match engineEvents off n with
  | [_] => s.spRead r at_ team off pos n
  | l => l.foldl (fun s e => (s.moreReads r at_).queueUnit team (.spRead r at_ (off + e.1) (pos + e.1) e.2)) s

/-- Destination bytes of a piece of a team's command, in a scratchpad. -/
def State.spWrites (s : State) (r : EngRef) (at_ owner team off n data : Nat) (c : W32) : State :=
  match engineEvents off n with
  | [_] => s.writeScratch team off n data c
  | l => l.foldl (fun s e => (s.moreWrites r at_).queueUnit owner (.spWrite r at_ team (off + e.1) e.2 (data / 2 ^ (8 * e.1) % 2 ^ (8 * e.2)) c)) s

/-- The source bytes of a piece that is read, kept for the next piece of its command (R131), and its scales, for every later piece of it (R219). -/
def State.keepCarry (s : State) (r : EngRef) (p : Piece) : State :=
  match r with
  | .mx _ _ => s
  | .cmd id => { s with cmds := s.cmds.map (fun c =>
      if c.id = id then
        let c := { c with scarry := p.scaleVas.zipIdx.foldl (fun t a => Tab.set t a.1 (Tab.get 0 p.raw (256 + a.2))) c.scarry }
        if c.carryAt ≤ p.at_ + p.n then
          { c with carryAt := p.at_ + p.n, carry := (p.raw.filter (fun e => decide (e.1 < 256))).map (fun e => (p.from_ + e.1, e.2)) }
        else c
      else c) }

/-- A piece whose source bytes are all there is written to its destinations, once their ways are open (R16, R17, R19). -/
def State.sendPiece (s : State) (r : EngRef) (at_ : Nat) : State :=
  match s.pieceOf r at_, s.engOf r with
  | some p, some (team, c, edge) =>
    if p.sent || p.bad || p.missing != 0 then s
    else match s.engWho team with
      | none => s
      | some w =>
        if p.dst.any (fun sg => s.segShut w.core sg) then s.recallHandles p.dst
        else
          let v := p.value
          let s := (s.updPiece r at_ (fun p => { p with sent := true })).keepCarry r p
          let s := p.sp.foldl (fun s d => s.spWrites r at_ team d.1 d.2 p.n v c) s
          s.engWrites w r at_ c edge p.dst v
  | _, _ => s

/-- Pieces that wait for the way to their destinations try again. -/
def State.sendPieces (s : State) (r : EngRef) (ps : List Piece) : State := ps.foldl (fun s p => s.sendPiece r p.at_) s

/-- Pieces of a command that has failed: what they have issued has landed (R193). -/
def Piece.landed (p : Piece) : Bool := p.missing == 0 && p.writes == 0 && (p.sent || p.bad)

/-- The address of byte 'pos' of a piece of an MXLD or MXST, for the cause that its warp raises. -/
def State.engVa (s : State) (r : EngRef) (at_ pos : Nat) : W64 :=
  match r with
  | .cmd _ => 0
  | .mx w id => match (s.warp w).bind (fun x => x.mxq.find? (fun o => o.id == id)) with
    | some o => BitVec.ofNat 64 (o.boff + at_ + pos)
    | none => 0

/-- A reply brings source bytes of a piece, or a cause instead. -/
def State.engData (s : State) (r : EngRef) (at_ pos n v : Nat) (c : Cause) : State :=
  let s := s.updPiece r at_ (fun p => { p with missing := p.missing - 1 })
  if c != .none then s.pieceBad r at_ c (s.engVa r at_ pos) else (s.engBytes r at_ pos n v).sendPiece r at_

/-- A write of a piece has been answered with w' (R141). -/
def State.engWrote (s : State) (r : EngRef) (at_ : Nat) (core : Nat) (w' : Option W32) : State :=
  let s := s.updPiece r at_ (fun p => { p with writes := p.writes - 1 })
  match w' with
  | some t => (s.raiseT r t).raiseEclk core t
  | none => s

/-- The piece of a byte event is still there. -/
def State.pieceLives (s : State) (r : EngRef) (at_ : Nat) : Bool := (s.pieceOf r at_).isSome

/-- One byte event is performed (R131), as an access of its agent or its command: its place among the requests of the instruction at an address
(R241). -/
def State.performUnit (s : State) (team : Nat) (k : UnitKind) : State :=
  match k with
  | .load g fid lane sg =>
    (match s.who g, s.flight g fid with
      | some w, some f => (({ s with cur := { s.cur with pc := f.pc } } : State).loadSeg w fid lane sg).pieceDone g fid
      | _, _ => s)
  | .store g id lane pc sg data rel =>
    (match s.who g with
      | some w =>
        let (n, s) := ({ s with cur := { s.cur with pc := pc } } : State).storeSeg w id lane pc sg data rel
        (s.updCtx g (fun c => { c with stores := Tab.upd c.stores id (· + n) })).storeDone g id
      | none => s)
  | .read r at_ c edge sg =>
    (match s.engWho team with
      | some w => if s.pieceLives r at_ then ((s.engRead w r at_ c edge sg).readDone r at_).sendPiece r at_ else s
      | none => s)
  | .write r at_ c edge sg data =>
    (match s.engWho team with
      | some w => if s.pieceLives r at_ then (s.engWrite w r at_ c edge sg data).writeDone r at_ else s
      | none => s)
  | .spRead r at_ off pos n => if s.pieceLives r at_ then ((s.spRead r at_ team off pos n).readDone r at_).sendPiece r at_ else s
  | .spWrite r at_ t off n data c => if s.pieceLives r at_ then (s.writeScratch t off n data c).writeDone r at_ else s

/-- The byte event is of a team's, or goes to its allocation. -/
def ByteUnit.holds (u : ByteUnit) (t : Nat) : Bool := u.team == t || (match u.kind with | .spWrite _ _ o _ _ _ _ => o == t | _ => false)

/-- Where a byte event goes, if to global memory, and from which core. -/
def ByteUnit.way (u : ByteUnit) : Option Seg :=
  match u.kind with
  | .load _ _ _ sg => some sg
  | .store _ _ _ _ sg _ _ => some sg
  | .read _ _ _ _ sg => some sg
  | .write _ _ _ _ sg _ => some sg
  | _ => none

/-- The named byte event is performed, if its way is open. An invalidation that waits for it waits for what it sends (R166). -/
def State.unitMove (s : State) (id : Nat) : State :=
  match s.units.find? (fun u => u.id == id) with
  | none => s
  | some u =>
    let core := u.team / 8
    match u.way.filter (fun sg => s.segShut core sg) with
    | some sg => s.recallHandles [sg]
    | none =>
      let was := s.cur
      let s1 := ({ s with units := s.units.filter (fun o => o.id != id) } : State).performUnit u.team u.kind
      ({ s1 with cur := was } : State).passUses id s.nextId

end Sys2Proof.Machine
end

