-- ==== Sys2Proof/Machine/Matrix.lean ====
section
/-!
DEFINITION. The matrix engine: lane class 0x9 (R380 to R385), the A latch and the queues (R174, R175), array passes (R169 to R172,
R176 to R178) with their arithmetic (R220 to R224), and the accumulator port (R179, R226, R383, R384).
-/

namespace Sys2Proof.Machine

/-! ## Accumulator values (R221, R226) -/

/-- The A48 format. -/
def a48 : Fmt := ⟨38, 511⟩

/-- A 48-bit integer. -/
def sint48 (v : Nat) : Int := (BitVec.ofNat 48 v).toInt

/-- sat48 of R172. -/
def sat48 (v : Int) : Nat := (BitVec.ofInt 48 (max (-(2 ^ 47)) (min (2 ^ 47 - 1) v))).toNat

/-- R226: an accumulator value as an output; bits of the output. -/
def accOut (cfg : BitVec 4) (v : Nat) : Nat :=
  let m : FMod := { sat := cfg.getLsbD 3 }
  match cfg.toNat % 8 with
  | 0 => ((fmtOf .f32).fout m (a48.decode v)).bits
  | 1 => ((fmtOf .bf16).fout m (a48.decode v)).bits
  | 2 => ((fmtOf .f16).fout m (a48.decode v)).bits
  | 3 => (cvtT8 (a48.decode v)).bits
  | _ => (BitVec.ofInt 32 (max (-(2 ^ 31)) (min (2 ^ 31 - 1) (sint48 v)))).toNat

/-- Bytes of an output element. -/
def outBytes (cfg : BitVec 4) : Nat := match cfg.toNat % 8 with | 1 => 2 | 2 => 2 | 3 => 1 | _ => 4

/-- R383: a 32-bit value widened to an accumulator value: FP32 exactly, or a sign-extended integer. -/
def accIn (int : Bool) (v : Nat) : Nat :=
  if int then (BitVec.ofInt 48 (BitVec.ofNat 32 v).toInt).toNat else (a48.fout {} ((fmtOf .f32).decode (v % 2 ^ 32))).bits

/-! ## Accumulators of a warp -/

def accKey (tile row col : Nat) : Nat := 1024 * tile + 128 * row + col
def Warp.accAt (x : Warp) (tile row col : Nat) : Nat := (Tab.get 0 x.acc (accKey tile row col)).toNat
def Warp.setAcc (x : Warp) (tile row col v : Nat) : Warp := { x with acc := Tab.put 0 x.acc (accKey tile row col) (BitVec.ofNat 48 v) }
def Warp.poisoned (x : Warp) (tile : Nat) : Bool := x.poison.getLsbD tile
def Warp.setBadTile (x : Warp) (tile : Nat) (bad : Bool) : Warp :=
  let m : W64 := BitVec.ofNat 64 (2 ^ tile)
  { x with poison := if bad then x.poison ||| m else x.poison &&& ~~~m }

/-! ## Group arithmetic (R169 to R172, R220 to R224) -/

/-- K of a format code (R380), and bits of an element. -/
def mxK (fmt : Nat) : Nat := match fmt with | 1 => 64 | 3 => 64 | 4 => 16 | 5 => 16 | _ => 32
def mxBits (fmt : Nat) : Nat := 256 / mxK fmt

/-- Element k of a 32-byte row. -/
def mxElem (fmt row k : Nat) : Nat := row / 2 ^ (mxBits fmt * k) % 2 ^ mxBits fmt

/-- An integer element (R214). -/
def mxInt (fmt code : Nat) : Int := if fmt = 2 then (BitVec.ofNat 8 code).toInt else (BitVec.ofNat 4 code).toInt

/-- An expanded float element (R220): scales apply to T8 and T4. -/
def mxVal (fmt code : Nat) (scale : Option Nat) : Val :=
  let v : Val := match fmt with
    | 0 => t8Decode code | 1 => t4Decode code | 4 => (fmtOf .f16).decode code | _ => (fmtOf .bf16).decode code
  match scale with
  | none => v
  | some b => match scaleExp b with | none => .nan | some k => v.shift k

/-- R223: finite products lose the bits below 2^(q − 125). -/
def windowed (ps : List Val) : List Val :=
  let tops : List Int := ps.filterMap (fun p => match p with | .fin _ m e _ => if m = 0 then none else some (e + topBit m) | _ => none)
  match tops with
  | [] => ps
  | t :: r =>
    let low := r.foldl max t - 125
    ps.map (fun p => match p with
      | .fin n m e x => if e < low then .fin n (m / 2 ^ (low - e).toNat) low x else p
      | p => p)

/-- One element's update: the row of A, the column of B, their scale bytes, the accumulator (R172, R222 to R224). -/
def mxUpdate (fmt blk : Nat) (a b acc : Nat) (as bs : Nat) : Nat :=
  let ks := List.range (mxK fmt)
  if fmt = 2 ∨ fmt = 3 then
    sat48 (ks.foldl (fun (g : Int) k => g + mxInt fmt (mxElem fmt a k) * mxInt fmt (mxElem fmt b k)) (sint48 acc))
  else
    let sc (s k : Nat) : Option Nat := if blk = 0 then none else some (s / 2 ^ (8 * (k / blk)) % 256)
    let ps := ks.map (fun k => ((mxVal fmt (mxElem fmt a k) (sc as k)).mul (mxVal fmt (mxElem fmt b k) (sc bs k))).1)
    let ps := if fmt = 4 ∨ fmt = 5 then windowed ps else ps
    let r := (a48.fout {} (sumVals 0 (a48.decode acc :: ps)).1).bits
    if r = 2 ^ 47 then 0 else r

/-! ## Quarters and queue entries -/

/-- Quarters with an active lane (R169). -/
def activeQuarters (lanes : Mask) : List Nat := (List.range 16).filter (fun q => (lanes >>> (8 * q)).setWidth 8 != (0 : BitVec 8))

/-- Quarter-tiles that an operation reads or writes (R176). -/
def MxOp.tiles (o : MxOp) : List Nat :=
  match o.kind with
  | 0 | 2 | 3 => (activeQuarters o.lanes).map (o.acc + ·)
  | 1 | 4 | 5 => (List.range o.n).map (o.acc + ·)
  | _ => []

def MxOp.fmt (o : MxOp) : Nat := modBits o.mod 5 3
def MxOp.blk (o : MxOp) : Nat := match modBits o.mod 2 1 with | 0 => 0 | 1 => 16 | _ => 32
/-- Bytes of B, with its scales. -/
def MxOp.bBytes (o : MxOp) : Nat := if o.blk = 0 then 4096 else 4608

/-- Element bytes of MXLD and MXST (R384). -/
def MxOp.elem (o : MxOp) : Nat :=
  if modBits o.mod 6 5 = 0 then 6 else if o.kind = 5 then outBytes o.cfg else 4

/-- The setting that holds at the end of a warp's queue. -/
def Warp.cfgNow (x : Warp) : BitVec 4 := x.mxq.foldl (fun c o => if o.kind = 6 then o.mod.setWidth 4 else c) x.mxcfg

/-! ## Issue (R175, R181) -/

/-- Enter an operation: its number, what it takes at issue, its arrival two cycles after the last pass. -/
def State.enqueue (s : State) (iss : Iss) (w : Nat) (o : Nat → MxOp) (locks : Nat → List Lock) : State :=
  let (id, s) := s.newId
  match s.ctx iss.w.g, s.team iss.w.team with
  | some c, some t =>
    let o : MxOp := { o id with arrival := iss.last + 2, c := c.wclk, t := c.wclk, pc := iss.pc, cpc := t.cpc, csn := t.csn, edge := c.edge }
    let s := (s.lock iss.w.core (locks id)).updWarp w (fun x => { x with mxq := x.mxq ++ [{ o with cfg := x.cfgNow }] })
    if o.kind = 2 ∨ o.kind = 7 then s else s.updCtx iss.w.g (fun c => { c with mx := c.mx + 1 })
  | _, _ => s

/-- Operations that still hold an entry of a warp's queue: an entry is free again once the engine has taken up its operation whole, an MXQ with
the start of its last pass, another operation when the port begins to serve it. R175 does not say when, and R176 lets a chain run at the full
pass rate (DEDUCED, log entry 25). 'serving' is the operation that the port serves. -/
def Warp.queued (x : Warp) (serving : Option Nat) : List MxOp :=
  x.mxq.filter (fun o => if o.kind = 0 then !o.left.isEmpty else serving != some o.id)

/-- The operation that the accumulator port of a core serves. -/
def State.serving (s : State) (core : Nat) : Option Nat := (s.core core).portOp.map (·.2)

/-- A matrix instruction: nothing where no lane is active; its causes concern the whole instruction; it waits for a place in the queue
and for lock entries. -/
def State.matrixOp (s : State) (i : Instr) (x : Args) (locks : Nat) (cause : Iss → State → Warp → Option (Cause × W64))
    (go : Iss → State → Nat → Warp → Eff) : Host.Outcome State Fault Refusal :=
  s.issue i x (fun iss s =>
    match iss.w.g with
    | .ct _ => { st := s }
    | .warp w =>
      match s.warp w with
      | none => { st := s }
      | some y =>
        if iss.act = 0 then { st := if needsTag i then s.passTag iss else s }
        else match cause iss s y with
          | some (c, va) => .all s iss.lanes c va
          | none => if 4 ≤ (y.queued (s.serving iss.w.core)).length || s.lockRoom iss.w.core < locks then .stall s else go iss s w y)

/-- Quarter-tiles of the warp. -/
def State.accOf (s : State) (g : Nat) : Nat := match s.grid g with | some r => r.rec_.acc | none => 0

/-- MATRIX_SLOT of R181 for quarters and for a count. -/
def slotCause (bad : Bool) : Option (Cause × W64) := if bad then some (.matrixSlot, 0) else none
def State.quarterPast (s : State) (iss : Iss) (acc : Nat) : Bool :=
  (activeQuarters iss.act).any (fun q => decide (s.accOf iss.w.grid ≤ acc + q))

/-- The eight registers va to va + 7 of the active lanes. -/
def State.rowsOf (s : State) (iss : Iss) (o : Opnd) : Tab W32 :=
  (lanesOf iss.act).foldl (fun t j => (List.range 8).foldl (fun t k =>
    Tab.put 0 t (16 * j + k) (match o with | .v n => (s.regPart iss.w.g j (.v n.toNat) (.v (n.toNat + k))).setWidth 32 | _ => 0)) t) []

/-- A lock entry. -/
def mkLock (w : Who) (sp : Bool) (lo n : Nat) (dest : Bool) (id : Nat) : Lock :=
  { owner := id, team := if sp then some w.team else none, asid := w.asid, lo := lo, n := n, dest := dest }

/-- R174: the rows that an MXQ uses. Under a latch that holds them, registers that software has changed since leave it open which of the
two each lane takes. -/
def State.latchRows (s : State) (iss : Iss) (y : Warp) (base : Nat) (regs : Tab W32) : Tab W32 × State :=
  let (free, s) := s.free
  let either (t : Tab W32) : Tab W32 := (lanesOf iss.act).foldl (fun r j => (List.range 8).foldl (fun r k =>
    Tab.put 0 r (16 * j + k) (Tab.get 0 (if free.getLsbD j then regs else t) (16 * j + k))) r) []
  match y.latch with
  | some (b, m, t) => (if b = base ∧ m = iss.act ∧ t ≠ regs then either t else regs, s)
  | none => (regs, s)

/-- The rows with their scale registers, where the elements take scales. -/
def State.scaledRows (s : State) (iss : Iss) (rows : Tab W32) : Tab W32 :=
  match iss.x.c with
  | .v n => if modBits iss.x.mod 2 1 = 0 then rows
            else (lanesOf iss.act).foldl (fun t j => Tab.put 0 t (16 * j + 15) ((s.reg iss.w.g j (.v n.toNat)).setWidth 32)) rows
  | _ => rows

/-- Where B of an MXQ begins in the team's scratchpad. -/
def Iss.mxqOff (iss : Iss) (s : State) : Nat := iss.src32 s (lowest iss.act) iss.x.b

/-- Bytes of B with its scales. -/
def mxqSize (x : Args) : Nat := if modBits x.mod 2 1 = 0 then 4096 else 4608

/-- An MXQ enters the queue. -/
def State.mxqGo (s : State) (iss : Iss) (w : Nat) (y : Warp) : State :=
  let x := iss.x
  let off := iss.mxqOff s
  let base := match x.a with | .v n => n.toNat | _ => 0
  let (rows, s1) := s.latchRows iss y base (s.rowsOf iss x.a)
  let o (id : Nat) : MxOp := { id := id, kind := 0, acc := rawOf x.d, mod := x.mod, lanes := iss.act, rows := s.scaledRows iss rows,
                               boff := off, arrival := 0, left := activeQuarters iss.act }
  let s := s1.enqueue iss w o (fun id => [mkLock iss.w true off (mxqSize x) false id])
  s.updWarp w (fun y => { y with latch := if modBit x.mod 0 then some (base, iss.act, rows) else none })

/-- MXQ (R381). -/
def execMxq (x : Args) (s : State) : Host.Outcome State Fault Refusal :=
  s.matrixOp (.mxq x) x 1
    (fun iss s _ =>
      if iss.mxqOff s % 128 ≠ 0 then some (.illegalOperand, 0)
      else if s.scratchSize iss.w.team < iss.mxqOff s + mxqSize x then some (.scratchBounds, BitVec.ofNat 64 (iss.mxqOff s))
      else slotCause (s.quarterPast iss (rawOf x.d)))
    (fun iss s w y => if s.engineHeld iss.w.g then .stall s else { st := s.mxqGo iss w y })

/-- MXZ (R382). -/
def execMxz (x : Args) (s : State) : Host.Outcome State Fault Refusal :=
  let n := modBits x.mod 5 0 + 1
  s.matrixOp (.mxz x) x 0 (fun iss s _ => slotCause (decide (s.accOf iss.w.grid < rawOf x.d + n)))
    (fun iss s w _ => { st := s.enqueue iss w (fun id => { id := id, kind := 1, acc := rawOf x.d, n := n, mod := x.mod, lanes := iss.act, arrival := 0 }) (fun _ => []) })

/-- MXRD: a result of variable latency that the port forms (R383). -/
def State.mxReadOp (s : State) (i : Instr) (x : Args) (kind : Nat) : Host.Outcome State Fault Refusal :=
  s.matrixOp i x 0 (fun iss s _ => slotCause (kind == 2 && s.quarterPast iss (rawOf x.a)))
    (fun iss s w _ =>
      let (fid, s) := s.newId
      let s := s.beginFlight iss { id := fid, tag := 0, cnt := .none, pc := 0, lanes := 0, form := .ready, missing := 1 }
      let d := match x.d with | .v n => n.toNat | _ => 0
      let o (id : Nat) : MxOp := { id := id, kind := kind, acc := rawOf x.a, mod := x.mod, lanes := iss.act, d := d, flight := fid, arrival := 0 }
      { st := s.enqueue iss w o (fun _ => []) })

def execMxrd (x : Args) (s : State) : Host.Outcome State Fault Refusal := s.mxReadOp (.mxrd x) x 2
def execMxrdCfg (x : Args) (s : State) : Host.Outcome State Fault Refusal := s.mxReadOp (.mxrdCfg x) x 7

/-- MXWR (R383). -/
def execMxwr (x : Args) (s : State) : Host.Outcome State Fault Refusal :=
  s.matrixOp (.mxwr x) x 0 (fun iss s _ => slotCause (s.quarterPast iss (rawOf x.d)))
    (fun iss s w _ =>
      let rows := s.rowsOf iss x.a
      let o (id : Nat) : MxOp := { id := id, kind := 3, acc := rawOf x.d, mod := x.mod, lanes := iss.act, rows := rows, arrival := 0 }
      { st := s.enqueue iss w o (fun _ => []) })

/-- Where the memory range of an MXLD or MXST begins, and how many bytes it has. -/
def Iss.mxAddr (iss : Iss) (s : State) : Nat :=
  let j := lowest iss.act
  if spaceOf iss.x.mod = 1 then iss.scratchOff s j iss.x.a (some iss.x.b) else (iss.globalVa s j iss.x.a (some iss.x.b)).toNat
def Warp.mxBytes (y : Warp) (x : Args) (store : Bool) : Nat :=
  (modBits x.mod 4 2 + 1) * 1024 * MxOp.elem { id := 0, kind := if store then 5 else 4, acc := 0, mod := x.mod, lanes := 0, arrival := 0, cfg := y.cfgNow }

/-- The range of an MXLD or MXST in global memory fails R156. -/
def State.mxRange (s : State) (iss : Iss) (y : Warp) (store : Bool) : Option Cause :=
  if spaceOf iss.x.mod = 1 then none else rangeFault (BitVec.ofNat 64 (iss.mxAddr s)) (y.mxBytes iss.x store)

/-- An MXLD or MXST enters the queue; one whose range fails R156 only to complete there with its error. -/
def State.mxMemGo (s : State) (iss : Iss) (w : Nat) (y : Warp) (store : Bool) : State :=
  let x := iss.x
  let sp := spaceOf x.mod = 1
  let bad := s.mxRange iss y store
  let o (id : Nat) : MxOp := { id := id, kind := if store then 5 else 4, acc := rawOf x.d, n := modBits x.mod 4 2 + 1, mod := x.mod,
                               lanes := iss.act, boff := iss.mxAddr s, sp := sp, arrival := 0,
                               failed := bad.map (fun c => (c, BitVec.ofNat 64 (iss.mxAddr s))) }
  s.enqueue iss w o (fun id => if bad.isSome then [] else [mkLock iss.w sp (iss.mxAddr s) (y.mxBytes x store) store id])

/-- MXLD and MXST (R384): engine commands over a range of memory. -/
def State.mxMemOp (s : State) (i : Instr) (x : Args) (store : Bool) : Host.Outcome State Fault Refusal :=
  s.matrixOp i x 1
    (fun iss s y =>
      let a := iss.mxAddr s
      if a % 256 ≠ 0 then some (.illegalOperand, 0)
      else if spaceOf x.mod = 1 ∧ s.scratchSize iss.w.team < a + y.mxBytes x store then some (.scratchBounds, BitVec.ofNat 64 a)
      else slotCause (decide (s.accOf iss.w.grid < rawOf x.d + (modBits x.mod 4 2 + 1))))
    (fun iss s w y => if s.engineHeld iss.w.g then .stall s else { st := s.mxMemGo iss w y store })

def execMxld (x : Args) (s : State) : Host.Outcome State Fault Refusal := s.mxMemOp (.mxld x) x false
def execMxst (x : Args) (s : State) : Host.Outcome State Fault Refusal := s.mxMemOp (.mxst x) x true

/-- MXCFG (R385). -/
def execMxcfg (x : Args) (s : State) : Host.Outcome State Fault Refusal :=
  s.matrixOp (.mxcfg x) x 0 (fun _ _ _ => none)
    (fun iss s w _ => { st := s.enqueue iss w (fun id => { id := id, kind := 6, acc := 0, mod := x.mod, lanes := iss.act, arrival := 0 }) (fun _ => []) })

/-! ## Heads of the queues (R176, R177) -/

/-- The head of a warp's queue: its first operation that the engine has not taken up whole (R176: a later one on other quarter-tiles may overlap
one that the port serves). -/
def State.headOf (s : State) (w : Nat) (x : Warp) : Option MxOp := (x.queued (s.serving (w / 128))).head?

/-- R176: every earlier operation on one of its tiles is complete, or is an MXQ before an MXQ. -/
def Warp.opReady (x : Warp) (o : MxOp) : Bool :=
  (x.mxq.takeWhile (fun e => e.id != o.id)).all (fun e =>
    (e.kind == 0 && o.kind == 0) || (e.tiles.filter (fun t => o.tiles.contains t)).isEmpty)

/-- Warps of a core by position after a pointer, wrapping (R177). -/
def State.after_ (s : State) (core ptr : Nat) : List (Nat × Warp) :=
  let mine := s.warps.filter (fun e => e.1 / 128 == core)
  mine.filter (fun e => decide (ptr < e.1 % 128)) ++ mine.filter (fun e => decide (e.1 % 128 ≤ ptr))

/-- R33: the issue slots and the matrix engine may issue in this cycle. -/
def State.gateOpen (s : State) (core : Nat) : Bool :=
  match s.partOfCore core with
  | none => true
  | some p =>
    let g := gateOf (s.part p).level
    let c := s.cycle core
    decide (c * g / 64 < (c + 1) * g / 64)

/-- The ready MXQs at queue heads, in position order after a pointer; B lines of mapped regions must be filled. -/
def State.mxqHeads (s : State) (core ptr : Nat) : List (Nat × MxOp) :=
  (s.after_ core ptr).filterMap (fun e =>
    match s.headOf e.1 e.2 with
    | some o =>
      let filled := match s.team e.2.ctx.team with | some t => (t.rangeLines o.boff o.bBytes).isEmpty | none => false
      if o.kind == 0 && e.2.opReady o && decide (o.arrival ≤ s.cycle core) && filled then some (e.1, o) else none
    | none => none)

/-- A member matches the lead (R177). -/
def MxOp.matches (a b : MxOp) : Bool := a.boff == b.boff && a.fmt == b.fmt && a.blk == b.blk

/-- The B bytes that the parts of a pass read, by team. -/
def State.readTiles (s : State) (ws : List Nat) (off n : Nat) : Tab (Tab Byte) :=
  ws.foldl (fun t w =>
    match s.warp w with
    | some x => match s.team x.ctx.team with
      | some tm => Tab.set t x.ctx.team ((tm.scr.filter (fun c => decide (off ≤ c.1 ∧ c.1 < off + n))).map (fun c => (c.1 - off, c.2)))
      | none => t
    | none => t) []

/-- An operation is complete: it is forgotten and counts down cnt.mx (R175, R243). -/
def State.mxDone (s : State) (w : Nat) (o : MxOp) : State :=
  let s := s.updWarp w (fun x => { x with mxq := x.mxq.filter (fun e => e.id != o.id) })
  let s := s.updCore (w / 128) (fun c => { c with portOp := if c.portOp = some (w, o.id) then none else c.portOp })
  if o.kind = 2 ∨ o.kind = 7 then s
  else s.updCtx (.warp w) (fun c => { c with
    mx := c.mx - 1
    cmdClock := serialMax c.cmdClock o.t
    lastMx := lastWords (engineCode true (w / 128)) o.csn o.edge
    mxLast := true })

/-- An error of MXLD or MXST in an event record (R181). -/
def State.mxRecord (s : State) (w : Nat) (o : MxOp) (status flags : Nat) (c : Cause) : State :=
  match s.warp w with
  | some x => s.pushEvent x.ctx.team (evRec 1 status c flags o.csn (BitVec.ofNat 32 o.done) o.cpc (BitVec.ofNat 64 o.boff) o.t o.edge)
  | none => s

/-- MXLD or MXST ends with an error. Of several that are pending at one WAITC the first is kept and raised, which R181 leaves open (DESIGN
CHOICE, log entry 46). -/
def State.mxError (s : State) (w : Nat) (o : MxOp) (c : Cause) (va : W64) : State :=
  ((s.mxRecord w o 1 0 c).unlock o.id false).mxDone w o |>.updCtx (.warp w) (fun x => { x with errMx := some (x.errMx.getD (c, va)) })

/-- A fault of a piece of MXLD or MXST: it suspends where the fault can be served under PARK, once its earlier pieces have landed, else
it fails (R181, R194). An MXQ whose first touch of a region line meets one is treated alike, which R181 does not say (DESIGN CHOICE,
log entry 44). -/
def State.mxFault (s : State) (w : Nat) (o : MxOp) (asid : W16) (c : Cause) (va : W64) (serve : Bool) (access : Access) : State :=
  if serve && s.parkHeld asid then s.recallPark asid
  else if serve && s.parks asid then
    if !o.pieces.isEmpty then s else
    let (id, s) := s.newId
    let req : FaultReq := { id := id, asid := asid, va := va, access := access, who := .engine (.mx w o.id) }
    let s := ({ s with faults := s.faults ++ [req] } : State).emit (.fault id asid va)
    let s := s.updWarp w (fun x => { x with mxq := x.mxq.map (fun e => if e.id = o.id then { e with stopped := some id, noPage := none } else e) })
    s.mxRecord w o 2 2 c
  else (match s.warp w with | some x => s.engNote x.ctx.team c va | none => s).engFail (.mx w o.id) c va

/-- ATS holds no translation for a host page that MXLD or MXST needs: it suspends on a request through PRI (R63). -/
def State.mxPri (s : State) (w : Nat) (o : MxOp) (asid : W16) (pa : Nat) : State :=
  if !o.pieces.isEmpty then s
  else
    let (id, s) := s.newId
    let req : PriReq := { id := id, pa := pa, asid := asid, who := .engine (.mx w o.id), ticket := id }
    let s := ({ s with pris := s.pris ++ [req] } : State).emit (.ats (pa / 2 ^ 48 % 4) pa asid)
    let s := s.updWarp w (fun x => { x with mxq := x.mxq.map (fun e => if e.id = o.id then { e with stopped := some id } else e) })
    s.mxRecord w o 2 2 .translation

/-- The region lines of B that a waiting MXQ needs are asked for (R123). -/
def State.touchHead (s : State) (w : Nat) (x : Warp) (o : MxOp) : State :=
  match o.failed with
  | some (c, va) => s.mxError w o c va
  | none =>
    if o.stopped.isSome then s
    else match s.engWho x.ctx.team with
      | none => s
      | some who =>
        match s.engTouch who (.mx w o.id) x.ctx.team o.boff o.bBytes with
        | .wait s => s
        | .ok _ => s
        | .fault c va serve => s.mxFault w o who.asid c va serve .read

/-- The same for the MXQs at the heads of a core's queues. -/
def State.touchHeads (s : State) (core : Nat) : State :=
  (s.after_ core 127).foldl (fun s e =>
    match s.headOf e.1 e.2 with
    | some o => if o.kind == 0 then s.touchHead e.1 e.2 o else s
    | none => s) s

/-- A pass begins: its parts leave their operations, and an operation with none left unread frees its lock entry (R177). -/
def State.beginPass (s : State) (core : Nat) (pass : Pass) (ptr : Nat) (rest : Option (Nat × Nat)) : State :=
  let s := s.updCore core (fun c => { c with passes := c.passes ++ [pass], mxFree := pass.ends + 1, mxPtr := ptr, lead := none, joined := [], leftover := rest })
  pass.parts.foldl (fun s p =>
    let s := s.updWarp p.1 (fun x => { x with mxq := x.mxq.map (fun o =>
      if o.id = p.2.1 then { o with left := o.left.filter (fun q => q != p.2.2), writing := o.writing ++ [p.2.2], started := true } else o) })
    let over_ := match s.warp p.1 with
      | some x => x.mxq.any (fun o => o.id == p.2.1 && o.left.isEmpty)
      | none => true
    if over_ then s.unlock p.2.1 false else s) s

/-- Who leads the next pass, until when it waits for members, and where the pointer then stands (R177): the MXQ chosen in an earlier cycle,
one with quarters left over, or the first after the pointer. -/
def State.leadOf (s : State) (core : Nat) : Option ((Nat × MxOp) × Nat × Nat) :=
  let c := s.core core
  let heads := s.mxqHeads core c.mxPtr
  let at_ (w id : Nat) : Option (Nat × MxOp) := heads.find? (fun h => h.1 == w && h.2.id == id)
  match c.lead.bind (fun l => (at_ l.1 l.2.1).map (fun h => (h, l.2.2))) with
  | some (h, t) => some (h, t, c.mxPtr)
  | none =>
    match c.leftover.bind (fun l => at_ l.1 l.2) with
    | some h => some (h, s.cycle core, c.mxPtr)
    | none => heads.head?.map (fun h => (h, h.2.arrival + 16, h.1 % 128))

/-- The quarters that a pass under a lead may take, in order: those that joined it in earlier cycles, then the lead's own and those of matching
members (R177). -/
def State.passWant (s : State) (core lw : Nat) (lead : MxOp) : List (Nat × Nat × Nat) :=
  let c := s.core core
  let others := (s.mxqHeads core (lw % 128)).filter (fun h => h.2.id != lead.id && h.2.matches lead && decide (h.2.arrival ≤ lead.arrival + 16))
  let all := ((lw, lead) :: others).flatMap (fun h => h.2.left.map (fun q => (h.1, h.2.id, q)))
  let old := if c.lead.any (fun l => l.2.1 == lead.id) then c.joined.filter (fun j => all.contains j) else []
  old ++ all.filter (fun j => !old.contains j)

/-- MATRIX_PASS_START (R177): while the array is free and issue is not gated, choose who leads, and start the pass once it is full or
its wait is over. -/
def State.passStart (s : State) (core : Nat) : State :=
  let s := s.touchHeads core
  let now := s.cycle core
  if now < (s.core core).mxFree ∨ !s.gateOpen core then s
  else
    match s.leadOf core with
    | none => s.updCore core (fun c => { c with lead := none, joined := [] })
    | some ((lw, lead), until_, ptr) =>
      let want := s.passWant core lw lead
      let parts := want.take 4
      if parts.length < 4 ∧ now < until_ then s.updCore core (fun c => { c with lead := some (lw, lead.id, until_), joined := parts, mxPtr := ptr })
      else
        let rest := (want.drop 4).head?.bind (fun r => if parts.any (fun p => p.2.1 == r.2.1) then some (r.1, r.2.1) else none)
        let ends := now + (if lead.fmt = 4 ∨ lead.fmt = 5 then 4 else 2) - 1
        let pass : Pass := { parts := parts, ends := ends, writes := ends + 10, tiles := s.readTiles (dedup (parts.map (·.1))) lead.boff lead.bBytes }
        s.beginPass core pass ptr rest

/-- One quarter of a pass writes its eight rows, those of the active lanes (R169, R172). -/
def Warp.accumulate (x : Warp) (o : MxOp) (q : Nat) (b : Tab Byte) : Warp :=
  let word (t : Tab Byte) (at_ n : Nat) : Nat := (List.range n).foldl (fun v i => v + (Tab.get 0 t (at_ + i)).toNat * 2 ^ (8 * i)) 0
  let cols := (List.range 128).map (fun c => (c, word b (32 * c) 32, word b (4096 + 4 * c) 4))
  ((lanesOf o.lanes).filter (fun j => j / 8 == q)).foldl (fun x j =>
    let a := (List.range 8).foldl (fun v k => v + (Tab.get 0 o.rows (16 * j + k)).toNat * 2 ^ (32 * k)) 0
    let as := (Tab.get 0 o.rows (16 * j + 15)).toNat
    cols.foldl (fun x c => x.setAcc (o.acc + q) (j % 8) c.1 (mxUpdate o.fmt o.blk a c.2.1 (x.accAt (o.acc + q) (j % 8) c.1) as c.2.2)) x) x

/-- One part of a pass enters the accumulators; an operation whose last part this is is complete. -/
def State.writePart_ (s : State) (p : Pass) (e : Nat × Nat × Nat) : State :=
  match s.warp e.1 with
  | none => s
  | some x =>
    match x.mxq.find? (fun o => o.id == e.2.1) with
    | none => s
    | some o =>
      let s := s.updWarp e.1 (fun x =>
        let x := x.accumulate o e.2.2 (Tab.get [] p.tiles x.ctx.team)
        { x with mxq := x.mxq.map (fun n => if n.id = o.id then { n with writing := n.writing.filter (fun q => q != e.2.2) } else n) })
      let last := o.left.isEmpty && (o.writing.filter (fun q => q != e.2.2)).isEmpty
      if last then s.mxDone e.1 o else s

/-- MATRIX_PASS_WRITE (R178): the oldest pass whose tenth cycle has come writes its results. -/
def State.passWrite (s : State) (core : Nat) : State :=
  match (s.core core).passes with
  | p :: rest =>
    if s.cycle core < p.writes then s
    else
      p.parts.foldl (fun s e => s.writePart_ p e) (s.updCore core (fun c => { c with passes := rest }))
  | [] => s

/-! ## The accumulator port (R179, R382 to R385) -/

/-- The chunk of one lane for MXRD (R383), as registers from d on. -/
def Warp.chunk (x : Warp) (o : MxOp) (j : Nat) : List RegWrite :=
  let c := modBits o.mod 3 0
  let bits := 8 * outBytes o.cfg
  let v := (List.range 8).foldl (fun v k => v + accOut o.cfg (x.accAt (o.acc + j / 8) (j % 8) (8 * c + k)) * 2 ^ (bits * k)) 0
  (List.range (8 * bits / 32)).map (fun k => { lane := j, dest := .v (o.d + k), val := BitVec.ofNat 128 (v / 2 ^ (32 * k) % 2 ^ 32) })

/-- MXWR's rows enter the accumulators. -/
def Warp.writeChunk (x : Warp) (o : MxOp) : Warp :=
  let c := modBits o.mod 3 0
  let x := (lanesOf o.lanes).foldl (fun x j => (List.range 8).foldl (fun x k =>
    x.setAcc (o.acc + j / 8) (j % 8) (8 * c + k) (accIn (modBit o.mod 4) (Tab.get 0 o.rows (16 * j + k)).toNat)) x) x
  o.tiles.foldl (fun x t => x.setBadTile t false) x

/-- MXZ clears whole quarter-tiles. -/
def Warp.zeroTiles (x : Warp) (o : MxOp) : Warp :=
  let x := { x with acc := x.acc.filter (fun e => !o.tiles.contains (e.1 / 1024)) }
  o.tiles.foldl (fun x t => x.setBadTile t false) x

/-- Element k (tile, row, column in order) of the memory image of MXLD and MXST. -/
def Warp.loadTiles (x : Warp) (o : MxOp) : Warp :=
  let e := o.elem
  let x := (List.range (1024 * o.n)).foldl (fun x k =>
    let v := (List.range e).foldl (fun v i => v + (Tab.get 0 o.buf (k * e + i)).toNat * 2 ^ (8 * i)) 0
    let a := match modBits o.mod 6 5 with | 0 => v | f => accIn (f == 2) v
    x.setAcc (o.acc + k / 1024) (k / 128 % 8) (k % 128) a) x
  o.tiles.foldl (fun x t => x.setBadTile t false) x

/-- The bytes that MXST stores. -/
def Warp.storeTiles (x : Warp) (o : MxOp) : Tab Byte :=
  let e := o.elem
  (List.range (1024 * o.n)).foldl (fun t k =>
    let a := x.accAt (o.acc + k / 1024) (k / 128 % 8) (k % 128)
    let v := if modBits o.mod 6 5 = 0 then a else accOut o.cfg a
    (List.range e).foldl (fun t i => Tab.put 0 t (k * e + i) (BitVec.ofNat 8 (v / 2 ^ (8 * i)))) t) []

/-- Cycles of the port. -/
def MxOp.portCycles (o : MxOp) : Nat :=
  match o.kind with
  | 1 => o.n
  | 2 | 3 => 2 * (activeQuarters o.lanes).length
  | 4 | 5 => 24 * o.n
  | _ => 1

/-- One piece of MXLD or MXST is issued. -/
def State.mxPiece (s : State) (w : Nat) (x : Warp) (o : MxOp) (total : Nat) : State :=
  let at_ := o.pieces.foldl (fun m p => max m (p.at_ + p.n)) o.done
  let n := min 64 (total - at_)
  let ref : EngRef := .mx w o.id
  if at_ = total then s
  else match s.engWho x.ctx.team with
    | none => s
    | some who =>
      let add (s : State) (p : Piece) : State :=
        s.updWarp w (fun x => { x with mxq := x.mxq.map (fun e => if e.id = o.id then { e with pieces := e.pieces ++ [p], noPage := none } else e) })
      let raw : Tab Byte := if o.kind = 5 then (List.range n).foldl (fun t i => Tab.set t i (Tab.get 0 o.buf (at_ + i))) [] else []
      if o.sp then
        match s.engTouch who ref x.ctx.team (o.boff + at_) n with
        | .wait s => s
        | .fault c va serve => s.mxFault w o who.asid c va serve .read
        | .ok _ =>
          if o.kind = 5 then (add s { at_ := at_, n := n, raw := raw, sp := [(x.ctx.team, o.boff + at_)] }).sendPiece ref at_
          else if s.scratchBad x.ctx.team (o.boff + at_) n then s.engFail ref .dataUncorrectable (BitVec.ofNat 64 (o.boff + at_))
          else ((add s { at_ := at_, n := n }).spReads ref at_ x.ctx.team (o.boff + at_) 0 n).sendPiece ref at_
      else
        let va := BitVec.ofNat 64 (o.boff + at_)
        let access : Access := if o.kind = 5 then .write else .read
        match s.engReach who ref va n access with
        | .wait s => s
        | .fault c a serve => s.mxFault w o who.asid c a serve access
        | .ok segs =>
          match s.atsMiss segs with
          | (some sg, s) => s.mxPri w o who.asid sg.pa
          | (none, s) =>
            if o.kind = 5 then (add s { at_ := at_, n := n, raw := raw, dst := segs }).sendPiece ref at_
            else ((add s { at_ := at_, n := n }).engReads who ref at_ o.c o.edge segs).sendPiece ref at_

/-- A piece that has been read and written is done: its bytes enter the buffer of an MXLD. -/
def State.mxLand (s : State) (w : Nat) (o : MxOp) (p : Piece) : State :=
  s.updWarp w (fun x => { x with mxq := x.mxq.map (fun e =>
    if e.id = o.id then
      { e with
        pieces := e.pieces.filter (fun q => q.at_ != p.at_)
        done := e.done + p.n
        buf := if e.kind = 4 then (List.range p.n).foldl (fun t i => Tab.put 0 t (p.at_ + i) (Tab.get 0 p.raw i)) e.buf else e.buf }
    else e) })

/-- An MXLD or MXST with a record updated. -/
def State.updMx (s : State) (w id : Nat) (f : MxOp → MxOp) : State :=
  s.updWarp w (fun x => { x with mxq := x.mxq.map (fun e => if e.id = id then f e else e) })

/-- MXLD or MXST has performed its last byte event: it is complete (R179). -/
def State.mxOver (s : State) (w id : Nat) : State :=
  match s.warp w with
  | none => s
  | some x =>
    match x.mxq.find? (fun o => o.id == id) with
    | none => s
    | some o =>
      if o.failed.isSome || decide (o.done < o.n * 1024 * o.elem) then s
      else ((if o.kind = 4 then s.updWarp w (fun x => x.loadTiles o) else s).unlock id false).mxDone w o

/-- MXLD and MXST move on by a piece, or end (R179). The port's own cycles come before their memory accesses; they are complete with the last of
these (log entry 25). No address has faulted where MXST finds a poisoned tile, and R181 names none for TRAPADDR: the model gives 0 (DESIGN
CHOICE, log entry 46). -/
def State.mxMemory (s : State) (core w : Nat) (x : Warp) (o : MxOp) : State :=
  let total := o.n * 1024 * o.elem
  let over_ := decide ((s.core core).portFree ≤ s.cycle core)
  match o.failed, o.pieces.find? (fun p => p.sent && !p.bad && p.writes == 0) with
  | _, some p => (s.mxLand w o p).mxOver w o.id
  | some (c, va), none => if o.pieces.all Piece.landed then s.mxError w o c va else s
  | none, none =>
    if o.stopped.isSome then s
    else if !o.started then
      if !over_ then s
      else if o.kind = 5 && o.tiles.any x.poisoned then s.mxError w o .dataUncorrectable 0
      else s.updMx w o.id (fun e => { e with started := true, buf := if o.kind = 5 then x.storeTiles o else e.buf })
    else s.mxPiece w x o total

/-- An operation other than MXLD and MXST is performed at the end of its port cycles. -/
def State.portOp (s : State) (core w : Nat) (x : Warp) (o : MxOp) : State :=
  if s.cycle core < (s.core core).portFree then s
  else
    let g := Agent.warp w
    let read (ws : Nat → List RegWrite) (s : State) : State :=
      let lanes := lanesOf o.lanes
      let bad := lanes.filter (fun j => o.kind == 2 && x.poisoned (o.acc + j / 8))
      let s := s.updFlight g o.flight (fun f => { f with missing := 0, writes := (lanes.filter (fun j => !bad.contains j)).flatMap ws })
      bad.foldl (fun s j => s.badIn g o.flight j .dataUncorrectable) s
    let s := match o.kind with
      | 1 => s.updWarp w (fun x => x.zeroTiles o)
      | 2 => read (x.chunk o) s
      | 3 => s.updWarp w (fun x => x.writeChunk o)
      | 7 => read (fun j => [{ lane := j, dest := .v o.d, val := o.cfg.setWidth 128 }]) s
      | _ => s.updWarp w (fun x => { x with mxcfg := o.mod.setWidth 4 })
    s.mxDone w o

/-- The warps of a core whose head is a ready operation other than MXQ, from the port's pointer on (R179). -/
def State.portReady (s : State) (core : Nat) : List (Nat × Warp × MxOp) :=
  (s.after_ core (s.core core).portPtr).filterMap (fun e =>
    match s.headOf e.1 e.2 with
    | some o => if o.kind != 0 && e.2.opReady o && decide (o.arrival ≤ s.cycle core) then some (e.1, e.2, o) else none
    | none => none)

/-- The operation that the port serves, if it has one. An MXLD or MXST suspended on a fault keeps the port, which R179 and R181 leave open
(DESIGN CHOICE, log entry 46). -/
def State.portNow (s : State) (core : Nat) : Option (Nat × Warp × MxOp) :=
  (s.core core).portOp.bind (fun l => (s.warp l.1).bind (fun x => (x.mxq.find? (fun o => o.id == l.2)).map (fun o => (l.1, x, o))))

/-- A free port takes up the first ready operation after its pointer, which moves there (R179). -/
def State.portTake (s : State) (core : Nat) : State :=
  if (s.portNow core).isSome then s
  else match s.portReady core with
    | [] => s
    | (w, _, o) :: _ => s.updCore core (fun c => { c with
        portOp := some (w, o.id), portPtr := w % 128, portFree := s.cycle core + o.portCycles })

/-- ACC_PORT_OPERATION (R179): the port serves one operation at a time, the time that it waits for memory included. -/
def State.portServe (s : State) (core : Nat) : State :=
  let s := s.portTake core
  match s.portNow core with
  | none => s
  | some (w, x, o) => (if o.kind = 4 ∨ o.kind = 5 then s.mxMemory core w x o else s.portOp core w x o).portTake core

/-- The same, once the pieces of an MXST that wait for the way to their destinations have tried again. -/
def State.portMove (s : State) (core : Nat) : State :=
  match s.portNow core with
  | some (w, _, o) => (s.sendPieces (.mx w o.id) o.pieces).portServe core
  | none => s.portServe core

/-- ENGINE_UNCORRECTABLE (R181): a quarter-tile is poisoned, the error recorded and raised at the warp's next WAITC. -/
def State.engineError (s : State) (w tile : Nat) : State :=
  match s.warp w with
  | none => s
  | some x =>
    match s.team x.ctx.team with
    | none => s
    | some t =>
      if s.accOf t.grid ≤ tile then s
      else
        let s := s.updWarp w (fun x => (x.setBadTile tile true))
        let s := s.updCtx (.warp w) (fun c => { c with errMx := some (c.errMx.getD (.engineUncorrectable, 0)) })
        s.pushEvent x.ctx.team (evRec 1 1 .engineUncorrectable 0 t.csn 0 t.cpc 0 x.ctx.wclk x.ctx.edge)

end Sys2Proof.Machine
end

