-- ==== Sys2Proof/Machine/Transfer.lean ====
section
/-!
DEFINITION. The block transfer engine (R183 to R197): copy descriptors, commands and their pieces, multicasts, schedules; and the
instructions CPY, CPYS, UCPY, UCPYS (R386, R387).
-/

namespace Sys2Proof.Machine

/-! ## Descriptors (R183 to R186) -/

abbrev Desc := BitVec 512

/-- n bytes of a descriptor at an offset. -/
def Desc.f (d : Desc) (off n : Nat) : Nat := d.toNat / 2 ^ (8 * off) % 2 ^ (8 * n)
/-- The same, signed. -/
def Desc.i (d : Desc) (off n : Nat) : Int := let v := d.f off n; if 2 ^ (8 * n - 1) ≤ v then (v : Int) - 2 ^ (8 * n) else v

def Desc.mode (d : Desc) : Nat := d.f 0 1
def Desc.flag (d : Desc) (k : Nat) : Bool := (d.f 1 2).testBit k
def Desc.srcSp (d : Desc) : Bool := d.flag 0
def Desc.dstSp (d : Desc) : Bool := d.flag 1
def Desc.barSp (d : Desc) : Bool := d.flag 2
def Desc.decodes (d : Desc) : Bool := d.flag 3
def Desc.encodes (d : Desc) : Bool := d.flag 4
def Desc.converts (d : Desc) : Bool := d.decodes || d.encodes
def Desc.mcast (d : Desc) : Nat := d.f 5 1
def Desc.src (d : Desc) : Nat := d.f 8 8
def Desc.dst (d : Desc) : Nat := d.f 16 8
def Desc.bar (d : Desc) : Nat := d.f 24 8
def Desc.ackbar (d : Desc) : Nat := d.f 56 8

/-- The size of an item, and how many there are (R185, R186). -/
def Desc.size (d : Desc) : Nat :=
  match d.mode with
  | 0 => d.f 0x20 4 | 1 => d.f 0x24 4 | 2 => d.f 0x20 2 * 2 ^ d.f 3 1 | 3 => d.f 0x24 2 | 4 => d.f 0x24 4 | _ => 0
def Desc.count (d : Desc) : Nat :=
  match d.mode with
  | 0 => 1 | 1 => d.f 0x20 4 | 2 => d.f 0x22 2 * d.f 0x24 2 * d.f 0x26 2 | 3 => d.f 0x34 2 | 4 => d.f 0x20 4 | _ => 0

/-- Bytes that each receiver gets. -/
def Desc.bytes (d : Desc) : Nat := d.size * d.count

/-- R186: row j of a convolution gather: its source, none for a zero row, and whether it is a tail row. -/
def Desc.convRow (d : Desc) (j : Nat) : Option Int × Bool :=
  let (h, w, cb, nimg, oh, ow) := (d.f 0x20 2, d.f 0x22 2, d.f 0x24 2, d.f 0x26 2, d.f 0x28 2, d.f 0x2A 2)
  let p := d.f 0x30 4 + j
  let n := p / (oh * ow)
  let q := p % (oh * ow)
  let iy : Int := ((q / ow * d.f 0x2C 1 : Nat) : Int) - d.f 0x2E 1 + d.f 0x36 1
  let ix : Int := ((q % ow * d.f 0x2D 1 : Nat) : Int) - d.f 0x2F 1 + d.f 0x37 1
  if nimg ≤ n then (none, true)
  else if iy < 0 ∨ (h : Int) ≤ iy ∨ ix < 0 ∨ (w : Int) ≤ ix then (none, false)
  else (some ((d.src : Int) + (((n * h : Nat) + iy) * w + ix) * cb), false)

/-- Item i: its source, none for a zero row, and its destination (R185). -/
def Desc.item (d : Desc) (index : List W32) (i : Nat) : Option Int × Int :=
  let s : Int := d.src
  let t : Int := d.dst
  match d.mode with
  | 0 => (some s, t)
  | 1 => (some (s + i * d.i 0x28 8), t + i * d.i 0x30 8)
  | 2 =>
    let (n1, n2) := (max 1 (d.f 0x22 2), max 1 (d.f 0x24 2))
    let (i1, i2, i3) := (i % n1, i / n1 % n2, i / n1 / n2)
    (some (s + i1 * d.i 0x28 4 + i2 * d.i 0x2C 4 + i3 * d.i 0x30 4), t + i * d.size)
  | 3 => ((d.convRow i).1, t + i * d.size)
  | _ => (some (s + i * d.size), t + (index.getD i 0).toInt * d.size)

/-- The command produces a tail row (R186). -/
def Desc.tail (d : Desc) : Bool := d.mode == 3 && (List.range d.count).any (fun j => (d.convRow j).2)

/-- Lowest and highest start of a list of items. -/
def bounds (l : List Int) : Option (Int × Int) := match l with | [] => none | a :: r => some (r.foldl min a, r.foldl max a)

/-- The starts of source and destination items among which the extreme ones lie. -/
def Desc.corners (d : Desc) (index : List W32) : List (Option Int × Int) :=
  match d.mode with
  | 0 => [d.item index 0]
  | 1 => [d.item index 0, d.item index (d.count - 1)]
  | 2 =>
    let (n1, n2, n3) := (d.f 0x22 2, d.f 0x24 2, d.f 0x26 2)
    [0, n1 - 1].flatMap (fun a => [0, n2 - 1].flatMap (fun b => [0, n3 - 1].map (fun c => d.item index (a + n1 * (b + n2 * c)))))
  | _ => (List.range d.count).map (d.item index)

/-- The limits of R185 and the reserved fields: the first row of R188. -/
def Desc.malformed (d : Desc) : Bool :=
  let zero (off n : Nat) : Bool := d.f off n == 0
  let some_ (l : List (Nat × Nat)) : Bool := l.all (fun e => d.f e.1 e.2 != 0)
  let pars : Bool := match d.mode with
    | 0 => some_ [(0x20, 4)] && zero 0x24 20
    | 1 => some_ [(0x20, 4), (0x24, 4)]
    | 2 => some_ [(0x20, 2), (0x22, 2), (0x24, 2), (0x26, 2)] && zero 0x34 4
    | 3 => some_ [(0x20, 2), (0x22, 2), (0x24, 2), (0x26, 2), (0x28, 2), (0x2A, 2), (0x2C, 1), (0x2D, 1), (0x34, 2)]
    | 4 => some_ [(0x20, 4), (0x24, 4)] && zero 0x2C 12
    | _ => false
  !pars || d.f 1 2 / 256 != 0 || (if d.mode = 2 then decide (4 < d.f 3 1) else d.f 3 1 != 0) || d.mcast / 16 != 0 || d.f 6 2 != 0 ||
  d.bar % 32 != 0 || d.ackbar % 32 != 0 || (!d.flag 6 && d.ackbar != 0)

/-! ## Receivers -/

/-- The teams that the ranks of MCAST name, with each rank; a rank without a team gives none. No rank named means the issuing team alone
(R183). -/
def State.receivers (s : State) (team : Nat) (d : Desc) : List (Nat × Option Nat) :=
  if d.mcast % 16 = 0 then [(match s.team team with | some t => t.rank | none => 0, some team)]
  else ((List.range 4).filter (fun r => d.mcast.testBit r)).map (fun r => (r, s.rankTeam team r))

/-- T: the bytes of all receivers. -/
def Cmd.bytes (c : Cmd) (own : Nat) : W32 := BitVec.ofNat 32 (own * max 1 c.recv.length)

/-- The global BAR of a command lies where the engine may update it (R155, R188): in a home, on a page that it reaches for an atomic. -/
def goodBar (pa : Nat) (leaf : W64) : Bool := match targetOf pa leaf with | .leased .. => true | .home1 _ => true | _ => false

/-- Where a receiver's BAR lies, if it is usable (R188). -/
def State.barLoc (s : State) (c : Cmd) (team : Nat) : Option ObjLoc :=
  let d : Desc := c.desc
  if d.bar % 32 ≠ 0 then none
  else if d.barSp then (if d.bar + 32 ≤ s.scratchSize team then some (.sp team d.bar) else none)
  else match s.engWho c.team with
    | none => none
    | some w =>
      let va := BitVec.ofNat 64 d.bar
      match s.hwLeaf (dieOf c.core) w.asid w.part va 32 .atomic false with
      | .ok pa leaf _ => if goodBar pa leaf then some (.glob pa va leaf) else none
      | _ => none

/-- Where a receiver's BAR lies for a piece that lands: where the command's last piece found it (R190, R191). -/
def Cmd.barFound (c : Cmd) (team : Nat) : Option ObjLoc :=
  let d : Desc := c.desc
  if d.barSp then some (.sp team d.bar) else c.barAt.map (fun x => .glob x.1 (BitVec.ofNat 64 d.bar) x.2)

/-- The engine's update of a barrier object with the command's T (R191, R193). The mark of an error is no arrival (R238, R243). -/
def State.updateObj (s : State) (c : Cmd) (part : Nat) (o : ObjLoc) (who : W32) (arrives : Bool) (f : Obj → Bool × Obj) : State :=
  let old := s.objGet o
  let (flip, new) := f old
  let (t, s) := s.objPut part o c.t new
  let s := match o with
    | .sp .. => s.raiseObj o c.t
    | .glob .. => s.raiseEclk c.core t
  s.fireWatch old o.addr who arrives flip none

def Cmd.last (c : Cmd) : BitVec 128 := lastWords (engineCode false c.core) c.csn c.edge

/-- Where the ACKBAR of a command lies, if the command acknowledges and it is usable (R188). -/
def State.ackLoc (s : State) (c : Cmd) : Option ObjLoc :=
  let d : Desc := c.desc
  if !d.flag 6 || d.ackbar % 32 != 0 || decide (s.scratchSize c.team < d.ackbar + 32) then none else some (.sp c.team d.ackbar)

/-- Barriers that must first become reachable: a line is held elsewhere, or a region line is not filled. -/
def State.objsHeld (s : State) (c : Cmd) (os : List ObjLoc) : Option State :=
  match s.engWho c.team with
  | none => none
  | some w => os.findSome? (fun o => match o with
    | .glob .. => s.objHeld c.core w.part true o
    | .sp t off => (match s.engTouch w (.cmd c.id) t off 32 with | .wait s => some s | _ => none))

/-- The same for the receivers' BARs and the ACKBAR, where the marks of an error find them; the way to a global one may have to be recalled first. -/
def State.barHeld (s : State) (c : Cmd) : Option State :=
  let d : Desc := c.desc
  let wait : Option State := match s.engWho c.team with
    | none => none
    | some w =>
      if d.barSp then none
      else match s.hwLeaf (dieOf c.core) w.asid w.part (BitVec.ofNat 64 d.bar) 32 .atomic false with
        | .wait pa => some (s.fillHost w pa)
        | _ => none
  match wait with
  | some s => some s
  | none => s.objsHeld c (c.recv.filterMap (fun t => s.barLoc c t) ++ (s.ackLoc c).toList)

def State.updObjs (s : State) (c : Cmd) (os : List ObjLoc) (arrives : Bool) (f : Obj → Bool × Obj) : State :=
  let part := match s.engWho c.team with | some w => w.part | none => 0
  os.foldl (fun s o => s.updateObj c part o (engineCode false c.core) arrives f) s

def State.updCmd (s : State) (id : Nat) (f : Cmd → Cmd) : State :=
  { s with cmds := s.cmds.map (fun c => if c.id = id then f c else c) }

/-! ## Completion (R192, R193, R195) -/

/-- R193: a command that fails marks every receiver's BAR, and its ACKBAR. -/
def State.cmdMarks (s : State) (c : Cmd) : State :=
  let s := match s.engWho c.team with
    | some w => if Desc.barSp c.desc then s else s.hwTouch (dieOf c.core) w.asid w.part (BitVec.ofNat 64 (Desc.bar c.desc)) 32 .atomic false
    | none => s
  let s := s.updObjs c (c.recv.filterMap (fun t => s.barLoc c t)) false (fun o => o.fail (c.total - c.moved))
  s.updObjs c (s.ackLoc c).toList false (fun o => o.fail 0)

/-- R192, R193: the warp that started a command that ends counts one command less. -/
def State.cmdCounted (s : State) (c : Cmd) : State :=
  match c.warp with
  | some w => s.updCtx (.warp w) (fun x => { x with cp := x.cp - 1, cmdClock := serialMax x.cmdClock c.t, lastCmd := c.last, mxLast := false })
  | none => s

/-- R192, R193: the record that a command that ends leaves in the event queue. -/
def State.cmdEvent (s : State) (c : Cmd) (cause : Option Cause) : State :=
  let d : Desc := c.desc
  match cause with
  | some k => s.pushEvent c.team (evRec 0 1 k (if c.tail then 1 else 0) c.csn (c.bytes c.moved) c.cpc (BitVec.ofNat 64 d.bar) c.t c.edge)
  | none =>
    if d.flag 5 || c.tail then
      s.pushEvent c.team (evRec 0 0 .none (if c.tail then 1 else 0) c.csn (c.bytes c.total) c.cpc (BitVec.ofNat 64 d.bar) c.t c.edge)
    else s

/-- A command ends: locks, counter, record. A sender with acknowledgements outstanding keeps its source range. -/
def State.cmdEnd (s : State) (c : Cmd) (cause : Option Cause) : State :=
  let d : Desc := c.desc
  let acks := if d.flag 6 then (s.receivers c.team d).filterMap (fun r => if r.2.isSome then some r.1 else none) else []
  let s := if cause.isSome then s.cmdMarks c else s
  let s := s.unlock c.id true
  let s := ((if acks.isEmpty then s.unlock c.id false else s).cmdCounted c).cmdEvent c cause
  if acks.isEmpty then { s with cmds := s.cmds.filter (fun x => x.id != c.id) }
  else s.updCmd c.id (fun x => { x with complete := true, acks := acks })

/-- MULTICAST_ACK (R195): the acknowledgement of a rank arrives on ACKBAR. R365 raises BARRIER_OVERRUN where an arrival would pass EXPECT, but no
agent issues this one: the model drops it without a cause, and its rank counts as having acknowledged (DESIGN CHOICE, log entry 46). -/
def State.castAck (s : State) (id rank : Nat) : State :=
  match s.cmds.find? (fun c => c.id == id) with
  | none => s
  | some c =>
    if !c.acks.contains rank then s
    else
      match s.objsHeld c (s.ackLoc c).toList with
      | some s => s
      | none =>
      let core := match s.rankTeam c.team rank with | some t => t / 8 | none => c.core
      let who := engineCode false core
      let s := match s.ackLoc c with
        | none => s
        | some o => match (s.objGet o).arrive 1 0 (lastWords who c.csn c.edge) with
          | some _ => s.updateObj c 0 o who true (fun b => ((b.arrive 1 0 (lastWords who c.csn c.edge)).getD (false, b)))
          | none => s
      let left := c.acks.filter (fun r => r != rank)
      if left.isEmpty then { s.unlock id false with cmds := s.cmds.filter (fun x => x.id != id) }
      else s.updCmd id (fun x => { x with acks := left })

/-! ## Issue (R188, R189) -/

/-- The entry of a page's FMT field among those that a command captured at its issue (R217). -/
def Team.entryOf (t : Team) (fmt : Tab FmtWord) (k : Nat) : Option FmtEntry := fmtEntry { t with fmt := fmt } k

/-- The element format that governs converted source or destination bytes at an address, looked up by a walk. -/
def State.fmtAt (s : State) (w : Who) (va : W64) : Option FmtEntry :=
  match s.walk (dieOf w.core) w.asid va, s.team w.team with
  | .leaf k, some t => fmtEntry t (pteFmt k.leaf)
  | _, _ => none

/-- The way to the page whose format sizes a command's range must first be recalled from a host. -/
def State.fmtWait (s : State) (w : Who) (d : Desc) (va : W64) : Option Nat :=
  if d.decodes || d.encodes then (match s.walk (dieOf w.core) w.asid va with | .wait pa => some pa | _ => none) else none

/-- The address whose page gives the format by which a command's range is sized. -/
def Desc.fmtVa (d : Desc) (index : List W32) : W64 :=
  if d.decodes then BitVec.ofInt 64 (((d.corners index).filterMap (·.1)).headD 0) else BitVec.ofNat 64 d.dst

/-- Source bytes of n destination bytes. -/
def srcLen (d : Desc) (e : Option FmtEntry) (n : Nat) : Nat :=
  match e with
  | none => n
  | some e =>
    let wb := Ty.bits e.wide / 8
    let per := if e.t4 then 2 else 1
    if d.decodes then (n + wb * per - 1) / (wb * per) else if d.encodes then n * per * wb else n

/-- The ranges that a command reads and writes: bounding ranges from lowest to highest byte (R142). -/
def State.cmdRanges (s : State) (w : Who) (d : Desc) (index : List W32) : Option (Int × Nat) × Option (Int × Nat) :=
  let cs := d.corners index
  let srcs := cs.filterMap (·.1)
  let e := if d.decodes || d.encodes then s.fmtAt w (d.fmtVa index) else none
  ((bounds srcs).map (fun b => (b.1, (b.2 - b.1).toNat + srcLen d e d.size)), (bounds (cs.map (·.2))).map (fun b => (b.1, (b.2 - b.1).toNat + d.size)))

/-- A global range is checked under R156. -/
def intRange (lo : Int) (n : Nat) : Option Cause := if lo < 0 ∨ 2 ^ 64 ≤ lo then some .addressWrap else rangeFault (BitVec.ofInt 64 lo) n

/-- R188: the first failing check. -/
def State.descCause (s : State) (w : Who) (d : Desc) (index : List W32) : Option Cause :=
  let recv := s.receivers w.team d
  let g := s.grid w.grid
  let cluster := match g with | some g => g.rec_.cluster | none => false
  let slots : W64 := match g with | some g => g.rec_.slots | none => 0
  let total := d.bytes * recv.length
  let teams := recv.filterMap (·.2)
  let past (t : Nat) (lo : Int) (n : Nat) : Bool := decide (lo < 0) || decide ((s.scratchSize t : Int) < lo + n)
  let (src, dst) := s.cmdRanges w d index
  let spBad := (match src with | some (lo, n) => d.srcSp && past w.team lo n | none => false) ||
    (match dst with | some (lo, n) => d.dstSp && teams.any (fun t => past t lo n) | none => false) ||
    (d.barSp && teams.any (fun t => past t d.bar 32)) || (d.flag 6 && past w.team d.ackbar 32) ||
    (d.mode == 4 && past w.team (d.f 0x28 4) (4 * d.count))
  if d.malformed || total = 0 || decide (2 ^ 31 < total) then some .illegalOperand
  else if d.mcast != 0 && (!cluster || recv.any (fun r => r.2.isNone) || d.mode == 4 || !d.dstSp || !d.barSp) then some .illegalOperand
  else if d.flag 6 && (d.mcast == 0 || d.ackbar == 0) then some .illegalOperand
  else if (d.decodes && d.srcSp) || (d.encodes && d.dstSp) || (d.decodes && d.encodes) then some .illegalOperand
  else if d.flag 7 && slots == 0 then some .slotConflict
  else if spBad then some .scratchBounds
  else
    let global (use : Bool) (r : Option (Int × Nat)) : Option Cause := match r with | some (lo, n) => if use then intRange lo n else none | none => none
    match global (!d.srcSp) src with
    | some c => some c
    | none => match global (!d.dstSp) dst with
      | some c => some c
      | none => if d.barSp then none else rangeFault (BitVec.ofNat 64 d.bar) 32

/-- The lock entries of a command, by core (R142, R189). -/
def State.cmdLocks (s : State) (w : Who) (d : Desc) (index : List W32) (id : Nat) : List (Nat × Lock) :=
  let (src, dst) := s.cmdRanges w d index
  let mk (team : Nat) (sp : Bool) (r : Int × Nat) (dest : Bool) : Lock :=
    { owner := id, team := if sp then some team else none, asid := w.asid, lo := r.1.toNat, n := r.2, dest := dest }
  let teams := (s.receivers w.team d).filterMap (·.2)
  (match src with | some r => [(w.core, mk w.team d.srcSp r false)] | none => []) ++
  (match dst with | some r => if d.dstSp then teams.map (fun t => (t / 8, mk t true r true)) else [(w.core, mk w.team false r true)] | none => []) ++
  (if d.mode = 4 then [(w.core, mk w.team true ((d.f 0x28 4 : Nat), 4 * d.count) false)] else [])

/-- What a command takes at its issue (R141, R103). -/
structure Origin where
  c    : W32
  pc   : W64 := 0
  cpc  : W64
  csn  : W32
  edge : W64
  warp : Option Nat

/-- Commands of a core that have not completed. -/
def State.inFlight (s : State) (core : Nat) : Nat := (s.cmds.filter (fun c => c.core == core && !c.complete)).length

/-- The index list of a scatter whose list lies in the allocation: where, and how many (R185). -/
def State.indexPlace (s : State) (team : Nat) (d : Desc) : Option (Nat × Nat) :=
  if d.mode = 4 ∧ d.f 0x28 4 + 4 * d.count ≤ s.scratchSize team then some (d.f 0x28 4, d.count) else none

/-- The list as it stands. -/
def State.indexList (s : State) (team : Nat) (d : Desc) : List W32 :=
  match s.indexPlace team d with
  | some (off, n) => (List.range n).map (fun i => BitVec.ofNat 32 (s.readScratch team (off + 4 * i) 4))
  | none => []

/-- A read of the format table is awaited, or a write of FMTBASE by an agent of the team is under way (R217, R398). -/
def State.tableDue (s : State) (team : Nat) : Bool :=
  match s.team team with
  | none => false
  | some t =>
    let writes (c : Ctx) : Bool := c.landings.any (fun l => l.writes.any (fun v => v.dest == .sr 30))
    t.fmtLoad || writes t.ct || t.warps.any (fun k => match s.warp k with | some x => writes x.ctx | none => false)

/-- What a command's issue must wait for besides places and lock entries: its team's format table (R217), region lines of its index list, the
way to the page that sizes its ranges. -/
def State.startWait (s : State) (w : Who) (d : Desc) (id : Nat) (by_ : W32 × W64) : Option State :=
  if d.converts && s.tableDue w.team then some s
  else
    let touch : Option State := match s.indexPlace w.team d with
      | some (off, n) => (match s.engTouch w (.cmd id) w.team off (4 * n) by_ with | .wait s => some s | _ => none)
      | none => none
    match touch with
    | some s => some s
    | none => (s.fmtWait w d (d.fmtVa (s.indexList w.team d))).map (fun pa => s.fillHost w pa)

/-- The lock entries of a command fit in the tables. -/
def State.locksFit (s : State) (locks : List (Nat × Lock)) : Bool :=
  locks.all (fun l => decide ((locks.filter (fun m => m.1 == l.1)).length ≤ s.lockRoom l.1))

/-- A command takes its lock entries (R142). -/
def State.takeLocks (s : State) (locks : List (Nat × Lock)) : State := locks.foldl (fun s l => s.lock l.1 [l.2]) s

/-- A multicast of a team that a pre-emption request names is held unissued (R78). -/
def State.castHeld (s : State) (team : Nat) (d : Desc) : Bool :=
  d.mcast != 0 && (match s.team team with | some t => t.asked | none => false)

/-- Start a command; none of it if it must wait for a place, for lock entries or for what it reads. A failed check makes a command that only
completes with its error; it lowers each BAR by the bytes of its own receiver: R188 says T there, which R185 takes over all receivers, but R191 and
R193 count at a BAR what its receiver gets, so that its phase can complete (DEDUCED, log entry 24). 'held' names a schedule descriptor that has its lock entries already; a scatter takes them anew, for the list as it
stands. -/
def State.startCmd (s : State) (w : Who) (d : Desc) (o : Origin) (held : Option Nat) : Except State State :=
  if s.castHeld w.team d then
    .ok (s.updTeam w.team (fun t => { t with
      heldCmd := t.heldCmd ++ [{ desc := d, c := o.c, pc := o.pc, cpc := o.cpc, csn := o.csn, edge := o.edge, warp := o.warp }] }))
  else if 8 ≤ s.inFlight w.core then .error s
  else
    let (id, s) := match held with | some id => (id, s) | none => s.newId
    match s.startWait w d id (o.c, o.edge) with
    | some s => .error s
    | none =>
      let index := s.indexList w.team d
      let cmd : Cmd := { id := id, core := w.core, team := w.team, warp := o.warp, desc := d, c := o.c, t := o.c, pc := o.pc, cpc := o.cpc,
                         csn := o.csn, edge := o.edge, index := index, recv := (s.receivers w.team d).filterMap (·.2)
                         fmt := match s.team w.team with | some t => t.fmt | none => []
                         since := s.time / 50 }
      match s.descCause w d index with
      | some c =>
        let t := d.bytes * (s.receivers w.team d).length
        -- each BAR is lowered by T, which is taken over all receivers (R185, R188)
        let total := if t = 0 ∨ 2 ^ 31 < t then 0 else t
        .ok { s with cmds := s.cmds ++ [{ cmd with failed := some c, total := total }] }
      | none =>
        let add (s : State) : State := { s with cmds := s.cmds ++ [{ cmd with total := d.bytes, tail := d.tail }] }
        if held.isSome && d.mode != 4 then .ok (add s)
        else
          let free := s.unlock id false
          let locks := s.cmdLocks w d index id
          if free.locksFit locks then .ok (add (free.takeLocks locks)) else .error s

/-! ## Pieces (R187, R190, R194) -/

/-- What issuing the next piece comes to. -/
inductive EngStep where
  | go (s : State)
  | fault (c : Cause) (va : W64) (serve : Bool) (access : Access)
  | pri (va : W64) (pa : Nat)

/-- Add a piece to a command and begin its reads; the writes follow once they are all there. 'unit' and 'off' say where in its item the
next piece goes on (R187), 'sp' where its source lies in the scratchpad: offset, first source byte, count. -/
def State.beginPiece (s : State) (w : Who) (c : Cmd) (p : Piece) (reads : List Seg) (unit off : Nat)
    (sp : Option (Nat × Nat × Nat) := none) : State :=
  let s := s.updCmd c.id (fun x => { x with
    inflight := x.inflight ++ [p], next := p.at_ + p.n, noPage := none, unit := unit, off := off, barAt := c.barAt,
    uconv := p.conv, uscales := p.scaleVas })
  let s := match sp with | some (off, pos, n) => s.spReads (.cmd c.id) p.at_ c.team off pos n | none => s
  (s.engReads w (.cmd c.id) p.at_ c.c c.edge reads).sendPiece (.cmd c.id) p.at_

/-- The piece before byte k has not been read yet: what it shares with the next one is not there. -/
def Cmd.beforeUnread (c : Cmd) (k : Nat) : Bool := c.inflight.any (fun p => p.at_ + p.n == k && !p.sent)

/-- R131, R190: how many of the n source bytes from an address the piece before byte k has read: the rest of an aligned 16-byte piece. -/
def Cmd.carried (c : Cmd) (k b from_ n : Nat) : Nat :=
  if b = 0 ∨ c.carryAt ≠ k then 0 else ((List.range n).takeWhile (fun i => (Tab.find c.carry (from_ + i)).isSome)).length

/-- Those bytes, by number. -/
def Cmd.carriedRaw (c : Cmd) (from_ n : Nat) : Tab Byte :=
  (List.range n).foldl (fun t i => Tab.set t i (Tab.get 0 c.carry (from_ + i))) []

/-- R219: the scale bytes among 'vas' that an earlier piece of the command used: a block keeps its one value. -/
def Cmd.carriedScales (c : Cmd) (vas : List W64) (raw : Tab Byte) : Tab Byte :=
  vas.zipIdx.foldl (fun t a => match Tab.find c.scarry a.1.toNat with | some v => Tab.set t (256 + a.2) v | none => t) raw

/-- An earlier piece of the command is still reading one of these scale bytes. -/
def Cmd.scalesDue (c : Cmd) (vas : List W64) : Bool := c.inflight.any (fun p => !p.sent && vas.any (fun a => p.scaleVas.contains a.toNat))

/-- The scale bytes that a piece has to read, with their places in it. -/
def scaleReads (vas : List W64) (raw : Tab Byte) : List (W64 × Nat × Nat) :=
  (vas.zipIdx.filter (fun a => (Tab.find raw (256 + a.2)).isNone)).map (fun a => (a.1, 1, 256 + a.2))

/-- Source bytes that a piece of n bytes reads on: up to the end of the aligned 16-byte piece in which it ends, as long as its item goes on
(R131). -/
def readOn (from_ n left : Nat) : Nat := if (from_ + n) % 16 = 0 then 0 else min (16 - (from_ + n) % 16) left

/-- Several accesses of an engine, the first that fails first. -/
def State.engReaches (s : State) (w : Who) (r : EngRef) (as : List (W64 × Nat × Nat)) (access : Access) : EngReach :=
  as.foldl (fun acc a =>
    match acc with
    | .ok segs => (match s.engReach w r a.1 a.2.1 access with
      | .ok more => .ok (segs ++ more.map (fun sg => { sg with pos := a.2.2 + sg.pos }))
      | x => x)
    | x => x) (.ok [])

/-- The format entry of a 16-byte piece in a page, among those captured at issue, with its scale addresses (R187, R217, R218). -/
def State.pieceFmt (s : State) (w : Who) (c : Cmd) (va : W64) (segs : List Seg) : Option (FmtEntry × List W64) :=
  match segs with
  | [] => none
  | sg :: _ =>
    match s.team w.team with
    | none => none
    | some t => (t.entryOf c.fmt (pteFmt sg.leaf)).bind (fun e => (e.scales va (s.pageOf w.core w.asid va)).map (fun l => (e, l)))

/-- Where a piece goes: its scratchpad places, or its global segments. -/
def State.pieceDst (s : State) (w : Who) (c : Cmd) (dst : Int) (n : Nat) : Except EngReach (List Seg × List (Nat × Nat)) :=
  let d : Desc := c.desc
  if d.dstSp then
    match c.recv.findSome? (fun t => match s.engTouch w (.cmd c.id) t dst.toNat n with | .ok _ => none | x => some x) with
    | some x => .error x
    | none => .ok ([], c.recv.map (fun t => (t, dst.toNat)))
  else match s.engReach w (.cmd c.id) (BitVec.ofInt 64 dst) n .write with
    | .ok segs => .ok (segs, [])
    | x => .error x

/-- An access that did not resolve, as a step. -/
def EngReach.asStep (r : EngReach) (s : State) (access : Access) : EngStep :=
  match r with
  | .ok _ => .go s
  | .wait s => .go s
  | .fault c va serve => .fault c va serve access

/-- R63: ATS holds no translation for a host page that the piece needs: the command suspends on a PRI request. -/
def State.orPri (s : State) (segs : List Seg) (go : State → EngStep) : EngStep :=
  match s.atsMiss segs with
  | (some sg, _) => .pri sg.va sg.pa
  | (none, s) => go s

/-- R187, R219: bytes off on of a decoded 16-byte source piece, at most n, to dst. -/
def State.decodeInto (s : State) (w : Who) (c : Cmd) (k unit off : Nat) (dst : Int) (n : Nat) (t4 : Bool) (wide : Ty) (scales : List Nat)
    (raw : Tab Byte) (reads : List Seg) : EngStep :=
  let total := pieceElems t4 * (Ty.bits wide / 8)
  let off := off % total
  let n := min n (total - off)
  match s.pieceDst w c dst n with
  | .error x => x.asStep s .write
  | .ok (out, sp) =>
    let p : Piece := { at_ := k, n := n, conv := .decode t4 wide scales.length off, dst := out, sp := sp, raw := raw, from_ := unit, scaleVas := scales }
    s.orPri (reads ++ out) (fun s => .go (if off + n = total then s.beginPiece w c p reads (unit + 16) 0 else s.beginPiece w c p reads unit (off + n)))

/-- R185, R189: the next piece of a command that decodes (bytes b on of an item from src0 to dst, at byte k of the command), at most n
bytes of it. Each aligned 16-byte source piece is converted by the entry of its own page, and is read once. -/
def State.decodePiece (s : State) (w : Who) (c : Cmd) (src0 : Int) (b k : Nat) (dst : Int) (n : Nat) : EngStep :=
  let ref : EngRef := .cmd c.id
  let start := (BitVec.ofInt 64 src0).toNat
  let unit := if b = 0 then start / 16 * 16 else c.unit
  let here := c.carried k b unit 16
  if b != 0 && c.beforeUnread k then .go s
  else match (if c.off ≠ 0 ∧ here = 16 then c.uconv else .raw) with
  | .decode t4 wide _ _ =>
    let vas := c.uscales.map (BitVec.ofNat 64)
    s.decodeInto w c k unit c.off dst n t4 wide c.uscales (c.carriedScales vas (c.carriedRaw unit 16)) []
  | _ =>
    let va := BitVec.ofNat 64 unit
    match s.engReach w ref va 16 .read with
    | .ok segs =>
      (match s.pieceFmt w c va segs with
        | none => .fault .formatEntry va false .read
        | some (e, scales) =>
          let raw := c.carriedScales scales []
          if c.scalesDue scales then .go s
          else match s.engReaches w ref (scaleReads scales raw) .read with
          | .ok more =>
            let off := if b = 0 then start % 16 * (pieceElems e.t4 / 16) * (Ty.bits e.wide / 8) else c.off
            s.decodeInto w c k unit off dst n e.t4 e.wide (scales.map (·.toNat)) raw (segs ++ more)
          | x => x.asStep s .read)
    | x => x.asStep s .read

/-- R185, R189: the next piece of a command that moves n bytes, or the 'len' source bytes that they are encoded from: what the piece before
has read is not read again, and the last aligned 16-byte source piece is read to its end ('extra'). -/
def State.sourcePiece (s : State) (w : Who) (c : Cmd) (p : Piece) (b len extra : Nat) (reads out : List Seg) (unit : Nat) : EngStep :=
  let d : Desc := c.desc
  let ref : EngRef := .cmd c.id
  let here := c.carried p.at_ b p.from_ (min len ((16 - p.from_ % 16) % 16))
  let p := { p with raw := (c.carriedRaw p.from_ here) ++ p.raw }
  let (from_, more) := (p.from_ + here, len + extra - here)
  if d.srcSp then
    (match s.engTouch w ref c.team from_ more with
      | .ok _ =>
        if s.scratchBad c.team from_ more then .fault .dataUncorrectable (BitVec.ofNat 64 from_) false .read
        else s.orPri (reads ++ out) (fun s => .go (s.beginPiece w c p reads unit 0 (some (from_, here, more))))
      | x => x.asStep s .read)
  else if more = 0 then s.orPri (reads ++ out) (fun s => .go (s.beginPiece w c p reads unit 0))
  else
    (match s.engReach w ref (BitVec.ofNat 64 from_) more .read with
      | .ok segs =>
        let segs := segs.map (fun sg => { sg with pos := here + sg.pos })
        s.orPri (segs ++ reads ++ out) (fun s => .go (s.beginPiece w c p (segs ++ reads) unit 0))
      | x => x.asStep s .read)

/-- R185, R189: the next piece of a command that encodes. Each aligned 16-byte destination piece is converted by the entry of its own page. -/
def State.encodePiece (s : State) (w : Who) (c : Cmd) (src0 : Int) (b k : Nat) (dst : Int) (n left : Nat) : EngStep :=
  let ref : EngRef := .cmd c.id
  let dva := BitVec.ofInt 64 dst
  let n := min n (16 - dva.toNat % 16)
  if b != 0 && c.beforeUnread k then .go s
  else match s.engReach w ref dva n .write with
  | .ok out =>
    (match s.pieceFmt w c (dva &&& ~~~15) out with
      | none => .fault .formatEntry dva false .write
      | some (e, scales) =>
        let done := if b = 0 then 0 else c.unit
        let per := (if e.t4 then 2 else 1) * (Ty.bits e.wide / 8)
        let from_ := (BitVec.ofInt 64 (src0 + done)).toNat
        let first := dva.toNat % 16 * (if e.t4 then 2 else 1)
        let raw := c.carriedScales scales []
        if c.scalesDue scales then .go s
        else match s.engReaches w ref (scaleReads scales raw) .read with
        | .ok more =>
          let p : Piece := { at_ := k, n := n, conv := .encode e.t4 e.wide scales.length first, dst := out, raw := raw, from_ := from_,
                             scaleVas := scales.map (·.toNat) }
          s.sourcePiece w c p b (n * per) (readOn from_ (n * per) ((left - n) * per)) more out (done + n * per)
        | x => x.asStep s .read)
  | x => x.asStep s .write

/-- R189: the next piece of a command that moves bytes as they are. -/
def State.movePiece (s : State) (w : Who) (c : Cmd) (src0 : Int) (b k : Nat) (dst : Int) (n left : Nat) : EngStep :=
  let from_ := (BitVec.ofInt 64 (src0 + b)).toNat
  if b != 0 && from_ % 16 != 0 && c.beforeUnread k then .go s
  else match s.pieceDst w c dst n with
  | .error x => x.asStep s .write
  | .ok (out, sp) =>
    s.sourcePiece w c { at_ := k, n := n, dst := out, sp := sp, from_ := from_ } b n (readOn from_ n (left - n)) [] out 0

/-- R190, R191: the barrier that a piece counts down on is reached with it: the receivers' scratchpad objects, or the global one, which must
lie in a home. -/
def State.barReach (s : State) (w : Who) (c : Cmd) : Except EngReach (Option (Nat × W64)) :=
  let d : Desc := c.desc
  if d.barSp then
    match c.recv.findSome? (fun t => match s.engTouch w (.cmd c.id) t d.bar 32 with | .ok _ => none | x => some x) with
    | some x => .error x
    | none => .ok none
  else
    let va := BitVec.ofNat 64 d.bar
    match s.engReach w (.cmd c.id) va 32 .atomic with
    | .ok (sg :: _) => if goodBar sg.pa sg.leaf then .ok (some (sg.pa, sg.leaf)) else .error (.fault .permission va false)
    | .ok [] => .ok none
    | x => .error x

/-- Issue the next piece of a command: translate it whole, read it, and write it when it is there. -/
def State.cmdStep (s : State) (c : Cmd) : EngStep :=
  let d : Desc := c.desc
  match s.engWho c.team with
  | none => .go s
  | some w =>
    match s.barReach w c with
    | .error x => x.asStep s .atomic
    | .ok bar =>
      let c := { c with barAt := bar }
      let k := c.next
      let it := d.item c.index (k / d.size)
      let b := k % d.size
      let left := d.size - b
      let dst := it.2 + b
      let n := min (64 - (dst % 64).toNat) left
      match it.1 with
      | none =>
        (match s.pieceDst w c dst n with
          | .error x => x.asStep s .write
          | .ok (segs, sp) => s.orPri segs (fun s => .go (s.beginPiece w c { at_ := k, n := n, dst := segs, sp := sp } [] 0 0)))
      | some src0 =>
        if d.decodes then s.decodePiece w c src0 b k dst n
        else if d.encodes then s.encodePiece w c src0 b k dst n left
        else s.movePiece w c src0 b k dst n left

/-- A piece lands: it counts down BAR at every receiver (R191); the last one completes the command (R192). -/
def State.cmdLand (s : State) (c : Cmd) (p : Piece) : State :=
  let bars := c.recv.filterMap c.barFound
  match s.objsHeld c bars with
  | some s => s
  | none =>
    let s := s.updObjs c bars true (fun o => o.bytesDone p.n c.last)
    let s := s.updCmd c.id (fun x => { x with moved := x.moved + p.n, inflight := x.inflight.filter (fun q => q.at_ != p.at_) })
    match s.cmds.find? (fun x => x.id == c.id) with
    | some c' => if c'.moved = c'.total && c'.inflight.isEmpty && c'.failed.isNone then s.cmdEnd c' none else s
    | none => s

/-- TRANSFER_PIECE_LAND: a piece that is done lands; otherwise the command issues its next piece, or ends with its error. -/
def State.pieceTurn (s : State) (id : Nat) : State :=
  match s.cmds.find? (fun c => c.id == id) with
  | none => s
  | some c =>
    if c.complete then s
    else match c.inflight.find? (fun p => p.sent && !p.bad && p.writes == 0) with
      | some p => s.cmdLand c p
      | none =>
        match c.failed with
        | some k => if c.inflight.all Piece.landed then
              (match s.barHeld c with | some s => s | none => s.cmdEnd c (some k)) else s
        | none =>
          if c.suspended.isSome || decide (c.total ≤ c.next) || (c.fmtNew && s.tableDue c.team) then s
          else match s.cmdStep c with | .go s => s | _ => s

/-- The same, once the pieces that wait for the way to their destinations have tried again. -/
def State.pieceLand (s : State) (id : Nat) : State :=
  match s.cmds.find? (fun c => c.id == id) with
  | some c => (s.sendPieces (.cmd id) c.inflight).pieceTurn id
  | none => s

/-- R194: a fault of a piece suspends the command where it can be served under PARK, else it ends with error. R194 names only bit 1 of
the record's FLAGS: the model sets bit 0, of tail rows, from the descriptor, whether its tail row has come or not (DESIGN CHOICE, log entry
46). -/
def State.cmdFault (s : State) (c : Cmd) (k : Cause) (va : W64) (serve : Bool) (access : Access) : State :=
  match s.engWho c.team with
  | none => s
  | some w =>
    if serve && s.parkHeld w.asid then s.recallPark w.asid
    else if serve && s.parks w.asid then
      let (fid, s) := s.newId
      let req : FaultReq := { id := fid, asid := w.asid, va := va, access := access, who := .engine (.cmd c.id) }
      let s := ({ s with faults := s.faults ++ [req] } : State).emit (.fault fid w.asid va)
      (s.updCmd c.id (fun x => { x with suspended := some fid, noPage := none })).pushEvent c.team
        (evRec 0 2 k (2 + if c.tail then 1 else 0) c.csn (c.bytes c.moved) c.cpc (BitVec.ofNat 64 (Desc.bar c.desc)) c.t c.edge)
    else (s.notePath w k va).engFail (.cmd c.id) k va

/-- TRANSFER_PIECE_FAULT: the next piece meets a fault; earlier pieces have landed first, so that BYTES is the prefix done. -/
def State.pieceFault (s : State) (id : Nat) : State :=
  match s.cmds.find? (fun c => c.id == id) with
  | none => s
  | some c =>
    if c.complete || c.suspended.isSome || c.failed.isSome || decide (c.total ≤ c.next) || !c.inflight.isEmpty ||
        (c.fmtNew && s.tableDue c.team) then s
    else match s.cmdStep c with
      | .go _ => s
      | .fault k va serve access => s.cmdFault c k va serve access
      | .pri _ pa =>
        match s.engWho c.team with
        | none => s
        | some w =>
          let (fid, s) := s.newId
          let req : PriReq := { id := fid, pa := pa, asid := w.asid, who := .engine (.cmd c.id), ticket := fid }
          let s := ({ s with pris := s.pris ++ [req], fresh := s.fresh + 1 } : State).emit (.ats (pa / 2 ^ 48 % 4) pa w.asid)
          (s.updCmd c.id (fun x => { x with suspended := some fid, noPage := none })).pushEvent c.team
            (evRec 0 2 .translation (2 + if c.tail then 1 else 0) c.csn (c.bytes c.moved) c.cpc (BitVec.ofNat 64 (Desc.bar c.desc)) c.t c.edge)

/-! ## CPY, CPYS (R386, R387) -/

/-- What a command started by an issue takes. Its requests name the PC of a CPY, and none for a UCPY (R241). -/
def State.originOf (s : State) (iss : Iss) (warp : Option Nat) : Origin :=
  match s.ctx iss.w.g, s.team iss.w.team with
  | some c, some t => { c := c.wclk, pc := if iss.uni then 0 else iss.pc, cpc := t.cpc, csn := t.csn, edge := c.edge, warp := warp }
  | _, _ => { c := 0, cpc := 0, csn := 0, edge := 0, warp := warp }

/-- R103: the CSN of a team rises. -/
def State.nextCsn (s : State) (iss : Iss) : State :=
  match iss.w.g with | .ct t => s.updTeam t (fun x => { x with csn := x.csn + 1 }) | .warp _ => s

/-- Start the command of the descriptor at a scratchpad offset, for the team's control thread; CPY keeps the warp whose counter it raises. -/
def State.copyStart (s : State) (iss : Iss) (counts : Bool) (off : Nat) : Except State State :=
  let s1 := s.nextCsn iss
  let warp := match iss.w.g with | .warp w => if counts then some w else none | .ct _ => none
  let d : Desc := BitVec.ofNat 512 (s1.readScratch iss.w.team off 64)
  s1.startCmd { iss.w with g := .ct iss.w.team, handler := false } d (s1.originOf iss warp) none

/-- CPY and UCPY: start the command of the descriptor at a scratchpad offset. -/
def State.copyOp (s : State) (i : Instr) (x : Args) (counts : Bool) : Host.Outcome State Fault Refusal :=
  s.issue i x (fun iss s =>
    if iss.act = 0 then { st := s }
    else
      let off := iss.src32 s (lowest iss.act) x.a
      let lanes := if iss.uni then iss.lanes else iss.act
      if off % 64 ≠ 0 ∨ s.scratchSize iss.w.team < off + 64 then .all s lanes .scratchBounds (BitVec.ofNat 64 off)
      else if s.engineHeld iss.w.g then .stall s
      else
        let at_ : Iss := { iss with uni := true, lanes := lanes }
        let res := [(lowest lanes, s.scratchRes iss.w iss.w.team off 64 .read)]
        match s.splitAccess at_ .read res with
        | .error s => .stall s
        | .ok (s, _, _) =>
          let fills := match res with | [(_, .sp _ _ l)] => l | _ => []
          if !fills.isEmpty then .stall (s.touchRegions iss.w iss.w.team fills)
          else
            let p := s.planLanes at_ .read true res
            if p.ok.isEmpty then { st := p.st, causes := p.causes, stay := p.stay }
            else if s.scratchBad iss.w.team off 64 then .all s lanes .dataUncorrectable (BitVec.ofNat 64 off)
            else
              match s.copyStart iss counts off with
              | .error e => .stall { e with teams := Tab.upd e.teams iss.w.team (fun t => { t with csn := match s.team iss.w.team with | some y => y.csn | none => t.csn }) }
              | .ok s => { st := if counts then s.updCtx iss.w.g (fun c => { c with cp := c.cp + 1 }) else s })

def execCpy (x : Args) (s : State) : Host.Outcome State Fault Refusal := s.copyOp (.cpy x) x true
def execUcpy (x : Args) (s : State) : Host.Outcome State Fault Refusal := s.copyOp (.ucpy x) x false

/-- R142, R197: descriptor k of a team's schedule is released if its stage is reached: it takes its number, and its lock entries if it is well
formed and they fit; else it takes them at its issue. -/
def State.releaseDesc (s : State) (w : Who) (k : Nat) (o : Origin) : State :=
  match s.team w.team with
  | none => s
  | some t =>
    match t.sched[k]? with
    | none => s
    | some d =>
      if d.released.isSome || decide (t.stage < Desc.f d.desc 4 1) then s
      else
        let (id, s) := s.newId
        let index := s.indexList w.team d.desc
        let locks := s.cmdLocks w d.desc index id
        let takes := (s.descCause w d.desc index).isNone && (s.startWait w d.desc id (o.c, o.edge)).isNone && s.locksFit locks
        let s := if takes then s.takeLocks locks else s
        s.updTeam w.team (fun t => { t with sched := t.sched.modify k (fun d => { d with
          released := some (o.c, o.cpc, o.csn, o.edge), id := id, locked := takes, at_ := s.time / 50 }) })

/-- R197: the descriptors of a team whose stage is reached are released. -/
def State.releaseStage (s : State) (team : Nat) (o : Origin) : State :=
  match s.team team, s.engWho team with
  | some t, some w => (List.range t.sched.length).foldl (fun s k => s.releaseDesc w k o) s
  | _, _ => s

/-- What an advance leaves of its team: STAGE never falls; a descriptor that an advance of the same cycle released and that the control
thread's reaches as well takes the control thread's clock (R406). -/
def Team.advance (t : Team) (new now : Nat) (ct : Bool) (o : Origin) : Team :=
  { t with
    stage := max t.stage new
    stageWas :=
      let (was, by_) := if t.stageWas.1 = now then t.stageWas.2 else (t.stage, t.stage)
      (now, was, if ct then by_ else max by_ new)
    sched := t.sched.map (fun d =>
      let k := Desc.f d.desc 4 1
      if ct && d.released.isSome && d.at_ = now && t.stageWas.1 = now && decide (t.stageWas.2.1 < k ∧ k ≤ new)
      then { d with released := some (o.c, o.cpc, o.csn, o.edge) } else d) }

/-- R197: an advance of STAGE releases the descriptors it reaches. -/
def State.advanceStage (s : State) (team new : Nat) (ct : Bool) (o : Origin) : State :=
  (s.updTeam team (fun t => t.advance new (s.time / 50) ct o)).releaseStage team o

/-- The STAGE from which an agent advances: an advance of the control thread and those of warps in one cycle do not see each other (R406). -/
def State.stageFrom (s : State) (g : Agent) (t : Team) : Nat :=
  if t.stageWas.1 = s.time / 50 then (match g with | .ct _ => t.stageWas.2.1 | .warp _ => t.stageWas.2.2) else t.stage

/-- The STAGE that CPYS and UCPYS ask for (R387). -/
def Iss.stageTo (n : Iss) (s : State) (stage : Nat) : Nat :=
  if modBit n.x.mod 0 then min (stage + 1) 63 else min (n.src32 s (lowest n.act) n.x.a) 63

/-- CPYS and UCPYS. -/
def State.stageOp (s : State) (i : Instr) (x : Args) : Host.Outcome State Fault Refusal :=
  s.issue i x (fun iss s =>
    if iss.act = 0 then { st := s }
    else if s.engineHeld iss.w.g then .stall s
    else
      let s := if iss.uni then s.nextCsn iss else s
      match s.team iss.w.team with
      | none => { st := s }
      | some t =>
        let stage := s.stageFrom iss.w.g t
        let new := iss.stageTo s stage
        { st := if stage < new then s.advanceStage iss.w.team new (iss.w.g == .ct iss.w.team) (s.originOf iss none) else s })

def execCpys (x : Args) (s : State) : Host.Outcome State Fault Refusal := s.stageOp (.cpys x) x
def execUcpys (x : Args) (s : State) : Host.Outcome State Fault Refusal := s.stageOp (.ucpys x) x

/-- SCHEDULE_DESCRIPTOR_ISSUE (R197): the first descriptor not yet issued, once it is released and a place is free; before it, the
multicasts that a pre-emption held back (R78, R82). A multicast of a schedule that a request holds back stays where it is. -/
def State.schedIssue (s : State) (team : Nat) : State :=
  match s.team team, s.engWho team with
  | some t, some w =>
    match (if t.asked then [] else t.heldCmd) with
    | h :: rest =>
      (match s.startCmd w h.desc { c := h.c, pc := h.pc, cpc := h.cpc, csn := h.csn, edge := h.edge, warp := h.warp } none with
        | .error s => s
        | .ok s => s.updTeam team (fun t => { t with heldCmd := rest }))
    | [] =>
    match t.sched with
    | d :: rest =>
      match d.released with
      | some (c, cpc, csn, edge) =>
        if s.castHeld team d.desc then s
        else
          (match s.startCmd w d.desc { c := c, cpc := cpc, csn := csn, edge := edge, warp := none } (if d.locked then some d.id else none) with
            | .error s => s
            | .ok s => s.updTeam team (fun t => { t with sched := rest }))
      | none => s
    | [] => s
  | _, _ => s

end Sys2Proof.Machine
end

