-- ==== Sys2Proof/Machine/Queues.lean ====
section
/-!
DEFINITION. Decision queues (R104, R388, R389), event queues (R105, R390), service calls with their predictor (R201 to R203, R391),
child launches, trigger levels and waits for grids (R67, R392 to R394), UCLOCK (R395); and the layout of a launch record (R51).
-/

namespace Sys2Proof.Machine

/-! ## Decision queue (R388, R389) -/

/-- The oldest entry addressed to warp k of a team that it has not popped. -/
def Team.dqEntry (t : Team) (k : Nat) : Option DqEntry := t.dq.find? (fun e => e.mask.getLsbD k && !e.popped.getLsbD k)

/-- Warp k pops its oldest entry. -/
def Team.dqPop (t : Team) (k : Nat) : Team :=
  let rec go (l : List DqEntry) : List DqEntry :=
    match l with
    | [] => []
    | e :: r => if e.mask.getLsbD k && !e.popped.getLsbD k then { e with popped := e.popped ||| laneBit k } :: r else e :: go r
  ({ t with dq := go t.dq }).retireDq

/-- The warps that a DQPUSH names. -/
def State.dqMask (s : State) (iss : Iss) : Mask :=
  if modBit iss.x.mod 0 then BitVec.allOnes 128
  else match iss.x.b with
    | .s _ => BitVec.ofNat 128 (s.regsVal iss.w.g 0 iss.x.b 4)
    | o => BitVec.ofNat 128 (iss.src32 s 0 o)

def execDqpush (x : Args) (s : State) : Host.Outcome State Fault Refusal :=
  s.issue (.dqpush x) x (fun iss s =>
    if iss.act = 0 then { st := s }
    else
      let full := match s.team iss.w.team with | some t => decide (64 ≤ t.dq.length) | none => false
      if full then .stall s
      else
        let value := iss.src s 0 .n64 x.a
        let mask := s.dqMask iss
        match s.gate iss 1 with
        | (false, s) => .stall s
        | (true, s) =>
          match s.ctx iss.w.g with
          | none => { st := s }
          | some c =>
            { st := s.updTeam iss.w.team (fun t =>
                let e : DqEntry := { value := value, mask := mask &&& firstLanes t.warps.length, clock := c.wclk, edge := c.edge }
                ({ t with dq := t.dq ++ [e] }).retireDq) })

/-- DQPOP (R389): the value lands with the tag; without an entry the lanes block. -/
def execDqpop (x : Args) (s : State) : Host.Outcome State Fault Refusal :=
  s.issue (.dqpop x) x (fun iss s =>
    match iss.w.g with
    | .ct _ => { st := s }
    | .warp w =>
      if iss.act = 0 then { st := s.passTag iss }
      else
        match s.warp w, s.team iss.w.team with
        | some y, some t =>
          match t.dqEntry y.k with
          | some e =>
            let s := (s.updTeam iss.w.team (fun t => t.dqPop y.k)).raiseClk iss.w.g e.clock
            { st := s.later iss ((lanesOf iss.act).flatMap (fun j => regWrites x.d j 2 e.value.toNat)) }
          | none =>
            if t.ctExited then .all s iss.act .queueOverrun 0
            else
              let (id, s) := s.newId
              let s := s.beginFlight iss { id := id, tag := 0, cnt := .none, pc := 0, lanes := 0, form := .ready, missing := 1 }
              { st := s.block iss ((lanesOf iss.act).map (fun j => (j, .dqpop x.d id))), stay := iss.act }
        | _, _ => { st := s })

def execDqpeek (x : Args) (s : State) : Host.Outcome State Fault Refusal :=
  s.issue (.dqpeek x) x (fun iss s =>
    match iss.w.g with
    | .ct _ => { st := s }
    | .warp w =>
      if iss.act = 0 then { st := s.passTag iss }
      else
        match s.warp w, s.team iss.w.team with
        | some y, some t =>
          let e := t.dqEntry y.k
          let s := match e with | some e => s.raiseClk iss.w.g e.clock | none => s
          let value (j : Nat) : List RegWrite := match e with | some e => regWrites x.d j 2 e.value.toNat | none => []
          { st := s.later iss ((lanesOf iss.act).flatMap (fun j => value j ++ predWrites false j (modBits x.mod 9 7) e.isSome)) }
        | _, _ => { st := s })

/-- Lanes blocked at a DQPOP go on once an entry is there; once the control thread has exited without one they go back to the DQPOP,
which then raises QUEUE_OVERRUN. -/
def State.retestDqpop (s : State) (w : Nat) : State :=
  match s.warp w with
  | none => s
  | some x =>
    x.blocks.foldl (fun s b =>
      match b.2.why, s.warp w, s.team x.ctx.team with
      | .dqpop d id, some y, some t =>
        if (Tab.find y.blocks b.1).isNone then s
        else
          let same := (y.blocks.filter (fun o => o.2.why == b.2.why)).map (·.1)
          match t.dqEntry y.k with
          | some e =>
            let g := Agent.warp w
            let s := (s.updTeam x.ctx.team (fun t => t.dqPop y.k)).raiseClk g e.clock
            let s := s.updFlight g id (fun f => { f with missing := 0, writes := same.flatMap (fun j => regWrites d j 2 e.value.toNat) })
            let s := s.waitOver g b.2.time (identity (.ct x.ctx.team)) e.edge 1 0
            s.updWarp w (fun x => x.unblock same true)
          | none =>
            if t.ctExited then
              s.updWarp w (fun x =>
                let tags := (x.ctx.flights.filter (fun f => f.id == id)).foldl (fun (m : BitVec 8) f => m ||| BitVec.ofNat 8 (2 ^ f.tag)) 0
                let ctx := { x.ctx with flights := x.ctx.flights.filter (fun f => f.id != id), busy := x.ctx.busy &&& ~~~tags }
                { x with ctx := ctx }.unblock same false)
            else s
      | _, _, _ => s) s

/-! ## Service calls (R201 to R203, R391) -/

/-- The predictor entry of a call at an address (R202). -/
def svcIndex (pc : W64) : Nat := (pc.toNat / 2 % 16) ^^^ (pc.toNat / 2 ^ 5 % 16)

/-- The argument pairs of a call. -/
def State.svcArgs (s : State) (iss : Iss) : List W64 :=
  (List.range (modBits iss.x.mod 9 7)).map (fun i =>
    BitVec.ofNat 64 (s.regsVal iss.w.g 0 (match iss.x.a with | .s m => .s (m + BitVec.ofNat 6 (2 * i)) | o => o) 2))

/-- The value that the team's predictor has for a call (R202); none in handler mode. A program buffer's call is not predicted (R235). -/
def Iss.svcGuess (iss : Iss) (t : Team) : Option W64 :=
  if iss.w.handler then none else match Tab.find t.svcPred (svcIndex iss.pc) with
    | some p => if p.pc == iss.pc && p.call == modBits iss.x.mod 6 0 then some p.value else none
    | none => none

/-- The request of a call numbered 'id', with the window entry of its prediction if it has one. -/
def State.svcReq (s : State) (iss : Iss) (w : Nat) (t : Team) (id : Nat) (e : Option Nat) : SvcReq where
  warp := w
  flight := id
  call := modBits iss.x.mod 6 0
  args := s.svcArgs iss
  cpc := t.cpc
  csn := t.csn
  pc := iss.pc
  lanes := iss.act
  d := match iss.x.d with | .s m => m.toNat | _ => 0
  predicted := e
  old := BitVec.ofNat 64 (s.regsVal iss.w.g 0 iss.x.d 2)

/-- The request goes to the service cores. -/
def State.askSvc (s : State) (w : Nat) (r : SvcReq) : State :=
  (({ s with svcs := s.svcs ++ [r] } : State).updWarp w (fun y => { y with svc := some r.flight })).emit (.svc w r.call r.args)

/-- An unpredicted call: its value comes with the tag. -/
def State.callPlain (s : State) (iss : Iss) (w : Nat) (t : Team) : State :=
  (s.newId.2.askSvc w (s.svcReq iss w t s.nextId none)).beginFlight iss
    { id := s.nextId, tag := 0, cnt := .none, pc := 0, lanes := 0, form := .ready, missing := 1, svc := true }

/-- A predicted call: its value lands at once, in an entry of the window (R203). -/
def State.callGuess (s : State) (iss : Iss) (w : Nat) (t : Team) (v : W64) : State :=
  let id := s.nextId
  let eid := s.nextId + 1
  let e : SpecEntry := { id := eid, pc := iss.pc, next := iss.next, lanes := iss.act, kind := .svc id v }
  let s1 := s.newId.2.newId.2.updWarp w (fun y => { y with window := y.window ++ [e] })
  let s2 := s1.putRegs iss.w.g (some eid) (regWrites iss.x.d (lowest iss.act) 2 v.toNat)
  (s2.askSvc w (s.svcReq iss w t id (some eid))).passTag iss

def execSvc (x : Args) (s : State) : Host.Outcome State Fault Refusal :=
  s.issue (.svc x) x (fun iss s =>
    match iss.w.g with
    | .ct _ => { st := s }
    | .warp w =>
      if iss.act = 0 then { st := s.passTag iss }
      else
        let busy := match s.warp w with | some y => y.svc.isSome | none => false
        if busy then .stall s
        else
          match s.gate iss 3 with
          | (false, s) => .stall s
          | (true, s) =>
            match s.team iss.w.team with
            | none => { st := s }
            | some t =>
              match (if s.cur.buffer then none else iss.svcGuess t) with
              | none => { st := s.callPlain iss w t }
              | some v => { st := s.callGuess iss w t v })

/-- R202: a successful reply enters the predictor. -/
def State.learnSvc (s : State) (team : Nat) (r : SvcReq) (v : W64) : State :=
  s.updTeam team (fun t => { t with svcPred := Tab.set t.svcPred (svcIndex r.pc) { pc := r.pc, call := r.call, value := v } })

/-- R204: the reply to a call numbered 64 or more carries a request number; the call completes later. -/
def State.deferCall (s : State) (team : Nat) (r : SvcReq) (v : W64) : State :=
  match s.team team with
  | none => s
  | some t =>
    let order := match s.grid t.grid with | some g => g.order | none => 0
    let d : Deferred := { request := v.setWidth 32, team := team, grid := t.grid, num := t.num, csn := r.csn, cpc := r.cpc, order := order }
    { s with deferred := s.deferred ++ [d] }

/-- R203: undo what is younger than a predicted call, in every lane. Lanes that did not execute the call go back to where they stood. -/
def Warp.undoCall (x : Warp) (e : SpecEntry) : Warp :=
  let oldest (j : Nat) : Option W64 := (x.window.find? (fun o => decide (e.id < o.id) && o.lanes.getLsbD j)).map (·.pc)
  let x1 := (x.undoAfter e.id (BitVec.allOnes 128)).2
  let x1 := (lanesOf x.live).foldl (fun y j => match oldest j with | some a => y.goTo [j] a | none => y) x1
  x1.goTo ((lanesOf (e.lanes &&& x.live))) e.next

/-- The trap that waits gives way to another: its lanes stand at its instruction and raise its cause when they execute that again. -/
def State.oweTrap (s : State) (g : Agent) : State :=
  match (s.ctx g).bind (·.trap) with
  | some t => if t.keep || t.pc == bufferPc then s else (s.goBack g t.lanes t.pc).owe g t.lanes t.cause t.addr (some t.pc)
  | none => s

/-- R201, R203: the answer to a call that no guess was made for: its destination, a uniform pair, lands whichever lanes are left, or its lanes
raise SERVICE_ERROR. R203 does not say what becomes of a trap that waits already, as of a refused store: the model raises SERVICE_ERROR first,
and the other when its lanes execute its instruction again (DESIGN CHOICE, log entry 46). -/
def State.svcLands (s : State) (w : Nat) (r : SvcReq) (lanes : Mask) (dest : List RegWrite) (err : Bool) : State :=
  let g := Agent.warp w
  match s.flight g r.flight with
  | none => s
  | some f =>
    if err then
      let s := s.finishFlight g { f with writes := [] }
      if lanes = 0 then s
      else (s.oweTrap g).updCtx g (fun c => { c with trap := some { lanes := lanes, cause := .serviceError, pc := r.pc, addr := 0, keep := true } })
    else s.finishFlight g { f with writes := dest, lanes := maskOf (dest.map (·.lane)), dead := 0 }

/-- R203: the answer to a call whose result was guessed: the guess stands, or what followed it is undone. -/
def State.svcChecks (s : State) (w : Nat) (e : SpecEntry) (lanes : Mask) (dest : List RegWrite) (value : W64) (err : Bool) : State :=
  let g := Agent.warp w
  let plain (x : Warp) : Warp := { x with window := x.window.map (fun (o : SpecEntry) => if o.id = e.id then { o with kind := .plain } else o) }
  let same := match e.kind with | .svc _ v => v == value | _ => false
  if !err && same then (s.updWarp w plain).settleSpec w
  else
    let s := s.updWarp w (fun x => plain (x.undoCall e))
    if err then
      let s := s.updWarp w (fun x =>
        let (_, x) := x.undoEntry e e.lanes
        { x.goTo (lanesOf lanes) e.pc with window := x.window.filter (fun o => o.id != e.id) })
      if lanes = 0 then s else s.takeTrap g { lanes := lanes, cause := .serviceError, pc := e.pc, addr := 0 }
    else (s.putRegs g none dest).settleSpec w

/-- What has landed before a reply is looked at: all of the cycles before, with the branches that resolve by it. Of the reply's own cycle the
registers land, but no branch of a guessed call's window resolves: the call is older and comes first (R205). -/
def State.landOlder (s : State) (w : Nat) : State :=
  match s.warp w with
  | none => s
  | some x =>
    let now := s.cycle (w / 128)
    let s := s.landWarp w (x.ctx.landings.filter (fun l => decide (l.due < now)))
    match s.warp w with
    | none => s
    | some x =>
      let due := x.ctx.landings.filter (fun l => decide (l.due ≤ now))
      let s := s.updCtx (.warp w) (fun c => { c with landings := c.landings.filter (fun l => decide (now < l.due)) })
      due.foldl (fun s l => s.putRegs (.warp w) l.spec l.writes) s

/-- SVC_REPLY: the answer to the call of a warp (R201, R203). A reply to a call whose warp has ended is dropped. -/
def State.svcAnswer (s0 : State) (w : Nat) (value : W64) (err : Bool) : State :=
  let g := Agent.warp w
  match s0.svcs.find? (fun r => r.warp == w) with
  | none => s0
  | some r =>
    let s : State := { s0 with svcs := (s0.svcs.filter (fun o => o.warp != w)) ++ (s0.svcs.filter (fun o => o.warp == w)).drop 1 }
    match s.warp w with
    | none => s
    | some y =>
      if y.svc != some r.flight then s
      else
        let s := (if r.predicted.isSome then s.landOlder w else s.land g).updWarp w (fun y => { y with svc := none })
        let s := if err then s else s.learnSvc y.ctx.team r value
        let s := if err || decide (r.call < 64) then s else s.deferCall y.ctx.team r value
        let lanes := r.lanes &&& y.live
        let dest := regWrites (.s (BitVec.ofNat 6 r.d)) (lowest r.lanes) 2 value.toNat
        match r.predicted with
        | none => s.svcLands w r lanes dest err
        | some eid =>
          match (match s.warp w with | some y => y.window.find? (fun (e : SpecEntry) => e.id == eid) | none => none) with
          | none => s.settleSpec w
          | some e => s.svcChecks w e lanes dest value err

/-! ## Launch records (R51) -/

/-- n bytes of a record at an offset. -/
def recField (raw : BitVec 1024) (off n : Nat) : Nat := raw.toNat / 2 ^ (8 * off) % 2 ^ (8 * n)

/-- A record's fields, and whether each lies within its limits. -/
def recOf (raw : BitVec 1024) : LaunchRec :=
  let f := recField raw
  let w (off : Nat) : W64 := BitVec.ofNat 64 (f off 8)
  let lanes := f 0x10 2 * f 0x12 2 * f 0x14 2
  let ok := f 0 8 % 256 == 0 && decide (1 ≤ f 8 4 ∧ f 8 4 ≤ 2 ^ 31 - 1) && decide (1 ≤ f 0xC 2) && decide (1 ≤ f 0xE 2) &&
    decide (1 ≤ lanes ∧ lanes ≤ 1024) && decide (f 0x16 1 ≤ 4) && decide (f 0x17 1 ≤ 1) && decide (1 ≤ f 0x18 2 ∧ f 0x18 2 ≤ 256) &&
    decide (f 0x1A 1 ≤ 64) && decide (f 0x1B 1 ≤ 64) && decide (f 0x1C 4 ≤ 786432) && f 0x1C 4 % 256 == 0 && decide (f 0x20 1 ≤ 7) &&
    f 0x23 5 == 0 && f 0x60 8 % 32 == 0 && f 0x68 24 == 0
  { code := w 0, gx := f 8 4, gy := f 0xC 2, gz := f 0xE 2, tx := f 0x10 2, ty := f 0x12 2, tz := f 0x14 2, width := 8 * 2 ^ f 0x16 1,
    cluster := f 0x17 1 % 2 == 1, vregs := f 0x18 2, sregs := f 0x1A 1, acc := f 0x1B 1, scratch := f 0x1C 4, rank := f 0x20 1 % 8,
    part := f 0x21 1, depth := f 0x22 1, pred := [w 0x28, w 0x30, w 0x38, w 0x40], sched := w 0x48, slots := w 0x50, args := w 0x58,
    compl := w 0x60, legal := ok }

/-- A header of which nothing is known yet. -/
def noHeader : Header := { lentry := 0, centry := 0, safe := [], fmtOff := 0, trapOff := 0 }

/-! ## Child launches (R69, R392) -/

/-- A child handle. -/
def handleOf (entry : Nat) (seq : W32) : W64 := BitVec.ofNat 64 (2 ^ 63 + 2 ^ 62 + entry * 2 ^ 32 + seq.toNat)

/-- The lowest free entry of the launch front. -/
def State.freeEntry (s : State) : Option Nat :=
  let rec go (fuel n : Nat) (l : Tab Grid) : Option Nat :=
    match fuel with
    | 0 => none
    | k + 1 => match l with
      | (e, _) :: r => if e = n then go k (n + 1) r else some n
      | [] => some n
  go 16384 0 s.grids

/-- The entry of a child grid, launched from a record at an address. -/
def State.childGrid (s : State) (iss : Iss) (p : Grid) (t : Team) (c : Ctx) (entry : Nat) (va : W64) : Grid :=
  let parent : Parent := { entry := iss.w.grid, team := iss.w.team, num := t.num, cpc := t.cpc, csn := t.csn, clock := c.wclk }
  { seq := s.launchSeq, queue := none, index := 0, parent := some parent, raw := 0, recAddr := some va, rec_ := recOf 0, hdr := noHeader,
    asid := p.asid, part := p.part, rank := p.rank, depth := p.depth + 1, order := s.orderN, token := handleOf entry s.launchSeq }

def execUlaunch (x : Args) (s : State) : Host.Outcome State Fault Refusal :=
  s.issue (.ulaunch x) x (fun iss s =>
    if iss.act = 0 then { st := s }
    else
      match s.grid iss.w.grid with
      | none => { st := s }
      | some p =>
        if 10 ≤ p.depth then .all s iss.lanes .launchDepth 0
        else
          match s.freeEntry with
          | none => .stall s
          | some entry =>
            let va := iss.src s 0 .n64 x.a
            match s.gate iss 3 with
            | (false, s) => .stall s
            | (true, s) =>
              let s := s.nextCsn iss
              match s.team iss.w.team, s.ctx iss.w.g with
              | some t, some c =>
                let s1 := { s with grids := Tab.set s.grids entry (s.childGrid iss p t c entry va), launchSeq := s.launchSeq + 1, orderN := s.orderN + 1 }
                { st := iss.results s1 4 (regWrites x.d (lowest iss.lanes) 2 (handleOf entry s.launchSeq).toNat) }
              | _, _ => { st := s })

/-! ## Trigger levels and waits for grids (R67, R393, R394) -/

def execUtrig (x : Args) (s : State) : Host.Outcome State Fault Refusal :=
  s.issue (.utrig x) x (fun iss s =>
    if iss.act = 0 then { st := s }
    else
      let n := iss.src32 s 0 x.a
      if n < 1 ∨ 15 < n then .all s iss.lanes .illegalOperand 0
      else
        match s.gate iss 3 with
        | (false, s) => .stall s
        | (true, s) =>
          match s.team iss.w.team, s.ctx iss.w.g with
          | some t, some c =>
            if n ≤ t.trig then { st := s }
            else
              let s := s.updTeam iss.w.team (fun t => { t with trig := n })
              { st := s.updGrid t.grid (fun g => { g with trigs := Tab.set g.trigs t.num (Tab.get [] g.trigs t.num ++ [(n, c.wclk)]) }) }
          | _, _ => { st := s })

/-- What a wait for a grid comes to: none while it lasts, else the clock to acquire. -/
def State.gridOver (s : State) (token : W64) : Option W32 :=
  let n := token.toNat
  let over_ (o : Option Grid) (unborn : Bool) : Option W32 :=
    match o with
    | some g => if g.state = .retired then some g.tr else none
    | none => if unborn then none else some s.maxMts
  if token.getLsbD 62 then
    over_ ((s.grid (n / 2 ^ 32 % 2 ^ 14)).filter (fun g => g.seq == BitVec.ofNat 32 n)) false
  else
    let q := n / 2 ^ 32 % 4096
    let idx := BitVec.ofNat 32 n
    over_ ((s.grids.find? (fun e => e.2.queue == some q && e.2.index == idx)).map (·.2)) (serialLe (s.queue q).head idx)

def execUgwait (x : Args) (s : State) : Host.Outcome State Fault Refusal :=
  s.issue (.ugwait x) x (fun iss s =>
    if iss.act = 0 then { st := s }
    else
      let token := iss.src s 0 .n64 x.a
      if !token.getLsbD 63 then { st := s }
      else
        let since := match s.ctx iss.w.g with | some { hold := .ugwait t, .. } => some t | _ => none
        match s.gridOver token, since with
        | none, some _ => .stall s
        | none, none => .stall (s.holdIn iss (.ugwait s.time))
        | some c, none => { st := s.raiseClk iss.w.g c }
        | some c, some t => { st := ((s.raiseClk iss.w.g c).endHold iss.w.g).waitOver iss.w.g t 0 0 4 (token.toNat % 2 ^ 57) })

/-! ## Event queue (R105, R390) -/

/-- The 32 bytes of a record. -/
def EvRec.value (r : EvRec) : Nat :=
  r.source.toNat + r.status.toNat * 2 ^ 8 + r.cause.toNat * 2 ^ 16 + r.flags.toNat * 2 ^ 24 + r.csn.toNat * 2 ^ 32 +
  r.bytes.toNat * 2 ^ 64 + r.cpc.toNat * 2 ^ 128 + r.object.toNat * 2 ^ 192

/-- R390: a record read acquires what it reports. -/
def EvRec.acquires (r : EvRec) : Bool := ((r.source == 0 || r.source == 1) && r.status == 0) || r.source == 2

/-- Who brought a record about, for the station of a long wait (R244). A child grid and a service core have no code in R228: the model puts 0
(DESIGN CHOICE, log entry 46). -/
def EvRec.arriver (r : EvRec) (core : Nat) : W32 :=
  if r.source = 0 then engineCode false core else if r.source = 1 then engineCode true core else 0

/-- Take the oldest record: eight registers and the predicate. -/
def State.takeEvent (s : State) (iss : Iss) (r : EvRec) : State :=
  let s := s.updTeam iss.w.team (fun t => { t with eq := t.eq.drop 1 })
  let s := if r.acquires then s.raiseClk iss.w.g r.t else s
  iss.results s 4 (regWrites iss.x.d 0 8 r.value ++ predWrites true 0 (predNum iss.x.b) true)

/-- No record: the predicate is false. -/
def State.noEvent (s : State) (iss : Iss) : State := iss.results s 4 (predWrites true 0 (predNum iss.x.b) false)

/-- EVPOP and EVWAIT after a discarded record. -/
def State.lostEvent (s : State) (iss : Iss) : Eff :=
  .all ((s.updTeam iss.w.team (fun t => { t with lost := false })).endHold iss.w.g) iss.lanes .queueOverrun 0

def execEvpop (x : Args) (s : State) : Host.Outcome State Fault Refusal :=
  s.issue (.evpop x) x (fun iss s =>
    if iss.act = 0 then { st := s }
    else match s.team iss.w.team with
      | none => { st := s }
      | some t =>
        if t.lost then s.lostEvent iss
        else match t.eq with
          | r :: _ => { st := s.takeEvent iss r }
          | [] => { st := s.noEvent iss })

def execEvwait (x : Args) (s : State) : Host.Outcome State Fault Refusal :=
  s.issue (.evwait x) x (fun iss s =>
    if iss.act = 0 then { st := s }
    else match s.team iss.w.team with
      | none => { st := s }
      | some t =>
        let held : Option (Option Nat × Nat) := match t.ct.hold with | .evwait u since => some (u, since) | _ => none
        if t.lost then s.lostEvent iss
        else match t.eq, held with
          | r :: _, none => { st := s.takeEvent iss r }
          | r :: _, some (_, since) =>
            { st := ((s.takeEvent iss r).endHold iss.w.g).waitOver iss.w.g since (r.arriver iss.w.core) r.edge 3 0 }
          | [], some (some 0, _) => { st := (s.noEvent iss).endHold iss.w.g }
          | [], some _ => .stall s
          | [], none =>
            let n := iss.src32 s 0 x.a
            .stall (s.holdIn iss (.evwait (if n = 0 then none else some (iss.now + n)) s.time)))

/-- EVWAIT_TIMEOUT: a wait whose time has run out is marked so; the control thread then completes it. -/
def State.evwaitExpire (s : State) (t : Nat) : State :=
  match s.team t with
  | none => s
  | some x =>
    match x.ct.hold with
    | .evwait (some u) since =>
      if u ≤ s.cycle (t / 8) then s.updCtx (.ct t) (fun c => { c with hold := .evwait (some 0) since }) else s
    | _ => s

/-! ## UCLOCK (R395) -/

def execUclock (x : Args) (s : State) : Host.Outcome State Fault Refusal :=
  s.issue (.uclock x) x (fun iss s =>
    if iss.act = 0 then { st := s }
    else { st := iss.results s 4 (regWrites x.d (lowest iss.lanes) 2 (s.cycle iss.w.core)) })

end Sys2Proof.Machine
end

