-- ==== Sys2Proof/Machine/System.lean ====
section
/-!
DEFINITION. Lane class 0xB and uniform class 0x4 (R396 to R403): special registers, FEATQ, RFT, DBGRET, UNPARK, TLBSYNC; and the
retired forms of lane class 0xC (R404).
-/

namespace Sys2Proof.Machine

/-! ## Special registers (R396 to R398) -/

/-- CNTS. -/
def Ctx.cnts (c : Ctx) : Nat := c.ld % 64 + c.st % 64 * 2 ^ 8 + c.cp % 64 * 2 ^ 16 + c.mx % 64 * 2 ^ 24

/-- CPC as an issuer reads it (R398): a control thread outside handler mode sees the reading instruction, a warp the control thread's
current one. -/
def State.cpcOf (s : State) (iss : Iss) (t : Team) : W64 :=
  match iss.w.g with
  | .warp _ => t.cpc
  | .ct _ => if iss.w.handler then t.savedCpc else if s.cur.buffer then t.cpc else iss.pc

/-- LPC as a lane reads it (R398). A word of a program buffer has no address: there the lane's LPC is read (log entry 22). -/
def State.lpcOf (s : State) (iss : Iss) (x : Warp) (lane : Nat) : W64 :=
  if iss.w.handler then Tab.get 0 x.savedLpc lane else if s.cur.buffer then Tab.get 0 x.lpc lane else iss.pc

/-- The contents of a special register in a lane; masks with all their bits. -/
def State.srValue (s : State) (iss : Iss) (lane idx : Nat) : Nat :=
  match s.ctx iss.w.g, s.team iss.w.team with
  | some c, some t =>
    let r := (s.grid t.grid).map (·.rec_)
    let warp (f : Warp → Nat) : Nat := match iss.w.g with | .warp w => (match s.warp w with | some x => f x | none => 0) | .ct _ => 0
    match idx with
    | 0 => lane
    | 1 => warp (·.k)
    | 2 => warp (·.width)
    | 3 => t.x
    | 4 => t.y
    | 5 => t.z
    | 6 => match r with | some r => r.tx + r.ty * 2 ^ 16 + r.tz * 2 ^ 32 | none => 0
    | 7 => match s.grid t.grid with | some g => g.token.toNat | none => 0
    | 8 => t.rank
    | 9 => iss.w.core
    | 10 => dieOf iss.w.core
    | 11 => s.chipcfg.toNat % 1024
    | 12 => warp (fun x => (s.lpcOf iss x lane).toNat)
    | 13 => c.wclk.toNat
    | 14 => c.cnts
    | 15 => c.busy.toNat / 2 * 2
    | 16 => warp (·.live.toNat)
    | 17 => warp (·.parked.toNat)
    | 18 => match iss.w.g with | .warp _ => c.trapMask.toNat | .ct _ => 1
    | 19 => c.trapCause.toNat
    | 20 => c.trapAddr.toNat
    | 21 => c.trapPc.toNat
    | 22 => t.trapBase.toNat
    | 23 => (s.reg iss.w.g lane .flags).toNat
    | 24 => t.stage
    | 25 => (s.cpcOf iss t).toNat
    | 26 => t.csn.toNat
    | 27 => c.edge.toNat
    | 28 => s.datum
    | 29 => match s.grid t.grid with | some g => g.lease.toNat | none => 0
    | 30 => t.fmtBase.toNat
    | 31 => c.saveBase.toNat
    | 32 => (match s.dbgctx.find? (fun d => d.asid == iss.w.asid) with
      | some d => (if d.attached then 2 else 0) + (if d.laneStop then 1 else 0)
      | none => 0)
    | 33 => warp (·.predstat.toNat)
    | _ => 0
  | _, _ => 0

/-- The writes of a read of a special register, in each lane in which it takes effect. -/
def State.srReads (s : State) (iss : Iss) : List RegWrite :=
  let x := iss.x
  let idx := modBits x.mod 7 0
  iss.each.flatMap (fun j =>
    let v := s.srValue iss j idx / (if modBit x.mod 8 then 2 ^ 64 else 1)
    putWrites x.ty x.d j (BitVec.ofNat 64 v))

/-- PREDSTAT is cleared by a read (R96): whole, by a .b32 read of either half too, which the spec does not say (DESIGN CHOICE, log entry
19). -/
def State.srClear (s : State) (iss : Iss) : State :=
  match iss.w.g with
  | .warp w => if modBits iss.x.mod 7 0 = 33 then s.updWarp w (fun x => { x with predstat := 0 }) else s
  | .ct _ => s

/-- SREAD and USREAD: counters and tags land with a tag, the others at the integer latency. -/
def State.srRead (s : State) (iss : Iss) : State :=
  let idx := modBits iss.x.mod 7 0
  let ws := s.srReads iss
  if idx = 14 ∨ idx = 15 then s.later iss ws
  else if iss.act = 0 then s
  else iss.results (s.srClear iss) 4 ws

def execSread (x : Args) (s : State) : Host.Outcome State Fault Refusal :=
  s.issue (.sread x) x (fun iss s => { st := s.srRead iss })

/-- The value that a write takes from its source. -/
def State.srSource (s : State) (iss : Iss) (lane : Nat) : W64 :=
  let v := iss.src s lane iss.x.ty iss.x.a
  if Ty.bits iss.x.ty = 32 then (v.setWidth 32).setWidth 64 else v

/-- LPC, CPC and TRAPCAUSE are written in handler mode only. -/
def srPrivileged (idx : Nat) : Bool := idx == 12 || idx == 19 || idx == 25

/-- R406: a write of FMTBASE has the converting commands that its team issued in the same cycle wait for the new table. -/
def State.awaitTable (s : State) (team : Nat) : State :=
  { s with cmds := s.cmds.map (fun c =>
      if c.team = team && c.since = s.time / 50 && Desc.converts c.desc then { c with fmtNew := true } else c) }

/-- SWRITE and USWRITE. In a program buffer outside handler mode, a write of LPC or CPC sets it (R235; log entry 22). -/
def State.srWrite (s : State) (iss : Iss) : Eff :=
  let idx := modBits iss.x.mod 7 0
  let lanes := if iss.uni then iss.lanes else iss.act
  if iss.act = 0 then { st := s }
  else if srPrivileged idx && !iss.w.handler then
    if s.cur.buffer && idx != 19 then
      { st := (if idx = 12 then lanesOf iss.act else [0]).foldl (fun s j => s.setPcs iss.w.g [j] (s.srSource iss j &&& ~~~1)) s }
    else .all s lanes .privilege 0
  else
    let ws : List RegWrite := (if idx = 12 then lanesOf iss.act else [lowest lanes]).map (fun j =>
      { lane := j, dest := .sr idx, val := (s.srSource iss j).setWidth 128 })
    { st := iss.results (if idx = 30 then s.awaitTable iss.w.team else s) 4 ws }

def execSwrite (x : Args) (s : State) : Host.Outcome State Fault Refusal := s.issue (.swrite x) x (fun iss s => s.srWrite iss)
def execUswrite (x : Args) (s : State) : Host.Outcome State Fault Refusal := s.issue (.uswrite x) x (fun iss s => s.srWrite iss)

/-- USWRITE.rft: the control thread leaves handler mode at the written address (R398). -/
def execUswriteRft (x : Args) (s : State) : Host.Outcome State Fault Refusal :=
  s.issue (.uswriteRft x) x (fun iss s =>
    match iss.w.g with
    | .warp _ => { st := s }
    | .ct t =>
      if iss.act = 0 then { st := s }
      else if !iss.w.handler then .all s iss.lanes .privilege 0
      else
        let a := s.srSource iss 0 &&& ~~~1
        { st := s.updTeam t (fun y => { y with savedCpc := a, cpc := a, ct := { y.ct with handler := false } }), stay := iss.lanes })

/-! ## TLBSYNC (R403) -/

/-- The wait for the invalidations posted before this cycle (R406); true once it is over and the core's fetch lines of the ASID are gone. -/
def State.syncWait (s : State) (iss : Iss) : Bool × State :=
  let fresh := (s.invals.filter (fun v => v.posted / 50 == s.time / 50)).length
  let g : W32 := match s.ctx iss.w.g with | some { hold := .tlbsync g, .. } => g | _ => s.tlbIssued - BitVec.ofNat 32 fresh
  if serialLe g s.tlbDone then
    let s := s.updCore iss.w.core (fun c => { c with fetch := c.fetch.filter (fun f => f.asid != iss.w.asid) })
    (true, s.endHold iss.w.g)
  else (false, s.holdIn iss (.tlbsync g))

def execTlbsync (x : Args) (s : State) : Host.Outcome State Fault Refusal :=
  s.issue (.tlbsync x) x (fun iss s =>
    if iss.act = 0 then { st := s }
    else match s.syncWait iss with | (true, s) => { st := s } | (false, s) => .stall s)

/-- USREAD; .sync first waits as TLBSYNC does. -/
def execUsread (x : Args) (s : State) : Host.Outcome State Fault Refusal :=
  s.issue (.usread x) x (fun iss s =>
    if modBit x.mod 9 ∧ iss.act ≠ 0 then
      match s.syncWait iss with
      | (true, s) => { st := s.srRead iss }
      | (false, s) => .stall s
    else { st := s.srRead iss })

/-! ## FEATQ (R287, R399) -/

/-- Core clock in MHz after division (R33). -/
def State.mhz (s : State) (core : Nat) : Nat := 940 / 2 ^ (s.core core).clk.div

/-- A leaf of the feature word. -/
def State.leaf (s : State) (w : Who) (n : Nat) : W64 :=
  if n = 7 then
    BitVec.ofNat 64 (s.chipcfg.toNat % 1024 + dieOf w.core * 2 ^ 10 + w.core % 40 * 2 ^ 12 + s.mhz w.core * 2 ^ 32)
  else if n < 7 then (match s.team w.team with | some t => t.leaves.getD n 0 | none => 0) else 0

def execFeatq (x : Args) (s : State) : Host.Outcome State Fault Refusal :=
  s.issue (.featq x) x (fun iss s =>
    if iss.act = 0 then { st := s }
    else
      let lanes := match x.d with | .s _ => [lowest iss.act] | _ => lanesOf iss.act
      { st := iss.results s 4 (lanes.flatMap (fun j => regWrites x.d j 2 (s.leaf iss.w (iss.src32 s j x.a)).toNat)) })

/-! ## RFT, DBGRET, UNPARK (R400 to R402) -/

def execRft (x : Args) (s : State) : Host.Outcome State Fault Refusal :=
  s.issue (.rft x) x (fun iss s =>
    match iss.w.g with
    | .ct _ => { st := s }
    | .warp w =>
      if iss.act = 0 then { st := s }
      else if !iss.w.handler then .all s iss.act .privilege 0
      else
        let next := modBit x.mod 0
        match if next then s.lengthAt iss.w.core iss.w.asid iss.w.part ((s.ctx iss.w.g).elim 0 (·.trapPc)) else .ok 0 with
        | .error pa => .stall (s.fillHost iss.w pa)
        | .ok n =>
          let s := if next then s.free.2 else s
          { st := (s.rft w next n).updWarp w (fun y => y.deliver), stay := iss.lanes })

def execDbgret (x : Args) (s : State) : Host.Outcome State Fault Refusal :=
  s.issue (.dbgret x) x (fun iss s =>
    if iss.act = 0 then { st := s }
    else if !s.cur.buffer then .all s iss.act .privilege 0
    else
      let v := iss.src s (lowest iss.lanes) .n64 x.a
      { st := { s with cur := { s.cur with ret := some v } } })

def execUnpark (x : Args) (s : State) : Host.Outcome State Fault Refusal :=
  s.issue (.unpark x) x (fun iss s =>
    match iss.w.g with
    | .ct _ => { st := s }
    | .warp w =>
      if iss.act = 0 then { st := s }
      else
        let m := if modBit x.mod 0 then BitVec.allOnes 128 else s.maskSrc iss.w.g x.a (s.widthOf iss.w.g)
        { st := s.updWarp w (fun y => y.unparkNow m (s.time / 50)) })

/-! ## Retired forms (R264, R404) -/

def execImad24 (x : Args) (s : State) : Host.Outcome State Fault Refusal :=
  s.fixed (.imad24 x) x (fun iss s j =>
    let sgn := x.ty == .i32
    let r := extBits (iss.src32 s j x.a) 24 sgn * extBits (iss.src32 s j x.b) 24 sgn + (iss.src32 s j x.c : Int)
    regWrites x.d j 1 (r % 2 ^ 32).toNat)

/-- BARSYNC: BARA on the object, then BARW naming the epoch that the arrival read. -/
def execBarsync (x : Args) (s : State) : Host.Outcome State Fault Refusal :=
  s.issue (.barsync x) x (fun iss s =>
    if iss.act = 0 then { st := s }
    else
      let j := lowest iss.act
      let before : State → ObjLoc → Nat := fun s o => (s.objGet o).epoch
      let seen : Option (ObjLoc × Nat) := (objOf (s.objRes iss j .atomic)).map (fun o => (o, before s o))
      let e := s.atObjects iss (iss.arrivals false) true (fun rs => some (s.objScope rs)) (fun s _ o => s.arrive iss.w o 1 0)
      if e.stalled || !e.causes.isEmpty || e.stay != 0 then e
      else match seen with
        | none => e
        | some (o, epoch) =>
          let obj := e.st.objGet o
          if !epochPassed obj.epoch epoch then
            { e with st := e.st.block iss ((lanesOf iss.act).map (fun j => (j, .barw o epoch))), stay := iss.act }
          else if obj.lastErr then { e with causes := (lanesOf iss.act).map (fun j => (j, .copyFault, o.addr)) }
          else { e with st := e.st.observe iss.w o })

/-- FRCPA and LDGX raise RETIRED_FORM at decode (R257), before they issue. -/
def execFrcpa (x : Args) (s : State) : Host.Outcome State Fault Refusal :=
  s.issue (.frcpa x) x (fun iss s => .all s iss.lanes .retiredForm 0)
def execLdgx (x : Args) (s : State) : Host.Outcome State Fault Refusal :=
  s.issue (.ldgx x) x (fun iss s => .all s iss.lanes .retiredForm 0)

end Sys2Proof.Machine
end

