-- ==== Sys2Proof/Machine/Coherence.lean ====
section
/-!
DEFINITION. The events of the caches and homes (R110 to R131): renewals, reads, write-backs and atomics at a home and their replies,
clock creep, sweeps, the clock floor, ECC errors; with the counters of the lifetime records that they raise (R39).
-/

namespace Sys2Proof.Machine

/-! ## Lifetime records (R39) -/

/-- Vudor commits its counters to flash. -/
def State.commitRecords (s : State) : State :=
  { s with vudor := { s.vudor with stored := s.vudor.counts, committedAt := s.time } }

/-- Add 1 to a 32-bit counter of a table, saturating. -/
def bump (t : Tab W32) (k : Nat) : Tab W32 :=
  let n := Tab.get 0 t k
  Tab.set t k (if n = BitVec.allOnes 32 then n else n + 1)

def State.updCounts (s : State) (f : Counts → Counts) : State := { s with vudor := { s.vudor with counts := f s.vudor.counts } }

/-- A corrected soft error in a structure: 0 register file, 1 L1, 2 scratchpad, 3 accumulators, 4 L2, 5 HBM, 6 LPDDR6, 7 range-lock
table, 8 TLBs. -/
def State.countCorrected (s : State) (unit : Nat) : State := s.updCounts (fun c => { c with corrected := bump c.corrected unit })

/-- An uncorrected one, recorded and committed at once. -/
def State.countUncorrected (s : State) (unit addr : Nat) : State :=
  let s := s.updCounts (fun c => { c with uncorrected := bump c.uncorrected unit })
  ({ s with vudor := { s.vudor with lastUnc := ((s.datum, unit, addr) :: s.vudor.lastUnc).take 64 } } : State).commitRecords

/-! ## Running -/

/-- The dies are up: the package starts or runs (R30); in FATAL nothing moves (R32). -/
def State.live (s : State) : Bool := s.pkg == .start || s.pkg == .run

/-- An event of the running part; it changes nothing while the part is down. -/
def State.whileLive (s : State) (f : State → State) : Host.Outcome State Fault Refusal := .next (if s.live then f s else s)

/-! ## Requests at a home (R126) -/

/-- The request may be served: it arrived in an earlier cycle, so that all requests of its cycle are there, and none that comes before it
waits for its line (R126). -/
def State.reqReady (s : State) (r : Req) : Bool :=
  (match r.arrived with | some t => decide (t < s.tick50) | none => false) && s.reqs.all (fun o => o.line != r.line || !o.before r)

/-- The clock of a request: that of the home for a peer's and for the device's own writes (R128, R431). -/
def State.reqClock (s : State) (k : Nat) (r : Req) : W32 :=
  match r.src with | .peer _ => (s.home k).mts | .own => (s.home k).mts | _ => r.c

/-- A line not resident under the request's key needs a valid key (R58, R59). -/
def State.reqKeyBad (s : State) (r : Req) : Bool :=
  !s.keyValid.getLsbD r.key.toNat && (match Tab.find s.l2 r.line with | some l => l.key != r.key | none => true)

/-- A request reaches its home: it takes its place there by the cycle of its arrival. -/
def State.arriveReq (s : State) (id : Nat) : State :=
  { s with reqs := s.reqs.map (fun o => if o.id = id then { o with arrived := some s.tick50 } else o) }

/-- A request of a kind: one on its way arrives, if it may; one that has arrived is served, if it may, and leaves the queue. -/
def State.serve (s : State) (id : Nat) (write : Bool) (kind : ReqKind → Bool) (f : State → Req → Nat → State) : State :=
  match s.reqs.find? (fun r => r.id == id && kind r.kind) with
  | none => s
  | some r =>
    match lineHome r.line with
    | none => s
    | some k =>
      if r.arrived.isNone then (if s.mayArrive r then s.arriveReq id else s)
      else if !s.reqReady r then s
      else match s.clearHost r.line r.key r.part write with
        | some s => s
        | none => f { s with reqs := s.reqs.filter (fun o => o.id != id) } r k

/-- A reply sets out, by the route from the home to the die of the requester (R16). -/
def State.reply (s : State) (r : Reply) : State :=
  let home := lineDie r.req.line
  { s with replies := s.replies ++ [{ r with sent := s.time, path := s.route home (srcDie r.req.src home) (r.req.line % 2 = 1) }] }

/-- A reply of some kind that may reach its core now (R17). -/
def State.replyFor (s : State) (id : Nat) (kind : ReqKind → Bool) : Option Reply :=
  match s.replies.find? (fun p => p.id == id && kind p.req.kind) with
  | some p => if s.replyReady p then some p else none
  | none => none

def State.dropReply (s : State) (id : Nat) : State := { s with replies := s.replies.filter (fun o => o.id != id) }

/-! ## The kinds of request -/

def ReqKind.isRenew (k : ReqKind) : Bool := match k with | .renew .. => true | _ => false
def ReqKind.isRead (k : ReqKind) : Bool := match k with | .read1 => true | .rawRead => true | _ => false
def ReqKind.isWrite (k : ReqKind) : Bool := match k with | .wback .. => true | .rawWrite .. => true | _ => false
def ReqKind.isAtomic (k : ReqKind) : Bool := match k with | .atomic .. => true | .own .. => true | _ => false

/-! ## What replies bring -/

/-- A piece of a lane's result arrives: its bytes, or the cause that keeps them away; an access that raises the clock does so. -/
def State.toFlight (s : State) (g : Agent) (fid lane pos n v : Nat) (c : Cause) (clk : Option W32) : State :=
  match s.flight g fid with
  | none => s
  | some _ =>
    let s := match clk with | some t => s.raiseClk g t | none => s
    let s := if c = .none then s.bytesIn g fid lane pos n v else s.badIn g fid lane c
    s.pieceDone g fid

/-- A trap waits for the agent's next issue decision, unless one does already. -/
def Ctx.pendTrap (c : Ctx) (p : PendTrap) : Ctx := if c.trap.isSome then c else { c with trap := some p }

/-- A core is told that a fetch failed: the agent traps at its next decision. A breakpoint at the address fires first (R245). -/
def State.fetchFails (s : State) (g : Agent) (c : Cause) : State :=
  let lanes : Mask := match g with
    | .ct _ => 1
    | .warp w => match s.warp w with
      | some x =>
        let e := lanesOf x.eligible
        let low := e.foldl (fun m j => min m (s.pcOf g j).toNat) (2 ^ 64)
        maskOf (e.filter (fun j => (s.pcOf g j).toNat == low))
      | none => 0
  let pc := s.pcOf g (lowest lanes)
  let c := match s.who g with | some w => if (s.bpAt w.asid pc).isSome then Cause.breakpoint else c | none => c
  if lanes = 0 then s else s.updCtx g (fun x => x.pendTrap { lanes := lanes, cause := c, pc := pc, addr := pc })

/-- An answer that the links do not let through yet waits, and comes again when the next cycle begins (R17, R19). -/
def State.holdFlit (s : State) (since : Nat) (e : Flit) : State := { s with heldFlits := s.heldFlits ++ [(since, e)] }

/-- A reply to a peer leaves by a port of its chip's route, from I/O die 0 (log entry 36), and waits where it must cross to the other one
(R25); without a route it is not sent. -/
def State.peerAnswer (s : State) (p : PeerWait) (v : Nat) (c : Cause) : State :=
  let n := match p.op with | .read n => n | .atomic _ ty _ _ => Ty.bits ty / 8 | _ => 0
  if !s.chipcfg.getLsbD 16 then s
  else match s.pickPort 0 0 p.chip p.va.toNat with
    | none => s
    | some port =>
      if s.flitShut (.answer p v c) then s.holdFlit s.time (.answer p v c)
      else ((s.rollWindow).admitBytes port (n + 32) false).emit
        (.peer p.id port s.chipId p.chip p.pasid p.va (.reply p.id (BitVec.ofNat 512 v) c) p.edge)

/-- The first touch of a region line is refused by its home (R58, R123): the accesses that wait for the line end with the cause. -/
def State.regionFails (s : State) (team k line : Nat) (cause : Cause) : State :=
  match s.team team with
  | none => s
  | some t =>
    match Tab.find t.regions k with
    | none => s
    | some r =>
      let base := r.off + 256 * line
      let gone := t.array.filter (fun o => overlap base 256 o.off o.n)
      let s := s.updTeam team (fun t => Team.dropRegions { t with
        array := t.array.filter (fun o => !overlap base 256 o.off o.n)
        regions := Tab.upd t.regions k (fun r => { r with asked := Tab.erase r.asked line, parts := Tab.erase r.parts line }) })
      let va := r.base + BitVec.ofNat 64 (256 * line)
      gone.foldl (fun s o => match o.kind with
        | .load fid _ => (s.badIn o.agent fid o.lane cause).pieceDone o.agent fid
        | .atomic _ (some fid) => (s.badIn o.agent fid o.lane cause).pieceDone o.agent fid
        | .atomic _ none => s
        | .store _ => (s.storeRefused o.agent o.owner o.lane o.pc cause va).storeDone o.agent o.owner) s

/-- One awaited read of a line is answered with the line's bytes. -/
def State.answerRead (s : State) (a : Await) (data : Line) (bad : ByteMask) (cause : Cause) (clk : Option W32) : State :=
  let why (off n : Nat) : Cause := if cause = .none ∧ bad &&& byteRange off n ≠ 0 then .dataUncorrectable else cause
  match a with
  | .flight g fid lane off pos n => s.toFlight g fid lane pos n (lineField data off n) (why off n) clk
  | .engine r piece pos off n => s.engData r piece pos n (lineField data off n) (why off n)
  | .fetch g => if cause = .none then s else s.fetchFails g cause
  | .peer id off n =>
    match s.peerIn.find? (fun p => p.id == id) with
    | none => s
    | some p => ({ s with peerIn := s.peerIn.filter (fun o => o.id != id) } : State).peerAnswer p (lineField data off n) (why off n)
  | .region g team k line off n =>
    if cause ≠ .none then s.regionFails team k line cause
    else (match g, clk with | some g, some t => s.raiseClk g t | _, _ => s).regionBytes team k line off n data bad
  | _ => s

/-- One awaited write is answered, with its stamp if it has one. A store that a peer or the host refused raises the cause in its lane, at the
address that the lane gave (R163, R164). -/
def State.answerWrite (s : State) (a : Await) (core : Nat) (w' : Option W32) (cause : Cause) : State :=
  match a with
  | .store g id rel lane pc va =>
    let mine := match s.ctx g with | some c => (Tab.find c.stores id).isSome | none => false
    if !mine then s
    else
      let s := match w' with | some t => if rel then s.raiseClk g t else s | none => s
      (if cause = .none then s else s.storeRefused g id lane pc cause va).storeDone g id
  | .engineW r piece =>
    let s := if cause = .none then s else s.pieceBad r piece cause (s.engVa r piece 0)
    s.engWrote r piece core w'
  | .peer id _ _ =>
    match s.peerIn.find? (fun p => p.id == id) with
    | none => s
    | some p => ({ s with peerIn := s.peerIn.filter (fun o => o.id != id) } : State).peerAnswer p 0 cause
  | .grid e => s.updGrid e (fun g => { g with
      compl := if cause = .none then (match g.compl with | .first => .firstDone | _ => .done) else .failed })
  | _ => s

/-! ## Renewals (R111) and reads (R112) -/

/-- A request raises the clock of its home, whatever comes of it (R110), and the times of a line that the sweep has not reached (R120). Where the
request's own clock is what starts a sweep, R120 does not say whether its line's times are raised before it is served: the model serves a
renewal with the times unraised, and a write-back or an atomic, whose write visits the line again, with them raised (DESIGN CHOICE, log entry
46). -/
def State.noteClock (s : State) (k : Nat) (r : Req) : State := (s.sweepFirst k r.line).raiseMts k (s.reqClock k r)

/-- HOME_RENEW. -/
def State.homeRenew (s : State) (id : Nat) : State :=
  s.serve id false ReqKind.isRenew (fun s r k =>
    match r.kind with
    | .renew wts sector pin l2only =>
      let s := s.noteClock k r
      if s.reqKeyBad r then
        s.reply { id := id, req := r, wts := r.c, rts := r.c, data := 0, sectors := 0, same := false, cause := .keyInvalid }
      else
        let s := s.fetchLine k r.line r.key r.part r.home2
        match Tab.find s.l2 r.line with
        | none => s
        | some l =>
          if l2only then s
          else
            let cls := if wts = some l.wts && l.cls != 3 then l.cls + 1 else l.cls
            let len := leaseLen (pin.getD cls)
            let rts := serialMax l.rts (serialMax (l.wts + len) (r.c + len))
            let s := ({ s with l2 := Tab.set s.l2 r.line { l with cls := cls, rts := rts } } : State).raiseMts k rts
            let sectors : BitVec 4 := if wts = some l.wts then BitVec.ofNat 4 (2 ^ sector) else 15
            s.reply { id := id, req := r, wts := l.wts, rts := rts, data := s.lineData r.line, sectors := sectors, same := false, bad := s.poisonOf r.line }
    | _ => s)

/-- The L1 installs a renewed line (R111, R129). A line that left the L1 while its renewal was out takes a free way or none. -/
def State.installL1 (s : State) (p : Reply) : State :=
  let r := p.req
  let full := ((s.core r.core).l1.filter (fun e => e.1 % 512 == r.line % 512)).length ≥ 12
  if (s.l1 r.core r.line).isNone && r.evicted && full then s
  else
    let (l, s) := s.takeL1 r.core r.line r.key r.part r.home2
    let kept : BitVec 4 := if l.known && l.wts == p.wts && l.peer.isNone then l.valid else 0
    let fresh := sectorBytes p.sectors &&& ~~~l.dirty
    let valid := if serialLt p.rts s.floor then 0 else kept ||| p.sectors
    s.setL1 r.core r.line { l with
      data := mergeLine l.data p.data fresh
      poison := (l.poison &&& ~~~fresh) ||| (p.bad &&& fresh)
      valid := valid
      wts := p.wts
      rts := p.rts
      known := true
      peer := none }

/-- An acquire whose bytes come from a renewal takes the clock of those that its L1 holds dirty, as one that hits does. -/
def State.awaitDirty (s : State) (a : Await) (l : L1Line) : State :=
  match a with | .flight g fid _ off _ n => s.takeDirty g fid l (byteRange off n) | _ => s

/-- The reply to a renewal with the dirty bytes laid over it that its line took along when it left the L1 meanwhile. -/
def Reply.withKept (p : Reply) : Reply :=
  { p with data := mergeLine p.data p.req.kept p.req.keptMask, bad := (p.bad &&& ~~~p.req.keptMask) ||| p.req.keptBad }

/-- Those bytes as a line. -/
def Req.keptLine (r : Req) : L1Line := { dirty := r.keptMask, dclk := r.keptClk }

/-- RENEWAL_REPLY: the line is installed and the requesting lanes receive its bytes, merged with the L1's dirty bytes. -/
def State.renewalReply (s : State) (id : Nat) : State :=
  match s.replyFor id ReqKind.isRenew with
  | none => s
  | some p0 =>
    let p := p0.withKept
    let s := p.req.awaits.foldl (fun s a => s.awaitDirty a p.req.keptLine) (s.dropReply id)
    let s := if p.cause = .none then s.installL1 p else s
    let s := match s.l1 p.req.core p.req.line with
      | some l => if l.key = p.req.key then p.req.awaits.foldl (fun s a => s.awaitDirty a l) s else s
      | none => s
    let (dirty, own, bad) : ByteMask × Line × ByteMask := match s.l1 p.req.core p.req.line with
      | some l => if l.key = p.req.key then (l.dirty, l.data, l.poison) else (0, 0, 0)
      | none => (0, 0, 0)
    let data := mergeLine p.data own dirty
    let poison := (p.bad &&& ~~~dirty) ||| (bad &&& dirty)
    p.req.awaits.foldl (fun s a => s.answerRead a data poison p.cause (some p.wts)) s

/-- HOME1_READ at the home: the bytes and wts set out to the reader. A HOME 3 read moves no clock (R109). -/
def State.home1Serve (s : State) (id : Nat) : State :=
  s.serve id false ReqKind.isRead (fun s r k =>
    let p : Reply := { id := id, req := r, wts := 0, rts := 0, data := 0, sectors := 0, same := false }
    match r.kind with
    | .read1 =>
      let s := s.noteClock k r
      if s.reqKeyBad r then s.reply { p with cause := .keyInvalid }
      else
        let (wts, s) := s.stampRead k r.line r.key r.part r.home2 (s.reqClock k r)
        s.reply { p with wts := wts, rts := wts, data := s.lineData r.line, bad := s.poisonOf r.line }
    | .rawRead =>
      if !s.keyValid.getLsbD r.key.toNat then s.reply { p with cause := .keyInvalid }
      else s.reply { p with data := s.lineAs r.line r.key, bad := s.poisonOf r.line }
    | _ => s)

/-- HOME1_READ: a request arrives or is served; its reply reaches the reader, which takes wts into its clock. -/
def State.home1Read (s : State) (id : Nat) : State :=
  match s.replyFor id ReqKind.isRead with
  | none => s.home1Serve id
  | some p =>
    let clk : Option W32 := match p.req.kind, p.cause with | .read1, .none => some p.wts | _, _ => none
    let far (s : State) (a : Await) : State := match p.req.kind with | .rawRead => s.meetFar a p.req.line | _ => s
    p.req.awaits.foldl (fun s a => (far s a).answerRead a p.data p.bad p.cause clk) (s.dropReply id)

/-! ## Write-backs (R114) -/

/-- HOME_WRITEBACK: merged and stamped; under a cleared key slot the bytes are discarded and logged (R129). A HOME 3 write is performed
past the L2, with no stamp (R109). -/
def State.homeWriteback (s : State) (id : Nat) : State :=
  s.serve id true ReqKind.isWrite (fun s r k =>
    match r.kind with
    | .wback data mask wts bad =>
      let answer (s : State) (w' : W32) (same : Bool) : State :=
        if r.src = .own then r.awaits.foldl (fun s a => s.answerWrite a r.core none .none) s
        else s.reply { id := id, req := r, wts := w', rts := w', data := 0, sectors := 0, same := same }
      let s := s.noteClock k r
      if !s.keyValid.getLsbD r.key.toNat then answer (s.logError 4 (256 * r.line)) r.c false
      else
        let ((w', old), s) := s.homeWrite k r.line r.key r.part r.home2 (s.reqClock k r) data mask bad
        answer s w' (wts == some old)
    | .rawWrite data mask =>
      let s := if s.keyValid.getLsbD r.key.toNat then s.writeRaw r.line r.key data mask else s.logError 4 (256 * r.line)
      s.reply { id := id, req := r, wts := 0, rts := 0, data := 0, sectors := 0, same := false }
    | _ => s)

/-- The L1 takes the stamp of a write-back for its line (R114): the bytes it carried are clean unless they were stored again meanwhile, and
where another write came between, the line's sectors are no longer valid. -/
def L1Line.stamped (l : L1Line) (id : Nat) (w' : W32) (same : Bool) : L1Line :=
  { l with
    dirty := (l.sent.filter (fun e => e.1 == id)).foldl (fun m e => m &&& ~~~e.2) l.dirty
    sent := l.sent.filter (fun e => e.1 != id)
    valid := if same then l.valid else 0
    wts := w'
    rts := w'
    known := true }

/-- The stamp that a reply to a write brings its core: none to a peer, none of a HOME 3 write. -/
def Reply.stamp (p : Reply) : Option W32 :=
  match p.req.src, p.req.kind with
  | .core _, .wback .. => some p.wts
  | .engine _, .wback .. => some p.wts
  | _, _ => none

/-- WRITEBACK_REPLY: the L1 takes the stamp; ECLK rises; writes that were awaited complete. -/
def State.writebackReply (s : State) (id : Nat) : State :=
  match s.replyFor id ReqKind.isWrite with
  | none => s
  | some p =>
    let r := p.req
    let s := s.dropReply id
    let s := match p.stamp with | some t => s.raiseEclk r.core t | none => s
    let s := match r.src, r.kind, s.l1 r.core r.line with
      | .core _, .wback .., some l => if l.key = r.key ∧ l.peer.isNone then s.setL1 r.core r.line (l.stamped id p.wts p.same) else s
      | _, _, _ => s
    r.awaits.foldl (fun s a => s.answerWrite a r.core p.stamp .none) s

/-! ## Atomics (R116) -/

/-- HOME_ATOMIC: performed and stamped as a write-back, on a line that is filled after the home's clock has taken the requester's (R110); the
old value goes back. Poisoned bytes stay as they are. -/
def State.homeAtomic (s : State) (id : Nat) : State :=
  s.serve id true ReqKind.isAtomic (fun s r k =>
    match r.kind with
    | .atomic off op =>
      let n := Ty.bits op.ty / 8
      let s := s.noteClock k r
      let failed := s.reqKeyBad r
      let c := s.reqClock k r
      let s := if failed then s else s.fetchLine k r.line r.key r.part r.home2
      let old := lineField (s.lineData r.line) off n
      let bad := s.poisonOf r.line &&& byteRange off n != 0
      let cause : Cause := if failed then .keyInvalid else if bad then .dataUncorrectable else .none
      let mask : ByteMask := if cause = .none then byteRange off n else 0
      let (w', s) := if failed then (r.c, s) else
        (fun (x : (W32 × W32) × State) => (x.1.1, x.2)) (s.homeWrite k r.line r.key r.part r.home2 c (lineOf off (atomNew op old)) mask 0)
      s.reply { id := id, req := r, wts := w', rts := w', data := lineOf off old, sectors := 0, same := false, old := BitVec.ofNat 64 old, cause := cause }
    | .own off op => s.ownPerform k r.line r.key off op
    | _ => s)

/-- ATOMIC_REPLY: the old value, with WCLK and ECLK raised. -/
def State.atomicReply (s : State) (id : Nat) : State :=
  match s.replyFor id ReqKind.isAtomic with
  | none => s
  | some p =>
    let s := s.dropReply id
    match p.req.src with
    | .peer _ => p.req.awaits.foldl (fun s a => s.answerRead a p.data 0 p.cause none) s
    | _ => p.req.awaits.foldl (fun s a => s.answerRead a p.data 0 p.cause (some p.wts)) (s.raiseEclk p.req.core p.wts)

/-! ## Clocks (R119 to R121) -/

/-- CLOCK_CREEP: 1,024 more cycles since placement. A hit check in the cycle of the step uses the clock before it, so the step comes with the
next cycle. -/
def State.clockCreep (s : State) (g : Agent) : State :=
  match s.ctx g with
  | none => s
  | some c =>
    if !c.saved && decide (c.placedAt + 1024 * (c.creeps + 1) < s.cycle (agentCore g)) then
      s.updCtx g (fun c => { c with creeps := c.creeps + 1, wclk := c.wclk + 1 })
    else s

/-- L2_SWEEP_STEP: the next set of a home's sweep. -/
def State.sweepStep (s : State) (k : Nat) : State :=
  let h := s.home k
  match h.sweep with
  | none => s
  | some (limit, set) =>
    let s : State := { s with l2 := s.l2.map (fun e => if homeOf (256 * e.1) == some k && l2Set k e.1 == set then (e.1, sweepLine limit e.2) else e) }
    s.setHome k (if set + 1 < l2Sets k then { h with sweep := some (limit, set + 1) } else { h with sweep := none, sweeps := h.sweeps + 1 })

/-- A time raised to the floor. -/
def floored (f t : W32) : W32 := if serialLt t f then f else t

def Ctx.floored (c : Ctx) (f : W32) : Ctx := { c with wclk := Machine.floored f c.wclk }

/-- An L1 line under a new floor. -/
def L1Line.floored (l : L1Line) (f : W32) : L1Line := if l.known && serialLt l.rts f then { l with valid := 0 } else l

/-- CLOCK_FLOOR_BROADCAST: at each 4,096 cycles of 940 MHz since reset. -/
def State.floorBroadcast (s : State) : State :=
  if (s.time - s.resetAt) / (4096 * 50) ≤ s.floorN then s
  else
    let f := s.maxMts - 0x20000000
    let s := (List.range 6).foldl (fun s k => s.raiseMts k f) s
    { s with
      floorN := (s.time - s.resetAt) / (4096 * 50)
      floor := f
      warps := s.warps.map (fun e => (e.1, { e.2 with ctx := e.2.ctx.floored f }))
      teams := s.teams.map (fun e => (e.1, { e.2 with ct := e.2.ct.floored f }))
      cores := s.cores.map (fun e => (e.1, { e.2 with eclk := floored f e.2.eclk, l1 := e.2.l1.map (fun l => (l.1, l.2.floored f)) }))
      hclk := floored f s.hclk }

/-! ## ECC errors (R130) -/

def State.cacheError (s : State) (site : EccSite) : State :=
  match site with
  | .corrected unit => s.countCorrected unit
  | .l1Clean core line =>
    match s.l1 core line with
    | some l =>
      -- dirty bytes of the line, which the error does not touch, stay for write-back
      (if l.dirty = 0 then s.dropL1 core line else s.setL1 core line { l with valid := fullSectors l.dirty }).countCorrected 1
    | none => s
  | .l1State core line =>
    match s.l1 core line with
    | some l =>
      let s := s.setL1 core line { l with poison := l.poison ||| l.dirty, sent := [] }
      (s.evictL1 core line).countCorrected 1
    | none => s
  | .l1Dirty core line bytes =>
    match s.l1 core line with
    | some l =>
      if l.dirty &&& bytes = 0 then s
      else (s.setL1 core line { l with poison := l.poison ||| (l.dirty &&& bytes), sent := l.resent bytes }).countUncorrected 1 (256 * line)
    | none => s
  | .l2Data line bytes =>
    match Tab.find s.l2 line, Tab.find s.hostL2 line with
    | some _, _ => (s.setPoison line bytes bytes).countUncorrected 4 (256 * line)
    | none, some l => ({ s with hostL2 := Tab.set s.hostL2 line { l with poison := l.poison ||| bytes } } : State).countUncorrected 4 (256 * line)
    | none, none => s
  | .l2Stamp line =>
    match Tab.find s.l2 line, homeOf (256 * line) with
    | some l, some k =>
      let t := (s.home k).mts + 1
      (({ s with l2 := Tab.set s.l2 line { l with wts := t, rts := t, cls := 0 } } : State).raiseMts k t).countCorrected 4
    | _, _ => s
  | .l2Host line =>
    match Tab.find s.l2 line with
    | some l =>
      -- a recall for its data alone that is already out becomes one to give the line up
      (match l.snoop with
        | some false => ({ s with l2 := Tab.set s.l2 line { l with snoop := some true } } : State).emit (.bisnp line true)
        | _ => s.snoop line true false).countUncorrected 4 (256 * line)
    | none => s
  | .elsewhere unit addr => s.countUncorrected unit addr
  | .scratch team off =>
    match s.team team with
    | some _ =>
      if s.scratchSize team ≤ off then s
      else
        let base := off / 8 * 8
        (s.updTeam team (fun t => { t with scrPoison := t.scrPoison.filter (fun a => a / 8 != base / 8) ++ (List.range 8).map (base + ·) })).countUncorrected 2 off
    | none => s

/-! ## The events -/

def execHomeRenew (id : Nat) (s : State) : Host.Outcome State Fault Refusal := s.whileLive (fun s => s.homeRenew id)
def execRenewalReply (id : Nat) (s : State) : Host.Outcome State Fault Refusal := s.whileLive (fun s => s.renewalReply id)
def execHome1Read (id : Nat) (s : State) : Host.Outcome State Fault Refusal := s.whileLive (fun s => s.home1Read id)
def execHomeWriteback (id : Nat) (s : State) : Host.Outcome State Fault Refusal := s.whileLive (fun s => s.homeWriteback id)
def execWritebackReply (id : Nat) (s : State) : Host.Outcome State Fault Refusal := s.whileLive (fun s => s.writebackReply id)
def execHomeAtomic (id : Nat) (s : State) : Host.Outcome State Fault Refusal := s.whileLive (fun s => s.homeAtomic id)
def execAtomicReply (id : Nat) (s : State) : Host.Outcome State Fault Refusal := s.whileLive (fun s => s.atomicReply id)
def execClockCreep (g : Agent) (s : State) : Host.Outcome State Fault Refusal := s.whileLive (fun s => s.clockCreep g)
def execL2SweepStep (k : Nat) (s : State) : Host.Outcome State Fault Refusal := s.whileLive (fun s => s.sweepStep k)
def execClockFloorBroadcast (s : State) : Host.Outcome State Fault Refusal := s.whileLive (fun s => s.floorBroadcast)
def execCacheError (site : EccSite) (s : State) : Host.Outcome State Fault Refusal := s.whileLive (fun s => s.cacheError site)

end Sys2Proof.Machine
end

