-- ==== Sys2Proof/Machine/Peers.lean ====
section
/-!
DEFINITION. Between packages and towards the host window: requests of peers (R128, R164), acknowledgements and datum windows (R144),
messages on Belcy (R24 to R26), completions at the host (R127).
-/

namespace Sys2Proof.Machine

/-! ## Requests of peers (R164) -/

/-- Bytes that a peer's operation touches. -/
def peerBytes (op : PeerOp) : Nat :=
  match op with | .read n => n | .write n _ => n | .atomic _ ty _ _ => Ty.bits ty / 8 | .reply .. => 0

def peerAccess (op : PeerOp) : Access :=
  match op with | .write .. => .write | .atomic .. => .atomic | _ => .read

/-- The atomic operation of a peer's request. -/
def peerAtom (op : PeerOp) : Option AtomOp :=
  match op with | .atomic o ty b cmp => some { op := o, ty := ty, b := b, cmp := cmp } | _ => none

/-- A peer's access that goes on to a home, with the clock of that home, or to the host. -/
def State.peerToHome (s : State) (p : PeerWait) (pa : Nat) (leaf : W64) (home2 : Bool) : State :=
  let n := (peerBytes p.op)
  let off := pa % 256
  let kind : ReqKind := match p.op with
    | .write _ data => .wback (lineOf off (data.toNat % 2 ^ (8 * n))) (byteRange off n) none 0
    | .atomic o ty b cmp => .atomic off { op := o, ty := ty, b := b, cmp := cmp }
    | _ => .read1
  ({ s with peerIn := s.peerIn ++ [p] } : State).send (.peer p.chip) 0 (pa / 256) (pteKey leaf) noPart home2 0 kind [.peer p.id off n]

/-- A peer's access goes on to the host, under the PASID of its request. -/
def State.peerHostSend (s : State) (p : PeerWait) (pa : Nat) : State :=
  let n := (peerBytes p.op)
  let write := (peerAccess p.op) != .read
  let data := match p.op with | .write _ d => d | _ => 0
  s.hostSend p.pasid 160 noPart pa n write (!write) data (peerAtom p.op) (.peer p.id (pa % 256) n)

/-- A peer's access to the host window. Where ATS holds no translation, the bridge asks through PRI, and the request waits (R63); which
pages ATS translates is the host's: open (log entry 4). -/
def State.peerToHost (s : State) (p : PeerWait) (pa : Nat) : State :=
  let (f, s) := s.free
  let s : State := { s with peerIn := s.peerIn ++ [p] }
  if f.getLsbD 0 then
    ({ s with pris := s.pris ++ [{ id := p.id, pa := pa, asid := p.pasid, who := .peer p.id, ticket := p.id }] } : State).emit
      (.ats (pa / 2 ^ 48 % 4) pa p.pasid)
  else s.peerHostSend p pa

/-- A peer's HOME 3 access, past the L2 and without a clock (R109). -/
def State.peerRaw (s : State) (p : PeerWait) (pa : Nat) (key : BitVec 6) : State :=
  let n := (peerBytes p.op)
  let off := pa % 256
  let ask (kind : ReqKind) : State :=
    ({ s with peerIn := s.peerIn ++ [p] } : State).send (.peer p.chip) 0 (pa / 256) key noPart false 0 kind [.peer p.id off n]
  match p.op with
  | .read _ => ask .rawRead
  | .write _ d => ask (.rawWrite (lineOf off (d.toNat % 2 ^ (8 * n))) (byteRange off n))
  | _ => s.peerAnswer p 0 .permission

/-- A translated request of a peer reaches its target. -/
def State.peerReach (s : State) (p : PeerWait) (pa : Nat) (leaf : W64) : State :=
  let n := (peerBytes p.op)
  match targetOf pa leaf with
  | .leased _ h2 => if s.keyValid.getLsbD (pteKey leaf).toNat then s.peerToHome p pa leaf h2 else s.peerAnswer p 0 .keyInvalid
  | .home1 _ => if s.keyValid.getLsbD (pteKey leaf).toNat then s.peerToHome p pa leaf false else s.peerAnswer p 0 .keyInvalid
  | .untimed _ => if s.keyValid.getLsbD (pteKey leaf).toNat then s.peerRaw p pa (pteKey leaf) else s.peerAnswer p 0 .keyInvalid
  | .regs =>
    if n != 8 || pa % 8 != 0 then s.peerAnswer p 0 .permission
    else match p.op with
      | .read _ => let (v, s) := s.regRead (regOf pa); s.peerAnswer p v.toNat .none
      | .write _ d => (s.regWriteBy (regOf pa) (d.setWidth 64)).peerAnswer p 0 .none
      | _ => s.peerAnswer p 0 .permission
  | .host port =>
    if (match (peerAtom p.op) with | some o => !hostAtomic o | none => false) then s.peerAnswer p 0 .permission
    else if (s.ports.getD port {}).down then s.peerAnswer p 0 .hostPath
    else s.peerToHost p pa
  | .peer => s.peerAnswer p 0 .peerPath
  | .none => (s.logStray pa).peerAnswer p 0 .none

/-- A fault of a peer's request goes to the service cores of this package. -/
def State.peerFault (s : State) (p : PeerWait) : State :=
  let req : FaultReq := { id := p.id, asid := p.pasid, va := p.va, access := (peerAccess p.op), who := .peer p.id }
  ({ s with peerIn := s.peerIn ++ [p], faults := s.faults ++ [req] } : State).emit (.fault p.id p.pasid p.va)

/-- A peer's request whose walk meets a line that a host holds waits as a walk of its own, of the same number. -/
def State.peerLater (s : State) (p : PeerWait) : State :=
  { s with peerIn := s.peerIn ++ [p]
           walks := s.walks ++ [{ id := p.id, die := 0, asid := p.pasid, va := p.va, access := peerAccess p.op,
                                  waiters := [{ who := .peer p.id, va := p.va, access := peerAccess p.op }] }] }

/-- A request of a peer is translated under its PASID and served; its bytes lie within one 64-byte sector, as R128 and R163 send
them. -/
def State.servePeer (s : State) (p : PeerWait) : State :=
  match rangeFault p.va (peerBytes p.op) with
  | some c => s.peerAnswer p 0 c
  | none =>
    if s.parkHeld p.pasid then (s.recallPark p.pasid).peerLater p
    else if !s.peerOk p.pasid then (s.logMaybe (strayOf (s.asidAddr p.pasid))).peerAnswer p 0 .peerPath
    else match s.walk 0 p.pasid p.va with
      | .fault stray => (match stray with | some pa => s.logStray pa | none => s).peerFault p
      | .wait pa => (s.snoop (pa / 256) false false).peerLater p
      | .leaf w =>
        if !permits w.leaf (peerAccess p.op) false then s.peerFault p
        else if !s.adReady w (peerAccess p.op) false then (s.snoop (w.entry / 256) true true).peerLater p
        else
          let (leaf, s) := s.setAd w (peerAccess p.op) false
          s.peerReach p (leafPa leaf (pageSize w.level leaf) p.va) leaf

def State.peerRequest (s : State) (chip : Nat) (pasid : W16) (va : W64) (op : PeerOp) (edge : W64) : State :=
  let n := (peerBytes op)
  if n = 0 || decide (64 < va.toNat % 64 + n) then s
  else
    let (id, s) := s.newId
    s.servePeer { id := id, chip := chip, pasid := pasid, va := va, op := op, edge := edge }

/-! ## Answers from peers (R128, R144) -/

/-- REMOTE_WRITE_ACK. -/
def State.remoteAck (s : State) (id : Nat) (c : Cause) : State :=
  match s.remotes.find? (fun r => r.id == id) with
  | none => s
  | some r => ({ s with remotes := s.remotes.filter (fun o => o.id != id) } : State).answerWrite r.owner r.core none c

/-- The core of whoever awaits an answer. -/
def State.awaitCore (s : State) (a : Await) : Option Nat :=
  match a with
  | .flight g .. => some (agentCore g)
  | .prefetch c => some c
  | .fetch g => some (agentCore g)
  | .engine (.mx w _) .. => some (w / 128)
  | .engine (.cmd id) .. => (s.cmds.find? (fun c => c.id == id)).map (·.core)
  | _ => none

/-- A sector of a peer line enters the L1 (R128); the line keeps the window of its first fill while it lives. -/
def State.fillPeer (s : State) (core line sector : Nat) (data : Line) : State :=
  let now := s.datum / 1000
  let (l, s) := s.takeL1 core line 0 0 false
  let live := match l.peer with | some n => decide (now < n + 2) | none => false
  let bit : BitVec 4 := BitVec.ofNat 4 (2 ^ sector)
  s.setL1 core line { l with
    data := mergeLine l.data data (sectorBytes bit)
    valid := if live then l.valid ||| bit else bit
    known := false
    peer := if live then l.peer else some now }

/-- The answer to a read or an atomic of this chip. -/
def State.peerReplied (s : State) (id : Nat) (data : BitVec 512) (c : Cause) : State :=
  match s.peerOut.find? (fun p => p.id == id) with
  | none => s.remoteAck id c
  | some p =>
    let s : State := { s with peerOut := s.peerOut.filter (fun o => o.id != id), remotes := s.remotes.filter (fun o => o.id != id) }
    let line := lineOf (p.pa % 256) data.toNat
    let s : State := if p.await = .none then
      { s with hwLines := Tab.set s.hwLines (p.pa / 64) (s.datum / 1000, if c = Cause.none then some data else none) } else s
    let s := match p.op, s.awaitCore p.await with
      | .read _, some core => if c = Cause.none && !p.stale then s.fillPeer core (p.pa / 256) (p.pa % 256 / 64) line else s
      | _, _ => s
    (s.meetFar p.await (p.pa / 256)).answerRead p.await line 0 c none

/-! ## Datum windows (R144, R128) -/

/-- Expired peer lines leave every L1; windows whose writes no release waits for any more are forgotten. -/
def State.expirePeers (s : State) : State :=
  let now := s.datum / 1000
  let old (l : L1Line) : Bool := match l.peer with | some n => decide (n + 2 ≤ now) | none => false
  { s with
    cores := s.cores.map (fun e => (e.1, { e.2 with l1 := e.2.l1.filter (fun l => !old l.2) }))
    hwLines := s.hwLines.filter (fun l => decide (now < l.2.1 + 2))
    sent := s.sent.filter (fun x => decide (now < x.window + 2) ||
      (x.late && s.remotes.any (fun r => r.core == x.core && r.window == x.window))) }

def State.windowStart (s : State) : State := if s.datum / 1000 = s.window then s else s.rollWindow.expirePeers

/-! ## Belcy (R24 to R26) -/

/-- A request that no port leads on is not sent: it completes with PEER_PATH at its issuer, to which this chip answers (R25). An answer that no
port leads on is lost. -/
def State.refuseTransit (s : State) (src : Nat) (edge : W64) (op : PeerOp) (pasid : W16) (va : W64) : State :=
  match op with
  | .reply .. => s
  | _ =>
    let (id, s) := s.newId
    s.peerAnswer { id := id, chip := src, pasid := pasid, va := va, op := op, edge := edge } 0 .peerPath

/-- A message is sent on towards another chip: by a port of the same I/O die, or of the other one across DL12 (R25). It keeps its source. -/
def State.forward (s : State) (io dest src : Nat) (edge : W64) (op : PeerOp) (pasid : W16) (va : W64) : State :=
  match s.pickPort io src dest va.toNat with
  | none => s.refuseTransit src edge op pasid va
  | some port => ((s.rollWindow).admitBytes port ((peerBytes op) + 32) false).emit (.peer 0 port src dest pasid va op edge)

/-- BELCY_MESSAGE_ARRIVE: nothing is accepted before LOCK. -/
def State.belcyArrive (s : State) (port dest src : Nat) (edge : W64) (op : PeerOp) (pasid : W16) (va : W64) : State :=
  if !s.chipcfg.getLsbD 16 then s
  else if dest % 1024 != s.chipcfg.toNat % 1024 then s.forward (port / 64 % 2) (dest % 1024) src edge op pasid va
  else match op with
    | .reply id data c => s.peerReplied id data c
    | _ => s.peerRequest src pasid va op edge

/-- BELCY_LANE_FAIL: a lane event, counted, and the window is late at the port. -/
def State.laneFail (s : State) (port : Nat) : State :=
  let s := s.rollWindow
  let b := Tab.get {} s.belcy port
  if decide (128 ≤ port) || decide (2 ≤ b.lanesDown) then s
  else
    let s : State := { s with belcy := Tab.put {} s.belcy port { b with lanesDown := b.lanesDown + 1, lateNow := true } }
    (s.updCounts (fun c => { c with laneEvents := bump c.laneEvents port })).emit (.laneEvent port)

/-! ## The host window (R127) -/

/-- A line that a host holds stands in the way of a line of the host window: it is recalled first (R60). -/
def State.hostBlocks (s : State) (t : HostTxn) : Option Nat :=
  if !t.fill || (Tab.find s.hostL2 t.line).isSome then none else s.wayHolder (hostHome t.line) t.line t.part

/-- A way for a line of the host window in the L2 of its I/O die (R127). -/
def State.hostRoom (s : State) (line part : Nat) : Nat × State :=
  match Tab.find s.hostL2 line with
  | some l => (l.way, s)
  | none => s.findWay (hostHome line) line part

/-- HOST_WINDOW_COMPLETION: a read fills the L2 of the I/O die, with the bytes of writes that are on their way or came later laid over it; its
reader receives the bytes with those of the writes sent before it. A write ends a wait. A transaction that the host fails ends with
HOST_PATH. -/
def State.hostDone (s : State) (id : Nat) (data : Line) (ok : Bool) : State :=
  match s.hostTxns.find? (fun t => t.id == id) with
  | none => s
  | some t =>
    let s : State := { s with hostTxns := s.hostTxns.filter (fun o => o.id != id) }
    let c : Cause := if ok then .none else .hostPath
    let before := s.hostTxns.foldl (fun d o =>
      if o.write && o.line == t.line && o.atom.isNone && decide (o.id < t.id) then
        mergeLine d (lineOf (o.pa % 256) o.data.toNat) (byteRange (o.pa % 256) o.n) else d) data
    let s : State := if t.fill && ok then
        let (w, s) := s.hostRoom t.line t.part
        { s with hostL2 := Tab.set s.hostL2 t.line { data := mergeLine before t.laterData t.later, filled := s.time, way := w } }
      else if !t.write && t.await == .none then { s with hwLines := (List.range 4).foldl (fun l i => Tab.set l (4 * t.line + i) (s.datum / 1000, none)) s.hwLines }
      else s
    if t.write && t.atom.isNone then s.answerWrite t.await t.core none c else (s.meetFar t.await t.line).answerRead t.await before 0 c none

/-! ## The events -/

def execPeerRequest (chip : Nat) (pasid : W16) (va : W64) (op : PeerOp) (s : State) : Host.Outcome State Fault Refusal :=
  s.whileLive (fun s => if s.chipcfg.getLsbD 16 then s.peerRequest chip pasid va op 0 else s)

/-- The acknowledgement of a core's write, which has waited since a time, arrives or waits on. -/
def State.ackFlit (s : State) (since id : Nat) : State := if s.flitShut (.ack id) then s.holdFlit since (.ack id) else s.remoteAck id Cause.none

def execRemoteWriteAck (id : Nat) (s : State) : Host.Outcome State Fault Refusal := s.whileLive (fun s => s.ackFlit s.time id)
def execDatumWindowStart (s : State) : Host.Outcome State Fault Refusal := s.whileLive (fun s => s.windowStart)
/-- A message at a port. -/
def State.peerFlit (s : State) (since port dest src : Nat) (edge : W64) (op : PeerOp) (pasid : W16) (va : W64) : State :=
  let f : Flit := .peer port dest src edge op pasid va
  if s.flitShut f then s.holdFlit since f else s.belcyArrive port dest src edge op pasid va

def execBelcyMessageArrive (port dest src : Nat) (edge : W64) (op : PeerOp) (pasid : W16) (va : W64) (s : State) :
    Host.Outcome State Fault Refusal :=
  s.whileLive (fun s => s.peerFlit s.time port dest src edge op pasid va)
def execBelcyLaneFail (port : Nat) (s : State) : Host.Outcome State Fault Refusal := s.whileLive (fun s => s.laneFail port)
/-- A host's answer: it waits for a line of its set that a host must give back, and for its way. -/
def State.hostFlit (s : State) (since id : Nat) (data : Line) (ok : Bool) : State :=
  match s.hostTxns.find? (fun t => t.id == id) with
  | none => s
  | some t =>
    match s.hostBlocks t with
    | some n => (s.snoop n true false).holdFlit since (.hostDone id data ok)
    | none => if s.flitShut (.hostDone id data ok) then s.holdFlit since (.hostDone id data ok) else s.hostDone id data ok

def execHostWindowCompletion (id : Nat) (data : Line) (ok : Bool) (s : State) : Host.Outcome State Fault Refusal :=
  s.whileLive (fun s => s.hostFlit s.time id data ok)

/-- A held answer tries again. -/
def State.flitAgain (s : State) (since : Nat) (f : Flit) : State :=
  match f with
  | .hostDone id data ok => s.hostFlit since id data ok
  | .ack id => s.ackFlit since id
  | .peer port dest src edge op pasid va => s.peerFlit since port dest src edge op pasid va
  | .answer p v c => s.peerAnswer p v c

end Sys2Proof.Machine
end

