-- ==== Sys2Proof/Machine/Waiting.lean ====
section
/-!
DEFINITION. The events of issue and waiting (R93, R98, R162, R201 to R204, R259, R261) and of translation (R158 to R161, R165, R166).
-/

namespace Sys2Proof.Machine

/-! ## Tags (R261) -/

/-- A flight whose bytes are all there, or whose lanes have all gone and which no engine holds. -/
def State.flightOver (s : State) (g : Agent) (f : Flight) : Bool :=
  let held : Bool := match g with
    | .warp w => (match s.warp w with | some x => x.mxq.any (fun o => o.flight == f.id) | none => false)
    | .ct _ => false
  f.missing == 0 || (f.form == .ready && !f.svc && f.lanes &&& ~~~f.dead == 0 && !held)

/-- TAG_FREE: the result that holds a tag lands in its lanes and frees the tag; branches that waited for it resolve (R93). -/
def State.tagFree (s0 : State) (g : Agent) (tag : Nat) : State :=
  let s := s0.land g
  match s.ctx g with
  | none => s
  | some c =>
    match c.flights.find? (fun f => tag != 0 && f.tag == tag) with
    | some f =>
      if s.flightOver g f then
        let s := s.finishFlight g f
        match g with | .warp w => s.settleSpec w | .ct _ => s
      else s
    | none => s

/-! ## Deferred calls (R204) -/

/-- The record of a completed deferred call. -/
def deferredRec (d : Deferred) (value : W64) (err : Bool) : EvRec :=
  evRec 3 (if err then 1 else 0) (if err then .serviceError else .none) 0 d.csn d.request d.cpc value 0 0

/-- DEFERRED_CALL_COMPLETE: the record goes to the team's queue, is held for a saved team, and is dropped when the team has ended, another
grid's team by the same numbers notwithstanding. -/
def State.deferredDone (s0 : State) (t : Nat) (request : W32) (value : W64) (err : Bool) : State :=
  match s0.deferred.find? (fun d => d.team == t && d.request == request) with
  | none => s0
  | some d =>
    let s : State := { s0 with deferred := s0.deferred.filter (fun o => o != d) }
    let r := deferredRec d value err
    if (match s.grid d.grid with | some g => g.order != d.order | none => true) then s
    else s.teamRecord d.grid d.num r

/-! ## Replies to faults (R98, R162, R82) -/

/-- A reply is kept with a ticket. -/
def keepReply (id : Nat) (a : Option Cause) (ts : List Ticket) : List Ticket :=
  ts.map (fun t => if t.id = id then { t with reply := some a } else t)

/-- A reply for a saved team waits with it. -/
def SavedTeam.keep (x : SavedTeam) (id : Nat) (a : Option Cause) : SavedTeam :=
  { x with
    team := { x.team with ctTicket := x.team.ctTicket.map (fun t => if t.id = id then { t with reply := some a } else t) }
    warps := x.warps.map (fun w => { w with forced := w.forced.map (fun y => { y with tickets := keepReply id a y.tickets }) }) }

/-- A control thread leaves the parked state; an error is raised when it executes again. -/
def Team.answerCt (t : Team) (a : Option Cause) : Team :=
  match t.ctTicket with
  | some k => { t with ctTicket := none, ctFault := a.map (fun c => { cause := c, va := Tab.get 0 k.vas 0, pc := t.cpc }) }
  | none => t

/-- The answer of a ticket reaches its lanes: at once, or after handler mode, or after the restore. -/
def State.answerTicket (s : State) (id : Nat) (a : Option Cause) : State :=
  match s.warps.find? (fun e => e.2.tickets.any (fun t => t.id == id)) with
  | some (w, _) => s.updWarp w (fun x =>
      if x.ctx.handler || x.ctx.saved then { x with tickets := keepReply id a x.tickets }
      else match x.tickets.find? (fun t => t.id == id) with
        | some t => x.answer t a (some (s.time / 50))
        | none => x)
  | none =>
    match s.teams.find? (fun e => match e.2.ctTicket with | some t => t.id == id | none => false) with
    | some (t, x) =>
      if x.ct.saved then s.updTeam t (fun x => { x with ctTicket := x.ctTicket.map (fun k => { k with reply := some a }) })
      else s.updTeam t (fun x => x.answerCt a)
    | none => { s with grids := s.grids.map (fun e => (e.1, { e.2 with saved := e.2.saved.map (fun x => x.keep id a) })) }

/-- A suspended engine command goes on, or fails (R181, R194). -/
def State.answerEngine (s : State) (r : EngRef) (va : W64) (a : Option Cause) : State :=
  match a with
  | some c => s.engFail r c va
  | none =>
    match r with
    | .cmd id => { s with cmds := s.cmds.map (fun c => if c.id = id then { c with suspended := none } else c) }
    | .mx w id => s.updWarp w (fun x => { x with mxq := x.mxq.map (fun o => if o.id = id then { o with stopped := none } else o) })

/-- The engine commands of saved teams keep an answer too. -/
def State.answerSavedEngine (s : State) (r : EngRef) (a : Option Cause) : State :=
  let upd (c : Cmd) : Cmd :=
    if r = .cmd c.id then (match a with | some k => { c with failed := some (c.failed.getD k), suspended := none } | none => { c with suspended := none })
    else c
  { s with grids := s.grids.map (fun e => (e.1, { e.2 with saved := e.2.saved.map (fun x => { x with cmds := x.cmds.map upd }) })) }

/-- A peer's request that waited here is taken up again. -/
def State.peerTake (s : State) (id : Nat) (f : State → PeerWait → State) : State :=
  match s.peerIn.find? (fun p => p.id == id) with
  | none => s
  | some p => f { s with peerIn := s.peerIn.filter (fun o => o.id != id) } p

/-- Whoever waited on a fault gets the answer. -/
def State.answerWho (s : State) (id : Nat) (va : W64) (who : Waiter) (a : Option Cause) : State :=
  match who with
  | .lanes _ _ => s.answerTicket id a
  | .engine r => (s.answerEngine r va a).answerSavedEngine r a
  | .peer pid => s.peerTake pid (fun s p => match a with | none => s.servePeer p | some c => s.peerAnswer p 0 c)
  | .grid e => s.updGrid e (fun g => { g with compl := if a.isNone then .ready else .failed })
  | _ => s

def State.faultReply (s : State) (id : Nat) (a : FaultAnswer) : State :=
  match s.faults.find? (fun f => f.id == id) with
  | none => s
  | some f => ({ s with faults := s.faults.filter (fun o => o.id != id) } : State).answerWho id f.va f.who (answerCause a)

/-- PRI_REPLY (R63): the page is there now, or the access ends with HOST_PATH. A read that the hardware makes, and a peer's access, go on to
the host; lanes, engines and completion records go on as after a fault. -/
def State.priReply (s : State) (id : Nat) (ok : Bool) : State :=
  match s.pris.find? (fun p => p.id == id) with
  | none => s
  | some p =>
    let s : State := { s with pris := s.pris.filter (fun o => o.id != id) }
    match p.who with
    | .hw core part =>
      if ok then
        s.hostTxn { g := noAgent, core := core, team := 0, grid := 0, asid := p.asid, part := part, handler := false } (p.pa / 256 * 256) 64 false true 0 none .none
      else { s with hwLines := (List.range 4).foldl (fun l i => Tab.set l (4 * (p.pa / 256) + i) (s.datum / 1000, none)) s.hwLines }
    | .peer pid => s.peerTake pid (fun s q => if ok then s.peerHostSend { q with id := pid } p.pa else s.peerAnswer q 0 .hostPath)
    | .engine (.mx w oid) =>
      let done := match (s.warp w).bind (fun x => x.mxq.find? (fun o => o.id == oid)) with | some o => o.done | none => 0
      s.answerWho p.ticket (s.engVa (.mx w oid) done 0) p.who (if ok then none else some .hostPath)
    | who => s.answerWho p.ticket 0 who (if ok then none else some .hostPath)

/-! ## Page walks (R150, R158 to R161) -/

/-- A control thread, or an agent that runs a program buffer, waits for a walk. -/
def State.holdsWalk (s : State) (g : Agent) (id : Nat) : Bool :=
  (s.ctx g).any (fun c => match c.hold with | .walk ids => ids.contains id | _ => false)

/-- The lanes of an agent, among some, that still wait for a walk. -/
def State.walkWaits (s : State) (g : Agent) (m : Mask) (id : Nat) : Mask :=
  if s.holdsWalk g id then m
  else match g with
    | .ct _ => 0
    | .warp w => match s.warp w with
      | some x => m &&& maskOf ((x.blocks.filter (fun b => match b.2.why with | .walk ids => ids.contains id | _ => false)).map (·.1))
      | none => 0

/-- A control thread, or an agent that runs a program buffer, waits for one walk less. -/
def Ctx.walked (c : Ctx) (id : Nat) : Ctx :=
  match c.hold with
  | .walk ids => let left := ids.filter (· != id); { c with hold := if left.isEmpty then .none else .walk left }
  | _ => c

/-- A blocked lane that waits for a walk does so no longer; it goes back to its instruction with the last of them. -/
def Block.walked (b : Block) (id : Nat) : Option Block :=
  match b.why with
  | .walk ids =>
    if ids.contains id then
      let left := ids.filter (· != id)
      if left.isEmpty then none else some { b with why := .walk left }
    else some b
  | _ => some b

/-- An agent waits for one walk less. -/
def State.walkEnds (s : State) (g : Agent) (id : Nat) : State :=
  let s := s.updCtx g (fun c => c.walked id)
  match g with
  | .ct _ => s
  | .warp w => s.updWarp w (fun x => { x with blocks := x.blocks.filterMap (fun b => (b.2.walked id).map (fun y => (b.1, y))) })

/-- Whether a waiter of a walk acts in handler mode. -/
def State.inHandler (s : State) (who : Waiter) : Bool :=
  match who with
  | .lanes g _ => (match s.ctx g with | some c => c.handler | none => false)
  | _ => false

/-- A leaf permits the access of a waiter (R155). -/
def State.letsIn (s : State) (leaf : W64) (x : WalkWaiter) : Bool := permits leaf x.access (s.inHandler x.who)

/-- Lanes whose access a walk did not serve: they park or raise the cause when they execute again (R161). Under speculation the cause is only
noted, for the deferred condition of their entry (R92); a fetch of a guessed path notes nothing. -/
def State.walkOwes (s : State) (asid : W16) (g : Agent) (lanes : Mask) (va : W64) (access : Access) (cause : Cause) : State :=
  let guess : Bool := match g with | .warp w => (match s.warp w with | some x => x.speculating | none => false) | .ct _ => false
  if guess then
    if access = .fetch then s
    else match g with
      | .warp w => s.updWarp w (fun x => { x with
          unpend := (lanesOf lanes).foldl (fun u j =>
            oweIn u j { cause := cause, va := va, pc := Tab.get 0 x.lpc j, guess := true, handler := x.ctx.handler }) x.unpend })
      | .ct _ => s
  else if s.parks asid then s.park g asid lanes va access
  else s.owe g lanes cause va none

/-- A waiter of a walk that found no leaf for its access: each answers for its own address (R157). A word of a program buffer stops it with the
cause (R235). A peer's request faults at this package
(R164). -/
def State.walkFails (s : State) (k : Walk) (x : WalkWaiter) (cause : Cause) : State :=
  match x.who with
  | .lanes g m =>
    let m := s.walkWaits g m k.id
    if m = 0 then s
    else if s.buffers g && s.holdsWalk g k.id then (s.walkEnds g k.id).updCtx g (fun c => { c with trap := some { lanes := m, cause := cause, pc := bufferPc, addr := x.va } })
    else (s.walkEnds g k.id).walkOwes k.asid g m x.va x.access cause
  | .engine r => s.setNoPage r (some (x.va, cause))
  | .peer id => s.peerTake id (fun s p => s.servePeer p)
  | _ => s

/-- A waiter goes on after a walk that is over. -/
def State.walkHelps (s : State) (id : Nat) (x : WalkWaiter) : State :=
  match x.who with
  | .lanes g _ => s.walkEnds g id
  | .prefetch g l2 => (match s.who g with | some w => s.prefAt w l2 x.va | none => s)
  | .peer pid => s.peerTake pid (fun s p => s.servePeer p)
  | _ => s

/-- A and D of a leaf for the waiters that it lets in (R154). -/
def State.setAds (s : State) (f : Walked) (xs : List WalkWaiter) : Walked × State :=
  xs.foldl (fun r x => let (leaf, s) := r.2.setAd r.1 x.access (s.inHandler x.who); ({ r.1 with leaf := leaf }, s)) (f, s)

/-- A leaf is installed, and the walks that it answers end. -/
def State.walkFound (s : State) (k : Walk) (f : Walked) : State :=
  let e := leafEntry k.asid k.va f f.leaf
  let inside (o : Walk) : Bool := o.die == k.die && o.asid == k.asid && !o.stale && tlbHit k.asid o.va e
  let also := s.walks.filter inside
  let s : State := { s with walks := s.walks.filter (fun o => !inside o) }
  let s := s.installWalk k.die k.asid f.read
  let all := k.waiters ++ also.flatMap (·.waiters)
  let s := (dedup (all.filterMap (fun x => s.waiterCore x.who))).foldl (fun s c => s.installTlb c e) s
  let s := k.waiters.foldl (fun s x => s.walkHelps k.id x) s
  also.foldl (fun s o => o.waiters.foldl (fun s x => s.walkHelps o.id x) s) s

/-- PAGE_WALK_COMPLETE: one of the walks that a die's walkers run (R158) ends. It stays where a line that it needs must first be recalled from
a host. The results of a walk that was in flight when an invalidation was posted are not installed (R166); nor is a leaf that permits none
of the accesses that wait for it (R158). A leaf answers the waiting walks of other pages inside it (R159). -/
def State.walkComplete (s0 : State) (id : Nat) : State :=
  match s0.walks.find? (fun k => k.id == id) with
  | none => s0
  | some k =>
    if !(s0.running k.die).any (fun o => o.id == id) then s0
    else
      let s : State := { s0 with walks := s0.walks.filter (fun o => o.id != id) }
      if s0.parkHeld k.asid then s0.recallPark k.asid else
      match s0.walk k.die k.asid k.va with
      | .wait pa => s0.snoop (pa / 256) false false
      | .fault stray =>
        let s := match stray with | some pa => s.logStray pa | none => s
        if k.stale then k.waiters.foldl (fun s x => s.walkHelps id x) s else k.waiters.foldl (fun s x => s.walkFails k x .translation) s
      | .leaf f =>
        let may := k.waiters.filter (s0.letsIn f.leaf)
        if k.stale then k.waiters.foldl (fun s x => s.walkHelps id x) s
        else if may.isEmpty then k.waiters.foldl (fun s x => s.walkFails k x .permission) s
        else if may.any (fun x => !s0.adReady f x.access (s0.inHandler x.who)) then s0.snoop (f.entry / 256) true true
        else
          let (f, s) := s.setAds f may
          s.walkFound k f

/-! ## Invalidations (R165, R166) -/

/-- TLB_INVALIDATION_COMPLETE: the oldest invalidation, later than the cycle of its post, once the walks and the accesses that it
found in flight are over. -/
def State.invalDone (s : State) : State :=
  match s.invals with
  | [] => s
  | v :: rest =>
    let uses := s.usesNow
    if s.time / 50 ≤ v.posted / 50 || v.walks.any (fun w => s.walks.any (fun k => k.id == w)) || v.uses.any uses.contains then s
    else { s with invals := rest, tlbDone := s.tlbDone + 1 }

/-! ## The events -/

def execBranchResolve (w : Nat) (s : State) : Host.Outcome State Fault Refusal := s.whileLive (fun s => s.land (.warp w))
def execTagFree (g : Agent) (tag : Nat) (s : State) : Host.Outcome State Fault Refusal := s.whileLive (fun s => s.tagFree g tag)
def execNapExpire (w : Nat) (s : State) : Host.Outcome State Fault Refusal := s.whileLive (fun s => s.napExpire w)
def execEvwaitTimeout (t : Nat) (s : State) : Host.Outcome State Fault Refusal := s.whileLive (fun s => s.evwaitExpire t)
def execSvcReply (w : Nat) (value : W64) (err : Bool) (s : State) : Host.Outcome State Fault Refusal :=
  s.whileLive (fun s => s.svcAnswer w value err)
def execDeferredCallComplete (t : Nat) (request : W32) (value : W64) (err : Bool) (s : State) : Host.Outcome State Fault Refusal :=
  s.whileLive (fun s => s.deferredDone t request value err)
def execFaultReply (ticket : Nat) (answer : FaultAnswer) (s : State) : Host.Outcome State Fault Refusal :=
  s.whileLive (fun s => s.faultReply ticket answer)
def execPriReply (request : Nat) (ok : Bool) (s : State) : Host.Outcome State Fault Refusal := s.whileLive (fun s => s.priReply request ok)
def execFixedLatencyResultLand (g : Agent) (lanes : Mask) (s : State) : Host.Outcome State Fault Refusal :=
  s.whileLive (fun s => s.landIn g lanes)
def execPageWalkComplete (walk : Nat) (s : State) : Host.Outcome State Fault Refusal := s.whileLive (fun s => s.walkComplete walk)
def execTlbinvLeaf (asid : W16) (s : State) : Host.Outcome State Fault Refusal := s.whileLive (fun s => s.postInval 0 asid s.tlbinv0)
def execTlbinvAsid (asid : W16) (s : State) : Host.Outcome State Fault Refusal := s.whileLive (fun s => s.postInval 1 asid s.tlbinv0)
def execTlbinvNonglobal (s : State) : Host.Outcome State Fault Refusal := s.whileLive (fun s => s.postInval 2 0 s.tlbinv0)
def execTlbinvAll (s : State) : Host.Outcome State Fault Refusal := s.whileLive (fun s => s.postInval 3 0 s.tlbinv0)
def execTlbInvalidationComplete (s : State) : Host.Outcome State Fault Refusal := s.whileLive (fun s => s.invalDone)

/-! ## Engines: the events whose meanings stand with the engines -/

def execMatrixPassStart (core : Nat) (s : State) : Host.Outcome State Fault Refusal := s.whileLive (fun s => s.passStart core)
def execMatrixPassWrite (core : Nat) (s : State) : Host.Outcome State Fault Refusal := s.whileLive (fun s => s.passWrite core)
def execAccPortOperation (core : Nat) (s : State) : Host.Outcome State Fault Refusal := s.whileLive (fun s => s.portMove core)
/-- R39, R181: the error of an accumulator tile is counted and recorded too. -/
def execEngineUncorrectable (w tile : Nat) (s : State) : Host.Outcome State Fault Refusal :=
  s.whileLive (fun s =>
    if (s.warp w).any (fun x => (s.team x.ctx.team).any (fun t => decide (tile < s.accOf t.grid))) then (s.engineError w tile).countUncorrected 3 (128 * w + tile) else s)
def execTransferPieceLand (cmd : Nat) (s : State) : Host.Outcome State Fault Refusal := s.whileLive (fun s => s.pieceLand cmd)
def execTransferPieceFault (cmd : Nat) (s : State) : Host.Outcome State Fault Refusal := s.whileLive (fun s => s.pieceFault cmd)
def execMulticastAck (cmd rank : Nat) (s : State) : Host.Outcome State Fault Refusal := s.whileLive (fun s => s.castAck cmd rank)
def execScheduleDescriptorIssue (t : Nat) (s : State) : Host.Outcome State Fault Refusal := s.whileLive (fun s => s.schedIssue t)

end Sys2Proof.Machine
end

