-- ==== Sys2Proof/Machine/LaunchFront.lean ====
section
/-!
DEFINITION. The launch front and the dispatch units: consuming records (R49, R50), checking them (R52, R53, R274 to R280), tokens and
slot masks (R64, R67, R68), placement (R65, R66, R70, R71), the start of a team (R72, R73, R196, R217, R281), its exit (R103, R124),
retirement and completion (R55, R64, R67).
-/

namespace Sys2Proof.Machine

/-! ## Consuming records (R49, R50) -/

/-- Bits of the second configuration word of a queue (R45). -/
def qAsid (w : W64) : W16 := w.setWidth 16
def qVec (w : W64) : Nat := w.toNat / 2 ^ 16 % 4096
def qPort (w : W64) : Nat := w.toNat / 2 ^ 28 % 4
def qIrq (w : W64) : Bool := w.getLsbD 30

/-- The grid of the record at the HEAD of a queue (R50, R53, R65). -/
def State.consumed (s : State) (q : Nat) (raw : BitVec 1024) : Grid :=
  let x := s.queue q
  { seq := s.launchSeq
    queue := some q
    index := x.head
    raw := raw
    rec_ := recOf raw
    hdr := noHeader
    asid := qAsid x.word1
    part := qPart x.word0
    rank := max (recOf raw).rank (qRank x.word0)
    depth := 0
    order := s.orderN
    token := BitVec.ofNat 64 (2 ^ 63 + q * 2 ^ 32 + x.head.toNat) }

/-- An agent of the launch front itself. -/
def frontWho (asid : W16) (part : Nat) : Who := { g := noAgent, core := 0, team := 0, grid := 0, asid := asid, part := part, handler := false }

/-- The same for a grid. -/
def Grid.who (g : Grid) : Who := frontWho g.asid g.part

/-- k pieces of n bytes one after another that the device itself reads under a grid's context, outside handler mode (log entry 38), with A of
the pages and the log of unpopulated addresses (R14, R154). -/
def State.hwTake (s : State) (die : Nat) (asid : W16) (part : Nat) (va : W64) (n k : Nat) : HwRead × State :=
  match k with
  | 0 => (.val 0, s)
  | j + 1 =>
    match s.hwRead die asid part va n false with
    | .wait pa => (.wait pa, s)
    | .fail c => (.fail c, s.hwTouch die asid part va n .read false)
    | .val v =>
      match (s.hwTouch die asid part va n .read false).hwTake die asid part (va + BitVec.ofNat 64 n) n j with
      | (.val r, s) => (.val (v + r * 2 ^ (8 * n)), s)
      | x => x

/-- The device's read of a record raises the clock of its home (R412): the rules give the read no clock of its own, and the model takes it for a
renewal (R111) with the home's clock, as R431 has it for the device's own writes (DEDUCED, log entry 11). -/
def State.ringRead (s : State) (k line : Nat) : State :=
  let s := (s.sweepFirst k line).fetchLine k line (s.slotOf line) noPart false
  match Tab.find s.l2 line with
  | none => s
  | some l =>
    let len := leaseLen l.cls
    let rts := serialMax l.rts (serialMax (l.wts + len) ((s.home k).mts + len))
    ({ s with l2 := Tab.set s.l2 line { l with rts := rts } } : State).raiseMts k rts

/-- RECORD_CONSUME: the record at HEAD is read through its home, which first recalls a copy that a host owns. 'bad' says that the
read returned uncorrectable data. -/
def State.recordConsume (s : State) (q : Nat) (bad : Bool) : State :=
  let x := s.queue q
  match s.freeEntry with
  | none => s
  | some entry =>
    if !qEn x.word0 || x.head == x.tail || x.overrun || x.recfault then s
    else
      let pa := qBase x.word0 + 128 * (x.head.toNat % 2 ^ (qLog x.word0 + 4))
      match s.hwPhys pa 128 none with
      | .wait p => s.fillHost (frontWho (qAsid x.word1) (qPart x.word0)) p
      | .fail _ => s.setQueue q { x with recfault := true }
      | .val v =>
        if bad then s.setQueue q { x with recfault := true }
        else
          let g := s.consumed q (BitVec.ofNat 1024 v)
          let s := match physKind pa with | .home k => s.ringRead k (pa / 256) | .none => s.logStray pa | _ => s
          let s := s.setQueue q { x with head := x.head + 1 }
          { s with grids := Tab.set s.grids entry g, launchSeq := s.launchSeq + 1, orderN := s.orderN + 1 }

/-! ## The checks of R52 -/

/-- Registers that a warp takes from its slot (R71). -/
def LaunchRec.warpRegs (r : LaunchRec) : Nat := (r.vregs + 7) / 8 * 8 * r.width
def LaunchRec.lanes (r : LaunchRec) : Nat := r.tx * r.ty * r.tz
def LaunchRec.warps (r : LaunchRec) : Nat := (r.lanes + r.width - 1) / r.width
def LaunchRec.teams (r : LaunchRec) : Nat := r.gx * r.gy * r.gz

/-- What a slot has to give: free lane registers, resident warps. -/
abbrev SlotRoom := Nat × Nat

/-- The slot that the next warp gets (R71): the one with the most free lane registers, the lowest on ties, with a place left. -/
def pickSlot (need : Nat) (slots : List SlotRoom) : Option Nat :=
  let best := (slots.filter (fun r => decide (r.2 < 16))).foldl (fun m r => max m r.1) 0
  if best < need then none
  else (slots.zipIdx.find? (fun r => r.1.2 < 16 && r.1.1 == best)).map (·.2)

/-- The slots of n warps given one at a time, if there is room for all. -/
def giveSlots (need n : Nat) (slots : List SlotRoom) : Option (List Nat) :=
  match n with
  | 0 => some []
  | k + 1 =>
    match pickSlot need slots with
    | none => none
    | some j =>
      let slots := slots.zipIdx.map (fun r => if r.2 = j then (r.1.1 - need, r.1.2 + 1) else r.1)
      (giveSlots need k slots).map (j :: ·)

/-- A core with nothing on it. -/
def emptySlots : List SlotRoom := List.replicate 8 (65536, 0)

/-- The team fits on an empty core. -/
def LaunchRec.fits (r : LaunchRec) : Bool :=
  decide (r.warps ≤ 128) && decide (r.acc * r.warps ≤ 192) && decide (r.scratch ≤ 786432) && (giveSlots r.warpRegs r.warps emptySlots).isSome

/-- A token's reserved bits are zero, and it names an earlier record of the record's own queue (R53). -/
def tokenLegal (queue : Option Nat) (index : W32) (t : W64) : Bool :=
  !t.getLsbD 63 || (t.toNat / 2 ^ 48 % 2 ^ 15 == 0 &&
    (queue != some (t.toNat / 2 ^ 32 % 4096) || !serialLe index (t.setWidth 32)))

/-- n bytes of a header at an offset. -/
def hdrField (h off n : Nat) : Nat := h / 2 ^ (8 * off) % 2 ^ (8 * n)

/-- The header is a code object's (R274). -/
def hdrMagic (h : Nat) : Bool := hdrField h 0 4 == 0x4F433153

/-- The limits of R274 that R280 has checked: MAGIC, VERSION, FLAGS bits 15:1, SIZE, the reserved bytes and the offsets. The counts of the
header are held against the record alone. -/
def hdrLegal (h : Nat) : Bool :=
  let f := hdrField h
  let size := f 8 8
  let data := f 0x88 8
  let within (off n : Nat) : Bool := off == 0 || decide (off < size ∧ off + n ≤ size)
  let entry (a : Nat) : Bool := a % 2 == 0 && decide (0x100 ≤ a ∧ a < data)
  hdrMagic h && f 4 2 == 1 && decide (f 6 2 < 2) && size % 4096 == 0 && entry (f 0x10 8) && (f 0x18 8 == 0 || entry (f 0x18 8)) &&
  f 0x2B 1 == 0 && f 0x30 8 % 16 == 0 && (f 0x29 1 != 0 || f 0x30 8 == 0) && within (f 0x30 8) (16 * f 0x29 1) &&
  f 0x38 8 % 64 == 0 && within (f 0x38 8) 64 &&
  f 0x48 8 % 8 == 0 && ((f 0x2C 4 == 0 && f 0x48 8 == 0) || decide (data ≤ f 0x48 8)) && within (f 0x48 8) (12 * f 0x2C 4) &&
  f 0x50 8 % 256 == 0 && within (f 0x50 8) 256 && f 0x58 8 % 8 == 0 && within (f 0x58 8) 512 &&
  f 0x60 8 % 16 == 0 && within (f 0x60 8) (16 * f 0x68 4) && f 0x70 8 % 16 == 0 && within (f 0x70 8) (16 * f 0x6C 4) &&
  f 0x80 8 % 2 == 0 && (f 0x2C 4 != 0 || f 0x80 8 == 0) && within (f 0x80 8) 1 && data % 4096 == 0 && decide (data ≤ size) && f 0x90 112 == 0

/-- Leaves 0 to 6 of a context's feature word (R287, R288). -/
def State.featLeaves (s : State) (asid : W16) : List W64 :=
  let base := s.featcfg.toNat / 4096 % 2 ^ 40 * 4096
  (List.range 7).map (fun k => if base = 0 then natLeaf k else BitVec.ofNat 64 (s.homeRead (base + 64 * asid.toNat + 8 * k) 8))

/-- What a read of a context's feature word must wait for (R287), if anything. -/
def State.featWait (s : State) (asid : W16) : Option Nat :=
  let base := s.featcfg.toNat / 4096 % 2 ^ 40 * 4096
  if base = 0 then none
  else (List.range 7).findSome? (fun k => match s.hwPhys (base + 64 * asid.toNat + 8 * k) 8 none with | .wait pa => some pa | _ => none)

/-- A feature table at an unpopulated address is logged when it is read (R14). -/
def State.featTouch (s : State) (asid : W16) : State :=
  let base := s.featcfg.toNat / 4096 % 2 ^ 40 * 4096
  if base ≠ 0 ∧ physKind (base + 64 * asid.toNat) = .none then s.logStray (base + 64 * asid.toNat) else s

/-- R280: the record and the context against the header. -/
def hdrAgrees (h : Nat) (r : LaunchRec) (leaves : List W64) : Bool :=
  let f := hdrField h
  let removed (k : Nat) : Bool := (leaves.getD 3 0).toNat / 2 ^ (2 * k) % 4 == 3
  decide (f 0x20 2 ≤ r.vregs ∧ f 0x22 1 ≤ r.sregs ∧ f 0x23 1 ≤ r.acc ∧ f 0x24 4 ≤ r.scratch) && (f 6 2 % 2 == 1) == r.cluster &&
  BitVec.ofNat 64 (f 0x40 8) &&& ~~~r.slots == 0 && BitVec.ofNat 64 (f 0x78 8) &&& ~~~leaves.getD 1 0 == 0 &&
  (List.range 4).all (fun k => f 0x2A 1 / 2 ^ k % 2 == 0 || !removed k)

/-- The header's width accepts the record's (R279). -/
def widthOk (h : Nat) (r : LaunchRec) : Bool :=
  let w := hdrField h 0x28 1
  w == 7 || (decide (w ≤ 4) && 8 * 2 ^ w == r.width)

/-- The verdict of R52 on a record whose header has been read, in the table's order. A header without its MAGIC is no code object and
declares no width (R280). -/
def verdict (s : State) (g : Grid) (h : Nat) : Option Cause :=
  if hdrMagic h && !widthOk h g.rec_ then some .widthContract
  else if g.rec_.slots &&& ~~~(s.part g.part).slots != 0 then some .slotConflict
  else if !g.rec_.fits || !hdrLegal h || !hdrAgrees h g.rec_ (s.featLeaves g.asid) then some .illegalOperand
  else none

/-- A word of a table that the launch front reads: 0 where it cannot be read, or what must come first. -/
def State.tableEntry (s : State) (g : Grid) (va : W64) : Except Nat (W64 × State) :=
  match s.hwTake 0 g.asid g.part va 8 1 with
  | (.wait pa, _) => .error pa
  | (.val v, s) => .ok (BitVec.ofNat 64 v, s)
  | (.fail _, s) => .ok (0, s)

/-- n entries of the safe-point table of a code object (R275); an entry that cannot be read is not valid. -/
def State.safeTable (s : State) (g : Grid) (va : W64) (n : Nat) : Except Nat (List (W64 × W64) × State) :=
  match n with
  | 0 => .ok ([], s)
  | k + 1 =>
    match s.tableEntry g va with
    | .error pa => .error pa
    | .ok (a, s) =>
      match s.tableEntry g (va + 8) with
      | .error pa => .error pa
      | .ok (b, s) => (s.safeTable g (va + 16) k).map (fun r => ((a, b) :: r.1, r.2))

/-- A launch that a check rejects (R52). -/
def State.rejectGrid (s : State) (entry : Nat) (c : Cause) : State :=
  s.updGrid entry (fun g => { g with state := .retired, status := 1, cause := BitVec.ofNat 6 (causeCode c), end_ := s.time, tr := s.floor, trAny := true })

/-- A record whose header has been read: its verdict, and for one that passes its safe points. -/
def State.checkHeader (s : State) (entry : Nat) (g : Grid) (h : Nat) : State :=
  match verdict s g h with
  | some c => s.rejectGrid entry c
  | none =>
    match s.safeTable g (g.rec_.code + BitVec.ofNat 64 (hdrField h 0x30 8)) (hdrField h 0x29 1) with
    | .error pa => s.fillHost g.who pa
    | .ok (safe, s) => s.updGrid entry (fun g => { g with
        state := .waiting
        hdr := { lentry := hdrField h 0x10 8, centry := hdrField h 0x18 8, safe := safe, fmtOff := hdrField h 0x50 8, trapOff := hdrField h 0x58 8 } })

/-- The check of a record whose fields are known. -/
def State.checkRec (s : State) (entry : Nat) (g : Grid) : State :=
  let own : Bool := g.parent.isSome || (g.rec_.part == g.part && g.rec_.depth == 0)
  if !g.rec_.legal || !own || !g.rec_.pred.all (tokenLegal g.queue g.index) then s.rejectGrid entry .illegalOperand
  else match s.hwTake 0 g.asid g.part g.rec_.code 8 32, s.featWait g.asid with
    | (.wait pa, _), _ => s.fillHost g.who pa
    | (.fail c, s), _ => s.rejectGrid entry c
    | (.val _, _), some pa => s.fillHost g.who pa
    | (.val h, s), none => (s.featTouch g.asid).checkHeader entry g h

/-- LAUNCH_CHECK: the record of a child is read first (R392); its rank is no smaller than its parent's (R65). With a
record that cannot be read COMPL is not known, and no completion record is written. -/
def State.launchCheck (s : State) (entry : Nat) : State :=
  match s.grid entry with
  | none => s
  | some g =>
    if g.state != .consumed then s
    else match g.recAddr with
      | none => s.checkRec entry g
      | some va =>
        match s.hwTake 0 g.asid g.part va 8 16 with
        | (.wait pa, _) => s.fillHost g.who pa
        | (.fail c, s) => (s.rejectGrid entry c).updGrid entry (fun g => { g with compl := .done })
        | (.val v, s) =>
          let raw := BitVec.ofNat 1024 v
          let g : Grid := { g with raw := raw, rec_ := recOf raw, rank := max (recOf raw).rank g.rank, recAddr := none }
          let s : State := { s with grids := Tab.set s.grids entry g }
          s.checkRec entry g

/-! ## Tokens (R53, R67) -/

/-- Every team of a grid has raised its level to t or exited (R67). -/
def Grid.raisedAll (g : Grid) (t : Nat) : Bool :=
  let raised (num : Nat) : Bool := (Tab.get [] g.trigs num).any (fun e => decide (t ≤ e.1))
  decide (g.rec_.teams ≤ g.placed) && (g.resident.map (·.1) ++ g.saved.map (·.team.num)).all raised

/-- The first raise of each team to level t or above: the serial maximum of their clocks. -/
def Grid.raiseClock (g : Grid) (t : Nat) (c : W32) : W32 :=
  g.trigs.foldl (fun m e => match e.2.find? (fun x => decide (t ≤ x.1)) with | some x => serialMax m x.2 | none => m) c

/-- Whether a token is satisfied, and the clock that its release gives to the dependent. -/
def State.tokenClock (s : State) (token : W64) : Option W32 :=
  if !token.getLsbD 63 then some s.floor
  else match s.gridOver token with
    | some c => some c
    | none =>
      let t := token.toNat / 2 ^ 44 % 16
      match s.grids.find? (fun e => e.2.queue == some (token.toNat / 2 ^ 32 % 4096) && e.2.index == token.setWidth 32) with
      | some e => if t ≠ 0 ∧ e.2.state != .consumed && e.2.state != .waiting && e.2.raisedAll t then some (e.2.raiseClock t s.floor) else none
      | none => none

/-- GRID_DEPENDENCES_MET; a grid without slots passes through ADMITTING at once. -/
def State.dependencesMet (s : State) (entry : Nat) : State :=
  match s.grid entry with
  | none => s
  | some g =>
    if g.state == .waiting && g.rec_.pred.all (fun t => (s.tokenClock t).isSome) then
      s.updGrid entry (fun g => { g with state := if g.rec_.slots = 0 then .placing else .admitting })
    else s

/-! ## Slot masks (R68) -/

/-- The compute dies of a partition's clusters. -/
def State.diesOf (s : State) (p : Nat) : List Nat :=
  (List.range 4).filter (fun d => (List.range 10).any (fun c => (s.part p).clusters.getLsbD (10 * d + c)))

/-- A grid holds its mask reserved. -/
def Grid.reserves (g : Grid) : Bool := g.state == .placing || g.state == .running || g.state == .draining

/-- SLOT_ADMISSION. -/
def State.slotAdmission (s : State) (entry : Nat) : State :=
  match s.grid entry with
  | none => s
  | some g =>
    let dies := s.diesOf g.part
    let clash (e : Nat × Grid) : Bool :=
      let o := e.2
      e.1 != entry && o.rec_.slots &&& g.rec_.slots != 0 &&
      ((o.reserves && (s.diesOf o.part).any dies.contains) || (o.state == .admitting && o.part == g.part && decide (o.order < g.order)))
    if g.state == .admitting && !s.grids.any clash then s.updGrid entry (fun g => { g with state := .placing }) else s

/-! ## Room (R71) -/

/-- Teams of a core. -/
def State.teamsOn (s : State) (core : Nat) : List (Nat × Team) := s.teams.filter (fun e => e.1 / 8 == core)

def State.warpsOn (s : State) (core : Nat) : List (Nat × Warp) := s.warps.filter (fun e => e.1 / 128 == core)

def State.recOfTeam (s : State) (t : Team) : LaunchRec := match s.grid t.grid with | some g => g.rec_ | none => recOf 0

/-- What the slots of a core have left, without the teams in a list. -/
def State.slotsOf (s : State) (core : Nat) (without : List Nat) : List SlotRoom :=
  (List.range 8).map (fun j =>
    let mine := (s.warpsOn core).filter (fun e => e.2.slot == j && !without.contains e.2.ctx.team)
    let used := mine.foldl (fun n e => n + (match s.team e.2.ctx.team with | some t => (s.recOfTeam t).warpRegs | none => 0)) 0
    (65536 - used, mine.length))

/-- A core has room for a team, apart from some that are to leave; the slots that its warps get. -/
def State.roomOn (s : State) (core : Nat) (r : LaunchRec) (without : List Nat) : Option (List Nat) :=
  let ts := (s.teamsOn core).filter (fun e => !without.contains e.1)
  let recs := ts.map (fun e => s.recOfTeam e.2)
  let sum (f : LaunchRec → Nat) : Nat := recs.foldl (fun n r => n + f r) 0
  if ts.length < 8 ∧ sum (·.warps) + r.warps ≤ 128 ∧ sum (·.scratch) + r.scratch ≤ 786432 ∧ sum (fun r => r.acc * r.warps) + r.acc * r.warps ≤ 192 then
    giveSlots r.warpRegs r.warps (s.slotsOf core without)
  else none

/-- A cluster group of a grid has a cluster, and teams that are still to come to it (R70). -/
def Grid.groupComing (g : Grid) (j : Nat) : Bool :=
  !g.ending && ((decide (4 * j < g.placed) && decide (g.placed < min (4 * j + 4) g.rec_.teams)) ||
    g.saved.any (fun y => y.team.num / 4 == j && !g.resident.any (fun e => e.1 == y.team.num)))

/-- A cluster group is resident on a cluster, or on its way there. -/
def State.groupOn (s : State) (cluster : Nat) (without : List Nat) : Bool :=
  s.teams.any (fun e => e.1 / 32 == cluster && !without.contains e.1 && (s.recOfTeam e.2).cluster) ||
  s.grids.any (fun e => e.2.groups.any (fun x => x.2 == cluster && e.2.groupComing x.1))

/-- The powered cores of an enabled partition. -/
def State.coresOf (s : State) (p : Nat) : List Nat :=
  if (s.part p).word0.getLsbD 0 then
    (List.range 160).filter (fun c => (s.part p).clusters.getLsbD (c / 4) && (s.core c).powered)
  else []

/-- The core that an ordinary team goes to: the fitting one with the fewest resident warps, the lowest on ties. -/
def State.ordinaryCore (s : State) (p : Nat) (r : LaunchRec) : Option (Nat × List Nat) :=
  let fit := (s.coresOf p).filterMap (fun c => if s.groupOn (c / 4) [] then none else (s.roomOn c r []).map (fun l => (c, l)))
  match fit with
  | [] => none
  | x :: rest => some (rest.foldl (fun b y => if (s.warpsOn y.1).length < (s.warpsOn b.1).length then y else b) x)

/-- The core of a team of a cluster group: that of its rank, on the cluster that the group has, or on the lowest one that is free. -/
def State.groupCore (s : State) (p : Nat) (g : Grid) (num : Nat) : Option (Nat × List Nat) :=
  let cores := s.coresOf p
  let cluster := match Tab.find g.groups (num / 4) with
    | some c => some c
    | none => (List.range 40).find? (fun c => (List.range 4).all (fun m => cores.contains (4 * c + m)) && !s.teams.any (fun e => e.1 / 32 == c) && !s.groupOn c [])
  match cluster with
  | some c => if cores.contains (4 * c + num % 4) then (s.roomOn (4 * c + num % 4) g.rec_ []).map (fun l => (4 * c + num % 4, l)) else none
  | none => none

/-! ## Placement (R66) -/

/-- A team number is resident or on its way. -/
def Grid.has (g : Grid) (num : Nat) : Bool := g.resident.any (fun e => e.1 == num)

/-- The next team of a grid: a saved one first (R82), unless HOLD keeps it (R84). -/
def State.nextTeam (s : State) (g : Grid) : Option Nat :=
  let p := s.part g.part
  if g.state != .placing || g.ending || (p.hold && decide (p.minRank.toNat ≤ g.rank)) then none
  else match g.saved.find? (fun x => !g.has x.team.num) with
    | some x => if p.hold then none else some x.team.num
    | none => if g.placed < g.rec_.teams then some g.placed else none

/-- Where the next team of a grid goes, if it has room. -/
def State.findRoom (s : State) (g : Grid) (num : Nat) : Option (Nat × List Nat) :=
  if g.rec_.cluster then s.groupCore g.part g num else s.ordinaryCore g.part g.rec_

/-- A rank-pressure request holds back the teams of lower priority in its partition, until the team that waits is placed (R77). One whose grid
ends waits no more. -/
def State.pressed (s : State) (g : Grid) : Bool :=
  s.pressure.any (fun e => s.grids.any (fun h => h.2.order == e.1 && h.2.part == g.part && decide (h.2.rank < g.rank) && !h.2.ending))

/-- The oldest grid of a partition and rank that has a team to place; younger ones are not considered before it. -/
def State.oldest (s : State) (p k : Nat) : Option (Nat × Grid × Nat) :=
  let c := s.grids.filterMap (fun e =>
    if e.2.part == p && e.2.rank == k && !s.pressed e.2 then (s.nextTeam e.2).map (fun n => (e.1, e.2, n)) else none)
  match c with
  | [] => none
  | x :: rest => some (rest.foldl (fun b y => if y.2.1.order < b.2.1.order then y else b) x)

/-- The team that a partition would place at a rank, with its core and slots. -/
def State.placeable (s : State) (p k : Nat) : Option (Nat × Grid × Nat × Nat × List Nat) :=
  match s.oldest p k with
  | none => none
  | some (e, g, n) => (s.findRoom g n).map (fun r => (e, g, n, r.1, r.2))

/-- Since when a grid's next team has lacked only room (R77). -/
def State.noteRoom (s : State) : State :=
  let front := (List.range 8).flatMap (fun p => (List.range 8).filterMap (fun k => (s.oldest p k).map (fun x => (x.1, (s.findRoom x.2.1 x.2.2).isSome))))
  { s with grids := s.grids.map (fun e => (e.1, { e.2 with
      roomless := match front.find? (fun f => f.1 == e.1) with
        | some (_, false) => (match e.2.roomless with | some t => some t | none => some s.time)
        | _ => none })) }

/-- The lowest free residency index of a core. -/
def State.freeTeam (s : State) (core : Nat) : Nat := ((List.range 8).find? (fun k => (s.team (8 * core + k)).isNone)).getD 0

/-- The keys of n new warps in the slots given. -/
def State.warpKeys (s : State) (core : Nat) (slots : List Nat) : List Nat :=
  slots.foldl (fun keys j =>
    let base := 128 * core + 16 * j
    keys ++ [base + ((List.range 16).find? (fun i => (s.warp (base + i)).isNone && !keys.contains (base + i))).getD 0]) []

/-- A context as placement leaves it (R72, R281): s0:s1 hold ARGS. -/
def freshCtx (team : Nat) (args : W64) (clk : W32) (age now : Nat) : Ctx :=
  { team := team
    s := Tab.put 0 (Tab.put 0 [] 0 (args.setWidth 32)) 1 (BitVec.ofNat 32 (args.toNat / 2 ^ 32))
    wclk := clk
    placedAt := now
    age := age }

/-- Warp k of a team as placement leaves it (R70, R72). -/
def freshWarp (r : LaunchRec) (team core key k : Nat) (lpc : W64) (clk : W32) (age now : Nat) : Warp :=
  let live := firstLanes (min r.width (r.lanes - k * r.width))
  { ctx := freshCtx team r.args clk age now
    core := core
    slot := key / 16 % 8
    idx := key % 16
    k := k
    width := r.width
    live := live
    lpc := (lanesOf live).foldl (fun t j => Tab.set t j lpc) [] }

/-- The clock that a placement acquires (R67, R69): the floor, the releases of the tokens, the parent's release. -/
def State.startClock (s : State) (g : Grid) : W32 :=
  let c := g.rec_.pred.foldl (fun m t => match s.tokenClock t with | some x => serialMax m x | none => m) s.floor
  match g.parent with | some p => serialMax c p.clock | none => c

/-- The cluster of a group, once one of its teams has a core there. -/
def Grid.inGroup (g : Grid) (num core : Nat) : Grid :=
  if g.rec_.cluster then { g with groups := Tab.set g.groups (num / 4) (core / 4) } else g

/-- A team that has never run is placed: its resources are taken, its state is that of R72. Without a control entry its control thread
has run the UEXIT that the launch front supplies (R281). -/
def State.placeNew (s : State) (entry : Nat) (g : Grid) (num core : Nat) (slots : List Nat) : State :=
  let r := g.rec_
  let k := s.freeTeam core
  let t := 8 * core + k
  let keys := s.warpKeys core slots
  let clk := s.startClock g
  let now := s.cycle core
  let at_ (off : Nat) : W64 := if off = 0 then 0 else r.code + BitVec.ofNat 64 off
  let team : Team := { grid := entry, num := num, core := core, k := k, x := num % r.gx, y := num / r.gx % r.gy, z := num / r.gx / r.gy,
                       rank := if r.cluster then num % 4 else 0, ct := freshCtx t r.args clk s.ageN now, cpc := at_ g.hdr.centry, warps := keys,
                       trapBase := at_ g.hdr.trapOff, fmtBase := at_ g.hdr.fmtOff, fmtLoad := true, leaves := s.featLeaves g.asid,
                       ctExited := g.hdr.centry == 0 }
  let lpc := r.code + BitVec.ofNat 64 g.hdr.lentry
  { s with
    teams := Tab.set s.teams t team
    warps := keys.zipIdx.foldl (fun ws e => Tab.set ws e.1 (freshWarp r t core e.1 e.2 lpc clk s.ageN now)) s.warps
    ageN := s.ageN + 1
    decisions := s.decisions ++ [(core, entry, num)]
    grids := Tab.upd s.grids entry (fun g => { g.inGroup num core with
      placed := num + 1
      resident := g.resident ++ [(num, t)]
      begin_ := if g.began then g.begin_ else s.datum
      began := true
      lease := if g.began then g.lease else 0
      cores := if g.cores.contains core then g.cores else g.cores ++ [core] }) }

/-- The image of a warp on its new place. -/
def Warp.moved (x : Warp) (team core key age now : Nat) : Warp :=
  { x with core := core, slot := key / 16 % 8, idx := key % 16, issuedAt := 0, latch := none, pred := [], predstat := 0,
           ctx := { x.ctx with team := team, placedAt := now, creeps := 0, age := age, saved := false, forced := false, safe := none,
                               gapUntil := 0, readyAt := 0, yld := false, yldAt := 0, hold := .none, landings := [], flights := [] } }

/-- A restored warp (R82, R278): reloaded whole if it was saved by force, else at the restore routine of its safe point. -/
def restoredWarp (g : Grid) (x : SavedTeam) (w : SavedWarp) (team core key : Nat) (floor : W32) (age now : Nat) : Warp :=
  let r := g.rec_
  let k := w.k
  match w.forced with
  | some y =>
    let y := y.moved team core key age now
    ({ y with ctx := { y.ctx with wclk := serialMax y.ctx.wclk floor } } : Warp).deliver
  | none =>
    let entry := match w.safe with
      | some i => r.code + BitVec.ofNat 64 ((g.hdr.safe.getD i (0, 0)).1.toNat / 2 ^ 32)
      | none => 0
    let y := freshWarp r team core key k entry floor age now
    if w.exited then { y with live := 0 }
    else { y with live := w.live, depth := w.depth, lpc := (lanesOf w.live).foldl (fun t j => Tab.set t j entry) [],
                  ctx := { y.ctx with saveBase := g.areaOf x.area k, edge := w.edge, wclk := serialMax w.wclk floor,
                                      sysAcq := w.sysAcq, seen := w.seen } }

/-- A saved team is placed again; TEAM_RESTORE brings its state back. -/
def State.placeSaved (s : State) (entry : Nat) (g : Grid) (x : SavedTeam) (core : Nat) (slots : List Nat) : State :=
  let k := s.freeTeam core
  let t := 8 * core + k
  let keys := s.warpKeys core slots
  let now := s.cycle core
  let area := g.areaOf x.area keys.length
  let old := x.team
  let ct : Ctx := match x.ctSafe with
    | some _ => { freshCtx t g.rec_.args (serialMax old.ct.wclk s.floor) s.ageN now with
                    saveBase := area, edge := old.ct.edge, sysAcq := old.ct.sysAcq, seen := old.ct.seen }
    | none => { old.ct with team := t, placedAt := now, creeps := 0, age := s.ageN, saved := false, forced := false, safe := none, gapUntil := 0,
                            readyAt := 0, yld := false, yldAt := 0, hold := .none, landings := [], flights := [],
                            wclk := serialMax old.ct.wclk s.floor }
  let cpc := match x.ctSafe with
    | some i => g.rec_.code + BitVec.ofNat 64 ((g.hdr.safe.getD i (0, 0)).1.toNat / 2 ^ 32)
    | none => old.cpc
  let team : Team := { old with core := core, k := k, ct := ct, cpc := cpc, warps := keys, fmtLoad := true, fmtBy := none, fmtFlight := none,
                                preempt := .none, reqRank := none,
                                leaves := s.featLeaves g.asid, svcPred := [], started := false,
                                heldCmd := old.heldCmd.map (fun h => { h with warp := h.warp.map (fun k => keys.getD (old.warps.idxOf k) 0) }),
                                ctDepth := if x.ctSafe.isSome then old.ctSafeDepth else old.ctDepth }
  let team := match team.ctTicket with | some { reply := some a, .. } => team.answerCt a | _ => team
  let warp (e : Nat × Nat) : Warp := match x.warps.find? (fun w => w.k == e.2) with
    | some w => restoredWarp g x w t core e.1 s.floor s.ageN now
    | none => freshWarp g.rec_ t core e.1 e.2 0 s.floor s.ageN now
  { s with
    teams := Tab.set s.teams t team
    warps := keys.zipIdx.foldl (fun ws e => Tab.set ws e.1 (warp e)) s.warps
    ageN := s.ageN + 1
    decisions := s.decisions ++ [(core, entry, x.team.num)]
    grids := Tab.upd s.grids entry (fun g => { g.inGroup x.team.num core with
      resident := g.resident ++ [(x.team.num, t)]
      cores := if g.cores.contains core then g.cores else g.cores ++ [core] }) }

/-- R64: a grid all of whose teams are placed and none of whose teams is saved runs. -/
def State.nowRunning (s : State) (entry : Nat) : State :=
  s.updGrid entry (fun g => if g.state == .placing && decide (g.rec_.teams ≤ g.placed) && g.saved.isEmpty then { g with state := .running } else g)

/-- Of the partitions that can place at a rank, the one whose turn it is, with its credit: a partition keeps its turn for as many
teams as its SHARE (R66). -/
def State.turnOf (s : State) (k : Nat) : Nat × Nat :=
  let ps := (List.range 8).filter (fun p => (s.placeable p k).isSome)
  let now := Tab.get 0 s.curPart k
  let keep := ps.contains now && Tab.get 0 s.credit k != 0
  let p := if keep then now else ((ps.find? (fun x => decide (now < x))).getD (ps.headD 0))
  (p, if keep then Tab.get 0 s.credit k else (s.part p).word0.toNat / 2 ^ 8 % 256)

/-- The datum time that a placement decision counts as: 8 ns after the last one, unless that is past by more than a core cycle (R66; log entry 27). -/
def State.placeTime (s : State) : Nat := if s.datum ≤ s.lastPlace + 9 then s.lastPlace + 8 else s.datum

/-- PLACEMENT_DECISION: at most one in 8 ns; one team. -/
def State.placement (s0 : State) : State :=
  if s0.datum < s0.lastPlace + 8 then s0
  else
    let s : State := { s0.noteRoom with lastPlace := s0.placeTime }
    match (List.range 8).find? (fun k => (List.range 8).any (fun p => (s.placeable p k).isSome)) with
    | none => s
    | some k =>
      let (p, credit) := s.turnOf k
      match s.placeable p k with
      | none => s
      | some (e, g, n, core, slots) =>
        let s : State := { s with
          curPart := Tab.put 0 s.curPart k p
          credit := Tab.put 0 s.credit k (credit - 1)
          pressure := s.pressure.filter (fun x => x != (g.order, n)) }
        let s := match g.saved.find? (fun x => x.team.num == n) with
          | some x => s.placeSaved e g x core slots
          | none => s.placeNew e g n core slots
        s.nowRunning e

/-! ## The start of a team (R72, R73) -/

/-- What the read of a copy schedule comes to (R196). -/
inductive SchedRead where
  | ok (l : List SchedDesc)
  | bad (c : Cause)
  | wait (pa : Nat)

/-- Descriptor by descriptor. -/
def State.readDescs (s : State) (die : Nat) (g : Grid) (va : W64) (n : Nat) : SchedRead × State :=
  match n with
  | 0 => (.ok [], s)
  | k + 1 =>
    match s.hwTake die g.asid g.part va 8 8 with
    | (.wait pa, s) => (.wait pa, s)
    | (.fail c, s) => (.bad c, s)
    | (.val v, s) =>
      match s.readDescs die g (va + 64) k with
      | (.ok l, s) => (.ok ({ desc := BitVec.ofNat 512 v } :: l), s)
      | x => x

/-- A header whose COUNT lies outside 1 to 64, or with other bytes that are not zero, is malformed. -/
def State.readSched (s : State) (die : Nat) (g : Grid) : SchedRead × State :=
  if g.rec_.sched = 0 then (.ok [], s)
  else match s.hwTake die g.asid g.part g.rec_.sched 8 8 with
    | (.wait pa, s) => (.wait pa, s)
    | (.fail c, s) => (.bad c, s)
    | (.val h, s) => if h = 0 ∨ 64 < h then (.bad .illegalOperand, s) else s.readDescs die g (g.rec_.sched + 64) h

/-- A decision for a team is the next one that its die's dispatch unit can carry out (R73). -/
def State.decisionNext (s : State) (t : Team) : Bool :=
  match s.decisions.find? (fun d => dieOf d.1 == dieOf t.core && (s.core d.1).powered) with
  | some d => d == (t.core, t.grid, t.num)
  | none => false

def State.decisionDone (s : State) (t : Team) : State := { s with decisions := s.decisions.filter (fun d => d != (t.core, t.grid, t.num)) }

/-- The clocks of a team that starts now. -/
def State.startTeamClocks (s : State) (t : Nat) (clk : W32) : State :=
  let now := s.cycle (t / 8)
  let raise (c : Ctx) : Ctx := { c with wclk := serialMax c.wclk clk, placedAt := now, creeps := 0 }
  match s.team t with
  | none => s
  | some x => (x.warps.foldl (fun s w => s.updCtx (.warp w) raise) s).updTeam t (fun x => { x with ct := raise x.ct, started := true })

/-- The feature word that a team holds is read (R287). -/
def State.holdLeaves (s : State) (t : Nat) (asid : W16) : State :=
  (s.featTouch asid).updTeam t (fun x => { x with leaves := s.featLeaves asid })

/-- TEAM_START: the feature word and the copy schedule are read and the team starts, the descriptors of stage 0 released with its clock (R197);
its format table is read before it issues. No command carries the one record of a schedule that cannot be read, and R196 gives of it SOURCE, STATUS
and the cause alone: the model gives it the control thread's CPC, the team's start clock as its time, and zero elsewhere (DESIGN CHOICE, log
entry 46). -/
def State.teamStart (s : State) (t : Nat) : State :=
  match s.team t with
  | none => s
  | some x =>
    match s.grid x.grid with
    | none => s
    | some g =>
      if x.started || g.saved.any (fun y => y.team.num == x.num) || !s.decisionNext x then s
      else
        let clk := s.startClock g
        let who : Who := { g.who with core := x.core }
        match s.featWait g.asid with
        | some pa => s.fillHost who pa
        | none =>
          let s := s.holdLeaves t g.asid
          match s.readSched (dieOf x.core) g with
          | (.wait pa, s) => s.fillHost who pa
          | (.bad c, s) => ((s.decisionDone x).startTeamClocks t clk).pushEvent t (evRec 0 1 c 0 0 0 x.cpc 0 clk 0)
          | (.ok l, s) =>
            (((s.decisionDone x).startTeamClocks t clk).updTeam t (fun x => { x with sched := l })).releaseStage t
              { c := clk, cpc := x.cpc, csn := 0, edge := 0, warp := none }

/-! ## The format table (R217) -/

/-- The entries of a format table are held: those of its bytes, or none that is valid (R217). -/
def State.fmtDone (s : State) (t : Nat) (fmt : Tab FmtWord) : State :=
  ({ s with cmds := s.cmds.map (fun c => if c.team = t && c.fmtNew then { c with fmt := fmt, fmtNew := false } else c) } : State).updTeam t
    (fun x => { x with fmt := fmt, fmtLoad := false, fmtBy := none, fmtFlight := none })

/-- A read of the table that is not wanted any more is given up. -/
def State.fmtDrop (s : State) (t : Nat) (g : Agent) (id : Nat) : State :=
  (s.updCtx g (fun c => { c with flights := c.flights.filter (fun f => f.id != id) })).updTeam t (fun x => { x with fmtFlight := none })

/-- The 32 words of the table, sector by sector, as its reader's results gather them. -/
def Flight.fmtWords (f : Flight) : Tab FmtWord :=
  (List.range 32).foldl (fun m i => Tab.put 0 m i (BitVec.ofNat 64 ((List.range 8).foldl (fun v k => v + (Tab.get 0 f.bytes (8 * i + k)).toNat * 2 ^ (8 * k)) 0))) []

/-- The read of the table at a base begins, as loads of its agent (R111, R217): its four sectors. A table that a held range covers (R142), that does not
translate or that its target refuses cannot be read. -/
def State.fmtBegin (s : State) (t : Nat) (w : Who) (base : W64) : State :=
  match s.hwLeaf (dieOf w.core) w.asid w.part base 256 .read w.handler with
  | .wait pa => s.fillHost w pa
  | .fail _ => (s.hwTouch (dieOf w.core) w.asid w.part base 256 .read w.handler).fmtDone t []
  | .ok pa leaf _ =>
    let segs : List Seg := (List.range 4).map (fun k => ⟨base + BitVec.ofNat 64 (64 * k), pa + 64 * k, 0, 64, leaf⟩)
    let host := match targetOf pa leaf with | .host _ => true | _ => false
    if s.lockedVa w.core w.asid base 256 .read || segs.any (fun sg => (s.targetFault w.core sg 256 none).isSome) ||
        (host && (match Tab.find s.hwLines (pa / 64) with | some (_, none) => true | _ => false)) then s.fmtDone t []
    else if segs.any (fun sg => s.sameLine w.g (sg.pa / 256) || s.segShut w.core sg) then s.recallHandles segs
    else match s.atsMiss segs with
      | (some sg, s) => s.fillHost w sg.pa
      | (none, s) =>
        let (id, s) := (s.hwTouch (dieOf w.core) w.asid w.part base 256 .read w.handler).newId
        let s := s.updCtx w.g (fun c => { c with
          flights := c.flights ++ [{ id := id, tag := 0, cnt := .none, pc := 0, lanes := 0, form := .ready }] })
        let s := segs.zipIdx.foldl (fun s e => s.loadSeg w id e.2 e.1) s
        s.updTeam t (fun x => { x with fmtFlight := some (w.g, id, base) })

/-- Who reads the table, and whether in handler mode: the agent that wrote FMTBASE, and at placement and restore the control thread. -/
def State.fmtReader (s : State) (t : Nat) (x : Team) : Agent × Bool :=
  match x.fmtBy with
  | some b => if (s.who b.1).isSome then b else (.ct t, b.2)
  | none => (.ct t, false)

/-- FORMAT_TABLE_LOAD: the agent that wrote FMTBASE reads the table, at placement and restore the control thread; with no table, or one that
cannot be read, every entry is invalid. -/
def State.fmtLoad (s : State) (t : Nat) : State :=
  match s.team t with
  | none => s
  | some x =>
    if !x.fmtLoad || !x.started then s
    else
      let by_ := s.fmtReader t x
      match s.who by_.1 with
      | none => s
      | some w =>
        let base := x.fmtBase &&& ~~~(0xFF : W64)
        match x.fmtFlight with
        | some (g, id, b) =>
          if g = by_.1 ∧ b = base then
            match s.flight g id with
            | some f => if f.missing != 0 then s else (s.fmtDrop t g id).fmtDone t (if f.bad.isEmpty then f.fmtWords else [])
            | none => s.fmtDrop t g id
          else s.fmtDrop t g id
        | none => if base = 0 then s.fmtDone t [] else s.fmtBegin t { w with handler := by_.2 } base

/-! ## The exit of a team (R103, R124) -/

/-- Every warp and the control thread have ended. -/
def Team.over (x : Team) : Bool := x.ctExited && (List.range x.warps.length).all (fun k => x.exited.getLsbD k)

/-- Its engines have nothing left to do, and its arrays neither. -/
def State.enginesIdle (s : State) (t : Nat) (x : Team) : Bool :=
  !s.cmds.any (fun c => c.team == t) && x.array.isEmpty && s.units.all (fun u => !u.holds t) &&
  x.warps.all (fun w => match s.warp w with | some y => y.mxq.isEmpty | none => true)

/-- The dirty lines of a team's regions whose translation must first be made possible: what its walk waits for. -/
def State.flushWait (s : State) (t : Nat) : Option Nat :=
  match s.team t, s.who (.ct t) with
  | some x, some w =>
    x.regions.findSome? (fun e => e.2.dirtyLines.findSome? (fun line =>
      match s.hwLeaf (dieOf w.core) w.asid w.part (e.2.base + BitVec.ofNat 64 (256 * line)) 256 .write false with
      | .wait pa => some pa
      | _ => none))
  | _, _ => none

/-- Write back every region of a team (R124). The bytes of a line whose page does not let them be written are lost: no lane is left to raise a cause,
and R124 says nothing of it (DESIGN CHOICE, log entry 46). -/
def State.flushRegions (s : State) (t : Nat) : State :=
  match s.team t, s.who (.ct t) with
  | some x, some w =>
    let die := dieOf w.core
    x.regions.foldl (fun s e =>
      let va (line : Nat) : W64 := e.2.base + BitVec.ofNat 64 (256 * line)
      let target (line : Nat) : Option (Nat × W64) :=
        match s.hwLeaf die w.asid w.part (va line) 256 .write false with
        | .ok pa leaf _ => some (pa, leaf)
        | _ => none
      let s1 := e.2.dirtyLines.foldl (fun s line => s.hwTouch die w.asid w.part (va line) 256 .write false) s
      (s1.writeRegion w.core t w.part e.1 w.asid x.ct.edge target .evict (fun s _ pa => s.countFlushAt w.core pa)).2) s
  | _, _ => s

/-- The team's places are free, and the ranges that it holds. -/
def State.freePlaces (s : State) (t : Nat) (x : Team) : State :=
  let s := (x.sched.foldl (fun s d => s.unlock d.id false) s).goOver t
  { s with
    warps := s.warps.filter (fun e => !x.warps.contains e.1)
    teams := Tab.erase s.teams t
    svcs := s.svcs.filter (fun r => !x.warps.contains r.warp)
    cores := Tab.upd s.cores x.core (fun c => { c with locks := c.locks.filter (fun l => l.team != some t) }) }

/-- TEAM_EXIT: regions are released first; then the team leaves its core and its grid is told. -/
def State.teamExit (s : State) (t : Nat) : State :=
  match s.team t with
  | none => s
  | some x =>
    if !x.over || !s.enginesIdle t x then s
    else if !x.regions.isEmpty then
      match s.flushWait t, s.who (.ct t) with
      | some pa, some w => s.fillHost w pa
      | _, _ => (s.flushRegions t).updTeam t (fun x => { x with regions := [] })
    else if s.wbInFlight x.core then s
    else
      let s := (s.freePlaces t x).decisionDone x
      let s : State := { s with deferred := s.deferred.filter (fun d => !(d.grid == x.grid && d.num == x.num)) }  -- R204
      s.updGrid x.grid (fun g =>
        let res := g.resident.filter (fun e => e.1 != x.num)
        let all := res.isEmpty && g.saved.isEmpty && (g.ending || decide (g.rec_.teams ≤ g.placed))
        { g with exitedN := g.exitedN + 1, resident := res, state := if all then .draining else g.state })

/-! ## Retirement and completion (R55, R64, R67) -/

/-- Child grids that have not retired. -/
def State.hasChildren (s : State) (entry : Nat) (g : Grid) : Bool :=
  s.grids.any (fun e => e.2.state != .retired && (match e.2.parent with | some p => p.entry == entry | none => false) && decide (g.order < e.2.order))

/-- A child grid is still held, so that its completion record comes first (R69). -/
def State.childOf (s : State) (entry : Nat) (g : Grid) : Bool :=
  s.grids.any (fun e => (match e.2.parent with | some p => p.entry == entry | none => false) && decide (g.order < e.2.order))

/-- Every team of a grid has exited, or it was ended and none is left. -/
def Grid.drained (g : Grid) : Bool :=
  g.state == .draining || (g.ending && (g.state == .placing || g.state == .running || g.state == .admitting || g.state == .waiting) && g.resident.isEmpty)

/-- GRID_RETIRE: the release of R67 begins, on every core that held a team of the grid or of its children, and once its write-backs have
replied the grid retires with its clock Tr; its parent's release covers it. -/
def State.gridRetire (s : State) (entry : Nat) : State :=
  match s.grid entry with
  | none => s
  | some g =>
    if !g.drained || s.hasChildren entry g then s
    else if !g.released then (g.cores.foldl (fun s c => s.releaseStart c) s).updGrid entry (fun g => { g with released := true, state := .draining })
    else if g.cores.any (fun c => s.wbInFlight c) then s
    else
      let tr := g.cores.foldl (fun m c => serialMax m (s.core c).eclk) (if g.trAny then g.tr else s.floor)
      let s := s.updGrid entry (fun g => { g with state := .retired, tr := tr, trAny := true, end_ := s.time, saved := [] })
      let s : State := { s with deferred := s.deferred.filter (fun d => d.grid != entry) }
      match g.parent with
      | none => s
      | some p => s.updGrid p.entry (fun o => { o with
          tr := if o.trAny then serialMax o.tr tr else tr
          trAny := true
          cores := o.cores ++ g.cores.filter (fun c => !o.cores.contains c) })

/-- The 32 bytes of a completion record (R54). -/
def Grid.completion (g : Grid) : Nat :=
  g.status + (if g.status = 0 then 0 else g.cause.toNat) * 2 ^ 8 + g.token.toNat * 2 ^ 64 +
  (if g.status = 1 then 0 else g.begin_ % 2 ^ 64) * 2 ^ 128 + (g.end_ / 47 % 2 ^ 64) * 2 ^ 192

/-- What a write of a completion record comes to: it cannot be made, it is made at once, or an answer is awaited. -/
inductive Recorded where
  | no | yes (s : State) | waits (s : State)

/-- A write of n bytes of a completion record at its home, stamped whatever the page's HOME is (R431), under the key slot of the page (R58):
made at once, or awaited where a host
holds the line or other requests wait for it (R55). -/
def State.completionHome (s : State) (entry pa : Nat) (leaf : W64) (n v : Nat) (next : Compl) : Recorded :=
  let line := pa / 256
  match lineHome line with
  | none => .no
  | some k => match s.ownStore k line (pteKey leaf) (pteHome leaf == 2) (lineOf (pa % 256) v) (byteRange (pa % 256) n) (.grid entry) with
    | (true, s) => .yes s
    | (false, s) => .waits (s.updGrid entry (fun g => { g with compl := next }))

/-- The device writes n bytes of a completion record. A host page for which ATS holds no translation is first asked for through PRI. -/
def State.completionWrite (s : State) (entry : Nat) (g : Grid) (ask : Bool) (va : W64) (n v : Nat) (next : Compl) : Recorded :=
  match s.hwLeaf 0 g.asid g.part va n .write false with
  | .fail _ => .no
  | .wait pa => .waits (s.fillHost g.who pa)
  | .ok pa leaf _ =>
    let s := s.hwTouch 0 g.asid g.part va n .write false
    let step (c : Compl) (s : State) : Recorded := .waits (s.updGrid entry (fun g => { g with compl := c }))
    match targetOf pa leaf with
    | .host port =>
      if (s.ports.getD port {}).down then .no
      else
        let (miss, s) := s.atsMiss [⟨va, pa, 0, n, leaf⟩]
        if ask && miss.isSome then
          let (id, s) := s.newId
          let req : PriReq := { id := id, pa := pa, asid := g.asid, who := .grid entry, ticket := 0 }
          step .asked (({ s with pris := s.pris ++ [req] } : State).emit (.ats port pa g.asid))
        else step next (s.hostTxn g.who pa n true false (BitVec.ofNat 512 v) none (.grid entry))
    | .peer =>
      if (s.peerRoute 0 pa n).isSome then step next (s.sendPeer g.who 0 pa n (.write n (BitVec.ofNat 512 v)) (.grid entry)) else .no
    | .regs => .no
    | .none => .yes (s.logStray pa)
    | _ => s.completionHome entry pa leaf n v next

/-- The event record of a child's parent (R392). -/
def State.childRecord (s : State) (g : Grid) : State :=
  match g.parent with
  | none => s
  | some p =>
    let r : EvRec := { source := 2, status := BitVec.ofNat 8 g.status, cause := (if g.status = 0 then 0 else g.cause.setWidth 8), flags := 0,
                       csn := p.csn, bytes := 0, cpc := p.cpc, object := g.token, t := g.tr, edge := 0 }
    s.teamRecord p.entry p.num r

/-- The record is written, or cannot be (CERR); then the interrupt; then the entry is free. -/
def State.completionEnd (s : State) (entry : Nat) (g : Grid) (ok : Bool) : State :=
  let s := match ok, g.queue with
    | false, some q => s.setQueue q { s.queue q with cerr := true }
    | _, _ => s
  let s := match g.queue with
    | some q => let w := (s.queue q).word1; if qIrq w then s.emit (.msix (qPort w) (qVec w)) else s
    | none => s
  ({ s.childRecord g with grids := Tab.erase s.grids entry } : State).emit (.retire entry)

/-- Bytes 0 to 7 of the record, the release. -/
def State.completionLast (s : State) (entry : Nat) (g : Grid) : State :=
  match s.completionWrite entry g false g.rec_.compl 8 (g.completion % 2 ^ 64) .last with
  | .no => s.completionEnd entry g false
  | .yes s => s.completionEnd entry g true
  | .waits s => s

/-- COMPLETION_RECORD_WRITE: after the system-scope release, bytes 8 to 31, then bytes 0 to 7, then the interrupt. -/
def State.completion (s : State) (entry : Nat) : State :=
  match s.grid entry with
  | none => s
  | some g =>
    if g.state != .retired || s.childOf entry g || g.cores.any (fun c => !s.hostClear c || !s.remoteClear c g.end_) then s
    else
      let first (ask : Bool) : State :=
        if g.rec_.compl.toNat % 32 ≠ 0 then s.completionEnd entry g false
        else match s.completionWrite entry g ask (g.rec_.compl + 8) 24 (g.completion / 2 ^ 64) .first with
          | .no => s.completionEnd entry g false
          | .yes s => s.completionLast entry g
          | .waits s => s
      match g.compl with
      | .start => first true
      | .ready => first false
      | .firstDone => s.completionLast entry g
      | .done => s.completionEnd entry g true
      | .failed => s.completionEnd entry g false
      | _ => s

/-- GRID_END_REQUEST: the end of a grid reaches one of its teams (R315). -/
def State.gridEndRequest (s : State) (t : Nat) : State :=
  match s.team t with
  | none => s
  | some x => match s.grid x.grid with | some g => if g.ending && !x.ended then s.endTeam t else s | none => s

/-! ## The events -/

def execRecordConsume (q : Nat) (uncorrectable : Bool) (s : State) : Host.Outcome State Fault Refusal :=
  s.whileLive (fun s => s.recordConsume q uncorrectable)
def execLaunchCheck (entry : Nat) (s : State) : Host.Outcome State Fault Refusal := s.whileLive (fun s => s.launchCheck entry)
def execGridDependencesMet (entry : Nat) (s : State) : Host.Outcome State Fault Refusal := s.whileLive (fun s => s.dependencesMet entry)
def execSlotAdmission (entry : Nat) (s : State) : Host.Outcome State Fault Refusal := s.whileLive (fun s => s.slotAdmission entry)
def execPlacementDecision (s : State) : Host.Outcome State Fault Refusal := s.whileLive (fun s => s.placement)
def execTeamStart (t : Nat) (s : State) : Host.Outcome State Fault Refusal := s.whileLive (fun s => s.teamStart t)
def execFormatTableLoad (t : Nat) (s : State) : Host.Outcome State Fault Refusal := s.whileLive (fun s => s.fmtLoad t)
def execTeamExit (t : Nat) (s : State) : Host.Outcome State Fault Refusal := s.whileLive (fun s => s.teamExit t)
def execGridRetire (entry : Nat) (s : State) : Host.Outcome State Fault Refusal := s.whileLive (fun s => s.gridRetire entry)
def execCompletionRecordWrite (entry : Nat) (s : State) : Host.Outcome State Fault Refusal := s.whileLive (fun s => s.completion entry)
def execGridEndRequest (t : Nat) (s : State) : Host.Outcome State Fault Refusal := s.whileLive (fun s => s.gridEndRequest t)

end Sys2Proof.Machine
end

