-- ==== Sys2Proof/Machine/Preempt.lean ====
section
/-!
DEFINITION. Pre-emption (R77 to R84): rank pressure, save areas, the drain of multicasts, safe points, the deadline and forced saves,
the hardware save and the restore of a team.
-/

namespace Sys2Proof.Machine

/-! ## Rank pressure (R77) -/

/-- The lists that keep some elements of a list, in order. -/
def subLists {α : Type} (l : List α) : List (List α) :=
  match l with
  | [] => [[]]
  | x :: r => (subLists r).map (x :: ·) ++ subLists r

/-- The shortest list of those given, the first on ties. -/
def shortest {α : Type} (ls : List (List α)) : Option (List α) :=
  match ls with
  | [] => none
  | x :: r => some (r.foldl (fun b y => if y.length < b.length then y else b) x)

/-- The teams of a core that a waiting grid may displace: those of numerically larger rank, the largest first, the youngest first. -/
def State.lesser (s : State) (p core rank : Nat) : List Nat :=
  let c := (s.teamsOn core).filterMap (fun e => match s.grid e.2.grid with
    | some g => if g.part == p && decide (rank < g.rank) then some (e.1, g.rank, e.2.ct.age) else none
    | none => none)
  let leads (a b : Nat × Nat × Nat) : Bool := decide (b.2.1 < a.2.1) || (a.2.1 == b.2.1 && decide (b.2.2 ≤ a.2.2))
  (c.foldl (fun l x => l.takeWhile (fun y => leads y x) ++ [x] ++ l.dropWhile (fun y => leads y x)) []).map (·.1)

/-- The fewest teams whose save makes room for a team on a core: teams of that core, with the cluster groups that are saved with them (R78). -/
def State.fewestOn (s : State) (p core : Nat) (g : Grid) : Option (List Nat) :=
  let options := (subLists (s.lesser p core g.rank)).map (fun l => dedup (l.flatMap (fun t => s.group t)))
  shortest (options.filter (fun l => !s.groupOn (core / 4) l && (s.roomOn core g.rec_ l).isSome))

/-- The teams of a cluster, if all of them may be displaced. -/
def State.clearCluster (s : State) (p cluster : Nat) (g : Grid) : Option (List Nat) :=
  let here := (s.teams.filter (fun e => e.1 / 32 == cluster)).map (·.1)
  let may := (List.range 4).flatMap (fun m => s.lesser p (4 * cluster + m) g.rank)
  let coming := s.grids.any (fun e => e.2.groups.any (fun x => x.2 == cluster && e.2.groupComing x.1 &&
    !here.any (fun t => match s.team t with | some y => y.grid == e.1 && y.num / 4 == x.1 | none => false)))
  if (List.range 4).all (fun m => (s.coresOf p).contains (4 * cluster + m)) && here.all may.contains && !coming then some may else none

/-- RANK_PRESSURE: a team has lacked only room for 10 µs. The requests that it makes bear the number of the waiting grid; a request that is in
progress already stays as it is (R83). -/
def State.rankPressure (s : State) (entry : Nat) : State :=
  match s.grid entry with
  | none => s
  | some g =>
    let late := match g.roomless with | some t => decide (t + 10 * usec ≤ s.time) | none => false
    let asked := s.teams.any (fun e => e.2.reqRank == some entry && e.2.preempt != .none)
    if !late || asked then s
    else
      let options : List (List Nat) := if g.rec_.cluster
        then (List.range 40).filterMap (fun c => s.clearCluster g.part c g)
        else (s.coresOf g.part).filterMap (fun c => s.fewestOn g.part c g)
      match s.nextTeam g, shortest options with
      | none, _ => s
      | _, none => s
      | _, some [] => s
      | some n, some l =>
        let all := dedup (l.flatMap (fun t => s.group t))
        let s := all.foldl (fun s t => match s.team t with
          | some x => if x.asked then s else (s.askPreempt t).updTeam t (fun x => { x with reqRank := some entry })
          | none => s) s
        { s with pressure := if s.pressure.contains (g.order, n) then s.pressure else s.pressure ++ [(g.order, n)] }

/-! ## Save areas and multicasts (R78 steps 1 and 2) -/

/-- SAVE_AREA_SUPPLIED: without an area the request is abandoned; one of rank pressure is raised again after 100 µs. -/
def State.areaSupplied (s : State) (t : Nat) (base : Option W64) : State :=
  (if base.isNone then s.goOver t else s).updTeam t (fun x => match x.preempt, base with
    | .area dead, some b => { x with preempt := .drain b dead }
    | .area _, none => if x.reqRank.isSome then { x with preempt := .retry (s.time + 100 * usec) } else { x with preempt := .none }
    | _, _ => x)

/-- SAVE_AREA_RETRY. -/
def State.areaRetry (s : State) (t : Nat) : State :=
  match s.team t with
  | some { preempt := .retry at_, .. } => if at_ ≤ s.time then (s.updTeam t (fun x => { x with preempt := .none })).askPreempt t else s
  | _ => s

/-- MULTICAST_DRAIN_DONE: the multicasts that the cluster issued before the request are written and acknowledged. -/
def State.drainDone (s : State) (t : Nat) : State :=
  let mark := match s.team t with | some x => x.reqMark | none => 0
  if s.cmds.any (fun c => c.core / 4 == t / 32 && Desc.mcast c.desc != 0 && decide (c.id < mark)) then s
  else s.updTeam t (fun x => match x.preempt with | .drain b dead => { x with preempt := .points b dead } | _ => x)

/-! ## Safe points (R78 steps 3 and 4, R79, R276) -/

/-- The instruction at an address, as the agent would fetch it. -/
def State.instrAt (s : State) (w : Who) (pc : W64) : Option Instr :=
  let word : Option (BitVec 208) := match s.codeWord w.core w.asid pc with
    | .ok k => some k
    | .error _ =>
      match s.hwReads (dieOf w.core) w.asid w.part pc 2 5 w.handler with
      | .val v =>
        match s.hwReads (dieOf w.core) w.asid w.part pc 2 (lengthOf (BitVec.ofNat 208 v) / 2) w.handler with
        | .val v => some (BitVec.ofNat 208 v)
        | _ => none
      | _ => none
  match word with
  | some k => (match decode k with | .ok i => some i | .error _ => none)
  | none => none

/-- The safe-point field of R371: SPV and the index. -/
def spIndex (x : Args) : Option Nat := if modBit x.mod 9 then some (modBits x.mod 8 3) else none

/-- The safe point that an instruction is, for a warp or for a control thread. -/
def safeIndex (i : Instr) (ct : Bool) : Option Nat :=
  if ct then match i with | .evwait x => spIndex x | .ugwait x => spIndex x | _ => none
  else match i with
    | .safe x => some (modBits x.mod 5 0)
    | .barw x => spIndex x
    | .join x => spIndex x
    | .waitc x => spIndex x
    | .dqpop x => spIndex x
    | _ => none

/-- The safe point that an agent at an instruction stands at: SAFE is one only where its guard holds in some lane (R318). -/
def State.safeHere (s : State) (g : Agent) (i : Instr) : Option Nat :=
  match g, i with
  | .ct _, i => safeIndex i true
  | .warp k, .safe x => (match s.warp k with | some y => if s.guarded g false x.ctl y.live = 0 then none else safeIndex (.safe x) false | none => none)
  | .warp _, i => safeIndex i false

/-- The safe point at which an agent stands, every live lane at one address and none parked (R79). -/
def State.safeAt (s : State) (g : Agent) : Option Nat :=
  match s.who g with
  | none => none
  | some w =>
    let at_ : Option W64 := match g with
      | .ct _ => some (s.pcOf g 0)
      | .warp k => match s.warp k with
        | some x =>
          let pc := s.pcOf g (lowest x.live)
          if x.live != 0 && x.parked == 0 && (lanesOf x.live).all (fun j => s.pcOf g j == pc) then some pc else none
        | none => none
    let gone := match g, s.team w.team with | .ct _, some t => t.ctExited || t.ctTicket.isSome || t.ct.trap.isSome || t.ct.forced | _, _ => false
    let forced := match s.ctx g with | some c => c.forced || c.saved | none => true
    match at_ with
    | none => none
    | some pc => if gone || forced then none else (s.instrAt w pc).bind (fun i => s.safeHere g i)

/-- SAFE_POINT_TAKE. -/
def State.safePointTake (s0 : State) (g : Agent) : State :=
  let s := s0.land g
  match s.safeAt g with
  | none => s
  | some k => (s.takeSafe g k).getD s

/-- An agent stands at a safe point after a request whose first two steps are not over: it waits there, so that the safe point is taken (R78,
R79, R83). -/
def State.safeHeld (s : State) (g : Agent) : Bool :=
  let early := match s.ctx g with
    | some c => (match s.team c.team with | some { preempt := .area _, .. } => true | some { preempt := .drain _ _, .. } => true | _ => false)
    | none => false
  early && (match s.safeAt g with | some k => s.safeSoon g k | none => false)

/-- Its team waits for its agents to take safe points (R78). -/
def State.safeWanted (s : State) (g : Agent) : Bool :=
  match s.ctx g with
  | some c => (match s.team c.team with | some { preempt := .points .., .. } => true | _ => false)
  | none => false

/-- What ends a wait of an agent comes after the safe point at which it stands: one that the team waits for is taken first, and while its
request is young the agent stays there (R79, R83). -/
def State.afterSafe (s : State) (g : Agent) (f : State → State) : State :=
  let s := if s.safeWanted g then s.safePointTake g else s
  if s.safeHeld g then s else f s

/-! ## The deadline (R78, R80) -/

/-- An agent is to be saved by force: it leaves what it waits in, to execute it again after the restore. -/
def State.forceSave (s : State) (g : Agent) : State :=
  match g with
  | .ct t => s.updTeam t (fun x => { x with ct := { x.ct with forced := true, hold := .none } })
  | .warp k => s.updWarp k (fun x =>
      let x := x.leaveBlocks
      { x with latch := none, ctx := { x.ctx with forced := true, hold := .none } })

/-- Agents of a team that have not begun their save routine. -/
def State.unsaved (s : State) (x : Team) : List Agent :=
  (x.warps.filter (fun w => match s.warp w with | some y => y.live != 0 && y.ctx.safe.isNone && !y.ctx.saved && !y.ctx.forced | none => false)).map Agent.warp ++
  (if x.ctExited || x.ct.safe.isSome || x.ct.saved || x.ct.forced then [] else [.ct (8 * x.core + x.k)])

/-- PREEMPT_DEADLINE: whoever has not begun its save routine is saved by force. A halted warp stops the count; a team that is still being
placed is placed first, and a safe point at which an agent arrives in the same cycle is taken (R83). -/
def State.deadline (s : State) (t : Nat) : State :=
  match s.team t with
  | none => s
  | some x =>
    match x.preempt with
    | .points _ dead =>
      let halted := x.ct.halted || x.warps.any (fun w => match s.warp w with | some y => y.halted != 0 | none => false)
      if s.time < dead || halted || !x.started then s
      else
        let s := (s.unsaved x).foldl (fun s g => s.safePointTake g) s
        let l := s.unsaved ((s.team t).getD x)
        let part := match s.grid x.grid with | some g => g.part | none => 0
        let s := l.foldl (fun s g => s.forceSave g) s
        s.setPart part { s.part part with forcedN := (s.part part).forcedN + l.length }
    | _ => s

/-! ## The hardware save (R78 steps 5 and 6, R80, R81, R124) -/

/-- The copy commands of a warp that are suspended on a fault, or multicasts that the request holds back. -/
def State.suspendedOf (s : State) (k : Nat) : Nat :=
  (s.cmds.filter (fun c => c.warp == some k && c.suspended.isSome)).length +
  (s.teams.flatMap (fun e => e.2.heldCmd.filter (fun h => h.warp == some k))).length

/-- A forced agent is ready to be taken (R80): its speculation is over, its results have landed, its tags are free and its counters at
zero, but for descriptors suspended on a fault. -/
def State.forcedReady (s : State) (g : Agent) : Bool :=
  match s.ctx g with
  | none => true
  | some c =>
    let rest := match g with
      | .warp k => (match s.warp k with | some x => x.window.isEmpty && x.svc.isNone && x.mxq.isEmpty && decide (c.cp ≤ s.suspendedOf k) | none => true)
      | .ct _ => true
    c.landings.isEmpty && c.busy == 0 && c.ld == 0 && c.st == 0 && c.mx == 0 && rest

/-- Land what is due for the forced agents, and take those that are ready. -/
def State.takeForced (s : State) (x : Team) : State :=
  let all := x.warps.map Agent.warp ++ [.ct (8 * x.core + x.k)]
  all.foldl (fun s g =>
    match s.ctx g with
    | some c =>
      if c.forced && !c.saved then
        let s := match g with | .warp k => (s.land g).roomFound k | .ct _ => s.land g
        if s.forcedReady g then s.updCtx g (fun c => { c with saved := true }) else s
      else s
    | none => s) s

/-- Every agent of a team has ended or has been saved. -/
def State.allSaved (s : State) (x : Team) : Bool :=
  (x.ctExited || x.ct.saved) && x.warps.all (fun w => match s.warp w with | some y => y.live == 0 || y.ctx.saved | none => true)

/-- Its engines have drained, but for commands suspended on a fault: a schedule descriptor that is released and whose turn it is issues first,
unless it is a multicast that the request holds back (R78). -/
def State.enginesDrained (s : State) (t : Nat) (x : Team) : Bool :=
  (match x.sched with | d :: _ => d.released.isNone || s.castHeld t d.desc | [] => true) && s.cmds.all (fun c => c.team != t || c.suspended.isSome) && x.array.isEmpty &&
  s.units.all (fun u => !u.holds t) && x.warps.all (fun w => match s.warp w with | some y => y.mxq.isEmpty | none => true)

/-- What the writes of n bytes of a save area must wait for, if anything: the tables and leaves of its pages. -/
def State.areaWait (s : State) (g : Grid) (core : Nat) (base : W64) (n : Nat) : Option Nat :=
  (List.range (n / 4096 + 2)).findSome? (fun i =>
    match s.hwLeaf (dieOf core) g.asid g.part (base + BitVec.ofNat 64 (4096 * i)) 64 .write false with | .wait pa => some pa | _ => none)

/-- Write a 64-byte block of a save area where it can be written: in device memory under its leaf, stamped whatever the page's HOME is,
or through to a window (R431). -/
def State.writeBlock (s : State) (g : Grid) (core : Nat) (va : W64) (v : Nat) : State :=
  match s.hwLeaf (dieOf core) g.asid g.part va 64 .write false with
  | .ok pa leaf _ =>
    let s := s.hwTouch (dieOf core) g.asid g.part va 64 .write false
    s.ownWrite core g.asid pa 64 v (some leaf)
  | _ => s

/-- Write n 64-byte blocks of a number to an area, where it can be written. -/
def State.writeArea (s : State) (g : Grid) (core : Nat) (va : W64) (n v : Nat) : State :=
  match n with
  | 0 => s
  | k + 1 => (s.writeBlock g core va (v % 2 ^ 512)).writeArea g core (va + 64) k (v / 2 ^ 512)

/-- n 256-byte blocks of an area take values that the spec does not lay out (log entry 12). -/
def State.fillArea (s : State) (g : Grid) (core : Nat) (va : W64) (n : Nat) : State :=
  match n with
  | 0 => s
  | k + 1 =>
    let (f, s) := s.free
    (s.writeArea g core va 4 f.toNat).fillArea g core (va + 256) k

/-- What is kept of a warp. -/
def keepWarp (k : Nat) (x : Warp) : SavedWarp where
  k := k
  safe := x.ctx.safe
  forced := if x.ctx.forced then some x else none
  exited := x.live == 0 && x.ctx.safe.isNone
  live := x.safeLive
  depth := x.safeDepth
  wclk := x.ctx.wclk
  edge := x.ctx.edge
  sysAcq := x.ctx.sysAcq
  seen := x.ctx.seen

/-- The team leaves its core with its state kept by the launch front. -/
def State.saveTeam (s : State) (t : Nat) (x : Team) (g : Grid) (base : W64) : State :=
  let mine := s.cmds.filter (fun c => c.team == t)
  let index (w : Nat) : Nat := x.warps.idxOf w
  let saved : SavedTeam := {
    team := { x with ended := false, started := false, preempt := .none, regions := (x.regions.filter (fun r => !r.2.gone)).map (fun r => (r.1, { r.2 with dirty := [], asked := [] })) }
    warps := x.warps.zipIdx.filterMap (fun e => (s.warp e.1).map (keepWarp e.2))
    ctSafe := x.ct.safe
    area := base
    clock := match x.objClock with | [] => 0 | e :: r => r.foldl (fun m o => serialMax m o.2) e.2
    release := (s.core x.core).eclk
    cmds := mine.map (fun c => { c with warp := c.warp.map index }) }
  let s := s.writeArea g x.core (base + 4096) (g.rec_.scratch / 64) (Mem.readN x.scr 0 g.rec_.scratch)
  let s := s.fillArea g x.core base 16
  let s := saved.warps.foldl (fun s w => if w.forced.isSome then s.fillArea g x.core (g.areaOf base w.k) (g.areaSize / 256) else s) s
  let s := if x.ct.forced then s.fillArea g x.core (g.areaOf base x.warps.length) (g.areaSize / 256) else s
  let s := s.freePlaces t x
  let ids := mine.map (·.id)
  let s : State := { s with
    cmds := s.cmds.filter (fun c => c.team != t)
    cores := s.cores.map (fun e => (e.1, { e.2 with locks := e.2.locks.filter (fun l => !ids.contains l.owner) }))
    grids := Tab.upd s.grids x.grid (fun g => { g with
      saved := g.saved ++ [saved]
      resident := g.resident.filter (fun e => e.1 != x.num)
      groups := if g.resident.any (fun e => e.1 != x.num && e.1 / 4 == x.num / 4) then g.groups else Tab.erase g.groups (x.num / 4)
      state := if g.state == .running then .placing else g.state }) }
  s.setPart g.part { s.part g.part with savedN := (s.part g.part).savedN + 1 }

/-- HARDWARE_SAVE: once every agent is saved and the engines have drained, dirty region bytes go home, then the core's L1 (the device-scope
release with which the area is written, R81), and then the team. -/
def State.hardwareSave (s0 : State) (t : Nat) : State :=
  match s0.team t with
  | none => s0
  | some x0 =>
    match x0.preempt, s0.grid x0.grid with
    | .points base _, some g =>
      let s := s0.takeForced x0
      match s.team t with
      | none => s
      | some x =>
        if x.over || !x.started || !s.allSaved x || !s.enginesDrained t x then s
        else if x.regions.any (fun r => !r.2.dirty.isEmpty) then
          (match s.flushWait t with
            | some pa => s.fillHost { g.who with core := x.core } pa
            | none => s.flushRegions t)
        else (s.releaseStart x.core).updTeam t (fun x => { x with preempt := .writeBack base })
    | .writeBack base, some g =>
      if s0.wbInFlight x0.core then s0
      else match s0.areaWait g x0.core base (4096 + g.rec_.scratch + (x0.warps.length + 1) * g.areaSize) with
        | some pa => s0.fillHost { g.who with core := x0.core } pa
        | none => s0.saveTeam t x0 g base
    | _, _ => s0

/-! ## The restore (R82, R278) -/

/-- The scratchpad comes back from the area. -/
def State.readArea (s : State) (g : Grid) (core : Nat) (base : W64) (old : Mem) : Except Nat (Mem × State) :=
  match s.hwTake (dieOf core) g.asid g.part (base + 4096) 64 (g.rec_.scratch / 64) with
  | (.val v, s) => .ok (Mem.writeN [] 0 g.rec_.scratch v, s)
  | (.fail _, s) => .ok (old, s)
  | (.wait pa, _) => .error pa

/-- The lock entries that a saved team takes again before any of its lanes issues (R142): those of its suspended commands and of its released
descriptors. -/
def State.backLocks (s : State) (t : Nat) (y : SavedTeam) : List (Nat × Lock) :=
  match s.engWho t with
  | none => []
  | some w =>
    y.cmds.flatMap (fun c => s.cmdLocks w c.desc c.index c.id) ++
    (y.team.sched.filter (·.locked)).flatMap (fun d => s.cmdLocks w d.desc (s.indexList t d.desc) d.id)

/-- Suspended commands go on under the team's new places. -/
def State.resumeCmds (s : State) (t : Nat) (x : Team) (cmds : List Cmd) : State :=
  { s with cmds := s.cmds ++ cmds.map (fun c => { c with
      core := x.core, team := t, warp := c.warp.map (fun k => x.warps.getD k 0), recv := (s.receivers t c.desc).filterMap (·.2) }) }

/-- A saved team runs again, with its scratchpad, the records that came for it meanwhile, and its suspended commands. -/
def State.bringBack (s : State) (entry : Nat) (g : Grid) (y : SavedTeam) (t : Nat) (x : Team) (scr : Mem) : State :=
  let clocks : Tab W32 := if y.clock = 0 then [] else (List.range (g.rec_.scratch / 32)).map (fun i => (i, y.clock))
  let s := ((s.decisionDone x).startTeamClocks t (serialMax s.floor y.release)).holdLeaves t g.asid
  let s := s.updTeam t (fun x => { x with
    scr := scr
    objClock := clocks
    eq := (x.eq ++ y.events).take 32
    lost := x.lost || y.evLost || decide (32 < x.eq.length + y.events.length) })
  let s := (s.takeLocks (s.backLocks t y)).resumeCmds t x y.cmds
  (s.updGrid entry (fun g => { g with saved := g.saved.filter (fun o => o.team.num != y.team.num) })).nowRunning entry

/-- The saved team that comes back next, with its new place (R73, R82). -/
def State.returning (s : State) (g : Grid) : Option (SavedTeam × Nat) :=
  let ready (y : SavedTeam) : Option Nat := match g.resident.find? (fun e => e.1 == y.team.num) with
    | some (_, t) => (match s.team t with | some x => if !x.started && s.decisionNext x then some t else none | none => none)
    | none => none
  g.saved.findSome? (fun y => (ready y).map (fun t => (y, t)))

/-- TEAM_RESTORE: the header and the scratchpad come back, and the team runs. -/
def State.teamRestore (s : State) (entry : Nat) : State :=
  match s.grid entry with
  | none => s
  | some g =>
    match s.returning g with
    | none => s
    | some (y, t) =>
      match s.team t with
      | none => s
      | some x =>
        if !s.locksFit (s.backLocks t y) then s
        else match s.readArea g x.core y.area y.team.scr, s.featWait g.asid with
          | .error pa, _ => s.fillHost { g.who with core := x.core } pa
          | .ok _, some pa => s.fillHost { g.who with core := x.core } pa
          | .ok (scr, s), none => s.bringBack entry g y t x scr

/-! ## The events -/

def execJoinTimeout (w k : Nat) (s : State) : Host.Outcome State Fault Refusal :=
  s.whileLive (fun s => s.afterSafe (.warp w) (fun s => s.joinTimeout w k))
def execBarwRetest (w : Nat) (s : State) : Host.Outcome State Fault Refusal :=
  s.whileLive (fun s => s.afterSafe (.warp w) (fun s => s.retestBarw w))
def execRankPressure (entry : Nat) (s : State) : Host.Outcome State Fault Refusal := s.whileLive (fun s => s.rankPressure entry)
def execSaveAreaSupplied (t : Nat) (base : Option W64) (s : State) : Host.Outcome State Fault Refusal :=
  s.whileLive (fun s => s.areaSupplied t base)
def execSaveAreaRetry (t : Nat) (s : State) : Host.Outcome State Fault Refusal := s.whileLive (fun s => s.areaRetry t)
def execMulticastDrainDone (t : Nat) (s : State) : Host.Outcome State Fault Refusal := s.whileLive (fun s => s.drainDone t)
def execSafePointTake (g : Agent) (s : State) : Host.Outcome State Fault Refusal := s.whileLive (fun s => s.safePointTake g)
def execPreemptDeadline (t : Nat) (s : State) : Host.Outcome State Fault Refusal := s.whileLive (fun s => s.deadline t)
def execHardwareSave (t : Nat) (s : State) : Host.Outcome State Fault Refusal := s.whileLive (fun s => s.hardwareSave t)
def execTeamRestore (entry : Nat) (s : State) : Host.Outcome State Fault Refusal := s.whileLive (fun s => s.teamRestore entry)
def execPreemptGo (p : Nat) (minRank : BitVec 3) (s : State) : Host.Outcome State Fault Refusal :=
  s.whileLive (fun s => s.goPreempt p minRank)
def execPreemptHold (p : Nat) (hold : Bool) (s : State) : Host.Outcome State Fault Refusal :=
  s.whileLive (fun s => s.setPart p { s.part p with hold := hold })

end Sys2Proof.Machine
end

