-- ==== Sys2Proof/Machine/HostPort.lean ====
section
/-!
DEFINITION. The host ports and the register block as events: posts (R48), queues and partitions (R46, R57), keys (R59), the host's
reads, writes and atomics of device memory (R60 to R62, R125, R143), register writes and refused accesses (R5, R44), training and loss
of a port (R28, R63).
-/

namespace Sys2Proof.Machine

/-! ## Host accesses to device memory -/

/-- The slot of a port's accesses, if it holds a key (R58). -/
def State.hostKey (s : State) (port : Nat) : Option (BitVec 6) :=
  let k := (s.ports.getD port {}).hkey
  if s.keyValid.getLsbD k.toNat then some k else none

/-- R61: the stamp of a host write to a resident line. -/
def State.hostStamp (s : State) (k line : Nat) : State :=
  let s := s.sweepFirst k line
  match Tab.find s.l2 line with
  | none => s
  | some l =>
    let w := serialMax (l.rts + 1) s.hclk
    ({ s with l2 := Tab.set s.l2 line { l with wts := w, rts := w, recalled := false }, hclk := w + 1 } : State).raiseMts k w

/-- R61: a host read that returns a line. -/
def State.hostSaw (s : State) (line : Nat) : State :=
  match Tab.find s.l2 line with | some l => { s with hclk := serialMax s.hclk l.wts } | none => s

/-- The line as a host access finds it: resident under the port's key. -/
def State.hostFetch (s : State) (k line : Nat) (key : BitVec 6) : State := (s.sweepFirst k line).fetchLine k line key noPart false

/-- Bytes of a resident line that a host writes: they replace poison. -/
def State.hostPut (s : State) (line : Nat) (data : Line) (mask : ByteMask) : State := (s.writeLine line data mask).setPoison line mask 0

/-- A request for the line arrived in an earlier cycle and comes first (R126); those of the present cycle come after the bridge. -/
def State.hostBehind (s : State) (line : Nat) : Bool :=
  s.reqs.any (fun r => r.line == line && (match r.arrived with | some t => decide (t < s.tick50) | none => false))

/-- What keeps a host access to a line from being served now: an earlier request, or a copy that a host must first give up. The access has
then not reached the home yet: nothing changes but the recall that it asks for, and it comes again (log entry 29). -/
def State.hostAwaits (s : State) (line : Nat) (key : BitVec 6) (write : Bool) : Option State :=
  if s.hostBehind line then some s
  else match Tab.find s.l2 line with
    | some l =>
      let drop := write || l.key != key
      if l.snoop.isSome then some s
      else if l.host == .he || (drop && l.host == .hs) then some (s.snoop line drop false)
      else none
    | none => s.clearHost line key noPart write

/-- A host copy of one more line of a set must leave four ways free of pinned and of held lines (R109): another line that a host holds is
recalled first; where twelve lines are pinned, one is no longer, which the spec does not say (DESIGN CHOICE, log entry 37). -/
def State.grantRoom (s : State) (k line : Nat) : Option State :=
  if s.heldWays k line < 12 then none
  else
    let set := (s.setLines k line).filter (fun e => e.1 != line)
    match set.find? (fun e => e.2.host != .hi) with
    | some e => some (s.snoop e.1 true false)
    | none => some { s with l2 := match set.find? (fun e => e.2.pinned) with | some e => Tab.set s.l2 e.1 { e.2 with pinned := false } | none => s.l2 }

/-- The values of the command window that a line of it reads as (R43). -/
def State.windowLine (s : State) (line : Nat) : Line :=
  BitVec.ofNat 2048 ((List.range 32).foldl (fun v i =>
    v + (match regOf (256 * line + 8 * i) with | .slot q off => (s.readSlot q off).toNat | _ => 0) * 2 ^ (64 * i)) 0)

/-- Bytes of a line of the command window that a host writes take effect as writes of the slots' registers, word by word (R43, R48). -/
def State.writeWindow (s : State) (line : Nat) (data : Line) (bytes : ByteMask) : State :=
  (List.range 32).foldl (fun s i =>
    let on := (List.range 8).filter (fun b => bytes.getLsbD (8 * i + b))
    match on, regOf (256 * line + 8 * i) with
    | b :: _, .slot q off => s.post q (off + b) on.length (BitVec.ofNat 64 (lineField data (8 * i + b) on.length))
    | _, _ => s) s

/-- A host access that is discarded or answered with poison for want of a key is logged at home 4 (R58). -/
def State.hostNoKey (s : State) (port line : Nat) (read : Bool) : State :=
  let s := s.logError 4 (256 * line)
  if read then s.emit (.hostData port line 0 true) else s

/-- The host state of a line. -/
def State.hostState (s : State) (line : Nat) : HState := match Tab.find s.l2 line with | some l => l.host | none => .hi

def State.setHost (s : State) (line : Nat) (h : HState) : State := { s with l2 := Tab.upd s.l2 line (fun l => { l with host := h }) }

/-- The line is one that a CXL port decodes (R42, R43): of device memory, within decoder 0 and at this port's place in its interleave, or
of the command window under decoder 1. -/
def HostPort.decodes (p : HostPort) (line : Nat) : Bool :=
  p.cxl && !p.down &&
  (match regOf (256 * line) with
    | .slot .. => p.hdm.window
    | _ => decide (256 * line < min p.hdm.size (2 ^ 42)) && (p.hdm.ways == 1 || p.hdm.ways == 2 || p.hdm.ways == 4) && line % p.hdm.ways == p.hdm.pos)

/-- HOST_SHARED_READ. -/
def State.sharedRead (s : State) (port line : Nat) : State :=
  if !(s.ports.getD port {}).decodes line then s
  else match physKind (256 * line) with
    | .home k =>
      match s.hostKey port with
      | none => s.hostNoKey port line true
      | some key =>
        match s.hostAwaits line key false with
        | some s => s
        | none =>
          match s.grantRoom k line with
          | some s => s
          | none =>
            let s := s.hostFetch k line key
            ((s.setHost line .hs).hostSaw line).emit (.hostData port line (s.lineData line) (s.poisonOf line != 0))
    | .regs => s.emit (.hostData port line (s.windowLine line) false)
    | _ => (s.logStray (256 * line)).emit (.hostData port line 0 false)

/-- HOST_OWNERSHIP_READ. An unpopulated line reads as zero and is logged (R14); of the command window the host keeps no state (R43). -/
def State.ownershipRead (s : State) (port line : Nat) : State :=
  if !(s.ports.getD port {}).decodes line then s
  else match physKind (256 * line) with
    | .home k =>
      match s.hostKey port with
      | none => s.hostNoKey port line true
      | some key =>
        match s.hostAwaits line key (s.hostState line == .he) with
        | some s => s
        | none =>
          match s.grantRoom k line with
          | some s => s
          | none =>
            let s := s.hostFetch k line key
            ((s.hostStamp k line).setHost line .he).emit (.grant port line (s.lineData line))
    | .regs => s.emit (.hostData port line (s.windowLine line) false)
    | _ => (s.logStray (256 * line)).emit (.hostData port line 0 false)

/-- A line that a host owns, as a write-back under the port's key finds it: one held under another slot is dropped and filled again (R58); a
recall that is out for it stays out. -/
def State.hostRekey (s : State) (k line : Nat) (key : BitVec 6) : State :=
  match Tab.find s.l2 line with
  | none => s
  | some l =>
    if l.key = key then s
    else
      let s := s.hostFetch k line key
      { s with l2 := Tab.upd s.l2 line (fun x => { x with host := .he, snoop := l.snoop, forWrite := l.forWrite, recalled := l.recalled }) }

/-- HOST_WRITEBACK: of a line that the host owns, or of the command window, where it takes effect as a write (R43). Under an invalid slot R58
says only that the write is discarded: the model discards its bytes and its stamp, and the line's host state follows R60's table all the same
(DESIGN CHOICE, log entry 46). -/
def State.hostWriteBack (s : State) (port line : Nat) (data : Line) (bytes : ByteMask) (keep : Bool) : State :=
  if !(s.ports.getD port {}).decodes line then s
  else match physKind (256 * line) with
    | .home k =>
      if s.hostState line != .he then s
      else match s.hostKey port with
        | some key => (((s.hostRekey k line key).hostPut line data bytes).hostStamp k line).setHost line (if keep then .hs else .hi)
        | none => (s.setHost line (if keep then .hs else .hi)).hostNoKey port line false
    | .regs => s.writeWindow line data bytes
    | _ => s.logStray (256 * line)

/-- BISNP_RESPONSE: the data of an owned line is merged; a line that was to be given up is free of hosts. A line recalled for a device write
has that write jump its lease (R125). -/
def State.snoopAnswer (s : State) (line : Nat) (data : Line) (bytes : ByteMask) : State :=
  match Tab.find s.l2 line with
  | none => s
  | some l =>
    match l.snoop with
    | none => s
    | some inv =>
      let s := if l.host = .he then s.hostPut line data bytes else s
      { s with l2 := Tab.upd s.l2 line (fun l => { l with
          snoop := none
          forWrite := false
          host := if inv then .hi else if l.host = .hi then .hi else .hs
          recalled := l.recalled || (inv && l.forWrite) }) }

/-- One piece of a BAR 4 write, within a line: stamped by R61 as it arrives (R62). -/
def State.bar4Piece (s : State) (port pa n v : Nat) : State :=
  match homeOf pa, s.hostKey port with
  | some _, none => s.hostNoKey port (pa / 256) false
  | some k, some key =>
    let line := pa / 256
    let s := s.hostFetch k line key
    (s.hostPut line (lineOf (pa % 256) v) (byteRange (pa % 256) n)).hostStamp k line
  | none, _ => s.logStray pa

/-- Bytes below 4 TiB: what BAR 4 reaches (R43). -/
def bar4 (pa n : Nat) : Bool := decide (pa + n ≤ 2 ^ 42) && decide (1 ≤ n ∧ n ≤ 64)

/-- What keeps a BAR 4 access from being served: the first of its lines that keeps it waiting. -/
def State.bar4Awaits (s : State) (port pa n : Nat) (write : Bool) : Option State :=
  match s.hostKey port with
  | none => none
  | some key => (cuts 3 pa 0 n).findSome? (fun cut => if (homeOf (pa + cut.1)).isSome then s.hostAwaits ((pa + cut.1) / 256) key write else none)

/-- HOST_BAR4_WRITE: a posted write arrives whole, once no host copy stands in its way (R143). -/
def State.bar4Write (s : State) (port pa n : Nat) (data : BitVec 512) : State :=
  if (s.ports.getD port {}).cxl || (s.ports.getD port {}).down || !bar4 pa n then s
  else match s.bar4Awaits port pa n true with
    | some s => s
    | none => (cuts 3 pa 0 n).foldl (fun s cut => s.bar4Piece port (pa + cut.1) cut.2 (data.toNat / 2 ^ (8 * cut.1) % 2 ^ (8 * cut.2))) s

/-- HOST_BAR4_READ: the home's current bytes. -/
def State.bar4Read (s : State) (port pa n : Nat) : State :=
  if (s.ports.getD port {}).cxl || (s.ports.getD port {}).down || !bar4 pa n then s
  else
    let pieces := cuts 3 pa 0 n
    match pieces.find? (fun cut => (homeOf (pa + cut.1)).isSome), s.hostKey port with
    | some cut, none => s.hostNoKey port ((pa + cut.1) / 256) true
    | none, _ => (s.logStray pa).emit (.hostWord port 0)
    | some _, some key =>
      match s.bar4Awaits port pa n false with
      | some s => s
      | none =>
        let s := pieces.foldl (fun s cut => match homeOf (pa + cut.1) with
          | some k => (s.hostFetch k ((pa + cut.1) / 256) key).hostSaw ((pa + cut.1) / 256)
          | none => s.logStray (pa + cut.1)) s
        if pieces.any (fun cut => s.poisonOf ((pa + cut.1) / 256) &&& byteRange ((pa + cut.1) % 256) cut.2 != 0) then
          s.emit (.hostData port (pa / 256) 0 true)
        else
          let v := pieces.foldl (fun v cut => v +
            (if (homeOf (pa + cut.1)).isSome then s.homeRead (pa + cut.1) cut.2 else 0) * 2 ^ (8 * cut.1)) 0
          s.emit (.hostWord port (BitVec.ofNat 512 v))

/-- Device memory that a port reaches: through BAR 4 in PCIe mode, through HDM decoder 0 in CXL mode (R43). -/
def HostPort.reaches (p : HostPort) (pa n : Nat) : Bool :=
  (match physKind pa with | .regs => false | _ => true) && (if p.cxl then p.decodes (pa / 256) else !p.down && bar4 pa n)

/-- HOST_ATOMIC: serialised at the home, before the device's atomics of its cycle (R147), and stamped as a host write. -/
def State.hostAtomicOp (s : State) (port pa : Nat) (op : AtomOp) : State :=
  let n := Ty.bits op.ty / 8
  let line := pa / 256
  if !(s.ports.getD port {}).reaches pa n || !hostAtomic op || pa % n != 0 then s
  else match homeOf pa, s.hostKey port with
    | some _, none => s.hostNoKey port line true
    | none, _ => (s.logStray pa).emit (.hostOld port 0)
    | some k, some key =>
      match s.hostAwaits line key true with
      | some s => s
      | none =>
        let s := s.hostFetch k line key
        if s.poisonOf line &&& byteRange (pa % 256) n != 0 then s.emit (.hostData port line 0 true)
        else
          let old := lineField (s.lineData line) (pa % 256) n
          ((s.writeLine line (lineOf (pa % 256) (atomNew op old)) (byteRange (pa % 256) n)).hostStamp k line).emit (.hostOld port (BitVec.ofNat 64 old))

/-! ## Registers (R5, R44) -/

/-- A host access to a register is permitted (R44): the listed reads, writes of some through an ADMIN port, and the command window (R43). -/
def State.hostMay (s : State) (port : Nat) (r : Reg) (write : Bool) : Bool :=
  match r with
  | .slot .. => true
  | r => if write then hostWrites r && (s.ports.getD port {}).admin else hostReads r

/-- A write of a register: by a service core or Vudor, or by a host through a port. -/
def State.registerWrite (s : State) (addr : Nat) (v : W64) (port : Option Nat) : State :=
  let r := regOf addr
  match port with
  | none => s.regWrite r v
  | some p => if s.hostMay p r true then s.regWrite r v else s.logError 4 addr

/-- A refused host access: a read returns zero, a write is ignored, and home 4 records it (R44). -/
def State.hostRefused (s : State) (port addr : Nat) (write : Bool) : State :=
  if decide (4 ≤ port) || s.hostMay port (regOf addr) write then s
  else
    let s := s.logError 4 addr
    if write then s else s.emit (.value 0)

/-- A read of a register returns its value and clears its RC fields (R5); by a host, only where R44 lists the register. -/
def State.registerRead (s : State) (addr : Nat) (port : Option Nat) : State :=
  match port with
  | some p => if s.hostMay p (regOf addr) false then (s.regClear (regOf addr)).emit (.value (s.regPeek (regOf addr))) else s.hostRefused p addr false
  | none => (s.regClear (regOf addr)).emit (.value (s.regPeek (regOf addr)))

/-! ## Keys (R59) -/

/-- KEY_OPERATION_DONE: the lines under the slot have left the homes, those that a host holds after their recall; then the slot takes
its key, or none. -/
def State.keyDone (s : State) : State :=
  match s.keyBusy with
  | none => s
  | some load =>
    let k := s.keySlot
    let mine := s.l2.filter (fun e => e.2.key == k)
    match mine.find? (fun e => e.2.host != .hi || e.2.snoop.isSome) with
    | some e => s.snoop e.1 true false
    | none =>
      let bit : W64 := BitVec.ofNat 64 (2 ^ k.toNat)
      let s : State := { s with l2 := s.l2.filter (fun e => e.2.key != k), keyBusy := none }
      if load then { s with keys := Tab.set s.keys k.toNat (.loaded s.keyData), keyData := 0, keyValid := s.keyValid ||| bit }
      else { s with keys := Tab.erase s.keys k.toNat, keyValid := s.keyValid &&& ~~~bit }

/-- A write of KEYCTL that names a slot and an operation. -/
def State.keyStart (s : State) (slot : BitVec 6) (load : Bool) : State :=
  s.writeKeyctl (slot.setWidth 64 ||| (if load then 0x100 else 0x200))

/-! ## The events -/

def execPost (q off size : Nat) (value : W64) (s : State) : Host.Outcome State Fault Refusal :=
  s.whileLive (fun s => if q < 4096 then s.post q off size value else s)
def execQueueEnable (q : Nat) (word0 : W64) (s : State) : Host.Outcome State Fault Refusal :=
  s.whileLive (fun s => s.writeQ0 q (word0 ||| 0x4000000000000000))
def execQueueDisable (q : Nat) (word0 : W64) (s : State) : Host.Outcome State Fault Refusal :=
  s.whileLive (fun s => s.writeQ0 q (word0 &&& ~~~(0x4000000000000000 : W64)))
def execQueueSync (q : Nat) (word1 : W64) (s : State) : Host.Outcome State Fault Refusal :=
  s.whileLive (fun s => s.writeQ1 q (word1 ||| 0x80000000))
def execPartitionEnable (p : Nat) (word0 : W64) (s : State) : Host.Outcome State Fault Refusal :=
  s.whileLive (fun s => s.writePart0 p (word0 ||| 1))
def execPartitionDisable (p : Nat) (word0 : W64) (s : State) : Host.Outcome State Fault Refusal :=
  s.whileLive (fun s => s.writePart0 p (word0 &&& ~~~(1 : W64)))
def execKeyLoad (slot : BitVec 6) (s : State) : Host.Outcome State Fault Refusal := s.whileLive (fun s => s.keyStart slot true)
def execKeyClear (slot : BitVec 6) (s : State) : Host.Outcome State Fault Refusal := s.whileLive (fun s => s.keyStart slot false)
def execKeyOperationDone (s : State) : Host.Outcome State Fault Refusal := s.whileLive (fun s => s.keyDone)
def execHostSharedRead (port line : Nat) (s : State) : Host.Outcome State Fault Refusal := s.whileLive (fun s => s.sharedRead port line)
def execHostOwnershipRead (port line : Nat) (s : State) : Host.Outcome State Fault Refusal := s.whileLive (fun s => s.ownershipRead port line)
def execHostWriteback (port line : Nat) (data : Line) (bytes : ByteMask) (keep : Bool) (s : State) : Host.Outcome State Fault Refusal :=
  s.whileLive (fun s => s.hostWriteBack port line data bytes keep)
def execBisnpResponse (line : Nat) (data : Line) (bytes : ByteMask) (s : State) : Host.Outcome State Fault Refusal :=
  s.whileLive (fun s => s.snoopAnswer line data bytes)
def execHostBar4Write (port pa n : Nat) (data : BitVec 512) (s : State) : Host.Outcome State Fault Refusal :=
  s.whileLive (fun s => s.bar4Write port pa n data)
def execHostBar4Read (port pa n : Nat) (s : State) : Host.Outcome State Fault Refusal := s.whileLive (fun s => s.bar4Read port pa n)
def execHostAtomic (port pa : Nat) (op : Nat) (ty : Ty) (operand cmp : W64) (s : State) : Host.Outcome State Fault Refusal :=
  s.whileLive (fun s => s.hostAtomicOp port pa { op := op, ty := ty, b := operand, cmp := cmp })
def execHostRefusedAccess (port off : Nat) (write : Bool) (s : State) : Host.Outcome State Fault Refusal :=
  s.whileLive (fun s => s.hostRefused port (regBase + off) write)
def execRegisterWrite (addr : Nat) (value : W64) (port : Option Nat) (s : State) : Host.Outcome State Fault Refusal :=
  s.whileLive (fun s => s.registerWrite addr value port)
def execDlctlPin (link : Nat) (value : W64) (s : State) : Host.Outcome State Fault Refusal := s.whileLive (fun s => s.writePin link value)
def execChipcfgWrite (value : W64) (s : State) : Host.Outcome State Fault Refusal := s.whileLive (fun s => s.regWrite .chipcfg value)
def execPwrcfgWrite (p : Nat) (value : W64) (s : State) : Host.Outcome State Fault Refusal := s.whileLive (fun s => s.regWrite (.pwrcfg p) value)
def execRcRegisterRead (read : RegRead) (s : State) : Host.Outcome State Fault Refusal :=
  s.whileLive (fun s => s.registerRead read.addr read.port)
def execHostPortLinkTraining (port : Nat) (training : Training) (s : State) : Host.Outcome State Fault Refusal :=
  s.whileLive (fun s => { s with ports := s.ports.set port { s.ports.getD port {} with cxl := training.cxl, down := false, hdm := training.hdm } })
def execHostPortDown (port : Nat) (s : State) : Host.Outcome State Fault Refusal :=
  s.whileLive (fun s => { s with ports := s.ports.set port { s.ports.getD port {} with down := true } })

end Sys2Proof.Machine
end

