-- ==== Sys2Proof/Machine/Power.lean ====
section
/-!
DEFINITION. Power and management (R30 to R41): the package states, the staggered start of cores and idle partitions, FATAL and reset,
the five causes of a partition's level, the lifetime records, the firmware image, attestation.
-/

namespace Sys2Proof.Machine

/-- A millisecond. -/
def msec : Nat := 1000 * usec

/-- Vudor is powered. -/
def State.standing (s : State) : Bool := s.pkg != .off

/-! ## FATAL (R32) -/

/-- The package enters FATAL: the record is written and committed, and every host port signals the error. -/
def State.fatalNow (s : State) (c : FatalCause) : State :=
  let r : FatalRec := { cause := c, datum := s.datum }
  let s : State := { s with pkg := .fatal, vudor := { s.vudor with fatal := (r :: s.vudor.fatal).take 16 } }
  (List.range 4).foldl (fun s p => s.emit (.fatal p)) s.commitRecords

/-! ## Reset and standby power (R30, R39) -/

/-- The package as a reset leaves it, at a time, with what Vudor keeps, and the model's own fields going on. -/
def State.afterReset (s : State) (v : Vudor) (p : Pkg) : State :=
  { State.reset with
    time := s.time
    resetAt := s.time
    moves := s.moves
    fresh := s.fresh
    nextId := s.nextId
    outbox := s.outbox
    window := s.datum / 1000
    lastPlace := s.datum
    dbgPoll := s.time / usec
    boardTime := s.time
    levelTime := [s.time, s.time]
    parts := List.replicate 8 { idleAt := s.time, thrAt := s.time }
    pkg := p
    vudor := { v with frame := none } }

/-- Package reset: everything but Vudor's records, image and configuration. Without dies powered there is nothing to reset. -/
def State.packageReset (s : State) : State :=
  if s.pkg == .off || s.pkg == .standby then s else s.afterReset s.vudor .boot

/-- Loss of standby power: what is not in flash is lost; events were committed at once (R39). -/
def State.powerLoss (s : State) : State := s.afterReset { s.vudor with counts := s.vudor.stored } .off

/-! ## Firmware (R40) -/

/-- The digest of an image's body. -/
def imageDigest (i : Image) : BitVec 256 := Config.sha3 i.body

/-- The boot ROM's checks of an image. -/
def State.imageOk (s : State) (i : Image) : Bool :=
  Config.mldsaVerify (imageDigest i) i.sig && decide (s.vudor.minVersion ≤ i.secVersion)

/-- BOOT_VERIFY: START with every core to power up and the chip id loaded (R26, R31), or RECOVERY. -/
def State.bootVerify (s : State) : State :=
  if s.pkg != .boot then s
  else match s.vudor.image with
    | some i =>
      if s.imageOk i then
        let id : BitVec 10 := s.vudor.chipId.getD 0x3FF
        { s with pkg := .start, chipcfg := id.setWidth 64, powerSeq := List.range 160, powerAt := none }
      else { s with pkg := .recovery }
    | none => { s with pkg := .recovery }

/-- FIRMWARE_UPDATE: a verified image replaces the old one; if the write is interrupted no valid image is left. -/
def State.firmwareUpdate (s : State) (i : Image) (interrupted : Bool) : State :=
  if !s.standing || !s.imageOk i then s
  else if interrupted then { s with vudor := { s.vudor with image := none } }
  else
    let low := if i.raiseMin then max s.vudor.minVersion i.secVersion else s.vudor.minVersion
    let s : State := { s with vudor := { s.vudor with image := some i, minVersion := low } }
    if s.pkg = .recovery then { s with pkg := .boot } else s

/-! ## Staggered power-up and idle partitions (R31) -/

/-- The cores of a partition's clusters. -/
def Part.allCores (x : Part) : List Nat := (List.range 160).filter (fun c => x.clusters.getLsbD (c / 4))

/-- A partition has a resident team or a queued launch: a posted record not consumed, or a grid with teams to place. R31 does not say whether a
record in a queue whose EN is 0 is a queued launch: the model counts enabled queues only (DESIGN CHOICE, log entry 46). -/
def State.partBusy (s : State) (p : Nat) : Bool :=
  s.partActive p ||
  s.grids.any (fun e => e.2.part == p && e.2.state != .retired && e.2.state != .draining) ||
  s.queues.any (fun e => qEn e.2.word0 && qPart e.2.word0 == p && e.2.head != e.2.tail)

/-- A core with its power on: it has lost what it held while it was down; its watchpoints and its place in sampling stay. -/
def poweredCore (s : State) (c : Nat) : Core :=
  let x := s.core c
  let div := match s.partOfCore c with | some p => divOf (s.part p).level | none => 0
  { powered := true, clk := { base := 0, at_ := s.time, div := div }, eclk := serialMax x.eclk s.floor, watch := x.watch, sampPos := x.sampPos }

/-- CORE_POWER_UP: the next core of the one sequence, 2 µs after the one before. START ends with its last core. -/
def State.corePowerUp (s : State) : State :=
  match s.powerSeq with
  | [] => s
  | c :: rest =>
    let due := s.powerAt.all (fun t => decide (t + 2 * usec ≤ s.time))
    if !due then s
    else
      let s : State := { s.setCore c (poweredCore s c) with powerSeq := rest, powerAt := some s.time }
      if s.pkg == .start && rest.isEmpty then { s with pkg := .run } else s

/-- Partitions that have work to do are not idle, enabled or not: their idle time starts anew, and cores that are down join the sequence. -/
def State.wakeParts (s : State) : State :=
  (List.range 8).foldl (fun s p =>
    let x := s.part p
    if s.partBusy p then
      let down := if s.pkg == .run then x.allCores.filter (fun c => !(s.core c).powered && !s.powerSeq.contains c) else []
      { s.setPart p { x with idleAt := s.time } with powerSeq := s.powerSeq ++ down }
    else s) s

/-- Dirty bytes of a core's L1. -/
def Core.dirtyLines (x : Core) : List Nat := (x.l1.filter (fun e => e.2.dirty != 0)).map (·.1)

/-- The powered cores that a partition's idling takes down: those of its clusters that no other partition has. -/
def State.idleCores (s : State) (p : Nat) : List Nat :=
  (s.part p).allCores.filter (fun c => (s.core c).powered && (match s.partOfCore c with | some q => q == p | none => true))

/-- PARTITION_IDLE: after 1 ms without work the cores of a partition, enabled or not, write back what is dirty and power down together. -/
def State.partitionIdle (s : State) (p : Nat) : State :=
  let x := s.part p
  if s.partBusy p || s.time < x.idleAt + msec then s
  else
    let up := s.idleCores p
    if up.any (fun c => !(s.core c).dirtyLines.isEmpty || s.wbInFlight c) then
      up.foldl (fun s c => (s.core c).dirtyLines.foldl (fun s l => s.flushLine c l [.evict]) s) s
    else up.foldl (fun s c => s.updCore c (fun y => { eclk := y.eclk, watch := y.watch, sampPos := y.sampPos })) s

/-! ## Levels (R34 to R37) -/

/-- The power rank of a partition. -/
def Part.prank (x : Part) : Nat := x.pwrcfg.toNat % 8

/-- Partitions by rank, then by number, both descending. -/
def State.powerOrder (s : State) (ps : List Nat) : List Nat :=
  (List.range 8).reverse.flatMap (fun r => ps.reverse.filter (fun p => (s.part p).prank == r))

/-- The loop of R36, in units of W / 64 of what is needed: the level of each partition in the order given. -/
def cutLevels (floor : Nat → Nat) (dyn : Nat → Nat) (need : Nat) (ps : List Nat) : List (Nat × Nat) × Nat :=
  match ps with
  | [] => ([], need)
  | p :: rest =>
    let d := dyn p
    let cut := if need = 0 ∨ d < 1 then 0 else min need (d * (64 - floor p))
    let level := if cut = 0 then 64 else 64 - (cut + d - 1) / d
    let r := cutLevels floor dyn (need - cut) rest
    ((p, level) :: r.1, r.2)

/-- Dynamic power of a partition. -/
def dynPower (m : Measure) (p : Nat) : Nat := m.dyn.getD p 0

/-- A byte of a frame. -/
def frameByte (f : BitVec 320) (i : Nat) : Nat := f.toNat / 2 ^ (8 * i) % 256
def frameWord (f : BitVec 320) (i : Nat) : Nat := f.toNat / 2 ^ (8 * i) % 2 ^ 32

/-- R35: a frame is accepted. -/
def State.frameOk (s : State) (f : BitVec 320) : Bool :=
  frameByte f 0 == 1 && decide (frameByte f 1 ≤ 7) &&
  (List.range 8).all (fun k => decide (4 ≤ frameByte f (16 + k) ∧ frameByte f (16 + k) ≤ 64)) &&
  Config.kmac s.vudor.hallKey (f.setWidth 192) == BitVec.ofNat 128 (f.toNat / 2 ^ 192) &&
  serialLt s.hallSeq (BitVec.ofNat 32 (frameWord f 4))

/-- Every partition's level of one cause. -/
def State.setLevels (s : State) (cause : Nat) (ls : List (Nat × Nat)) : State := ls.foldl (fun s e => s.setLevel e.1 cause e.2) s

def State.allLevels (s : State) (cause level : Nat) : State := s.setLevels cause ((List.range 8).map (fun p => (p, level)))

/-- R36: hall levels under a frame. -/
def State.hallLevels (s : State) (f : BitVec 320) (m : Measure) : State :=
  let order := s.powerOrder ((List.range 8).filter (fun p => decide (frameByte f 1 ≤ (s.part p).prank)))
  let r := cutLevels (fun p => frameByte f (16 + (s.part p).prank)) (dynPower m) (64 * (m.power - frameWord f 12)) order
  let s := (s.allLevels 0 64).setLevels 0 r.1
  { s with hallShort := r.2 != 0, vudor := { s.vudor with hallAt := s.time } }

/-- The hall cap ends. -/
def State.hallRelease (s : State) : State :=
  let s := s.allLevels 0 64
  { s with vudor := { s.vudor with frame := none } }

/-- HALL_CAP_FRAME (R35, R36). -/
def State.capFrame (s : State) (f : BitVec 320) (m : Measure) : State :=
  if !s.frameOk f then { s with hallRejects := s.hallRejects + 1 }
  else
    let s : State := { s with hallSeq := BitVec.ofNat 32 (frameWord f 4) }
    if frameWord f 8 = 0 then { s.hallRelease with hallShort := false }
    else
      let s : State := { s with vudor := { s.vudor with frame := some f, lapseAt := s.time + frameWord f 8 * msec } }
      s.hallLevels f m

/-- HALL_RECOMPUTE: every 1 ms while a frame is in force. -/
def State.hallRecompute (s : State) (m : Measure) : State :=
  match s.vudor.frame with
  | some f => if s.vudor.hallAt + msec ≤ s.time then s.hallLevels f m else s
  | none => s

/-- HALL_HOLD_EXPIRE. -/
def State.hallExpire (s : State) : State :=
  if s.vudor.frame.isSome && decide (s.vudor.lapseAt ≤ s.time) then s.hallRelease else s

/-- A level of a cause. -/
def State.levelOf (s : State) (p cause : Nat) : Nat := (s.part p).levels.getD cause 64

/-- BOARD_LIMIT_MEASURE (R37). -/
def State.boardMeasure (s : State) (m : Measure) : State :=
  if s.time < s.boardTime + msec then s
  else
    let s : State := { s with boardTime := s.time }
    let watts := s.boardw.toNat % 65536
    if watts = 0 then s.allLevels 1 64
    else if watts < m.power then
      let order := s.powerOrder ((List.range 8).filter (fun p => (s.part p).word0.getLsbD 0 && s.partActive p))
      let r := cutLevels (fun _ => 4) (dynPower m) (64 * (m.power - watts)) order
      s.setLevels 1 (r.1.map (fun e => (e.1, min e.2 (s.levelOf e.1 1))))
    else if m.power * 100 < 95 * watts then s.setLevels 1 ((List.range 8).map (fun p => (p, min 64 (s.levelOf p 1 + 4))))
    else s

/-- Add one to a count of a histogram. -/
def bumpNat (t : Tab Nat) (k : Nat) : Tab Nat := Tab.set t k (Tab.get 0 t k + 1)

/-- R39: the histograms take one step of 100 µs for each of the six dies, with the temperature of each; the supply voltage of a die is open
(log entry 4). Temperatures below 20 °C count in the first bin, and a die has 64 bins of voltage: R39 says neither (DESIGN CHOICE, log entry
14). -/
def State.histograms (s : State) (celsius : Nat) (dies : List Nat) : State :=
  (List.range 6).foldl (fun s d =>
    let (f, s) := s.free
    let bin := min ((dies.getD d celsius - 20) / 5) 20
    s.updCounts (fun c => { c with tempHours := bumpNat c.tempHours (d * 32 + bin), voltHours := bumpNat c.voltHours (d * 64 + f.toNat % 64) })) s

/-- THERMAL_STEP (R32, R34): each 100 µs, with the highest junction temperature and that of each die. -/
def State.thermalStep (s : State) (celsius : Nat) (dies : List Nat) : State :=
  if 115 < celsius then s.fatalNow .temperature
  else if s.time < s.levelTime.getD 0 0 + 100 * usec then s
  else
    let s := ({ s with levelTime := s.levelTime.set 0 s.time } : State).histograms celsius dies
    if 100 < celsius then s.setLevels 2 ((List.range 8).map (fun p => (p, max 4 (s.levelOf p 2 - 4))))
    else if celsius < 95 then s.setLevels 2 ((List.range 8).map (fun p => (p, min 64 (s.levelOf p 2 + 4))))
    else s

/-- CURRENT_LIMIT_TRIP: every partition goes to half its level, no lower than 4. R34 does not say which way half of an odd level rounds: the
model rounds down (DESIGN CHOICE, log entry 46). -/
def State.currentTrip (s : State) : State :=
  let s := s.setLevels 4 ((List.range 8).map (fun p => (p, max 4 ((s.part p).level / 2))))
  { s with levelTime := s.levelTime.set 1 s.time }

/-- CURRENT_LIMIT_RESTORE: a step of 4 each 50 µs. -/
def State.currentRestore (s : State) : State :=
  if s.time < s.levelTime.getD 1 0 + 50 * usec then s
  else
    let s := s.setLevels 4 ((List.range 8).map (fun p => (p, min 64 (s.levelOf p 4 + 4))))
    { s with levelTime := s.levelTime.set 1 s.time }

/-! ## Lifetime records (R39) -/

/-- What passes of the lifetime counters in dt time units: the powered time, and the time that each cause binds some partition. -/
def State.ageCounts (s : State) (dt : Nat) : State :=
  if !s.live then s
  else
    let binds (k : Nat) : Bool := s.parts.any (fun x => x.binding.getD k false)
    s.updCounts (fun c => { c with
      powerOn := c.powerOn + dt
      throttle := c.throttle.zipIdx.map (fun e => if binds e.2 then e.1 + dt else e.1) })

/-- Time between commits. -/
def commitEvery : Nat := 600000 * msec

def State.lifetimeCommit (s : State) : State := if s.vudor.committedAt + commitEvery ≤ s.time then s.commitRecords else s

/-- Hours of a time, in a 32-bit counter. -/
def hours (t : Nat) : W64 := BitVec.ofNat 64 (min (t / (3600000 * msec)) (2 ^ 32 - 1))

/-- The numbers of the fatal causes in the records that are read. -/
def fatalCode (c : FatalCause) : W64 := match c with | .unroutable => 0 | .temperature => 1 | .uncorrectable => 2 | .currentLimit => 3

/-- The records as they are read, in the order of R39 (the message's layout is not in the spec: log entry 14). -/
def Vudor.records (v : Vudor) : List W64 :=
  let c := v.counts
  let t32 (t : Tab W32) (n : Nat) : List W64 := (List.range n).map (fun i => (Tab.get 0 t i).setWidth 64)
  [hours c.powerOn] ++
  (List.range 192).map (fun i => hours (Tab.get 0 c.tempHours i * 100 * usec)) ++
  (List.range 384).map (fun i => hours (Tab.get 0 c.voltHours i * 100 * usec)) ++
  t32 c.corrected 9 ++ t32 c.uncorrected 9 ++
  v.lastUnc.flatMap (fun e => [BitVec.ofNat 64 e.1, BitVec.ofNat 64 e.2.1, BitVec.ofNat 64 e.2.2]) ++
  t32 c.retrains 13 ++ t32 c.downs 13 ++ t32 c.laneEvents 128 ++
  c.throttle.map (fun n => BitVec.ofNat 64 (min (n / usec) (2 ^ 64 - 1))) ++
  v.fatal.flatMap (fun r => [fatalCode r.cause, BitVec.ofNat 64 r.datum])

/-! ## Attestation (R41) -/

/-- What the digest of a partition covers. -/
def Part.configBytes (x : Part) : List Byte :=
  [x.clusters, x.hbmshare, x.l2ways, x.slots, x.belcylo, x.belcyhi, x.keys].flatMap (fun w => bytesOf 8 w.toNat)

/-- The body of a report (its layout is not in the spec: log entry 14). While the flash holds no image it gives the digest of an empty body and
version 0, which the spec does not say (DESIGN CHOICE, log entry 14). -/
def State.reportBody (s : State) (nonce : BitVec 256) : List Byte :=
  let image := s.vudor.image.getD { body := [], sig := [], secVersion := 0, raiseMin := false }
  bytesOf 32 nonce.toNat ++ bytesOf 32 (imageDigest image).toNat ++ bytesOf 8 image.secVersion ++ bytesOf 2 (s.chipcfg.toNat % 1024) ++
  s.parts.flatMap (fun x => bytesOf 32 (Config.sha3 x.configBytes).toNat ++ bytesOf 8 x.pwrcfg.toNat)

/-- A report with its signature of 2,420 bytes. -/
def State.attest (s : State) (nonce : BitVec 256) : State :=
  let body := s.reportBody nonce
  s.emit (.report body (bytesOf 2420 (Config.mldsaSign body).toNat))

/-! ## The events -/

/-- An event of Vudor; it changes nothing without standby power. -/
def State.whileStanding (s : State) (f : State → State) : Host.Outcome State Fault Refusal := .next (if s.standing then f s else s)

def execPowerOn (s : State) : Host.Outcome State Fault Refusal :=
  s.whileStanding (fun s => if s.pkg = .standby then { s with pkg := .boot } else s)
def execBootVerify (s : State) : Host.Outcome State Fault Refusal := s.whileStanding (fun s => s.bootVerify)
def execCorePowerUp (s : State) : Host.Outcome State Fault Refusal := s.whileLive (fun s => s.corePowerUp)
def execPartitionIdle (p : Nat) (s : State) : Host.Outcome State Fault Refusal := s.whileLive (fun s => s.partitionIdle p)
/-- A fatal cause takes effect in START and RUN. R32 names an uncorrectable error in Vudor's own state among the causes without a state of the
package, while R30 gives BOOT, RECOVERY and STANDBY no exit to FATAL: the model follows R30's table there (DESIGN CHOICE, log entry 46). -/
def execFatalEntry (cause : FatalCause) (s : State) : Host.Outcome State Fault Refusal := s.whileLive (fun s => s.fatalNow cause)
def execPackageReset (s : State) : Host.Outcome State Fault Refusal := s.whileStanding (fun s => s.packageReset)
def execHallCapFrame (frame : BitVec 320) (m : Measure) (s : State) : Host.Outcome State Fault Refusal :=
  s.whileStanding (fun s => s.capFrame frame m)
def execHallRecompute (m : Measure) (s : State) : Host.Outcome State Fault Refusal := s.whileStanding (fun s => s.hallRecompute m)
def execHallHoldExpire (s : State) : Host.Outcome State Fault Refusal := s.whileStanding (fun s => s.hallExpire)
def execBoardLimitMeasure (m : Measure) (s : State) : Host.Outcome State Fault Refusal := s.whileLive (fun s => s.boardMeasure m)
def execThermalStep (heat : Heat) (s : State) : Host.Outcome State Fault Refusal :=
  s.whileLive (fun s => s.thermalStep heat.celsius heat.dies)
def execCurrentLimitTrip (s : State) : Host.Outcome State Fault Refusal := s.whileLive (fun s => s.currentTrip)
def execCurrentLimitRestore (s : State) : Host.Outcome State Fault Refusal := s.whileLive (fun s => s.currentRestore)
def execLifetimeCommit (s : State) : Host.Outcome State Fault Refusal := s.whileStanding (fun s => s.lifetimeCommit)
def execLifetimeRead (s : State) : Host.Outcome State Fault Refusal := s.whileStanding (fun s => s.emit (.records s.vudor.records))
def execFirmwareUpdate (image : Image) (interrupted : Bool) (s : State) : Host.Outcome State Fault Refusal :=
  s.whileStanding (fun s => s.firmwareUpdate image interrupted)
def execAttestationRequest (nonce : BitVec 256) (s : State) : Host.Outcome State Fault Refusal := s.whileStanding (fun s => s.attest nonce)
def execSetStoredChipId (id : BitVec 10) (s : State) : Host.Outcome State Fault Refusal :=
  s.whileStanding (fun s => { s with vudor := { s.vudor with chipId := some id } })
def execStandbyPowerOn (s : State) : Host.Outcome State Fault Refusal :=
  .next (if s.standing then s else { s with pkg := .standby })
def execStandbyPowerLoss (s : State) : Host.Outcome State Fault Refusal := s.whileStanding (fun s => s.powerLoss)

end Sys2Proof.Machine
end

