-- ==== Sys2Proof/Machine/Links.lean ====
section
/-!
DEFINITION. The die-to-die links (R18 to R23): steps of rate, retraining windows one at a time on a die, retry exhaustion, links that
go down, and a package that can no longer be joined.
-/

namespace Sys2Proof.Machine

/-- Two links touch one die. -/
def shareDie (a b : Nat) : Bool :=
  let (x, y) := linkEnds a
  let (u, v) := linkEnds b
  x == u || x == v || y == u || y == v

/-- The rate that a link has, or will have when its open window closes. -/
def Link.nextRate (l : Link) : Nat := match l.window with | some (_, r) => r | none => l.rate

/-- A request comes before another: raised in an earlier cycle, or in the same one by a lower link (R20). -/
def reqBefore (a b : Nat × Nat) : Bool := decide (a.1 < b.1) || (a.1 == b.1 && decide (a.2 < b.2))

/-- The request of a link may be served now: no open window and no earlier request touches one of its dies. -/
def State.mayTrain (s : State) (n : Nat) : Bool :=
  match (s.link n).request with
  | none => false
  | some (at_, _) =>
    (List.range 13).all (fun m =>
      let o := s.link m
      !shareDie n m || (o.window.isNone && (match o.request with | some (t, _) => m == n || !reqBefore (t, m) (at_, n) | none => true)))

/-- Open the retraining window of a link (R19, R22, R39). -/
def State.openWindow (s : State) (n : Nat) : State :=
  let l := s.link n
  match l.request with
  | none => s
  | some (_, rate) =>
    (s.setLink n { l with window := some (s.time, rate), request := none, retrains := l.retrains + 1 }).updCounts
      (fun c => { c with retrains := bump c.retrains n })

/-- Serve waiting requests in order (R20). A request for the rate that the link has is over. -/
def State.serveLinks (s : State) : State :=
  (List.range 13).foldl (fun s _ =>
    match (List.range 13).find? (fun n => s.mayTrain n) with
    | some n =>
      let l := s.link n
      if !l.failing && l.request.map (·.2) == some l.rate then s.setLink n { l with request := none } else s.openWindow n
    | none => s) s

/-- A window closes: the link runs at its new rate. R18 and R19 do not say whether RATE changes as the window opens or as it closes, nor from which
of the two the 20 µs since the last step count: the model takes the close for both (DESIGN CHOICE, log entry 46). -/
def State.closeWindow (s : State) (n : Nat) : State :=
  let l := s.link n
  match l.window with
  | none => s
  | some (_, rate) => (s.setLink n { l with window := none, rate := rate, lastStep := s.time, failing := false, fails := 0 }).serveLinks

/-- Requests of earlier cycles are served, and no window stays open longer than 300 ns (R19). -/
def State.runLinks (s : State) : State :=
  let late := (List.range 13).filter (fun n => match (s.link n).window with | some (t, _) => decide (t + 300 * 47 ≤ s.time) | none => false)
  (late.foldl (fun s n => s.closeWindow n) s).serveLinks

/-- LINK_STEP_UP: the send queue has stayed full enough. -/
def State.stepUp (s : State) (n : Nat) : State :=
  let l := s.link n
  let r := l.nextRate
  if 13 ≤ n ∨ l.pin ≠ 0 ∨ r = 0 ∨ 3 ≤ r then s else s.raiseStep n (r - 1)

/-- LINK_STEP_DOWN: its utilisation has stayed low, and 20 µs have passed since its last step; never below quarter rate. -/
def State.stepDown (s : State) (n : Nat) : State :=
  let l := s.link n
  if 13 ≤ n ∨ l.pin ≠ 0 ∨ 2 ≤ l.rate ∨ l.window.isSome ∨ s.time < l.lastStep + 20 * usec then s else s.raiseStep n (l.rate + 1)

/-- FLIT_CRC_ERROR: the flit is retried. Whether the failure continues the run of one flit is open (log entry 4); after eight in a row
the link retrains to quarter rate (R21). Whether the first failure counts among the eight is not in the spec: the model counts it
(DESIGN CHOICE, log entry 36). -/
def State.crcError (s : State) (n : Nat) : State :=
  let l := s.link n
  if 13 ≤ n ∨ 3 ≤ l.rate ∨ l.window.isSome then s
  else
    let (f, s) := s.free
    let run := if f.getLsbD 0 then l.fails + 1 else 1
    let l := { l with crc := min (l.crc + 1) 0xFFFF, fails := run }
    if run < 8 then s.setLink n l
    else s.setLink n { l with fails := 0, degraded := true, failing := true, request := some (s.time / 50, 2) }

/-- LINK_DOWN: the retraining after retry exhaustion fails. -/
def State.downLink (s : State) (n : Nat) : State :=
  let l := s.link n
  if 13 ≤ n || !l.failing || l.window.isNone then s
  else
    let s := s.setLink n { l with rate := 3, window := none, request := none, failing := false, fails := 0 }
    let s := ((s.updCounts (fun c => { c with downs := bump c.downs n })).emit (.linkDown n)).commitRecords.serveLinks
    if s.routable then s else s.fatalNow .unroutable

/-! ## The events -/

def execLinkStepUp (link : Nat) (s : State) : Host.Outcome State Fault Refusal := s.whileLive (fun s => s.stepUp link)
def execLinkStepDown (link : Nat) (s : State) : Host.Outcome State Fault Refusal := s.whileLive (fun s => s.stepDown link)
def execRetrainWindowEnd (link : Nat) (s : State) : Host.Outcome State Fault Refusal := s.whileLive (fun s => s.closeWindow link)
def execFlitCrcError (link : Nat) (s : State) : Host.Outcome State Fault Refusal := s.whileLive (fun s => s.crcError link)
def execLinkDown (link : Nat) (s : State) : Host.Outcome State Fault Refusal := s.whileLive (fun s => s.downLink link)

end Sys2Proof.Machine
end

