-- ==== Sys2Proof/Machine/Ready.lean ====
section
/-!
DEFINITION. Which agent could issue what (R74, R76, R85, R86): the executing lanes, the instruction at their address, and what it waits
for.
-/

namespace Sys2Proof.Machine

/-! ## The issue decision (R86) -/

/-- E: the eligible lanes, the deferred ones left out unless that leaves none. -/
def Warp.pool (x : Warp) (e : Mask) : Mask := if e &&& ~~~x.deferred != 0 then e &&& ~~~x.deferred else e

/-- Among the lanes of E: their minimum address and the executing lanes, a starving lane first. -/
def Warp.decide (x : Warp) (e : Mask) : Option (W64 × Mask) :=
  let lanes := lanesOf (x.pool e)
  let pc (j : Nat) : W64 := Tab.get 0 x.lpc j
  let hungry := lanes.filter (fun j => 4096 ≤ Tab.get 0 x.starve j)
  match (if hungry.isEmpty then lanes else hungry) with
  | [] => none
  | j :: r =>
    let a := r.foldl (fun (a : W64) i => if (pc i).toNat < a.toNat then pc i else a) (pc j)
    some (a, maskOf (lanes.filter (fun i => pc i == a)))

/-- The lanes that a decision chooses from: those at the instruction that holds the warp, while it holds; lanes that re-execute a
deferred condition issue alone (R94). -/
def Warp.choose (x : Warp) (e : Mask) : Option (W64 × Mask) :=
  let e := if x.ctx.hold != .none && x.ctx.holdX &&& e != 0 then x.ctx.holdX &&& e else e
  match x.decide e with
  | some (a, m) => some (a, if x.speculating && m &&& x.reexec != 0 then m &&& x.reexec else m)
  | none => none

/-- After a decision on some lanes of E: their starvation counts, and no lane is deferred any more (R86). -/
def Warp.decided (x : Warp) (e m : Mask) : Warp :=
  { x with
    deferred := 0
    starve := (lanesOf e).foldl (fun t j => Tab.put 0 t j (if m.getLsbD j then 0 else Tab.get 0 t j + 1)) x.starve }

/-! ## What an instruction waits for (R74) -/

/-- What an agent could do: nothing; wait, with the STATUS of R240; or issue the instruction at an address, none being a
word whose CLASS and MINOR name nothing; the other checks of R257 are made as it issues. -/
inductive Look where
  | idle
  | wait (status : Nat) (pc : W64) (lanes : Mask)
  | go (pc : W64) (lanes : Mask) (i : Option Instr) (len : Nat)
deriving DecidableEq, Repr

/-- The control fields of an instruction. -/
def ctlOfInstr (i : Instr) : Ctl :=
  match argsOf i with | some x => x.ctl | none => { gap := 0, yld := false, alloc := 0, wait := 0, neg := false, guard := 7 }

/-- A tag that a word names in WAIT is busy. -/
def Ctx.waits (c : Ctx) (m : BitVec 7) : Bool := (List.range 7).any (fun b => m.getLsbD b && c.busy.getLsbD (b + 1))

/-- A tag that an instruction waits for, or would take, is busy (R261). -/
def Ctx.tagWait (c : Ctx) (i : Instr) : Bool :=
  let k := ctlOfInstr i
  c.waits k.wait || ((needsTag i || never k) && k.alloc != 0 && c.busy.getLsbD k.alloc.toNat)

/-- The counter that an instruction raises stands at 63 (R262). -/
def Ctx.counterFull (c : Ctx) (i : Instr) : Bool :=
  match raises i with
  | .none => false | .ld => c.ld == 63 | .st => c.st == 63 | .cp => c.cp == 63 | .mx => c.mx == 63

/-- The same for an issue in some lanes: a word that is never guarded, or whose guard holds in none of them, raises no counter. -/
def State.counterHeld (s : State) (g : Agent) (c : Ctx) (lanes : Mask) (i : Instr) : Bool :=
  let k := ctlOfInstr i
  c.counterFull i && !never k && s.guarded g (isUni i) k lanes != 0

/-- The matrix queue of a warp is full (R175). -/
def State.queueFull (s : State) (g : Agent) (i : Instr) : Bool :=
  match g with
  | .warp w => isMatrix i && (match s.warp w with | some x => decide (4 ≤ (x.queued (s.serving (w / 128))).length) | none => false)
  | .ct _ => false

/-- An agent on some lanes at an address. Code of a PRIV page that the core holds does not go outside handler mode (R155). -/
def State.lookAt (s : State) (w : Who) (c : Ctx) (pc : W64) (lanes : Mask) : Look :=
  match s.codeWord w.core w.asid pc with
  | .error _ => .wait 9 pc lanes
  | .ok word =>
    if !w.handler && (s.privByte w.core w.asid pc).isSome then .wait 9 pc lanes
    else if s.cycle w.core < c.gapUntil then .wait 3 pc lanes
    else match readWord word with
      | none => if c.waits (BitVec.ofNat 7 (field word 70 64)) then .wait 2 pc lanes else .go pc lanes none (lengthOf word)
      | some i =>
        if c.tagWait i then .wait 2 pc lanes
        else if s.counterHeld w.g c lanes i || s.queueFull w.g i then .wait 8 pc lanes
        else if isTrans i && s.unitBusy w.g then .wait 1 pc lanes
        else if s.specStops w.g lanes i (never (ctlOfInstr i)) then .wait 7 pc lanes
        else .go pc lanes (some i) (lengthOf word)

/-- The agent's context lets it issue: it waits for no walk and for no trap entry, and its state is not taken (R78, R159). -/
def Ctx.free (c : Ctx) : Bool :=
  c.trap.isNone && !c.saved && !c.forced && (match c.hold with | .walk _ => false | _ => true)

/-- The team of an agent runs: it has started, and the read of its format table at placement or restore is over (R72, R217). -/
def State.teamRuns (s : State) (t : Nat) : Bool := match s.team t with | some x => x.started && !(x.fmtLoad && x.fmtBy.isNone) | none => false

/-- What an agent could do among some lanes; a control thread has one lane. -/
def State.lookIn (s : State) (g : Agent) (e : Mask) : Look :=
  match s.who g, s.ctx g with
  | some w, some c =>
    if !c.free || !s.teamRuns w.team || s.safeHeld g then .idle
    else match g with
      | .ct t => (match s.team t with
        | some x => if x.ctExited || x.ctTicket.isSome then .idle else s.lookAt w c x.cpc 1
        | none => .idle)
      | .warp k => (match s.warp k with
        | some x => if x.haltAsk then .idle else match x.choose e with
          | some (pc, lanes) => s.lookAt w c pc lanes
          | none => .idle
        | none => .idle)
  | _, _ => .idle

/-- The agent waits in EVWAIT or UGWAIT: a wait whose condition is evaluated in a halted agent too (R234). -/
def Ctx.inWait (c : Ctx) : Bool := match c.hold with | .evwait _ _ => true | .ugwait _ => true | _ => false

/-- The lanes that a warp's next decision is over; halted lanes only for the condition of their wait. -/
def Warp.open_ (x : Warp) : Mask :=
  x.eligible ||| (if x.ctx.inWait then x.ctx.holdX &&& { x with halted := 0 }.eligible else 0)

/-- What an agent could do now. -/
def State.look (s : State) (g : Agent) : Look :=
  match g with
  | .warp k => (match s.warp k with | some x => s.lookIn g x.open_ | none => .idle)
  | .ct _ => (match s.ctx g with | some c => if c.halted && !c.inWait then .idle else s.lookIn g 1 | none => .idle)

/-! ## Settling -/

/-- A hold whose lanes have all left their instruction is over. -/
def Warp.dropHold (x : Warp) : Warp :=
  match x.ctx.hold with
  | .none => x
  | .walk _ => x
  | _ => if x.ctx.holdX &&& x.eligible = 0 && x.halted = 0 then { x with ctx := { x.ctx with hold := .none, holdX := 0 } } else x

/-- The tags of an agent whose results are all there free (R261). -/
def State.settleTags (s : State) (g : Agent) : State :=
  match s.ctx g with
  | none => s
  | some c => (c.flights.map (·.tag)).foldl (fun s k => s.tagFree g k) s

/-- The speculation window of an agent holds something. -/
def State.windowOpen (s : State) (g : Agent) : Bool :=
  match g with | .warp w => (match s.warp w with | some x => !x.window.isEmpty | none => false) | .ct _ => false

/-- A trap that waited for speculation to resolve, or for the handler's address, is entered (R100); a breakpoint of an attached context
halts instead (R237). The trap of a program buffer's word enters no handler: it waits for the buffer to stop with it, and is nothing once the
buffer is over (R235). -/
def State.settleTrap (s : State) (g : Agent) : State :=
  match s.ctx g, s.who g with
  | some { trap := some p, .. }, some w =>
    let clear : State := s.updCtx g (fun c => { c with trap := none })
    if p.pc == bufferPc then (if s.buffers g then s else clear)
    else match p.cause, s.dbgOf w.asid with
      | .breakpoint, some d => if s.windowOpen g then s else clear.halt g p.lanes d.laneStop .breakpoint p.pc
      | _, _ => s.takeTrap g p
  | _, _ => s

/-- The lowest LPC of some lanes. -/
def Warp.lowPc (x : Warp) (m : Mask) : W64 :=
  match lanesOf m with
  | [] => 0
  | j :: r => r.foldl (fun (a : W64) i => if (Tab.get 0 x.lpc i).toNat < a.toNat then Tab.get 0 x.lpc i else a) (Tab.get 0 x.lpc j)

/-- A HALT command takes effect once the warp's speculation has resolved (R95, R234). -/
def State.settleHalt (s : State) (w : Nat) : State :=
  match s.warp w with
  | none => s
  | some x =>
    if x.haltAsk && x.window.isEmpty && x.ctx.trap.isNone then
      (s.updWarp w (fun x => { x with haltAsk := false })).halt (.warp w) x.live false .debugHalt (x.lowPc x.live)
    else s

/-- Lanes that waited for room to ask for a walk execute their instruction again once there is, and its tag and counters wait for them no longer. -/
def State.retryWalks (s : State) (w : Nat) : State :=
  match s.warp w with
  | none => s
  | some x =>
    let s := if x.blocks.any (fun b => b.2.why == .walk []) && s.walkRoom (w / 128) then
        s.updWarp w (fun x => { x with blocks := x.blocks.filter (fun b => b.2.why != .walk []) })
      else s
    s.roomFound w

/-- The waits of a warp's blocked lanes are tested again, and its joins. -/
def State.retest (s : State) (w : Nat) : State :=
  let s := s.joinCheck w
  let s := match s.warp w with | some x => x.rounds.foldl (fun (s : State) (r : Nat × Nat × Nat) => s.joinTimeout w r.1) s | none => s
  let nap (s : State) : State := if (s.ctx (.warp w)).any (·.trap.isSome) then s else s.napExpire w
  ((((nap s).retryWalks w).retestWaitc w).retestBarw w).retestDqpop w

/-- Bring a warp up to the present cycle: results, tags, a trap before a nap of the same cycle ends, a safe point before a wait of the same cycle
is over (R378), then the waits, and halts. -/
def State.settleWarp (s : State) (w : Nat) : State :=
  let g := Agent.warp w
  let s := ((s.land g).settleTags g).settleTrap g
  let s := s.afterSafe g (fun s => s.retest w)
  ((s.settleTrap g).settleHalt w).updWarp w Warp.dropHold

/-- The same for a control thread. -/
def State.settleCt (s : State) (t : Nat) : State :=
  let g := Agent.ct t
  let s := (s.land g).settleTags g
  let s := (s.evwaitExpire t).settleTrap g
  if s.safeWanted g then s.safePointTake g else s

end Sys2Proof.Machine
end

