-- ==== Sys2Proof/Machine/Debug.lean ====
section
/-!
DEFINITION. The debug unit and the samplers as events (R230 to R241): the poll of the command slots, the ten commands, PC samples,
memory samples, accesses through JTAG.
-/

namespace Sys2Proof.Machine

/-! ## Slots (R231, R232) -/

/-- A read of the window through home 4: a line that a host owns is recalled first, and the unit comes back to it. -/
def State.slotRead (s : State) (pa n : Nat) : Except State Nat :=
  if s.hostOwns (pa / 256) then .error (s.snoop (pa / 256) false false) else .ok (s.homeRead pa n)

/-- The debug unit writes bytes of its window (R431). -/
def State.unitWrite (s : State) (pa n v : Nat) : State := s.ownWrite 0 0 pa n v none

/-- A command is done: STATUS and DATA, then DONE, as a release of what the unit wrote before. -/
def State.slotDone (s : State) (slot : Nat) (seq : W32) (status : Nat) (data : Option W64) : State :=
  match s.debugWindow with
  | none => s
  | some base =>
    let a := base + 512 * slot
    let s := s.unitWrite (a + 9) 1 status
    let s := match data with | some v => s.unitWrite (a + 0x20) 8 v.toNat | none => s
    s.ownAfter 0 (a + 4) 4 seq.toNat

/-- A command as the unit reads it. -/
structure DbgCmd where
  seq    : W32
  op     : Nat
  count  : Nat
  asid   : W16
  target : W32
  arg    : W64
  data   : W64
deriving DecidableEq, Repr

/-- The first 40 bytes of a slot. -/
def DbgCmd.ofBytes (v : Nat) : DbgCmd where
  seq := BitVec.ofNat 32 v
  op := v / 2 ^ 64 % 256
  count := v / 2 ^ 80 % 256
  asid := BitVec.ofNat 16 (v / 2 ^ 96)
  target := BitVec.ofNat 32 (v / 2 ^ 128)
  arg := BitVec.ofNat 64 (v / 2 ^ 192)
  data := BitVec.ofNat 64 (v / 2 ^ 256)

/-- What a command comes to: it is done, with a STATUS; it goes on in the pipeline; or it waits for the next poll. -/
inductive CmdEnd where
  | done (s : State) (status : Nat)
  | begun (s : State)
  | wait (s : State)

/-! ## Agents (R228) -/

/-- The agent that an identity code names, if it is resident. -/
def State.agentOf (s : State) (code : W32) : Option Agent :=
  let c := code.toNat
  let core := c / 2 ^ 13 % 4 * 40 + c / 2 ^ 7 % 64
  let g : Agent := if c / 2 ^ 29 = 0 then .warp (128 * core + c % 128) else .ct (8 * core + c % 8)
  if identity g == code && (s.who g).isSome then some g else none

/-- A halted agent (R234); in lane-stop mode some lanes are enough. -/
def State.halted (s : State) (g : Agent) : Bool :=
  match g with
  | .warp w => (match s.warp w with | some x => x.halted != 0 | none => false)
  | .ct _ => (match s.ctx g with | some c => c.halted | none => false)

/-- Warps of a context. -/
def State.warpsOf (s : State) (asid : W16) : List Nat :=
  (s.warps.map (·.1)).filter (fun k => match s.who (.warp k) with | some w => w.asid == asid | none => false)

/-- A halted agent runs again. -/
def State.resume (s : State) (g : Agent) : State :=
  match g with
  | .warp w => s.updWarp w (fun x => { x with halted := 0, haltAsk := false })
  | .ct _ => s.updCtx g (fun c => { c with halted := false })

/-! ## The commands (R232, R234 to R238) -/

def State.cmdAttach (s : State) (c : DbgCmd) : CmdEnd :=
  let x : DbgCtx := { asid := c.asid, laneStop := c.arg.getLsbD 0, bps := match s.dbgOf c.asid with | some d => d.bps | none => [] }
  .done { s with dbgctx := s.dbgctx.filter (fun d => d.asid != c.asid) ++ [x] } 1

def State.cmdDetach (s : State) (c : DbgCmd) : CmdEnd :=
  if (s.dbgOf c.asid).isNone then .done s 2
  else
    let s : State := { s with dbgctx := s.dbgctx.map (fun d => if d.asid = c.asid then { d with attached := false, bps := [] } else d) }
    .done ((s.warpsOf c.asid).foldl (fun s w => s.resume (.warp w)) s) 1

/-- HALT: at once, or once the warp's speculation has resolved, when a later poll finds it halted. R234 does not say what HALT of an agent that
is halted already does: the model answers STATUS 1 and writes no further event record (DESIGN CHOICE, log entry 46). -/
def State.cmdHalt (s : State) (c : DbgCmd) : CmdEnd :=
  match s.agentOf c.target with
  | none => .done s 2
  | some (.ct t) =>
    if s.halted (.ct t) then .done s 1 else .done (s.halt (.ct t) 0 false .debugHalt (s.pcOf (.ct t) 0)) 1
  | some (.warp w) =>
    match s.warp w with
    | none => .done s 2
    | some x =>
      if x.halted == x.live && x.live != 0 then .done s 1
      else if x.window.isEmpty then .done (s.halt (.warp w) x.live false .debugHalt (x.lowPc x.live)) 1
      else .wait (s.updWarp w (fun x => { x with haltAsk := true }))

def State.cmdResume (s : State) (c : DbgCmd) : CmdEnd :=
  match s.agentOf c.target with
  | some g => if s.halted g then .done (s.resume g) 1 else .done s 2
  | none => .done s 2

/-- SSTEP and EXEC begin on a halted agent; the pipeline runs them (R235, R236). What an agent is held in is put aside for the time of a buffer:
its words have holds of their own, and an access that waits for a walk is made again. The spec gives no status for an EXEC whose COUNT is 0 or
above 16: the model answers STATUS 2 (DESIGN CHOICE, log entry 46). -/
def State.cmdRun (s : State) (slot : Nat) (c : DbgCmd) (base : Nat) (exec : Bool) : CmdEnd :=
  match s.agentOf c.target with
  | none => .done s 2
  | some g =>
    if !s.halted g || (exec && (c.count = 0 || 16 < c.count)) then .done s 2
    else
      let at_ (k : Nat) : Nat := base + 512 * slot + 0x40 + 24 * k
      let n := if exec then c.count else 0
      match (List.range 2).find? (fun k => s.hostOwns ((base + 512 * slot) / 256 + k)) with
      | some k => .wait (s.snoop ((base + 512 * slot) / 256 + k) false false)
      | none =>
        -- an entry may straddle two lines
        let word (k : Nat) : BitVec 192 := BitVec.ofNat 192 (s.homeRead (at_ k) 8 + s.homeRead (at_ k + 8) 8 * 2 ^ 64 + s.homeRead (at_ k + 16) 8 * 2 ^ 128)
        let handler := match s.who g with | some w => w.handler | none => false
        let r : DbgRun := { slot := slot, seq := c.seq, agent := g, at_ := 0, count := n, words := (List.range n).map word, handler := handler }
        let held := match s.ctx g with
          | some c => (match c.hold with | .walk _ => (Hold.none, (0 : Mask)) | h => (h, c.holdX))
          | none => (Hold.none, 0)
        if exec then .begun (({ s with dbgrun := some { r with hold := held.1, holdX := held.2, holdPc := s.pcOf g (lowest held.2) } } : State).endHold g)
        else .begun { s with dbgrun := some r }

/-- SETBP, CLRBP: comparator TARGET[4:0] of an attached context. -/
def State.cmdBp (s : State) (c : DbgCmd) (set : Bool) : CmdEnd :=
  match s.dbgOf c.asid with
  | none => .done s 2
  | some d =>
    let k := c.target.toNat % 32
    let d' := { d with bps := if set then Tab.set d.bps k c.arg else Tab.erase d.bps k }
    .done { s with dbgctx := s.dbgctx.map (fun o => if o.asid = c.asid then d' else o) } 1

/-- Where the object of SETWP lies: none where there is none to be had; at a global address of ASID, which must be an attached context, or in
the scratchpad of TARGET's team; or the table line that a host must give up first. -/
inductive WatchObj where
  | none
  | at_ (o : ObjLoc)
  | wait (pa : Nat)

def State.watchObj (s : State) (c : DbgCmd) (w : Who) : WatchObj :=
  if c.arg.toNat % 32 ≠ 0 then .none
  else if c.data.getLsbD 0 then (if c.arg.toNat + 32 ≤ s.scratchSize w.team then .at_ (.sp w.team c.arg.toNat) else .none)
  else if (s.dbgOf c.asid).isNone then .none
  else match s.hwLeaf (dieOf w.core) c.asid w.part c.arg 32 .write false with
    | .ok pa leaf _ => if (homeOf pa).isSome then .at_ (.glob pa c.arg leaf) else .none
    | .fail _ => .none
    | .wait pa => .wait pa

/-- The unit writes word 3 of an object; the leaf of a global one is marked accessed and dirty (R154). -/
def State.writeWatch (s : State) (c : DbgCmd) (w : Who) (o : ObjLoc) (v : Nat) : State :=
  match o with
  | .sp t off => s.writeScratch t (off + 12) 4 v (s.objClock t off)
  | .glob pa va leaf =>
    (s.hwTouch (dieOf w.core) c.asid w.part va 32 .write false).ownWrite w.core c.asid (pa + 12) 4 v (some leaf)

def State.cmdWatch (s : State) (c : DbgCmd) (set : Bool) : CmdEnd :=
  match s.agentOf c.target with
  | some (.warp k) =>
    (match s.who (.warp k) with
      | none => .done s 2
      | some w =>
        match s.watchObj c w with
        | .none => .done s 2
        | .wait pa => .wait (s.snoop (pa / 256) false false)
        | .at_ o =>
          let idx := c.data.toNat / 16 % 8
          if set then
            let v := 2 ^ 31 + c.data.toNat / 2 % 4 * 2 ^ 29 + (if c.data.getLsbD 3 then 2 ^ 28 else 0) + w.core * 2 ^ 8 + idx
            .done ((s.writeWatch c w o v).updCore w.core (fun x => { x with watch := Tab.set x.watch idx { obj := o, target := c.target } })) 1
          else .done ((s.writeWatch c w o 0).updCore w.core (fun x => { x with watch := Tab.erase x.watch idx })) 1)
  | _ => .done s 2

/-- One command. -/
def State.debugCmd (s : State) (slot base : Nat) (c : DbgCmd) : CmdEnd :=
  match c.op with
  | 1 => s.cmdAttach c
  | 2 => s.cmdDetach c
  | 3 => s.cmdHalt c
  | 4 => s.cmdResume c
  | 5 => s.cmdRun slot c base false
  | 6 => s.cmdRun slot c base true
  | 7 => s.cmdBp c true
  | 8 => s.cmdBp c false
  | 9 => s.cmdWatch c true
  | 10 => s.cmdWatch c false
  | _ => .done s 2

/-- The slots in order; a command that is not done keeps the later ones waiting. -/
def State.pollSlots (s : State) (base : Nat) (slots : List Nat) : State :=
  match slots with
  | [] => s
  | k :: rest =>
    -- the DONE of an earlier command must be visible first
    if s.ownLate.any (fun e => decide (base ≤ e.pa ∧ e.pa < base + 16384)) then s
    else match s.slotRead (base + 512 * k) 40 with
    | .error s => s
    | .ok v =>
      if v % 2 ^ 32 = v / 2 ^ 32 % 2 ^ 32 then s.pollSlots base rest
      else
        let c := DbgCmd.ofBytes v
        match s.debugCmd k base c with
        | .done s status => (s.slotDone k c.seq status none).pollSlots base rest
        | .begun s => s
        | .wait s => s

/-- DEBUG_POLL: every 1 µs, unless a program buffer or a step is under way. -/
def State.debugPoll (s : State) : State :=
  match s.debugWindow with
  | none => s
  | some base =>
    if s.time / usec ≤ s.dbgPoll then s
    else
      let s : State := { s with dbgPoll := s.time / usec }
      if s.dbgrun.isSome then s else s.pollSlots base (List.range 16)

/-! ## Sampling (R239 to R241) -/

/-- Append a 64-byte record to a partition's ring. -/
def State.sampleOut (s : State) (p v : Nat) : State :=
  let x := s.part p
  let log := max 12 (x.sampbuf.toNat % 64)
  let base := x.sampbuf.toNat / 4096 * 4096 % 2 ^ 52
  (s.unitWrite (base + 64 * x.sampN.toNat % 2 ^ log) 64 v).setPart p { x with sampN := x.sampN + 1 }

/-- STATUS, PC and executing lanes of a sampled warp (R240). -/
def State.sampleWarp (s : State) (k : Nat) (x : Warp) : Nat × W64 × Mask :=
  let blocked := maskOf (x.blocks.map (·.1)) &&& x.live
  if x.live = 0 then (10, x.lastPc, 0)
  else if x.issuedAt = s.cycle x.core + 1 then (0, x.lastPc, x.lastX)
  else if x.live &&& ~~~x.parked = 0 then (5, x.lowPc x.parked, 0)
  else if x.eligible = 0 then
    (if x.halted &&& x.live != 0 then (6, x.lowPc (x.halted &&& x.live), 0) else (4, x.lowPc blocked, 0))
  else if x.ctx.hold != .none then (4, x.lowPc x.eligible, 0)
  else match s.look (.warp k) with
    | .go pc lanes _ _ => (1, pc, lanes)
    | .wait st pc lanes => (st, pc, lanes)
    | .idle => (9, x.lowPc x.eligible, 0)

/-- The next resident warp of a core after a position. -/
def State.nextSampled (s : State) (core pos : Nat) : Option (Nat × Warp) :=
  let mine := s.warps.filter (fun e => e.1 / 128 == core)
  match mine.find? (fun e => decide (pos < e.1 % 128 + 1)) with
  | some e => some e
  | none => mine.head?

/-- PC_SAMPLE: one record for each period that the core has reached. -/
def State.pcSample (s : State) (core : Nat) : State :=
  match s.partOfCore core with
  | none => s
  | some p =>
    let ctl := (s.part p).sampctl
    let now := s.cycle core
    let c := s.core core
    if !ctl.getLsbD 0 || now / 2 ^ samplePeriod ctl ≤ c.sampAt / 2 ^ samplePeriod ctl then s
    else
      let s := s.setCore core { c with sampAt := now }
      match s.nextSampled core c.sampPos with
      | none => s
      | some (k, x) =>
        match s.team x.ctx.team with
        | none => s
        | some t =>
          let (status, pc, lanes) := s.sampleWarp k x
          let v := 1 + status * 2 ^ 8 + (identity (.warp k)).toNat * 2 ^ 32 + s.datum % 2 ^ 64 * 2 ^ 64 + pc.toNat * 2 ^ 128 +
            t.cpc.toNat * 2 ^ 192 + t.csn.toNat * 2 ^ 256 + lanes.toNat % 2 ^ 32 * 2 ^ 288
          (s.updCore core (fun c => { c with sampPos := k % 128 + 1 })).sampleOut p v

/-- A numbered request has not completed: it is on its way, at its home, or its answer is. -/
def State.outstanding (s : State) (id : Nat) : Bool :=
  s.reqs.any (fun r => r.id == id) || s.replies.any (fun r => r.req.id == id) || s.hostTxns.any (fun t => t.id == id) ||
  s.peerOut.any (fun p => p.id == id) || s.remotes.any (fun r => r.id == id)

/-- The queueing times of the hops that a request passed, two bytes each; of those that it did not pass, 0. -/
def hopTimes (hops : BitVec 8) (free : Nat) : Nat :=
  ((List.range 8).filter (fun k => hops.getLsbD k)).foldl (fun v k => v + free / 2 ^ (16 * k) % 2 ^ 16 * 2 ^ (16 * k)) 0

/-- The first sampled request of a core that has completed. -/
def State.sampleDone (s : State) (core : Nat) : Option SampReq := (s.core core).sampPend.find? (fun r => !s.outstanding r.ref)

/-- MEMORY_SAMPLE: a sampled request of a core has completed. The queueing times of its hops are open (log entry 4). -/
def State.memSample (s : State) (core : Nat) : State :=
  match s.partOfCore core, s.sampleDone core with
  | some p, some r =>
    let (f, s) := s.free
    let v := 2 + r.kind % 256 * 2 ^ 8 + r.issuer.toNat * 2 ^ 32 + r.datum % 2 ^ 64 * 2 ^ 64 + r.pc.toNat * 2 ^ 128 + r.cpc.toNat * 2 ^ 192 +
      r.csn.toNat * 2 ^ 256 + (s.datum - r.datum) % 2 ^ 32 * 2 ^ 288 + hopTimes r.hops f.toNat * 2 ^ 320 + r.va.toNat * 2 ^ 448
    (s.updCore core (fun c => { c with sampPend := c.sampPend.erase r })).sampleOut p v
  | _, _ => s

/-! ## JTAG (R230) -/

/-- A read or write of up to 8 bytes of the window, without translation. -/
def State.jtag (s : State) (off n : Nat) (write : Bool) (data : W64) : State :=
  match s.debugWindow with
  | none => s
  | some base =>
    if n = 0 || 8 < n || 16384 < off + n then s
    else if write then
      (cuts 3 (base + off) 0 n).foldl (fun s cut => s.unitWrite (base + off + cut.1) cut.2 (data.toNat / 2 ^ (8 * cut.1) % 2 ^ (8 * cut.2))) s
    else match (cuts 3 (base + off) 0 n).find? (fun cut => s.hostOwns ((base + off + cut.1) / 256)) with
      | some cut => s.snoop ((base + off + cut.1) / 256) false false
      | none => s.emit (.value (BitVec.ofNat 64 ((cuts 3 (base + off) 0 n).foldl (fun v cut =>
          v + s.homeRead (base + off + cut.1) cut.2 * 2 ^ (8 * cut.1)) 0)))

/-! ## The events -/

def execDebugPoll (s : State) : Host.Outcome State Fault Refusal := s.whileLive (fun s => s.debugPoll)
def execPcSample (core : Nat) (s : State) : Host.Outcome State Fault Refusal := s.whileLive (fun s => s.pcSample core)
def execMemorySample (core : Nat) (s : State) : Host.Outcome State Fault Refusal := s.whileLive (fun s => s.memSample core)
def execJtagAccess (off n : Nat) (write : Bool) (data : W64) (s : State) : Host.Outcome State Fault Refusal :=
  s.whileLive (fun s => s.jtag off n write data)

end Sys2Proof.Machine
end

