-- ==== Sys2Proof/Machine/Dispatch.lean ====
section
/-!
DEFINITION. What each instruction and each event does: one arm for each constructor of Instr, one call of its meaning.
-/

namespace Sys2Proof.Machine

/-- What an instruction or an event does to a state. -/
def exec (i : Instr) (s : State) : Host.Outcome State Fault Refusal :=
  match i with
  | .iadd x => Sys2Proof.Machine.execIadd x s
  | .isub x => Sys2Proof.Machine.execIsub x s
  | .imul x => Sys2Proof.Machine.execImul x s
  | .imulh x => Sys2Proof.Machine.execImulh x s
  | .imad x => Sys2Proof.Machine.execImad x s
  | .imadw x => Sys2Proof.Machine.execImadw x s
  | .ineg x => Sys2Proof.Machine.execIneg x s
  | .iabs x => Sys2Proof.Machine.execIabs x s
  | .imin x => Sys2Proof.Machine.execImin x s
  | .imax x => Sys2Proof.Machine.execImax x s
  | .iaddc x => Sys2Proof.Machine.execIaddc x s
  | .isubb x => Sys2Proof.Machine.execIsubb x s
  | .lea x => Sys2Proof.Machine.execLea x s
  | .idot4 x => Sys2Proof.Machine.execIdot4 x s
  | .isad x => Sys2Proof.Machine.execIsad x s
  | .and x => Sys2Proof.Machine.execAnd x s
  | .or x => Sys2Proof.Machine.execOr x s
  | .xor x => Sys2Proof.Machine.execXor x s
  | .andn x => Sys2Proof.Machine.execAndn x s
  | .bool3 x => Sys2Proof.Machine.execBool3 x s
  | .shl x => Sys2Proof.Machine.execShl x s
  | .shr x => Sys2Proof.Machine.execShr x s
  | .sar x => Sys2Proof.Machine.execSar x s
  | .rot x => Sys2Proof.Machine.execRot x s
  | .shf x => Sys2Proof.Machine.execShf x s
  | .bfx x => Sys2Proof.Machine.execBfx x s
  | .bfi x => Sys2Proof.Machine.execBfi x s
  | .popc x => Sys2Proof.Machine.execPopc x s
  | .clz x => Sys2Proof.Machine.execClz x s
  | .ctz x => Sys2Proof.Machine.execCtz x s
  | .brev x => Sys2Proof.Machine.execBrev x s
  | .bytep x => Sys2Proof.Machine.execBytep x s
  | .icmp x => Sys2Proof.Machine.execIcmp x s
  | .fcmp x => Sys2Proof.Machine.execFcmp x s
  | .sel x => Sys2Proof.Machine.execSel x s
  | .pset x => Sys2Proof.Machine.execPset x s
  | .pmov x => Sys2Proof.Machine.execPmov x s
  | .pmovUnpack x => Sys2Proof.Machine.execPmovUnpack x s
  | .mov x => Sys2Proof.Machine.execMov x s
  | .shfl x => Sys2Proof.Machine.execShfl x s
  | .vote x => Sys2Proof.Machine.execVote x s
  | .match_ x => Sys2Proof.Machine.execMatch_ x s
  | .redux x => Sys2Proof.Machine.execRedux x s
  | .scan x => Sys2Proof.Machine.execScan x s
  | .fadd x => Sys2Proof.Machine.execFadd x s
  | .fsub x => Sys2Proof.Machine.execFsub x s
  | .fmul x => Sys2Proof.Machine.execFmul x s
  | .ffma x => Sys2Proof.Machine.execFfma x s
  | .fmin x => Sys2Proof.Machine.execFmin x s
  | .fmax x => Sys2Proof.Machine.execFmax x s
  | .frnd x => Sys2Proof.Machine.execFrnd x s
  | .fscale x => Sys2Proof.Machine.execFscale x s
  | .fclass x => Sys2Proof.Machine.execFclass x s
  | .fdot2 x => Sys2Proof.Machine.execFdot2 x s
  | .padd x => Sys2Proof.Machine.execPadd x s
  | .pmul x => Sys2Proof.Machine.execPmul x s
  | .pfma x => Sys2Proof.Machine.execPfma x s
  | .pmin x => Sys2Proof.Machine.execPmin x s
  | .pmax x => Sys2Proof.Machine.execPmax x s
  | .frcp x => Sys2Proof.Machine.execFrcp x s
  | .frsq x => Sys2Proof.Machine.execFrsq x s
  | .fsqrt x => Sys2Proof.Machine.execFsqrt x s
  | .fexp2 x => Sys2Proof.Machine.execFexp2 x s
  | .flog2 x => Sys2Proof.Machine.execFlog2 x s
  | .fsin x => Sys2Proof.Machine.execFsin x s
  | .fcos x => Sys2Proof.Machine.execFcos x s
  | .ftanh x => Sys2Proof.Machine.execFtanh x s
  | .fcvt x => Sys2Proof.Machine.execFcvt x s
  | .icvt x => Sys2Proof.Machine.execIcvt x s
  | .fcvti x => Sys2Proof.Machine.execFcvti x s
  | .pack x => Sys2Proof.Machine.execPack x s
  | .unpk x => Sys2Proof.Machine.execUnpk x s
  | .ld x => Sys2Proof.Machine.execLd x s
  | .st x => Sys2Proof.Machine.execSt x s
  | .ldf x => Sys2Proof.Machine.execLdf x s
  | .stf x => Sys2Proof.Machine.execStf x s
  | .pref x => Sys2Proof.Machine.execPref x s
  | .cwb x => Sys2Proof.Machine.execCwb x s
  | .cwbAll x => Sys2Proof.Machine.execCwbAll x s
  | .spmap x => Sys2Proof.Machine.execSpmap x s
  | .spwb x => Sys2Proof.Machine.execSpwb x s
  | .sprel x => Sys2Proof.Machine.execSprel x s
  | .atom x => Sys2Proof.Machine.execAtom x s
  | .atomn x => Sys2Proof.Machine.execAtomn x s
  | .acas x => Sys2Proof.Machine.execAcas x s
  | .fence x => Sys2Proof.Machine.execFence x s
  | .bari x => Sys2Proof.Machine.execBari x s
  | .bara x => Sys2Proof.Machine.execBara x s
  | .barax x => Sys2Proof.Machine.execBarax x s
  | .barw x => Sys2Proof.Machine.execBarw x s
  | .barq x => Sys2Proof.Machine.execBarq x s
  | .waitc x => Sys2Proof.Machine.execWaitc x s
  | .jset x => Sys2Proof.Machine.execJset x s
  | .join x => Sys2Proof.Machine.execJoin x s
  | .yield_ x => Sys2Proof.Machine.execYield_ x s
  | .nap x => Sys2Proof.Machine.execNap x s
  | .bra x => Sys2Proof.Machine.execBra x s
  | .brx x => Sys2Proof.Machine.execBrx x s
  | .call x => Sys2Proof.Machine.execCall x s
  | .callx x => Sys2Proof.Machine.execCallx x s
  | .ret x => Sys2Proof.Machine.execRet x s
  | .exit x => Sys2Proof.Machine.execExit x s
  | .exitTeam x => Sys2Proof.Machine.execExitTeam x s
  | .exitGrid x => Sys2Proof.Machine.execExitGrid x s
  | .trap x => Sys2Proof.Machine.execTrap x s
  | .brk x => Sys2Proof.Machine.execBrk x s
  | .step_ x => Sys2Proof.Machine.execStep_ x s
  | .safe x => Sys2Proof.Machine.execSafe x s
  | .mxq x => Sys2Proof.Machine.execMxq x s
  | .mxz x => Sys2Proof.Machine.execMxz x s
  | .mxrd x => Sys2Proof.Machine.execMxrd x s
  | .mxrdCfg x => Sys2Proof.Machine.execMxrdCfg x s
  | .mxwr x => Sys2Proof.Machine.execMxwr x s
  | .mxld x => Sys2Proof.Machine.execMxld x s
  | .mxst x => Sys2Proof.Machine.execMxst x s
  | .mxcfg x => Sys2Proof.Machine.execMxcfg x s
  | .cpy x => Sys2Proof.Machine.execCpy x s
  | .cpys x => Sys2Proof.Machine.execCpys x s
  | .dqpop x => Sys2Proof.Machine.execDqpop x s
  | .dqpeek x => Sys2Proof.Machine.execDqpeek x s
  | .svc x => Sys2Proof.Machine.execSvc x s
  | .sread x => Sys2Proof.Machine.execSread x s
  | .swrite x => Sys2Proof.Machine.execSwrite x s
  | .featq x => Sys2Proof.Machine.execFeatq x s
  | .rft x => Sys2Proof.Machine.execRft x s
  | .dbgret x => Sys2Proof.Machine.execDbgret x s
  | .unpark x => Sys2Proof.Machine.execUnpark x s
  | .tlbsync x => Sys2Proof.Machine.execTlbsync x s
  | .imad24 x => Sys2Proof.Machine.execImad24 x s
  | .barsync x => Sys2Proof.Machine.execBarsync x s
  | .frcpa x => Sys2Proof.Machine.execFrcpa x s
  | .ldgx x => Sys2Proof.Machine.execLdgx x s
  | .uadd x => Sys2Proof.Machine.execUadd x s
  | .usub x => Sys2Proof.Machine.execUsub x s
  | .umul x => Sys2Proof.Machine.execUmul x s
  | .umad x => Sys2Proof.Machine.execUmad x s
  | .umin x => Sys2Proof.Machine.execUmin x s
  | .umax x => Sys2Proof.Machine.execUmax x s
  | .uand x => Sys2Proof.Machine.execUand x s
  | .uor x => Sys2Proof.Machine.execUor x s
  | .uxor x => Sys2Proof.Machine.execUxor x s
  | .ushl x => Sys2Proof.Machine.execUshl x s
  | .ushr x => Sys2Proof.Machine.execUshr x s
  | .usar x => Sys2Proof.Machine.execUsar x s
  | .ubfx x => Sys2Proof.Machine.execUbfx x s
  | .ulea x => Sys2Proof.Machine.execUlea x s
  | .ucmp x => Sys2Proof.Machine.execUcmp x s
  | .usel x => Sys2Proof.Machine.execUsel x s
  | .umov x => Sys2Proof.Machine.execUmov x s
  | .ufrom x => Sys2Proof.Machine.execUfrom x s
  | .uld x => Sys2Proof.Machine.execUld x s
  | .ust x => Sys2Proof.Machine.execUst x s
  | .uatom x => Sys2Proof.Machine.execUatom x s
  | .ubra x => Sys2Proof.Machine.execUbra x s
  | .ubrx x => Sys2Proof.Machine.execUbrx x s
  | .ucall x => Sys2Proof.Machine.execUcall x s
  | .uret x => Sys2Proof.Machine.execUret x s
  | .uloop x => Sys2Proof.Machine.execUloop x s
  | .uexit x => Sys2Proof.Machine.execUexit x s
  | .dqpush x => Sys2Proof.Machine.execDqpush x s
  | .ucpy x => Sys2Proof.Machine.execUcpy x s
  | .ucpys x => Sys2Proof.Machine.execUcpys x s
  | .ulaunch x => Sys2Proof.Machine.execUlaunch x s
  | .utrig x => Sys2Proof.Machine.execUtrig x s
  | .ugwait x => Sys2Proof.Machine.execUgwait x s
  | .evpop x => Sys2Proof.Machine.execEvpop x s
  | .evwait x => Sys2Proof.Machine.execEvwait x s
  | .uclock x => Sys2Proof.Machine.execUclock x s
  | .usread x => Sys2Proof.Machine.execUsread x s
  | .uswrite x => Sys2Proof.Machine.execUswrite x s
  | .uswriteRft x => Sys2Proof.Machine.execUswriteRft x s
  | .ufence x => Sys2Proof.Machine.execUfence x s
  | .branchResolve w => Sys2Proof.Machine.execBranchResolve w s
  | .tagFree g tag => Sys2Proof.Machine.execTagFree g tag s
  | .joinTimeout w k => Sys2Proof.Machine.execJoinTimeout w k s
  | .napExpire w => Sys2Proof.Machine.execNapExpire w s
  | .evwaitTimeout t => Sys2Proof.Machine.execEvwaitTimeout t s
  | .barwRetest w => Sys2Proof.Machine.execBarwRetest w s
  | .svcReply w value err => Sys2Proof.Machine.execSvcReply w value err s
  | .deferredCallComplete t request value err => Sys2Proof.Machine.execDeferredCallComplete t request value err s
  | .faultReply ticket answer => Sys2Proof.Machine.execFaultReply ticket answer s
  | .priReply request ok => Sys2Proof.Machine.execPriReply request ok s
  | .homeRenew req => Sys2Proof.Machine.execHomeRenew req s
  | .renewalReply req => Sys2Proof.Machine.execRenewalReply req s
  | .home1Read req => Sys2Proof.Machine.execHome1Read req s
  | .homeWriteback req => Sys2Proof.Machine.execHomeWriteback req s
  | .writebackReply req => Sys2Proof.Machine.execWritebackReply req s
  | .homeAtomic req => Sys2Proof.Machine.execHomeAtomic req s
  | .atomicReply req => Sys2Proof.Machine.execAtomicReply req s
  | .clockCreep g => Sys2Proof.Machine.execClockCreep g s
  | .l2SweepStep home => Sys2Proof.Machine.execL2SweepStep home s
  | .clockFloorBroadcast => Sys2Proof.Machine.execClockFloorBroadcast s
  | .cacheError site => Sys2Proof.Machine.execCacheError site s
  | .peerRequest chip pasid va op => Sys2Proof.Machine.execPeerRequest chip pasid va op s
  | .remoteWriteAck id => Sys2Proof.Machine.execRemoteWriteAck id s
  | .datumWindowStart => Sys2Proof.Machine.execDatumWindowStart s
  | .pageWalkComplete walk => Sys2Proof.Machine.execPageWalkComplete walk s
  | .tlbinvLeaf asid => Sys2Proof.Machine.execTlbinvLeaf asid s
  | .tlbinvAsid asid => Sys2Proof.Machine.execTlbinvAsid asid s
  | .tlbinvNonglobal => Sys2Proof.Machine.execTlbinvNonglobal s
  | .tlbinvAll => Sys2Proof.Machine.execTlbinvAll s
  | .tlbInvalidationComplete => Sys2Proof.Machine.execTlbInvalidationComplete s
  | .matrixPassStart core => Sys2Proof.Machine.execMatrixPassStart core s
  | .matrixPassWrite core => Sys2Proof.Machine.execMatrixPassWrite core s
  | .accPortOperation core => Sys2Proof.Machine.execAccPortOperation core s
  | .engineUncorrectable w tile => Sys2Proof.Machine.execEngineUncorrectable w tile s
  | .transferPieceLand cmd => Sys2Proof.Machine.execTransferPieceLand cmd s
  | .transferPieceFault cmd => Sys2Proof.Machine.execTransferPieceFault cmd s
  | .multicastAck cmd rank => Sys2Proof.Machine.execMulticastAck cmd rank s
  | .scheduleDescriptorIssue t => Sys2Proof.Machine.execScheduleDescriptorIssue t s
  | .recordConsume q uncorrectable => Sys2Proof.Machine.execRecordConsume q uncorrectable s
  | .launchCheck entry => Sys2Proof.Machine.execLaunchCheck entry s
  | .gridDependencesMet entry => Sys2Proof.Machine.execGridDependencesMet entry s
  | .slotAdmission entry => Sys2Proof.Machine.execSlotAdmission entry s
  | .placementDecision => Sys2Proof.Machine.execPlacementDecision s
  | .teamStart t => Sys2Proof.Machine.execTeamStart t s
  | .formatTableLoad t => Sys2Proof.Machine.execFormatTableLoad t s
  | .teamExit t => Sys2Proof.Machine.execTeamExit t s
  | .gridEndRequest t => Sys2Proof.Machine.execGridEndRequest t s
  | .partitionIdle p => Sys2Proof.Machine.execPartitionIdle p s
  | .pcSample core => Sys2Proof.Machine.execPcSample core s
  | .gridRetire entry => Sys2Proof.Machine.execGridRetire entry s
  | .completionRecordWrite entry => Sys2Proof.Machine.execCompletionRecordWrite entry s
  | .rankPressure entry => Sys2Proof.Machine.execRankPressure entry s
  | .saveAreaSupplied t base => Sys2Proof.Machine.execSaveAreaSupplied t base s
  | .saveAreaRetry t => Sys2Proof.Machine.execSaveAreaRetry t s
  | .multicastDrainDone t => Sys2Proof.Machine.execMulticastDrainDone t s
  | .safePointTake g => Sys2Proof.Machine.execSafePointTake g s
  | .preemptDeadline t => Sys2Proof.Machine.execPreemptDeadline t s
  | .hardwareSave t => Sys2Proof.Machine.execHardwareSave t s
  | .teamRestore entry => Sys2Proof.Machine.execTeamRestore entry s
  | .preemptGo p minRank => Sys2Proof.Machine.execPreemptGo p minRank s
  | .preemptHold p hold => Sys2Proof.Machine.execPreemptHold p hold s
  | .post q off size value => Sys2Proof.Machine.execPost q off size value s
  | .queueEnable q word0 => Sys2Proof.Machine.execQueueEnable q word0 s
  | .queueDisable q word0 => Sys2Proof.Machine.execQueueDisable q word0 s
  | .queueSync q word1 => Sys2Proof.Machine.execQueueSync q word1 s
  | .partitionEnable p word0 => Sys2Proof.Machine.execPartitionEnable p word0 s
  | .partitionDisable p word0 => Sys2Proof.Machine.execPartitionDisable p word0 s
  | .keyLoad slot => Sys2Proof.Machine.execKeyLoad slot s
  | .keyClear slot => Sys2Proof.Machine.execKeyClear slot s
  | .hostSharedRead port line => Sys2Proof.Machine.execHostSharedRead port line s
  | .hostOwnershipRead port line => Sys2Proof.Machine.execHostOwnershipRead port line s
  | .hostWriteback port line data bytes keep => Sys2Proof.Machine.execHostWriteback port line data bytes keep s
  | .bisnpResponse line data bytes => Sys2Proof.Machine.execBisnpResponse line data bytes s
  | .hostBar4Write port pa n data => Sys2Proof.Machine.execHostBar4Write port pa n data s
  | .hostBar4Read port pa n => Sys2Proof.Machine.execHostBar4Read port pa n s
  | .hostAtomic port pa op ty operand cmp => Sys2Proof.Machine.execHostAtomic port pa op ty operand cmp s
  | .hostRefusedAccess port off write => Sys2Proof.Machine.execHostRefusedAccess port off write s
  | .registerWrite addr value port => Sys2Proof.Machine.execRegisterWrite addr value port s
  | .dlctlPin link value => Sys2Proof.Machine.execDlctlPin link value s
  | .linkStepUp link => Sys2Proof.Machine.execLinkStepUp link s
  | .linkStepDown link => Sys2Proof.Machine.execLinkStepDown link s
  | .retrainWindowEnd link => Sys2Proof.Machine.execRetrainWindowEnd link s
  | .flitCrcError link => Sys2Proof.Machine.execFlitCrcError link s
  | .linkDown link => Sys2Proof.Machine.execLinkDown link s
  | .belcyMessageArrive port dest src edge op pasid va => Sys2Proof.Machine.execBelcyMessageArrive port dest src edge op pasid va s
  | .belcyLaneFail port => Sys2Proof.Machine.execBelcyLaneFail port s
  | .chipcfgWrite value => Sys2Proof.Machine.execChipcfgWrite value s
  | .powerOn => Sys2Proof.Machine.execPowerOn s
  | .bootVerify => Sys2Proof.Machine.execBootVerify s
  | .corePowerUp => Sys2Proof.Machine.execCorePowerUp s
  | .fatalEntry cause => Sys2Proof.Machine.execFatalEntry cause s
  | .packageReset => Sys2Proof.Machine.execPackageReset s
  | .hallCapFrame frame m => Sys2Proof.Machine.execHallCapFrame frame m s
  | .hallRecompute m => Sys2Proof.Machine.execHallRecompute m s
  | .hallHoldExpire => Sys2Proof.Machine.execHallHoldExpire s
  | .boardLimitMeasure m => Sys2Proof.Machine.execBoardLimitMeasure m s
  | .thermalStep heat => Sys2Proof.Machine.execThermalStep heat s
  | .currentLimitTrip => Sys2Proof.Machine.execCurrentLimitTrip s
  | .currentLimitRestore => Sys2Proof.Machine.execCurrentLimitRestore s
  | .pwrcfgWrite p value => Sys2Proof.Machine.execPwrcfgWrite p value s
  | .lifetimeCommit => Sys2Proof.Machine.execLifetimeCommit s
  | .lifetimeRead => Sys2Proof.Machine.execLifetimeRead s
  | .firmwareUpdate image interrupted => Sys2Proof.Machine.execFirmwareUpdate image interrupted s
  | .attestationRequest nonce => Sys2Proof.Machine.execAttestationRequest nonce s
  | .setStoredChipId id => Sys2Proof.Machine.execSetStoredChipId id s
  | .debugPoll => Sys2Proof.Machine.execDebugPoll s
  | .memorySample core => Sys2Proof.Machine.execMemorySample core s
  | .rcRegisterRead read => Sys2Proof.Machine.execRcRegisterRead read s
  | .hostPortLinkTraining port training => Sys2Proof.Machine.execHostPortLinkTraining port training s
  | .hostPortDown port => Sys2Proof.Machine.execHostPortDown port s
  | .standbyPowerOn => Sys2Proof.Machine.execStandbyPowerOn s
  | .standbyPowerLoss => Sys2Proof.Machine.execStandbyPowerLoss s
  | .keyOperationDone => Sys2Proof.Machine.execKeyOperationDone s
  | .fixedLatencyResultLand g lanes => Sys2Proof.Machine.execFixedLatencyResultLand g lanes s
  | .hostWindowCompletion id data ok => Sys2Proof.Machine.execHostWindowCompletion id data ok s
  | .jtagAccess off n write data => Sys2Proof.Machine.execJtagAccess off n write data s

end Sys2Proof.Machine
end

