-- ==== Sys2Proof/Machine/Pipeline.lean ====
section
/-!
DEFINITION. What comes next in the machine: whose turn it is (R74 to R76, log entry 3), the issue of one instruction and what follows it,
the debugger's steps and program buffers (R235, R236), the passage of time, and the internal events that may come about.
-/

namespace Sys2Proof.Machine

/-- What a step is to do: it is done already, or one instruction or event comes about. -/
inductive Todo where
  | done (s : State)
  | run (i : Instr) (s : State)

/-! ## The issue of one instruction -/

/-- A breakpoint hits in an attached context: the agent halts, a warp once its speculation has resolved (R95, R234, R237). -/
def State.hitBreak (s : State) (g : Agent) (d : DbgCtx) (lanes : Mask) (pc : W64) : State :=
  if s.windowOpen g then s.updCtx g (fun c => c.pendTrap { lanes := lanes, cause := .breakpoint, pc := pc, addr := 0 })
  else s.halt g lanes d.laneStop .breakpoint pc

/-- The executing lanes are speculative: no re-execution of a deferred condition (R92). -/
def State.guessing (s : State) (g : Agent) (lanes : Mask) : Bool :=
  match g with
  | .warp k => (match s.warp k with | some x => x.speculating && x.reexec &&& lanes = 0 | none => false)
  | .ct _ => false

/-- The agent, the address and the executing lanes of the issue; the decision among the lanes of E has been made. -/
def State.begin_ (s : State) (g : Agent) (e : Mask) (pc : W64) (lanes : Mask) (len : Nat) (step : Bool) : State :=
  let s : State := { s with cur := { agent := some g, pc := pc, len := len, lanes := lanes, step := step } }
  match g with
  | .warp k => s.updWarp k (fun x => x.decided (e ||| lanes) lanes)
  | .ct _ => s

/-- A whole issue that raises a cause in every executing lane before the word takes any effect. -/
def State.raiseWord (s : State) (w : Who) (c : Cause) : State :=
  let next := s.cur.pc + BitVec.ofNat 64 s.cur.len
  let (spec, s) := if s.cur.buffer then (none, s) else s.openEntry w.g s.cur.lanes next
  let ctl : Ctl := { gap := 0, yld := false, alloc := 0, wait := 0, neg := false, guard := 7 }
  let x : Args := { ctl := ctl, d := .raw 0, a := .raw 0, b := .raw 0, c := .raw 0, ty := .i32, mod := 0 }
  let now := s.cycle w.core
  let s := match w.g with
    | .warp k => s.updWarp k (fun y => { y with reexec := y.reexec &&& ~~~s.cur.lanes })
    | .ct _ => s
  State.finish { w := w, x := x, uni := true, pc := s.cur.pc, next := next, lanes := s.cur.lanes, act := s.cur.lanes, spec := spec,
                 now := now, last := now } (.all s s.cur.lanes c 0)

/-- Quarters of a slot that an instruction of a warp needs, from those that are free: none where they are not (R75). -/
def quartersFor (uni : Bool) (width : Nat) (free : Nat → Bool) : Option (List Nat) :=
  if uni || 32 ≤ width then (if (List.range 4).all free then some [0, 1, 2, 3] else none)
  else if width = 16 then (if free 0 && free 1 then some [0, 1] else if free 2 && free 3 then some [2, 3] else none)
  else ((List.range 4).find? free).map (fun q => [q])

/-- Quarter q of a slot is free in a cycle. -/
def Core.quarterFree (x : Core) (slot now q : Nat) : Bool := decide (Tab.get 0 x.slotFree (4 * slot + q) ≤ now)

/-- A decision of a slot, or of the control pipe (8), in a cycle: the cycles of the last two are kept (R74). -/
def Core.picked (x : Core) (slot now : Nat) : Core :=
  let p := Tab.get (0, 0) x.picks slot
  if p.1 = now + 1 then x else { x with picks := Tab.set x.picks slot (now + 1, p.1) }

/-- One more than the cycle of the last decision of a slot before this one. -/
def Core.lastPick (x : Core) (slot now : Nat) : Nat :=
  let p := Tab.get (0, 0) x.picks slot
  if p.1 = now + 1 then p.2 else p.1

/-- After an issue: an instruction that did not issue gives way for a cycle, and its decision is undone; else the slot or the pipe is
busy for its passes (R75, R76). -/
def State.after_issue (s0 s1 : State) (uni : Bool) (s2 : State) : State :=
  match s1.cur.agent with
  | none => { s2 with cur := {} }
  | some g =>
    let core := agentCore g
    let now := s1.cycle core
    let s : State := { s2 with cur := {} }
    if s2.cur.stalled then
      let s := s.updCtx g (fun c => { c with gapUntil := max c.gapUntil (now + 1) })
      match g, s0.warp (match g with | .warp k => k | .ct t => t) with
      | .warp k, some y => s.updWarp k (fun x => { x with deferred := y.deferred, starve := y.starve })
      | _, _ => s
    else
      let s := s.updCtx g (fun c => { c with readyAt := 0 })
      match g with
      | .ct _ => s.updCore core (fun c => { c.picked 8 now with pipeFree := now + 1 })
      | .warp k =>
        let width := match s0.warp k with | some x => x.width | none => 32
        let slot := k / 16 % 8
        let busy := (quartersFor uni width ((s1.core core).quarterFree slot now)).getD [0, 1, 2, 3]
        let s := s.updCore core (fun c => { c.picked slot now with
          slotFree := busy.foldl (fun t q => Tab.set t (4 * slot + q) (now + passesOf uni width)) c.slotFree })
        s.updWarp k (fun x => { x with issuedAt := now + 1, lastPc := s1.cur.pc, lastX := s1.cur.lanes })

/-- Issue what an agent is at: a breakpoint fires first (R237), but not on a wait that is evaluated again; an illegal word raises
ILLEGAL_OPCODE. -/
def State.issueAt (s : State) (g : Agent) (e : Mask) (pc : W64) (lanes : Mask) (i : Option Instr) (len : Nat) (step : Bool) : Todo :=
  match s.who g with
  | none => .done s
  | some w =>
    let s1 := s.begin_ g e pc lanes len step
    let again := match s.ctx g with | some c => c.inWait | none => false
    match (if step || again then none else s.bpAt w.asid pc), i with
    | some d, _ =>
      if s.guessing g lanes then .done (s.after_issue s1 true (s1.raiseWord w .breakpoint))
      else .done (s.hitBreak g d lanes pc)
    | none, none => .done (s.after_issue s1 true (s1.raiseWord w .illegalOpcode))
    | none, some i => .run i s1

/-! ## Fetching for an agent (R248) -/

/-- Take a fetch step; none where there is nothing to do now. Lanes whose fault was answered as unresolvable raise its cause (R98). A
speculative fetch that fails waits. A breakpoint at the address fires before the fetch fails, but not in a step (R236, R245). -/
def State.fetchTurn (s : State) (g : Agent) (pc : W64) (lanes : Mask) (step : Bool) : Option State :=
  match s.who g with
  | none => none
  | some w =>
    let guess := s.guessing g lanes
    let failing (t : State) : Option State :=
      if guess then none
      else match (if step then none else s.bpAt w.asid pc) with
        | some d => some (s.hitBreak g d lanes pc)
        | none => some t
    match lowestCause (s.owedBy w lanes pc guess) with
    | some (c, m, va) => failing ((s.clearOwed g m pc false).takeTrap g { lanes := m, cause := c, pc := pc, addr := va })
    | none =>
    match s.fetch w pc lanes with
    | .word _ _ => none
    | .wait s => some s
    | .idle => none
    | .trap c va => failing ((s.notePath w c va).takeTrap g { lanes := lanes, cause := c, pc := pc, addr := va })
    | .serve c va =>
      -- a host that owns the context's entry gives it back first
      if s.parkAsked w.asid then none
      else if s.parkHeld w.asid then some (s.recallPark w.asid)
      else failing (if s.parks w.asid then s.park g w.asid lanes va .fetch
               else s.takeTrap g { lanes := lanes, cause := c, pc := pc, addr := va })
    | .pri va pa t => failing (t.parkPri g w.asid lanes va pa)

/-! ## Time -/

/-- A pre-emption deadline waits while one of the team's agents is halted (R80, R234). -/
def State.holdDeadlines (s : State) (dt : Nat) : State :=
  { s with teams := s.teams.map (fun e =>
    let x := e.2
    let halted := x.ct.halted || x.warps.any (fun w => match s.warp w with | some y => y.halted != 0 | none => false)
    match x.preempt with
    | .points b d => if halted then (e.1, { x with preempt := .points b (d + dt) }) else e
    | .drain b d => if halted then (e.1, { x with preempt := .drain b (d + dt) }) else e
    | .area d => if halted then (e.1, { x with preempt := .area (d + dt) }) else e
    | _ => e) }

/-- Time moves on to the end of a cycle of 20 ns, at least one, and the next one begins: the stations of the core cycles that end take their
numbers, and teams that end have ended (R315, R426). -/
def State.tick (s : State) (n : Nat) : State :=
  let dt := 50 * max 1 ((n + 49) / 50)
  let s := (((s.numberStations dt).ageCounts dt).endTeams dt).flushLog.flushLate
  let s : State := { s.holdDeadlines dt with time := s.time + dt, turn := .events }
  if s.live then s.rollWindow.runLinks.wakeParts else s

/-! ## A place's turn (R74, R76) -/

/-- A candidate for a decision: its agent, its eligible lanes, what it would issue, and where it stands in the order: behind for YLD,
promoted, age, index. -/
structure Cand where
  g     : Agent
  e     : Mask
  pc    : W64
  lanes : Mask
  i     : Option Instr
  len   : Nat
  yld   : Bool
  old   : Bool
  age   : Nat
  k     : Nat

/-- The order of R74. -/
def Cand.before (a b : Cand) : Bool :=
  if a.yld != b.yld then b.yld
  else if a.old != b.old then a.old
  else decide (a.age < b.age) || (a.age == b.age && decide (a.k ≤ b.k))

/-- The first of the candidates. -/
def firstCand (l : List Cand) : Option Cand :=
  match l with
  | [] => none
  | c :: r => some (r.foldl (fun b x => if b.before x then b else x) c)

/-- The cycles for which an agent stays ready before its promotion: 32 for a warp. The bound of the control pipe is 16 cycles in place of 64
(R76), so that the model promotes a control thread after 8: the at most eight of a core then keep it (DEDUCED, log entry 43). With nine or more
always-ready warps of 128 lanes in a slot, R74's aging does not give its bound of 64 cycles: the model keeps the aging, oldest first among the
promoted, and lets the bound go there (DESIGN CHOICE, log entry 46). -/
def promoteAfter (g : Agent) : Nat := match g with | .warp _ => 32 | .ct _ => 8

/-- An agent as a candidate. It has stayed ready since readyAt. YLD of its last issue counts in the first decision of its slot after that. -/
def State.candOf (s : State) (g : Agent) : Option Cand :=
  match s.ctx g, s.look g with
  | some c, .go pc lanes i len =>
    let now := s.cycle (agentCore g)
    let e := match g with | .warp k => (match s.warp k with | some x => x.pool x.open_ | none => 0) | .ct _ => 1
    let slot := match g with | .warp k => k / 16 % 8 | .ct _ => 8
    let k := match g with | .warp k => (match s.warp k with | some x => x.k | none => 0) | .ct t => t % 8
    let issued := match g with | .warp k => (match s.warp k with | some x => x.issuedAt == now + 1 | none => false) | .ct _ => false
    if issued then none
    else some { g := g, e := e, pc := pc, lanes := lanes, i := i, len := len,
                yld := c.yld && decide (c.yldAt ≤ now ∧ (s.core (agentCore g)).lastPick slot now ≤ c.yldAt),
                old := c.readyAt != 0 && decide (c.readyAt + promoteAfter g ≤ now + 1), age := c.age, k := k }
  | _, _ => none

/-- Agents that become ready, or stop being ready, are noted so. -/
def State.noteReady (s : State) (gs : List Agent) (ready : List Agent) : State :=
  gs.foldl (fun s g =>
    let now := s.cycle (agentCore g)
    s.updCtx g (fun c => { c with readyAt := if ready.contains g then (if c.readyAt = 0 then now + 1 else c.readyAt) else 0 })) s

/-- The first agent that can take a fetch step takes it. -/
def State.fetchOne (s : State) (gs : List Agent) : Option State :=
  gs.findSome? (fun g => match s.look g with | .wait 9 pc lanes => s.fetchTurn g pc lanes false | _ => none)

/-- The turn of some agents that share an issue port: fetches come first, then one issue among those that fit. -/
def State.portTurn (s : State) (gs : List Agent) (open_ : Bool) (fits : Cand → Bool) : State × Option Todo :=
  match s.fetchOne gs with
  | some s => (s, some (.done s))
  | none =>
    if !open_ then (s, none)
    else
      let cands := gs.filterMap (fun g => s.candOf g)
      let s := s.noteReady gs (cands.map (·.g))
      match firstCand (cands.filter fits) with
      | none => (s, none)
      | some c => (s, some (s.issueAt c.g c.e c.pc c.lanes c.i c.len false))

/-- The turn of a place: a slot of a core, or its control pipe. -/
def State.placeTurn (s : State) (n : Nat) : State × Option Todo :=
  let core := n / 9
  let x := s.core core
  let now := s.cycle core
  if n % 9 = 8 then
    let ts := (s.teams.filter (fun e => e.1 / 8 == core)).map (·.1)
    let s := ts.foldl (fun s t => s.settleCt t) s
    s.portTurn (ts.map Agent.ct) (decide (x.pipeFree ≤ now)) (fun _ => true)
  else
    let slot := n % 9
    let ws := (s.warps.filter (fun e => e.1 / 16 == 8 * core + slot)).map (·.1)
    let s := ws.foldl (fun s w => s.settleWarp w) s
    let width (g : Agent) : Nat := match g with | .warp k => (match s.warp k with | some x => x.width | none => 32) | .ct _ => 32
    let uni (c : Cand) : Bool := match c.i with | some i => isUni i | none => true
    s.portTurn (ws.map Agent.warp) (s.gateOpen core) (fun c => (quartersFor (uni c) (width c.g) (x.quarterFree slot now)).isSome)

/-- The places that hold agents, from a place on. -/
def State.placesFrom (s : State) (n : Nat) : List Nat :=
  let cores := dedup (s.teams.map (fun e => e.1 / 8))
  (cores.flatMap (fun c => (List.range 9).map (fun j => 9 * c + j))).filter (fun p => decide (n ≤ p))

/-- PC samples, of the core cycles that end (R240), and pre-emption deadlines (R83) come after the issues of their cycle. -/
def State.lateEvents (s : State) : List Move :=
  ((s.cores.filter (fun e => match s.partOfCore e.1 with
    | some p =>
      let ctl := (s.part p).sampctl
      s.cycleEnds e.1 50 && ctl.getLsbD 0 && decide (e.2.sampAt / 2 ^ samplePeriod ctl < s.cycle e.1 / 2 ^ samplePeriod ctl)
    | none => false)).map (fun e => Instr.pcSample e.1) ++
  (s.teams.filter (fun e => s.cycleEnds e.2.core 50 && match e.2.preempt with | .points _ dead => decide (dead ≤ s.time) | _ => false)).map
    (fun e => Instr.preemptDeadline e.1)).map Move.event

/-- Place after place, the first that has something to do; after the last one the cycle's late events come, as listed or those that are due. -/
def State.scan (s : State) (places : List Nat) : Todo :=
  match places with
  | [] =>
    let l := if s.moves.isEmpty then s.lateEvents else s.moves
    .done (if l.isEmpty then s.tick 50 else { s with turn := .late, moves := l })
  | p :: rest =>
    match s.placeTurn p with
    | (_, some (.done t)) => .done { t with turn := .place p }
    | (_, some (.run i t)) => .run i { t with turn := .place p }
    | (s, none) => s.scan rest

/-! ## The debugger's agent (R235, R236) -/

/-- After a buffer the agent is held again in what it was held in, unless the buffer has moved it to another address (R235). -/
def State.holdAgain (s : State) (r : DbgRun) : State :=
  if (lanesOf r.holdX).all (fun j => s.pcOf r.agent j == r.holdPc) then s.updCtx r.agent (fun c => { c with hold := r.hold, holdX := r.holdX })
  else match r.hold with
    | .scales f => s.updCtx r.agent (fun c => { c with flights := c.flights.filter (fun o => o.id != f) })
    | _ => s

/-- A program buffer or a step is over. -/
def State.debugEnd (s : State) (r : DbgRun) (status : Nat) (data : Option W64) : State :=
  let s : State := if r.count = 0 then s else s.holdAgain r
  ({ s with dbgrun := none } : State).slotDone r.slot r.seq status data

/-- A lane waits for a walk: it has not executed its instruction (R159). -/
def Block.walks (b : Block) : Bool := match b.why with | .walk _ => true | _ => false

/-- A step whose instruction blocked. -/
def State.stepBlocked (s : State) (r : DbgRun) : Bool :=
  match r.agent with
  | .warp w => (match s.warp w with | some x => x.ctx.inWait || x.blocks.any (fun b => r.lanes.getLsbD b.1 && !b.2.walks) | none => false)
  | .ct _ => (match s.ctx r.agent with | some c => c.inWait | none => false)

/-- After a step that entered handler mode the whole agent is halted, at the handler's first instruction (R236). -/
def State.haltStepped (s : State) (r : DbgRun) : State :=
  match r.agent with
  | .ct _ => s
  | .warp w => s.updWarp w (fun x => if x.ctx.handler && !r.handler then { x with halted := x.live } else x)

/-- A step is over once the speculation of its instruction has resolved and a trap has been entered: the lanes stand halted. -/
def State.stepEnd (s : State) (r : DbgRun) : Option Todo :=
  match s.ctx r.agent with
  | none => some (.done (s.debugEnd r 2 none))
  | some c =>
    let busy := match r.agent with | .warp w => (match s.warp w with | some x => !x.window.isEmpty | none => false) | .ct _ => false
    if busy || c.trap.isSome then none
    else
      let pc := match r.agent with
        | .warp w => (match s.warp w with | some x => if r.lanes &&& x.live != 0 then x.lowPc (r.lanes &&& x.live) else x.lastPc | none => 0)
        | .ct _ => s.pcOf r.agent 0
      some (.done (((s.haltStepped r).logEvent .singleStep (identity r.agent) pc 0).debugEnd r (if s.stepBlocked r then 5 else 1) none))

/-- The lanes that a step of a warp decides among: halted or not in warp-stop mode, the halted ones in lane-stop mode. -/
def State.stepLanes (s : State) (r : DbgRun) : Mask :=
  match r.agent with
  | .ct _ => 1
  | .warp w =>
    match s.warp w with
    | none => 0
    | some x =>
      let all := { x with halted := 0 }.eligible
      let lane := match s.who r.agent with
        | some y => (match s.dbgOf y.asid with | some d => d.laneStop | none => false)
        | none => false
      if lane then all &&& x.halted else all

/-- The cause of a trap that an earlier word of a program buffer turned out to take. -/
def Ctx.bufferTrap (c : Ctx) : Option Cause :=
  match c.trap with | some p => if p.pc == bufferPc then some p.cause else none | none => none

/-- An entry of a program buffer: the words that have no meaning, or that wait, are told apart from those that run. The trap of an earlier
one stops the buffer. -/
def State.bufferTurn (s : State) (r : DbgRun) : Option Todo :=
  match s.who r.agent, s.ctx r.agent with
  | some w, some c =>
    match c.bufferTrap with
    | some k => some (.done ((s.updCtx r.agent (fun c => { c with trap := none })).debugEnd r 3 (some (BitVec.ofNat 64 (causeCode k)))))
    | none =>
    if s.cycle w.core < c.gapUntil || (match c.hold with | .walk _ => true | _ => false) then none
    else match r.words[r.at_]? with
      | none => some (.done (s.debugEnd r 4 none))
      | some word =>
        match readWord (word.setWidth 208) with
        | none =>
          if c.waits (BitVec.ofNat 7 (field (word.setWidth 208) 70 64)) then none
          else some (.done (s.debugEnd r 3 (some (BitVec.ofNat 64 (causeCode .illegalOpcode)))))
        | some i =>
          let lanes : Mask := match r.agent with
            | .warp k => (match s.warp k with | some x => x.live &&& ~~~x.parked | none => 0)
            | .ct _ => 1
          if c.tagWait i || s.counterHeld r.agent c lanes i || s.queueFull r.agent i || (isTrans i && s.unitBusy r.agent) then none
          else some (.run i { s with cur := { agent := some r.agent, pc := bufferPc, len := lengthOf (word.setWidth 208), lanes := lanes, buffer := true } })
  | _, _ => some (.done (s.debugEnd r 2 none))

/-- What the debugger's agent does next, if it can do something now. -/
def State.debugTurn (s0 : State) : State × Option Todo :=
  match s0.dbgrun with
  | none => (s0, none)
  | some r =>
    let s := match r.agent with | .warp w => s0.settleWarp w | .ct t => s0.settleCt t
    if r.count != 0 then (s, s.bufferTurn r)
    else if r.at_ != 0 then (s, s.stepEnd r)
    else
      let e := s.stepLanes r
      match s.lookIn r.agent e with
      | .idle =>
        let walks := match r.agent with | .warp w => (s.warp w).any (fun x => x.blocks.any (fun b => x.halted.getLsbD b.1 && b.2.walks)) | .ct _ => false
        if !walks && (match s.ctx r.agent with | some c => c.free | none => true) then (s, some (.done (s.debugEnd r 5 none))) else (s, none)
      | .wait 9 pc lanes => (s, (s.fetchTurn r.agent pc lanes true).map Todo.done)
      | .wait _ _ _ => (s, none)
      | .go pc lanes i len =>
        let s1 : State := { s with dbgrun := some { r with at_ := 1, lanes := lanes } }
        (s, some (s1.issueAt r.agent e pc lanes i len true))

/-- After an entry of a program buffer, or a step that did not issue. -/
def State.debugAfter (s1 s2 : State) : State :=
  match s2.dbgrun with
  | none => s2
  | some r =>
    if s1.cur.buffer then
      let c := s2.cur
      if c.stalled then s2
      else match c.trapped, c.ret with
        | some k, _ => s2.debugEnd r 3 (some (BitVec.ofNat 64 (causeCode k)))
        | none, some v => s2.debugEnd r 1 (some v)
        | none, none =>
          if r.at_ + 1 < r.count then { s2 with dbgrun := some { r with at_ := r.at_ + 1 } } else s2.debugEnd r 4 none
    else if s1.cur.step && s2.cur.stalled && !s2.stepBlocked r then { s2 with dbgrun := some { r with at_ := 0 } }
    else s2

/-! ## Internal events (log entry 3) -/

/-- A request at its home. -/
def reqEvent (r : Req) : Instr :=
  match r.kind with
  | .renew .. => .homeRenew r.id
  | .read1 => .home1Read r.id
  | .rawRead => .home1Read r.id
  | .wback .. => .homeWriteback r.id
  | .rawWrite .. => .homeWriteback r.id
  | .atomic .. => .homeAtomic r.id
  | .own .. => .homeAtomic r.id

/-- Its reply at the core. -/
def replyEvent (r : Reply) : Instr :=
  match r.req.kind with
  | .wback .. => .writebackReply r.id
  | .rawWrite .. => .writebackReply r.id
  | .atomic .. => .atomicReply r.id
  | .own .. => .atomicReply r.id
  | .renew .. => .renewalReply r.id
  | _ => .home1Read r.id

/-- What a team's part in the launch front and in a pre-emption may come to. -/
def State.teamEvents (s : State) (t : Nat) (x : Team) : List Instr :=
  let ending := match s.grid x.grid with | some g => g.ending && !x.ended | none => false
  (if x.started then [] else [.teamStart t]) ++
  (if x.started && x.fmtLoad then [.formatTableLoad t] else []) ++
  (if !x.heldCmd.isEmpty || x.sched.any (fun d => d.released.isSome) then [.scheduleDescriptorIssue t] else []) ++
  (if ending then [.gridEndRequest t] else []) ++
  (match x.preempt with
    | .none => []
    | .area _ => []
    | .retry _ => [.saveAreaRetry t]
    | .drain .. => [.multicastDrainDone t]
    | .points .. => [.hardwareSave t]
    | .writeBack _ => [.hardwareSave t]) ++
  (if x.over then [.teamExit t] else [])

/-- What a grid may come to. -/
def Grid.events (e : Nat) (g : Grid) : List Instr :=
  (match g.state with
    | .consumed => [.launchCheck e]
    | .waiting => [.gridDependencesMet e]
    | .admitting => [.slotAdmission e]
    | .placing => [.placementDecision, .rankPressure e]
    | .retired => [.completionRecordWrite e]
    | _ => []) ++
  (if g.saved.isEmpty then [] else [.placementDecision, .teamRestore e]) ++
  (if g.drained then [.gridRetire e] else [])

/-- Clock creep of an agent that is due (R119). -/
def State.creepDue (s : State) (g : Agent) : Bool :=
  match s.ctx g with | some c => !c.saved && decide (c.placedAt + 1024 * (c.creeps + 1) < s.cycle (agentCore g)) | none => false

/-- The matrix events of the cores whose warps have matrix work. -/
def State.matrixEvents (s : State) : List Instr :=
  let busy := dedup ((s.warps.filter (fun e => !e.2.mxq.isEmpty)).map (fun e => e.1 / 128) ++
    (s.cores.filter (fun e => !e.2.passes.isEmpty)).map (·.1))
  busy.flatMap (fun c => [.matrixPassWrite c, .accPortOperation c, .matrixPassStart c])

/-- The events of a copy command. -/
def Cmd.events (c : Cmd) : List Instr :=
  if c.complete then c.acks.map (fun r => .multicastAck c.id r) else [.transferPieceFault c.id, .transferPieceLand c.id]

/-- The samples of requests that have completed. -/
def State.sampleEvents (s : State) : List Instr :=
  (s.cores.filter (fun e => (s.sampleDone e.1).isSome)).map (fun e => .memorySample e.1)

/-- Requests and replies of the homes, and page walks. -/
def State.memoryEvents (s : State) : List Instr :=
  s.reqs.map reqEvent ++ s.replies.map replyEvent ++ s.walks.map (fun k => .pageWalkComplete k.id)

/-- The engines, whose releases come before the lane accesses of their cycle (R147, R182). -/
def State.engineEvents (s : State) : List Instr := s.matrixEvents ++ s.cmds.flatMap Cmd.events

/-- The teams and the launch front. -/
def State.workEvents (s : State) : List Instr :=
  s.teams.flatMap (fun e => s.teamEvents e.1 e.2) ++ s.grids.flatMap (fun e => e.2.events e.1) ++
  (s.queues.filter (fun e => e.2.head != e.2.tail)).map (fun e => .recordConsume e.1 false)

/-- A partition whose cores are to power down (R31). -/
def State.idleDue (s : State) (p : Nat) : Bool :=
  decide ((s.part p).idleAt + msec ≤ s.time) && !(s.idleCores p).isEmpty

/-- An event, where it is due. -/
def due (b : Bool) (i : Instr) : List Instr := if b then [i] else []

/-- The clocks: the floor first, so that every lease check of its cycle comes after it (R129), then the sweeps. -/
def State.clockEvents (s : State) : List Instr :=
  let agents := s.warps.map (fun e => Agent.warp e.1) ++ s.teams.map (fun e => Agent.ct e.1)
  due (decide (s.floorN < (s.time - s.resetAt) / (4096 * 50))) .clockFloorBroadcast ++
  ((List.range 6).filter (fun k => (s.home k).sweep.isSome)).map Instr.l2SweepStep ++
  (agents.filter (fun g => s.creepDue g)).map Instr.clockCreep

/-- What Vudor does by itself, in every state of the package. -/
def State.vudorEvents (s : State) : List Instr :=
  due (s.vudor.frame.isSome && decide (s.vudor.lapseAt ≤ s.time)) .hallHoldExpire ++
  due (decide (s.vudor.committedAt + commitEvery ≤ s.time)) .lifetimeCommit

/-- Keys, translation, power, debug. -/
def State.partEvents (s : State) : List Instr :=
  due (!s.powerSeq.isEmpty) .corePowerUp ++ due (!s.invals.isEmpty) .tlbInvalidationComplete ++ due s.keyBusy.isSome .keyOperationDone ++
  due (s.debugWindow.isSome && decide (s.dbgPoll < s.time / usec)) .debugPoll ++
  ((List.range 8).filter (fun p => s.idleDue p)).map Instr.partitionIdle ++ s.sampleEvents

/-- The events inside the part that may come about now, in the order in which the model takes them. -/
def State.events (s : State) : List Move :=
  let off := due (s.pkg == .boot) .bootVerify ++ (if s.standing then s.vudorEvents else [])
  if !s.live then off.map Move.event
  else s.heldFlits.map (fun e => Move.flit e.1 e.2) ++ (s.clockEvents ++ s.memoryEvents ++ s.engineEvents).map Move.event ++
    s.teams.flatMap (fun e => e.2.array.map (fun o => Move.array e.1 o.id)) ++ s.units.map (fun u => Move.unit u.id) ++ (s.workEvents ++ s.partEvents ++ off).map Move.event

/-! ## What comes next -/

/-- An event as a constructor that is no instruction word. -/
def isEvent (i : Instr) : Bool := (argsOf i).isNone

/-- A move that comes after the issues of its cycle. -/
def isLate (m : Move) : Bool := match m with | .event (.pcSample _) => true | .event (.preemptDeadline _) => true | _ => false

/-- One move, when its part of the cycle has come. -/
def State.move (s : State) (m : Move) : Todo :=
  match m with
  | .slot core slot =>
    if s.live && slot < 8 then (match s.placeTurn (9 * core + slot) with | (_, some t) => t | (s, none) => .done s) else .done s
  | .pipe core =>
    if s.live then (match s.placeTurn (9 * core + 8) with | (_, some t) => t | (s, none) => .done s) else .done s
  | .tick n => .done (s.tick n)
  | .array team id => .done (if s.live then s.arrayMove team id else s)
  | .unit id => .done (if s.live then s.unitMove id else s)
  | .flit since f => .done (if s.live then s.flitAgain since f else s.holdFlit since f)
  | .event e => if isEvent e then .run e { s with cur := {} } else .done s

/-- The agents have their turn, or have had it. -/
def State.inPlaces (s : State) : Bool := match s.turn with | .place _ => true | _ => false

/-- The first of the listed moves (log entry 3). In a cycle the events come first, then the agents issue, then come its late events: a move of
an earlier part waits for the next cycle, one of a later part for what comes before it. -/
def State.listedMove (s : State) (m : Move) (rest : List Move) : Todo :=
  let s1 : State := { s with moves := rest }
  if !s.live then s1.move m
  else match m with
    | .tick _ => s1.move m
    | .slot .. => if s.turn = .late then .done (s.tick 50) else ({ s1 with turn := .place 0 } : State).move m
    | .pipe _ => if s.turn = .late then .done (s.tick 50) else ({ s1 with turn := .place 0 } : State).move m
    | _ =>
      if isLate m then
        (match s.turn with
          | .late => s1.move m
          | .place n => s.scan (s.placesFrom n)
          | _ => s.scan (s.placesFrom 0))
      else if s.turn = .late || s.inPlaces then .done (s.tick 50)
      else s1.move m

/-- With no move listed: a cycle begins with the internal events that may come about in it, which are listed as moves, so that what the engines
land and release in a cycle comes before what an agent issues in it (R147, R205); then the places in turn; then a core cycle passes. -/
def State.defaultTurn (s : State) : Todo :=
  match s.turn with
  | .events => .done { s with turn := .listed, moves := s.events, heldFlits := if s.live then [] else s.heldFlits }
  | .listed => if s.live then s.scan (s.placesFrom 0) else .done (s.tick 50)
  | .place n => if s.live then s.scan (s.placesFrom n) else .done (s.tick 50)
  | .late => .done (s.tick 50)

/-- What the next step is to do. -/
def State.plan (s : State) : Todo :=
  match (if s.live && s.inPlaces then s.debugTurn else (s, none)) with
  | (_, some t) => t
  | (s, none) =>
    match s.moves with
    | m :: rest => s.listedMove m rest
    | [] => s.defaultTurn

/-- The state after the instruction or event of a step. -/
def State.after (s0 s1 : State) (i : Instr) (s2 : State) : State := s0.after_issue s1 (isUni i) (s1.debugAfter s2)

end Sys2Proof.Machine
end

