-- ==== Sys2Proof/Machine/Step.lean ====
section
/-!
DEFINITION. The step of the machine, and the placing of one instruction where the next step fetches it.
-/

namespace Sys2Proof.Machine

/-- One step: what is to be done next, and if that is an instruction or an event, its meaning and what follows it. -/
def step (s : State) : Host.Outcome State Fault Refusal :=
  match s.plan with
  | .done s' => .next s'
  | .run i s1 =>
    match exec i s1 with
    | .next s2 => .next (s.after s1 i s2)
    | .fault r => .fault r
    | .refused r => .refused r

/-! ## One instruction where the next step fetches it (log entry 5) -/

/-- A launch record for the instruction to run under: one team of one warp of 32 lanes, with all registers. -/
def fetchRecord : LaunchRec where
  code := 0
  gx := 1
  gy := 1
  gz := 1
  tx := 32
  ty := 1
  tz := 1
  width := 32
  cluster := false
  vregs := 256
  sregs := 64
  acc := 0
  scratch := 65536
  rank := 7
  part := 0
  depth := 0
  pred := []
  sched := 0
  slots := 0
  args := 0
  compl := 0
  legal := true

/-- Its grid, with its one team resident on core 0. -/
def fetchGrid : Grid where
  seq := 0
  queue := none
  index := 0
  raw := 0
  rec_ := fetchRecord
  hdr := { lentry := 0, centry := 0, safe := [], fmtOff := 0, trapOff := 0 }
  asid := 0
  part := 0
  rank := 7
  depth := 0
  order := 0
  state := .running
  token := 0
  placed := 1
  resident := [(0, 0)]
  cores := [0]

/-- The team. Its control thread has exited unless the instruction is one that only a control thread runs. -/
def fetchTeam (control : Bool) : Team where
  grid := 0
  num := 0
  core := 0
  k := 0
  x := 0
  y := 0
  z := 0
  rank := 0
  ct := { team := 0 }
  cpc := 0
  ctExited := !control
  warps := [0]
  leaves := []
  started := true

/-- Its warp, which stands parked where the control thread runs the instruction. -/
def fetchWarp (control : Bool) : Warp where
  ctx := { team := 0 }
  core := 0
  slot := 0
  idx := 0
  k := 0
  width := 32
  live := 0xFFFFFFFF
  parked := if control then 0xFFFFFFFF else 0

/-- A state in which core 0 alone runs, with one fetch line and one agent whose turn it is. -/
def State.onlyLine (s : State) (control : Bool) (line : FetchLine) : State :=
  { s with
    pkg := .run
    moves := []
    dbgrun := none
    dbgctx := []
    cur := {}
    turn := .place (if control then 8 else 0)
    cores := Tab.set s.cores 0 { powered := true, fetch := [line] }
    teams := [(0, fetchTeam control)]
    warps := [(0, fetchWarp control)]
    grids := [(0, fetchGrid)] }

/-- The agent that an instruction needs: a control thread for the instructions that only one runs. -/
def wantsControl (i : Option Instr) : Bool := match i with | some i => controlOnly i | none => false

/-- The instruction whose bits are w, at address 0 in a fetch line of core 0, and an agent there whose turn it is to issue it: the
package is in RUN, and no move of another agent comes first. -/
def State.withFetchWord (s : State) (nbits w : Nat) : State :=
  s.onlyLine (wantsControl (decodeTableWord nbits w)) { asid := 0, va := 0, data := BitVec.ofNat 512 (w % 2 ^ nbits) }

end Sys2Proof.Machine
end

