-- ==== Sys2Proof/Safety.lean ====
section
/-!
DEFINITION. What counts as a safe run, in the terms claims use: the machine goes on, memory keeps its canonical form, an instruction
executes normally, and what an issue leaves as it was.
-/

namespace Sys2Proof.Machine

/-- A step from here ends in a next state, not in a fault and not in a refusal. -/
def State.GoesOn (s : State) : Prop := ∃ t, step s = .next t

/-- Memory stands in canonical form: rising addresses and no listed zero (log entry 1). -/
def State.Canonical (s : State) : Prop := Memory.wf s.mem = true

/-! ## An instruction in issue -/

/-- An agent issues an instruction that executes normally: speculation does not hold it back, its word raises no cause, its guard is
not the one that is never true, and none of its lanes owes a cause. -/
structure State.Runs (s : State) (i : Instr) (x : Args) (w : Who) : Prop where
  agent : s.cur.agent = some w.g
  who   : s.who w.g = some w
  args  : argsOf i = some x
  free  : (s.specStops w.g s.cur.lanes i false && !s.cur.buffer) = false
  word  : s.wordCause w.g i x s.cur.buffer = none
  guard : never x.ctl = false
  owed  : (s.opened w.g).owedBy w (s.actOf i x w.g) (s.issOf i x w).pc (s.issOf i x w).spec.isSome = []

/-! ## What an issue leaves alone -/

/-- A context less its results on their way and its scheduling bits. -/
def Ctx.still (c : Ctx) : Ctx := { c with landings := [], gapUntil := 0, yld := false, yldAt := 0 }

/-- A warp, and a team, less what an issue of the warp, or of the team's control thread, may change. -/
def Warp.still (y : Warp) : Warp := { y with ctx := y.ctx.still, lpc := [], pend := [], window := [], reexec := 0 }
def Team.still (y : Team) : Team := { y with ct := y.ct.still, cpc := 0 }

/-- Everything but what every issue of an agent may change: its program counters, its results on their way, its GAP and YLD, its entry
of a speculation window, and the model's own counters. -/
def State.still (s : State) (g : Agent) : State :=
  match g with
  | .warp k => { s with fresh := 0, nextId := 0, warps := Tab.upd s.warps k Warp.still }
  | .ct t => { s with fresh := 0, nextId := 0, teams := Tab.upd s.teams t Team.still }

/-- An executing lane of the issue in progress, or its control thread. -/
def State.executing (s : State) (g : Agent) (j : Nat) : Bool :=
  match g with | .warp _ => s.cur.lanes.getLsbD j | .ct _ => s.cur.lanes != 0

/-- An issue whose only effect is register results: they are on their way and land when the instruction's last pass and its latency are
over, the program counters move on, GAP and YLD are set, and all else is as it was. -/
structure State.Issued (s t : State) (i : Instr) (x : Args) (w : Who) (ws : List RegWrite) : Prop where
  rest : t.still w.g = s.still w.g
  results : ∀ c, s.ctx w.g = some c → ∃ d id, t.ctx w.g = some d ∧
    d.landings = (if ws.isEmpty then c.landings else insertLanding
      { id := id, due := (s.issOf i x w).last + latency i, lanes := (s.issOf i x w).act, writes := ws, spec := (s.issOf i x w).spec } c.landings) ∧
    d.yld = x.ctl.yld ∧ d.yldAt = s.cycle w.core + 1 ∧
    d.gapUntil = (if x.ctl.gap = 0 then c.gapUntil else (s.issOf i x w).last + 1 + x.ctl.gap.toNat)
  pcs : ∀ j, t.pcOf w.g j = if s.executing w.g j && !s.cur.buffer then s.nextPc else s.pcOf w.g j

/-- An instruction is one of fixed latency with these results, one list for each lane that takes effect. -/
def FixedResult (i : Instr) (x : Args) (f : State → Iss → Nat → List RegWrite) : Prop :=
  ∀ s w, s.Runs i x w → ∃ t, exec i s = .next t ∧
    s.Issued t i x w ((s.issOf i x w).each.flatMap (f s (s.issOf i x w)))

/-- The integer that an operand supplies in a lane under a type, and an integer result put to d (R294). -/
def Iss.int (iss : Iss) (s : State) (j : Nat) (t : Ty) (o : Opnd) : Int := valOf t (iss.src s j t o)
def putInt (t : Ty) (x : Args) (j : Nat) (r : Int) : List RegWrite := putWrites t x.d j (putVal t r)

/-- The bits that an operand of the instruction's own type supplies, as a number. -/
def Iss.bits (iss : Iss) (s : State) (j : Nat) (o : Opnd) : Nat := (iss.src s j iss.x.ty o).toNat

/-- An instruction that executes normally in some lane, under a condition on the state and the issue, has an effect, ends its issue and
goes on. -/
def HasEffect (i : Instr) (x : Args) (pre : State → Iss → Prop) (f : State → Iss → Eff) : Prop :=
  ∀ s w, s.Runs i x w → s.actOf i x w.g ≠ 0 → pre (s.opened w.g) (s.issOf i x w) →
    exec i s = .next (State.finish (s.issOf i x w) (f (s.opened w.g) (s.issOf i x w)))

/-- The warp that issues, and whether one does. -/
def Iss.warpNo (iss : Iss) : Nat := match iss.w.g with | .warp k => k | .ct t => t
def Iss.ofWarp (iss : Iss) : Bool := match iss.w.g with | .warp _ => true | .ct _ => false

/-- What the access of each lane of a memory instruction comes to. -/
def State.accesses (s : State) (n : Iss) (off : Option Opnd) (bytes : Nat) (access : Access) (atom : Nat → Option AtomOp) :
    List (Nat × LaneRes) :=
  n.each.map (fun j => (j, s.laneRes n j off bytes access (atom j)))

/-- What the lanes of an access that may perform it now do; the others stay where they are. -/
def Goes (r : Except State (State × List (Nat × LaneRes) × Mask)) (f : State → List (Nat × LaneRes) → Mask → Eff) : Eff :=
  match r with
  | .ok (t, res, stay) => f t res stay
  | .error t => .stall t

/-- The accesses of an instruction may go on in some lanes, and its release is over. -/
def Clear (n : Iss) (r : Except State (State × List (Nat × LaneRes) × Mask)) : Prop :=
  ∃ t res stay, r = .ok (t, res, stay) ∧ (t.waitRelease (n.without stay)).1 = true

/-- An instruction that executes normally in some lane and stays where it is, under a condition, for its own part takes only a state. -/
def HasState (i : Instr) (x : Args) (pre : State → Iss → Prop) (f : State → Iss → State) : Prop :=
  HasEffect i x pre (fun s n => { st := f s n })

/-! ## Events -/

/-- An event of the running part, under a condition on the state, makes it this state. -/
def Happens (e : Instr) (pre : State → Prop) (f : State → State) : Prop :=
  ∀ s, s.live = true → pre s → exec e s = .next (f s)

/-- An event of Vudor, while standby power is there. -/
def Stands (e : Instr) (pre : State → Prop) (f : State → State) : Prop :=
  ∀ s, s.standing = true → pre s → exec e s = .next (f s)

end Sys2Proof.Machine
end

