-- ==== Sys2Proof/Certificates/Slice0/Obligations.lean ====
section
/-!
DEFINITION. The statements for the provers.
-/

open Sys2Proof Sys2Proof.Machine

/-! ## Instructions of fixed latency -/

/-- R296 to R299, with R294's values: the results of the integer instructions. Each answers a next state in which its results are on
their way, the program counters have moved on, and everything else is as it was. -/
def Obligations.IntegerResults : Prop :=
  ∀ x : Args,
    FixedResult (.iadd x) x (fun s n j => putInt x.ty x j (fitTo x.ty (satOf x) (n.int s j x.ty x.a + n.int s j x.ty x.b))) ∧
    FixedResult (.isub x) x (fun s n j => putInt x.ty x j (fitTo x.ty (satOf x) (n.int s j x.ty x.a - n.int s j x.ty x.b))) ∧
    FixedResult (.imul x) x (fun s n j => putInt x.ty x j (fitTo x.ty (satOf x) (n.int s j x.ty x.a * n.int s j x.ty x.b))) ∧
    FixedResult (.imulh x) x (fun s n j => putInt x.ty x j (n.int s j x.ty x.a * n.int s j x.ty x.b / 2 ^ Ty.bits x.ty)) ∧
    FixedResult (.imad x) x (fun s n j =>
      putInt x.ty x j (fitTo x.ty (satOf x) (n.int s j x.ty x.a * n.int s j x.ty x.b + n.int s j x.ty x.c))) ∧
    FixedResult (.imadw x) x (fun s n j =>
      let w : Ty := if x.ty = .n32 then .n64 else .i64
      putInt w x j (fitTo w (satOf x) (n.int s j x.ty x.a * n.int s j x.ty x.b + n.int s j w x.c))) ∧
    FixedResult (.ineg x) x (fun s n j => putInt x.ty x j (fitTo x.ty (satOf x) (-(n.int s j x.ty x.a)))) ∧
    FixedResult (.iabs x) x (fun s n j => putInt x.ty x j (fitTo x.ty (satOf x) |n.int s j x.ty x.a|)) ∧
    FixedResult (.imin x) x (fun s n j => putInt x.ty x j (min (n.int s j x.ty x.a) (n.int s j x.ty x.b))) ∧
    FixedResult (.imax x) x (fun s n j => putInt x.ty x j (max (n.int s j x.ty x.a) (n.int s j x.ty x.b))) ∧
    FixedResult (.iaddc x) x (fun s n j =>
      let sum := n.bits s j x.a % 2 ^ Ty.bits x.ty + n.bits s j x.b % 2 ^ Ty.bits x.ty + n.src32 s j x.c
      putInt x.ty x j sum ++ predWrites false j (modBits x.mod 9 7) (decide (2 ^ Ty.bits x.ty ≤ sum))) ∧
    FixedResult (.isubb x) x (fun s n j =>
      let a := n.bits s j x.a % 2 ^ Ty.bits x.ty
      let b := n.bits s j x.b % 2 ^ Ty.bits x.ty + n.src32 s j x.c
      putInt x.ty x j ((a : Int) - b) ++ predWrites false j (modBits x.mod 9 7) (decide (a < b))) ∧
    FixedResult (.lea x) x (fun s n j =>
      putInt x.ty x j (n.bits s j x.a + extBits (n.src32 s j x.b) 32 (modBit x.mod 9 && Ty.bits x.ty == 64) * 2 ^ modBits x.mod 8 5)) ∧
    FixedResult (.idot4 x) x (fun s n j =>
      putInt x.ty x j (fitTo x.ty (satOf x) (n.int s j x.ty x.c + dot4 (Ty.signed x.ty) (n.bits s j x.a) (n.bits s j x.b)))) ∧
    FixedResult (.isad x) x (fun s n j =>
      let w : Ty := if Ty.signed x.ty then .i32 else .n32
      putInt w x j (fitTo w (satOf x)
        (n.int s j w x.c + sadSum (Ty.bits x.ty) (Ty.signed x.ty) (n.src32 s j x.a) (n.src32 s j x.b))))

/-- R300 to R303: the results of the logic, shift and bit-field instructions. -/
def Obligations.LogicResults : Prop :=
  ∀ x : Args,
    FixedResult (.and x) x (fun s n j => putInt x.ty x j (n.bits s j x.a &&& n.bits s j x.b : Nat)) ∧
    FixedResult (.or x) x (fun s n j => putInt x.ty x j (n.bits s j x.a ||| n.bits s j x.b : Nat)) ∧
    FixedResult (.xor x) x (fun s n j => putInt x.ty x j (n.bits s j x.a ^^^ n.bits s j x.b : Nat)) ∧
    FixedResult (.andn x) x (fun s n j => putInt x.ty x j (n.src s j x.ty x.a &&& ~~~(n.src s j x.ty x.b)).toNat) ∧
    FixedResult (.bool3 x) x (fun s n j =>
      putInt x.ty x j (bool3Val (modBits x.mod 7 0) (n.src s j x.ty x.a) (n.src s j x.ty x.b) (n.src s j x.ty x.c)).toNat) ∧
    FixedResult (.shl x) x (fun s n j => putInt x.ty x j (shlVal (Ty.bits x.ty) (n.bits s j x.a) (n.src32 s j x.b))) ∧
    FixedResult (.shr x) x (fun s n j => putInt x.ty x j (shrVal (Ty.bits x.ty) (n.bits s j x.a) (n.src32 s j x.b))) ∧
    FixedResult (.sar x) x (fun s n j => putInt x.ty x j (sarVal (Ty.bits x.ty) (n.bits s j x.a) (n.src32 s j x.b))) ∧
    FixedResult (.rot x) x (fun s n j =>
      putInt x.ty x j (rotVal (Ty.bits x.ty) (modBit x.mod 5) (n.bits s j x.a) (n.src32 s j x.b))) ∧
    FixedResult (.shf x) x (fun s n j =>
      putInt x.ty x j (shfVal (Ty.bits x.ty) (modBit x.mod 5) (n.bits s j x.a) (n.bits s j x.b) (n.src32 s j x.c))) ∧
    FixedResult (.bfx x) x (fun s n j =>
      putInt x.ty x j (bfxVal (Ty.bits x.ty) (Ty.signed x.ty) (n.bits s j x.a) (n.src32 s j x.b))) ∧
    FixedResult (.bfi x) x (fun s n j =>
      putInt x.ty x j (bfiVal (Ty.bits x.ty) (n.bits s j x.a) (n.bits s j x.b) (n.src32 s j x.c))) ∧
    FixedResult (.popc x) x (fun s n j => regWrites x.d j 1 (popCount (Ty.bits x.ty) (n.bits s j x.a))) ∧
    FixedResult (.clz x) x (fun s n j => regWrites x.d j 1 (leadZeros (Ty.bits x.ty) (n.bits s j x.a))) ∧
    FixedResult (.ctz x) x (fun s n j => regWrites x.d j 1 (trailZeros (Ty.bits x.ty) (n.bits s j x.a))) ∧
    FixedResult (.brev x) x (fun s n j => putInt x.ty x j (revBits (Ty.bits x.ty) (n.bits s j x.a))) ∧
    FixedResult (.bytep x) x (fun s n j => putInt .b32 x j (bytePerm (n.src32 s j x.a) (n.src32 s j x.b) (n.src32 s j x.c)))

/-- R304 and R305: the results of the comparisons, selections and moves. -/
def Obligations.CompareResults : Prop :=
  ∀ x : Args,
    FixedResult (.icmp x) x (fun s n j =>
      predWrites n.uni j (predNum x.d) (combine (modBits x.mod 9 8)
        (intCond (modBits x.mod 7 5) (n.int s j x.ty x.a) (n.int s j x.ty x.b))
        (modBits x.mod 9 8 != 0 && n.src32 s j x.c != 0))) ∧
    FixedResult (.fcmp x) x (fun s n j =>
      let a := (fmtOf x.ty).fin (modBit x.mod 3) (n.fsrc s j x.ty x.a)
      let b := (fmtOf x.ty).fin (modBit x.mod 3) (n.fsrc s j x.ty x.b)
      let t := floatCond (modBits x.mod 7 5) a.1 b.1
      predWrites false j (predNum x.d) (combine (modBits x.mod 9 8) t.1 (modBits x.mod 9 8 != 0 && n.src32 s j x.c != 0)) ++
        flagWrites j (a.2 ||| b.2 ||| t.2)) ∧
    FixedResult (.sel x) x (fun s n j =>
      putWrites x.ty x.d j (if n.src32 s j x.c = 0 then n.src s j x.ty x.b else n.src s j x.ty x.a)) ∧
    FixedResult (.pset x) x (fun s n j =>
      predWrites false j (predNum x.d) ((modBits x.mod 8 5).testBit
        ((if n.src32 s j x.a = 0 then 0 else 2) + (if n.src32 s j x.b = 0 then 0 else 1)))) ∧
    FixedResult (.pmov x) x (fun s n j =>
      regWrites x.d j 1 ((List.range 8).foldl (fun r k => r + (if s.reg n.w.g j (.p k) = 0 then 0 else 2 ^ k)) 0)) ∧
    FixedResult (.pmovUnpack x) x (fun s n j =>
      (List.range 7).flatMap (fun k => if modBit x.mod k then predWrites false j k ((n.src32 s j x.a).testBit k) else [])) ∧
    FixedResult (.mov x) x (fun s n j => putWrites x.ty x.d j (n.src s j x.ty x.a))

/-- R306 to R310: the results of the cross-lane instructions, over the active lanes of the issue. -/
def Obligations.CrossLaneResults : Prop :=
  ∀ x : Args,
    FixedResult (.shfl x) x (fun s n j =>
      let p := modBits x.mod 9 7
      match shflLane (modBits x.mod 6 5) (segOf (modBits x.mod 4 2) (s.widthOf n.w.g)) j (n.src32 s j x.b) with
      | some k =>
        if n.act.getLsbD k then putWrites x.ty x.d j (n.src s k x.ty x.a) ++ predWrites false j p true
        else putWrites x.ty x.d j (n.src s j x.ty x.c) ++ predWrites false j p false
      | none => putWrites x.ty x.d j (n.src s j x.ty x.c) ++ predWrites false j p false) ∧
    FixedResult (.vote x) x (fun s n j =>
      let part := lanesOf n.act
      let yes := part.filter (fun k => n.src32 s k x.a != 0)
      let all := decide (yes.length = part.length)
      let p := modBits x.mod 9 7
      match modBits x.mod 6 5 with
      | 0 => maskWrites x.d j (s.widthOf n.w.g) (maskOf yes) ++ predWrites false j p (!yes.isEmpty)
      | 1 => regWrites x.d j 1 yes.length ++ predWrites false j p all
      | 2 => regWrites x.d j 1 part.length ++ predWrites false j p (all || yes.isEmpty)
      | _ => regWrites x.d j 1 (yes.headD (s.widthOf n.w.g)) ++ predWrites false j p (!yes.isEmpty)) ∧
    FixedResult (.match_ x) x (fun s n j =>
      let same := (lanesOf n.act).filter (fun k => n.src s k x.ty x.a == n.src s j x.ty x.a)
      let p := modBits x.mod 9 7
      if modBit x.mod 5 then
        maskWrites x.d j (s.widthOf n.w.g) (maskOf same) ++ predWrites false j p (decide (same.length = (lanesOf n.act).length))
      else regWrites x.d j 1 (same.headD j) ++ predWrites false j p (decide (same.headD j = j))) ∧
    FixedResult (.redux x) x (fun s n j =>
      let seg := segOf (rawOf x.b % 8) (s.widthOf n.w.g)
      let lanes := (lanesOf n.act).filter (fun k => k / seg == j / seg)
      let r := foldVals x.ty (modBits x.mod 7 5) { fmodOf x.mod with sat := false } (lanes.map (fun k => n.src s k x.ty x.a))
      putWrites x.ty x.d j r.1 ++ flagWrites j r.2) ∧
    FixedResult (.scan x) x (fun s n j =>
      let seg := segOf (rawOf x.b % 8) (s.widthOf n.w.g)
      let lanes := (lanesOf n.act).filter (fun k => k / seg == j / seg && (if modBit x.mod 8 then decide (k < j) else decide (k ≤ j)))
      let r := foldVals x.ty (modBits x.mod 7 5) { fmodOf x.mod with sat := false } (lanes.map (fun k => n.src s k x.ty x.a))
      putWrites x.ty x.d j r.1 ++ flagWrites j r.2)

/-- R328 to R340: the results of the floating-point instructions, with the flags that each raises. -/
def Obligations.FloatResults : Prop :=
  ∀ x : Args,
    let F := fmtOf x.ty
    let m := fmodOf x.mod
    let arg (s : State) (n : Iss) (j : Nat) (o : Opnd) : Nat := n.fsrc s j x.ty o
    let el (s : State) (n : Iss) (j : Nat) (o : Opnd) : Nat × Nat := n.psrc s j x.ty o
    FixedResult (.fadd x) x (fun s n j => resWrites x.ty x.d j (fAdd F m (arg s n j x.a) (arg s n j x.b))) ∧
    FixedResult (.fsub x) x (fun s n j => resWrites x.ty x.d j (fSub F m (arg s n j x.a) (arg s n j x.b))) ∧
    FixedResult (.fmul x) x (fun s n j => resWrites x.ty x.d j (fMul F m (arg s n j x.a) (arg s n j x.b))) ∧
    FixedResult (.ffma x) x (fun s n j => resWrites x.ty x.d j (fFma F m (arg s n j x.a) (arg s n j x.b) (arg s n j x.c))) ∧
    FixedResult (.fmin x) x (fun s n j => resWrites x.ty x.d j (fMinMax F (modBit x.mod 3) false (arg s n j x.a) (arg s n j x.b))) ∧
    FixedResult (.fmax x) x (fun s n j => resWrites x.ty x.d j (fMinMax F (modBit x.mod 3) true (arg s n j x.a) (arg s n j x.b))) ∧
    FixedResult (.frnd x) x (fun s n j => resWrites x.ty x.d j (fRnd F m (arg s n j x.a))) ∧
    FixedResult (.fscale x) x (fun s n j =>
      resWrites x.ty x.d j (fScale F m (arg s n j x.a) (extBits (n.src32 s j x.b) 32 true))) ∧
    FixedResult (.fclass x) x (fun s n j => regWrites x.d j 1 (fClass F (arg s n j x.a))) ∧
    FixedResult (.fdot2 x) x (fun s n j => resWrites .f32 x.d j (fDot2 F m (el s n j x.a).1 (el s n j x.b).1 (el s n j x.a).2
      (el s n j x.b).2 (n.fsrc s j .f32 x.c))) ∧
    FixedResult (.padd x) x (fun s n j =>
      packWrites x.d j (fAdd F m (el s n j x.a).1 (el s n j x.b).1) (fAdd F m (el s n j x.a).2 (el s n j x.b).2)) ∧
    FixedResult (.pmul x) x (fun s n j =>
      packWrites x.d j (fMul F m (el s n j x.a).1 (el s n j x.b).1) (fMul F m (el s n j x.a).2 (el s n j x.b).2)) ∧
    FixedResult (.pfma x) x (fun s n j =>
      packWrites x.d j (fFma F m (el s n j x.a).1 (el s n j x.b).1 (el s n j x.c).1)
        (fFma F m (el s n j x.a).2 (el s n j x.b).2 (el s n j x.c).2)) ∧
    FixedResult (.pmin x) x (fun s n j => packWrites x.d j (fMinMax F (modBit x.mod 3) false (el s n j x.a).1 (el s n j x.b).1)
      (fMinMax F (modBit x.mod 3) false (el s n j x.a).2 (el s n j x.b).2)) ∧
    FixedResult (.pmax x) x (fun s n j => packWrites x.d j (fMinMax F (modBit x.mod 3) true (el s n j x.a).1 (el s n j x.b).1)
      (fMinMax F (modBit x.mod 3) true (el s n j x.a).2 (el s n j x.b).2))

/-- R343 to R347: the results of the conversions. UNPK takes a constant operand as the value in both halves: the model's choice (log entry 34). -/
def Obligations.ConversionResults : Prop :=
  ∀ x : Args,
    let m := fmodOf x.mod
    FixedResult (.fcvt x) x (fun s n j => resWrites (cvtDst x) x.d j (fCvt x.ty (cvtDst x) m (n.fsrc s j x.ty x.a))) ∧
    FixedResult (.icvt x) x (fun s n j => resWrites (cvtDst x) x.d j (iCvt (cvtDst x) m (n.int s j x.ty x.a))) ∧
    FixedResult (.fcvti x) x (fun s n j =>
      let r := fCvtI x.ty m (loOf (cvtDst x)) (hiOf (cvtDst x)) (n.fsrc s j x.ty x.a)
      putInt (cvtDst x) x j r.1 ++ flagWrites j r.2) ∧
    FixedResult (.pack x) x (fun s n j =>
      let d := packDst x.mod
      let a := fCvt x.ty d m (n.fsrc s j x.ty x.a)
      let b := fCvt x.ty d m (n.fsrc s j x.ty x.b)
      regWrites x.d j 1 (packPlace d (modBits x.mod 8 7) (if d = .t8 ∨ d = .t4 then n.src32 s j x.c else 0) a.bits b.bits) ++
        flagWrites j (a.fl ||| b.fl)) ∧
    FixedResult (.unpk x) x (fun s n j =>
      let d := unpkDst x.mod
      let v := (s.opnd n.w.g n.uni true j x.ty x.a).toNat
      let el (k : Nat) : Res := fCvt x.ty d m (v / 2 ^ (Ty.bits x.ty * k) % 2 ^ Ty.bits x.ty)
      let lo := el (2 * modBits x.mod 8 7)
      let hi := el (2 * modBits x.mod 8 7 + 1)
      (if d = .f32 then regWrites x.d j 2 (lo.bits + hi.bits * 2 ^ 32) else regWrites x.d j 1 (lo.bits + hi.bits * 2 ^ 16)) ++
        flagWrites j (lo.fl ||| hi.fl))

/-- R320 to R323: the uniform instructions compute, once, what the lane instructions of the same name compute. -/
def Obligations.UniformResults : Prop :=
  ∀ x : Args,
    FixedResult (.uadd x) x (fun s n j => putInt x.ty x j (fitTo x.ty (satOf x) (n.int s j x.ty x.a + n.int s j x.ty x.b))) ∧
    FixedResult (.usub x) x (fun s n j => putInt x.ty x j (fitTo x.ty (satOf x) (n.int s j x.ty x.a - n.int s j x.ty x.b))) ∧
    FixedResult (.umul x) x (fun s n j => putInt x.ty x j (fitTo x.ty (satOf x) (n.int s j x.ty x.a * n.int s j x.ty x.b))) ∧
    FixedResult (.umad x) x (fun s n j =>
      putInt x.ty x j (fitTo x.ty (satOf x) (n.int s j x.ty x.a * n.int s j x.ty x.b + n.int s j x.ty x.c))) ∧
    FixedResult (.umin x) x (fun s n j => putInt x.ty x j (min (n.int s j x.ty x.a) (n.int s j x.ty x.b))) ∧
    FixedResult (.umax x) x (fun s n j => putInt x.ty x j (max (n.int s j x.ty x.a) (n.int s j x.ty x.b))) ∧
    FixedResult (.uand x) x (fun s n j => putInt x.ty x j (n.bits s j x.a &&& n.bits s j x.b : Nat)) ∧
    FixedResult (.uor x) x (fun s n j => putInt x.ty x j (n.bits s j x.a ||| n.bits s j x.b : Nat)) ∧
    FixedResult (.uxor x) x (fun s n j => putInt x.ty x j (n.bits s j x.a ^^^ n.bits s j x.b : Nat)) ∧
    FixedResult (.ushl x) x (fun s n j => putInt x.ty x j (shlVal (Ty.bits x.ty) (n.bits s j x.a) (n.src32 s j x.b))) ∧
    FixedResult (.ushr x) x (fun s n j => putInt x.ty x j (shrVal (Ty.bits x.ty) (n.bits s j x.a) (n.src32 s j x.b))) ∧
    FixedResult (.usar x) x (fun s n j => putInt x.ty x j (sarVal (Ty.bits x.ty) (n.bits s j x.a) (n.src32 s j x.b))) ∧
    FixedResult (.ubfx x) x (fun s n j =>
      putInt x.ty x j (bfxVal (Ty.bits x.ty) (Ty.signed x.ty) (n.bits s j x.a) (n.src32 s j x.b))) ∧
    FixedResult (.ulea x) x (fun s n j =>
      putInt x.ty x j (n.bits s j x.a + extBits (n.src32 s j x.b) 32 (modBit x.mod 9 && Ty.bits x.ty == 64) * 2 ^ modBits x.mod 8 5)) ∧
    FixedResult (.ucmp x) x (fun s n j =>
      predWrites n.uni j (predNum x.d) (combine (modBits x.mod 9 8)
        (intCond (modBits x.mod 7 5) (n.int s j x.ty x.a) (n.int s j x.ty x.b))
        (modBits x.mod 9 8 != 0 && n.src32 s j x.c != 0))) ∧
    FixedResult (.usel x) x (fun s n j =>
      putWrites x.ty x.d j (if n.src32 s j x.c = 0 then n.src s j x.ty x.b else n.src s j x.ty x.a)) ∧
    FixedResult (.umov x) x (fun s n j => putWrites x.ty x.d j (n.src s j x.ty x.a)) ∧
    FixedResult (.ufrom x) x (fun s n j =>
      let lane := if modBit x.mod 5 then lowest n.lanes else n.src32 s j x.b
      let ok := decide (lane < 128) && n.lanes.getLsbD lane
      putWrites x.ty x.d j (if ok then s.opnd n.w.g false false lane x.ty x.a else 0) ++ predWrites true j (modBits x.mod 9 7) ok)

/-- R342: a transcendental instruction takes the unit of its slot while it is free; its result waits with a tag. The bits of FRSQ,
FEXP2, FLOG2, FSIN, FCOS and FTANH are free values within R341's bounds (the model's choice, log entry 6). -/
def Obligations.TranscendentalResults : Prop :=
  ∀ x : Args,
    let later (i : Instr) (f : Nat → Res) : Prop :=
      HasState i x (fun s n => s.unitBusy n.w.g = false ∧ (s.takeUnit n (x.ty == .f64)).isSome) (fun s n =>
        ((s.takeUnit n (x.ty == .f64)).getD s).later n (n.each.flatMap (fun j => resWrites x.ty x.d j (f (n.fsrc s j x.ty x.a)))))
    let m := fmodOf x.mod
    later (.frcp x) (fRcp (fmtOf x.ty) m) ∧ later (.fsqrt x) (fSqrt (fmtOf x.ty) m) ∧
    later (.frsq x) (approxOp 1 x.ty m) ∧ later (.fexp2 x) (approxOp 3 x.ty m) ∧ later (.flog2 x) (approxOp 4 x.ty m) ∧
    later (.fsin x) (approxOp 5 x.ty m) ∧ later (.fcos x) (approxOp 6 x.ty m) ∧ later (.ftanh x) (approxOp 7 x.ty m)

/-! ## Memory instructions -/

/-- R352 to R358: loads, stores, prefetches and write-backs. In the lanes that no acquire, walk or earlier access to the line holds, a
load begins the result that its tag frees, a store goes to its targets after its release, and CWB writes back what is dirty. -/
def Obligations.MemoryEffects : Prop :=
  ∀ x : Args,
    let plain (s : State) (n : Iss) (a : Access) := s.accesses n (some x.b) (memSize x) a (fun _ => none)
    let elems (s : State) (n : Iss) (a : Access) := n.each.map (fun j => (j, s.formatRes n j a))
    let load (i : Instr) : Prop :=
      HasEffect i x (fun s n => (s.splitAccess n .read (plain s n .read)).isOk = true) (fun s n =>
        Goes (s.splitAccess n .read (plain s n .read)) (fun t res stay =>
          State.loadLanes n ((t.planLanes n .read true res).staying stay) (memSize x) (.plain x.d x.ty (memSize x)) (acquireOf x)))
    let store (i : Instr) : Prop :=
      HasEffect i x (fun s n => Clear n (s.splitAccess n .write (plain s n .write))) (fun s n =>
        Goes (s.splitAccess n .write (plain s n .write)) (fun t res stay =>
          State.storeLanes n (((t.waitRelease (n.without stay)).2.planLanes n .write false res).staying stay) (memSize x) (releaseOf x)
            (fun j => t.regsVal n.w.g j x.d (memRegs x) % 2 ^ (8 * memSize x))))
    let scaled (s : State) (n : Iss) := deferScales n (elems s n .write)
    let regs (s : State) (n : Iss) (j : Nat) := s.regsVal n.w.g j x.d (ldfRegs x)
    let lines (s : State) (n : Iss) := n.each.map (fun j => (j, s.cwbRes n j))
    let fetch (s : State) (n : Iss) : Mask × State :=
      n.each.foldl (fun acc j => (acc.1 ||| (acc.2.prefLane n (modBit x.mod 8) j).1, (acc.2.prefLane n (modBit x.mod 8) j).2)) (0, s)
    load (.ld x) ∧ load (.uld x) ∧ store (.st x) ∧ store (.ust x) ∧
    HasEffect (.ldf x) x (fun s n => s.fmtLoading n = false ∧ (s.splitAccess n .read (elems s n .read)).isOk = true) (fun s n =>
      Goes (s.splitAccess n .read (elems s n .read)) (fun t res stay =>
        State.loadLanes n ((t.planLanes n .read true res).staying stay) 16
          (.ldf (match x.d with | .v r => r.toNat | _ => 0) x.ty (modBit x.mod 7)) (acquireOf x))) ∧
    HasEffect (.stf x) x
      (fun s n => s.fmtLoading n = false ∧ missPages n (scaled s n) = [] ∧ (s.waitRelease n).1 = true ∧
        ∃ f, s.scaleFlight n = some f ∧ f.missing = 0)
      (fun s n => (s.waitRelease n).2.stfGo n (scaled s n) 0 (s.scaleFlight n) (regs s n)) ∧
    HasEffect (.stf x) x
      (fun s n => s.fmtLoading n = false ∧ s.scaleFlight n = none ∧ (∀ r ∈ scaled s n, scaleSegs r.2 = []) ∧
        Clear n (s.splitAccess n .write (scaled s n)))
      (fun s n => Goes (s.splitAccess n .write (scaled s n)) (fun t res stay =>
        (t.waitRelease (n.without stay)).2.stfGo n res stay none (regs s n))) ∧
    HasEffect (.pref x) x (fun s n => (fetch s n).1 = 0 ∨ ((fetch s n).1 ≠ n.act ∧ s.cur.buffer = false))
      (fun s n => { st := (fetch s n).2, stay := (fetch s n).1 }) ∧
    HasEffect (.cwb x) x (fun s n => (s.splitAccess n .clean (lines s n)).isOk = true) (fun s n =>
      Goes (s.splitAccess n .clean (lines s n)) (fun t res stay =>
        { st := t.writeLines n (dedup (res.flatMap (fun r => match r.2 with
            | .glob _ segs => segs.filterMap (fun sg => match targetOf sg.pa sg.leaf with | .leased .. => some (sg.pa / 256) | _ => none)
            | _ => [])))
          causes := res.flatMap (fun r => match r.2 with | .trap c va => n.causes r.1 c va | _ => [])
          stay := stay })) ∧
    HasState (.cwbAll x) x (fun s n => s.unitsOf n.w.g (fun _ st => st) = false) (fun s n => s.writeLines n (s.dirtyOrSent n.w.core))

/-- R359, R123, R124: SPMAP maps a region that meets R123; SPWB and SPREL write back the dirty lines of the named regions. That the active lanes
hold the cause of a map that does not meet R123 (log entry 18), and that its TRAPADDR is 0 (log entry 46), are the model's choices. -/
def Obligations.RegionEffects : Prop :=
  ∀ x : Args,
    let k := modBits x.mod 2 0
    let new (s : State) (n : Iss) : Region :=
      { off := n.src32 s (lowest n.act) x.a, len := n.src32 s (lowest n.act) x.b, base := n.src s (lowest n.act) .n64 x.c }
    -- accesses issued before it to bytes that it would map
    let early (s : State) (n : Iss) (t : Team) : Bool := t.array.any (fun o => overlap (new s n).off (new s n).len o.off o.n)
    let res (s : State) (n : Iss) := (s.namedRegions n).flatMap (fun e => e.2.dirtyLines.map (fun l => (e.1, l, s.regionRes n.w e.2 l)))
    let flat (s : State) (n : Iss) := (res s n).map (fun e => (lowest n.act, e.2.2))
    let plan (s : State) (n : Iss) := s.planLanes { n with uni := true, lanes := n.act } .write false (flat s n)
    let back (i : Instr) (unmap : Bool) : Prop :=
      HasState i x
        (fun s n => s.acquiring n.w.g = false ∧ s.regionsInUse n.w.team (s.namedRegions n) = false ∧
          missPages { n with uni := true, lanes := n.act } (flat s n) = [] ∧
          s.accessShut { n with uni := true, lanes := n.act } (flat s n) = false ∧
          (plan s n).causes = [] ∧ (plan s n).stay = 0)
        (fun s n => (plan s n).st.writeRegions n (s.namedRegions n) (res s n) unmap)
    HasState (.spmap x) x
      (fun s n => ∃ t, s.team n.w.team = some t ∧ (t.regions.any (·.2.gone)) = false ∧ early s n t = false ∧
        t.regionOk (s.scratchSize n.w.team) k (new s n).off (new s n).len (new s n).base = true)
      (fun s n => s.updTeam n.w.team (fun t => { t with regions := Tab.set t.regions k (new s n) })) ∧
    HasEffect (.spmap x) x
      (fun s n => ∃ t, s.team n.w.team = some t ∧ (t.regions.any (·.2.gone)) = false ∧ early s n t = false ∧
        t.regionOk (s.scratchSize n.w.team) k (new s n).off (new s n).len (new s n).base = false)
      (fun s n => .all s n.act .regionMap 0) ∧
    back (.spwb x) false ∧ back (.sprel x) true

/-- R360 to R362: atomics go to their points of performance once nothing holds them; a fence completes when its waits are over. -/
def Obligations.AtomicEffects : Prop :=
  ∀ x : Args,
    let atomic (i : Instr) (cas result : Bool) : Prop :=
      let res (s : State) (n : Iss) := s.accesses n none (Ty.bits x.ty / 8) .atomic (fun j => some (n.atomOf s cas j))
      HasEffect i x (fun s n => Clear n (s.splitAccess n .atomic (res s n))) (fun s n =>
        Goes (s.splitAccess n .atomic (res s n)) (fun t rs stay =>
          State.atomLanes n (((t.waitRelease (n.without stay)).2.planLanes n .atomic true rs).staying stay) x cas result))
    let order := Machine.orderOf x.mod
    let fence (i : Instr) : Prop :=
      HasState i x (fun _ _ => order = 0) (fun s _ => s) ∧
      HasState i x (fun s n => order = 1 ∧ s.awaiting n.w.g = false ∧ s.rawBusy n.w.g = false) (fun s n => (s.endHold n.w.g).acquireEnd n.w.g (scopeOf x.mod)) ∧
      HasState i x (fun s n => order = 2 ∧ s.rawBusy n.w.g = false ∧ (s.gate n (scopeOf x.mod)).1 = true) (fun s n => (s.gate n (scopeOf x.mod)).2) ∧
      HasState i x (fun s n => order = 3 ∧ s.awaiting n.w.g = false ∧ s.rawBusy n.w.g = false ∧ (s.gate n (scopeOf x.mod)).1 = true)
        (fun s n => (s.gate n (scopeOf x.mod)).2.acquireEnd n.w.g (scopeOf x.mod))
    atomic (.atom x) false true ∧ atomic (.atomn x) false false ∧ atomic (.acas x) true true ∧
    atomic (.uatom x) (modBits x.mod 9 7 == 7) true ∧ fence (.fence x) ∧ fence (.ufence x)

/-! ## Barriers and waits -/

/-- R366 to R368: barrier instructions act on the objects they reach, once no wait holds them. That BARQ never blocks (log entry 40), and that
failing lanes of BARW and BARQ acquire nothing and write no predicate (log entry 23), are the model's choices. -/
def Obligations.BarrierEffects : Prop :=
  ∀ x : Args,
    let arrive (count : Nat) (bytes : Iss → State → Nat → W32) (s : State) (n : Iss) : Eff :=
      s.atObjects n (n.arrivals (modBit x.mod 2)) true (fun rs => some (s.objScope rs)) (fun s j o => s.arrive n.w o count (bytes n s j))
    let arrives (i : Instr) (count : Nat) (bytes : Iss → State → Nat → W32) : Prop :=
      HasEffect i x (fun s n => (arrive count bytes s n).stalled = false) (arrive count bytes)
    let objs (s : State) (n : Iss) := (lanesOf n.act).map (fun j => (j, s.objRes n j .read))
    let split (s : State) (n : Iss) := s.splitAccess n .read (objs s n)
    let free (s : State) (n : Iss) : Prop := ∃ t rs stay, split s n = .ok (t, rs, stay) ∧ t.objWaits n false rs = none
    let plan (n : Iss) (t : State) (rs : List (Nat × LaneRes)) (stay : Mask) : Plan := ((t.planLanes n .read true rs).checkObjs n).staying stay
    let see (n : Iss) (t : State) (p : Plan) : List (Nat × ObjLoc × Nat) :=
      p.ok.filterMap (fun r => (objOf r.2).map (fun o => (r.1, o, n.src32 t r.1 x.b % 4096)))
    let passed (p : Plan) (e : Nat × ObjLoc × Nat) : Bool := epochPassed (p.st.objGet e.2.1).epoch e.2.2
    let failed (p : Plan) (e : Nat × ObjLoc × Nat) : Bool := passed p e && (p.st.objGet e.2.1).lastErr
    let seen (n : Iss) (t : State) (p : Plan) : State :=
      ((see n t p).filter (fun e => passed p e && !failed p e)).foldl (fun u e => u.observe n.w e.2.1)
        ((see n t p).foldl (fun u e => u.countObj n.w 0 e.2.1) p.st)
    let waits (n : Iss) (t : State) (p : Plan) := (see n t p).filter (fun e => !passed p e)
    let bad (n : Iss) (t : State) (p : Plan) := (see n t p).filter (fun e => failed p e)
    arrives (.bara x) 1 (fun _ _ _ => 0) ∧
    arrives (.barax x) (if modBit x.mod 3 then 0 else 1) (fun n s j => BitVec.ofNat 32 (n.src32 s j x.b)) ∧
    HasEffect (.barw x) x free (fun s n => Goes (split s n) (fun t rs stay =>
      let p := plan n t rs stay
      { st := (seen n t p).block n ((waits n t p).map (fun e => (e.1, .barw e.2.1 e.2.2)))
        causes := p.causes ++ (bad n t p).map (fun e => (e.1, .copyFault, e.2.1.addr))
        stay := p.stay ||| maskOf ((waits n t p).map (·.1)) })) ∧
    HasEffect (.barq x) x free (fun s n => Goes (split s n) (fun t rs stay =>
      let p := plan n t rs stay
      { st := n.results (seen n t p) 4
          (((see n t p).filter (fun e => !failed p e)).flatMap (fun e => predWrites false e.1 (predNum x.d) (passed p e)))
        causes := p.causes ++ (bad n t p).map (fun e => (e.1, .copyFault, e.2.1.addr))
        stay := p.stay })) ∧
    HasEffect (.bari x) x
      (fun s n => (∀ j ∈ lanesOf n.act, 1 ≤ n.src32 s j x.b ∧ n.src32 s j x.b ≤ 65535) ∧
        ∀ f, (s.atObjects n (lanesOf n.act, n) true (fun _ => releaseOf x) f).stalled = false)
      (fun s n => s.atObjects n (lanesOf n.act, n) true (fun _ => releaseOf x) (fun u j o => some (u.initObj n (n.src32 s j x.b) o)))

/-- R370 to R375: WAITC, JSET, JOIN, YIELD and NAP complete: each answers a next state, whichever lanes take effect. WAITC goes on or blocks
by the counters, JSET changes its mask, JOIN's lanes arrive, and the last to arrive release all; YIELD defers; NAP blocks for its cycles.
The mask that the join hardware sees is that of the cycle after a JSET's issue: the model's choice (log entry 45). -/
def Obligations.WaitEffects : Prop :=
  ∀ x : Args,
    -- an instruction completes under a condition: its executing lanes move past it
    let completes (i : Instr) (pre : State → Iss → Prop) : Prop :=
      ∀ s w, s.Runs i x w → s.actOf i x w.g ≠ 0 → s.cur.buffer = false → pre (s.opened w.g) (s.issOf i x w) →
        ∃ t, exec i s = .next t ∧ ∀ j, s.executing w.g j = true → t.pcOf w.g j = s.nextPc
    let ok (c : Ctx) : Bool := c.countersOk (rawOf x.d % 64) (rawOf x.a % 64) (rawOf x.b % 64) (rawOf x.c % 64)
    let mx := rawOf x.c % 64
    let k := jnum x.b
    let old (s : State) (n : Iss) : Mask := s.reg n.w.g 0 (.j k)
    HasState (.waitc x) x (fun s n => ∀ c, s.ctx n.w.g = some c → ok c = true ∧ (mx = 63 ∨ c.errMx = none))
      (fun s n => (s.ctx n.w.g).elim s (fun c => s.raiseClk n.w.g c.cmdClock)) ∧
    HasEffect (.waitc x) x (fun s n => ∃ c, s.ctx n.w.g = some c ∧ ok c = false) (fun s n =>
      { st := s.block n ((lanesOf n.act).map (fun j => (j, .waitc (rawOf x.d % 64) (rawOf x.a % 64) (rawOf x.b % 64) mx)))
        stay := n.act }) ∧
    HasState (.jset x) x (fun _ _ => True) (fun s n =>
      s.addLanding n.w.g (n.last + 4) n.act [{ lane := lowest n.act, dest := .j k, val := match modBits x.mod 1 0 with
        | 0 => n.act
        | 1 => s.maskSrc n.w.g x.a (s.widthOf n.w.g)
        | 2 => old s n &&& ~~~n.act
        | _ => old s n ||| n.act }] n.spec) ∧
    HasEffect (.join x) x (fun _ n => n.ofWarp = true) (fun s n =>
      { st := ((s.block n ((lanesOf n.act).map (fun j => (j, .join k (predNum x.d))))).updWarp n.warpNo (fun y => { y with
          rounds := if Tab.get 0 y.arrived k = 0 then Tab.set y.rounds k (n.now, n.src32 s (lowest n.act) x.a) else y.rounds
          arrived := Tab.set y.arrived k (Tab.get 0 y.arrived k ||| n.act) })).joinCheck n.warpNo
        stay := n.act }) ∧
    HasState (.yield_ x) x (fun _ n => n.ofWarp = true) (fun s n =>
      s.updWarp n.warpNo (fun y => { y with deferred := y.deferred ||| n.act })) ∧
    HasState (.nap x) x (fun s n => n.src32 s (lowest n.lanes) x.a = 0) (fun s _ => s) ∧
    HasEffect (.nap x) x (fun s n => n.src32 s (lowest n.lanes) x.a ≠ 0) (fun s n =>
      { st := s.block n ((lanesOf n.act).map (fun j => (j, .nap (n.now + min (n.src32 s (lowest n.lanes) x.a) 1048576))))
        stay := n.act }) ∧
    completes (.waitc x) (fun s n => ∃ c, s.ctx n.w.g = some c ∧ ok c = true ∧ (mx = 63 ∨ c.errMx = none)) ∧
    completes (.jset x) (fun _ _ => True) ∧ completes (.yield_ x) (fun _ _ => True) ∧
    completes (.nap x) (fun s n => n.src32 s (lowest n.lanes) x.a = 0) ∧
    (∀ s w v y, s.Runs (.join x) x w → s.cur.buffer = false → w.g = .warp v → s.warp v = some y →
      y.maskJ (s.cycle (v / 128)) k &&& y.live &&& ~~~(Tab.get 0 y.arrived k ||| s.actOf (.join x) x w.g) = 0 →
      ∃ t, exec (.join x) s = .next t ∧ ∀ j, (s.actOf (.join x) x w.g).getLsbD j = true → t.pcOf w.g j = s.nextPc) ∧
    (∀ s w, s.Runs (.join x) x w → ∃ t, exec (.join x) s = .next t) ∧ (∀ s w, s.Runs (.nap x) x w → ∃ t, exec (.nap x) s = .next t) ∧
    (∀ s w, s.Runs (.waitc x) x w → ∃ t, exec (.waitc x) s = .next t)

/-! ## Control flow -/

/-- R311 to R313, R319, R324 to R326: branches, calls and returns, resolved or predicted, and the uniform branches. -/
def Obligations.BranchEffects : Prop :=
  ∀ x : Args,
    let branch (i : Instr) (call : Bool) (target : Iss → State → Nat → W64) : Prop :=
      HasEffect i x (fun s n => s.isPredicted n = false) (fun s n =>
        let bad (j : Nat) : Option Cause := s.branchCause n.w.g call j (target n s j)
        let good := (lanesOf n.act).filter (fun j => (bad j).isNone)
        { st := if call then (good.foldl (fun u j => u.setDepth n.w.g n.spec j (u.depthOf n.w.g j + 1)) s).link_ n good n.spec else s
          causes := (lanesOf n.act).filterMap (fun j => (bad j).map (fun c => (j, c, 0)))
          go := good.map (fun j => (j, target n s j)) }) ∧
      HasEffect i x (fun s n => s.isPredicted n = true ∧ ∀ y, s.warp n.warpNo = some y → y.openBranches < 4 ∧ (n.spec.isSome = true ∨ y.window.length < 32))
        (fun s n => s.predict n n.warpNo call (target n s))
    let back (s : State) (n : Iss) (j : Nat) : Option Cause :=
      if (n.pair s j).getLsbD 0 then some .fetchAlign else if s.depthOf n.w.g j = 0 then some .callDepth else none
    let tgt (s : State) (n : Iss) : W64 := n.src s 0 .n64 x.a
    let count (s : State) (n : Iss) : W32 := BitVec.ofNat 32 (n.src32 s 0 x.d) - 1
    branch (.bra x) false (fun n _ _ => n.label) ∧ branch (.brx x) false (fun n s j => n.pair s j) ∧
    branch (.call x) true (fun n _ _ => n.label) ∧ branch (.callx x) true (fun n s j => n.pair s j) ∧
    HasEffect (.ret x) x (fun _ _ => True) (fun s n =>
      let good := (lanesOf n.act).filter (fun j => (back s n j).isNone)
      { st := good.foldl (fun u j => u.setDepth n.w.g n.spec j (u.depthOf n.w.g j - 1)) s
        causes := (lanesOf n.act).filterMap (fun j => (back s n j).map (fun c => (j, c, 0)))
        go := good.map (fun j => (j, n.pair s j)) }) ∧
    HasEffect (.ubra x) x (fun _ _ => True) (fun s n => { st := s, go := n.goAll n.label }) ∧
    HasEffect (.ubrx x) x (fun s n => (tgt s n).getLsbD 0 = false) (fun s n => { st := s, go := n.goAll (tgt s n) }) ∧
    HasEffect (.ubrx x) x (fun s n => (tgt s n).getLsbD 0 = true) (fun s n => .all s n.lanes .fetchAlign 0) ∧
    HasEffect (.ucall x) x (fun s n => ∀ j ∈ lanesOf n.lanes, s.depthOf n.w.g j ≠ 255) (fun s n =>
      { st := n.results ((lanesOf n.lanes).foldl (fun u j => u.setDepth n.w.g n.spec j (u.depthOf n.w.g j + 1)) s) 4
          (regWrites x.d (lowest n.lanes) 2 n.next.toNat)
        go := n.goAll n.label }) ∧
    HasEffect (.ucall x) x (fun s n => ∃ j ∈ lanesOf n.lanes, s.depthOf n.w.g j = 255) (fun s n => .all s n.lanes .callDepth 0) ∧
    HasEffect (.uret x) x (fun s n => (tgt s n).getLsbD 0 = false ∧ ∀ j ∈ lanesOf n.lanes, s.depthOf n.w.g j ≠ 0) (fun s n =>
      { st := (lanesOf n.lanes).foldl (fun u j => u.setDepth n.w.g n.spec j (u.depthOf n.w.g j - 1)) s, go := n.goAll (tgt s n) }) ∧
    HasEffect (.uloop x) x (fun _ _ => True) (fun s n =>
      { st := n.results s 4 (regWrites x.d (lowest n.lanes) 1 (count s n).toNat)
        go := if count s n = 0 then [] else n.goAll n.label })

/-- R315, R101, R326: exits end lanes, a control thread, a team or a grid; .team and .grid only in handler mode, and the team then ends with
its core's cycle (State.endSoon). -/
def Obligations.ExitEffects : Prop :=
  ∀ x : Args,
    let kind := modBits x.mod 6 5
    HasEffect (.exit x) x (fun _ n => n.ofWarp = true ∧ n.w.handler = false)
      (fun s n => { st := s.exitLanes n.warpNo n.act, stay := n.act }) ∧
    HasEffect (.exit x) x (fun _ n => n.ofWarp = true ∧ n.w.handler = true)
      (fun s n => { st := s.exitLanes n.warpNo (BitVec.allOnes 128), stay := n.lanes }) ∧
    HasEffect (.exitTeam x) x (fun _ n => n.w.handler = true) (fun s n => { st := s.endSoon n.w.team, stay := n.lanes }) ∧
    HasEffect (.exitTeam x) x (fun _ n => n.w.handler = false) (fun s n => .all s n.act .privilege 0) ∧
    HasEffect (.exitGrid x) x (fun _ n => n.w.handler = true)
      (fun s n => { st := (s.gridEnds n.w.team (s.trapCauseOf n.w.g)).endSoon n.w.team, stay := n.lanes }) ∧
    HasEffect (.exitGrid x) x (fun _ n => n.w.handler = false) (fun s n => .all s n.act .privilege 0) ∧
    HasEffect (.uexit x) x (fun _ n => kind = 0 ∧ n.ofWarp = true)
      (fun s n => { st := s.exitLanes n.warpNo (if n.w.handler then BitVec.allOnes 128 else n.lanes), stay := n.lanes }) ∧
    HasEffect (.uexit x) x (fun _ n => kind = 0 ∧ n.ofWarp = false) (fun s n => { st := s.exitCt n.warpNo, stay := n.lanes }) ∧
    HasEffect (.uexit x) x (fun _ n => kind = 1 ∧ n.w.handler = true) (fun s n => { st := s.endSoon n.w.team, stay := n.lanes }) ∧
    HasEffect (.uexit x) x (fun _ n => 2 ≤ kind ∧ n.w.handler = true)
      (fun s n => { st := (s.gridEnds n.w.team (s.trapCauseOf n.w.g)).endSoon n.w.team, stay := n.lanes }) ∧
    HasEffect (.uexit x) x (fun _ n => 1 ≤ kind ∧ n.w.handler = false) (fun s n => .all s n.lanes .privilege 0)

/-- R316 to R318, R237: TRAP and BRK raise their causes, BRK under a debugger halts; STEP writes a station and clears the edge id; SAFE
takes its safe point where one is due. The marker of STEP has BEGIN and RELEASE now and the warp itself as arriver: the model's choice (log
entry 23). -/
def Obligations.TrapEffects : Prop :=
  ∀ x : Args,
    let datum (s : State) (n : Iss) : Nat := (n.src s (lowest n.act) .n64 x.a).toNat % 2 ^ 57
    let edge (s : State) (n : Iss) : W64 := match s.ctx n.w.g with | some c => c.edge | none => 0
    HasEffect (.trap x) x (fun _ _ => True) (fun s n => .all s n.act .softwareTrap 0) ∧
    HasEffect (.brk x) x (fun s n => s.dbgOf n.w.asid = none) (fun s n => .all s n.act .breakpoint 0) ∧
    (∀ d, HasEffect (.brk x) x (fun s n => s.dbgOf n.w.asid = some d)
      (fun s n => { st := s.halt n.w.g n.act d.laneStop .breakpoint n.pc, stay := n.act })) ∧
    HasState (.step_ x) x (fun s n => s.stepEn (dieOf n.w.core) = true) (fun s n =>
      (s.writeMarker n.w.core (identity n.w.g) (datum s n) (edge s n)).updCtx n.w.g
        (fun c => { c with edge := 0 })) ∧
    HasState (.step_ x) x (fun s n => s.stepEn (dieOf n.w.core) = false)
      (fun s n => s.updCtx n.w.g (fun c => { c with edge := 0 })) ∧
    HasState (.safe x) x (fun s n => s.takeSafe n.w.g (modBits x.mod 5 0) = none ∧ s.safeSoon n.w.g (modBits x.mod 5 0) = false)
      (fun s _ => s) ∧
    HasState (.safe x) x (fun s n => n.ofWarp = true ∧ ∃ y, s.warp n.warpNo = some y ∧ n.lanes ≠ y.live) (fun s _ => s) ∧
    (∀ u, HasEffect (.safe x) x
      (fun s n => n.ofWarp = true ∧ (∃ y, s.warp n.warpNo = some y ∧ n.lanes = y.live) ∧ s.takeSafe n.w.g (modBits x.mod 5 0) = some u)
      (fun _ n => { st := u, stay := n.lanes }))

/-! ## Engines, queues and registers of the agent -/

/-- R175, R176, R381 to R385: a matrix instruction of a warp enters its queue while there is a place and a lock entry; one that R181
bars raises its cause instead (MATRIX_SLOT, SCRATCH_BOUNDS, ILLEGAL_OPERAND). An entry counts until its operation begins its last pass or is
served by the port, and an engine operation waits for its issuer's earlier accesses (the model's choices, log entries 25 and 3). -/
def Obligations.MatrixEffects : Prop :=
  ∀ x : Args,
    let place (s : State) (n : Iss) (locks : Nat) (more : Warp → Prop) : Prop :=
      n.ofWarp = true ∧ locks ≤ s.lockRoom n.w.core ∧ ∃ y, s.warp n.warpNo = some y ∧ (y.queued (s.serving n.w.core)).length < 4 ∧ more y
    let tiles := modBits x.mod 5 0 + 1
    let groups := modBits x.mod 4 2 + 1
    let read (i : Instr) (kind : Nat) (more : State → Iss → Prop) : Prop :=
      HasState i x (fun s n => place s n 0 (fun _ => more s n)) (fun s n =>
        let u := s.newId.2.beginFlight n { id := s.nextId, tag := 0, cnt := .none, pc := 0, lanes := 0, form := .ready, missing := 1 }
        let d := match x.d with | .v r => r.toNat | _ => 0
        let o (id : Nat) : MxOp := { id := id, kind := kind, acc := rawOf x.a, mod := x.mod, lanes := n.act, d := d, flight := s.nextId, arrival := 0 }
        u.enqueue n n.warpNo o (fun _ => []))
    let bars (i : Instr) (c : Cause) (at_ : State → Iss → W64) (pre : State → Iss → Warp → Prop) : Prop :=
      HasEffect i x (fun s n => n.ofWarp = true ∧ ∃ y, s.warp n.warpNo = some y ∧ pre s n y) (fun s n => .all s n.lanes c (at_ s n))
    let past (i : Instr) (bad : State → Iss → Prop) : Prop := bars i .matrixSlot (fun _ _ => 0) (fun s n _ => bad s n)
    let memory (i : Instr) (store : Bool) : Prop :=
      HasState i x (fun s n => s.engineHeld n.w.g = false ∧ place s n 1 (fun y =>
          n.mxAddr s % 256 = 0 ∧ rawOf x.d + groups ≤ s.accOf n.w.grid ∧
          (spaceOf x.mod = 1 → n.mxAddr s + y.mxBytes x store ≤ s.scratchSize n.w.team)))
        (fun s n => (s.warp n.warpNo).elim s (fun y => s.mxMemGo n n.warpNo y store)) ∧
      bars i .illegalOperand (fun _ _ => 0) (fun s n _ => n.mxAddr s % 256 ≠ 0) ∧
      bars i .scratchBounds (fun s n => BitVec.ofNat 64 (n.mxAddr s)) (fun s n y =>
        n.mxAddr s % 256 = 0 ∧ spaceOf x.mod = 1 ∧ s.scratchSize n.w.team < n.mxAddr s + y.mxBytes x store) ∧
      bars i .matrixSlot (fun _ _ => 0) (fun s n y =>
        n.mxAddr s % 256 = 0 ∧ (spaceOf x.mod = 1 → n.mxAddr s + y.mxBytes x store ≤ s.scratchSize n.w.team) ∧
        s.accOf n.w.grid < rawOf x.d + groups)
    HasState (.mxq x) x (fun s n => s.engineHeld n.w.g = false ∧ place s n 1 (fun _ =>
        n.mxqOff s % 128 = 0 ∧ n.mxqOff s + mxqSize x ≤ s.scratchSize n.w.team ∧ s.quarterPast n (rawOf x.d) = false))
      (fun s n => (s.warp n.warpNo).elim s (fun y => s.mxqGo n n.warpNo y)) ∧
    bars (.mxq x) .illegalOperand (fun _ _ => 0) (fun s n _ => n.mxqOff s % 128 ≠ 0) ∧
    bars (.mxq x) .scratchBounds (fun s n => BitVec.ofNat 64 (n.mxqOff s)) (fun s n _ =>
      n.mxqOff s % 128 = 0 ∧ s.scratchSize n.w.team < n.mxqOff s + mxqSize x) ∧
    past (.mxq x) (fun s n =>
      n.mxqOff s % 128 = 0 ∧ n.mxqOff s + mxqSize x ≤ s.scratchSize n.w.team ∧ s.quarterPast n (rawOf x.d) = true) ∧
    past (.mxz x) (fun s n => s.accOf n.w.grid < rawOf x.d + tiles) ∧ past (.mxrd x) (fun s n => s.quarterPast n (rawOf x.a) = true) ∧
    past (.mxwr x) (fun s n => s.quarterPast n (rawOf x.d) = true) ∧
    HasState (.mxz x) x (fun s n => place s n 0 (fun _ => rawOf x.d + tiles ≤ s.accOf n.w.grid)) (fun s n =>
      s.enqueue n n.warpNo (fun id => { id := id, kind := 1, acc := rawOf x.d, n := tiles, mod := x.mod, lanes := n.act, arrival := 0 })
        (fun _ => [])) ∧
    read (.mxrd x) 2 (fun s n => s.quarterPast n (rawOf x.a) = false) ∧ read (.mxrdCfg x) 7 (fun _ _ => True) ∧
    HasState (.mxwr x) x (fun s n => place s n 0 (fun _ => s.quarterPast n (rawOf x.d) = false)) (fun s n =>
      let o (id : Nat) : MxOp := { id := id, kind := 3, acc := rawOf x.d, mod := x.mod, lanes := n.act, rows := s.rowsOf n x.a, arrival := 0 }
      s.enqueue n n.warpNo o (fun _ => [])) ∧
    memory (.mxld x) false ∧ memory (.mxst x) true ∧
    HasState (.mxcfg x) x (fun s n => place s n 0 (fun _ => True)) (fun s n =>
      s.enqueue n n.warpNo (fun id => { id := id, kind := 6, acc := 0, mod := x.mod, lanes := n.act, arrival := 0 }) (fun _ => []))

/-- R386, R387: a copy starts the command of the descriptor at its scratchpad offset once it is there and the engine has room; one that is
misaligned or outside the allocation raises SCRATCH_BOUNDS; CPYS and UCPYS advance STAGE, which never falls, and UCPYS of a control thread
raises CSN whether it does or not. The STAGE from which a control thread advances is that before the cycle's other advances (the model's
choice, log entry 24). -/
def Obligations.CopyEffects : Prop :=
  ∀ x : Args,
    let off (s : State) (n : Iss) : Nat := n.src32 s (lowest n.act) x.a
    let outside (s : State) (n : Iss) : Prop := off s n % 64 ≠ 0 ∨ s.scratchSize n.w.team < off s n + 64
    let ready (s : State) (n : Iss) : Prop :=
      off s n % 64 = 0 ∧ off s n + 64 ≤ s.scratchSize n.w.team ∧ s.engineHeld n.w.g = false ∧
      s.scratchRes n.w n.w.team (off s n) 64 .read = .sp n.w.team (off s n) [] ∧ s.scratchBad n.w.team (off s n) 64 = false
    let old (s : State) (n : Iss) (t : Team) : Nat := s.stageFrom n.w.g t
    let new (s : State) (n : Iss) (stage : Nat) : Nat :=
      if modBit x.mod 0 then min (stage + 1) 63 else min (n.src32 s (lowest n.act) x.a) 63
    (∀ u, HasState (.cpy x) x (fun s n => ready s n ∧ s.copyStart n true (off s n) = .ok u)
      (fun _ n => u.updCtx n.w.g (fun c => { c with cp := c.cp + 1 }))) ∧
    (∀ u, HasState (.ucpy x) x (fun s n => ready s n ∧ s.copyStart n false (off s n) = .ok u) (fun _ _ => u)) ∧
    HasEffect (.cpy x) x (fun s n => n.uni = false ∧ outside s n) (fun s n => .all s n.act .scratchBounds (BitVec.ofNat 64 (off s n))) ∧
    HasEffect (.ucpy x) x (fun s n => n.uni = true ∧ outside s n) (fun s n => .all s n.lanes .scratchBounds (BitVec.ofNat 64 (off s n))) ∧
    (∀ t, HasState (.cpys x) x
      (fun s n => n.uni = false ∧ s.engineHeld n.w.g = false ∧ s.team n.w.team = some t ∧ old s n t < new s n (old s n t))
      (fun s n => s.advanceStage n.w.team (new s n (old s n t)) (n.w.g == .ct n.w.team) (s.originOf n none))) ∧
    (∀ t, HasState (.cpys x) x
      (fun s n => n.uni = false ∧ s.engineHeld n.w.g = false ∧ s.team n.w.team = some t ∧ new s n (old s n t) ≤ old s n t)
      (fun s _ => s)) ∧
    (∀ t, HasState (.ucpys x) x
      (fun s n => n.uni = true ∧ s.engineHeld n.w.g = false ∧ (s.nextCsn n).team n.w.team = some t ∧
        old (s.nextCsn n) n t < new (s.nextCsn n) n (old (s.nextCsn n) n t))
      (fun s n => (s.nextCsn n).advanceStage n.w.team (new (s.nextCsn n) n (old (s.nextCsn n) n t)) (n.w.g == .ct n.w.team)
        ((s.nextCsn n).originOf n none))) ∧
    (∀ t, HasState (.ucpys x) x
      (fun s n => n.uni = true ∧ s.engineHeld n.w.g = false ∧ (s.nextCsn n).team n.w.team = some t ∧
        new (s.nextCsn n) n (old (s.nextCsn n) n t) ≤ old (s.nextCsn n) n t)
      (fun s n => s.nextCsn n))

/-- R388 to R391, R201 to R203: the decision queue, the event queue and service calls. An EVWAIT that finds a record takes it; one that
finds none begins to wait, with its time if it has one. That one whose time runs out writes no station and leaves the edge id is the model's
choice (log entry 24). -/
def Obligations.QueueEffects : Prop :=
  ∀ x : Args,
    let pushed (m : Mask) (v : W64) (t : Team) (c : Ctx) : Team :=
      let e : DqEntry := { value := v, mask := m &&& firstLanes t.warps.length, clock := c.wclk, edge := c.edge }
      ({ t with dq := t.dq ++ [e] }).retireDq
    let here (s : State) (n : Iss) (p : Warp → Team → Prop) : Prop :=
      n.ofWarp = true ∧ ∃ y t, s.warp n.warpNo = some y ∧ s.team n.w.team = some t ∧ p y t
    let call (s : State) (n : Iss) (p : Team → Prop) : Prop :=
      n.ofWarp = true ∧ (∀ y, s.warp n.warpNo = some y → y.svc = none) ∧ (s.gate n 3).1 = true ∧
      ∃ t, (s.gate n 3).2.team n.w.team = some t ∧ p t
    let front (s : State) (n : Iss) (lost : Bool) (q : List EvRec) (hold : Hold → Prop) : Prop :=
      ∃ t, s.team n.w.team = some t ∧ t.lost = lost ∧ t.eq = q ∧ hold t.ct.hold
    let free (h : Hold) : Prop := ∀ u since, h ≠ .evwait u since
    (∀ t c, HasState (.dqpush x) x
      (fun s n => (∀ t, s.team n.w.team = some t → t.dq.length < 64) ∧ (s.gate n 1).1 = true ∧
        (s.gate n 1).2.team n.w.team = some t ∧ (s.gate n 1).2.ctx n.w.g = some c)
      (fun s n => (s.gate n 1).2.updTeam n.w.team (fun t => pushed (s.dqMask n) (n.src s 0 .n64 x.a) t c))) ∧
    (∀ e, HasState (.dqpop x) x (fun s n => here s n (fun y t => t.dqEntry y.k = some e)) (fun s n =>
      ((s.updTeam n.w.team (fun t => (s.warp n.warpNo).elim t (fun y => t.dqPop y.k))).raiseClk n.w.g e.clock).later n
        ((lanesOf n.act).flatMap (fun j => regWrites x.d j 2 e.value.toNat)))) ∧
    HasEffect (.dqpop x) x (fun s n => here s n (fun y t => t.dqEntry y.k = none ∧ t.ctExited = true))
      (fun s n => .all s n.act .queueOverrun 0) ∧
    HasEffect (.dqpop x) x (fun s n => here s n (fun y t => t.dqEntry y.k = none ∧ t.ctExited = false)) (fun s n =>
      { st := (s.newId.2.beginFlight n { id := s.nextId, tag := 0, cnt := .none, pc := 0, lanes := 0, form := .ready, missing := 1 }).block n
          ((lanesOf n.act).map (fun j => (j, .dqpop x.d s.nextId)))
        stay := n.act }) ∧
    (∀ e, HasState (.dqpeek x) x (fun s n => here s n (fun y t => t.dqEntry y.k = some e)) (fun s n =>
      (s.raiseClk n.w.g e.clock).later n
        ((lanesOf n.act).flatMap (fun j => regWrites x.d j 2 e.value.toNat ++ predWrites false j (modBits x.mod 9 7) true)))) ∧
    HasState (.dqpeek x) x (fun s n => here s n (fun y t => t.dqEntry y.k = none)) (fun s n =>
      s.later n ((lanesOf n.act).flatMap (fun j => predWrites false j (modBits x.mod 9 7) false))) ∧
    (∀ t, HasState (.svc x) x (fun s n => call s n (fun u => u = t ∧ (s.cur.buffer = true ∨ n.svcGuess t = none)))
      (fun s n => (s.gate n 3).2.callPlain n n.warpNo t)) ∧
    (∀ t v, HasState (.svc x) x (fun s n => call s n (fun u => u = t ∧ s.cur.buffer = false ∧ n.svcGuess t = some v))
      (fun s n => (s.gate n 3).2.callGuess n n.warpNo t v)) ∧
    (∀ r q, HasState (.evpop x) x (fun s n => front s n false (r :: q) (fun _ => True)) (fun s n => s.takeEvent n r)) ∧
    HasState (.evpop x) x (fun s n => front s n false [] (fun _ => True)) (fun s n => s.noEvent n) ∧
    (∀ q, HasEffect (.evpop x) x (fun s n => front s n true q (fun _ => True)) (fun s n => s.lostEvent n)) ∧
    (∀ r q, HasState (.evwait x) x (fun s n => front s n false (r :: q) free) (fun s n => s.takeEvent n r)) ∧
    (∀ r q u since, HasState (.evwait x) x (fun s n => front s n false (r :: q) (fun h => h = .evwait u since)) (fun s n =>
      ((s.takeEvent n r).endHold n.w.g).waitOver n.w.g since (r.arriver n.w.core) r.edge 3 0)) ∧
    (∀ since, HasState (.evwait x) x (fun s n => front s n false [] (fun h => h = .evwait (some 0) since))
      (fun s n => (s.noEvent n).endHold n.w.g)) ∧
    HasEffect (.evwait x) x (fun s n => front s n false [] free) (fun s n =>
      .stall (s.holdIn n (.evwait (if n.src32 s 0 x.a = 0 then none else some (n.now + n.src32 s 0 x.a)) s.time))) ∧
    (∀ q, HasEffect (.evwait x) x (fun s n => front s n true q (fun _ => True)) (fun s n => s.lostEvent n))

/-- R69, R67, R392 to R395: child launches, trigger levels, waits for grids and UCLOCK. The station of a UGWAIT that waited names no
arriver and no edge id (the model's choice, log entry 24). -/
def Obligations.LaunchEffects : Prop :=
  ∀ x : Args,
    let level (s : State) (n : Iss) : Nat := n.src32 s 0 x.a
    let token (s : State) (n : Iss) : W64 := n.src s 0 .n64 x.a
    let gated (s : State) (n : Iss) : State := (s.gate n 3).2
    let waits (s : State) (n : Iss) : Prop := ∃ c t, s.ctx n.w.g = some c ∧ c.hold = .ugwait t
    let team (s : State) (n : Iss) (p : Team → Ctx → Prop) : Prop := ∃ t c, s.team n.w.team = some t ∧ s.ctx n.w.g = some c ∧ p t c
    (∀ p e t c, HasState (.ulaunch x) x
      (fun s n => s.grid n.w.grid = some p ∧ p.depth < 10 ∧ s.freeEntry = some e ∧ (s.gate n 3).1 = true ∧
        ((gated s n).nextCsn n).team n.w.team = some t ∧ ((gated s n).nextCsn n).ctx n.w.g = some c)
      (fun s n =>
        let u := (gated s n).nextCsn n
        let w : State := { u with grids := Tab.set u.grids e (u.childGrid n p t c e (token s n)), launchSeq := u.launchSeq + 1, orderN := u.orderN + 1 }
        n.results w 4 (regWrites x.d (lowest n.lanes) 2 (handleOf e u.launchSeq).toNat))) ∧
    (∀ p, HasEffect (.ulaunch x) x (fun s n => s.grid n.w.grid = some p ∧ 10 ≤ p.depth) (fun s n => .all s n.lanes .launchDepth 0)) ∧
    (∀ t c, HasState (.utrig x) x
      (fun s n => 1 ≤ level s n ∧ level s n ≤ 15 ∧ (s.gate n 3).1 = true ∧ (gated s n).team n.w.team = some t ∧
        (gated s n).ctx n.w.g = some c ∧ t.trig < level s n)
      (fun s n => ((gated s n).updTeam n.w.team (fun t => { t with trig := level s n })).updGrid t.grid
        (fun g => { g with trigs := Tab.set g.trigs t.num (Tab.get [] g.trigs t.num ++ [(level s n, c.wclk)]) }))) ∧
    HasState (.utrig x) x (fun s n => 1 ≤ level s n ∧ level s n ≤ 15 ∧ (s.gate n 3).1 = true ∧
        team (gated s n) n (fun t _ => level s n ≤ t.trig)) (fun s n => gated s n) ∧
    HasEffect (.utrig x) x (fun s n => level s n = 0 ∨ 15 < level s n) (fun s n => .all s n.lanes .illegalOperand 0) ∧
    HasState (.ugwait x) x (fun s n => (token s n).getLsbD 63 = false) (fun s _ => s) ∧
    (∀ c, HasState (.ugwait x) x (fun s n => (token s n).getLsbD 63 = true ∧ s.gridOver (token s n) = some c ∧ ¬ waits s n)
      (fun s n => s.raiseClk n.w.g c)) ∧
    (∀ c k t, HasState (.ugwait x) x
      (fun s n => (token s n).getLsbD 63 = true ∧ s.gridOver (token s n) = some c ∧ s.ctx n.w.g = some k ∧ k.hold = .ugwait t)
      (fun s n => ((s.raiseClk n.w.g c).endHold n.w.g).waitOver n.w.g t 0 0 4 ((token s n).toNat % 2 ^ 57))) ∧
    HasState (.uclock x) x (fun _ _ => True) (fun s n => n.results s 4 (regWrites x.d (lowest n.lanes) 2 (s.cycle n.w.core)))

/-- R396 to R398, R403: reads and writes of special registers. Reading CNTS or TAGBUSY takes a tag; LPC, CPC and TRAPCAUSE are written
in handler mode only. A read of PREDSTAT clears all of it, .b32 too, and CNTS and TAGBUSY are read before the read takes its own tag (the
model's choices, log entry 19); USWRITE of LPC writes the saved LPC of the executing lanes (the model's choice, log entry 15). -/
def Obligations.SpecialRegisterEffects : Prop :=
  ∀ x : Args,
    let idx := modBits x.mod 7 0
    let read (s : State) (n : Iss) : List RegWrite := n.each.flatMap (fun j =>
      putWrites x.ty x.d j (BitVec.ofNat 64 (s.srValue n j idx / (if modBit x.mod 8 then 2 ^ 64 else 1))))
    let reads (i : Instr) (pre : State → Iss → Prop) (f : State → Iss → State) : Prop :=
      HasState i x (fun s n => pre s n ∧ (idx = 14 ∨ idx = 15)) (fun s n => (f s n).later n (read (f s n) n)) ∧
      HasState i x (fun s n => pre s n ∧ idx ≠ 14 ∧ idx ≠ 15 ∧ idx ≠ 33) (fun s n => n.results (f s n) 4 (read (f s n) n)) ∧
      HasState i x (fun s n => pre s n ∧ idx = 33 ∧ n.ofWarp = true) (fun s n =>
        n.results ((f s n).updWarp n.warpNo (fun y => { y with predstat := 0 })) 4 (read (f s n) n))
    let now (s : State) (n : Iss) : List RegWrite :=
      (if idx = 12 then lanesOf n.act else [lowest (if n.uni then n.lanes else n.act)]).map (fun j =>
        { lane := j, dest := .sr idx, val := (s.srSource n j).setWidth 128 })
    let writes (i : Instr) : Prop :=
      HasState i x (fun _ n => srPrivileged idx = false ∨ n.w.handler = true)
        (fun s n => n.results (if idx = 30 then s.awaitTable n.w.team else s) 4 (now s n)) ∧
      HasEffect i x (fun s n => srPrivileged idx = true ∧ n.w.handler = false ∧ s.cur.buffer = false)
        (fun s n => .all s (if n.uni then n.lanes else n.act) .privilege 0)
    reads (.sread x) (fun _ _ => True) (fun s _ => s) ∧
    reads (.usread x) (fun _ _ => modBit x.mod 9 = false) (fun s _ => s) ∧
    reads (.usread x) (fun s n => modBit x.mod 9 = true ∧ (s.syncWait n).1 = true) (fun s n => (s.syncWait n).2) ∧
    writes (.swrite x) ∧ writes (.uswrite x) ∧
    HasEffect (.uswriteRft x) x (fun _ n => n.ofWarp = false ∧ n.w.handler = true) (fun s n =>
      let a := s.srSource n 0 &&& ~~~1
      { st := s.updTeam n.warpNo (fun y => { y with savedCpc := a, cpc := a, ct := { y.ct with handler := false } }), stay := n.lanes }) ∧
    HasEffect (.uswriteRft x) x (fun _ n => n.ofWarp = false ∧ n.w.handler = false) (fun s n => .all s n.lanes .privilege 0) ∧
    HasState (.tlbsync x) x (fun s n => (s.syncWait n).1 = true) (fun s n => (s.syncWait n).2)

/-- R399 to R402, R101: FEATQ, RFT, DBGRET and UNPARK. -/
def Obligations.SystemEffects : Prop :=
  ∀ x : Args,
    let lanes (n : Iss) : List Nat := match x.d with | .s _ => [lowest n.act] | _ => lanesOf n.act
    let mask (s : State) (n : Iss) : Mask := if modBit x.mod 0 then BitVec.allOnes 128 else s.maskSrc n.w.g x.a (s.widthOf n.w.g)
    HasState (.featq x) x (fun _ _ => True) (fun s n =>
      n.results s 4 ((lanes n).flatMap (fun j => regWrites x.d j 2 (s.leaf n.w (n.src32 s j x.a)).toNat))) ∧
    HasEffect (.rft x) x (fun _ n => n.ofWarp = true ∧ n.w.handler = true ∧ modBit x.mod 0 = false) (fun s n =>
      { st := (s.rft n.warpNo false 0).updWarp n.warpNo (fun y => y.deliver), stay := n.lanes }) ∧
    (∀ len, HasEffect (.rft x) x
      (fun s n => n.ofWarp = true ∧ n.w.handler = true ∧ modBit x.mod 0 = true ∧
        s.lengthAt n.w.core n.w.asid n.w.part ((s.ctx n.w.g).elim 0 (·.trapPc)) = .ok len)
      (fun s n => { st := (s.free.2.rft n.warpNo true len).updWarp n.warpNo (fun y => y.deliver), stay := n.lanes })) ∧
    HasEffect (.rft x) x (fun _ n => n.ofWarp = true ∧ n.w.handler = false) (fun s n => .all s n.act .privilege 0) ∧
    HasState (.dbgret x) x (fun s _ => s.cur.buffer = true)
      (fun s n => { s with cur := { s.cur with ret := some (n.src s (lowest n.lanes) .n64 x.a) } }) ∧
    HasEffect (.dbgret x) x (fun s _ => s.cur.buffer = false) (fun s n => .all s n.act .privilege 0) ∧
    HasState (.unpark x) x (fun _ n => n.ofWarp = true) (fun s n => s.updWarp n.warpNo (fun y => y.unparkNow (mask s n) (s.time / 50)))

/-- R264, R266, R290, R291, R404: the retired forms. IMAD24 and BARSYNC run and are counted; FRCPA and LDGX, which have passed their
end, raise RETIRED_FORM when they are decoded, and are counted too. -/
def Obligations.RetiredForms : Prop :=
  ∀ x : Args,
    let trapped (i : Instr) : Prop := ∀ s w k, s.cur.agent = some w.g → s.who w.g = some w → w.g = .warp k →
      s.specStops w.g s.cur.lanes i (never x.ctl) = false →
      exec i s = .next (State.finish (s.issOf i x w) (Eff.all ((s.opened w.g).countRetired w i) s.cur.lanes .retiredForm 0))
    let mul (u : State) (n : Iss) (j : Nat) : Int :=
      extBits (n.src32 u j x.a) 24 (x.ty == .i32) * extBits (n.src32 u j x.b) 24 (x.ty == .i32) + (n.src32 u j x.c : Int)
    (∀ s w, s.Runs (.imad24 x) x w →
      let n := s.issOf (.imad24 x) x w
      let u := s.opened w.g
      exec (.imad24 x) s = .next (State.finish n
        { st := (n.results u 12 (n.each.flatMap (fun j => regWrites x.d j 1 (mul u n j % 2 ^ 32).toNat))).countRetired w (.imad24 x) })) ∧
    (∀ s w o, s.Runs (.barsync x) x w →
      let n := s.issOf (.barsync x) x w
      let u := s.opened w.g
      let e := u.atObjects n (n.arrivals false) true (fun rs => some (u.objScope rs)) (fun v _ o => v.arrive w o 1 0)
      let epoch := (u.objGet o).epoch
      n.act ≠ 0 → objOf (u.objRes n (lowest n.act) .atomic) = some o → e.stalled = false → e.causes = [] → e.stay = 0 →
      (epochPassed (e.st.objGet o).epoch epoch = false → exec (.barsync x) s = .next (State.finish n
        { st := (e.st.block n ((lanesOf n.act).map (fun j => (j, .barw o epoch)))).countRetired w (.barsync x), stay := n.act })) ∧
      (epochPassed (e.st.objGet o).epoch epoch = true → (e.st.objGet o).lastErr = false → exec (.barsync x) s =
        .next (State.finish n { st := (e.st.observe w o).countRetired w (.barsync x) }))) ∧
    trapped (.frcpa x) ∧ trapped (.ldgx x)

/-! ## Events -/

/-- R93, R259, R261, R368, R373, R375, R391: results land, tags come free, branches resolve, and waits end, unless the
warp stands at a safe point of a young request (R83). -/
def Obligations.WaitingEvents : Prop :=
  ∀ (g : Agent) (w k t tag : Nat) (lanes : Mask),
    let now (s : State) : Nat := s.cycle (agentCore g)
    -- registers that are not held per lane take their writes with any lane
    let lands (y : RegWrite) : Bool := lanes.getLsbD y.lane || !perLane y.dest
    (∀ c, Happens (.fixedLatencyResultLand g lanes) (fun s => s.ctx g = some c) (fun s =>
      let due := c.landings.filter (fun l => decide (l.due ≤ now s))
      (due.foldl (fun u l => u.putRegs g l.spec (l.writes.filter lands)) s).updCtx g (fun d =>
        (due.foldl (fun d l => if l.due = now s then d.noteLanded (now s) l.id (l.writes.filter lands) else d) d).dropLanded (fun l =>
          if now s < l.due then some l
          else
            let left := l.writes.filter (fun y => !lands y)
            if left.isEmpty then none else some { l with writes := left, lanes := l.lanes &&& ~~~lanes })))) ∧
    (∀ y, Happens (.branchResolve w) (fun s => s.warp w = some y)
      (fun s => s.landWarp w (y.ctx.landings.filter (fun l => decide (l.due ≤ s.cycle (w / 128)))))) ∧
    (∀ c f, Happens (.tagFree g tag)
      (fun s => tag ≠ 0 ∧ (s.land g).ctx g = some c ∧ c.flights.find? (fun f => f.tag == tag) = some f ∧ (s.land g).flightOver g f = true)
      (fun s => match g with | .warp w => ((s.land g).finishFlight g f).settleSpec w | .ct _ => (s.land g).finishFlight g f)) ∧
    (∀ y began n, Happens (.joinTimeout w k)
      (fun s => s.safeWanted (.warp w) = false ∧ s.safeHeld (.warp w) = false ∧ (s.joinCheck w).warp w = some y ∧ Tab.find y.rounds k = some (began, n) ∧ n ≠ 0 ∧ began + n < (s.joinCheck w).cycle y.core)
      (fun s => (s.joinCheck w).updWarp w (fun x => x.joinRelease k true))) ∧
    (∀ y, Happens (.napExpire w) (fun s => s.warp w = some y) (fun s => s.updWarp w (fun x => x.unblock
      ((y.blocks.filter (fun b => match b.2.why with | .nap t => decide (t ≤ s.cycle y.core) | _ => false)).map (·.1)) true))) ∧
    (∀ x u since, Happens (.evwaitTimeout t)
      (fun s => s.team t = some x ∧ x.ct.hold = .evwait (some u) since ∧ u ≤ s.cycle (t / 8))
      (fun s => s.updCtx (.ct t) (fun c => { c with hold := .evwait (some 0) since }))) ∧
    -- a warp that stands at a safe point of a young request stays there (R79, R83)
    Happens (.joinTimeout w k) (fun s => s.safeWanted (.warp w) = false ∧ s.safeHeld (.warp w) = true) (fun s => s) ∧
    Happens (.barwRetest w) (fun s => s.safeWanted (.warp w) = false ∧ s.safeHeld (.warp w) = true) (fun s => s) ∧
    (∀ x who b off team e, Happens (.barwRetest w)
      (fun s => s.safeWanted (.warp w) = false ∧ s.safeHeld (.warp w) = false ∧ s.warp w = some x ∧ s.who (.warp w) = some who ∧ x.blocks = [b] ∧ b.2.why = .barw (.sp team off) e ∧
        epochPassed (s.objGet (.sp team off)).epoch e = true ∧ s.objBad (.sp team off) = false ∧ (s.objGet (.sp team off)).lastErr = false)
      (fun s =>
        let o := s.objGet (.sp team off)
        ((s.observe who (.sp team off)).waitOver (.warp w) b.2.time o.arriver o.arriverEdge 0 (ObjLoc.addr (.sp team off)).toNat).updWarp w
          (fun y => y.unblock [b.1] true)))

/-- R203, R204, R98, R162, R63: replies of the service cores and of the host to calls, deferred calls and faults. A read of the hardware that waits
through PRI (log entry 11), and which of two waiting traps a refused call raises first (log entry 46), are the model's choices. -/
def Obligations.ReplyEvents : Prop :=
  ∀ (w t id : Nat) (request : W32) (value : W64) (err ok : Bool) (answer : FaultAnswer),
    let called (r : SvcReq) (y : Warp) (s : State) : Prop :=
      s.svcs = [r] ∧ r.warp = w ∧ s.warp w = some y ∧ y.svc = some r.flight ∧ r.predicted = none
    let cleared (s : State) : State := ({ s with svcs := [] } : State).land (.warp w) |>.updWarp w (fun y => { y with svc := none })
    let asked (s : State) : State := { s with pris := s.pris.filter (fun o => o.id != id) }
    (∀ r y f, Happens (.svcReply w value false)
      (fun s => called r y s ∧ r.call < 64 ∧ ((cleared s).learnSvc y.ctx.team r value).flight (.warp w) r.flight = some f)
      (fun s =>
        let dest := regWrites (.s (BitVec.ofNat 6 r.d)) (lowest r.lanes) 2 value.toNat
        ((cleared s).learnSvc y.ctx.team r value).finishFlight (.warp w)
          { f with writes := dest, lanes := maskOf (dest.map (·.lane)), dead := 0 })) ∧
    (∀ r y f, Happens (.svcReply w value true)
      (fun s => called r y s ∧ r.lanes &&& y.live ≠ 0 ∧ (cleared s).flight (.warp w) r.flight = some f)
      (fun s => (((cleared s).finishFlight (.warp w) { f with writes := [] }).oweTrap (.warp w)).updCtx (.warp w) (fun c => { c with
        trap := some { lanes := r.lanes &&& y.live, cause := .serviceError, pc := r.pc, addr := 0, keep := true } }))) ∧
    (∀ d g e, Happens (.deferredCallComplete t request value err)
      (fun s => s.deferred.find? (fun d => d.team == t && d.request == request) = some d ∧ s.grid d.grid = some g ∧ g.order = d.order ∧
        g.saved.any (fun x => x.team.num == d.num) = false ∧ s.teams.find? (fun e => e.2.grid == d.grid && e.2.num == d.num) = some e)
      (fun s => ({ s with deferred := s.deferred.filter (fun o => o != d) } : State).pushEvent e.1
        (evRec 3 (if err then 1 else 0) (if err then .serviceError else .none) 0 d.csn request d.cpc value 0 0))) ∧
    (∀ f, Happens (.faultReply id answer) (fun s => s.faults.find? (fun f => f.id == id) = some f) (fun s =>
      ({ s with faults := s.faults.filter (fun o => o.id != id) } : State).answerWho id f.va f.who (answerCause answer))) ∧
    -- the host's answer about a page: to lanes, a completion record or a copy command; to MXLD or MXST; to a peer; to a read of the hardware
    (∀ p, Happens (.priReply id ok)
      (fun s => s.pris.find? (fun p => p.id == id) = some p ∧
        ((∃ g m, p.who = .lanes g m) ∨ (∃ e, p.who = .grid e) ∨ ∃ c, p.who = .engine (.cmd c)))
      (fun s => (asked s).answerWho p.ticket 0 p.who (if ok then none else some .hostPath))) ∧
    (∀ p v o y, Happens (.priReply id ok)
      (fun s => s.pris.find? (fun p => p.id == id) = some p ∧ p.who = .engine (.mx v o.id) ∧ s.warp v = some y ∧
        y.mxq.find? (fun q => q.id == o.id) = some o)
      (fun s => (asked s).answerWho p.ticket ((asked s).engVa (.mx v o.id) o.done 0) p.who (if ok then none else some .hostPath))) ∧
    (∀ p q pid, Happens (.priReply id ok)
      (fun s => s.pris.find? (fun p => p.id == id) = some p ∧ p.who = .peer pid ∧ s.peerIn.find? (fun q => q.id == pid) = some q)
      (fun s =>
        let u : State := { asked s with peerIn := s.peerIn.filter (fun o => o.id != pid) }
        if ok then u.peerHostSend { q with id := pid } p.pa else u.peerAnswer q 0 .hostPath)) ∧
    (∀ p core part, Happens (.priReply id true)
      (fun s => s.pris.find? (fun p => p.id == id) = some p ∧ p.who = .hw core part)
      (fun s => (asked s).hostTxn { g := noAgent, core := core, team := 0, grid := 0, asid := p.asid, part := part, handler := false }
        (p.pa / 256 * 256) 64 false true 0 none .none))

/-- R111 to R117, R126: a renewal, a read, a write-back and an atomic complete at their home: each answers a next state. A request reaches its
home; it is served once no earlier one for its line waits, and a line that a host holds is recalled first. What each leaves at the home,
and what the replies bring the core. Arrival and service are two events (the model's choice, log entry 3); a write-back under a cleared key
is replied to with its own clock and a renewal or a read under one fails with KEY_INVALID (the model's choice, log entry 20). That an acquire takes
the clock of the dirty bytes that it reads, and the clock that a HOME 3 store left, that the reply to a renewal is laid over by the dirty bytes that
its line took along when it left the L1 meanwhile (log entry 39), and that a request's own clock raises a line's times only where a sweep had begun
before (log entry 46), are the model's choices. -/
def Obligations.HomeEvents : Prop :=
  ∀ (id : Nat),
    let asks (kind : ReqKind → Bool) (r : Req) (k : Nat) (s : State) : Prop :=
      s.reqs.find? (fun o => o.id == id && kind o.kind) = some r ∧ lineHome r.line = some k
    let served (kind : ReqKind → Bool) (r : Req) (k : Nat) (write : Bool) (s : State) : Prop :=
      asks kind r k s ∧ r.arrived.isSome = true ∧ s.reqReady r = true ∧ s.clearHost r.line r.key r.part write = none
    -- a request of a kind arrives, waits for a recall, or waits for an earlier one
    let comes (e : Instr) (kind : ReqKind → Bool) (write : Bool) (fresh : State → Prop) : Prop :=
      (∀ r k, Happens e (fun s => fresh s ∧ asks kind r k s ∧ r.arrived = none ∧ s.mayArrive r = true) (fun s =>
        { s with reqs := s.reqs.map (fun o => if o.id = id then { o with arrived := some (s.time / 50) } else o) })) ∧
      (∀ r k u, Happens e
        (fun s => fresh s ∧ asks kind r k s ∧ r.arrived.isSome = true ∧ s.reqReady r = true ∧ s.clearHost r.line r.key r.part write = some u)
        (fun _ => u)) ∧
      (∀ r k, Happens e (fun s => fresh s ∧ asks kind r k s ∧ r.arrived.isSome = true ∧ s.reqReady r = false) (fun s => s))
    let taken (s : State) : State := { s with reqs := s.reqs.filter (fun o => o.id != id) }
    -- the request raises its home's clock, whatever comes of it
    let noted (r : Req) (k : Nat) (s : State) : State := ((taken s).sweepFirst k r.line).raiseMts k ((taken s).sweepFirst k r.line |>.reqClock k r)
    let fetched (r : Req) (k : Nat) (s : State) : State := (noted r k s).fetchLine k r.line r.key r.part r.home2
    let plain (r : Req) : Reply := { id := id, req := r, wts := 0, rts := 0, data := 0, sectors := 0, same := false }
    let new (s : State) : Prop := s.replyFor id ReqKind.isRead = none
    let replied (s : State) : State := { s with replies := s.replies.filter (fun o => o.id != id) }
    comes (.homeRenew id) ReqKind.isRenew false (fun _ => True) ∧ comes (.home1Read id) ReqKind.isRead false new ∧
    comes (.homeWriteback id) ReqKind.isWrite true (fun _ => True) ∧ comes (.homeAtomic id) ReqKind.isAtomic true (fun _ => True) ∧
    -- HOME_RENEW: the line's class and lease, and the reply; a prefetch into the L2 alone has none
    (∀ r k wts sector pin l, Happens (.homeRenew id)
      (fun s => served ReqKind.isRenew r k false s ∧ (noted r k s).reqKeyBad r = false ∧ r.kind = .renew wts sector pin false ∧
        Tab.find (fetched r k s).l2 r.line = some l)
      (fun s =>
        let cls := if wts = some l.wts ∧ l.cls ≠ 3 then l.cls + 1 else l.cls
        let len := leaseLen (pin.getD cls)
        let rts := serialMax l.rts (serialMax (l.wts + len) (r.c + len))
        let u := ({ fetched r k s with l2 := Tab.set (fetched r k s).l2 r.line { l with cls := cls, rts := rts } } : State).raiseMts k rts
        u.reply { id := id, req := r, wts := l.wts, rts := rts, data := u.lineData r.line
                  sectors := if wts = some l.wts then BitVec.ofNat 4 (2 ^ sector) else 15, same := false, bad := u.poisonOf r.line })) ∧
    (∀ r k wts sector pin, Happens (.homeRenew id)
      (fun s => served ReqKind.isRenew r k false s ∧ (noted r k s).reqKeyBad r = false ∧ r.kind = .renew wts sector pin true) (fun s => fetched r k s)) ∧
    (∀ r k wts sector pin l2only, Happens (.homeRenew id)
      (fun s => served ReqKind.isRenew r k false s ∧ (noted r k s).reqKeyBad r = true ∧ r.kind = .renew wts sector pin l2only)
      (fun s => (noted r k s).reply
        { id := id, req := r, wts := r.c, rts := r.c, data := 0, sectors := 0, same := false, cause := .keyInvalid })) ∧
    -- HOME1_READ: the bytes and wts set out to the readers, and reach them with the reply; a HOME 3 read moves no clock
    (∀ r k, Happens (.home1Read id)
      (fun s => new s ∧ served ReqKind.isRead r k false s ∧ (noted r k s).reqKeyBad r = false ∧ r.kind = .read1)
      (fun s =>
        let x := (noted r k s).stampRead k r.line r.key r.part r.home2 ((noted r k s).reqClock k r)
        x.2.reply { plain r with wts := x.1, rts := x.1, data := x.2.lineData r.line, bad := x.2.poisonOf r.line })) ∧
    (∀ r k, Happens (.home1Read id)
      (fun s => new s ∧ served ReqKind.isRead r k false s ∧ (noted r k s).reqKeyBad r = true ∧ r.kind = .read1)
      (fun s => (noted r k s).reply { plain r with cause := .keyInvalid })) ∧
    (∀ r k, Happens (.home1Read id)
      (fun s => new s ∧ served ReqKind.isRead r k false s ∧ s.keyValid.getLsbD r.key.toNat = true ∧ r.kind = .rawRead)
      (fun s => (taken s).reply { plain r with data := (taken s).lineAs r.line r.key, bad := (taken s).poisonOf r.line })) ∧
    (∀ p, Happens (.home1Read id) (fun s => s.replyFor id ReqKind.isRead = some p ∧ p.req.kind = .read1 ∧ p.cause = .none)
      (fun s => p.req.awaits.foldl (fun u a => u.answerRead a p.data p.bad .none (some p.wts)) (replied s))) ∧
    (∀ p, Happens (.home1Read id) (fun s => s.replyFor id ReqKind.isRead = some p ∧ p.req.kind = .read1 ∧ p.cause ≠ .none)
      (fun s => p.req.awaits.foldl (fun u a => u.answerRead a p.data p.bad p.cause none) (replied s))) ∧
    (∀ p, Happens (.home1Read id) (fun s => s.replyFor id ReqKind.isRead = some p ∧ p.req.kind = .rawRead)
      (fun s => p.req.awaits.foldl (fun u a => (u.meetFar a p.req.line).answerRead a p.data p.bad p.cause none) (replied s))) ∧
    -- HOME_WRITEBACK: merged and stamped; under a cleared key slot the bytes are discarded and logged; a HOME 3 write has no stamp
    (∀ r k data mask wts bad, Happens (.homeWriteback id)
      (fun s => served ReqKind.isWrite r k true s ∧ (noted r k s).keyValid.getLsbD r.key.toNat = true ∧ r.kind = .wback data mask wts bad ∧ r.src ≠ .own)
      (fun s =>
        let x := (noted r k s).homeWrite k r.line r.key r.part r.home2 ((noted r k s).reqClock k r) data mask bad
        x.2.reply { id := id, req := r, wts := x.1.1, rts := x.1.1, data := 0, sectors := 0, same := wts == some x.1.2 })) ∧
    (∀ r k data mask wts bad, Happens (.homeWriteback id)
      (fun s => served ReqKind.isWrite r k true s ∧ (noted r k s).keyValid.getLsbD r.key.toNat = false ∧ r.kind = .wback data mask wts bad ∧ r.src ≠ .own)
      (fun s => ((noted r k s).logError 4 (256 * r.line)).reply
        { id := id, req := r, wts := r.c, rts := r.c, data := 0, sectors := 0, same := false })) ∧
    (∀ r k data mask, Happens (.homeWriteback id)
      (fun s => served ReqKind.isWrite r k true s ∧ s.keyValid.getLsbD r.key.toNat = true ∧ r.kind = .rawWrite data mask)
      (fun s => ((taken s).writeRaw r.line r.key data mask).reply (plain r))) ∧
    -- HOME_ATOMIC: on a line that is there once the home's clock has the requester's
    (∀ r k off op, Happens (.homeAtomic id)
      (fun s => served ReqKind.isAtomic r k true s ∧ (noted r k s).reqKeyBad r = false ∧ r.kind = .atomic off op ∧
        (fetched r k s).poisonOf r.line &&& byteRange off (Ty.bits op.ty / 8) = 0)
      (fun s =>
        let u := fetched r k s
        let c := (noted r k s).reqClock k r
        let old := lineField (u.lineData r.line) off (Ty.bits op.ty / 8)
        let x := u.homeWrite k r.line r.key r.part r.home2 c (lineOf off (atomNew op old)) (byteRange off (Ty.bits op.ty / 8)) 0
        x.2.reply { id := id, req := r, wts := x.1.1, rts := x.1.1, data := lineOf off old, sectors := 0, same := false, old := BitVec.ofNat 64 old })) ∧
    -- the replies, in the order of their way
    (∀ p wts sector pin l2only, Happens (.renewalReply id)
      (fun s => s.replyFor id ReqKind.isRenew = some p ∧ p.req.kind = .renew wts sector pin l2only ∧ p.cause = .none)
      (fun s =>
        let held (u : State) : Option L1Line := (u.l1 p.req.core p.req.line).filter (fun l => l.key == p.req.key)
        -- dirty bytes that the line took along when it left the L1 meanwhile lie over the reply's; an acquire takes the clock of the dirty bytes
        -- that it reads
        let full : Reply := { p with
          data := mergeLine p.data p.req.kept p.req.keptMask, bad := (p.bad &&& ~~~p.req.keptMask) ||| p.req.keptBad }
        let v := (p.req.awaits.foldl (fun u a => u.awaitDirty a p.req.keptLine) (replied s)).installL1 full
        let u := (held v).elim v (fun l => p.req.awaits.foldl (fun u a => u.awaitDirty a l) v)
        let own : ByteMask × Line × ByteMask := (held u).elim (0, 0, 0) (fun l => (l.dirty, l.data, l.poison))
        p.req.awaits.foldl (fun u a => u.answerRead a (mergeLine full.data own.2.1 own.1) ((full.bad &&& ~~~own.1) ||| (own.2.2 &&& own.1)) .none
          (some p.wts)) u)) ∧
    (∀ p data mask wts bad core l, Happens (.writebackReply id)
      (fun s => s.replyFor id ReqKind.isWrite = some p ∧ p.req.kind = .wback data mask wts bad ∧ p.req.src = .core core ∧
        ((replied s).raiseEclk p.req.core p.wts).l1 p.req.core p.req.line = some l ∧ l.key = p.req.key ∧ l.peer = none)
      (fun s =>
        p.req.awaits.foldl (fun v a => v.answerWrite a p.req.core (some p.wts) .none)
          (((replied s).raiseEclk p.req.core p.wts).setL1 p.req.core p.req.line { l with
            dirty := (l.sent.filter (fun e => e.1 == id)).foldl (fun m e => m &&& ~~~e.2) l.dirty
            sent := l.sent.filter (fun e => e.1 != id)
            valid := if p.same then l.valid else 0
            wts := p.wts
            rts := p.wts
            known := true }))) ∧
    (∀ p data mask, Happens (.writebackReply id)
      (fun s => s.replyFor id ReqKind.isWrite = some p ∧ p.req.kind = .rawWrite data mask)
      (fun s => p.req.awaits.foldl (fun v a => v.answerWrite a p.req.core none .none) (replied s))) ∧
    (∀ p off op, Happens (.atomicReply id)
      (fun s => s.replyFor id ReqKind.isAtomic = some p ∧ p.req.kind = .atomic off op ∧ ∀ c, p.req.src ≠ .peer c)
      (fun s => p.req.awaits.foldl (fun v a => v.answerRead a p.data 0 p.cause (some p.wts)) ((replied s).raiseEclk p.req.core p.wts))) ∧
    (∀ p off op chip, Happens (.atomicReply id)
      (fun s => s.replyFor id ReqKind.isAtomic = some p ∧ p.req.kind = .atomic off op ∧ p.req.src = .peer chip)
      (fun s => p.req.awaits.foldl (fun v a => v.answerRead a p.data 0 p.cause none) (replied s)))

/-- R119 to R121, R130, R39: clocks creep, a home sweeps its sets, the floor rises every 4,096 cycles, and ECC errors are counted. -/
def Obligations.ClockEvents : Prop :=
  ∀ (g : Agent) (home core line unit : Nat) (bytes : ByteMask),
    (∀ c, Happens (.clockCreep g)
      (fun s => s.ctx g = some c ∧ c.saved = false ∧ c.placedAt + 1024 * (c.creeps + 1) < s.cycle (agentCore g))
      (fun s => s.updCtx g (fun c => { c with creeps := c.creeps + 1, wclk := c.wclk + 1 }))) ∧
    (∀ limit set, Happens (.l2SweepStep home) (fun s => (s.home home).sweep = some (limit, set)) (fun s =>
      ({ s with l2 := s.l2.map (fun e =>
          if homeOf (256 * e.1) = some home ∧ l2Set home e.1 = set then (e.1, sweepLine limit e.2) else e) } : State).setHome home
        (if set + 1 < l2Sets home then { s.home home with sweep := some (limit, set + 1) }
         else { s.home home with sweep := none, sweeps := (s.home home).sweeps + 1 }))) ∧
    Happens .clockFloorBroadcast (fun s => s.floorN < (s.time - s.resetAt) / (4096 * 50)) (fun s =>
      let f := s.maxMts - 0x20000000
      let u := (List.range 6).foldl (fun u k => u.raiseMts k f) s
      { u with
        floorN := (u.time - u.resetAt) / (4096 * 50)
        floor := f
        warps := u.warps.map (fun e => (e.1, { e.2 with ctx := e.2.ctx.floored f }))
        teams := u.teams.map (fun e => (e.1, { e.2 with ct := e.2.ct.floored f }))
        cores := u.cores.map (fun e => (e.1, { e.2 with eclk := floored f e.2.eclk, l1 := e.2.l1.map (fun l => (l.1, l.2.floored f)) }))
        hclk := floored f u.hclk }) ∧
    Happens (.cacheError (.corrected unit)) (fun _ => True) (fun s =>
      s.updCounts (fun c => { c with corrected := bump c.corrected unit })) ∧
    (∀ l, Happens (.cacheError (.l1Clean core line)) (fun s => s.l1 core line = some l ∧ l.dirty = 0)
      (fun s => (s.dropL1 core line).countCorrected 1)) ∧
    (∀ l, Happens (.cacheError (.l1Clean core line)) (fun s => s.l1 core line = some l ∧ l.dirty ≠ 0)
      (fun s => (s.setL1 core line { l with valid := fullSectors l.dirty }).countCorrected 1)) ∧
    Happens (.cacheError (.elsewhere unit home)) (fun _ => True) (fun s => s.countUncorrected unit home) ∧
    (∀ l, Happens (.cacheError (.l1Dirty core line bytes)) (fun s => s.l1 core line = some l ∧ l.dirty &&& bytes ≠ 0) (fun s =>
      (s.setL1 core line { l with poison := l.poison ||| (l.dirty &&& bytes), sent := l.resent bytes }).countUncorrected 1 (256 * line))) ∧
    -- an error of a line's state: dirty bytes go home poisoned, and the line leaves
    (∀ l, Happens (.cacheError (.l1State core line)) (fun s => s.l1 core line = some l) (fun s =>
      ((s.setL1 core line { l with poison := l.poison ||| l.dirty, sent := [] }).evictL1 core line).countCorrected 1)) ∧
    (∀ l, Happens (.cacheError (.l2Data line bytes)) (fun s => Tab.find s.l2 line = some l)
      (fun s => (s.setPoison line bytes bytes).countUncorrected 4 (256 * line))) ∧
    (∀ l, Happens (.cacheError (.l2Data line bytes)) (fun s => Tab.find s.l2 line = none ∧ Tab.find s.hostL2 line = some l) (fun s =>
      ({ s with hostL2 := Tab.set s.hostL2 line { l with poison := l.poison ||| bytes } } : State).countUncorrected 4 (256 * line))) ∧
    -- an error of its host state: the line is recalled from the host for good, and stands at HI when the host has answered
    (∀ l, Happens (.cacheError (.l2Host line)) (fun s => Tab.find s.l2 line = some l ∧ l.snoop ≠ some false)
      (fun s => (s.snoop line true false).countUncorrected 4 (256 * line))) ∧
    (∀ l, Happens (.cacheError (.l2Host line)) (fun s => Tab.find s.l2 line = some l ∧ l.snoop = some false) (fun s =>
      (({ s with l2 := Tab.set s.l2 line { l with snoop := some true } } : State).emit (.bisnp line true)).countUncorrected 4 (256 * line))) ∧
    (∀ l k, Happens (.cacheError (.l2Stamp line)) (fun s => Tab.find s.l2 line = some l ∧ homeOf (256 * line) = some k) (fun s =>
      let t := (s.home k).mts + 1
      (({ s with l2 := Tab.set s.l2 line { l with wts := t, rts := t, cls := 0 } } : State).raiseMts k t).countCorrected 4))

/-- R159, R161, R165, R166: a walk that finds a leaf installs it and answers its waiters, one that finds none makes them wait or fail;
an invalidation removes its entries at once and is complete in a later cycle, after the walks and accesses it found in flight. That entries
leave at the time of posting and a stale walk installs nothing, and that a walk whose tables a host owns waits for the recall, are the model's
choices (log entries 10 and 21). -/
def Obligations.TranslationEvents : Prop :=
  ∀ (id : Nat) (asid : W16),
    let post (e : Instr) (kind : Nat) (a : W16) (va : State → W64) : Prop := Happens e (fun _ => True) (fun s =>
      let v : Inval := { kind := kind, asid := a, va := va s, walks := s.walks.map (·.id), uses := s.usesNow, posted := s.time }
      { s with
        invals := s.invals ++ [v]
        cores := s.cores.map (fun e => (e.1, { e.2 with tlb := e.2.tlb.filter (fun x => !v.covers x) }))
        l2tlb := s.l2tlb.filter (fun x => !v.covers x.2)
        walkc := s.walkc.filter (fun x => !v.coversWalk x.2)
        walks := s.walks.map (fun w => { w with stale := true })
        tlbIssued := s.tlbIssued + 1 })
    let ended (s : State) : State := { s with walks := s.walks.filter (fun o => o.id != id) }
    let runs (k : Walk) (s : State) : Prop :=
      s.walks.find? (fun k => k.id == id) = some k ∧ (s.running k.die).any (fun o => o.id == id) = true ∧ s.parkHeld k.asid = false
    (∀ k f, Happens (.pageWalkComplete id)
      (fun s => runs k s ∧ k.stale = false ∧ s.walk k.die k.asid k.va = .leaf f ∧ (∃ x ∈ k.waiters, s.letsIn f.leaf x = true) ∧
        ∀ x ∈ k.waiters, s.letsIn f.leaf x = true → s.adReady f x.access (s.inHandler x.who) = true)
      (fun s => ((ended s).setAds f (k.waiters.filter (s.letsIn f.leaf))).2.walkFound k
        ((ended s).setAds f (k.waiters.filter (s.letsIn f.leaf))).1)) ∧
    (∀ k f, Happens (.pageWalkComplete id)
      (fun s => runs k s ∧ k.stale = false ∧ s.walk k.die k.asid k.va = .leaf f ∧ ∀ x ∈ k.waiters, s.letsIn f.leaf x = false)
      (fun s => k.waiters.foldl (fun u x => u.walkFails k x .permission) (ended s))) ∧
    (∀ k, Happens (.pageWalkComplete id)
      (fun s => runs k s ∧ k.stale = false ∧ s.walk k.die k.asid k.va = .fault none)
      (fun s => k.waiters.foldl (fun u x => u.walkFails k x .translation) (ended s))) ∧
    (∀ k pa, Happens (.pageWalkComplete id)
      (fun s => runs k s ∧ k.stale = false ∧ s.walk k.die k.asid k.va = .fault (some pa))
      (fun s => k.waiters.foldl (fun u x => u.walkFails k x .translation) ((ended s).logStray pa))) ∧
    (∀ k, Happens (.pageWalkComplete id)
      (fun s => s.walks.find? (fun k => k.id == id) = some k ∧ (s.running k.die).any (fun o => o.id == id) = true ∧ s.parkHeld k.asid = true)
      (fun s => s.recallPark k.asid)) ∧
    (∀ k f, Happens (.pageWalkComplete id)
      (fun s => runs k s ∧ k.stale = true ∧ s.walk k.die k.asid k.va = .leaf f)
      (fun s => k.waiters.foldl (fun u x => u.walkHelps id x) (ended s))) ∧
    (∀ k pa, Happens (.pageWalkComplete id)
      (fun s => runs k s ∧ s.walk k.die k.asid k.va = .wait pa) (fun s => s.snoop (pa / 256) false false)) ∧
    (∀ k, Happens (.pageWalkComplete id)
      (fun s => s.walks.find? (fun k => k.id == id) = some k ∧ (s.running k.die).any (fun o => o.id == id) = false) (fun s => s)) ∧
    post (.tlbinvLeaf asid) 0 asid (fun s => s.tlbinv0) ∧ post (.tlbinvAsid asid) 1 asid (fun s => s.tlbinv0) ∧
    post .tlbinvNonglobal 2 0 (fun s => s.tlbinv0) ∧ post .tlbinvAll 3 0 (fun s => s.tlbinv0) ∧
    (∀ v rest, Happens .tlbInvalidationComplete
      (fun s => s.invals = v :: rest ∧ v.posted / 50 < s.time / 50 ∧ (∀ w ∈ v.walks, ∀ k ∈ s.walks, k.id ≠ w) ∧
        ∀ u ∈ v.uses, u ∉ s.usesNow)
      (fun s => { s with invals := rest, tlbDone := s.tlbDone + 1 }))

/-- R177 to R179, R181, R188, R189, R191, R192, R194: the events of the matrix engines and the copy engines. The record of
ENGINE_UNCORRECTABLE (SOURCE 1, STATUS 1, OBJECT 0), that a port operation takes effect at the end of its port cycles, and that MXLD and MXST
move their bytes after those cycles (log entry 25), that the first of two errors is the one raised and the TRAPADDR of a poisoned MXST is 0 (log
entry 46), and how a multicast without ACKBAR and the pieces of a command end (log entry 26), are the model's choices. -/
def Obligations.EngineEvents : Prop :=
  ∀ (core w t id tile rank : Nat),
    let ptr (s : State) : Nat := (s.core core).mxPtr
    let parts (l : List (Nat × MxOp)) : List (Nat × Nat × Nat) := l.flatMap (fun h => h.2.left.map (fun q => (h.1, h.2.id, q)))
    let join (s : State) (lw : Nat) (lead : MxOp) : List (Nat × MxOp) := (s.mxqHeads core (lw % 128)).filter (fun h =>
      h.2.id != lead.id && h.2.matches lead && decide (h.2.arrival ≤ lead.arrival + 16))
    let idle (s : State) : Prop := (s.core core).mxFree ≤ s.cycle core ∧ s.gateOpen core = true
    let head (s : State) (lw : Nat) (lead : MxOp) : Prop :=
      (s.mxqHeads core (ptr s)).find? (fun h => h.1 == lw && h.2.id == lead.id) = some (lw, lead)
    -- the lead was chosen in an earlier cycle, has quarters left over, or is the first after the pointer
    let leads (s : State) (lw : Nat) (lead : MxOp) (until_ at_ : Nat) : Prop :=
      ((s.core core).lead = some (lw, lead.id, until_) ∧ at_ = ptr s ∧ head s lw lead) ∨
      ((s.core core).lead = none ∧ (s.core core).leftover = some (lw, lead.id) ∧ until_ = s.cycle core ∧ at_ = ptr s ∧ head s lw lead) ∨
      ((s.core core).lead = none ∧ (s.core core).leftover = none ∧ until_ = lead.arrival + 16 ∧ at_ = lw % 128 ∧
        ∃ rest, s.mxqHeads core (ptr s) = (lw, lead) :: rest)
    -- what joined in earlier cycles keeps its place
    let want (s : State) (lw : Nat) (lead : MxOp) : List (Nat × Nat × Nat) :=
      let all := parts ((lw, lead) :: join s lw lead)
      let old := if (s.core core).lead.any (fun l => l.2.1 == lead.id) then (s.core core).joined.filter (fun j => all.contains j) else []
      old ++ all.filter (fun j => !old.contains j)
    -- the pieces that wait for the way to their destinations have tried again, and a free port has taken up an operation
    let took (s : State) : State :=
      ((s.portNow core).elim s (fun h => s.sendPieces (.mx h.1 h.2.2.id) h.2.2.pieces)).portTake core
    let served (y : Warp) (o : MxOp) (s : State) : Prop :=
      (took s).portNow core = some (w, y, o) ∧ ((took s).core core).portFree ≤ (took s).cycle core
    let port (y : Warp) (o : MxOp) (pre : State → Prop) (f : State → State) : Prop :=
      Happens (.accPortOperation core)
        (fun s => (took s).portNow core = some (w, y, o) ∧ (o.kind = 4 ∨ o.kind = 5) ∧ pre (took s))
        (fun s => (f (took s)).portTake core)
    let tried (s : State) : State := (s.cmds.find? (fun c => c.id == id)).elim s (fun c => s.sendPieces (.cmd id) c.inflight)
    let whole (o : MxOp) : Nat := o.n * 1024 * o.elem
    let landed (o : MxOp) : Option Piece := o.pieces.find? (fun p => p.sent && !p.bad && p.writes == 0)
    -- a pass starts when four parts are there or the wait is over; till then its lead waits
    (∀ lw lead until_ at_, Happens (.matrixPassStart core)
      (fun s =>
        let u := s.touchHeads core
        idle u ∧ leads u lw lead until_ at_ ∧ (want u lw lead).length < 4 ∧ u.cycle core < until_)
      (fun s => (s.touchHeads core).updCore core (fun c => { c with
        lead := some (lw, lead.id, until_), joined := want (s.touchHeads core) lw lead, mxPtr := at_ }))) ∧
    (∀ lw lead until_ at_, Happens (.matrixPassStart core)
      (fun s =>
        let u := s.touchHeads core
        idle u ∧ leads u lw lead until_ at_ ∧ (4 ≤ (want u lw lead).length ∨ until_ ≤ u.cycle core))
      (fun s =>
        let u := s.touchHeads core
        let some_ := (want u lw lead).take 4
        let ends := u.cycle core + (if lead.fmt = 4 ∨ lead.fmt = 5 then 4 else 2) - 1
        u.beginPass core
          { parts := some_, ends := ends, writes := ends + 10, tiles := u.readTiles (dedup (some_.map (·.1))) lead.boff lead.bBytes }
          at_
          (((want u lw lead).drop 4).head?.bind (fun r => if some_.any (fun p => p.2.1 == r.2.1) then some (r.1, r.2.1) else none)))) ∧
    (∀ p rest, Happens (.matrixPassWrite core) (fun s => (s.core core).passes = p :: rest ∧ p.writes ≤ s.cycle core)
      (fun s => p.parts.foldl (fun u e => u.writePart_ p e) (s.updCore core (fun c => { c with passes := rest })))) ∧
    -- the port takes up an operation, performs it when its cycles are over, and takes up the next
    (∀ y o, Happens (.accPortOperation core) (fun s => served y o s ∧ o.kind = 1)
      (fun s => (((took s).updWarp w (fun x => x.zeroTiles o)).mxDone w o).portTake core)) ∧
    (∀ y o, Happens (.accPortOperation core) (fun s => served y o s ∧ o.kind = 3)
      (fun s => (((took s).updWarp w (fun x => x.writeChunk o)).mxDone w o).portTake core)) ∧
    (∀ y o, Happens (.accPortOperation core) (fun s => served y o s ∧ o.kind = 6)
      (fun s => (((took s).updWarp w (fun x => { x with mxcfg := o.mod.setWidth 4 })).mxDone w o).portTake core)) ∧
    (∀ y o, Happens (.accPortOperation core) (fun s => served y o s ∧ o.kind = 2) (fun s =>
      let lanes := lanesOf o.lanes
      let bad := lanes.filter (fun j => y.poisoned (o.acc + j / 8))
      let u := (took s).updFlight (.warp w) o.flight (fun f => { f with
        missing := 0, writes := (lanes.filter (fun j => !bad.contains j)).flatMap (y.chunk o) })
      ((bad.foldl (fun u j => u.badIn (.warp w) o.flight j .dataUncorrectable) u).mxDone w o).portTake core)) ∧
    (∀ y o, Happens (.accPortOperation core) (fun s => served y o s ∧ o.kind = 7) (fun s =>
      (((took s).updFlight (.warp w) o.flight (fun f => { f with
        missing := 0, writes := (lanesOf o.lanes).flatMap (fun j => [{ lane := j, dest := .v o.d, val := o.cfg.setWidth 128 }]) })).mxDone w o).portTake
        core)) ∧
    -- MXLD and MXST: the port's cycles, then piece by piece, and done with the last of their bytes
    (∀ y o, port y o (fun u => o.failed = none ∧ landed o = none ∧ o.stopped = none ∧ o.started = false ∧ (u.core core).portFree ≤ u.cycle core ∧
        (o.kind = 5 → o.tiles.any y.poisoned = false))
      (fun u => u.updMx w o.id (fun e => { e with started := true, buf := if o.kind = 5 then y.storeTiles o else e.buf }))) ∧
    (∀ y o, port y o (fun u => o.failed = none ∧ landed o = none ∧ o.stopped = none ∧ o.started = false ∧ (u.core core).portFree ≤ u.cycle core ∧
        o.kind = 5 ∧ o.tiles.any y.poisoned = true)
      (fun u => u.mxError w o .dataUncorrectable 0)) ∧
    (∀ y o, port y o (fun _ => o.failed = none ∧ landed o = none ∧ o.stopped = none ∧ o.started = true) (fun u => u.mxPiece w y o (whole o))) ∧
    (∀ y o p z q, port y o (fun u => landed o = some p ∧ (u.mxLand w o p).warp w = some z ∧ z.mxq.find? (fun e => e.id == o.id) = some q ∧
        (q.failed.isSome = true ∨ q.done < whole q))
      (fun u => u.mxLand w o p)) ∧
    (∀ y o p z q, port y o (fun u => landed o = some p ∧ (u.mxLand w o p).warp w = some z ∧ z.mxq.find? (fun e => e.id == o.id) = some q ∧
        q.failed = none ∧ whole q ≤ q.done)
      (fun u =>
        let v := u.mxLand w o p
        ((if q.kind = 4 then v.updWarp w (fun x => x.loadTiles q) else v).unlock q.id false).mxDone w q)) ∧
    (∀ y team, Happens (.engineUncorrectable w tile)
      (fun s => s.warp w = some y ∧ s.team y.ctx.team = some team ∧ tile < s.accOf team.grid)
      (fun s => (((s.updWarp w (fun x => x.setBadTile tile true)).updCtx (.warp w) (fun c => { c with
          errMx := some (c.errMx.getD (.engineUncorrectable, 0)) })).pushEvent y.ctx.team
        (evRec 1 1 .engineUncorrectable 0 team.csn 0 team.cpc 0 y.ctx.wclk y.ctx.edge)).countUncorrected 3 (128 * w + tile))) ∧
    (∀ c p, Happens (.transferPieceLand id)
      (fun s => (tried s).cmds.find? (fun c => c.id == id) = some c ∧ c.complete = false ∧
        c.inflight.find? (fun p => p.sent && !p.bad && p.writes == 0) = some p)
      (fun s => (tried s).cmdLand c p)) ∧
    (∀ c u, Happens (.transferPieceLand id)
      (fun s => (tried s).cmds.find? (fun c => c.id == id) = some c ∧ c.complete = false ∧
        c.inflight.find? (fun p => p.sent && !p.bad && p.writes == 0) = none ∧ c.failed = none ∧ c.suspended = none ∧ c.next < c.total ∧
        (c.fmtNew && (tried s).tableDue c.team) = false ∧
        (tried s).cmdStep c = .go u)
      (fun _ => u)) ∧
    (∀ c k va serve access, Happens (.transferPieceFault id)
      (fun s => s.cmds.find? (fun c => c.id == id) = some c ∧ c.complete = false ∧ c.suspended = none ∧ c.failed = none ∧
        c.next < c.total ∧ c.inflight = [] ∧ (c.fmtNew && s.tableDue c.team) = false ∧ s.cmdStep c = .fault k va serve access)
      (fun s => s.cmdFault c k va serve access)) ∧
    (∀ c, Happens (.multicastAck id rank)
      (fun s => s.cmds.find? (fun c => c.id == id) = some c ∧ rank ∈ c.acks ∧
        s.objsHeld c [] = none ∧ s.ackLoc c = none ∧ (c.acks.filter (fun r => r != rank)) = [])
      (fun s => { s.unlock id false with cmds := s.cmds.filter (fun x => x.id != id) })) ∧
    (∀ c o k b, Happens (.multicastAck id rank)
      (fun s => s.cmds.find? (fun c => c.id == id) = some c ∧ rank ∈ c.acks ∧ s.ackLoc c = some o ∧ s.objsHeld c [o] = none ∧ s.rankTeam c.team rank = some k ∧
        (s.objGet o).arrive 1 0 (lastWords (engineCode false (k / 8)) c.csn c.edge) = some b ∧ (c.acks.filter (fun r => r != rank)) ≠ [])
      (fun s =>
        let last := lastWords (engineCode false (k / 8)) c.csn c.edge
        (s.updateObj c 0 o (engineCode false (k / 8)) true (fun b => (b.arrive 1 0 last).getD (false, b))).updCmd id
          (fun x => { x with acks := c.acks.filter (fun r => r != rank) }))) ∧
    (∀ team who d rest c cpc csn edge u, Happens (.scheduleDescriptorIssue t)
      (fun s => s.team t = some team ∧ s.engWho t = some who ∧ team.preempt = .none ∧ team.heldCmd = [] ∧ team.sched = d :: rest ∧
        d.released = some (c, cpc, csn, edge) ∧ s.castHeld t d.desc = false ∧
        s.startCmd who d.desc { c := c, cpc := cpc, csn := csn, edge := edge, warp := none } (if d.locked then some d.id else none) = .ok u)
      (fun _ => u.updTeam t (fun y => { y with sched := rest })))

/-- R128, R144, R145, R164, R24 to R26, R127: requests of peers, acknowledgements, datum windows, messages and lanes of Belcy, and
completions of the host. A message that is sent on counts its bytes and a header of 32 against its port, and an answer waits while its way is
shut (the model's choices, log entries 30 and 36). -/
def Obligations.PeerEvents : Prop :=
  ∀ (chip port dest src id : Nat) (pasid : W16) (va edge : W64) (op : PeerOp) (data : Line),
    let within : Prop := peerBytes op ≠ 0 ∧ va.toNat % 64 + peerBytes op ≤ 64
    let wait (s : State) : PeerWait := { id := s.nextId, chip := chip, pasid := pasid, va := va, op := op, edge := 0 }
    let done (s : State) : State := { s with hostTxns := s.hostTxns.filter (fun o => o.id != id) }
    let flit : Flit := .peer port dest src edge op pasid va
    Happens (.peerRequest chip pasid va op) (fun s => s.chipcfg.getLsbD 16 = true ∧ within)
      (fun s => ({ s with nextId := s.nextId + 1 } : State).servePeer (wait s)) ∧
    (∀ r, Happens (.remoteWriteAck id) (fun s => s.flitShut (.ack id) = false ∧ s.remotes.find? (fun r => r.id == id) = some r) (fun s =>
      ({ s with remotes := s.remotes.filter (fun o => o.id != id) } : State).answerWrite r.owner r.core none .none)) ∧
    Happens .datumWindowStart (fun s => s.datum / 1000 ≠ s.window) (fun s => s.rollWindow.expirePeers) ∧
    Happens (.belcyMessageArrive port dest src edge op pasid va)
      (fun s => s.chipcfg.getLsbD 16 = true ∧ dest % 1024 = s.chipcfg.toNat % 1024 ∧ within ∧ ∀ i d c, op ≠ .reply i d c)
      (fun s => ({ s with nextId := s.nextId + 1 } : State).servePeer { wait s with chip := src, edge := edge }) ∧
    (∀ out, Happens (.belcyMessageArrive port dest src edge op pasid va)
      (fun s => s.chipcfg.getLsbD 16 = true ∧ s.flitShut flit = false ∧ dest % 1024 ≠ s.chipcfg.toNat % 1024 ∧
        s.pickPort (port / 64 % 2) src (dest % 1024) va.toNat = some out)
      (fun s => (s.rollWindow.admitBytes out (peerBytes op + 32) false).emit (.peer 0 out src (dest % 1024) pasid va op edge))) ∧
    -- a request that no port leads on completes with PEER_PATH at its issuer; an answer is lost
    Happens (.belcyMessageArrive port dest src edge op pasid va)
      (fun s => s.chipcfg.getLsbD 16 = true ∧ s.flitShut flit = false ∧ dest % 1024 ≠ s.chipcfg.toNat % 1024 ∧
        s.pickPort (port / 64 % 2) src (dest % 1024) va.toNat = none ∧ ∀ i d c, op ≠ .reply i d c)
      (fun s => ({ s with nextId := s.nextId + 1 } : State).peerAnswer { wait s with chip := src, edge := edge } 0 .peerPath) ∧
    Happens (.belcyMessageArrive port dest src edge op pasid va)
      (fun s => s.chipcfg.getLsbD 16 = true ∧ s.flitShut flit = false ∧ dest % 1024 ≠ s.chipcfg.toNat % 1024 ∧
        s.pickPort (port / 64 % 2) src (dest % 1024) va.toNat = none ∧ ∃ i d c, op = .reply i d c)
      (fun s => s) ∧
    Happens (.belcyMessageArrive port dest src edge op pasid va) (fun s => s.chipcfg.getLsbD 16 = false ∧ s.flitShut flit = false) (fun s => s) ∧
    -- an answer whose way is shut waits
    Happens (.belcyMessageArrive port dest src edge op pasid va) (fun s => s.flitShut flit = true)
      (fun s => { s with heldFlits := s.heldFlits ++ [(s.time, flit)] }) ∧
    Happens (.remoteWriteAck id) (fun s => s.flitShut (.ack id) = true) (fun s => { s with heldFlits := s.heldFlits ++ [(s.time, .ack id)] }) ∧
    Happens (.belcyLaneFail port) (fun s => port < 128 ∧ (Tab.get {} s.rollWindow.belcy port).lanesDown < 2) (fun s =>
      let u := s.rollWindow
      let b := Tab.get {} u.belcy port
      (({ u with belcy := Tab.put {} u.belcy port { b with lanesDown := b.lanesDown + 1, lateNow := true } } : State).updCounts
        (fun c => { c with laneEvents := bump c.laneEvents port })).emit (.laneEvent port)) ∧
    (∀ x, Happens (.hostWindowCompletion id data true)
      (fun s => s.hostTxns.find? (fun t => t.id == id) = some x ∧ s.flitShut (.hostDone id data true) = false ∧ x.write = true ∧ x.atom = none ∧ x.fill = false)
      (fun s => (done s).answerWrite x.await x.core none .none)) ∧
    (∀ x, Happens (.hostWindowCompletion id data true)
      (fun s => s.hostTxns.find? (fun t => t.id == id) = some x ∧ s.hostBlocks x = none ∧ s.flitShut (.hostDone id data true) = false ∧
        x.write = false ∧ x.fill = true ∧ ∀ o ∈ (done s).hostTxns, o.line ≠ x.line)
      (fun s =>
        let u := ((done s).hostRoom x.line x.part).2
        let l : HostLine := { data := mergeLine data x.laterData x.later, filled := u.time, way := ((done s).hostRoom x.line x.part).1 }
        (({ u with hostL2 := Tab.set u.hostL2 x.line l } : State).meetFar x.await x.line).answerRead x.await data 0 .none none)) ∧
    Happens (.hostWindowCompletion id data true)
      (fun s => (s.hostTxns.find? (fun t => t.id == id)).isSome = true ∧ (∀ x, s.hostTxns.find? (fun t => t.id == id) = some x → s.hostBlocks x = none) ∧
        s.flitShut (.hostDone id data true) = true)
      (fun s => { s with heldFlits := s.heldFlits ++ [(s.time, .hostDone id data true)] })

/-- R49 to R73, R103, R196, R217, R315: records are consumed and checked, grids go through their states, teams are placed, start and
exit, and a grid retires and completes. The device's read of a record raises its home's clock as a renewal with that clock (the model's choice,
log entry 11); placement distance in datum time, and a retirement's release on the cores that held its teams, are the model's choices (log
entry 27). -/
def Obligations.GridEvents : Prop :=
  ∀ (q t e : Nat),
    let ready (s : State) : Prop := qEn (s.queue q).word0 = true ∧ (s.queue q).head ≠ (s.queue q).tail ∧ (s.queue q).overrun = false ∧
      (s.queue q).recfault = false
    let rec_ (s : State) : Nat := qBase (s.queue q).word0 + 128 * ((s.queue q).head.toNat % 2 ^ (qLog (s.queue q).word0 + 4))
    -- the record enters the launch front; its read has left a home as u
    let taken (s : State) (f v : Nat) (u : State) : State :=
      let w := u.setQueue q { s.queue q with head := (s.queue q).head + 1 }
      { w with grids := Tab.set w.grids f (s.consumed q (BitVec.ofNat 1024 v)), launchSeq := w.launchSeq + 1, orderN := w.orderN + 1 }
    let own (g : Grid) : Prop := g.parent.isSome = true ∨ g.rec_.part = g.part ∧ g.rec_.depth = 0
    let front (s : State) : State := { s.noteRoom with lastPlace := s.placeTime }
    let started (s : State) (x : Team) (clk : W32) : State := (s.decisionDone x).startTeamClocks t clk
    let gone (s : State) (x : Team) : State :=
      let u := (s.freePlaces t x).decisionDone x
      { u with deferred := u.deferred.filter (fun d => !(d.grid == x.grid && d.num == x.num)) }
    let reads (s : State) (g : Grid) (h : Nat) (u : State) : Prop := s.hwTake 0 g.asid g.part g.rec_.code 8 32 = (.val h, u) ∧ s.featWait g.asid = none
    (∀ f v k, Happens (.recordConsume q false)
      (fun s => s.freeEntry = some f ∧ ready s ∧ s.hwPhys (rec_ s) 128 none = .val v ∧ physKind (rec_ s) = .home k)
      (fun s => taken s f v (s.ringRead k (rec_ s / 256)))) ∧
    (∀ f v, Happens (.recordConsume q false)
      (fun s => s.freeEntry = some f ∧ ready s ∧ s.hwPhys (rec_ s) 128 none = .val v ∧ physKind (rec_ s) ≠ .none ∧ ∀ k, physKind (rec_ s) ≠ .home k)
      (fun s => taken s f v s)) ∧
    (∀ f v, Happens (.recordConsume q true) (fun s => s.freeEntry = some f ∧ ready s ∧ s.hwPhys (rec_ s) 128 none = .val v)
      (fun s => s.setQueue q { s.queue q with recfault := true })) ∧
    (∀ g h u v safe, Happens (.launchCheck e)
      (fun s => s.grid e = some g ∧ g.state = .consumed ∧ g.recAddr = none ∧ g.rec_.legal = true ∧ own g ∧
        g.rec_.pred.all (tokenLegal g.queue g.index) = true ∧ reads s g h u ∧ verdict (u.featTouch g.asid) g h = none ∧
        (u.featTouch g.asid).safeTable g (g.rec_.code + BitVec.ofNat 64 (hdrField h 0x30 8)) (hdrField h 0x29 1) = .ok (safe, v))
      (fun _ => v.updGrid e (fun g => { g with
        state := .waiting
        hdr := { lentry := hdrField h 0x10 8, centry := hdrField h 0x18 8, safe := safe, fmtOff := hdrField h 0x50 8
                 trapOff := hdrField h 0x58 8 } }))) ∧
    (∀ g h u c, Happens (.launchCheck e)
      (fun s => s.grid e = some g ∧ g.state = .consumed ∧ g.recAddr = none ∧ g.rec_.legal = true ∧ own g ∧
        g.rec_.pred.all (tokenLegal g.queue g.index) = true ∧ reads s g h u ∧ verdict (u.featTouch g.asid) g h = some c)
      (fun _ => (u.featTouch g.asid).rejectGrid e c)) ∧
    (∀ g, Happens (.gridDependencesMet e)
      (fun s => s.grid e = some g ∧ g.state = .waiting ∧ g.rec_.pred.all (fun t => (s.tokenClock t).isSome) = true)
      (fun s => s.updGrid e (fun g => { g with state := if g.rec_.slots = 0 then .placing else .admitting }))) ∧
    (∀ g, Happens (.slotAdmission e)
      (fun s => s.grid e = some g ∧ g.state = .admitting ∧ ∀ o ∈ s.grids, o.1 = e ∨ o.2.rec_.slots &&& g.rec_.slots = 0)
      (fun s => s.updGrid e (fun g => { g with state := .placing }))) ∧
    (∀ k p credit f g n core slots, Happens .placementDecision
      (fun s => s.lastPlace + 8 ≤ s.datum ∧
        (List.range 8).find? (fun k => (List.range 8).any (fun p => ((front s).placeable p k).isSome)) = some k ∧
        (front s).turnOf k = (p, credit) ∧ (front s).placeable p k = some (f, g, n, core, slots) ∧
        g.saved.find? (fun x => x.team.num == n) = none)
      (fun s =>
        let u : State := { front s with
          curPart := Tab.put 0 (front s).curPart k p
          credit := Tab.put 0 (front s).credit k (credit - 1)
          pressure := (front s).pressure.filter (fun x => x != (g.order, n)) }
        (u.placeNew f g n core slots).nowRunning f)) ∧
    (∀ x g l u, Happens (.teamStart t)
      (fun s => s.team t = some x ∧ s.grid x.grid = some g ∧ x.started = false ∧ g.saved = [] ∧ s.decisionNext x = true ∧
        s.featWait g.asid = none ∧ (s.holdLeaves t g.asid).readSched (dieOf x.core) g = (.ok l, u))
      (fun s => ((started u x (s.startClock g)).updTeam t (fun x => { x with sched := l })).releaseStage t
        { c := s.startClock g, cpc := x.cpc, csn := 0, edge := 0, warp := none })) ∧
    (∀ x g c u, Happens (.teamStart t)
      (fun s => s.team t = some x ∧ s.grid x.grid = some g ∧ x.started = false ∧ g.saved = [] ∧ s.decisionNext x = true ∧
        s.featWait g.asid = none ∧ (s.holdLeaves t g.asid).readSched (dieOf x.core) g = (.bad c, u))
      (fun s => (started u x (s.startClock g)).pushEvent t (evRec 0 1 c 0 0 0 x.cpc 0 (s.startClock g) 0))) ∧
    (∀ x w, Happens (.formatTableLoad t)
      (fun s => s.team t = some x ∧ s.who (.ct t) = some w ∧ x.fmtLoad = true ∧ x.started = true ∧ x.fmtBy = none ∧
        x.fmtFlight = none ∧ x.fmtBase &&& ~~~(0xFF : W64) = 0)
      (fun s => ({ s with cmds := s.cmds.map (fun c => if c.team = t && c.fmtNew then { c with fmt := [], fmtNew := false } else c) } :
        State).updTeam t (fun x => { x with fmt := [], fmtLoad := false, fmtBy := none, fmtFlight := none }))) ∧
    -- the bytes of the table, once its reader has all of them
    (∀ x w g f, Happens (.formatTableLoad t)
      (fun s => s.team t = some x ∧ x.fmtLoad = true ∧ x.started = true ∧ (s.fmtReader t x).1 = g ∧ s.who g = some w ∧
        x.fmtFlight = some (g, f.id, x.fmtBase &&& ~~~(0xFF : W64)) ∧ s.flight g f.id = some f ∧ f.missing = 0 ∧ f.bad = [])
      (fun s =>
        let words : Tab FmtWord := (List.range 32).foldl (fun m i => Tab.put 0 m i
          (BitVec.ofNat 64 ((List.range 8).foldl (fun v k => v + (Tab.get 0 f.bytes (8 * i + k)).toNat * 2 ^ (8 * k)) 0))) []
        (s.fmtDrop t g f.id).fmtDone t words)) ∧
    (∀ x, Happens (.teamExit t)
      (fun s => s.team t = some x ∧ x.over = true ∧ s.enginesIdle t x = true ∧ x.regions = [] ∧ s.wbInFlight x.core = false)
      (fun s => (gone s x).updGrid x.grid (fun g =>
        let left := g.resident.filter (fun e => e.1 != x.num)
        let all := left.isEmpty && g.saved.isEmpty && (g.ending || decide (g.rec_.teams ≤ g.placed))
        { g with exitedN := g.exitedN + 1, resident := left, state := if all then .draining else g.state }))) ∧
    (∀ x, Happens (.teamExit t)
      (fun s => s.team t = some x ∧ x.over = true ∧ s.enginesIdle t x = true ∧ x.regions ≠ [] ∧ s.flushWait t = none)
      (fun s => (s.flushRegions t).updTeam t (fun x => { x with regions := [] }))) ∧
    (∀ x g, Happens (.gridEndRequest t)
      (fun s => s.team t = some x ∧ s.grid x.grid = some g ∧ g.ending = true ∧ x.ended = false) (fun s => s.endTeam t)) ∧
    (∀ g, Happens (.gridRetire e)
      (fun s => s.grid e = some g ∧ g.drained = true ∧ s.hasChildren e g = false ∧ g.released = false)
      (fun s => (g.cores.foldl (fun u c => u.releaseStart c) s).updGrid e (fun g => { g with released := true, state := .draining }))) ∧
    (∀ g, Happens (.gridRetire e)
      (fun s => s.grid e = some g ∧ g.drained = true ∧ s.hasChildren e g = false ∧ g.released = true ∧ g.parent = none ∧
        ∀ c ∈ g.cores, s.wbInFlight c = false)
      (fun s =>
        let u := s.updGrid e (fun h => { h with
          state := .retired
          tr := g.cores.foldl (fun m c => serialMax m (s.core c).eclk) (if g.trAny then g.tr else s.floor)
          trAny := true
          end_ := s.time
          saved := [] })
        { u with deferred := u.deferred.filter (fun d => d.grid != e) })) ∧
    (∀ g u, Happens (.completionRecordWrite e)
      (fun s => s.grid e = some g ∧ g.state = .retired ∧ s.childOf e g = false ∧ g.compl = .start ∧ g.rec_.compl.toNat % 32 = 0 ∧
        (∀ c ∈ g.cores, s.hostClear c = true ∧ s.remoteClear c g.end_ = true) ∧
        s.completionWrite e g true (g.rec_.compl + 8) 24 (g.completion / 2 ^ 64) .first = .yes u)
      (fun _ => u.completionLast e g)) ∧
    (∀ g, Happens (.completionRecordWrite e)
      (fun s => s.grid e = some g ∧ g.state = .retired ∧ s.childOf e g = false ∧ g.compl = .done ∧
        ∀ c ∈ g.cores, s.hostClear c = true ∧ s.remoteClear c g.end_ = true)
      (fun s => s.completionEnd e g true))

/-- R77 to R84: rank pressure, save areas, drains, safe points, the deadline, the save and the restore. That rank pressure asks for a smallest
set in the order of rank and age (log entry 27), that the save's release is the L1's write-back (log entry 12), and that any halted agent of
a team stops its deadline (log entry 28) are the model's choices. -/
def Obligations.PreemptionEvents : Prop :=
  ∀ (t e p : Nat) (base : Option W64) (minRank : BitVec 3) (hold : Bool),
    (∀ g n l ls, Happens (.rankPressure e)
      (fun s => s.grid e = some g ∧ s.nextTeam g = some n ∧ (∃ t, g.roomless = some t ∧ t + 10 * usec ≤ s.time) ∧
        s.teams.any (fun o => o.2.reqRank == some e && o.2.preempt != .none) = false ∧ g.rec_.cluster = false ∧
        shortest ((s.coresOf g.part).filterMap (fun c => s.fewestOn g.part c g)) = some (l :: ls))
      (fun s =>
        let u := (dedup ((l :: ls).flatMap (fun t => s.group t))).foldl
          (fun u t => (u.team t).elim u (fun x =>
            if x.asked then u else (u.askPreempt t).updTeam t (fun x => { x with reqRank := some e }))) s
        { u with pressure := if u.pressure.contains (g.order, n) then u.pressure else u.pressure ++ [(g.order, n)] })) ∧
    Happens (.saveAreaSupplied t base) (fun _ => True) (fun s => (base.elim (s.goOver t) (fun _ => s)).updTeam t (fun x => match x.preempt, base with
      | .area dead, some b => { x with preempt := .drain b dead }
      | .area _, none => if x.reqRank.isSome then { x with preempt := .retry (s.time + 100 * usec) } else { x with preempt := .none }
      | _, _ => x)) ∧
    (∀ x at_, Happens (.saveAreaRetry t) (fun s => s.team t = some x ∧ x.preempt = .retry at_ ∧ at_ ≤ s.time)
      (fun s => (s.updTeam t (fun x => { x with preempt := .none })).askPreempt t)) ∧
    (∀ x, Happens (.multicastDrainDone t)
      (fun s => s.team t = some x ∧ ∀ c ∈ s.cmds, c.core / 4 ≠ t / 32 ∨ Desc.mcast c.desc = 0 ∨ x.reqMark ≤ c.id)
      (fun s => s.updTeam t (fun x => match x.preempt with | .drain b dead => { x with preempt := .points b dead } | _ => x))) ∧
    (∀ w y pc i k u, Happens (.safePointTake (.warp e))
      (fun s =>
        let v := s.land (.warp e)
        v.who (.warp e) = some w ∧ v.warp e = some y ∧ y.live ≠ 0 ∧ y.parked = 0 ∧ (∀ j ∈ lanesOf y.live, v.pcOf (.warp e) j = pc) ∧
        v.pcOf (.warp e) (lowest y.live) = pc ∧ y.ctx.forced = false ∧ y.ctx.saved = false ∧ v.instrAt w pc = some i ∧
        v.safeHere (.warp e) i = some k ∧ v.takeSafe (.warp e) k = some u)
      (fun _ => u)) ∧
    (∀ x b dead, Happens (.preemptDeadline t)
      (fun s => s.team t = some x ∧ x.preempt = .points b dead ∧ dead ≤ s.time ∧ x.started = true ∧ x.ct.halted = false ∧
        ∀ w ∈ x.warps, ∀ y, s.warp w = some y → y.halted = 0)
      (fun s =>
        let part := match s.grid x.grid with | some g => g.part | none => 0
        -- an agent that stands at a safe point takes it; the others are saved by force
        let v := (s.unsaved x).foldl (fun u g => u.safePointTake g) s
        let left := v.unsaved ((v.team t).getD x)
        let u := left.foldl (fun u g => u.forceSave g) v
        u.setPart part { u.part part with forcedN := (u.part part).forcedN + left.length })) ∧
    (∀ x y g b dead, Happens (.hardwareSave t)
      (fun s => s.team t = some x ∧ x.preempt = .points b dead ∧ s.grid x.grid = some g ∧ (s.takeForced x).team t = some y ∧ y.over = false ∧
        y.started = true ∧ (s.takeForced x).allSaved y = true ∧ (s.takeForced x).enginesDrained t y = true ∧ ∀ r ∈ y.regions, r.2.dirty = [])
      (fun s => ((s.takeForced x).releaseStart y.core).updTeam t (fun x => { x with preempt := .writeBack b }))) ∧
    (∀ x g b, Happens (.hardwareSave t)
      (fun s => s.team t = some x ∧ x.preempt = .writeBack b ∧ s.grid x.grid = some g ∧ s.wbInFlight x.core = false ∧
        s.areaWait g x.core b (4096 + g.rec_.scratch + (x.warps.length + 1) * g.areaSize) = none)
      (fun s => s.saveTeam t x g b)) ∧
    (∀ g y k x scr u, Happens (.teamRestore e)
      (fun s => s.grid e = some g ∧ s.returning g = some (y, k) ∧ s.team k = some x ∧ s.locksFit (s.backLocks k y) = true ∧
        s.readArea g x.core y.area y.team.scr = .ok (scr, u) ∧ s.featWait g.asid = none)
      (fun _ => u.bringBack e g y k x scr)) ∧
    Happens (.preemptGo p minRank) (fun s => s.preemptBusy p = false) (fun s =>
      let hit := (s.teams.filter (fun e => match s.grid e.2.grid with
        | some g => g.part == p && decide (minRank.toNat ≤ g.rank)
        | none => false)).map (·.1)
      let all := dedup (hit.flatMap (fun t => s.group t))
      let u := all.foldl (fun s t => s.askPreempt t) s
      let key (t : Nat) : Option (Nat × Nat × Nat) := (u.team t).map (fun x => (t, u.gridOrder x.grid, x.num))
      u.setPart p { u.part p with goTeams := all.filterMap key, minRank := minRank }) ∧
    Happens (.preemptHold p hold) (fun _ => True) (fun s => s.setPart p { s.part p with hold := hold })

/-- R5, R22, R23, R44 to R48, R56 to R59, R38, R26: posts and the registers of the package block. A refused enable is ignored whole and the held
base is 0 before the first disable (log entry 24), LOAD of a key slot drops lines as CLEAR does (log entry 29), and a later step request replaces
an earlier one unless that came from retry exhaustion (log entry 31): the model's choices. -/
def Obligations.RegisterEvents : Prop :=
  ∀ (q off p link port addr : Nat) (v : W64) (slot : BitVec 6),
    let ringSize (s : State) : Nat := 2 ^ (qLog (s.queue q).word0 + 4)
    let tail : W32 := v.setWidth 32
    let noFlags (x : Queue) : Queue := { x with
      overrun := x.overrun && !v.getLsbD 1
      badpost := x.badpost && !v.getLsbD 2
      stale := x.stale && !v.getLsbD 3
      recfault := x.recfault && !v.getLsbD 4
      cerr := x.cerr && !v.getLsbD 5 }
    let enabled (s : State) : Prop := qEn (s.queue q).word0 = true
    let refused (s : State) (w : W64) : Prop := ringFits w = false ∨ (s.queue q).head ≠ (s.queue q).tail ∧ qRing w ≠ (s.queue q).heldBase
    -- SHARE and DEADLINE as a write leaves them: 0 keeps the value
    let config (x : Part) (w : W64) : W64 :=
      let share := if w.toNat / 2 ^ 8 % 256 = 0 then x.word0.toNat / 2 ^ 8 % 256 else w.toNat / 2 ^ 8 % 256
      let dead := if w.toNat / 2 ^ 16 % 65536 = 0 then x.word0.toNat / 2 ^ 16 % 65536 else w.toNat / 2 ^ 16 % 65536
      BitVec.ofNat 64 (share * 2 ^ 8 + dead * 2 ^ 16)
    let cap : Nat := v.toNat / 2 ^ 8 % 128
    let oldCap (s : State) : Nat := (s.part p).pwrcfg.toNat / 2 ^ 8 % 128
    let caps (s : State) (k : Nat) : State := (s.setPart p { s.part p with pwrcfg := BitVec.ofNat 64 (v.toNat % 8 + k * 2 ^ 8) }).setLevel p 3 k
    let pin : BitVec 2 := v.setWidth 2
    -- the command window
    Happens (.post q 0 8 v)
      (fun s => q < 4096 ∧ serialLt (s.queue q).tail tail = true ∧ tail ≠ (s.queue q).tail ∧ (tail - (s.queue q).head).toNat ≤ ringSize s)
      (fun s => s.setQueue q { s.queue q with tail := tail }) ∧
    Happens (.post q 0 8 v)
      (fun s => q < 4096 ∧ serialLt (s.queue q).tail tail = true ∧ tail ≠ (s.queue q).tail ∧ ringSize s < (tail - (s.queue q).head).toNat)
      (fun s => s.setQueue q { s.queue q with overrun := true }) ∧
    Happens (.post q 0 8 v) (fun s => q < 4096 ∧ serialLt (s.queue q).tail tail = false ∧ tail ≠ (s.queue q).tail)
      (fun s => s.setQueue q { s.queue q with stale := true }) ∧
    Happens (.post q 0 8 v) (fun s => q < 4096 ∧ tail = (s.queue q).tail) (fun s => s) ∧
    Happens (.post q 0x10 8 v) (fun _ => q < 4096) (fun s => s.setQueue q (noFlags (s.queue q))) ∧
    -- queues
    Happens (.queueEnable q v)
      (fun s => ¬ enabled s ∧ ¬ refused s ((v ||| 0x4000000000000000) &&& 0x7FFFFFFFFFFFFFFF))
      (fun s => s.setQueue q { s.queue q with word0 := (v ||| 0x4000000000000000) &&& 0x7FFFFFFFFFFFFFFF }) ∧
    Happens (.queueEnable q v) (fun s => ¬ enabled s ∧ refused s ((v ||| 0x4000000000000000) &&& 0x7FFFFFFFFFFFFFFF)) (fun s => s) ∧
    Happens (.queueDisable q v) enabled (fun s => s.setQueue q { s.queue q with
      word0 := ((s.queue q).word0 &&& 0x07FFFFFFFFFFFFFF) ||| (v &&& 0x3800000000000000)
      heldBase := qRing (((s.queue q).word0 &&& 0x07FFFFFFFFFFFFFF) ||| (v &&& 0x3800000000000000)) }) ∧
    Happens (.queueSync q v) (fun s => ¬ enabled s)
      (fun s => s.setQueue q { s.queue q with word1 := v &&& 0x7FFFFFFF, head := (s.queue q).tail }) ∧
    -- partitions
    Happens (.partitionEnable p v) (fun s => (s.part p).word0.getLsbD 0 = true ∨ s.canEnable p = true)
      (fun s => (s.setPart p { s.part p with word0 := config (s.part p) (v ||| 1) ||| 1 }).retime p) ∧
    Happens (.partitionEnable p v) (fun s => (s.part p).word0.getLsbD 0 = false ∧ s.canEnable p = false)
      (fun s => s.setPart p { s.part p with word0 := config (s.part p) (v ||| 1), refused := true }) ∧
    Happens (.partitionDisable p v) (fun _ => True)
      (fun s => s.setPart p { s.part p with word0 := config (s.part p) (v &&& ~~~1) }) ∧
    -- keys
    Happens (.keyLoad slot) (fun s => s.keyBusy = none) (fun s => { s with keySlot := slot, keyBusy := some true }) ∧
    Happens (.keyClear slot) (fun s => s.keyBusy = none) (fun s => { s with keySlot := slot, keyBusy := some false }) ∧
    Happens (.keyLoad slot) (fun s => s.keyBusy ≠ none) (fun s => s) ∧
    Happens .keyOperationDone (fun s => s.keyBusy = some true ∧ ∀ e ∈ s.l2, e.2.key = s.keySlot → e.2.host = .hi ∧ e.2.snoop = none) (fun s =>
      { s with
        l2 := s.l2.filter (fun e => e.2.key != s.keySlot)
        keyBusy := none
        keys := Tab.set s.keys s.keySlot.toNat (.loaded s.keyData)
        keyData := 0
        keyValid := s.keyValid ||| BitVec.ofNat 64 (2 ^ s.keySlot.toNat) }) ∧
    Happens .keyOperationDone (fun s => s.keyBusy = some false ∧ ∀ e ∈ s.l2, e.2.key = s.keySlot → e.2.host = .hi ∧ e.2.snoop = none) (fun s =>
      { s with
        l2 := s.l2.filter (fun e => e.2.key != s.keySlot)
        keyBusy := none
        keys := Tab.erase s.keys s.keySlot.toNat
        keyValid := s.keyValid &&& ~~~BitVec.ofNat 64 (2 ^ s.keySlot.toNat) }) ∧
    -- accesses to the block
    Happens (.registerWrite addr v none) (fun _ => True) (fun s => s.regWrite (regOf addr) v) ∧
    Happens (.registerWrite addr v (some port))
      (fun s => (∀ q o, regOf addr ≠ .slot q o) ∧ ¬ (hostWrites (regOf addr) = true ∧ (s.ports.getD port {}).admin = true))
      (fun s => s.logError 4 addr) ∧
    Happens (.registerWrite addr v (some port))
      (fun s => hostWrites (regOf addr) = true ∧ (s.ports.getD port {}).admin = true)
      (fun s => s.regWrite (regOf addr) v) ∧
    Happens (.rcRegisterRead { addr := addr, port := none }) (fun _ => True)
      (fun s => (s.regClear (regOf addr)).emit (.value (s.regPeek (regOf addr)))) ∧
    Happens (.rcRegisterRead { addr := addr, port := some port }) (fun _ => hostReads (regOf addr) = true)
      (fun s => (s.regClear (regOf addr)).emit (.value (s.regPeek (regOf addr)))) ∧
    Happens (.rcRegisterRead { addr := addr, port := some port }) (fun _ => port < 4 ∧ hostReads (regOf addr) = false)
      (fun s => (s.logError 4 addr).emit (.value 0)) ∧
    Happens (.hostRefusedAccess port off false) (fun _ => port < 4 ∧ hostReads (regOf (regBase + off)) = false)
      (fun s => (s.logError 4 (regBase + off)).emit (.value 0)) ∧
    Happens (.hostRefusedAccess port off true)
      (fun s => port < 4 ∧ (∀ q o, regOf (regBase + off) ≠ .slot q o) ∧
        ¬ (hostWrites (regOf (regBase + off)) = true ∧ (s.ports.getD port {}).admin = true))
      (fun s => s.logError 4 (regBase + off)) ∧
    Happens (.chipcfgWrite v) (fun s => s.chipcfg.getLsbD 16 = false) (fun s => { s with chipcfg := v &&& 0x103FF }) ∧
    Happens (.chipcfgWrite v) (fun s => s.chipcfg.getLsbD 16 = true) (fun s => s) ∧
    Happens (.pwrcfgWrite p v) (fun _ => 4 ≤ cap ∧ cap ≤ 64) (fun s => caps s cap) ∧
    Happens (.pwrcfgWrite p v) (fun _ => cap < 4 ∨ 64 < cap) (fun s => caps s (oldCap s)) ∧
    Happens (.dlctlPin link v) (fun s => (s.link link).rate ≠ 3 ∧ pin ≠ 0 ∧ pin.toNat - 1 ≠ (s.link link).rate)
      (fun s => (s.setLink link { s.link link with pin := pin }).raiseStep link (pin.toNat - 1)) ∧
    Happens (.dlctlPin link v)
      (fun s => (s.link link).rate ≠ 3 ∧ pin ≠ 0 ∧ pin.toNat - 1 = (s.link link).rate ∧ (s.link link).failing = false)
      (fun s => s.setLink link { s.link link with pin := pin, request := none }) ∧
    Happens (.dlctlPin link v)
      (fun s => (s.link link).rate ≠ 3 ∧ (pin = 0 ∨ pin.toNat - 1 = (s.link link).rate ∧ (s.link link).failing = true))
      (fun s => s.setLink link { s.link link with pin := pin }) ∧
    Happens (.dlctlPin link v) (fun s => (s.link link).rate = 3) (fun s => s)

/-- R42 to R44, R58, R60 to R63, R109, R125, R126, R28: accesses of a host to a line of a home under its port's key, what they wait for, lines
that no home holds, and the state of the ports. A host access that must wait has not arrived, and a write through a port whose slot is invalid is
discarded: the model's choices (log entry 29). -/
def Obligations.HostEvents : Prop :=
  ∀ (port line pa n o : Nat) (data : Line) (bytes : ByteMask) (word : BitVec 512) (keep : Bool) (training : Training) (ty : Ty) (b cmp : W64),
    let up (s : State) : Prop := (s.ports.getD port {}).cxl = false ∧ (s.ports.getD port {}).down = false
    let mine (s : State) : Prop := (s.ports.getD port {}).decodes line = true
    let op : AtomOp := { op := o, ty := ty, b := b, cmp := cmp }
    -- the access is served: nothing comes before it, no host holds the line, and its set has room for a host's line
    let served (s : State) (k : Nat) (key : BitVec 6) (write : Bool) : Prop :=
      mine s ∧ physKind (256 * line) = .home k ∧ s.hostKey port = some key ∧ s.hostAwaits line key write = none ∧ s.heldWays k line < 12
    (∀ k key, Happens (.hostSharedRead port line) (fun s => served s k key false) (fun s =>
      let u := s.hostFetch k line key
      ((u.setHost line .hs).hostSaw line).emit (.hostData port line (u.lineData line) (u.poisonOf line != 0)))) ∧
    (∀ k, Happens (.hostSharedRead port line) (fun s => mine s ∧ physKind (256 * line) = .home k ∧ s.hostKey port = none)
      (fun s => (s.logError 4 (256 * line)).emit (.hostData port line 0 true))) ∧
    (∀ k key l, Happens (.hostSharedRead port line)
      (fun s => mine s ∧ physKind (256 * line) = .home k ∧ s.hostKey port = some key ∧ s.hostBehind line = false ∧
        Tab.find s.l2 line = some l ∧ l.snoop = none ∧ l.host = .he ∧ l.key = key)
      (fun s => ({ s with l2 := Tab.set s.l2 line { l with snoop := some false, forWrite := false } } : State).emit (.bisnp line false))) ∧
    Happens (.hostSharedRead port line) (fun s => mine s ∧ physKind (256 * line) = .none)
      (fun s => (s.logStray (256 * line)).emit (.hostData port line 0 false)) ∧
    (∀ k key, Happens (.hostOwnershipRead port line) (fun s => served s k key false ∧ s.hostState line ≠ .he) (fun s =>
      let u := s.hostFetch k line key
      ((u.hostStamp k line).setHost line .he).emit (.grant port line (u.lineData line)))) ∧
    Happens (.hostOwnershipRead port line) (fun s => mine s ∧ physKind (256 * line) = .none)
      (fun s => (s.logStray (256 * line)).emit (.hostData port line 0 false)) ∧
    (∀ k key, Happens (.hostWriteback port line data bytes keep)
      (fun s => mine s ∧ physKind (256 * line) = .home k ∧ s.hostKey port = some key ∧ s.hostState line = .he)
      (fun s => ((((s.hostRekey k line key).writeLine line data bytes).setPoison line bytes 0).hostStamp k line).setHost line
        (if keep then .hs else .hi))) ∧
    (∀ l inv, Happens (.bisnpResponse line data bytes) (fun s => Tab.find s.l2 line = some l ∧ l.snoop = some inv ∧ l.host = .he) (fun s =>
      let u := (s.writeLine line data bytes).setPoison line bytes 0
      { u with l2 := Tab.upd u.l2 line (fun l => { l with
        snoop := none
        forWrite := false
        host := if inv then .hi else if l.host = .hi then .hi else .hs
        recalled := l.recalled || (inv && l.forWrite) }) })) ∧
    Happens (.hostBar4Write port pa n word) (fun s => up s ∧ bar4 pa n = true ∧ s.bar4Awaits port pa n true = none) (fun s =>
      (cuts 3 pa 0 n).foldl (fun u c => u.bar4Piece port (pa + c.1) c.2 (word.toNat / 2 ^ (8 * c.1) % 2 ^ (8 * c.2))) s) ∧
    (∀ u, Happens (.hostBar4Write port pa n word) (fun s => up s ∧ bar4 pa n = true ∧ s.bar4Awaits port pa n true = some u) (fun _ => u)) ∧
    (∀ k key, Happens (.hostBar4Read port pa n)
      (fun s => up s ∧ bar4 pa n = true ∧ homeOf pa = some k ∧ s.hostKey port = some key ∧ cuts 3 pa 0 n = [(0, n)] ∧
        s.hostAwaits (pa / 256) key false = none ∧
        ((s.hostFetch k (pa / 256) key).hostSaw (pa / 256)).poisonOf (pa / 256) &&& byteRange (pa % 256) n = 0)
      (fun s =>
        let u := (s.hostFetch k (pa / 256) key).hostSaw (pa / 256)
        u.emit (.hostWord port (BitVec.ofNat 512 (u.homeRead pa n))))) ∧
    Happens (.hostBar4Read port pa n) (fun s => up s ∧ bar4 pa n = true ∧ ∀ cut ∈ cuts 3 pa 0 n, homeOf (pa + cut.1) = none)
      (fun s => (s.logStray pa).emit (.hostWord port 0)) ∧
    (∀ k key, Happens (.hostAtomic port pa o ty b cmp)
      (fun s => (s.ports.getD port {}).reaches pa (Ty.bits ty / 8) = true ∧ hostAtomic op = true ∧ pa % (Ty.bits ty / 8) = 0 ∧ homeOf pa = some k ∧
        s.hostKey port = some key ∧ s.hostAwaits (pa / 256) key true = none ∧
        (s.hostFetch k (pa / 256) key).poisonOf (pa / 256) &&& byteRange (pa % 256) (Ty.bits ty / 8) = 0)
      (fun s =>
        let u := s.hostFetch k (pa / 256) key
        let old := lineField (u.lineData (pa / 256)) (pa % 256) (Ty.bits ty / 8)
        ((u.writeLine (pa / 256) (lineOf (pa % 256) (atomNew op old)) (byteRange (pa % 256) (Ty.bits ty / 8))).hostStamp k (pa / 256)).emit
          (.hostOld port (BitVec.ofNat 64 old)))) ∧
    Happens (.hostPortLinkTraining port training) (fun _ => True) (fun s =>
      { s with ports := s.ports.set port { s.ports.getD port {} with cxl := training.cxl, down := false, hdm := training.hdm } }) ∧
    Happens (.hostPortDown port) (fun _ => True)
      (fun s => { s with ports := s.ports.set port { s.ports.getD port {} with down := true } })

/-- R30 to R41: the states of the package, power-up and idle partitions, the caps and limits, and Vudor's records, images and reports.
That START powers up all 160 cores, when the levels of a hall frame are computed, HOLD 0 and the check of 100 µs and 50 µs (log entry 32), and
that a reset or a loss of power does what these clauses say in off and standby, with the layout of the report (log entry 14), are the model's
choices; half of an odd level rounds down (log entry 46). -/
def Obligations.PowerEvents : Prop :=
  ∀ (p : Nat) (heat : Heat) (cause : FatalCause) (f : BitVec 320) (m : Measure) (image : Image) (nonce : BitVec 256) (id : BitVec 10),
    let levels (s : State) (k : Nat) (f : Nat → Nat) : State := s.setLevels k ((List.range 8).map (fun p => (p, f p)))
    let stepped (s : State) : State := { s with levelTime := s.levelTime.set 0 s.time }
    let due (s : State) : Prop := s.levelTime.getD 0 0 + 100 * usec ≤ s.time
    let low (s : State) : Nat := if image.raiseMin then max s.vudor.minVersion image.secVersion else s.vudor.minVersion
    let boardAt (s : State) : State := { s with boardTime := s.time }
    let watts (s : State) : Nat := s.boardw.toNat % 65536
    (∀ s, s.standing = false → exec .standbyPowerOn s = .next { s with pkg := .standby }) ∧
    Stands .powerOn (fun s => s.pkg = .standby) (fun s => { s with pkg := .boot }) ∧
    (∀ i, Stands .bootVerify (fun s => s.pkg = .boot ∧ s.vudor.image = some i ∧ s.imageOk i = true) (fun s =>
      { s with pkg := .start, chipcfg := (s.vudor.chipId.getD 0x3FF).setWidth 64, powerSeq := List.range 160, powerAt := none })) ∧
    Stands .bootVerify (fun s => s.pkg = .boot ∧ (s.vudor.image = none ∨ ∃ i, s.vudor.image = some i ∧ s.imageOk i = false))
      (fun s => { s with pkg := .recovery }) ∧
    (∀ c rest, Happens .corePowerUp
      (fun s => s.powerSeq = c :: rest ∧ (∀ t, s.powerAt = some t → t + 2 * usec ≤ s.time) ∧ (s.pkg = .run ∨ rest ≠ []))
      (fun s => { s.setCore c (poweredCore s c) with powerSeq := rest, powerAt := some s.time })) ∧
    (∀ c, Happens .corePowerUp
      (fun s => s.powerSeq = [c] ∧ (∀ t, s.powerAt = some t → t + 2 * usec ≤ s.time) ∧ s.pkg = .start)
      (fun s => { s.setCore c (poweredCore s c) with powerSeq := [], powerAt := some s.time, pkg := .run })) ∧
    Happens (.partitionIdle p)
      (fun s => s.partBusy p = false ∧ (s.part p).idleAt + msec ≤ s.time ∧
        ∀ c ∈ s.idleCores p, (s.core c).dirtyLines = [] ∧ s.wbInFlight c = false)
      (fun s => (s.idleCores p).foldl
        (fun u c => u.updCore c (fun y => { eclk := y.eclk, watch := y.watch, sampPos := y.sampPos })) s) ∧
    Happens (.fatalEntry cause) (fun _ => True) (fun s =>
      (List.range 4).foldl (fun s p => s.emit (.fatal p))
        ({ s with pkg := .fatal, vudor := { s.vudor with fatal := (({ cause := cause, datum := s.datum } : FatalRec) :: s.vudor.fatal).take 16 } } :
          State).commitRecords) ∧
    Stands .packageReset (fun s => s.pkg ≠ .standby) (fun s => s.afterReset s.vudor .boot) ∧
    Stands .standbyPowerLoss (fun _ => True) (fun s => s.afterReset { s.vudor with counts := s.vudor.stored } .off) ∧
    Stands (.hallCapFrame f m) (fun s => s.frameOk f = false) (fun s => { s with hallRejects := s.hallRejects + 1 }) ∧
    Stands (.hallCapFrame f m) (fun s => s.frameOk f = true ∧ frameWord f 8 ≠ 0) (fun s =>
      ({ s with hallSeq := BitVec.ofNat 32 (frameWord f 4),
                vudor := { s.vudor with frame := some f, lapseAt := s.time + frameWord f 8 * msec } } : State).hallLevels f m) ∧
    Stands (.hallCapFrame f m) (fun s => s.frameOk f = true ∧ frameWord f 8 = 0) (fun s =>
      { ({ s with hallSeq := BitVec.ofNat 32 (frameWord f 4) } : State).hallRelease with hallShort := false }) ∧
    (∀ fr, Stands (.hallRecompute m) (fun s => s.vudor.frame = some fr ∧ s.vudor.hallAt + msec ≤ s.time) (fun s => s.hallLevels fr m)) ∧
    Stands .hallHoldExpire (fun s => s.vudor.frame ≠ none ∧ s.vudor.lapseAt ≤ s.time) (fun s => s.hallRelease) ∧
    Happens (.boardLimitMeasure m) (fun s => s.boardTime + msec ≤ s.time ∧ watts s ≠ 0 ∧ watts s < m.power) (fun s =>
      let u := boardAt s
      let order := u.powerOrder ((List.range 8).filter (fun p => (u.part p).word0.getLsbD 0 && u.partActive p))
      let r := cutLevels (fun _ => 4) (dynPower m) (64 * (m.power - watts s)) order
      u.setLevels 1 (r.1.map (fun e => (e.1, min e.2 (u.levelOf e.1 1))))) ∧
    Happens (.boardLimitMeasure m) (fun s => s.boardTime + msec ≤ s.time ∧ m.power * 100 < 95 * watts s)
      (fun s => levels (boardAt s) 1 (fun p => min 64 ((boardAt s).levelOf p 1 + 4))) ∧
    Happens (.thermalStep heat) (fun _ => 115 < heat.celsius) (fun s => s.fatalNow .temperature) ∧
    Happens (.thermalStep heat) (fun s => 100 < heat.celsius ∧ heat.celsius ≤ 115 ∧ due s)
      (fun s => let u := (stepped s).histograms heat.celsius heat.dies; levels u 2 (fun p => max 4 (u.levelOf p 2 - 4))) ∧
    Happens (.thermalStep heat) (fun s => heat.celsius < 95 ∧ due s)
      (fun s => let u := (stepped s).histograms heat.celsius heat.dies; levels u 2 (fun p => min 64 (u.levelOf p 2 + 4))) ∧
    Happens .currentLimitTrip (fun _ => True) (fun s =>
      let u := levels s 4 (fun p => max 4 ((s.part p).level / 2))
      { u with levelTime := u.levelTime.set 1 u.time }) ∧
    Happens .currentLimitRestore (fun s => s.levelTime.getD 1 0 + 50 * usec ≤ s.time) (fun s =>
      let u := levels s 4 (fun p => min 64 (s.levelOf p 4 + 4))
      { u with levelTime := u.levelTime.set 1 u.time }) ∧
    Stands .lifetimeCommit (fun s => s.vudor.committedAt + commitEvery ≤ s.time)
      (fun s => { s with vudor := { s.vudor with stored := s.vudor.counts, committedAt := s.time } }) ∧
    Stands .lifetimeRead (fun _ => True) (fun s => s.emit (.records s.vudor.records)) ∧
    Stands (.firmwareUpdate image false) (fun s => s.imageOk image = true ∧ s.pkg ≠ .recovery)
      (fun s => { s with vudor := { s.vudor with image := some image, minVersion := low s } }) ∧
    Stands (.firmwareUpdate image false) (fun s => s.imageOk image = true ∧ s.pkg = .recovery)
      (fun s => { s with vudor := { s.vudor with image := some image, minVersion := low s }, pkg := .boot }) ∧
    Stands (.firmwareUpdate image true) (fun s => s.imageOk image = true) (fun s => { s with vudor := { s.vudor with image := none } }) ∧
    (∀ i, Stands (.firmwareUpdate image i) (fun s => s.imageOk image = false) (fun s => s)) ∧
    Stands (.attestationRequest nonce) (fun _ => True) (fun s =>
      s.emit (.report (s.reportBody nonce) (bytesOf 2420 (Config.mldsaSign (s.reportBody nonce)).toNat))) ∧
    Stands (.setStoredChipId id) (fun _ => True) (fun s => { s with vudor := { s.vudor with chipId := some id } })

/-- R18 to R23, R39: steps of rate are requested and retraining windows close; a flit's eighth failure in a row asks for quarter rate;
a link goes down when the retraining after that fails. The order of requests, their replacement and UNROUTABLE (log entry 31), that the first
failure counts among the eight (log entry 36), whether a failure continues the run of its flit (a free value, log entry 4), and that RATE changes
at the close of its window, from which the 20 µs count (log entry 46), are the model's choices. -/
def Obligations.LinkEvents : Prop :=
  ∀ (n : Nat),
    let free (s : State) : Prop := n < 13 ∧ (s.link n).pin = 0
    let run (s : State) : Nat := if (s.free.1).getLsbD 0 then (s.link n).fails + 1 else 1
    Happens (.linkStepUp n) (fun s => free s ∧ (s.link n).nextRate ≠ 0 ∧ (s.link n).nextRate < 3) (fun s => s.raiseStep n ((s.link n).nextRate - 1)) ∧
    Happens (.linkStepUp n) (fun s => free s ∧ (s.link n).nextRate = 0) (fun s => s) ∧
    Happens (.linkStepDown n)
      (fun s => free s ∧ (s.link n).rate < 2 ∧ (s.link n).window = none ∧ (s.link n).lastStep + 20 * usec ≤ s.time)
      (fun s => s.raiseStep n ((s.link n).rate + 1)) ∧
    (∀ t r, Happens (.retrainWindowEnd n) (fun s => (s.link n).window = some (t, r)) (fun s =>
      (s.setLink n { s.link n with window := none, rate := r, lastStep := s.time, failing := false, fails := 0 }).serveLinks)) ∧
    Happens (.flitCrcError n) (fun s => n < 13 ∧ (s.link n).rate < 3 ∧ (s.link n).window = none ∧ run s < 8)
      (fun s => s.free.2.setLink n { s.link n with crc := min ((s.link n).crc + 1) 0xFFFF, fails := run s }) ∧
    Happens (.flitCrcError n) (fun s => n < 13 ∧ (s.link n).rate < 3 ∧ (s.link n).window = none ∧ 8 ≤ run s)
      (fun s => s.free.2.setLink n { s.link n with
        crc := min ((s.link n).crc + 1) 0xFFFF
        fails := 0
        degraded := true
        failing := true
        request := some (s.time / 50, 2) }) ∧
    (∀ w, Happens (.linkDown n) (fun s => n < 13 ∧ (s.link n).failing = true ∧ (s.link n).window = some w) (fun s =>
      let u := s.setLink n { s.link n with rate := 3, window := none, request := none, failing := false, fails := 0 }
      let v := ((u.updCounts (fun c => { c with downs := bump c.downs n })).emit (.linkDown n)).commitRecords.serveLinks
      if v.routable then v else v.fatalNow .unroutable))

/-- R230 to R232, R239 to R241: polls of the command slots, samples, and accesses of the debug window through JTAG. Which status a command ends
with (log entry 33) and the queueing times in a sample's record (free values, log entry 4) are the model's choices. -/
def Obligations.DebugEvents : Prop :=
  ∀ (core off n : Nat) (data : W64),
    let polled (s : State) : State := { s with dbgPoll := s.time / usec }
    let slot (s : State) (base : Nat) (v : Nat) : Prop := s.ownLate = [] ∧ (polled s).slotRead base 40 = .ok v ∧ v % 2 ^ 32 ≠ v / 2 ^ 32 % 2 ^ 32
    let cmd (v : Nat) : DbgCmd := DbgCmd.ofBytes v
    let sampled (s : State) (p : Nat) : Prop := s.partOfCore core = some p ∧ (s.part p).sampctl.getLsbD 0 = true
    let period (s : State) (p at_ : Nat) : Nat := at_ / 2 ^ (max 8 ((s.part p).sampctl.toNat / 2 % 32))
    (∀ base v u status, Happens .debugPoll
      (fun s => s.debugWindow = some base ∧ s.dbgPoll < s.time / usec ∧ s.dbgrun = none ∧ slot s base v ∧
        (polled s).debugCmd 0 base (cmd v) = .done u status)
      (fun _ => (u.slotDone 0 (cmd v).seq status none).pollSlots base ((List.range 16).drop 1))) ∧
    (∀ base v u, Happens .debugPoll
      (fun s => s.debugWindow = some base ∧ s.dbgPoll < s.time / usec ∧ s.dbgrun = none ∧ slot s base v ∧
        (polled s).debugCmd 0 base (cmd v) = .begun u)
      (fun _ => u)) ∧
    (∀ p k x t, Happens (.pcSample core)
      (fun s => sampled s p ∧ period s p (s.core core).sampAt < period s p (s.cycle core) ∧
        (s.setCore core { s.core core with sampAt := s.cycle core }).nextSampled core (s.core core).sampPos = some (k, x) ∧ s.team x.ctx.team = some t)
      (fun s =>
        let u := s.setCore core { s.core core with sampAt := s.cycle core }
        let r := u.sampleWarp k x
        let record := 1 + r.1 * 2 ^ 8 + (identity (.warp k)).toNat * 2 ^ 32 + u.datum % 2 ^ 64 * 2 ^ 64 + r.2.1.toNat * 2 ^ 128 +
          t.cpc.toNat * 2 ^ 192 + t.csn.toNat * 2 ^ 256 + r.2.2.toNat % 2 ^ 32 * 2 ^ 288
        (u.updCore core (fun c => { c with sampPos := k % 128 + 1 })).sampleOut p record)) ∧
    (∀ p r rest, Happens (.memorySample core)
      (fun s => s.partOfCore core = some p ∧ (s.core core).sampPend = r :: rest ∧ s.outstanding r.ref = false) (fun s =>
      let u := s.free.2
      let record := 2 + r.kind % 256 * 2 ^ 8 + r.issuer.toNat * 2 ^ 32 + r.datum % 2 ^ 64 * 2 ^ 64 + r.pc.toNat * 2 ^ 128 +
        r.cpc.toNat * 2 ^ 192 + r.csn.toNat * 2 ^ 256 + (u.datum - r.datum) % 2 ^ 32 * 2 ^ 288 + hopTimes r.hops s.free.1.toNat * 2 ^ 320 +
        r.va.toNat * 2 ^ 448
      (u.updCore core (fun c => { c with sampPend := rest })).sampleOut p record)) ∧
    (∀ base, Happens (.jtagAccess off n true data)
      (fun s => s.debugWindow = some base ∧ 1 ≤ n ∧ n ≤ 8 ∧ off + n ≤ 16384)
      (fun s => (cuts 3 (base + off) 0 n).foldl
        (fun u c => u.unitWrite (base + off + c.1) c.2 (data.toNat / 2 ^ (8 * c.1) % 2 ^ (8 * c.2))) s)) ∧
    (∀ base, Happens (.jtagAccess off n false data)
      (fun s => s.debugWindow = some base ∧ 1 ≤ n ∧ n ≤ 8 ∧ off + n ≤ 16384 ∧
        ∀ c ∈ cuts 3 (base + off) 0 n, s.hostOwns ((base + off + c.1) / 256) = false)
      (fun s => s.emit (.value (BitVec.ofNat 64 ((cuts 3 (base + off) 0 n).foldl
        (fun v c => v + s.homeRead (base + off + c.1) c.2 * 2 ^ (8 * c.1)) 0)))))

/-! ## Words and operands -/

/-- The worked words of the manual (R246, R247, the examples of chapters 13 and 15 to 18) decode to the instructions that they stand
for, at their lengths. -/
def Obligations.WorkedWords : Prop :=
  let always : Ctl := { gap := 0, yld := false, alloc := 0, wait := 0, neg := false, guard := 7 }
  decodeBytes [0x00, 0x20, 0x82, 0x01, 0x02, 0x10, 0xC4, 0x30, 0x02, 0x28] = .ok
    (.ffma { ctl := { always with gap := 5, wait := 2, guard := 1 }, d := .v 8, a := .v 2, b := .v 3, c := .v 8, ty := .f32, mod := 0 }, 10) ∧
  decodeBytes [0x00, 0x00, 0x00, 0xFF, 0x04, 0x08, 0x1C, 0x00, 0x00, 0x00, 0x64, 0x00, 0x00, 0x00] = .ok
    (.iadd { ctl := always, d := .v 4, a := .v 4, b := .lit32 100, c := .raw 0, ty := .i32, mod := 0 }, 14) ∧
  decodeBytes [0x40, 0x00, 0x00, 0xAD, 0x04, 0xC4, 0x1E, 0x20, 0x00, 0x00] = .ok
    (.icmp { ctl := always, d := .p 2, a := .v 4, b := .k 26, c := .raw 0, ty := .i32, mod := 0x40 }, 10) ∧
  decodeBytes [0x00, 0x80, 0x05, 0x00, 0x00, 0x00, 0x08, 0x80, 0x00, 0x00] = .ok
    (.bra { ctl := { always with guard := 2 }, d := .raw 0, a := .raw 0, b := .raw 0, c := .raw 22, ty := .i32, mod := 0 }, 10) ∧
  decodeBytes [0xC0, 0x60, 0x81, 0x01, 0x02, 0x0A, 0xDC, 0x42, 0x00, 0x00] = .ok
    (.pack { ctl := always, d := .v 5, a := .v 2, b := .v 3, c := .v 5, ty := .f32, mod := 0xC0 }, 10) ∧
  decodeBytes [0x28, 0x38, 0x00, 0xFF, 0x04, 0x10, 0x1C, 0x50, 0x80, 0x00, 0x40, 0x00, 0x00, 0x00] = .ok
    (.ld { ctl := { always with alloc := 1 }, d := .v 8, a := .v 4, b := .lit32 0x40, c := .raw 0, ty := .b32, mod := 0x28 }, 14) ∧
  decodeBytes [0x28, 0xC2, 0x0F, 0x00, 0x3F, 0x7E, 0x5C, 0x71, 0x00, 0x00] = .ok
    (.waitc { ctl := always, d := .raw 63, a := .raw 63, b := .raw 0, c := .raw 63, ty := .i32, mod := 0x228 }, 10) ∧
  decodeBytes [0x05, 0x00, 0x06, 0x82, 0x10, 0x08, 0x1C, 0x90, 0x00, 0x00] = .ok
    (.mxq { ctl := always, d := .raw 4, a := .v 16, b := .s 4, c := .v 24, ty := .i32, mod := 5 }, 10)

/-- Decoding what encode makes of a well-formed instruction gives it back, whatever its operands hold. -/
def Obligations.EncodedDecodes : Prop :=
  ∀ (i : Instr) (w : BitVec 208), WellFormed i = true → encode i = some w → decode w = .ok i

/-- A word that names a well-formed instruction is the one word of that instruction: encode gives back every bit of its 10, 14 or 18
bytes. -/
def Obligations.DecodedEncodes : Prop :=
  ∀ (i : Instr) (w : BitVec 208), readWord w = some i → WellFormed i = true →
    (lengthOf w = 10 ∨ lengthOf w = 14 ∨ lengthOf w = 18) ∧ ∃ v, encode i = some v ∧ v.toNat = w.toNat % 2 ^ (8 * lengthOf w)

/-- R246: the fields of an instruction word and its bytes in memory. -/
def Obligations.WordFields : Prop :=
  (∀ (w : BitVec 208) (i : Instr) (x : Args), readWord w = some i → argsOf i = some x →
    keyOf i = some (field w 79 79 * 1024 + field w 63 60 * 64 + field w 59 54) ∧
    x.ctl.gap.toNat = field w 78 75 ∧ x.ctl.yld = w.getLsbD 74 ∧ x.ctl.alloc.toNat = field w 73 71 ∧ x.ctl.wait.toNat = field w 70 64 ∧
    x.ctl.neg = w.getLsbD 53 ∧ x.ctl.guard.toNat = field w 52 50 ∧
    opndCode x.d = field w 49 41 ∧ opndCode x.a = field w 40 32 ∧ opndCode x.b = field w 31 23 ∧ opndCode x.c = field w 22 14 ∧
    (Ty.code x.ty).toNat = field w 13 10 ∧ x.mod.toNat = field w 9 0) ∧
  (∀ (bs : List Byte) (k : Nat), bs.length ≤ 26 → k < bs.length →
    field (BitVec.ofNat 208 (wordOfBytes bs)) (8 * k + 7) (8 * k) = (bs.getD k 0).toNat) ∧
  (∀ (w : BitVec 208) (iss : Iss) (x : Args),
    (readWord w = some (.bra x) ∨ readWord w = some (.call x) ∨ readWord w = some (.ubra x) ∨ readWord w = some (.ucall x) ∨
      readWord w = some (.uloop x)) → iss.x = x →
    iss.label = iss.pc + 10 + BitVec.ofInt 64 (2 * (BitVec.ofNat 27 (field w 40 14)).toInt))

/-- R250: where a branch-type instruction goes, how long it is and how far it reaches. -/
def Obligations.BranchTargets : Prop :=
  ∀ (w : BitVec 208) (i : Instr) (x : Args) (iss : Iss),
    i ∈ [Instr.bra x, .call x, .ubra x, .ucall x, .uloop x] → readWord w = some i → WellFormed i = true → iss.x = x →
    let o : Int := (BitVec.ofNat 27 (field w 40 14)).toInt
    iss.label = iss.pc + 10 + BitVec.ofInt 64 (2 * o) ∧
    lengthOf w = 10 ∧ opndLen x.d = 0 ∧ opndLen x.a = 0 ∧ opndLen x.b = 0 ∧ opndLen x.c = 0 ∧
    -134217728 ≤ 2 * o ∧ 2 * o ≤ 134217726

/-- R7: bit ranges, truncation, extension and the serial order of logical times. R11: the die, the local core and the cluster of a
global core number. -/
def Obligations.SerialOrder : Prop :=
  ((∀ (w : BitVec 208) (h l : Nat), l ≤ h → field w h l = (w.extractLsb' l (h + 1 - l)).toNat) ∧
  (∀ x n : Nat, 1 ≤ n → extBits x n false = ((x % 2 ^ n : Nat) : Int) ∧ extBits x n true = (BitVec.ofNat n x).toInt) ∧
  (∀ a b : W32,
    (serialLt a b = true ↔ 1 ≤ (b - a).toNat ∧ (b - a).toNat ≤ 2 ^ 31 - 1) ∧
    (serialLe a b = true ↔ a = b ∨ serialLt a b = true) ∧
    (serialLt a b = true → serialMax a b = b) ∧ (serialLt a b = false → serialMax a b = a) ∧
    ((b - a).toNat = 2 ^ 31 → serialLt a b = false ∧ serialLt b a = false)) ∧
  serialLt 0xFFFFFFF0 0x10 = true) ∧
  (∀ g : Nat, g < 160 →
    dieOf g = g / 40 ∧
    (∀ n, n < 128 → identity (.warp (128 * g + n)) = BitVec.ofNat 32 (dieOf g * 2 ^ 13 + g % 40 * 2 ^ 7 + n)) ∧
    (∀ p : Part, g ∈ p.allCores ↔ p.clusters.getLsbD (g / 4) = true)) ∧
  (∀ (p : Part) (c : Nat), c < 40 → p.clusters = BitVec.ofNat 64 (2 ^ c) → p.allCores = [4 * c, 4 * c + 1, 4 * c + 2, 4 * c + 3]) ∧
  (∀ c, c < 40 → dieOf (4 * c) = dieOf (4 * c + 3)) ∧
  dieOf 97 = 2 ∧ 97 / 4 = 24

/-- R353, R113, R131: the bytes that a lane's store leaves, at the address that State.laneRes gives. The pieces of a global access are the
bytes from its address on. A piece of a HOME 0 or 2 page leaves its bytes in the line of its core's L1, dirty; the line's other bytes stay
(zeros, not valid, in a line that the store allocates), other lines stay or leave the L1 for want of room, and no byte of memory changes. A
scratchpad access is queued as pieces of its bytes, and a piece leaves its bytes and no other (a scratchpad in canonical form keeps it,
log entry 1). -/
def Obligations.StoredBytes : Prop :=
  ∀ (x : Args) (s : State) (n : Iss) (j : Nat), n.x = x →
    (∀ va segs, s.laneRes n j (some x.b) (memSize x) .write none = .glob va segs →
      va = n.globalVa s j x.a (some x.b) ∧
      (∀ k, k < memSize x → ∃ sg ∈ segs, sg.pos ≤ k ∧ k < sg.pos + sg.n ∧ sg.va = va + BitVec.ofNat 64 sg.pos) ∧
      ∀ sg ∈ segs, ∀ h h2 c (data id : Nat) (pc : W64), targetOf sg.pa sg.leaf = .leased h h2 → s.ctx n.w.g = some c →
        let t := (s.storeSeg n.w id j pc sg data false).2
        let line := sg.pa / 256
        let stored (b : Nat) : Bool := decide (sg.pa % 256 ≤ b ∧ b < sg.pa % 256 + sg.n)
        let old : Option L1Line := (s.l1 n.w.core line).filter (fun l => l.key == pteKey sg.leaf)
        t.mem = s.mem ∧ t.l2 = s.l2 ∧ t.teams = s.teams ∧
        (∃ l, t.l1 n.w.core line = some l ∧ ∀ b, b < 256 →
          lineByte l.data b = (if stored b then BitVec.ofNat 8 (data >>> (8 * (sg.pos + (b - sg.pa % 256))))
            else old.elim 0 (fun o => lineByte o.data b)) ∧
          l.dirty.getLsbD b = (stored b || old.elim false (fun o => o.dirty.getLsbD b))) ∧
        (∀ core' line', (core', line') ≠ (n.w.core, line) →
          t.l1 core' line' = s.l1 core' line' ∨ (core' = n.w.core ∧ t.l1 core' line' = none))) ∧
    (∀ tm off fills, s.laneRes n j (some x.b) (memSize x) .write none = .sp tm off fills →
      off = n.scratchOff s j x.a (some x.b) ∧
      ∀ (data : BitVec 128) (id : Nat),
        ∃ y y' q, s.team tm = some y ∧ (s.toArray n j tm off (memSize x) fills (.store data) .st id).2.team tm = some y' ∧
          y'.array = y.array ++ q ∧
          (∀ e ∈ q, off ≤ e.off ∧ e.off + e.n ≤ off + memSize x ∧ e.kind = .store (data >>> (8 * (e.off - off))) ∧ e.agent = n.w.g) ∧
          ∀ k, k < memSize x → ∃ e ∈ q, e.off ≤ off + k ∧ off + k < e.off + e.n) ∧
    (∀ tm y o (data : BitVec 128), s.team tm = some y → Memory.wf y.scr = true → o.kind = .store data → s.arrayLocked tm o = false →
      (∀ c, s.ctx o.agent = some c → Tab.find c.storeBad o.owner = none) →
      ∃ y', (s.performArray tm o).team tm = some y' ∧ Memory.wf y'.scr = true ∧ (s.performArray tm o).mem = s.mem ∧
        (∀ a, Mem.read y'.scr a = if o.off ≤ a ∧ a < o.off + o.n then BitVec.ofNat 8 (data.toNat >>> (8 * (a - o.off))) else Mem.read y.scr a) ∧
        ∀ k, k ≠ tm → ((s.performArray tm o).team k).map (·.scr) = (s.team k).map (·.scr))

/-- R251, R253, R249, R102: what constants, predicate codes and literals supply (a constant of a floating-point type is the value c
itself); p7 and q7 always read true and a write to them is discarded; FLAGS keeps the bits it has when results land. -/
def Obligations.OperandValues : Prop :=
  (∀ (s : State) (g : Agent) (uni : Bool) (lane : Nat) (c : BitVec 5) (x : W32) (y : W64),
    let v (t : Ty) (o : Opnd) : W64 := s.opnd g uni false lane t o
    let n : Int := (c.toNat : Int) - 16
    (∀ t ∈ [Ty.i32, .n32, .b32, .i16, .n16, .i8, .n8], v t (.k c) = (BitVec.ofInt 32 n).setWidth 64 ∧ v t (.lit32 x) = x.setWidth 64) ∧
    (∀ t ∈ [Ty.i64, .n64, .b64], v t (.k c) = BitVec.ofInt 64 n ∧ v t (.lit64 y) = y) ∧
    v .i64 (.lit32 x) = x.signExtend 64 ∧ v .n64 (.lit32 x) = x.setWidth 64 ∧ v .b64 (.lit32 x) = x.setWidth 64 ∧
    v .f64 (.lit64 y) = y ∧
    (∀ t ∈ [Ty.f32, .f16, .bf16], v t (.lit32 x) = x.setWidth 64) ∧
    (∀ t ∈ [Ty.f32, .f64, .f16, .bf16], v t (.k c) = BitVec.ofNat 64 (iCvt t {} n).bits ∧ (iCvt t {} n).fl = 0) ∧
    (∀ t k, v t (.p k) = v t (.k (if s.reg g lane (if uni then .q k.toNat else .p k.toNat) = 0 then 16 else 17)))) ∧
  (∀ (s : State) (g : Agent) (c : Ctx) (lane : Nat), s.ctx g = some c → s.reg g lane (.p 7) = 1 ∧ s.reg g lane (.q 7) = 1) ∧
  (∀ (y : Warp) (c : Ctx) (lane : Nat) (v : BitVec 128),
    y.put { lane := lane, dest := .p 7, val := v } = y ∧ c.put { lane := lane, dest := .q 7, val := v } = c ∧
    (c.put { lane := lane, dest := .flags, val := v }).flags = c.flags ||| v.setWidth 5) ∧
  (∀ (s : State) (g : Agent) (c : Ctx) (spec : Option Nat) (ws : List RegWrite) (k : Nat),
    s.ctx g = some c → (∀ w ∈ ws, ∀ i, w.dest ≠ .sr i) → c.flags.getLsbD k = true →
    ∃ d, (s.putRegs g spec ws).ctx g = some d ∧ d.flags.getLsbD k = true)

/-! ## Registers -/

/-- R259, R260: a result that lands no later than the cycle of a read, and after all others, is what the read sees; before that the read
sees the old value or the new one. The latencies of R259. -/
def Obligations.FixedLatency : Prop :=
  (∀ (s : State) (g : Agent) (c : Ctx) (lane : Nat) (d : Dest) (ls : List Landing) (l : Landing) (w : RegWrite),
    s.ctx g = some c → c.landings = ls ++ [l] → l.writes = [w] → hits w lane d = true → d ≠ .flags → d ≠ .p 7 → d ≠ .q 7 →
    (l.due ≤ s.cycle (agentCore g) → s.reg g lane d = w.val) ∧
    (ls = [] → s.reg g lane d = w.val ∨ s.reg g lane d = s.base g lane d)) ∧
  ∀ x : Args,
    let wide : Bool := x.ty == .i64 || x.ty == .n64
    (∀ i ∈ [Instr.iadd x, .isub x, .ineg x, .iabs x, .imin x, .imax x, .iaddc x, .isubb x, .lea x, .idot4 x, .isad x, .and x, .or x,
        .xor x, .andn x, .bool3 x, .shl x, .shr x, .sar x, .rot x, .shf x, .bfx x, .bfi x, .popc x, .clz x, .ctz x, .brev x, .bytep x,
        .icmp x, .fcmp x, .sel x, .pset x, .pmov x, .pmovUnpack x, .mov x, .sread x, .uadd x, .usub x, .umul x, .umad x, .umin x, .umax x,
        .uand x, .uor x, .uxor x, .ushl x, .ushr x, .usar x, .ubfx x, .ulea x, .ucmp x, .usel x, .umov x, .ufrom x, .uclock x, .usread x],
      latency i = 4) ∧
    (∀ i ∈ [Instr.imul x, .imulh x, .imad x, .imadw x], latency i = if wide then 8 else 4) ∧
    (∀ i ∈ [Instr.fadd x, .fsub x, .fmul x, .ffma x, .fmin x, .fmax x, .frnd x, .fscale x, .fclass x],
      latency i = if x.ty == .f64 then 8 else 5) ∧
    (∀ i ∈ [Instr.fdot2 x, .padd x, .pmul x, .pfma x, .pmin x, .pmax x], latency i = 5) ∧
    (∀ i ∈ [Instr.fcvt x, .icvt x, .fcvti x, .pack x, .unpk x, .shfl x, .vote x, .match_ x, .redux x, .scan x], latency i = 6)

/-! ## Issue, divergence and traps -/

/-- R86: the lanes and the address that an issue decision among some lanes takes, and the starvation counts after it. -/
def Obligations.IssueDecision : Prop :=
  ∀ (y : Warp) (e : Mask),
    let E := if e &&& ~~~y.deferred ≠ 0 then e &&& ~~~y.deferred else e
    let pc (j : Nat) : W64 := Tab.get 0 y.lpc j
    let starves (j : Nat) : Prop := 4096 ≤ Tab.get 0 y.starve j
    (y.decide e = none ↔ e = 0) ∧
    (∀ a m, y.decide e = some (a, m) →
      (∀ j, m.getLsbD j = (E.getLsbD j && pc j == a)) ∧
      (∃ j, m.getLsbD j = true ∧ ((∃ k, E.getLsbD k = true ∧ starves k) → starves j)) ∧
      (∀ j, E.getLsbD j = true → ((∃ k, E.getLsbD k = true ∧ starves k) → starves j) → a.toNat ≤ (pc j).toNat)) ∧
    (∀ m, (y.decided e m).deferred = 0 ∧ ∀ j,
      Tab.get 0 (y.decided e m).starve j =
        if e.getLsbD j then (if m.getLsbD j then 0 else Tab.get 0 y.starve j + 1) else Tab.get 0 y.starve j)

/-- R87: YIELD defers its lanes that take effect for the next decision of its warp, and its executing lanes move past it; the decision
leaves the deferred lanes out unless that leaves none, and ends the deferral. -/
def Obligations.YieldDefers : Prop :=
  (∀ (x : Args) (s : State) (w : Who) (k : Nat) (y : Warp), s.Runs (.yield_ x) x w → w.g = .warp k → s.warp k = some y →
    ∃ t z, exec (.yield_ x) s = .next t ∧ t.warp k = some z ∧ z.deferred = y.deferred ||| s.actOf (.yield_ x) x w.g ∧
      ∀ j, t.pcOf w.g j = if s.executing w.g j && !s.cur.buffer then s.nextPc else s.pcOf w.g j) ∧
  (∀ (y : Warp) (e : Mask) (a : W64) (m : Mask), y.decide e = some (a, m) →
    (e &&& ~~~y.deferred ≠ 0 → m &&& y.deferred = 0) ∧
    (e &&& ~~~y.deferred = 0 → y.decide e = ({ y with deferred := 0 } : Warp).decide e) ∧
    (y.decided e m).deferred = 0)

/-- R100, R103, R281: what taking a trap saves and where it goes, for a warp and for a control thread, and when it ends the grid instead: in
handler mode, with TRAPBASE 0, or where the handler's address does not read as an even address other than 0. R315, R327: the first request to
end a grid gives its cause, and of two in one cycle that of the lower team number. That the new cause ends a grid whose handler traps (log entry
21), and which causes set TRAPADDR (log entry 46), are the model's choices. -/
def Obligations.TrapEntry : Prop :=
  (∀ (s : State) (k : Nat) (y : Warp) (w : Who) (p : PendTrap), s.warp k = some y → s.who (.warp k) = some w →
    let code := causeCode p.cause
    let base : W64 := match s.team w.team with | some t => t.trapBase | none => 0
    let entry := s.hwRead (dieOf w.core) w.asid w.part (base + BitVec.ofNat 64 (8 * code)) 8 true
    let read := s.hwTouch (dieOf w.core) w.asid w.part (base + BitVec.ofNat 64 (8 * code)) 8 .read true
    (y.window ≠ [] → s.takeTrap (.warp k) p = s.updCtx (.warp k) (fun c => { c with trap := some p })) ∧
    (y.window = [] → w.handler = false → base ≠ 0 → ∀ h, entry = .val h → h ≠ 0 → h % 2 = 0 →
      ∃ z, (s.takeTrap (.warp k) p).warp k = some z ∧
        z.ctx.trapMask = p.lanes ∧ z.ctx.trapCause.toNat = code ∧ z.ctx.trapPc = p.pc ∧ z.ctx.trapAddr = p.addr ∧ z.ctx.handler = true ∧
        z.blocks = [] ∧ z.parked = y.parked ∧ z.live = y.live ∧ z.v = y.v ∧ z.p = y.p ∧ z.ctx.s = y.ctx.s ∧ z.ctx.q = y.ctx.q ∧
        z.ctx.flags = y.ctx.flags ∧ z.ctx.landings = y.ctx.landings ∧ z.deferred = 0 ∧ z.latch = none ∧
        ∀ j, j < 128 →
          (y.live.getLsbD j = true ∧ y.parked.getLsbD j = false →
            Tab.get 0 z.savedLpc j = (if p.keep = false ∧ p.lanes.getLsbD j = true then p.pc else Tab.get 0 y.lpc j) ∧
            Tab.get 0 z.lpc j = BitVec.ofNat 64 h) ∧
          (¬ (y.live.getLsbD j = true ∧ y.parked.getLsbD j = false) → Tab.get 0 z.lpc j = Tab.get 0 y.lpc j)) ∧
    (y.window = [] → w.handler = true → s.takeTrap (.warp k) p = s.endGrid w.team (BitVec.ofNat 6 code)) ∧
    (y.window = [] → w.handler = false → base = 0 → s.takeTrap (.warp k) p = s.endGrid w.team (BitVec.ofNat 6 code)) ∧
    (y.window = [] → w.handler = false → base ≠ 0 → ((∃ c, entry = .fail c) ∨ ∃ h, entry = .val h ∧ (h = 0 ∨ h % 2 = 1)) →
      s.takeTrap (.warp k) p = read.endGrid w.team (BitVec.ofNat 6 code))) ∧
  (∀ (s : State) (t : Nat) (y : Team) (w : Who) (p : PendTrap), s.team t = some y → s.who (.ct t) = some w →
    let code := causeCode p.cause
    let base : W64 := match s.team w.team with | some t => t.trapBase | none => 0
    let entry := s.hwRead (dieOf w.core) w.asid w.part (base + BitVec.ofNat 64 (8 * code)) 8 true
    let read := s.hwTouch (dieOf w.core) w.asid w.part (base + BitVec.ofNat 64 (8 * code)) 8 .read true
    (w.handler = false → base ≠ 0 → ∀ h, entry = .val h → h ≠ 0 → h % 2 = 0 →
      ∃ z, (s.takeTrap (.ct t) p).team t = some z ∧
        z.ct.trapMask = 1 ∧ z.ct.trapCause.toNat = code ∧ z.ct.trapPc = p.pc ∧ z.ct.trapAddr = p.addr ∧ z.ct.handler = true ∧
        z.savedCpc = (if p.keep = true then y.cpc else p.pc) ∧ z.cpc = BitVec.ofNat 64 h ∧ z.ct.hold = .none ∧ z.ct.s = y.ct.s ∧
        z.ct.q = y.ct.q ∧ z.ct.flags = y.ct.flags ∧ z.ct.landings = y.ct.landings ∧ z.csn = y.csn ∧ z.stage = y.stage) ∧
    (w.handler = true → s.takeTrap (.ct t) p = s.endGrid w.team (BitVec.ofNat 6 code)) ∧
    (w.handler = false → base = 0 → s.takeTrap (.ct t) p = s.endGrid w.team (BitVec.ofNat 6 code)) ∧
    (w.handler = false → base ≠ 0 → ((∃ c, entry = .fail c) ∨ ∃ h, entry = .val h ∧ (h = 0 ∨ h % 2 = 1)) →
      s.takeTrap (.ct t) p = read.endGrid w.team (BitVec.ofNat 6 code))) ∧
  (∀ (s : State) (t : Nat) (y : Team) (g : Grid) (c : BitVec 6), s.team t = some y → s.grid y.grid = some g →
    (g.ending = false → s.endGrid t c = (s.updGrid y.grid (fun g => { g with
      ending := true
      endBy := some (s.time / 50, y.num)
      status := 2
      cause := c
      saved := []
      tr := (g.saved.flatMap (fun x => x.team.ct.wclk :: x.warps.map (·.wclk))).foldl serialMax (if g.trAny then g.tr else s.floor)
      trAny := true })).endTeam t) ∧
    (g.ending = true → s.endGrid t c = (s.updGrid y.grid (fun g => g.endBy.elim g (fun first =>
      if first.1 = s.time / 50 ∧ y.num < first.2 then { g with cause := c, endBy := some (first.1, y.num) } else g))).endTeam t)) ∧
  (∀ (cs : List (Nat × Cause × W64)) (c : Cause) (m : Mask) (va : W64), (∀ x ∈ cs, x.1 < 128) → lowestCause cs = some (c, m, va) →
    (∀ x ∈ cs, causeCode c ≤ causeCode x.2.1) ∧
    (∀ j, m.getLsbD j = true ↔ ∃ x ∈ cs, x.1 = j ∧ causeCode x.2.1 = causeCode c) ∧
    (memoryCause c = false → va = 0) ∧
    (memoryCause c = true → ∃ x ∈ cs, x.1 = lowest m ∧ causeCode x.2.1 = causeCode c ∧ va = x.2.2))

/-- R101, R400: RFT gives each live lane its saved LPC and leaves handler mode; its form .next first moves the trapping lanes that still
stand at the trapping instruction past it, by that word's length. -/
def Obligations.HandlerReturn : Prop :=
  ∀ (s : State) (k : Nat) (next : Bool) (len : Nat) (y : Warp), s.warp k = some y → (∀ j a, (j, a) ∈ y.savedLpc → Tab.find y.savedLpc j = some a) →
    let past (a : W64) : W64 := a + BitVec.ofNat 64 len
    ∃ z, (s.rft k next len).warp k = some z ∧ z.ctx.handler = false ∧ z.live = y.live ∧ z.parked = y.parked ∧ z.v = y.v ∧ z.p = y.p ∧
      z.ctx.s = y.ctx.s ∧ z.ctx.trapCause = y.ctx.trapCause ∧ z.ctx.trapMask = y.ctx.trapMask ∧
      ∀ j a, y.live.getLsbD j = true → Tab.find y.savedLpc j = some a →
        Tab.get 0 z.lpc j = if next = true ∧ y.ctx.trapMask.getLsbD j = true ∧ a = y.ctx.trapPc then past a else a

/-- R106: the cause codes, no two of them alike. -/
def Obligations.CauseCodes : Prop :=
  (∀ a b : Cause, causeCode a = causeCode b → a = b) ∧
  causeCode .illegalOpcode = 1 ∧ causeCode .illegalOperand = 2 ∧ causeCode .retiredForm = 3 ∧ causeCode .privilege = 4 ∧
  causeCode .controlOnly = 5 ∧ causeCode .tagRequired = 6 ∧ causeCode .fetchAlign = 7 ∧ causeCode .softwareTrap = 8 ∧
  causeCode .breakpoint = 9 ∧ causeCode .callDepth = 10 ∧ causeCode .widthContract = 11 ∧ causeCode .misalignedAtomic = 12 ∧
  causeCode .translation = 16 ∧ causeCode .permission = 17 ∧ causeCode .noncanonical = 18 ∧ causeCode .addressWrap = 19 ∧
  causeCode .scratchBounds = 20 ∧ causeCode .rangeLock = 21 ∧ causeCode .dataUncorrectable = 22 ∧ causeCode .hostPath = 23 ∧
  causeCode .peerPath = 24 ∧ causeCode .keyInvalid = 25 ∧ causeCode .formatEntry = 26 ∧ causeCode .regionMap = 27 ∧
  causeCode .copyFault = 32 ∧ causeCode .matrixSlot = 33 ∧ causeCode .barrierOverrun = 34 ∧ causeCode .queueOverrun = 35 ∧
  causeCode .serviceError = 36 ∧ causeCode .launchDepth = 37 ∧ causeCode .slotConflict = 38 ∧ causeCode .engineUncorrectable = 39 ∧
  causeCode .watchpoint = 48 ∧ causeCode .debugHalt = 49 ∧ causeCode .singleStep = 50 ∧ causeCode .forcedSave = 51 ∧
  causeCode .preemptSave = 52

/-! ## Homes, barriers and levels -/

/-- R114, R116, R108: a write with clock c at the home of a resident line merges the masked bytes, leaves every other byte of memory and
every L1 as it was, and stamps the line. -/
def Obligations.HomeWrite : Prop :=
  ∀ (s : State) (k line : Nat) (key : BitVec 6) (part : Nat) (home2 : Bool) (c : W32) (data : Line) (mask bad : ByteMask) (l : L2Line),
    s.Canonical → k < s.homes.length → (s.home k).sweep = none → Tab.find s.l2 line = some l → l.key = key →
    let r := s.homeWrite k line key part home2 c data mask bad
    let w' := serialMax c (l.rts + 1)
    let jumped : Prop := serialLe c l.rts = true ∨ l.recalled = true
    r.1 = (w', l.wts) ∧
    (∃ m, Tab.find r.2.l2 line = some m ∧ m.wts = w' ∧ m.rts = w' ∧ (jumped → l.cls ≠ 0 → m.cls = l.cls - 1) ∧
      (¬ jumped ∨ l.cls = 0 → m.cls = l.cls)) ∧
    (r.2.home k).mts = serialMax (serialMax (s.home k).mts c) w' ∧
    r.2.lineData line = mergeLine (s.lineData line) data mask ∧
    (∀ a, a / 256 ≠ line → Mem.read r.2.mem a = Mem.read s.mem a) ∧ r.2.cores = s.cores ∧ r.2.Canonical

/-- R112, R110, R117: a read of a resident HOME 1 line with clock c raises rts and the home's clock, changes no byte, leaves every L1 alone,
and every later write of the line whose clock compares with rts is stamped after the read. The lengths of the lease classes; a line that
is filled starts at class 0 with the home's clock, and the line's class falls by one step at most with a write. -/
def Obligations.HomeRead : Prop :=
  (∀ (s : State) (k line : Nat) (key : BitVec 6) (part : Nat) (home2 : Bool) (c : W32) (l : L2Line),
    k < s.homes.length → (s.home k).sweep = none → Tab.find s.l2 line = some l → l.key = key →
    let r := s.stampRead k line key part home2 c
    let rts := serialMax l.rts c
    r.1 = l.wts ∧ Tab.find r.2.l2 line = some { l with rts := rts } ∧
    (r.2.home k).mts = serialMax (serialMax (s.home k).mts c) rts ∧ r.2.lineData line = s.lineData line ∧ r.2.mem = s.mem ∧
    r.2.cores = s.cores ∧
    ∀ c', serialLt rts c' = true ∨ serialLe c' rts = true → serialLt rts (stampLine { l with rts := rts } c').1 = true) ∧
  leaseLen 0 = 10 ∧ leaseLen 1 = 40 ∧ leaseLen 2 = 160 ∧ leaseLen 3 = 640 ∧
  (∀ (s : State) (k line : Nat) (key : BitVec 6) (part : Nat) (home2 : Bool), Tab.find s.l2 line = none → k < s.homes.length →
    ∃ l, Tab.find (s.fetchLine k line key part home2).l2 line = some l ∧ l.cls = 0 ∧ l.wts = (s.home k).mts ∧ l.rts = (s.home k).mts ∧
      l.key = key ∧ l.dirty = 0 ∧ l.host = .hi) ∧
  (∀ (l : L2Line) (c : W32), (stampLine l c).2.cls = l.cls ∨ l.cls ≠ 0 ∧ (stampLine l c).2.cls = l.cls - 1)

/-- R363, R365: a barrier object's layout loses no field, and its arrivals, bytes and flips. -/
def Obligations.BarrierPhases : Prop :=
  (∀ o : Obj, o.expect < 2 ^ 16 → o.epoch < 4096 → o.scope < 8 → o.arrived < 2 ^ 16 → Obj.ofBytes o.toBytes = o) ∧
  (∀ (o : Obj) (n : Nat) (x : W32) (last : BitVec 128),
    (o.expect < o.arrived + n → o.arrive n x last = none) ∧
    (o.arrived + n = o.expect → o.pending + x = 0 → ∃ u, o.arrive n x last = some (true, u) ∧ u.epoch = (o.epoch + 1) % 4096 ∧
      u.lastErr = o.err ∧ u.err = false ∧ u.arrived = 0 ∧ u.expect = o.expect ∧ u.last = (if n = 0 then o.last else last)) ∧
    (o.arrived + n ≤ o.expect → (o.arrived + n ≠ o.expect ∨ o.pending + x ≠ 0) → ∃ u, o.arrive n x last = some (false, u) ∧
      u.epoch = o.epoch ∧ u.lastErr = o.lastErr ∧ u.err = o.err ∧ u.arrived = o.arrived + n ∧ u.pending = o.pending + x ∧
      u.expect = o.expect ∧ u.last = (if n = 0 then o.last else last))) ∧
  (∀ (o : Obj) (k : Nat) (last : BitVec 128), (o.bytesDone k last).2.last = last ∧
    (o.bytesDone k last).1 = decide (o.arrived = o.expect ∧ o.pending = BitVec.ofNat 32 k)) ∧
  (∀ e d : Nat, e < 4096 → d < 4096 → (epochPassed ((e + d) % 4096) e = true ↔ 1 ≤ d ∧ d ≤ 2047))

/-- R33, R34: a partition runs at the minimum of its five levels, and a cause at the minimum binds when that is below 64; its cores
issue in L, 2L or 4L cycles of every 64, evenly: of n cycles that follow each other at one level, each core's issue is open in n times that over 64,
to within one. A core of no partition is not throttled. -/
def Obligations.PartitionLevels : Prop :=
  (∀ x : Part, (∀ l ∈ x.levels, l ≤ 64) → x.levels ≠ [] →
    (∀ l ∈ x.levels, x.level ≤ l) ∧ x.level ∈ x.levels ∧ x.binding = x.levels.map (fun l => decide (l = x.level ∧ x.level < 64))) ∧
  (∀ (s : State) (p cause level : Nat), p < s.parts.length → cause < (s.part p).levels.length →
    (s.setLevel p cause level).levelOf p cause = level ∧
    (∀ q c, (q ≠ p ∨ c ≠ cause) → (s.setLevel p cause level).levelOf q c = s.levelOf q c) ∧
    ∀ e ∈ (s.setLevel p cause level).cores, s.partOfCore e.1 = some p →
      e.2.clk.div = divOf ((s.setLevel p cause level).part p).level) ∧
  (∀ level, (16 ≤ level → level ≤ 64 → divOf level = 0 ∧ gateOf level = level) ∧
    (8 ≤ level → level < 16 → divOf level = 1 ∧ gateOf level = 2 * level) ∧
    (4 ≤ level → level < 8 → divOf level = 2 ∧ gateOf level = 4 * level)) ∧
  (∀ (u : Nat → State) (core p level c n : Nat), 4 ≤ level → level ≤ 64 →
    (∀ i, (u i).partOfCore core = some p ∧ ((u i).part p).level = level ∧ (u i).cycle core = c + i) →
    let open_ := ((List.range n).filter (fun i => (u i).gateOpen core)).length
    n * gateOf level ≤ 64 * open_ + 63 ∧ 64 * open_ ≤ n * gateOf level + 63) ∧
  (∀ (s : State) (core : Nat), s.partOfCore core = none → s.gateOpen core = true)

/-! ## The step -/

/-- R74, R86, R246, R257: when the bytes at an agent's program counter decode to an instruction, the agent can issue it once nothing
holds it; the decision that picks it begins its issue; and the step is its meaning, followed by what ends an issue. -/
def Obligations.StepRunsDecoded : Prop :=
  (∀ (s : State) (w : Who) (c : Ctx) (pc : W64) (lanes : Mask) (word : BitVec 208) (i : Instr),
    s.codeWord w.core w.asid pc = .ok word → decode word = .ok i → c.gapUntil ≤ s.cycle w.core → c.tagWait i = false →
    (w.handler = true ∨ s.privByte w.core w.asid pc = none) → s.counterHeld w.g c lanes i = false → s.queueFull w.g i = false →
    (isTrans i && s.unitBusy w.g) = false →
    s.specStops w.g lanes i (never (ctlOfInstr i)) = false → s.lookAt w c pc lanes = .go pc lanes (some i) (lengthOf word)) ∧
  (∀ (s : State) (k : Nat) (y : Warp) (c : Ctx) (pc : W64) (lanes : Mask) (i : Option Instr) (len : Nat),
    s.warp k = some y → s.ctx (.warp k) = some c → s.look (.warp k) = .go pc lanes i len → y.issuedAt ≠ s.cycle (k / 128) + 1 →
    ∃ q, s.candOf (.warp k) = some q ∧ q.g = .warp k ∧ q.e = y.pool y.open_ ∧ q.pc = pc ∧ q.lanes = lanes ∧ q.i = i ∧ q.len = len) ∧
  (∀ (s : State) (gs : List Agent) (fits : Cand → Bool) (q : Cand), s.fetchOne gs = none →
    firstCand ((gs.filterMap (fun g => s.candOf g)).filter fits) = some q →
    ∃ u, s.portTurn gs true fits = (u, some (u.issueAt q.g q.e q.pc q.lanes q.i q.len false)) ∧
      u = s.noteReady gs ((gs.filterMap (fun g => s.candOf g)).map (·.g))) ∧
  (∀ (s : State) (g : Agent) (w : Who) (e : Mask) (pc : W64) (lanes : Mask) (i : Instr) (len : Nat) (one : Bool),
    s.who g = some w → (one = true ∨ s.bpAt w.asid pc = none) →
    s.issueAt g e pc lanes (some i) len one = .run i (s.begin_ g e pc lanes len one) ∧
    (s.begin_ g e pc lanes len one).cur = { agent := some g, pc := pc, len := len, lanes := lanes, step := one }) ∧
  (∀ (s u v : State) (core slot : Nat) (rest : List Move) (i : Instr), s.live = true → s.dbgrun = none → s.moves = .slot core slot :: rest →
    s.turn ≠ .late → slot < 8 → ({ s with moves := rest, turn := .place 0 } : State).placeTurn (9 * core + slot) = (u, some (.run i v)) → s.plan = .run i v) ∧
  (∀ (s u v : State) (n p : Nat) (rest : List Nat) (i : Instr), s.live = true → s.dbgrun = none → s.moves = [] → s.turn = .place n →
    s.placesFrom n = p :: rest → s.placeTurn p = (u, some (.run i v)) → s.plan = .run i { v with turn := .place p }) ∧
  (∀ (s u : State) (i : Instr), s.plan = .run i u →
    (∀ t, exec i u = .next t → step s = .next (s.after u i t)) ∧ (∀ f, exec i u = .fault f → step s = .fault f) ∧
    (∀ r, exec i u = .refused r → step s = .refused r))

/-- From every state the machine goes on: no step ends in a fault or in a refusal. -/
def Obligations.EveryStepGoesOn : Prop := ∀ s : State, s.GoesOn

/-- The memory of the reset state is in canonical form. -/
def Obligations.ResetCanonical : Prop := State.reset.Canonical

/-- Every step keeps the canonical form of memory. -/
def Obligations.StepKeepsCanonical : Prop := ∀ s t : State, s.Canonical → step s = .next t → t.Canonical

/-- The values that the register tables give for reset (R22, R34, R38, R44, R45, R56, R58, R59, R84, R121, R122, R146, R165, R230, R239, R242),
and R30: after package reset the firmware is verified first. -/
def Obligations.ResetValues : Prop :=
  let s := State.reset
  s.pkg = .boot ∧ s.links = List.replicate 13 { rate := 0, window := none, pin := 0, retrains := 0, crc := 0 } ∧
  (∀ p, p < 8 → (s.part p).word0 = 0x320100 ∧ (s.part p).clusters = 0 ∧ (s.part p).hbmshare = 0x40404040 ∧ (s.part p).l2ways = 0xFFFF ∧
    (s.part p).slots = 0 ∧ (s.part p).belcylo = 0 ∧ (s.part p).belcyhi = 0 ∧ (s.part p).keys = 1 ∧ (s.part p).refused = false ∧
    (s.part p).pwrcfg = 0x4007 ∧ (s.part p).level = 64 ∧ (s.part p).hold = false ∧ (s.part p).sampctl = 0x1820 ∧ (s.part p).sampbuf = 0x10) ∧
  (∀ k, k < 6 → (s.home k).mts = 0 ∧ (s.home k).spill = 0 ∧ (s.home k).sweeps = 0 ∧ (s.home k).sweep = none) ∧
  s.floor = 0xE0000000 ∧ s.hclk = 0 ∧ s.asidcfg = 0 ∧ s.peercfg = 0 ∧ s.tlbinv0 = 0 ∧ s.tlbIssued = 0 ∧ s.tlbDone = 0 ∧ s.dbgbase = 0 ∧
  s.featcfg = 0 ∧ s.retcfg = 0 ∧ s.keyValid = 1 ∧ s.boardw = 3200 ∧ (s.ports.getD 0 {}).admin = true ∧
  (∀ p, 1 ≤ p → p < 4 → (s.ports.getD p {}).admin = false)
end

