-- ==== Sys2Proof/Laws/State.lean ====
section
/-!
SUPPORT. One lemma per field and update of State: what an update leaves alone.
-/

namespace Sys2Proof.Machine

/-! ## updWarp -/

@[simp] theorem State.updWarp_time (s : State) (w : Nat) (f : Warp → Warp) : (s.updWarp w f).time = s.time := rfl
@[simp] theorem State.updWarp_resetAt (s : State) (w : Nat) (f : Warp → Warp) : (s.updWarp w f).resetAt = s.resetAt := rfl
@[simp] theorem State.updWarp_moves (s : State) (w : Nat) (f : Warp → Warp) : (s.updWarp w f).moves = s.moves := rfl
@[simp] theorem State.updWarp_turn (s : State) (w : Nat) (f : Warp → Warp) : (s.updWarp w f).turn = s.turn := rfl
@[simp] theorem State.updWarp_cur (s : State) (w : Nat) (f : Warp → Warp) : (s.updWarp w f).cur = s.cur := rfl
@[simp] theorem State.updWarp_fresh (s : State) (w : Nat) (f : Warp → Warp) : (s.updWarp w f).fresh = s.fresh := rfl
@[simp] theorem State.updWarp_nextId (s : State) (w : Nat) (f : Warp → Warp) : (s.updWarp w f).nextId = s.nextId := rfl
@[simp] theorem State.updWarp_outbox (s : State) (w : Nat) (f : Warp → Warp) : (s.updWarp w f).outbox = s.outbox := rfl
@[simp] theorem State.updWarp_mem (s : State) (w : Nat) (f : Warp → Warp) : (s.updWarp w f).mem = s.mem := rfl
@[simp] theorem State.updWarp_viewKey (s : State) (w : Nat) (f : Warp → Warp) : (s.updWarp w f).viewKey = s.viewKey := rfl
@[simp] theorem State.updWarp_poison (s : State) (w : Nat) (f : Warp → Warp) : (s.updWarp w f).poison = s.poison := rfl
@[simp] theorem State.updWarp_homes (s : State) (w : Nat) (f : Warp → Warp) : (s.updWarp w f).homes = s.homes := rfl
@[simp] theorem State.updWarp_l2 (s : State) (w : Nat) (f : Warp → Warp) : (s.updWarp w f).l2 = s.l2 := rfl
@[simp] theorem State.updWarp_hostL2 (s : State) (w : Nat) (f : Warp → Warp) : (s.updWarp w f).hostL2 = s.hostL2 := rfl
@[simp] theorem State.updWarp_hwLines (s : State) (w : Nat) (f : Warp → Warp) : (s.updWarp w f).hwLines = s.hwLines := rfl
@[simp] theorem State.updWarp_hclk (s : State) (w : Nat) (f : Warp → Warp) : (s.updWarp w f).hclk = s.hclk := rfl
@[simp] theorem State.updWarp_floor (s : State) (w : Nat) (f : Warp → Warp) : (s.updWarp w f).floor = s.floor := rfl
@[simp] theorem State.updWarp_floorN (s : State) (w : Nat) (f : Warp → Warp) : (s.updWarp w f).floorN = s.floorN := rfl
@[simp] theorem State.updWarp_reqs (s : State) (w : Nat) (f : Warp → Warp) : (s.updWarp w f).reqs = s.reqs := rfl
@[simp] theorem State.updWarp_replies (s : State) (w : Nat) (f : Warp → Warp) : (s.updWarp w f).replies = s.replies := rfl
@[simp] theorem State.updWarp_cores (s : State) (w : Nat) (f : Warp → Warp) : (s.updWarp w f).cores = s.cores := rfl
@[simp] theorem State.updWarp_teams (s : State) (w : Nat) (f : Warp → Warp) : (s.updWarp w f).teams = s.teams := rfl
@[simp] theorem State.updWarp_cmds (s : State) (w : Nat) (f : Warp → Warp) : (s.updWarp w f).cmds = s.cmds := rfl
@[simp] theorem State.updWarp_l2tlb (s : State) (w : Nat) (f : Warp → Warp) : (s.updWarp w f).l2tlb = s.l2tlb := rfl
@[simp] theorem State.updWarp_walkc (s : State) (w : Nat) (f : Warp → Warp) : (s.updWarp w f).walkc = s.walkc := rfl
@[simp] theorem State.updWarp_walks (s : State) (w : Nat) (f : Warp → Warp) : (s.updWarp w f).walks = s.walks := rfl
@[simp] theorem State.updWarp_faults (s : State) (w : Nat) (f : Warp → Warp) : (s.updWarp w f).faults = s.faults := rfl
@[simp] theorem State.updWarp_pris (s : State) (w : Nat) (f : Warp → Warp) : (s.updWarp w f).pris = s.pris := rfl
@[simp] theorem State.updWarp_asidcfg (s : State) (w : Nat) (f : Warp → Warp) : (s.updWarp w f).asidcfg = s.asidcfg := rfl
@[simp] theorem State.updWarp_peercfg (s : State) (w : Nat) (f : Warp → Warp) : (s.updWarp w f).peercfg = s.peercfg := rfl
@[simp] theorem State.updWarp_tlbinv0 (s : State) (w : Nat) (f : Warp → Warp) : (s.updWarp w f).tlbinv0 = s.tlbinv0 := rfl
@[simp] theorem State.updWarp_tlbIssued (s : State) (w : Nat) (f : Warp → Warp) : (s.updWarp w f).tlbIssued = s.tlbIssued := rfl
@[simp] theorem State.updWarp_tlbDone (s : State) (w : Nat) (f : Warp → Warp) : (s.updWarp w f).tlbDone = s.tlbDone := rfl
@[simp] theorem State.updWarp_invals (s : State) (w : Nat) (f : Warp → Warp) : (s.updWarp w f).invals = s.invals := rfl
@[simp] theorem State.updWarp_queues (s : State) (w : Nat) (f : Warp → Warp) : (s.updWarp w f).queues = s.queues := rfl
@[simp] theorem State.updWarp_grids (s : State) (w : Nat) (f : Warp → Warp) : (s.updWarp w f).grids = s.grids := rfl
@[simp] theorem State.updWarp_launchSeq (s : State) (w : Nat) (f : Warp → Warp) : (s.updWarp w f).launchSeq = s.launchSeq := rfl
@[simp] theorem State.updWarp_orderN (s : State) (w : Nat) (f : Warp → Warp) : (s.updWarp w f).orderN = s.orderN := rfl
@[simp] theorem State.updWarp_ageN (s : State) (w : Nat) (f : Warp → Warp) : (s.updWarp w f).ageN = s.ageN := rfl
@[simp] theorem State.updWarp_curPart (s : State) (w : Nat) (f : Warp → Warp) : (s.updWarp w f).curPart = s.curPart := rfl
@[simp] theorem State.updWarp_credit (s : State) (w : Nat) (f : Warp → Warp) : (s.updWarp w f).credit = s.credit := rfl
@[simp] theorem State.updWarp_decisions (s : State) (w : Nat) (f : Warp → Warp) : (s.updWarp w f).decisions = s.decisions := rfl
@[simp] theorem State.updWarp_lastPlace (s : State) (w : Nat) (f : Warp → Warp) : (s.updWarp w f).lastPlace = s.lastPlace := rfl
@[simp] theorem State.updWarp_pressure (s : State) (w : Nat) (f : Warp → Warp) : (s.updWarp w f).pressure = s.pressure := rfl
@[simp] theorem State.updWarp_units (s : State) (w : Nat) (f : Warp → Warp) : (s.updWarp w f).units = s.units := rfl
@[simp] theorem State.updWarp_farClock (s : State) (w : Nat) (f : Warp → Warp) : (s.updWarp w f).farClock = s.farClock := rfl
@[simp] theorem State.updWarp_ownLate (s : State) (w : Nat) (f : Warp → Warp) : (s.updWarp w f).ownLate = s.ownLate := rfl
@[simp] theorem State.updWarp_parts (s : State) (w : Nat) (f : Warp → Warp) : (s.updWarp w f).parts = s.parts := rfl
@[simp] theorem State.updWarp_keySlot (s : State) (w : Nat) (f : Warp → Warp) : (s.updWarp w f).keySlot = s.keySlot := rfl
@[simp] theorem State.updWarp_keyBusy (s : State) (w : Nat) (f : Warp → Warp) : (s.updWarp w f).keyBusy = s.keyBusy := rfl
@[simp] theorem State.updWarp_keyValid (s : State) (w : Nat) (f : Warp → Warp) : (s.updWarp w f).keyValid = s.keyValid := rfl
@[simp] theorem State.updWarp_keyData (s : State) (w : Nat) (f : Warp → Warp) : (s.updWarp w f).keyData = s.keyData := rfl
@[simp] theorem State.updWarp_keys (s : State) (w : Nat) (f : Warp → Warp) : (s.updWarp w f).keys = s.keys := rfl
@[simp] theorem State.updWarp_ports (s : State) (w : Nat) (f : Warp → Warp) : (s.updWarp w f).ports = s.ports := rfl
@[simp] theorem State.updWarp_boardw (s : State) (w : Nat) (f : Warp → Warp) : (s.updWarp w f).boardw = s.boardw := rfl
@[simp] theorem State.updWarp_hallSeq (s : State) (w : Nat) (f : Warp → Warp) : (s.updWarp w f).hallSeq = s.hallSeq := rfl
@[simp] theorem State.updWarp_hallShort (s : State) (w : Nat) (f : Warp → Warp) : (s.updWarp w f).hallShort = s.hallShort := rfl
@[simp] theorem State.updWarp_hallRejects (s : State) (w : Nat) (f : Warp → Warp) : (s.updWarp w f).hallRejects = s.hallRejects := rfl
@[simp] theorem State.updWarp_boardTime (s : State) (w : Nat) (f : Warp → Warp) : (s.updWarp w f).boardTime = s.boardTime := rfl
@[simp] theorem State.updWarp_levelTime (s : State) (w : Nat) (f : Warp → Warp) : (s.updWarp w f).levelTime = s.levelTime := rfl
@[simp] theorem State.updWarp_links (s : State) (w : Nat) (f : Warp → Warp) : (s.updWarp w f).links = s.links := rfl
@[simp] theorem State.updWarp_belcy (s : State) (w : Nat) (f : Warp → Warp) : (s.updWarp w f).belcy = s.belcy := rfl
@[simp] theorem State.updWarp_routes (s : State) (w : Nat) (f : Warp → Warp) : (s.updWarp w f).routes = s.routes := rfl
@[simp] theorem State.updWarp_chipcfg (s : State) (w : Nat) (f : Warp → Warp) : (s.updWarp w f).chipcfg = s.chipcfg := rfl
@[simp] theorem State.updWarp_remotes (s : State) (w : Nat) (f : Warp → Warp) : (s.updWarp w f).remotes = s.remotes := rfl
@[simp] theorem State.updWarp_sent (s : State) (w : Nat) (f : Warp → Warp) : (s.updWarp w f).sent = s.sent := rfl
@[simp] theorem State.updWarp_heldFlits (s : State) (w : Nat) (f : Warp → Warp) : (s.updWarp w f).heldFlits = s.heldFlits := rfl
@[simp] theorem State.updWarp_peerOut (s : State) (w : Nat) (f : Warp → Warp) : (s.updWarp w f).peerOut = s.peerOut := rfl
@[simp] theorem State.updWarp_peerIn (s : State) (w : Nat) (f : Warp → Warp) : (s.updWarp w f).peerIn = s.peerIn := rfl
@[simp] theorem State.updWarp_hostTxns (s : State) (w : Nat) (f : Warp → Warp) : (s.updWarp w f).hostTxns = s.hostTxns := rfl
@[simp] theorem State.updWarp_window (s : State) (w : Nat) (f : Warp → Warp) : (s.updWarp w f).window = s.window := rfl
@[simp] theorem State.updWarp_dbgbase (s : State) (w : Nat) (f : Warp → Warp) : (s.updWarp w f).dbgbase = s.dbgbase := rfl
@[simp] theorem State.updWarp_dbgctx (s : State) (w : Nat) (f : Warp → Warp) : (s.updWarp w f).dbgctx = s.dbgctx := rfl
@[simp] theorem State.updWarp_dbgrun (s : State) (w : Nat) (f : Warp → Warp) : (s.updWarp w f).dbgrun = s.dbgrun := rfl
@[simp] theorem State.updWarp_dbgPoll (s : State) (w : Nat) (f : Warp → Warp) : (s.updWarp w f).dbgPoll = s.dbgPoll := rfl
@[simp] theorem State.updWarp_dbgLog (s : State) (w : Nat) (f : Warp → Warp) : (s.updWarp w f).dbgLog = s.dbgLog := rfl
@[simp] theorem State.updWarp_trcfg (s : State) (w : Nat) (f : Warp → Warp) : (s.updWarp w f).trcfg = s.trcfg := rfl
@[simp] theorem State.updWarp_trcfgWas (s : State) (w : Nat) (f : Warp → Warp) : (s.updWarp w f).trcfgWas = s.trcfgWas := rfl
@[simp] theorem State.updWarp_trseq (s : State) (w : Nat) (f : Warp → Warp) : (s.updWarp w f).trseq = s.trseq := rfl
@[simp] theorem State.updWarp_trthresh (s : State) (w : Nat) (f : Warp → Warp) : (s.updWarp w f).trthresh = s.trthresh := rfl
@[simp] theorem State.updWarp_stations (s : State) (w : Nat) (f : Warp → Warp) : (s.updWarp w f).stations = s.stations := rfl
@[simp] theorem State.updWarp_featcfg (s : State) (w : Nat) (f : Warp → Warp) : (s.updWarp w f).featcfg = s.featcfg := rfl
@[simp] theorem State.updWarp_retcfg (s : State) (w : Nat) (f : Warp → Warp) : (s.updWarp w f).retcfg = s.retcfg := rfl
@[simp] theorem State.updWarp_svcs (s : State) (w : Nat) (f : Warp → Warp) : (s.updWarp w f).svcs = s.svcs := rfl
@[simp] theorem State.updWarp_deferred (s : State) (w : Nat) (f : Warp → Warp) : (s.updWarp w f).deferred = s.deferred := rfl
@[simp] theorem State.updWarp_pkg (s : State) (w : Nat) (f : Warp → Warp) : (s.updWarp w f).pkg = s.pkg := rfl
@[simp] theorem State.updWarp_powerSeq (s : State) (w : Nat) (f : Warp → Warp) : (s.updWarp w f).powerSeq = s.powerSeq := rfl
@[simp] theorem State.updWarp_powerAt (s : State) (w : Nat) (f : Warp → Warp) : (s.updWarp w f).powerAt = s.powerAt := rfl
@[simp] theorem State.updWarp_vudor (s : State) (w : Nat) (f : Warp → Warp) : (s.updWarp w f).vudor = s.vudor := rfl

/-! ## updTeam -/

@[simp] theorem State.updTeam_time (s : State) (t : Nat) (f : Team → Team) : (s.updTeam t f).time = s.time := rfl
@[simp] theorem State.updTeam_resetAt (s : State) (t : Nat) (f : Team → Team) : (s.updTeam t f).resetAt = s.resetAt := rfl
@[simp] theorem State.updTeam_moves (s : State) (t : Nat) (f : Team → Team) : (s.updTeam t f).moves = s.moves := rfl
@[simp] theorem State.updTeam_turn (s : State) (t : Nat) (f : Team → Team) : (s.updTeam t f).turn = s.turn := rfl
@[simp] theorem State.updTeam_cur (s : State) (t : Nat) (f : Team → Team) : (s.updTeam t f).cur = s.cur := rfl
@[simp] theorem State.updTeam_fresh (s : State) (t : Nat) (f : Team → Team) : (s.updTeam t f).fresh = s.fresh := rfl
@[simp] theorem State.updTeam_nextId (s : State) (t : Nat) (f : Team → Team) : (s.updTeam t f).nextId = s.nextId := rfl
@[simp] theorem State.updTeam_outbox (s : State) (t : Nat) (f : Team → Team) : (s.updTeam t f).outbox = s.outbox := rfl
@[simp] theorem State.updTeam_mem (s : State) (t : Nat) (f : Team → Team) : (s.updTeam t f).mem = s.mem := rfl
@[simp] theorem State.updTeam_viewKey (s : State) (t : Nat) (f : Team → Team) : (s.updTeam t f).viewKey = s.viewKey := rfl
@[simp] theorem State.updTeam_poison (s : State) (t : Nat) (f : Team → Team) : (s.updTeam t f).poison = s.poison := rfl
@[simp] theorem State.updTeam_homes (s : State) (t : Nat) (f : Team → Team) : (s.updTeam t f).homes = s.homes := rfl
@[simp] theorem State.updTeam_l2 (s : State) (t : Nat) (f : Team → Team) : (s.updTeam t f).l2 = s.l2 := rfl
@[simp] theorem State.updTeam_hostL2 (s : State) (t : Nat) (f : Team → Team) : (s.updTeam t f).hostL2 = s.hostL2 := rfl
@[simp] theorem State.updTeam_hwLines (s : State) (t : Nat) (f : Team → Team) : (s.updTeam t f).hwLines = s.hwLines := rfl
@[simp] theorem State.updTeam_hclk (s : State) (t : Nat) (f : Team → Team) : (s.updTeam t f).hclk = s.hclk := rfl
@[simp] theorem State.updTeam_floor (s : State) (t : Nat) (f : Team → Team) : (s.updTeam t f).floor = s.floor := rfl
@[simp] theorem State.updTeam_floorN (s : State) (t : Nat) (f : Team → Team) : (s.updTeam t f).floorN = s.floorN := rfl
@[simp] theorem State.updTeam_reqs (s : State) (t : Nat) (f : Team → Team) : (s.updTeam t f).reqs = s.reqs := rfl
@[simp] theorem State.updTeam_replies (s : State) (t : Nat) (f : Team → Team) : (s.updTeam t f).replies = s.replies := rfl
@[simp] theorem State.updTeam_cores (s : State) (t : Nat) (f : Team → Team) : (s.updTeam t f).cores = s.cores := rfl
@[simp] theorem State.updTeam_warps (s : State) (t : Nat) (f : Team → Team) : (s.updTeam t f).warps = s.warps := rfl
@[simp] theorem State.updTeam_cmds (s : State) (t : Nat) (f : Team → Team) : (s.updTeam t f).cmds = s.cmds := rfl
@[simp] theorem State.updTeam_l2tlb (s : State) (t : Nat) (f : Team → Team) : (s.updTeam t f).l2tlb = s.l2tlb := rfl
@[simp] theorem State.updTeam_walkc (s : State) (t : Nat) (f : Team → Team) : (s.updTeam t f).walkc = s.walkc := rfl
@[simp] theorem State.updTeam_walks (s : State) (t : Nat) (f : Team → Team) : (s.updTeam t f).walks = s.walks := rfl
@[simp] theorem State.updTeam_faults (s : State) (t : Nat) (f : Team → Team) : (s.updTeam t f).faults = s.faults := rfl
@[simp] theorem State.updTeam_pris (s : State) (t : Nat) (f : Team → Team) : (s.updTeam t f).pris = s.pris := rfl
@[simp] theorem State.updTeam_asidcfg (s : State) (t : Nat) (f : Team → Team) : (s.updTeam t f).asidcfg = s.asidcfg := rfl
@[simp] theorem State.updTeam_peercfg (s : State) (t : Nat) (f : Team → Team) : (s.updTeam t f).peercfg = s.peercfg := rfl
@[simp] theorem State.updTeam_tlbinv0 (s : State) (t : Nat) (f : Team → Team) : (s.updTeam t f).tlbinv0 = s.tlbinv0 := rfl
@[simp] theorem State.updTeam_tlbIssued (s : State) (t : Nat) (f : Team → Team) : (s.updTeam t f).tlbIssued = s.tlbIssued := rfl
@[simp] theorem State.updTeam_tlbDone (s : State) (t : Nat) (f : Team → Team) : (s.updTeam t f).tlbDone = s.tlbDone := rfl
@[simp] theorem State.updTeam_invals (s : State) (t : Nat) (f : Team → Team) : (s.updTeam t f).invals = s.invals := rfl
@[simp] theorem State.updTeam_queues (s : State) (t : Nat) (f : Team → Team) : (s.updTeam t f).queues = s.queues := rfl
@[simp] theorem State.updTeam_grids (s : State) (t : Nat) (f : Team → Team) : (s.updTeam t f).grids = s.grids := rfl
@[simp] theorem State.updTeam_launchSeq (s : State) (t : Nat) (f : Team → Team) : (s.updTeam t f).launchSeq = s.launchSeq := rfl
@[simp] theorem State.updTeam_orderN (s : State) (t : Nat) (f : Team → Team) : (s.updTeam t f).orderN = s.orderN := rfl
@[simp] theorem State.updTeam_ageN (s : State) (t : Nat) (f : Team → Team) : (s.updTeam t f).ageN = s.ageN := rfl
@[simp] theorem State.updTeam_curPart (s : State) (t : Nat) (f : Team → Team) : (s.updTeam t f).curPart = s.curPart := rfl
@[simp] theorem State.updTeam_credit (s : State) (t : Nat) (f : Team → Team) : (s.updTeam t f).credit = s.credit := rfl
@[simp] theorem State.updTeam_decisions (s : State) (t : Nat) (f : Team → Team) : (s.updTeam t f).decisions = s.decisions := rfl
@[simp] theorem State.updTeam_lastPlace (s : State) (t : Nat) (f : Team → Team) : (s.updTeam t f).lastPlace = s.lastPlace := rfl
@[simp] theorem State.updTeam_pressure (s : State) (t : Nat) (f : Team → Team) : (s.updTeam t f).pressure = s.pressure := rfl
@[simp] theorem State.updTeam_units (s : State) (t : Nat) (f : Team → Team) : (s.updTeam t f).units = s.units := rfl
@[simp] theorem State.updTeam_farClock (s : State) (t : Nat) (f : Team → Team) : (s.updTeam t f).farClock = s.farClock := rfl
@[simp] theorem State.updTeam_ownLate (s : State) (t : Nat) (f : Team → Team) : (s.updTeam t f).ownLate = s.ownLate := rfl
@[simp] theorem State.updTeam_parts (s : State) (t : Nat) (f : Team → Team) : (s.updTeam t f).parts = s.parts := rfl
@[simp] theorem State.updTeam_keySlot (s : State) (t : Nat) (f : Team → Team) : (s.updTeam t f).keySlot = s.keySlot := rfl
@[simp] theorem State.updTeam_keyBusy (s : State) (t : Nat) (f : Team → Team) : (s.updTeam t f).keyBusy = s.keyBusy := rfl
@[simp] theorem State.updTeam_keyValid (s : State) (t : Nat) (f : Team → Team) : (s.updTeam t f).keyValid = s.keyValid := rfl
@[simp] theorem State.updTeam_keyData (s : State) (t : Nat) (f : Team → Team) : (s.updTeam t f).keyData = s.keyData := rfl
@[simp] theorem State.updTeam_keys (s : State) (t : Nat) (f : Team → Team) : (s.updTeam t f).keys = s.keys := rfl
@[simp] theorem State.updTeam_ports (s : State) (t : Nat) (f : Team → Team) : (s.updTeam t f).ports = s.ports := rfl
@[simp] theorem State.updTeam_boardw (s : State) (t : Nat) (f : Team → Team) : (s.updTeam t f).boardw = s.boardw := rfl
@[simp] theorem State.updTeam_hallSeq (s : State) (t : Nat) (f : Team → Team) : (s.updTeam t f).hallSeq = s.hallSeq := rfl
@[simp] theorem State.updTeam_hallShort (s : State) (t : Nat) (f : Team → Team) : (s.updTeam t f).hallShort = s.hallShort := rfl
@[simp] theorem State.updTeam_hallRejects (s : State) (t : Nat) (f : Team → Team) : (s.updTeam t f).hallRejects = s.hallRejects := rfl
@[simp] theorem State.updTeam_boardTime (s : State) (t : Nat) (f : Team → Team) : (s.updTeam t f).boardTime = s.boardTime := rfl
@[simp] theorem State.updTeam_levelTime (s : State) (t : Nat) (f : Team → Team) : (s.updTeam t f).levelTime = s.levelTime := rfl
@[simp] theorem State.updTeam_links (s : State) (t : Nat) (f : Team → Team) : (s.updTeam t f).links = s.links := rfl
@[simp] theorem State.updTeam_belcy (s : State) (t : Nat) (f : Team → Team) : (s.updTeam t f).belcy = s.belcy := rfl
@[simp] theorem State.updTeam_routes (s : State) (t : Nat) (f : Team → Team) : (s.updTeam t f).routes = s.routes := rfl
@[simp] theorem State.updTeam_chipcfg (s : State) (t : Nat) (f : Team → Team) : (s.updTeam t f).chipcfg = s.chipcfg := rfl
@[simp] theorem State.updTeam_remotes (s : State) (t : Nat) (f : Team → Team) : (s.updTeam t f).remotes = s.remotes := rfl
@[simp] theorem State.updTeam_sent (s : State) (t : Nat) (f : Team → Team) : (s.updTeam t f).sent = s.sent := rfl
@[simp] theorem State.updTeam_heldFlits (s : State) (t : Nat) (f : Team → Team) : (s.updTeam t f).heldFlits = s.heldFlits := rfl
@[simp] theorem State.updTeam_peerOut (s : State) (t : Nat) (f : Team → Team) : (s.updTeam t f).peerOut = s.peerOut := rfl
@[simp] theorem State.updTeam_peerIn (s : State) (t : Nat) (f : Team → Team) : (s.updTeam t f).peerIn = s.peerIn := rfl
@[simp] theorem State.updTeam_hostTxns (s : State) (t : Nat) (f : Team → Team) : (s.updTeam t f).hostTxns = s.hostTxns := rfl
@[simp] theorem State.updTeam_window (s : State) (t : Nat) (f : Team → Team) : (s.updTeam t f).window = s.window := rfl
@[simp] theorem State.updTeam_dbgbase (s : State) (t : Nat) (f : Team → Team) : (s.updTeam t f).dbgbase = s.dbgbase := rfl
@[simp] theorem State.updTeam_dbgctx (s : State) (t : Nat) (f : Team → Team) : (s.updTeam t f).dbgctx = s.dbgctx := rfl
@[simp] theorem State.updTeam_dbgrun (s : State) (t : Nat) (f : Team → Team) : (s.updTeam t f).dbgrun = s.dbgrun := rfl
@[simp] theorem State.updTeam_dbgPoll (s : State) (t : Nat) (f : Team → Team) : (s.updTeam t f).dbgPoll = s.dbgPoll := rfl
@[simp] theorem State.updTeam_dbgLog (s : State) (t : Nat) (f : Team → Team) : (s.updTeam t f).dbgLog = s.dbgLog := rfl
@[simp] theorem State.updTeam_trcfg (s : State) (t : Nat) (f : Team → Team) : (s.updTeam t f).trcfg = s.trcfg := rfl
@[simp] theorem State.updTeam_trcfgWas (s : State) (t : Nat) (f : Team → Team) : (s.updTeam t f).trcfgWas = s.trcfgWas := rfl
@[simp] theorem State.updTeam_trseq (s : State) (t : Nat) (f : Team → Team) : (s.updTeam t f).trseq = s.trseq := rfl
@[simp] theorem State.updTeam_trthresh (s : State) (t : Nat) (f : Team → Team) : (s.updTeam t f).trthresh = s.trthresh := rfl
@[simp] theorem State.updTeam_stations (s : State) (t : Nat) (f : Team → Team) : (s.updTeam t f).stations = s.stations := rfl
@[simp] theorem State.updTeam_featcfg (s : State) (t : Nat) (f : Team → Team) : (s.updTeam t f).featcfg = s.featcfg := rfl
@[simp] theorem State.updTeam_retcfg (s : State) (t : Nat) (f : Team → Team) : (s.updTeam t f).retcfg = s.retcfg := rfl
@[simp] theorem State.updTeam_svcs (s : State) (t : Nat) (f : Team → Team) : (s.updTeam t f).svcs = s.svcs := rfl
@[simp] theorem State.updTeam_deferred (s : State) (t : Nat) (f : Team → Team) : (s.updTeam t f).deferred = s.deferred := rfl
@[simp] theorem State.updTeam_pkg (s : State) (t : Nat) (f : Team → Team) : (s.updTeam t f).pkg = s.pkg := rfl
@[simp] theorem State.updTeam_powerSeq (s : State) (t : Nat) (f : Team → Team) : (s.updTeam t f).powerSeq = s.powerSeq := rfl
@[simp] theorem State.updTeam_powerAt (s : State) (t : Nat) (f : Team → Team) : (s.updTeam t f).powerAt = s.powerAt := rfl
@[simp] theorem State.updTeam_vudor (s : State) (t : Nat) (f : Team → Team) : (s.updTeam t f).vudor = s.vudor := rfl

/-! ## updGrid -/

@[simp] theorem State.updGrid_time (s : State) (e : Nat) (f : Grid → Grid) : (s.updGrid e f).time = s.time := rfl
@[simp] theorem State.updGrid_resetAt (s : State) (e : Nat) (f : Grid → Grid) : (s.updGrid e f).resetAt = s.resetAt := rfl
@[simp] theorem State.updGrid_moves (s : State) (e : Nat) (f : Grid → Grid) : (s.updGrid e f).moves = s.moves := rfl
@[simp] theorem State.updGrid_turn (s : State) (e : Nat) (f : Grid → Grid) : (s.updGrid e f).turn = s.turn := rfl
@[simp] theorem State.updGrid_cur (s : State) (e : Nat) (f : Grid → Grid) : (s.updGrid e f).cur = s.cur := rfl
@[simp] theorem State.updGrid_fresh (s : State) (e : Nat) (f : Grid → Grid) : (s.updGrid e f).fresh = s.fresh := rfl
@[simp] theorem State.updGrid_nextId (s : State) (e : Nat) (f : Grid → Grid) : (s.updGrid e f).nextId = s.nextId := rfl
@[simp] theorem State.updGrid_outbox (s : State) (e : Nat) (f : Grid → Grid) : (s.updGrid e f).outbox = s.outbox := rfl
@[simp] theorem State.updGrid_mem (s : State) (e : Nat) (f : Grid → Grid) : (s.updGrid e f).mem = s.mem := rfl
@[simp] theorem State.updGrid_viewKey (s : State) (e : Nat) (f : Grid → Grid) : (s.updGrid e f).viewKey = s.viewKey := rfl
@[simp] theorem State.updGrid_poison (s : State) (e : Nat) (f : Grid → Grid) : (s.updGrid e f).poison = s.poison := rfl
@[simp] theorem State.updGrid_homes (s : State) (e : Nat) (f : Grid → Grid) : (s.updGrid e f).homes = s.homes := rfl
@[simp] theorem State.updGrid_l2 (s : State) (e : Nat) (f : Grid → Grid) : (s.updGrid e f).l2 = s.l2 := rfl
@[simp] theorem State.updGrid_hostL2 (s : State) (e : Nat) (f : Grid → Grid) : (s.updGrid e f).hostL2 = s.hostL2 := rfl
@[simp] theorem State.updGrid_hwLines (s : State) (e : Nat) (f : Grid → Grid) : (s.updGrid e f).hwLines = s.hwLines := rfl
@[simp] theorem State.updGrid_hclk (s : State) (e : Nat) (f : Grid → Grid) : (s.updGrid e f).hclk = s.hclk := rfl
@[simp] theorem State.updGrid_floor (s : State) (e : Nat) (f : Grid → Grid) : (s.updGrid e f).floor = s.floor := rfl
@[simp] theorem State.updGrid_floorN (s : State) (e : Nat) (f : Grid → Grid) : (s.updGrid e f).floorN = s.floorN := rfl
@[simp] theorem State.updGrid_reqs (s : State) (e : Nat) (f : Grid → Grid) : (s.updGrid e f).reqs = s.reqs := rfl
@[simp] theorem State.updGrid_replies (s : State) (e : Nat) (f : Grid → Grid) : (s.updGrid e f).replies = s.replies := rfl
@[simp] theorem State.updGrid_cores (s : State) (e : Nat) (f : Grid → Grid) : (s.updGrid e f).cores = s.cores := rfl
@[simp] theorem State.updGrid_warps (s : State) (e : Nat) (f : Grid → Grid) : (s.updGrid e f).warps = s.warps := rfl
@[simp] theorem State.updGrid_teams (s : State) (e : Nat) (f : Grid → Grid) : (s.updGrid e f).teams = s.teams := rfl
@[simp] theorem State.updGrid_cmds (s : State) (e : Nat) (f : Grid → Grid) : (s.updGrid e f).cmds = s.cmds := rfl
@[simp] theorem State.updGrid_l2tlb (s : State) (e : Nat) (f : Grid → Grid) : (s.updGrid e f).l2tlb = s.l2tlb := rfl
@[simp] theorem State.updGrid_walkc (s : State) (e : Nat) (f : Grid → Grid) : (s.updGrid e f).walkc = s.walkc := rfl
@[simp] theorem State.updGrid_walks (s : State) (e : Nat) (f : Grid → Grid) : (s.updGrid e f).walks = s.walks := rfl
@[simp] theorem State.updGrid_faults (s : State) (e : Nat) (f : Grid → Grid) : (s.updGrid e f).faults = s.faults := rfl
@[simp] theorem State.updGrid_pris (s : State) (e : Nat) (f : Grid → Grid) : (s.updGrid e f).pris = s.pris := rfl
@[simp] theorem State.updGrid_asidcfg (s : State) (e : Nat) (f : Grid → Grid) : (s.updGrid e f).asidcfg = s.asidcfg := rfl
@[simp] theorem State.updGrid_peercfg (s : State) (e : Nat) (f : Grid → Grid) : (s.updGrid e f).peercfg = s.peercfg := rfl
@[simp] theorem State.updGrid_tlbinv0 (s : State) (e : Nat) (f : Grid → Grid) : (s.updGrid e f).tlbinv0 = s.tlbinv0 := rfl
@[simp] theorem State.updGrid_tlbIssued (s : State) (e : Nat) (f : Grid → Grid) : (s.updGrid e f).tlbIssued = s.tlbIssued := rfl
@[simp] theorem State.updGrid_tlbDone (s : State) (e : Nat) (f : Grid → Grid) : (s.updGrid e f).tlbDone = s.tlbDone := rfl
@[simp] theorem State.updGrid_invals (s : State) (e : Nat) (f : Grid → Grid) : (s.updGrid e f).invals = s.invals := rfl
@[simp] theorem State.updGrid_queues (s : State) (e : Nat) (f : Grid → Grid) : (s.updGrid e f).queues = s.queues := rfl
@[simp] theorem State.updGrid_launchSeq (s : State) (e : Nat) (f : Grid → Grid) : (s.updGrid e f).launchSeq = s.launchSeq := rfl
@[simp] theorem State.updGrid_orderN (s : State) (e : Nat) (f : Grid → Grid) : (s.updGrid e f).orderN = s.orderN := rfl
@[simp] theorem State.updGrid_ageN (s : State) (e : Nat) (f : Grid → Grid) : (s.updGrid e f).ageN = s.ageN := rfl
@[simp] theorem State.updGrid_curPart (s : State) (e : Nat) (f : Grid → Grid) : (s.updGrid e f).curPart = s.curPart := rfl
@[simp] theorem State.updGrid_credit (s : State) (e : Nat) (f : Grid → Grid) : (s.updGrid e f).credit = s.credit := rfl
@[simp] theorem State.updGrid_decisions (s : State) (e : Nat) (f : Grid → Grid) : (s.updGrid e f).decisions = s.decisions := rfl
@[simp] theorem State.updGrid_lastPlace (s : State) (e : Nat) (f : Grid → Grid) : (s.updGrid e f).lastPlace = s.lastPlace := rfl
@[simp] theorem State.updGrid_pressure (s : State) (e : Nat) (f : Grid → Grid) : (s.updGrid e f).pressure = s.pressure := rfl
@[simp] theorem State.updGrid_units (s : State) (e : Nat) (f : Grid → Grid) : (s.updGrid e f).units = s.units := rfl
@[simp] theorem State.updGrid_farClock (s : State) (e : Nat) (f : Grid → Grid) : (s.updGrid e f).farClock = s.farClock := rfl
@[simp] theorem State.updGrid_ownLate (s : State) (e : Nat) (f : Grid → Grid) : (s.updGrid e f).ownLate = s.ownLate := rfl
@[simp] theorem State.updGrid_parts (s : State) (e : Nat) (f : Grid → Grid) : (s.updGrid e f).parts = s.parts := rfl
@[simp] theorem State.updGrid_keySlot (s : State) (e : Nat) (f : Grid → Grid) : (s.updGrid e f).keySlot = s.keySlot := rfl
@[simp] theorem State.updGrid_keyBusy (s : State) (e : Nat) (f : Grid → Grid) : (s.updGrid e f).keyBusy = s.keyBusy := rfl
@[simp] theorem State.updGrid_keyValid (s : State) (e : Nat) (f : Grid → Grid) : (s.updGrid e f).keyValid = s.keyValid := rfl
@[simp] theorem State.updGrid_keyData (s : State) (e : Nat) (f : Grid → Grid) : (s.updGrid e f).keyData = s.keyData := rfl
@[simp] theorem State.updGrid_keys (s : State) (e : Nat) (f : Grid → Grid) : (s.updGrid e f).keys = s.keys := rfl
@[simp] theorem State.updGrid_ports (s : State) (e : Nat) (f : Grid → Grid) : (s.updGrid e f).ports = s.ports := rfl
@[simp] theorem State.updGrid_boardw (s : State) (e : Nat) (f : Grid → Grid) : (s.updGrid e f).boardw = s.boardw := rfl
@[simp] theorem State.updGrid_hallSeq (s : State) (e : Nat) (f : Grid → Grid) : (s.updGrid e f).hallSeq = s.hallSeq := rfl
@[simp] theorem State.updGrid_hallShort (s : State) (e : Nat) (f : Grid → Grid) : (s.updGrid e f).hallShort = s.hallShort := rfl
@[simp] theorem State.updGrid_hallRejects (s : State) (e : Nat) (f : Grid → Grid) : (s.updGrid e f).hallRejects = s.hallRejects := rfl
@[simp] theorem State.updGrid_boardTime (s : State) (e : Nat) (f : Grid → Grid) : (s.updGrid e f).boardTime = s.boardTime := rfl
@[simp] theorem State.updGrid_levelTime (s : State) (e : Nat) (f : Grid → Grid) : (s.updGrid e f).levelTime = s.levelTime := rfl
@[simp] theorem State.updGrid_links (s : State) (e : Nat) (f : Grid → Grid) : (s.updGrid e f).links = s.links := rfl
@[simp] theorem State.updGrid_belcy (s : State) (e : Nat) (f : Grid → Grid) : (s.updGrid e f).belcy = s.belcy := rfl
@[simp] theorem State.updGrid_routes (s : State) (e : Nat) (f : Grid → Grid) : (s.updGrid e f).routes = s.routes := rfl
@[simp] theorem State.updGrid_chipcfg (s : State) (e : Nat) (f : Grid → Grid) : (s.updGrid e f).chipcfg = s.chipcfg := rfl
@[simp] theorem State.updGrid_remotes (s : State) (e : Nat) (f : Grid → Grid) : (s.updGrid e f).remotes = s.remotes := rfl
@[simp] theorem State.updGrid_sent (s : State) (e : Nat) (f : Grid → Grid) : (s.updGrid e f).sent = s.sent := rfl
@[simp] theorem State.updGrid_heldFlits (s : State) (e : Nat) (f : Grid → Grid) : (s.updGrid e f).heldFlits = s.heldFlits := rfl
@[simp] theorem State.updGrid_peerOut (s : State) (e : Nat) (f : Grid → Grid) : (s.updGrid e f).peerOut = s.peerOut := rfl
@[simp] theorem State.updGrid_peerIn (s : State) (e : Nat) (f : Grid → Grid) : (s.updGrid e f).peerIn = s.peerIn := rfl
@[simp] theorem State.updGrid_hostTxns (s : State) (e : Nat) (f : Grid → Grid) : (s.updGrid e f).hostTxns = s.hostTxns := rfl
@[simp] theorem State.updGrid_window (s : State) (e : Nat) (f : Grid → Grid) : (s.updGrid e f).window = s.window := rfl
@[simp] theorem State.updGrid_dbgbase (s : State) (e : Nat) (f : Grid → Grid) : (s.updGrid e f).dbgbase = s.dbgbase := rfl
@[simp] theorem State.updGrid_dbgctx (s : State) (e : Nat) (f : Grid → Grid) : (s.updGrid e f).dbgctx = s.dbgctx := rfl
@[simp] theorem State.updGrid_dbgrun (s : State) (e : Nat) (f : Grid → Grid) : (s.updGrid e f).dbgrun = s.dbgrun := rfl
@[simp] theorem State.updGrid_dbgPoll (s : State) (e : Nat) (f : Grid → Grid) : (s.updGrid e f).dbgPoll = s.dbgPoll := rfl
@[simp] theorem State.updGrid_dbgLog (s : State) (e : Nat) (f : Grid → Grid) : (s.updGrid e f).dbgLog = s.dbgLog := rfl
@[simp] theorem State.updGrid_trcfg (s : State) (e : Nat) (f : Grid → Grid) : (s.updGrid e f).trcfg = s.trcfg := rfl
@[simp] theorem State.updGrid_trcfgWas (s : State) (e : Nat) (f : Grid → Grid) : (s.updGrid e f).trcfgWas = s.trcfgWas := rfl
@[simp] theorem State.updGrid_trseq (s : State) (e : Nat) (f : Grid → Grid) : (s.updGrid e f).trseq = s.trseq := rfl
@[simp] theorem State.updGrid_trthresh (s : State) (e : Nat) (f : Grid → Grid) : (s.updGrid e f).trthresh = s.trthresh := rfl
@[simp] theorem State.updGrid_stations (s : State) (e : Nat) (f : Grid → Grid) : (s.updGrid e f).stations = s.stations := rfl
@[simp] theorem State.updGrid_featcfg (s : State) (e : Nat) (f : Grid → Grid) : (s.updGrid e f).featcfg = s.featcfg := rfl
@[simp] theorem State.updGrid_retcfg (s : State) (e : Nat) (f : Grid → Grid) : (s.updGrid e f).retcfg = s.retcfg := rfl
@[simp] theorem State.updGrid_svcs (s : State) (e : Nat) (f : Grid → Grid) : (s.updGrid e f).svcs = s.svcs := rfl
@[simp] theorem State.updGrid_deferred (s : State) (e : Nat) (f : Grid → Grid) : (s.updGrid e f).deferred = s.deferred := rfl
@[simp] theorem State.updGrid_pkg (s : State) (e : Nat) (f : Grid → Grid) : (s.updGrid e f).pkg = s.pkg := rfl
@[simp] theorem State.updGrid_powerSeq (s : State) (e : Nat) (f : Grid → Grid) : (s.updGrid e f).powerSeq = s.powerSeq := rfl
@[simp] theorem State.updGrid_powerAt (s : State) (e : Nat) (f : Grid → Grid) : (s.updGrid e f).powerAt = s.powerAt := rfl
@[simp] theorem State.updGrid_vudor (s : State) (e : Nat) (f : Grid → Grid) : (s.updGrid e f).vudor = s.vudor := rfl

/-! ## setCore -/

@[simp] theorem State.setCore_time (s : State) (c : Nat) (x : Core) : (s.setCore c x).time = s.time := rfl
@[simp] theorem State.setCore_resetAt (s : State) (c : Nat) (x : Core) : (s.setCore c x).resetAt = s.resetAt := rfl
@[simp] theorem State.setCore_moves (s : State) (c : Nat) (x : Core) : (s.setCore c x).moves = s.moves := rfl
@[simp] theorem State.setCore_turn (s : State) (c : Nat) (x : Core) : (s.setCore c x).turn = s.turn := rfl
@[simp] theorem State.setCore_cur (s : State) (c : Nat) (x : Core) : (s.setCore c x).cur = s.cur := rfl
@[simp] theorem State.setCore_fresh (s : State) (c : Nat) (x : Core) : (s.setCore c x).fresh = s.fresh := rfl
@[simp] theorem State.setCore_nextId (s : State) (c : Nat) (x : Core) : (s.setCore c x).nextId = s.nextId := rfl
@[simp] theorem State.setCore_outbox (s : State) (c : Nat) (x : Core) : (s.setCore c x).outbox = s.outbox := rfl
@[simp] theorem State.setCore_mem (s : State) (c : Nat) (x : Core) : (s.setCore c x).mem = s.mem := rfl
@[simp] theorem State.setCore_viewKey (s : State) (c : Nat) (x : Core) : (s.setCore c x).viewKey = s.viewKey := rfl
@[simp] theorem State.setCore_poison (s : State) (c : Nat) (x : Core) : (s.setCore c x).poison = s.poison := rfl
@[simp] theorem State.setCore_homes (s : State) (c : Nat) (x : Core) : (s.setCore c x).homes = s.homes := rfl
@[simp] theorem State.setCore_l2 (s : State) (c : Nat) (x : Core) : (s.setCore c x).l2 = s.l2 := rfl
@[simp] theorem State.setCore_hostL2 (s : State) (c : Nat) (x : Core) : (s.setCore c x).hostL2 = s.hostL2 := rfl
@[simp] theorem State.setCore_hwLines (s : State) (c : Nat) (x : Core) : (s.setCore c x).hwLines = s.hwLines := rfl
@[simp] theorem State.setCore_hclk (s : State) (c : Nat) (x : Core) : (s.setCore c x).hclk = s.hclk := rfl
@[simp] theorem State.setCore_floor (s : State) (c : Nat) (x : Core) : (s.setCore c x).floor = s.floor := rfl
@[simp] theorem State.setCore_floorN (s : State) (c : Nat) (x : Core) : (s.setCore c x).floorN = s.floorN := rfl
@[simp] theorem State.setCore_reqs (s : State) (c : Nat) (x : Core) : (s.setCore c x).reqs = s.reqs := rfl
@[simp] theorem State.setCore_replies (s : State) (c : Nat) (x : Core) : (s.setCore c x).replies = s.replies := rfl
@[simp] theorem State.setCore_warps (s : State) (c : Nat) (x : Core) : (s.setCore c x).warps = s.warps := rfl
@[simp] theorem State.setCore_teams (s : State) (c : Nat) (x : Core) : (s.setCore c x).teams = s.teams := rfl
@[simp] theorem State.setCore_cmds (s : State) (c : Nat) (x : Core) : (s.setCore c x).cmds = s.cmds := rfl
@[simp] theorem State.setCore_l2tlb (s : State) (c : Nat) (x : Core) : (s.setCore c x).l2tlb = s.l2tlb := rfl
@[simp] theorem State.setCore_walkc (s : State) (c : Nat) (x : Core) : (s.setCore c x).walkc = s.walkc := rfl
@[simp] theorem State.setCore_walks (s : State) (c : Nat) (x : Core) : (s.setCore c x).walks = s.walks := rfl
@[simp] theorem State.setCore_faults (s : State) (c : Nat) (x : Core) : (s.setCore c x).faults = s.faults := rfl
@[simp] theorem State.setCore_pris (s : State) (c : Nat) (x : Core) : (s.setCore c x).pris = s.pris := rfl
@[simp] theorem State.setCore_asidcfg (s : State) (c : Nat) (x : Core) : (s.setCore c x).asidcfg = s.asidcfg := rfl
@[simp] theorem State.setCore_peercfg (s : State) (c : Nat) (x : Core) : (s.setCore c x).peercfg = s.peercfg := rfl
@[simp] theorem State.setCore_tlbinv0 (s : State) (c : Nat) (x : Core) : (s.setCore c x).tlbinv0 = s.tlbinv0 := rfl
@[simp] theorem State.setCore_tlbIssued (s : State) (c : Nat) (x : Core) : (s.setCore c x).tlbIssued = s.tlbIssued := rfl
@[simp] theorem State.setCore_tlbDone (s : State) (c : Nat) (x : Core) : (s.setCore c x).tlbDone = s.tlbDone := rfl
@[simp] theorem State.setCore_invals (s : State) (c : Nat) (x : Core) : (s.setCore c x).invals = s.invals := rfl
@[simp] theorem State.setCore_queues (s : State) (c : Nat) (x : Core) : (s.setCore c x).queues = s.queues := rfl
@[simp] theorem State.setCore_grids (s : State) (c : Nat) (x : Core) : (s.setCore c x).grids = s.grids := rfl
@[simp] theorem State.setCore_launchSeq (s : State) (c : Nat) (x : Core) : (s.setCore c x).launchSeq = s.launchSeq := rfl
@[simp] theorem State.setCore_orderN (s : State) (c : Nat) (x : Core) : (s.setCore c x).orderN = s.orderN := rfl
@[simp] theorem State.setCore_ageN (s : State) (c : Nat) (x : Core) : (s.setCore c x).ageN = s.ageN := rfl
@[simp] theorem State.setCore_curPart (s : State) (c : Nat) (x : Core) : (s.setCore c x).curPart = s.curPart := rfl
@[simp] theorem State.setCore_credit (s : State) (c : Nat) (x : Core) : (s.setCore c x).credit = s.credit := rfl
@[simp] theorem State.setCore_decisions (s : State) (c : Nat) (x : Core) : (s.setCore c x).decisions = s.decisions := rfl
@[simp] theorem State.setCore_lastPlace (s : State) (c : Nat) (x : Core) : (s.setCore c x).lastPlace = s.lastPlace := rfl
@[simp] theorem State.setCore_pressure (s : State) (c : Nat) (x : Core) : (s.setCore c x).pressure = s.pressure := rfl
@[simp] theorem State.setCore_units (s : State) (c : Nat) (x : Core) : (s.setCore c x).units = s.units := rfl
@[simp] theorem State.setCore_farClock (s : State) (c : Nat) (x : Core) : (s.setCore c x).farClock = s.farClock := rfl
@[simp] theorem State.setCore_ownLate (s : State) (c : Nat) (x : Core) : (s.setCore c x).ownLate = s.ownLate := rfl
@[simp] theorem State.setCore_parts (s : State) (c : Nat) (x : Core) : (s.setCore c x).parts = s.parts := rfl
@[simp] theorem State.setCore_keySlot (s : State) (c : Nat) (x : Core) : (s.setCore c x).keySlot = s.keySlot := rfl
@[simp] theorem State.setCore_keyBusy (s : State) (c : Nat) (x : Core) : (s.setCore c x).keyBusy = s.keyBusy := rfl
@[simp] theorem State.setCore_keyValid (s : State) (c : Nat) (x : Core) : (s.setCore c x).keyValid = s.keyValid := rfl
@[simp] theorem State.setCore_keyData (s : State) (c : Nat) (x : Core) : (s.setCore c x).keyData = s.keyData := rfl
@[simp] theorem State.setCore_keys (s : State) (c : Nat) (x : Core) : (s.setCore c x).keys = s.keys := rfl
@[simp] theorem State.setCore_ports (s : State) (c : Nat) (x : Core) : (s.setCore c x).ports = s.ports := rfl
@[simp] theorem State.setCore_boardw (s : State) (c : Nat) (x : Core) : (s.setCore c x).boardw = s.boardw := rfl
@[simp] theorem State.setCore_hallSeq (s : State) (c : Nat) (x : Core) : (s.setCore c x).hallSeq = s.hallSeq := rfl
@[simp] theorem State.setCore_hallShort (s : State) (c : Nat) (x : Core) : (s.setCore c x).hallShort = s.hallShort := rfl
@[simp] theorem State.setCore_hallRejects (s : State) (c : Nat) (x : Core) : (s.setCore c x).hallRejects = s.hallRejects := rfl
@[simp] theorem State.setCore_boardTime (s : State) (c : Nat) (x : Core) : (s.setCore c x).boardTime = s.boardTime := rfl
@[simp] theorem State.setCore_levelTime (s : State) (c : Nat) (x : Core) : (s.setCore c x).levelTime = s.levelTime := rfl
@[simp] theorem State.setCore_links (s : State) (c : Nat) (x : Core) : (s.setCore c x).links = s.links := rfl
@[simp] theorem State.setCore_belcy (s : State) (c : Nat) (x : Core) : (s.setCore c x).belcy = s.belcy := rfl
@[simp] theorem State.setCore_routes (s : State) (c : Nat) (x : Core) : (s.setCore c x).routes = s.routes := rfl
@[simp] theorem State.setCore_chipcfg (s : State) (c : Nat) (x : Core) : (s.setCore c x).chipcfg = s.chipcfg := rfl
@[simp] theorem State.setCore_remotes (s : State) (c : Nat) (x : Core) : (s.setCore c x).remotes = s.remotes := rfl
@[simp] theorem State.setCore_sent (s : State) (c : Nat) (x : Core) : (s.setCore c x).sent = s.sent := rfl
@[simp] theorem State.setCore_heldFlits (s : State) (c : Nat) (x : Core) : (s.setCore c x).heldFlits = s.heldFlits := rfl
@[simp] theorem State.setCore_peerOut (s : State) (c : Nat) (x : Core) : (s.setCore c x).peerOut = s.peerOut := rfl
@[simp] theorem State.setCore_peerIn (s : State) (c : Nat) (x : Core) : (s.setCore c x).peerIn = s.peerIn := rfl
@[simp] theorem State.setCore_hostTxns (s : State) (c : Nat) (x : Core) : (s.setCore c x).hostTxns = s.hostTxns := rfl
@[simp] theorem State.setCore_window (s : State) (c : Nat) (x : Core) : (s.setCore c x).window = s.window := rfl
@[simp] theorem State.setCore_dbgbase (s : State) (c : Nat) (x : Core) : (s.setCore c x).dbgbase = s.dbgbase := rfl
@[simp] theorem State.setCore_dbgctx (s : State) (c : Nat) (x : Core) : (s.setCore c x).dbgctx = s.dbgctx := rfl
@[simp] theorem State.setCore_dbgrun (s : State) (c : Nat) (x : Core) : (s.setCore c x).dbgrun = s.dbgrun := rfl
@[simp] theorem State.setCore_dbgPoll (s : State) (c : Nat) (x : Core) : (s.setCore c x).dbgPoll = s.dbgPoll := rfl
@[simp] theorem State.setCore_dbgLog (s : State) (c : Nat) (x : Core) : (s.setCore c x).dbgLog = s.dbgLog := rfl
@[simp] theorem State.setCore_trcfg (s : State) (c : Nat) (x : Core) : (s.setCore c x).trcfg = s.trcfg := rfl
@[simp] theorem State.setCore_trcfgWas (s : State) (c : Nat) (x : Core) : (s.setCore c x).trcfgWas = s.trcfgWas := rfl
@[simp] theorem State.setCore_trseq (s : State) (c : Nat) (x : Core) : (s.setCore c x).trseq = s.trseq := rfl
@[simp] theorem State.setCore_trthresh (s : State) (c : Nat) (x : Core) : (s.setCore c x).trthresh = s.trthresh := rfl
@[simp] theorem State.setCore_stations (s : State) (c : Nat) (x : Core) : (s.setCore c x).stations = s.stations := rfl
@[simp] theorem State.setCore_featcfg (s : State) (c : Nat) (x : Core) : (s.setCore c x).featcfg = s.featcfg := rfl
@[simp] theorem State.setCore_retcfg (s : State) (c : Nat) (x : Core) : (s.setCore c x).retcfg = s.retcfg := rfl
@[simp] theorem State.setCore_svcs (s : State) (c : Nat) (x : Core) : (s.setCore c x).svcs = s.svcs := rfl
@[simp] theorem State.setCore_deferred (s : State) (c : Nat) (x : Core) : (s.setCore c x).deferred = s.deferred := rfl
@[simp] theorem State.setCore_pkg (s : State) (c : Nat) (x : Core) : (s.setCore c x).pkg = s.pkg := rfl
@[simp] theorem State.setCore_powerSeq (s : State) (c : Nat) (x : Core) : (s.setCore c x).powerSeq = s.powerSeq := rfl
@[simp] theorem State.setCore_powerAt (s : State) (c : Nat) (x : Core) : (s.setCore c x).powerAt = s.powerAt := rfl
@[simp] theorem State.setCore_vudor (s : State) (c : Nat) (x : Core) : (s.setCore c x).vudor = s.vudor := rfl

/-! ## updCore -/

@[simp] theorem State.updCore_time (s : State) (c : Nat) (f : Core → Core) : (s.updCore c f).time = s.time := rfl
@[simp] theorem State.updCore_resetAt (s : State) (c : Nat) (f : Core → Core) : (s.updCore c f).resetAt = s.resetAt := rfl
@[simp] theorem State.updCore_moves (s : State) (c : Nat) (f : Core → Core) : (s.updCore c f).moves = s.moves := rfl
@[simp] theorem State.updCore_turn (s : State) (c : Nat) (f : Core → Core) : (s.updCore c f).turn = s.turn := rfl
@[simp] theorem State.updCore_cur (s : State) (c : Nat) (f : Core → Core) : (s.updCore c f).cur = s.cur := rfl
@[simp] theorem State.updCore_fresh (s : State) (c : Nat) (f : Core → Core) : (s.updCore c f).fresh = s.fresh := rfl
@[simp] theorem State.updCore_nextId (s : State) (c : Nat) (f : Core → Core) : (s.updCore c f).nextId = s.nextId := rfl
@[simp] theorem State.updCore_outbox (s : State) (c : Nat) (f : Core → Core) : (s.updCore c f).outbox = s.outbox := rfl
@[simp] theorem State.updCore_mem (s : State) (c : Nat) (f : Core → Core) : (s.updCore c f).mem = s.mem := rfl
@[simp] theorem State.updCore_viewKey (s : State) (c : Nat) (f : Core → Core) : (s.updCore c f).viewKey = s.viewKey := rfl
@[simp] theorem State.updCore_poison (s : State) (c : Nat) (f : Core → Core) : (s.updCore c f).poison = s.poison := rfl
@[simp] theorem State.updCore_homes (s : State) (c : Nat) (f : Core → Core) : (s.updCore c f).homes = s.homes := rfl
@[simp] theorem State.updCore_l2 (s : State) (c : Nat) (f : Core → Core) : (s.updCore c f).l2 = s.l2 := rfl
@[simp] theorem State.updCore_hostL2 (s : State) (c : Nat) (f : Core → Core) : (s.updCore c f).hostL2 = s.hostL2 := rfl
@[simp] theorem State.updCore_hwLines (s : State) (c : Nat) (f : Core → Core) : (s.updCore c f).hwLines = s.hwLines := rfl
@[simp] theorem State.updCore_hclk (s : State) (c : Nat) (f : Core → Core) : (s.updCore c f).hclk = s.hclk := rfl
@[simp] theorem State.updCore_floor (s : State) (c : Nat) (f : Core → Core) : (s.updCore c f).floor = s.floor := rfl
@[simp] theorem State.updCore_floorN (s : State) (c : Nat) (f : Core → Core) : (s.updCore c f).floorN = s.floorN := rfl
@[simp] theorem State.updCore_reqs (s : State) (c : Nat) (f : Core → Core) : (s.updCore c f).reqs = s.reqs := rfl
@[simp] theorem State.updCore_replies (s : State) (c : Nat) (f : Core → Core) : (s.updCore c f).replies = s.replies := rfl
@[simp] theorem State.updCore_warps (s : State) (c : Nat) (f : Core → Core) : (s.updCore c f).warps = s.warps := rfl
@[simp] theorem State.updCore_teams (s : State) (c : Nat) (f : Core → Core) : (s.updCore c f).teams = s.teams := rfl
@[simp] theorem State.updCore_cmds (s : State) (c : Nat) (f : Core → Core) : (s.updCore c f).cmds = s.cmds := rfl
@[simp] theorem State.updCore_l2tlb (s : State) (c : Nat) (f : Core → Core) : (s.updCore c f).l2tlb = s.l2tlb := rfl
@[simp] theorem State.updCore_walkc (s : State) (c : Nat) (f : Core → Core) : (s.updCore c f).walkc = s.walkc := rfl
@[simp] theorem State.updCore_walks (s : State) (c : Nat) (f : Core → Core) : (s.updCore c f).walks = s.walks := rfl
@[simp] theorem State.updCore_faults (s : State) (c : Nat) (f : Core → Core) : (s.updCore c f).faults = s.faults := rfl
@[simp] theorem State.updCore_pris (s : State) (c : Nat) (f : Core → Core) : (s.updCore c f).pris = s.pris := rfl
@[simp] theorem State.updCore_asidcfg (s : State) (c : Nat) (f : Core → Core) : (s.updCore c f).asidcfg = s.asidcfg := rfl
@[simp] theorem State.updCore_peercfg (s : State) (c : Nat) (f : Core → Core) : (s.updCore c f).peercfg = s.peercfg := rfl
@[simp] theorem State.updCore_tlbinv0 (s : State) (c : Nat) (f : Core → Core) : (s.updCore c f).tlbinv0 = s.tlbinv0 := rfl
@[simp] theorem State.updCore_tlbIssued (s : State) (c : Nat) (f : Core → Core) : (s.updCore c f).tlbIssued = s.tlbIssued := rfl
@[simp] theorem State.updCore_tlbDone (s : State) (c : Nat) (f : Core → Core) : (s.updCore c f).tlbDone = s.tlbDone := rfl
@[simp] theorem State.updCore_invals (s : State) (c : Nat) (f : Core → Core) : (s.updCore c f).invals = s.invals := rfl
@[simp] theorem State.updCore_queues (s : State) (c : Nat) (f : Core → Core) : (s.updCore c f).queues = s.queues := rfl
@[simp] theorem State.updCore_grids (s : State) (c : Nat) (f : Core → Core) : (s.updCore c f).grids = s.grids := rfl
@[simp] theorem State.updCore_launchSeq (s : State) (c : Nat) (f : Core → Core) : (s.updCore c f).launchSeq = s.launchSeq := rfl
@[simp] theorem State.updCore_orderN (s : State) (c : Nat) (f : Core → Core) : (s.updCore c f).orderN = s.orderN := rfl
@[simp] theorem State.updCore_ageN (s : State) (c : Nat) (f : Core → Core) : (s.updCore c f).ageN = s.ageN := rfl
@[simp] theorem State.updCore_curPart (s : State) (c : Nat) (f : Core → Core) : (s.updCore c f).curPart = s.curPart := rfl
@[simp] theorem State.updCore_credit (s : State) (c : Nat) (f : Core → Core) : (s.updCore c f).credit = s.credit := rfl
@[simp] theorem State.updCore_decisions (s : State) (c : Nat) (f : Core → Core) : (s.updCore c f).decisions = s.decisions := rfl
@[simp] theorem State.updCore_lastPlace (s : State) (c : Nat) (f : Core → Core) : (s.updCore c f).lastPlace = s.lastPlace := rfl
@[simp] theorem State.updCore_pressure (s : State) (c : Nat) (f : Core → Core) : (s.updCore c f).pressure = s.pressure := rfl
@[simp] theorem State.updCore_units (s : State) (c : Nat) (f : Core → Core) : (s.updCore c f).units = s.units := rfl
@[simp] theorem State.updCore_farClock (s : State) (c : Nat) (f : Core → Core) : (s.updCore c f).farClock = s.farClock := rfl
@[simp] theorem State.updCore_ownLate (s : State) (c : Nat) (f : Core → Core) : (s.updCore c f).ownLate = s.ownLate := rfl
@[simp] theorem State.updCore_parts (s : State) (c : Nat) (f : Core → Core) : (s.updCore c f).parts = s.parts := rfl
@[simp] theorem State.updCore_keySlot (s : State) (c : Nat) (f : Core → Core) : (s.updCore c f).keySlot = s.keySlot := rfl
@[simp] theorem State.updCore_keyBusy (s : State) (c : Nat) (f : Core → Core) : (s.updCore c f).keyBusy = s.keyBusy := rfl
@[simp] theorem State.updCore_keyValid (s : State) (c : Nat) (f : Core → Core) : (s.updCore c f).keyValid = s.keyValid := rfl
@[simp] theorem State.updCore_keyData (s : State) (c : Nat) (f : Core → Core) : (s.updCore c f).keyData = s.keyData := rfl
@[simp] theorem State.updCore_keys (s : State) (c : Nat) (f : Core → Core) : (s.updCore c f).keys = s.keys := rfl
@[simp] theorem State.updCore_ports (s : State) (c : Nat) (f : Core → Core) : (s.updCore c f).ports = s.ports := rfl
@[simp] theorem State.updCore_boardw (s : State) (c : Nat) (f : Core → Core) : (s.updCore c f).boardw = s.boardw := rfl
@[simp] theorem State.updCore_hallSeq (s : State) (c : Nat) (f : Core → Core) : (s.updCore c f).hallSeq = s.hallSeq := rfl
@[simp] theorem State.updCore_hallShort (s : State) (c : Nat) (f : Core → Core) : (s.updCore c f).hallShort = s.hallShort := rfl
@[simp] theorem State.updCore_hallRejects (s : State) (c : Nat) (f : Core → Core) : (s.updCore c f).hallRejects = s.hallRejects := rfl
@[simp] theorem State.updCore_boardTime (s : State) (c : Nat) (f : Core → Core) : (s.updCore c f).boardTime = s.boardTime := rfl
@[simp] theorem State.updCore_levelTime (s : State) (c : Nat) (f : Core → Core) : (s.updCore c f).levelTime = s.levelTime := rfl
@[simp] theorem State.updCore_links (s : State) (c : Nat) (f : Core → Core) : (s.updCore c f).links = s.links := rfl
@[simp] theorem State.updCore_belcy (s : State) (c : Nat) (f : Core → Core) : (s.updCore c f).belcy = s.belcy := rfl
@[simp] theorem State.updCore_routes (s : State) (c : Nat) (f : Core → Core) : (s.updCore c f).routes = s.routes := rfl
@[simp] theorem State.updCore_chipcfg (s : State) (c : Nat) (f : Core → Core) : (s.updCore c f).chipcfg = s.chipcfg := rfl
@[simp] theorem State.updCore_remotes (s : State) (c : Nat) (f : Core → Core) : (s.updCore c f).remotes = s.remotes := rfl
@[simp] theorem State.updCore_sent (s : State) (c : Nat) (f : Core → Core) : (s.updCore c f).sent = s.sent := rfl
@[simp] theorem State.updCore_heldFlits (s : State) (c : Nat) (f : Core → Core) : (s.updCore c f).heldFlits = s.heldFlits := rfl
@[simp] theorem State.updCore_peerOut (s : State) (c : Nat) (f : Core → Core) : (s.updCore c f).peerOut = s.peerOut := rfl
@[simp] theorem State.updCore_peerIn (s : State) (c : Nat) (f : Core → Core) : (s.updCore c f).peerIn = s.peerIn := rfl
@[simp] theorem State.updCore_hostTxns (s : State) (c : Nat) (f : Core → Core) : (s.updCore c f).hostTxns = s.hostTxns := rfl
@[simp] theorem State.updCore_window (s : State) (c : Nat) (f : Core → Core) : (s.updCore c f).window = s.window := rfl
@[simp] theorem State.updCore_dbgbase (s : State) (c : Nat) (f : Core → Core) : (s.updCore c f).dbgbase = s.dbgbase := rfl
@[simp] theorem State.updCore_dbgctx (s : State) (c : Nat) (f : Core → Core) : (s.updCore c f).dbgctx = s.dbgctx := rfl
@[simp] theorem State.updCore_dbgrun (s : State) (c : Nat) (f : Core → Core) : (s.updCore c f).dbgrun = s.dbgrun := rfl
@[simp] theorem State.updCore_dbgPoll (s : State) (c : Nat) (f : Core → Core) : (s.updCore c f).dbgPoll = s.dbgPoll := rfl
@[simp] theorem State.updCore_dbgLog (s : State) (c : Nat) (f : Core → Core) : (s.updCore c f).dbgLog = s.dbgLog := rfl
@[simp] theorem State.updCore_trcfg (s : State) (c : Nat) (f : Core → Core) : (s.updCore c f).trcfg = s.trcfg := rfl
@[simp] theorem State.updCore_trcfgWas (s : State) (c : Nat) (f : Core → Core) : (s.updCore c f).trcfgWas = s.trcfgWas := rfl
@[simp] theorem State.updCore_trseq (s : State) (c : Nat) (f : Core → Core) : (s.updCore c f).trseq = s.trseq := rfl
@[simp] theorem State.updCore_trthresh (s : State) (c : Nat) (f : Core → Core) : (s.updCore c f).trthresh = s.trthresh := rfl
@[simp] theorem State.updCore_stations (s : State) (c : Nat) (f : Core → Core) : (s.updCore c f).stations = s.stations := rfl
@[simp] theorem State.updCore_featcfg (s : State) (c : Nat) (f : Core → Core) : (s.updCore c f).featcfg = s.featcfg := rfl
@[simp] theorem State.updCore_retcfg (s : State) (c : Nat) (f : Core → Core) : (s.updCore c f).retcfg = s.retcfg := rfl
@[simp] theorem State.updCore_svcs (s : State) (c : Nat) (f : Core → Core) : (s.updCore c f).svcs = s.svcs := rfl
@[simp] theorem State.updCore_deferred (s : State) (c : Nat) (f : Core → Core) : (s.updCore c f).deferred = s.deferred := rfl
@[simp] theorem State.updCore_pkg (s : State) (c : Nat) (f : Core → Core) : (s.updCore c f).pkg = s.pkg := rfl
@[simp] theorem State.updCore_powerSeq (s : State) (c : Nat) (f : Core → Core) : (s.updCore c f).powerSeq = s.powerSeq := rfl
@[simp] theorem State.updCore_powerAt (s : State) (c : Nat) (f : Core → Core) : (s.updCore c f).powerAt = s.powerAt := rfl
@[simp] theorem State.updCore_vudor (s : State) (c : Nat) (f : Core → Core) : (s.updCore c f).vudor = s.vudor := rfl

/-! ## emit -/

@[simp] theorem State.emit_time (s : State) (o : Out) : (s.emit o).time = s.time := rfl
@[simp] theorem State.emit_resetAt (s : State) (o : Out) : (s.emit o).resetAt = s.resetAt := rfl
@[simp] theorem State.emit_moves (s : State) (o : Out) : (s.emit o).moves = s.moves := rfl
@[simp] theorem State.emit_turn (s : State) (o : Out) : (s.emit o).turn = s.turn := rfl
@[simp] theorem State.emit_cur (s : State) (o : Out) : (s.emit o).cur = s.cur := rfl
@[simp] theorem State.emit_fresh (s : State) (o : Out) : (s.emit o).fresh = s.fresh := rfl
@[simp] theorem State.emit_nextId (s : State) (o : Out) : (s.emit o).nextId = s.nextId := rfl
@[simp] theorem State.emit_mem (s : State) (o : Out) : (s.emit o).mem = s.mem := rfl
@[simp] theorem State.emit_viewKey (s : State) (o : Out) : (s.emit o).viewKey = s.viewKey := rfl
@[simp] theorem State.emit_poison (s : State) (o : Out) : (s.emit o).poison = s.poison := rfl
@[simp] theorem State.emit_homes (s : State) (o : Out) : (s.emit o).homes = s.homes := rfl
@[simp] theorem State.emit_l2 (s : State) (o : Out) : (s.emit o).l2 = s.l2 := rfl
@[simp] theorem State.emit_hostL2 (s : State) (o : Out) : (s.emit o).hostL2 = s.hostL2 := rfl
@[simp] theorem State.emit_hwLines (s : State) (o : Out) : (s.emit o).hwLines = s.hwLines := rfl
@[simp] theorem State.emit_hclk (s : State) (o : Out) : (s.emit o).hclk = s.hclk := rfl
@[simp] theorem State.emit_floor (s : State) (o : Out) : (s.emit o).floor = s.floor := rfl
@[simp] theorem State.emit_floorN (s : State) (o : Out) : (s.emit o).floorN = s.floorN := rfl
@[simp] theorem State.emit_reqs (s : State) (o : Out) : (s.emit o).reqs = s.reqs := rfl
@[simp] theorem State.emit_replies (s : State) (o : Out) : (s.emit o).replies = s.replies := rfl
@[simp] theorem State.emit_cores (s : State) (o : Out) : (s.emit o).cores = s.cores := rfl
@[simp] theorem State.emit_warps (s : State) (o : Out) : (s.emit o).warps = s.warps := rfl
@[simp] theorem State.emit_teams (s : State) (o : Out) : (s.emit o).teams = s.teams := rfl
@[simp] theorem State.emit_cmds (s : State) (o : Out) : (s.emit o).cmds = s.cmds := rfl
@[simp] theorem State.emit_l2tlb (s : State) (o : Out) : (s.emit o).l2tlb = s.l2tlb := rfl
@[simp] theorem State.emit_walkc (s : State) (o : Out) : (s.emit o).walkc = s.walkc := rfl
@[simp] theorem State.emit_walks (s : State) (o : Out) : (s.emit o).walks = s.walks := rfl
@[simp] theorem State.emit_faults (s : State) (o : Out) : (s.emit o).faults = s.faults := rfl
@[simp] theorem State.emit_pris (s : State) (o : Out) : (s.emit o).pris = s.pris := rfl
@[simp] theorem State.emit_asidcfg (s : State) (o : Out) : (s.emit o).asidcfg = s.asidcfg := rfl
@[simp] theorem State.emit_peercfg (s : State) (o : Out) : (s.emit o).peercfg = s.peercfg := rfl
@[simp] theorem State.emit_tlbinv0 (s : State) (o : Out) : (s.emit o).tlbinv0 = s.tlbinv0 := rfl
@[simp] theorem State.emit_tlbIssued (s : State) (o : Out) : (s.emit o).tlbIssued = s.tlbIssued := rfl
@[simp] theorem State.emit_tlbDone (s : State) (o : Out) : (s.emit o).tlbDone = s.tlbDone := rfl
@[simp] theorem State.emit_invals (s : State) (o : Out) : (s.emit o).invals = s.invals := rfl
@[simp] theorem State.emit_queues (s : State) (o : Out) : (s.emit o).queues = s.queues := rfl
@[simp] theorem State.emit_grids (s : State) (o : Out) : (s.emit o).grids = s.grids := rfl
@[simp] theorem State.emit_launchSeq (s : State) (o : Out) : (s.emit o).launchSeq = s.launchSeq := rfl
@[simp] theorem State.emit_orderN (s : State) (o : Out) : (s.emit o).orderN = s.orderN := rfl
@[simp] theorem State.emit_ageN (s : State) (o : Out) : (s.emit o).ageN = s.ageN := rfl
@[simp] theorem State.emit_curPart (s : State) (o : Out) : (s.emit o).curPart = s.curPart := rfl
@[simp] theorem State.emit_credit (s : State) (o : Out) : (s.emit o).credit = s.credit := rfl
@[simp] theorem State.emit_decisions (s : State) (o : Out) : (s.emit o).decisions = s.decisions := rfl
@[simp] theorem State.emit_lastPlace (s : State) (o : Out) : (s.emit o).lastPlace = s.lastPlace := rfl
@[simp] theorem State.emit_pressure (s : State) (o : Out) : (s.emit o).pressure = s.pressure := rfl
@[simp] theorem State.emit_units (s : State) (o : Out) : (s.emit o).units = s.units := rfl
@[simp] theorem State.emit_farClock (s : State) (o : Out) : (s.emit o).farClock = s.farClock := rfl
@[simp] theorem State.emit_ownLate (s : State) (o : Out) : (s.emit o).ownLate = s.ownLate := rfl
@[simp] theorem State.emit_parts (s : State) (o : Out) : (s.emit o).parts = s.parts := rfl
@[simp] theorem State.emit_keySlot (s : State) (o : Out) : (s.emit o).keySlot = s.keySlot := rfl
@[simp] theorem State.emit_keyBusy (s : State) (o : Out) : (s.emit o).keyBusy = s.keyBusy := rfl
@[simp] theorem State.emit_keyValid (s : State) (o : Out) : (s.emit o).keyValid = s.keyValid := rfl
@[simp] theorem State.emit_keyData (s : State) (o : Out) : (s.emit o).keyData = s.keyData := rfl
@[simp] theorem State.emit_keys (s : State) (o : Out) : (s.emit o).keys = s.keys := rfl
@[simp] theorem State.emit_ports (s : State) (o : Out) : (s.emit o).ports = s.ports := rfl
@[simp] theorem State.emit_boardw (s : State) (o : Out) : (s.emit o).boardw = s.boardw := rfl
@[simp] theorem State.emit_hallSeq (s : State) (o : Out) : (s.emit o).hallSeq = s.hallSeq := rfl
@[simp] theorem State.emit_hallShort (s : State) (o : Out) : (s.emit o).hallShort = s.hallShort := rfl
@[simp] theorem State.emit_hallRejects (s : State) (o : Out) : (s.emit o).hallRejects = s.hallRejects := rfl
@[simp] theorem State.emit_boardTime (s : State) (o : Out) : (s.emit o).boardTime = s.boardTime := rfl
@[simp] theorem State.emit_levelTime (s : State) (o : Out) : (s.emit o).levelTime = s.levelTime := rfl
@[simp] theorem State.emit_links (s : State) (o : Out) : (s.emit o).links = s.links := rfl
@[simp] theorem State.emit_belcy (s : State) (o : Out) : (s.emit o).belcy = s.belcy := rfl
@[simp] theorem State.emit_routes (s : State) (o : Out) : (s.emit o).routes = s.routes := rfl
@[simp] theorem State.emit_chipcfg (s : State) (o : Out) : (s.emit o).chipcfg = s.chipcfg := rfl
@[simp] theorem State.emit_remotes (s : State) (o : Out) : (s.emit o).remotes = s.remotes := rfl
@[simp] theorem State.emit_sent (s : State) (o : Out) : (s.emit o).sent = s.sent := rfl
@[simp] theorem State.emit_heldFlits (s : State) (o : Out) : (s.emit o).heldFlits = s.heldFlits := rfl
@[simp] theorem State.emit_peerOut (s : State) (o : Out) : (s.emit o).peerOut = s.peerOut := rfl
@[simp] theorem State.emit_peerIn (s : State) (o : Out) : (s.emit o).peerIn = s.peerIn := rfl
@[simp] theorem State.emit_hostTxns (s : State) (o : Out) : (s.emit o).hostTxns = s.hostTxns := rfl
@[simp] theorem State.emit_window (s : State) (o : Out) : (s.emit o).window = s.window := rfl
@[simp] theorem State.emit_dbgbase (s : State) (o : Out) : (s.emit o).dbgbase = s.dbgbase := rfl
@[simp] theorem State.emit_dbgctx (s : State) (o : Out) : (s.emit o).dbgctx = s.dbgctx := rfl
@[simp] theorem State.emit_dbgrun (s : State) (o : Out) : (s.emit o).dbgrun = s.dbgrun := rfl
@[simp] theorem State.emit_dbgPoll (s : State) (o : Out) : (s.emit o).dbgPoll = s.dbgPoll := rfl
@[simp] theorem State.emit_dbgLog (s : State) (o : Out) : (s.emit o).dbgLog = s.dbgLog := rfl
@[simp] theorem State.emit_trcfg (s : State) (o : Out) : (s.emit o).trcfg = s.trcfg := rfl
@[simp] theorem State.emit_trcfgWas (s : State) (o : Out) : (s.emit o).trcfgWas = s.trcfgWas := rfl
@[simp] theorem State.emit_trseq (s : State) (o : Out) : (s.emit o).trseq = s.trseq := rfl
@[simp] theorem State.emit_trthresh (s : State) (o : Out) : (s.emit o).trthresh = s.trthresh := rfl
@[simp] theorem State.emit_stations (s : State) (o : Out) : (s.emit o).stations = s.stations := rfl
@[simp] theorem State.emit_featcfg (s : State) (o : Out) : (s.emit o).featcfg = s.featcfg := rfl
@[simp] theorem State.emit_retcfg (s : State) (o : Out) : (s.emit o).retcfg = s.retcfg := rfl
@[simp] theorem State.emit_svcs (s : State) (o : Out) : (s.emit o).svcs = s.svcs := rfl
@[simp] theorem State.emit_deferred (s : State) (o : Out) : (s.emit o).deferred = s.deferred := rfl
@[simp] theorem State.emit_pkg (s : State) (o : Out) : (s.emit o).pkg = s.pkg := rfl
@[simp] theorem State.emit_powerSeq (s : State) (o : Out) : (s.emit o).powerSeq = s.powerSeq := rfl
@[simp] theorem State.emit_powerAt (s : State) (o : Out) : (s.emit o).powerAt = s.powerAt := rfl
@[simp] theorem State.emit_vudor (s : State) (o : Out) : (s.emit o).vudor = s.vudor := rfl

/-! ## newId and free -/

@[simp] theorem State.newId_time (s : State) : s.newId.2.time = s.time := rfl
@[simp] theorem State.newId_resetAt (s : State) : s.newId.2.resetAt = s.resetAt := rfl
@[simp] theorem State.newId_moves (s : State) : s.newId.2.moves = s.moves := rfl
@[simp] theorem State.newId_turn (s : State) : s.newId.2.turn = s.turn := rfl
@[simp] theorem State.newId_cur (s : State) : s.newId.2.cur = s.cur := rfl
@[simp] theorem State.newId_fresh (s : State) : s.newId.2.fresh = s.fresh := rfl
@[simp] theorem State.newId_outbox (s : State) : s.newId.2.outbox = s.outbox := rfl
@[simp] theorem State.newId_mem (s : State) : s.newId.2.mem = s.mem := rfl
@[simp] theorem State.newId_viewKey (s : State) : s.newId.2.viewKey = s.viewKey := rfl
@[simp] theorem State.newId_poison (s : State) : s.newId.2.poison = s.poison := rfl
@[simp] theorem State.newId_homes (s : State) : s.newId.2.homes = s.homes := rfl
@[simp] theorem State.newId_l2 (s : State) : s.newId.2.l2 = s.l2 := rfl
@[simp] theorem State.newId_hostL2 (s : State) : s.newId.2.hostL2 = s.hostL2 := rfl
@[simp] theorem State.newId_hwLines (s : State) : s.newId.2.hwLines = s.hwLines := rfl
@[simp] theorem State.newId_hclk (s : State) : s.newId.2.hclk = s.hclk := rfl
@[simp] theorem State.newId_floor (s : State) : s.newId.2.floor = s.floor := rfl
@[simp] theorem State.newId_floorN (s : State) : s.newId.2.floorN = s.floorN := rfl
@[simp] theorem State.newId_reqs (s : State) : s.newId.2.reqs = s.reqs := rfl
@[simp] theorem State.newId_replies (s : State) : s.newId.2.replies = s.replies := rfl
@[simp] theorem State.newId_cores (s : State) : s.newId.2.cores = s.cores := rfl
@[simp] theorem State.newId_warps (s : State) : s.newId.2.warps = s.warps := rfl
@[simp] theorem State.newId_teams (s : State) : s.newId.2.teams = s.teams := rfl
@[simp] theorem State.newId_cmds (s : State) : s.newId.2.cmds = s.cmds := rfl
@[simp] theorem State.newId_l2tlb (s : State) : s.newId.2.l2tlb = s.l2tlb := rfl
@[simp] theorem State.newId_walkc (s : State) : s.newId.2.walkc = s.walkc := rfl
@[simp] theorem State.newId_walks (s : State) : s.newId.2.walks = s.walks := rfl
@[simp] theorem State.newId_faults (s : State) : s.newId.2.faults = s.faults := rfl
@[simp] theorem State.newId_pris (s : State) : s.newId.2.pris = s.pris := rfl
@[simp] theorem State.newId_asidcfg (s : State) : s.newId.2.asidcfg = s.asidcfg := rfl
@[simp] theorem State.newId_peercfg (s : State) : s.newId.2.peercfg = s.peercfg := rfl
@[simp] theorem State.newId_tlbinv0 (s : State) : s.newId.2.tlbinv0 = s.tlbinv0 := rfl
@[simp] theorem State.newId_tlbIssued (s : State) : s.newId.2.tlbIssued = s.tlbIssued := rfl
@[simp] theorem State.newId_tlbDone (s : State) : s.newId.2.tlbDone = s.tlbDone := rfl
@[simp] theorem State.newId_invals (s : State) : s.newId.2.invals = s.invals := rfl
@[simp] theorem State.newId_queues (s : State) : s.newId.2.queues = s.queues := rfl
@[simp] theorem State.newId_grids (s : State) : s.newId.2.grids = s.grids := rfl
@[simp] theorem State.newId_launchSeq (s : State) : s.newId.2.launchSeq = s.launchSeq := rfl
@[simp] theorem State.newId_orderN (s : State) : s.newId.2.orderN = s.orderN := rfl
@[simp] theorem State.newId_ageN (s : State) : s.newId.2.ageN = s.ageN := rfl
@[simp] theorem State.newId_curPart (s : State) : s.newId.2.curPart = s.curPart := rfl
@[simp] theorem State.newId_credit (s : State) : s.newId.2.credit = s.credit := rfl
@[simp] theorem State.newId_decisions (s : State) : s.newId.2.decisions = s.decisions := rfl
@[simp] theorem State.newId_lastPlace (s : State) : s.newId.2.lastPlace = s.lastPlace := rfl
@[simp] theorem State.newId_pressure (s : State) : s.newId.2.pressure = s.pressure := rfl
@[simp] theorem State.newId_units (s : State) : s.newId.2.units = s.units := rfl
@[simp] theorem State.newId_farClock (s : State) : s.newId.2.farClock = s.farClock := rfl
@[simp] theorem State.newId_ownLate (s : State) : s.newId.2.ownLate = s.ownLate := rfl
@[simp] theorem State.newId_parts (s : State) : s.newId.2.parts = s.parts := rfl
@[simp] theorem State.newId_keySlot (s : State) : s.newId.2.keySlot = s.keySlot := rfl
@[simp] theorem State.newId_keyBusy (s : State) : s.newId.2.keyBusy = s.keyBusy := rfl
@[simp] theorem State.newId_keyValid (s : State) : s.newId.2.keyValid = s.keyValid := rfl
@[simp] theorem State.newId_keyData (s : State) : s.newId.2.keyData = s.keyData := rfl
@[simp] theorem State.newId_keys (s : State) : s.newId.2.keys = s.keys := rfl
@[simp] theorem State.newId_ports (s : State) : s.newId.2.ports = s.ports := rfl
@[simp] theorem State.newId_boardw (s : State) : s.newId.2.boardw = s.boardw := rfl
@[simp] theorem State.newId_hallSeq (s : State) : s.newId.2.hallSeq = s.hallSeq := rfl
@[simp] theorem State.newId_hallShort (s : State) : s.newId.2.hallShort = s.hallShort := rfl
@[simp] theorem State.newId_hallRejects (s : State) : s.newId.2.hallRejects = s.hallRejects := rfl
@[simp] theorem State.newId_boardTime (s : State) : s.newId.2.boardTime = s.boardTime := rfl
@[simp] theorem State.newId_levelTime (s : State) : s.newId.2.levelTime = s.levelTime := rfl
@[simp] theorem State.newId_links (s : State) : s.newId.2.links = s.links := rfl
@[simp] theorem State.newId_belcy (s : State) : s.newId.2.belcy = s.belcy := rfl
@[simp] theorem State.newId_routes (s : State) : s.newId.2.routes = s.routes := rfl
@[simp] theorem State.newId_chipcfg (s : State) : s.newId.2.chipcfg = s.chipcfg := rfl
@[simp] theorem State.newId_remotes (s : State) : s.newId.2.remotes = s.remotes := rfl
@[simp] theorem State.newId_sent (s : State) : s.newId.2.sent = s.sent := rfl
@[simp] theorem State.newId_heldFlits (s : State) : s.newId.2.heldFlits = s.heldFlits := rfl
@[simp] theorem State.newId_peerOut (s : State) : s.newId.2.peerOut = s.peerOut := rfl
@[simp] theorem State.newId_peerIn (s : State) : s.newId.2.peerIn = s.peerIn := rfl
@[simp] theorem State.newId_hostTxns (s : State) : s.newId.2.hostTxns = s.hostTxns := rfl
@[simp] theorem State.newId_window (s : State) : s.newId.2.window = s.window := rfl
@[simp] theorem State.newId_dbgbase (s : State) : s.newId.2.dbgbase = s.dbgbase := rfl
@[simp] theorem State.newId_dbgctx (s : State) : s.newId.2.dbgctx = s.dbgctx := rfl
@[simp] theorem State.newId_dbgrun (s : State) : s.newId.2.dbgrun = s.dbgrun := rfl
@[simp] theorem State.newId_dbgPoll (s : State) : s.newId.2.dbgPoll = s.dbgPoll := rfl
@[simp] theorem State.newId_dbgLog (s : State) : s.newId.2.dbgLog = s.dbgLog := rfl
@[simp] theorem State.newId_trcfg (s : State) : s.newId.2.trcfg = s.trcfg := rfl
@[simp] theorem State.newId_trcfgWas (s : State) : s.newId.2.trcfgWas = s.trcfgWas := rfl
@[simp] theorem State.newId_trseq (s : State) : s.newId.2.trseq = s.trseq := rfl
@[simp] theorem State.newId_trthresh (s : State) : s.newId.2.trthresh = s.trthresh := rfl
@[simp] theorem State.newId_stations (s : State) : s.newId.2.stations = s.stations := rfl
@[simp] theorem State.newId_featcfg (s : State) : s.newId.2.featcfg = s.featcfg := rfl
@[simp] theorem State.newId_retcfg (s : State) : s.newId.2.retcfg = s.retcfg := rfl
@[simp] theorem State.newId_svcs (s : State) : s.newId.2.svcs = s.svcs := rfl
@[simp] theorem State.newId_deferred (s : State) : s.newId.2.deferred = s.deferred := rfl
@[simp] theorem State.newId_pkg (s : State) : s.newId.2.pkg = s.pkg := rfl
@[simp] theorem State.newId_powerSeq (s : State) : s.newId.2.powerSeq = s.powerSeq := rfl
@[simp] theorem State.newId_powerAt (s : State) : s.newId.2.powerAt = s.powerAt := rfl
@[simp] theorem State.newId_vudor (s : State) : s.newId.2.vudor = s.vudor := rfl
@[simp] theorem State.free_time (s : State) : s.free.2.time = s.time := rfl
@[simp] theorem State.free_resetAt (s : State) : s.free.2.resetAt = s.resetAt := rfl
@[simp] theorem State.free_moves (s : State) : s.free.2.moves = s.moves := rfl
@[simp] theorem State.free_turn (s : State) : s.free.2.turn = s.turn := rfl
@[simp] theorem State.free_cur (s : State) : s.free.2.cur = s.cur := rfl
@[simp] theorem State.free_nextId (s : State) : s.free.2.nextId = s.nextId := rfl
@[simp] theorem State.free_outbox (s : State) : s.free.2.outbox = s.outbox := rfl
@[simp] theorem State.free_mem (s : State) : s.free.2.mem = s.mem := rfl
@[simp] theorem State.free_viewKey (s : State) : s.free.2.viewKey = s.viewKey := rfl
@[simp] theorem State.free_poison (s : State) : s.free.2.poison = s.poison := rfl
@[simp] theorem State.free_homes (s : State) : s.free.2.homes = s.homes := rfl
@[simp] theorem State.free_l2 (s : State) : s.free.2.l2 = s.l2 := rfl
@[simp] theorem State.free_hostL2 (s : State) : s.free.2.hostL2 = s.hostL2 := rfl
@[simp] theorem State.free_hwLines (s : State) : s.free.2.hwLines = s.hwLines := rfl
@[simp] theorem State.free_hclk (s : State) : s.free.2.hclk = s.hclk := rfl
@[simp] theorem State.free_floor (s : State) : s.free.2.floor = s.floor := rfl
@[simp] theorem State.free_floorN (s : State) : s.free.2.floorN = s.floorN := rfl
@[simp] theorem State.free_reqs (s : State) : s.free.2.reqs = s.reqs := rfl
@[simp] theorem State.free_replies (s : State) : s.free.2.replies = s.replies := rfl
@[simp] theorem State.free_cores (s : State) : s.free.2.cores = s.cores := rfl
@[simp] theorem State.free_warps (s : State) : s.free.2.warps = s.warps := rfl
@[simp] theorem State.free_teams (s : State) : s.free.2.teams = s.teams := rfl
@[simp] theorem State.free_cmds (s : State) : s.free.2.cmds = s.cmds := rfl
@[simp] theorem State.free_l2tlb (s : State) : s.free.2.l2tlb = s.l2tlb := rfl
@[simp] theorem State.free_walkc (s : State) : s.free.2.walkc = s.walkc := rfl
@[simp] theorem State.free_walks (s : State) : s.free.2.walks = s.walks := rfl
@[simp] theorem State.free_faults (s : State) : s.free.2.faults = s.faults := rfl
@[simp] theorem State.free_pris (s : State) : s.free.2.pris = s.pris := rfl
@[simp] theorem State.free_asidcfg (s : State) : s.free.2.asidcfg = s.asidcfg := rfl
@[simp] theorem State.free_peercfg (s : State) : s.free.2.peercfg = s.peercfg := rfl
@[simp] theorem State.free_tlbinv0 (s : State) : s.free.2.tlbinv0 = s.tlbinv0 := rfl
@[simp] theorem State.free_tlbIssued (s : State) : s.free.2.tlbIssued = s.tlbIssued := rfl
@[simp] theorem State.free_tlbDone (s : State) : s.free.2.tlbDone = s.tlbDone := rfl
@[simp] theorem State.free_invals (s : State) : s.free.2.invals = s.invals := rfl
@[simp] theorem State.free_queues (s : State) : s.free.2.queues = s.queues := rfl
@[simp] theorem State.free_grids (s : State) : s.free.2.grids = s.grids := rfl
@[simp] theorem State.free_launchSeq (s : State) : s.free.2.launchSeq = s.launchSeq := rfl
@[simp] theorem State.free_orderN (s : State) : s.free.2.orderN = s.orderN := rfl
@[simp] theorem State.free_ageN (s : State) : s.free.2.ageN = s.ageN := rfl
@[simp] theorem State.free_curPart (s : State) : s.free.2.curPart = s.curPart := rfl
@[simp] theorem State.free_credit (s : State) : s.free.2.credit = s.credit := rfl
@[simp] theorem State.free_decisions (s : State) : s.free.2.decisions = s.decisions := rfl
@[simp] theorem State.free_lastPlace (s : State) : s.free.2.lastPlace = s.lastPlace := rfl
@[simp] theorem State.free_pressure (s : State) : s.free.2.pressure = s.pressure := rfl
@[simp] theorem State.free_units (s : State) : s.free.2.units = s.units := rfl
@[simp] theorem State.free_farClock (s : State) : s.free.2.farClock = s.farClock := rfl
@[simp] theorem State.free_ownLate (s : State) : s.free.2.ownLate = s.ownLate := rfl
@[simp] theorem State.free_parts (s : State) : s.free.2.parts = s.parts := rfl
@[simp] theorem State.free_keySlot (s : State) : s.free.2.keySlot = s.keySlot := rfl
@[simp] theorem State.free_keyBusy (s : State) : s.free.2.keyBusy = s.keyBusy := rfl
@[simp] theorem State.free_keyValid (s : State) : s.free.2.keyValid = s.keyValid := rfl
@[simp] theorem State.free_keyData (s : State) : s.free.2.keyData = s.keyData := rfl
@[simp] theorem State.free_keys (s : State) : s.free.2.keys = s.keys := rfl
@[simp] theorem State.free_ports (s : State) : s.free.2.ports = s.ports := rfl
@[simp] theorem State.free_boardw (s : State) : s.free.2.boardw = s.boardw := rfl
@[simp] theorem State.free_hallSeq (s : State) : s.free.2.hallSeq = s.hallSeq := rfl
@[simp] theorem State.free_hallShort (s : State) : s.free.2.hallShort = s.hallShort := rfl
@[simp] theorem State.free_hallRejects (s : State) : s.free.2.hallRejects = s.hallRejects := rfl
@[simp] theorem State.free_boardTime (s : State) : s.free.2.boardTime = s.boardTime := rfl
@[simp] theorem State.free_levelTime (s : State) : s.free.2.levelTime = s.levelTime := rfl
@[simp] theorem State.free_links (s : State) : s.free.2.links = s.links := rfl
@[simp] theorem State.free_belcy (s : State) : s.free.2.belcy = s.belcy := rfl
@[simp] theorem State.free_routes (s : State) : s.free.2.routes = s.routes := rfl
@[simp] theorem State.free_chipcfg (s : State) : s.free.2.chipcfg = s.chipcfg := rfl
@[simp] theorem State.free_remotes (s : State) : s.free.2.remotes = s.remotes := rfl
@[simp] theorem State.free_sent (s : State) : s.free.2.sent = s.sent := rfl
@[simp] theorem State.free_heldFlits (s : State) : s.free.2.heldFlits = s.heldFlits := rfl
@[simp] theorem State.free_peerOut (s : State) : s.free.2.peerOut = s.peerOut := rfl
@[simp] theorem State.free_peerIn (s : State) : s.free.2.peerIn = s.peerIn := rfl
@[simp] theorem State.free_hostTxns (s : State) : s.free.2.hostTxns = s.hostTxns := rfl
@[simp] theorem State.free_window (s : State) : s.free.2.window = s.window := rfl
@[simp] theorem State.free_dbgbase (s : State) : s.free.2.dbgbase = s.dbgbase := rfl
@[simp] theorem State.free_dbgctx (s : State) : s.free.2.dbgctx = s.dbgctx := rfl
@[simp] theorem State.free_dbgrun (s : State) : s.free.2.dbgrun = s.dbgrun := rfl
@[simp] theorem State.free_dbgPoll (s : State) : s.free.2.dbgPoll = s.dbgPoll := rfl
@[simp] theorem State.free_dbgLog (s : State) : s.free.2.dbgLog = s.dbgLog := rfl
@[simp] theorem State.free_trcfg (s : State) : s.free.2.trcfg = s.trcfg := rfl
@[simp] theorem State.free_trcfgWas (s : State) : s.free.2.trcfgWas = s.trcfgWas := rfl
@[simp] theorem State.free_trseq (s : State) : s.free.2.trseq = s.trseq := rfl
@[simp] theorem State.free_trthresh (s : State) : s.free.2.trthresh = s.trthresh := rfl
@[simp] theorem State.free_stations (s : State) : s.free.2.stations = s.stations := rfl
@[simp] theorem State.free_featcfg (s : State) : s.free.2.featcfg = s.featcfg := rfl
@[simp] theorem State.free_retcfg (s : State) : s.free.2.retcfg = s.retcfg := rfl
@[simp] theorem State.free_svcs (s : State) : s.free.2.svcs = s.svcs := rfl
@[simp] theorem State.free_deferred (s : State) : s.free.2.deferred = s.deferred := rfl
@[simp] theorem State.free_pkg (s : State) : s.free.2.pkg = s.pkg := rfl
@[simp] theorem State.free_powerSeq (s : State) : s.free.2.powerSeq = s.powerSeq := rfl
@[simp] theorem State.free_powerAt (s : State) : s.free.2.powerAt = s.powerAt := rfl
@[simp] theorem State.free_vudor (s : State) : s.free.2.vudor = s.vudor := rfl

/-! ## updCtx -/

@[simp] theorem State.updCtx_time (s : State) (g : Agent) (f : Ctx → Ctx) : (s.updCtx g f).time = s.time := by cases g <;> rfl
@[simp] theorem State.updCtx_resetAt (s : State) (g : Agent) (f : Ctx → Ctx) : (s.updCtx g f).resetAt = s.resetAt := by cases g <;> rfl
@[simp] theorem State.updCtx_moves (s : State) (g : Agent) (f : Ctx → Ctx) : (s.updCtx g f).moves = s.moves := by cases g <;> rfl
@[simp] theorem State.updCtx_turn (s : State) (g : Agent) (f : Ctx → Ctx) : (s.updCtx g f).turn = s.turn := by cases g <;> rfl
@[simp] theorem State.updCtx_cur (s : State) (g : Agent) (f : Ctx → Ctx) : (s.updCtx g f).cur = s.cur := by cases g <;> rfl
@[simp] theorem State.updCtx_fresh (s : State) (g : Agent) (f : Ctx → Ctx) : (s.updCtx g f).fresh = s.fresh := by cases g <;> rfl
@[simp] theorem State.updCtx_nextId (s : State) (g : Agent) (f : Ctx → Ctx) : (s.updCtx g f).nextId = s.nextId := by cases g <;> rfl
@[simp] theorem State.updCtx_outbox (s : State) (g : Agent) (f : Ctx → Ctx) : (s.updCtx g f).outbox = s.outbox := by cases g <;> rfl
@[simp] theorem State.updCtx_mem (s : State) (g : Agent) (f : Ctx → Ctx) : (s.updCtx g f).mem = s.mem := by cases g <;> rfl
@[simp] theorem State.updCtx_viewKey (s : State) (g : Agent) (f : Ctx → Ctx) : (s.updCtx g f).viewKey = s.viewKey := by cases g <;> rfl
@[simp] theorem State.updCtx_poison (s : State) (g : Agent) (f : Ctx → Ctx) : (s.updCtx g f).poison = s.poison := by cases g <;> rfl
@[simp] theorem State.updCtx_homes (s : State) (g : Agent) (f : Ctx → Ctx) : (s.updCtx g f).homes = s.homes := by cases g <;> rfl
@[simp] theorem State.updCtx_l2 (s : State) (g : Agent) (f : Ctx → Ctx) : (s.updCtx g f).l2 = s.l2 := by cases g <;> rfl
@[simp] theorem State.updCtx_hostL2 (s : State) (g : Agent) (f : Ctx → Ctx) : (s.updCtx g f).hostL2 = s.hostL2 := by cases g <;> rfl
@[simp] theorem State.updCtx_hwLines (s : State) (g : Agent) (f : Ctx → Ctx) : (s.updCtx g f).hwLines = s.hwLines := by cases g <;> rfl
@[simp] theorem State.updCtx_hclk (s : State) (g : Agent) (f : Ctx → Ctx) : (s.updCtx g f).hclk = s.hclk := by cases g <;> rfl
@[simp] theorem State.updCtx_floor (s : State) (g : Agent) (f : Ctx → Ctx) : (s.updCtx g f).floor = s.floor := by cases g <;> rfl
@[simp] theorem State.updCtx_floorN (s : State) (g : Agent) (f : Ctx → Ctx) : (s.updCtx g f).floorN = s.floorN := by cases g <;> rfl
@[simp] theorem State.updCtx_reqs (s : State) (g : Agent) (f : Ctx → Ctx) : (s.updCtx g f).reqs = s.reqs := by cases g <;> rfl
@[simp] theorem State.updCtx_replies (s : State) (g : Agent) (f : Ctx → Ctx) : (s.updCtx g f).replies = s.replies := by cases g <;> rfl
@[simp] theorem State.updCtx_cores (s : State) (g : Agent) (f : Ctx → Ctx) : (s.updCtx g f).cores = s.cores := by cases g <;> rfl
@[simp] theorem State.updCtx_cmds (s : State) (g : Agent) (f : Ctx → Ctx) : (s.updCtx g f).cmds = s.cmds := by cases g <;> rfl
@[simp] theorem State.updCtx_l2tlb (s : State) (g : Agent) (f : Ctx → Ctx) : (s.updCtx g f).l2tlb = s.l2tlb := by cases g <;> rfl
@[simp] theorem State.updCtx_walkc (s : State) (g : Agent) (f : Ctx → Ctx) : (s.updCtx g f).walkc = s.walkc := by cases g <;> rfl
@[simp] theorem State.updCtx_walks (s : State) (g : Agent) (f : Ctx → Ctx) : (s.updCtx g f).walks = s.walks := by cases g <;> rfl
@[simp] theorem State.updCtx_faults (s : State) (g : Agent) (f : Ctx → Ctx) : (s.updCtx g f).faults = s.faults := by cases g <;> rfl
@[simp] theorem State.updCtx_pris (s : State) (g : Agent) (f : Ctx → Ctx) : (s.updCtx g f).pris = s.pris := by cases g <;> rfl
@[simp] theorem State.updCtx_asidcfg (s : State) (g : Agent) (f : Ctx → Ctx) : (s.updCtx g f).asidcfg = s.asidcfg := by cases g <;> rfl
@[simp] theorem State.updCtx_peercfg (s : State) (g : Agent) (f : Ctx → Ctx) : (s.updCtx g f).peercfg = s.peercfg := by cases g <;> rfl
@[simp] theorem State.updCtx_tlbinv0 (s : State) (g : Agent) (f : Ctx → Ctx) : (s.updCtx g f).tlbinv0 = s.tlbinv0 := by cases g <;> rfl
@[simp] theorem State.updCtx_tlbIssued (s : State) (g : Agent) (f : Ctx → Ctx) : (s.updCtx g f).tlbIssued = s.tlbIssued := by cases g <;> rfl
@[simp] theorem State.updCtx_tlbDone (s : State) (g : Agent) (f : Ctx → Ctx) : (s.updCtx g f).tlbDone = s.tlbDone := by cases g <;> rfl
@[simp] theorem State.updCtx_invals (s : State) (g : Agent) (f : Ctx → Ctx) : (s.updCtx g f).invals = s.invals := by cases g <;> rfl
@[simp] theorem State.updCtx_queues (s : State) (g : Agent) (f : Ctx → Ctx) : (s.updCtx g f).queues = s.queues := by cases g <;> rfl
@[simp] theorem State.updCtx_grids (s : State) (g : Agent) (f : Ctx → Ctx) : (s.updCtx g f).grids = s.grids := by cases g <;> rfl
@[simp] theorem State.updCtx_launchSeq (s : State) (g : Agent) (f : Ctx → Ctx) : (s.updCtx g f).launchSeq = s.launchSeq := by cases g <;> rfl
@[simp] theorem State.updCtx_orderN (s : State) (g : Agent) (f : Ctx → Ctx) : (s.updCtx g f).orderN = s.orderN := by cases g <;> rfl
@[simp] theorem State.updCtx_ageN (s : State) (g : Agent) (f : Ctx → Ctx) : (s.updCtx g f).ageN = s.ageN := by cases g <;> rfl
@[simp] theorem State.updCtx_curPart (s : State) (g : Agent) (f : Ctx → Ctx) : (s.updCtx g f).curPart = s.curPart := by cases g <;> rfl
@[simp] theorem State.updCtx_credit (s : State) (g : Agent) (f : Ctx → Ctx) : (s.updCtx g f).credit = s.credit := by cases g <;> rfl
@[simp] theorem State.updCtx_decisions (s : State) (g : Agent) (f : Ctx → Ctx) : (s.updCtx g f).decisions = s.decisions := by cases g <;> rfl
@[simp] theorem State.updCtx_lastPlace (s : State) (g : Agent) (f : Ctx → Ctx) : (s.updCtx g f).lastPlace = s.lastPlace := by cases g <;> rfl
@[simp] theorem State.updCtx_pressure (s : State) (g : Agent) (f : Ctx → Ctx) : (s.updCtx g f).pressure = s.pressure := by cases g <;> rfl
@[simp] theorem State.updCtx_units (s : State) (g : Agent) (f : Ctx → Ctx) : (s.updCtx g f).units = s.units := by cases g <;> rfl
@[simp] theorem State.updCtx_farClock (s : State) (g : Agent) (f : Ctx → Ctx) : (s.updCtx g f).farClock = s.farClock := by cases g <;> rfl
@[simp] theorem State.updCtx_ownLate (s : State) (g : Agent) (f : Ctx → Ctx) : (s.updCtx g f).ownLate = s.ownLate := by cases g <;> rfl
@[simp] theorem State.updCtx_parts (s : State) (g : Agent) (f : Ctx → Ctx) : (s.updCtx g f).parts = s.parts := by cases g <;> rfl
@[simp] theorem State.updCtx_keySlot (s : State) (g : Agent) (f : Ctx → Ctx) : (s.updCtx g f).keySlot = s.keySlot := by cases g <;> rfl
@[simp] theorem State.updCtx_keyBusy (s : State) (g : Agent) (f : Ctx → Ctx) : (s.updCtx g f).keyBusy = s.keyBusy := by cases g <;> rfl
@[simp] theorem State.updCtx_keyValid (s : State) (g : Agent) (f : Ctx → Ctx) : (s.updCtx g f).keyValid = s.keyValid := by cases g <;> rfl
@[simp] theorem State.updCtx_keyData (s : State) (g : Agent) (f : Ctx → Ctx) : (s.updCtx g f).keyData = s.keyData := by cases g <;> rfl
@[simp] theorem State.updCtx_keys (s : State) (g : Agent) (f : Ctx → Ctx) : (s.updCtx g f).keys = s.keys := by cases g <;> rfl
@[simp] theorem State.updCtx_ports (s : State) (g : Agent) (f : Ctx → Ctx) : (s.updCtx g f).ports = s.ports := by cases g <;> rfl
@[simp] theorem State.updCtx_boardw (s : State) (g : Agent) (f : Ctx → Ctx) : (s.updCtx g f).boardw = s.boardw := by cases g <;> rfl
@[simp] theorem State.updCtx_hallSeq (s : State) (g : Agent) (f : Ctx → Ctx) : (s.updCtx g f).hallSeq = s.hallSeq := by cases g <;> rfl
@[simp] theorem State.updCtx_hallShort (s : State) (g : Agent) (f : Ctx → Ctx) : (s.updCtx g f).hallShort = s.hallShort := by cases g <;> rfl
@[simp] theorem State.updCtx_hallRejects (s : State) (g : Agent) (f : Ctx → Ctx) : (s.updCtx g f).hallRejects = s.hallRejects := by cases g <;> rfl
@[simp] theorem State.updCtx_boardTime (s : State) (g : Agent) (f : Ctx → Ctx) : (s.updCtx g f).boardTime = s.boardTime := by cases g <;> rfl
@[simp] theorem State.updCtx_levelTime (s : State) (g : Agent) (f : Ctx → Ctx) : (s.updCtx g f).levelTime = s.levelTime := by cases g <;> rfl
@[simp] theorem State.updCtx_links (s : State) (g : Agent) (f : Ctx → Ctx) : (s.updCtx g f).links = s.links := by cases g <;> rfl
@[simp] theorem State.updCtx_belcy (s : State) (g : Agent) (f : Ctx → Ctx) : (s.updCtx g f).belcy = s.belcy := by cases g <;> rfl
@[simp] theorem State.updCtx_routes (s : State) (g : Agent) (f : Ctx → Ctx) : (s.updCtx g f).routes = s.routes := by cases g <;> rfl
@[simp] theorem State.updCtx_chipcfg (s : State) (g : Agent) (f : Ctx → Ctx) : (s.updCtx g f).chipcfg = s.chipcfg := by cases g <;> rfl
@[simp] theorem State.updCtx_remotes (s : State) (g : Agent) (f : Ctx → Ctx) : (s.updCtx g f).remotes = s.remotes := by cases g <;> rfl
@[simp] theorem State.updCtx_sent (s : State) (g : Agent) (f : Ctx → Ctx) : (s.updCtx g f).sent = s.sent := by cases g <;> rfl
@[simp] theorem State.updCtx_heldFlits (s : State) (g : Agent) (f : Ctx → Ctx) : (s.updCtx g f).heldFlits = s.heldFlits := by cases g <;> rfl
@[simp] theorem State.updCtx_peerOut (s : State) (g : Agent) (f : Ctx → Ctx) : (s.updCtx g f).peerOut = s.peerOut := by cases g <;> rfl
@[simp] theorem State.updCtx_peerIn (s : State) (g : Agent) (f : Ctx → Ctx) : (s.updCtx g f).peerIn = s.peerIn := by cases g <;> rfl
@[simp] theorem State.updCtx_hostTxns (s : State) (g : Agent) (f : Ctx → Ctx) : (s.updCtx g f).hostTxns = s.hostTxns := by cases g <;> rfl
@[simp] theorem State.updCtx_window (s : State) (g : Agent) (f : Ctx → Ctx) : (s.updCtx g f).window = s.window := by cases g <;> rfl
@[simp] theorem State.updCtx_dbgbase (s : State) (g : Agent) (f : Ctx → Ctx) : (s.updCtx g f).dbgbase = s.dbgbase := by cases g <;> rfl
@[simp] theorem State.updCtx_dbgctx (s : State) (g : Agent) (f : Ctx → Ctx) : (s.updCtx g f).dbgctx = s.dbgctx := by cases g <;> rfl
@[simp] theorem State.updCtx_dbgrun (s : State) (g : Agent) (f : Ctx → Ctx) : (s.updCtx g f).dbgrun = s.dbgrun := by cases g <;> rfl
@[simp] theorem State.updCtx_dbgPoll (s : State) (g : Agent) (f : Ctx → Ctx) : (s.updCtx g f).dbgPoll = s.dbgPoll := by cases g <;> rfl
@[simp] theorem State.updCtx_dbgLog (s : State) (g : Agent) (f : Ctx → Ctx) : (s.updCtx g f).dbgLog = s.dbgLog := by cases g <;> rfl
@[simp] theorem State.updCtx_trcfg (s : State) (g : Agent) (f : Ctx → Ctx) : (s.updCtx g f).trcfg = s.trcfg := by cases g <;> rfl
@[simp] theorem State.updCtx_trcfgWas (s : State) (g : Agent) (f : Ctx → Ctx) : (s.updCtx g f).trcfgWas = s.trcfgWas := by cases g <;> rfl
@[simp] theorem State.updCtx_trseq (s : State) (g : Agent) (f : Ctx → Ctx) : (s.updCtx g f).trseq = s.trseq := by cases g <;> rfl
@[simp] theorem State.updCtx_trthresh (s : State) (g : Agent) (f : Ctx → Ctx) : (s.updCtx g f).trthresh = s.trthresh := by cases g <;> rfl
@[simp] theorem State.updCtx_stations (s : State) (g : Agent) (f : Ctx → Ctx) : (s.updCtx g f).stations = s.stations := by cases g <;> rfl
@[simp] theorem State.updCtx_featcfg (s : State) (g : Agent) (f : Ctx → Ctx) : (s.updCtx g f).featcfg = s.featcfg := by cases g <;> rfl
@[simp] theorem State.updCtx_retcfg (s : State) (g : Agent) (f : Ctx → Ctx) : (s.updCtx g f).retcfg = s.retcfg := by cases g <;> rfl
@[simp] theorem State.updCtx_svcs (s : State) (g : Agent) (f : Ctx → Ctx) : (s.updCtx g f).svcs = s.svcs := by cases g <;> rfl
@[simp] theorem State.updCtx_deferred (s : State) (g : Agent) (f : Ctx → Ctx) : (s.updCtx g f).deferred = s.deferred := by cases g <;> rfl
@[simp] theorem State.updCtx_pkg (s : State) (g : Agent) (f : Ctx → Ctx) : (s.updCtx g f).pkg = s.pkg := by cases g <;> rfl
@[simp] theorem State.updCtx_powerSeq (s : State) (g : Agent) (f : Ctx → Ctx) : (s.updCtx g f).powerSeq = s.powerSeq := by cases g <;> rfl
@[simp] theorem State.updCtx_powerAt (s : State) (g : Agent) (f : Ctx → Ctx) : (s.updCtx g f).powerAt = s.powerAt := by cases g <;> rfl
@[simp] theorem State.updCtx_vudor (s : State) (g : Agent) (f : Ctx → Ctx) : (s.updCtx g f).vudor = s.vudor := by cases g <;> rfl

/-! ## What an update changes -/

@[simp] theorem State.updWarp_warps (s : State) (w : Nat) (f : Warp → Warp) : (s.updWarp w f).warps = Tab.upd s.warps w f := rfl
@[simp] theorem State.updTeam_teams (s : State) (t : Nat) (f : Team → Team) : (s.updTeam t f).teams = Tab.upd s.teams t f := rfl
@[simp] theorem State.updGrid_grids (s : State) (e : Nat) (f : Grid → Grid) : (s.updGrid e f).grids = Tab.upd s.grids e f := rfl
@[simp] theorem State.setCore_cores (s : State) (c : Nat) (x : Core) : (s.setCore c x).cores = Tab.set s.cores c x := rfl
@[simp] theorem State.updCore_cores (s : State) (c : Nat) (f : Core → Core) :
    (s.updCore c f).cores = Tab.set s.cores c (f (s.core c)) := rfl
@[simp] theorem State.emit_outbox (s : State) (o : Out) : (s.emit o).outbox = s.outbox ++ [o] := rfl
@[simp] theorem State.newId_nextId (s : State) : s.newId.2.nextId = s.nextId + 1 := rfl
@[simp] theorem State.newId_fst (s : State) : s.newId.1 = s.nextId := rfl
@[simp] theorem State.free_fresh (s : State) : s.free.2.fresh = s.fresh + 1 := rfl

end Sys2Proof.Machine
end

