-- ==== Sys2Proof/Laws/Tab.lean ====
section
/-!
SUPPORT. Laws of tables: what a read finds after a change, and how changes compose.
-/

namespace Sys2Proof.Machine

variable {α : Type}

theorem Tab.find_set_same (t : Tab α) (k : Nat) (v : α) : Tab.find (Tab.set t k v) k = some v := by
  induction t with
  | nil => simp [Tab.set, Tab.find]
  | cons e r ih =>
    obtain ⟨j, w⟩ := e
    by_cases h1 : j < k
    · simp [Tab.set, Tab.find, h1, ih, Nat.ne_of_lt h1]
    · by_cases h2 : j = k <;> simp [Tab.set, Tab.find, h1, h2]

theorem Tab.find_set_other (t : Tab α) {k n : Nat} (v : α) (h : n ≠ k) : Tab.find (Tab.set t k v) n = Tab.find t n := by
  induction t with
  | nil => simp [Tab.set, Tab.find, Ne.symm h]
  | cons e r ih =>
    obtain ⟨j, w⟩ := e
    by_cases h1 : j < k
    · simp [Tab.set, Tab.find, h1, ih]
    · by_cases h2 : j = k
      · subst h2
        simp [Tab.set, Tab.find, Ne.symm h]
      · simp [Tab.set, Tab.find, h1, h2, Ne.symm h]

@[simp] theorem Tab.find_set (t : Tab α) (k n : Nat) (v : α) :
    Tab.find (Tab.set t k v) n = if n = k then some v else Tab.find t n := by
  by_cases h : n = k
  · subst h
    simp [Tab.find_set_same]
  · simp [h, Tab.find_set_other t v h]

theorem Tab.find_erase_same (t : Tab α) (k : Nat) : Tab.find (Tab.erase t k) k = none := by
  induction t with
  | nil => rfl
  | cons e r ih =>
    obtain ⟨j, w⟩ := e
    by_cases h : j = k <;> simp [Tab.erase, Tab.find, h, ih]

theorem Tab.find_erase_other (t : Tab α) {k n : Nat} (h : n ≠ k) : Tab.find (Tab.erase t k) n = Tab.find t n := by
  induction t with
  | nil => rfl
  | cons e r ih =>
    obtain ⟨j, w⟩ := e
    by_cases h1 : j = k
    · subst h1
      simp [Tab.erase, Tab.find, ih, Ne.symm h]
    · simp [Tab.erase, Tab.find, h1, ih]

@[simp] theorem Tab.find_erase (t : Tab α) (k n : Nat) :
    Tab.find (Tab.erase t k) n = if n = k then none else Tab.find t n := by
  by_cases h : n = k
  · subst h
    simp [Tab.find_erase_same]
  · simp [h, Tab.find_erase_other t h]

/-- Reading what was written: a default that is not listed reads as itself. -/
@[simp] theorem Tab.get_put [DecidableEq α] (d : α) (t : Tab α) (k n : Nat) (v : α) :
    Tab.get d (Tab.put d t k v) n = if n = k then v else Tab.get d t n := by
  unfold Tab.put Tab.get
  by_cases hv : v = d <;> by_cases h : n = k <;> simp [hv, h]

@[simp] theorem Tab.get_set (d : α) (t : Tab α) (k n : Nat) (v : α) :
    Tab.get d (Tab.set t k v) n = if n = k then v else Tab.get d t n := by
  unfold Tab.get
  by_cases h : n = k <;> simp [h]

@[simp] theorem Tab.find_upd (t : Tab α) (k n : Nat) (f : α → α) :
    Tab.find (Tab.upd t k f) n = if n = k then (Tab.find t n).map f else Tab.find t n := by
  induction t with
  | nil => simp [Tab.upd, Tab.find]
  | cons e r ih =>
    obtain ⟨j, w⟩ := e
    by_cases h1 : j = k
    · subst h1
      by_cases h2 : n = j
      · subst h2
        simp [Tab.upd, Tab.find]
      · simp [Tab.upd, Tab.find, h2, Ne.symm h2]
    · by_cases h2 : j = n
      · subst h2
        simp [Tab.upd, Tab.find, h1]
      · simp [Tab.upd, Tab.find, h1, h2, ih]

/-- Two changes at one key are one change. -/
@[simp] theorem Tab.upd_upd (t : Tab α) (k : Nat) (f g : α → α) :
    Tab.upd (Tab.upd t k f) k g = Tab.upd t k (fun x => g (f x)) := by
  induction t with
  | nil => rfl
  | cons e r ih =>
    obtain ⟨j, w⟩ := e
    by_cases h : j = k <;> simp [Tab.upd, h, ih]

theorem Tab.upd_comm (t : Tab α) {k n : Nat} (h : k ≠ n) (f g : α → α) :
    Tab.upd (Tab.upd t k f) n g = Tab.upd (Tab.upd t n g) k f := by
  induction t with
  | nil => rfl
  | cons e r ih =>
    obtain ⟨j, w⟩ := e
    by_cases h1 : j = k
    · subst h1
      simp [Tab.upd, h]
    · by_cases h2 : j = n
      · subst h2
        simp [Tab.upd, h1]
      · simp [Tab.upd, h1, h2, ih]

@[simp] theorem Tab.upd_id (t : Tab α) (k : Nat) : Tab.upd t k (fun x => x) = t := by
  induction t with
  | nil => rfl
  | cons e r ih =>
    obtain ⟨j, w⟩ := e
    by_cases h : j = k <;> simp [Tab.upd, h, ih]

/-- A change that does nothing to the value listed at a key does nothing. -/
theorem Tab.upd_eq_self (t : Tab α) (k : Nat) (f : α → α) (h : ∀ x, Tab.find t k = some x → f x = x) : Tab.upd t k f = t := by
  induction t with
  | nil => rfl
  | cons e r ih =>
    obtain ⟨j, w⟩ := e
    by_cases h1 : j = k
    · subst h1
      have := h w (by simp [Tab.find])
      simp [Tab.upd, this]
    · simp only [Tab.upd, h1, if_false]
      rw [ih (fun x hx => h x (by simpa [Tab.find, h1] using hx))]

/-- Changes that agree on the value listed at a key are the same. -/
theorem Tab.upd_congr (t : Tab α) (k : Nat) (f g : α → α) (h : ∀ x, Tab.find t k = some x → f x = g x) :
    Tab.upd t k f = Tab.upd t k g := by
  induction t with
  | nil => rfl
  | cons e r ih =>
    obtain ⟨j, w⟩ := e
    by_cases h1 : j = k
    · subst h1
      simp [Tab.upd, h w (by simp [Tab.find])]
    · simp only [Tab.upd, h1, if_false]
      rw [ih (fun x hx => h x (by simpa [Tab.find, h1] using hx))]

theorem Tab.upd_of_none (t : Tab α) (k : Nat) (f : α → α) (h : Tab.find t k = none) : Tab.upd t k f = t :=
  Tab.upd_eq_self t k f (fun x hx => by simp [h] at hx)

end Sys2Proof.Machine
end

