-- ==== Sys2Proof/Laws/Issue.lean ====
section
/-!
SUPPORT. Laws of an issue: every issue of a resident agent answers a next state; what an instruction that executes normally comes to;
and instructions of fixed latency.
-/

namespace Sys2Proof.Machine

/-! ## Agents and contexts -/

@[simp] theorem State.warp_updWarp (s : State) (w k : Nat) (f : Warp → Warp) :
    (s.updWarp w f).warp k = if k = w then (s.warp k).map f else s.warp k := by
  simp [State.warp]

@[simp] theorem State.team_updTeam (s : State) (t k : Nat) (f : Team → Team) :
    (s.updTeam t f).team k = if k = t then (s.team k).map f else s.team k := by
  simp [State.team]

@[simp] theorem State.team_updWarp (s : State) (w k : Nat) (f : Warp → Warp) : (s.updWarp w f).team k = s.team k := rfl
@[simp] theorem State.warp_updTeam (s : State) (t k : Nat) (f : Team → Team) : (s.updTeam t f).warp k = s.warp k := rfl
@[simp] theorem State.grid_updWarp (s : State) (w k : Nat) (f : Warp → Warp) : (s.updWarp w f).grid k = s.grid k := rfl
@[simp] theorem State.grid_updTeam (s : State) (t k : Nat) (f : Team → Team) : (s.updTeam t f).grid k = s.grid k := rfl

theorem State.ctx_updCtx (s : State) (g : Agent) (f : Ctx → Ctx) : (s.updCtx g f).ctx g = (s.ctx g).map f := by
  cases g with
  | warp w => cases h : s.warp w <;> simp [State.updCtx, State.ctx, h]
  | ct t => cases h : s.team t <;> simp [State.updCtx, State.ctx, h]

theorem State.updCtx_updCtx (s : State) (g : Agent) (f h : Ctx → Ctx) : (s.updCtx g f).updCtx g h = s.updCtx g (fun c => h (f c)) := by
  cases g <;> simp [State.updCtx, State.updWarp, State.updTeam]

/-- An agent with a place has a context. -/
theorem State.ctx_of_who {s : State} {g : Agent} {w : Who} (h : s.who g = some w) : ∃ c, s.ctx g = some c ∧ w.g = g := by
  unfold State.who at h
  cases hc : s.ctx g with
  | none => simp [hc] at h
  | some c =>
    simp only [hc] at h
    split at h
    · simp at h
    · split at h
      · simp at h
      · exact ⟨c, rfl, by simp at h; rw [← h]⟩

/-! ## Every issue goes on -/

/-- The frame of an instruction answers a next state whenever the cursor names a resident agent. -/
theorem State.issue_next (s : State) (i : Instr) (x : Args) (body : Iss → State → Eff) {w : Who} (h : s.issuer = some w) :
    ∃ t, s.issue i x body = .next t := by
  unfold State.issue
  simp only [h]
  split
  · exact ⟨_, rfl⟩
  · split
    · exact ⟨_, rfl⟩
    · split <;> exact ⟨_, rfl⟩

/-! ## An issue that executes normally -/

theorem mask_keep (m : Mask) : m &&& ~~~(0 : Mask) = m := by
  rw [show ~~~(0 : Mask) = BitVec.allOnes 128 by decide]
  exact BitVec.and_allOnes

theorem State.Runs.issuer {s : State} {i : Instr} {x : Args} {w : Who} (h : s.Runs i x w) : s.issuer = some w := by
  simp [State.issuer, h.agent, h.who]

theorem State.Runs.sig {s : State} {i : Instr} {x : Args} {w : Who} (h : s.Runs i x w) : ∃ g, sigOf i = some g := by
  have hw := h.word
  unfold State.wordCause at hw
  cases hs : sigOf i with
  | none => simp [hs] at hw
  | some g => exact ⟨g, rfl⟩

/-- What an instruction that executes normally comes to: its effect, and then the end of the issue. -/
theorem State.Runs.issue {s : State} {i : Instr} {x : Args} {w : Who} (h : s.Runs i x w) (body : Iss → State → Eff) :
    s.issue i x body = .next (s.conclude i (s.issOf i x w) [] (body (s.issOf i x w) (s.opened w.g))) := by
  have hact : ∀ m : Mask, m &&& ~~~maskOf ([].map (fun e : Nat × Cause × W64 => e.1)) = m := by
    intro m
    exact mask_keep m
  have howed : (s.opened w.g).owedBy w (s.issOf i x w).act (s.issOf i x w).pc (s.issOf i x w).spec.isSome = [] := h.owed
  have hfree : (s.specStops w.g (s.issOf i x w).lanes i (never x.ctl) && !s.cur.buffer) = false := by
    rw [h.guard]
    exact h.free
  unfold State.issue
  simp only [h.issuer, hfree, h.word, howed, hact, Bool.false_eq_true, if_false]
  simp only [h.guard, Bool.false_eq_true, if_false]

/-- The end of an issue that neither stalled nor raised a cause, of a form that is not retired. -/
def State.tail (iss : Iss) (e : Eff) : State :=
  let s : State := { e.st with fresh := e.st.fresh + 1 }
  let s := s.leaveEntry iss e.stay
  let s := if s.cur.buffer then s else s.advance iss (iss.lanes &&& ~~~e.stay) e.go
  s.updCtx iss.w.g (fun c => { c with
    gapUntil := if iss.x.ctl.gap = 0 then c.gapUntil else iss.last + 1 + iss.x.ctl.gap.toNat
    yld := iss.x.ctl.yld
    yldAt := iss.now + 1 })

/-- Where every lane executes the instruction, its speculation entry stays as it was opened. -/
@[simp] theorem State.leaveEntry_zero (s : State) (iss : Iss) : s.leaveEntry iss 0 = s := by
  unfold State.leaveEntry
  split <;> simp

theorem State.countRetired_eq (s : State) (w : Who) {i : Instr} (h : isRetired i = false) : s.countRetired w i = s := by
  cases i <;> first | rfl | simp [isRetired] at h

/-- Lanes that owe nothing pay nothing. -/
@[simp] theorem State.payOwed_nil (s : State) (g : Agent) (pc : W64) (spec : Option Nat) (causes : List (Nat × Cause × W64)) :
    s.payOwed g pc spec [] causes = s := rfl

/-- An instruction that executes normally has its effect and ends its issue. -/
theorem State.Runs.effect {s : State} {i : Instr} {x : Args} {w : Who} (h : s.Runs i x w) (hi : isRetired i = false)
    {body : Iss → State → Eff} {e : Eff} (he : body (s.issOf i x w) (s.opened w.g) = e) (hs : e.stalled = false) :
    s.issue i x body = .next (State.finish (s.issOf i x w) e) := by
  rw [h.issue, he]
  cases e
  simp at hs
  simp [State.conclude, hs, State.countRetired_eq _ _ hi]

/-- An instruction whose meaning is an issue has the effect that the body comes to, where the body does not stall. -/
theorem hasEffect_of_body {i : Instr} {x : Args} {body : Iss → State → Eff} {pre : State → Iss → Prop} {f : State → Iss → Eff}
    (hx : ∀ s, exec i s = s.issue i x body) (hi : isRetired i = false)
    (hb : ∀ s n, n.x = x → ¬ n.act = 0 → pre s n → body n s = f s n ∧ (f s n).stalled = false) : HasEffect i x pre f := by
  intro s w h ha hp
  obtain ⟨h1, h2⟩ := hb (s.opened w.g) (s.issOf i x w) rfl ha hp
  rw [hx]
  exact h.effect hi h1 h2

theorem State.conclude_clean (s : State) {i : Instr} (iss : Iss) {e : Eff} (hi : isRetired i = false) (hs : e.stalled = false)
    (hc : e.causes = []) : s.conclude i iss [] e = State.tail iss e := by
  have ha : ∀ m k : Mask, m &&& ~~~k &&& (if iss.spec.isSome = true then m else ~~~(0 : Mask)) = m &&& ~~~k := by
    intro m k
    split
    · ext j
      simp
      intro h _
      exact h
    · exact mask_keep _
  have hm : maskOf ([] : List Nat) = 0 := rfl
  unfold State.conclude State.finish State.tail
  simp only [hs, hc, Bool.false_eq_true, if_false, State.payOwed_nil, State.countRetired_eq _ _ hi, List.nil_append,
    List.map_nil, hm, ha, lowestCause]

/-! ## What an issue leaves alone -/

theorem State.still_updWarp (s : State) (k : Nat) (f : Warp → Warp) (h : ∀ y, (f y).still = y.still) :
    (s.updWarp k f).still (.warp k) = s.still (.warp k) := by
  simp [State.still, State.updWarp, h]

theorem State.still_updTeam (s : State) (k : Nat) (f : Team → Team) (h : ∀ y, (f y).still = y.still) :
    (s.updTeam k f).still (.ct k) = s.still (.ct k) := by
  simp [State.still, State.updTeam, h]

theorem State.still_updCtx (s : State) (g : Agent) (f : Ctx → Ctx) (h : ∀ c, (f c).still = c.still) :
    (s.updCtx g f).still g = s.still g := by
  cases g with
  | warp k => exact s.still_updWarp k _ (fun y => by simp [Warp.still, h])
  | ct t => exact s.still_updTeam t _ (fun y => by simp [Team.still, h])

theorem State.still_newId (s : State) (g : Agent) : s.newId.2.still g = s.still g := by cases g <;> rfl
theorem State.still_fresh (s : State) (n : Nat) (g : Agent) : ({ s with fresh := n } : State).still g = s.still g := by cases g <;> rfl

/-! ## Contexts and program counters under updates -/

theorem State.ctx_updWarp (s : State) (k : Nat) (f : Warp → Warp) (h : ∀ y, (f y).ctx = y.ctx) (g : Agent) :
    (s.updWarp k f).ctx g = s.ctx g := by
  cases g with
  | warp j =>
    by_cases hj : j = k
    · subst hj
      cases hw : s.warp j <;> simp [State.ctx, hw, h]
    · simp [State.ctx, hj]
  | ct t => rfl

theorem State.ctx_updTeam (s : State) (k : Nat) (f : Team → Team) (h : ∀ y, (f y).ct = y.ct) (g : Agent) :
    (s.updTeam k f).ctx g = s.ctx g := by
  cases g with
  | warp j => rfl
  | ct t =>
    by_cases hj : t = k
    · subst hj
      cases hw : s.team t <;> simp [State.ctx, hw, h]
    · simp [State.ctx, hj]

theorem State.pcOf_updWarp (s : State) (k : Nat) (f : Warp → Warp) (h : ∀ y, (f y).lpc = y.lpc) (g : Agent) (j : Nat) :
    (s.updWarp k f).pcOf g j = s.pcOf g j := by
  cases g with
  | warp n =>
    by_cases hj : n = k
    · subst hj
      cases hw : s.warp n <;> simp [State.pcOf, hw, h]
    · simp [State.pcOf, hj]
  | ct t => rfl

theorem State.pcOf_updTeam (s : State) (k : Nat) (f : Team → Team) (h : ∀ y, (f y).cpc = y.cpc) (g : Agent) (j : Nat) :
    (s.updTeam k f).pcOf g j = s.pcOf g j := by
  cases g with
  | warp n => rfl
  | ct t =>
    by_cases hj : t = k
    · subst hj
      cases hw : s.team t <;> simp [State.pcOf, hw, h]
    · simp [State.pcOf, hj]

theorem State.pcOf_updCtx (s : State) (a : Agent) (f : Ctx → Ctx) (g : Agent) (j : Nat) : (s.updCtx a f).pcOf g j = s.pcOf g j := by
  cases a with
  | warp k => exact s.pcOf_updWarp k _ (by intro _; rfl) g j
  | ct t => exact s.pcOf_updTeam t _ (by intro _; rfl) g j

/-! ## The state in which an effect takes place -/

/-- The entry that is opened changes only the window of its warp. -/
theorem State.openEntry_cases (s : State) (g : Agent) (lanes : Mask) (next : W64) :
    (s.openEntry g lanes next).2 = s ∨
    ∃ k e, g = .warp k ∧ (s.openEntry g lanes next).2 = s.newId.2.updWarp k (fun x => { x with window := x.window ++ [e] }) := by
  unfold State.openEntry
  split
  · exact .inl rfl
  · split
    · exact .inl rfl
    · split
      · exact .inr ⟨_, _, rfl, rfl⟩
      · exact .inl rfl

theorem State.openedBy_cases (s : State) (g : Agent) :
    (s.openedBy g).2 = s ∨
    ∃ k e, g = .warp k ∧ (s.openedBy g).2 = s.newId.2.updWarp k (fun x => { x with window := x.window ++ [e] }) := by
  unfold State.openedBy
  split
  · exact .inl rfl
  · exact s.openEntry_cases g _ _

theorem State.opened_cases (s : State) (g : Agent) :
    (∃ t, g = .ct t ∧ s.opened g = s) ∨
    (∃ k, g = .warp k ∧ s.opened g = s.updWarp k (fun y => { y with reexec := y.reexec &&& ~~~s.cur.lanes })) ∨
    (∃ k e, g = .warp k ∧ s.opened g = (s.newId.2.updWarp k (fun x => { x with window := x.window ++ [e] })).updWarp k
      (fun y => { y with reexec := y.reexec &&& ~~~s.cur.lanes })) := by
  cases g with
  | ct t =>
    refine .inl ⟨t, rfl, ?_⟩
    rcases s.openedBy_cases (.ct t) with h | ⟨k, e, h, -⟩
    · exact h
    · cases h
  | warp k =>
    rcases s.openedBy_cases (.warp k) with h | ⟨k', e, hk, h⟩
    · exact .inr (.inl ⟨k, rfl, by rw [State.opened, h]⟩)
    · cases hk
      exact .inr (.inr ⟨k, e, rfl, by rw [State.opened, h]⟩)

theorem State.opened_still (s : State) (g : Agent) : (s.opened g).still g = s.still g := by
  rcases s.opened_cases g with ⟨t, rfl, h⟩ | ⟨k, rfl, h⟩ | ⟨k, e, rfl, h⟩
  · rw [h]
  · rw [h]
    exact s.still_updWarp k _ (by intro _; rfl)
  · rw [h]
    exact ((State.still_updWarp _ _ _ (by intro _; rfl)).trans (State.still_updWarp _ _ _ (by intro _; rfl))).trans (s.still_newId _)

@[simp] theorem State.opened_cur (s : State) (g : Agent) : (s.opened g).cur = s.cur := by
  rcases s.opened_cases g with ⟨t, rfl, h⟩ | ⟨k, rfl, h⟩ | ⟨k, e, rfl, h⟩ <;> rw [h] <;> rfl

@[simp] theorem State.opened_fresh (s : State) (g : Agent) : (s.opened g).fresh = s.fresh := by
  rcases s.opened_cases g with ⟨t, rfl, h⟩ | ⟨k, rfl, h⟩ | ⟨k, e, rfl, h⟩ <;> rw [h] <;> rfl

@[simp] theorem State.opened_cycle (s : State) (g : Agent) (c : Nat) : (s.opened g).cycle c = s.cycle c := by
  rcases s.opened_cases g with ⟨t, rfl, h⟩ | ⟨k, rfl, h⟩ | ⟨k, e, rfl, h⟩ <;> rw [h] <;> rfl

@[simp] theorem State.opened_ctx (s : State) (g a : Agent) : (s.opened g).ctx a = s.ctx a := by
  rcases s.opened_cases g with ⟨t, rfl, h⟩ | ⟨k, rfl, h⟩ | ⟨k, e, rfl, h⟩
  · rw [h]
  · rw [h]
    exact s.ctx_updWarp k _ (by intro _; rfl) a
  · rw [h]
    exact (State.ctx_updWarp _ _ _ (by intro _; rfl) _).trans (State.ctx_updWarp s.newId.2 _ _ (by intro _; rfl) _)

@[simp] theorem State.opened_team (s : State) (g : Agent) (t : Nat) : (s.opened g).team t = s.team t := by
  rcases s.opened_cases g with ⟨t, rfl, h⟩ | ⟨k, rfl, h⟩ | ⟨k, e, rfl, h⟩ <;> rw [h] <;> rfl

@[simp] theorem State.opened_grid (s : State) (g : Agent) (t : Nat) : (s.opened g).grid t = s.grid t := by
  rcases s.opened_cases g with ⟨t, rfl, h⟩ | ⟨k, rfl, h⟩ | ⟨k, e, rfl, h⟩ <;> rw [h] <;> rfl

@[simp] theorem State.opened_pcOf (s : State) (g a : Agent) (j : Nat) : (s.opened g).pcOf a j = s.pcOf a j := by
  rcases s.opened_cases g with ⟨t, rfl, h⟩ | ⟨k, rfl, h⟩ | ⟨k, e, rfl, h⟩
  · rw [h]
  · rw [h]
    exact s.pcOf_updWarp k _ (by intro _; rfl) a j
  · rw [h]
    exact (State.pcOf_updWarp _ _ _ (by intro _; rfl) _ _).trans (State.pcOf_updWarp s.newId.2 _ _ (by intro _; rfl) _ _)

/-- A property of a warp that its window and its lanes to re-execute have no part in. -/
theorem State.opened_warp {α : Type} (s : State) (g : Agent) (k : Nat) (f : Warp → α)
    (h : ∀ y w r, f { y with window := w, reexec := r } = f y) : ((s.opened g).warp k).map f = (s.warp k).map f := by
  have h1 : ∀ (y : Warp) r, f { y with reexec := r } = f y := fun y r => h y y.window r
  have h2 : ∀ (y : Warp) w, f { y with window := w } = f y := fun y w => h y w y.reexec
  rcases s.opened_cases g with ⟨t, rfl, e⟩ | ⟨n, rfl, e⟩ | ⟨n, v, rfl, e⟩
  · rw [e]
  · rw [e]
    by_cases hk : k = n
    · subst hk
      cases hw : s.warp k <;> simp [hw, h1]
    · simp [hk]
  · rw [e]
    by_cases hk : k = n
    · subst hk
      have : s.newId.2.warp k = s.warp k := rfl
      cases hw : s.warp k <;> simp [this, hw, h]
    · have : s.newId.2.warp k = s.warp k := rfl
      simp [hk, this]

@[simp] theorem State.opened_base (s : State) (g a : Agent) (j : Nat) (d : Dest) : (s.opened g).base a j d = s.base a j d := by
  cases a with
  | ct t => cases d <;> simp [State.base]
  | warp k =>
    have hv := s.opened_warp g k (·.v) (by intro _ _ _; rfl)
    have hp := s.opened_warp g k (·.p) (by intro _ _ _; rfl)
    have hj := s.opened_warp g k (·.j) (by intro _ _ _; rfl)
    have hd := s.opened_warp g k (·.depth) (by intro _ _ _; rfl)
    cases h1 : (s.opened g).warp k <;> cases h2 : s.warp k <;> simp [h1, h2] at hv hp hj hd <;> cases d <;>
      simp [State.base, h1, h2, hv, hp, hj, hd]

@[simp] theorem State.opened_regPart (s : State) (g a : Agent) (j : Nat) (p d : Dest) :
    (s.opened g).regPart a j p d = s.regPart a j p d := by
  unfold State.regPart
  simp

@[simp] theorem State.opened_reg (s : State) (g a : Agent) (j : Nat) (d : Dest) : (s.opened g).reg a j d = s.reg a j d := by
  simp [State.reg]

@[simp] theorem State.opened_opnd (s : State) (g a : Agent) (uni packed : Bool) (j : Nat) (t : Ty) (o : Opnd) :
    (s.opened g).opnd a uni packed j t o = s.opnd a uni packed j t o := by
  cases o <;> simp [State.opnd, State.regPair]

@[simp] theorem State.opened_src (s : State) (iss : Iss) (g : Agent) (j : Nat) (t : Ty) (o : Opnd) :
    iss.src (s.opened g) j t o = iss.src s j t o := by
  simp [Iss.src]

@[simp] theorem State.opened_src32 (s : State) (iss : Iss) (g : Agent) (j : Nat) (o : Opnd) :
    iss.src32 (s.opened g) j o = iss.src32 s j o := by
  simp [Iss.src32]

@[simp] theorem State.opened_fsrc (s : State) (iss : Iss) (g : Agent) (j : Nat) (t : Ty) (o : Opnd) :
    iss.fsrc (s.opened g) j t o = iss.fsrc s j t o := by
  simp [Iss.fsrc]

@[simp] theorem State.opened_psrc (s : State) (iss : Iss) (g : Agent) (j : Nat) (t : Ty) (o : Opnd) :
    iss.psrc (s.opened g) j t o = iss.psrc s j t o := by
  simp [Iss.psrc]

@[simp] theorem State.opened_widthOf (s : State) (g a : Agent) : (s.opened g).widthOf a = s.widthOf a := by
  cases a with
  | ct t => rfl
  | warp k =>
    have hw := s.opened_warp g k (·.width) (by intro _ _ _; rfl)
    cases h1 : (s.opened g).warp k <;> cases h2 : s.warp k <;> simp [h1, h2] at hw <;> simp [State.widthOf, h1, h2, hw]

/-! ## Results on their way -/

/-- What addLanding does: no more than its name says. -/
theorem State.addLanding_spec (s : State) (g : Agent) (due : Nat) (lanes : Mask) (ws : List RegWrite) (spec : Option Nat) :
    (s.addLanding g due lanes ws spec).still g = s.still g ∧
    (s.addLanding g due lanes ws spec).cur = s.cur ∧
    (∀ a j, (s.addLanding g due lanes ws spec).pcOf a j = s.pcOf a j) ∧
    (∃ id, (s.addLanding g due lanes ws spec).ctx g = (s.ctx g).map (fun c => { c with
      landings := if ws.isEmpty then c.landings else
        insertLanding { id := id, due := due, lanes := lanes, writes := ws, spec := spec } c.landings })) := by
  unfold State.addLanding
  split
  · refine ⟨rfl, rfl, fun _ _ => rfl, 0, ?_⟩
    cases s.ctx g <;> rfl
  · cases g with
    | ct t =>
      refine ⟨?_, rfl, fun a j => ?_, s.nextId, ?_⟩
      · exact (State.still_updCtx _ _ _ (by intro _; rfl)).trans (s.still_newId _)
      · exact State.pcOf_updCtx _ _ _ _ _
      · exact State.ctx_updCtx _ _ _
    | warp k =>
      refine ⟨?_, rfl, fun a j => ?_, s.nextId, ?_⟩
      · exact ((State.still_updWarp _ _ _ (by intro _; rfl)).trans (State.still_updCtx _ _ _ (by intro _; rfl))).trans (s.still_newId _)
      · exact (State.pcOf_updWarp _ _ _ (by intro _; rfl) _ _).trans (State.pcOf_updCtx _ _ _ _ _)
      · exact (State.ctx_updWarp _ _ _ (by intro _; rfl) _).trans (State.ctx_updCtx _ _ _)

theorem foldl_set_get {α : Type} (d : α) (ls : List Nat) (v : Nat → α) (t : Tab α) (j : Nat) :
    Tab.get d (ls.foldl (fun t i => Tab.set t i (v i)) t) j = if j ∈ ls then v j else Tab.get d t j := by
  induction ls generalizing t with
  | nil => simp
  | cons a r ih =>
    simp only [List.foldl_cons, ih, Tab.get_set, List.mem_cons]
    by_cases h1 : j ∈ r <;> by_cases h2 : j = a <;> simp [h1, h2]

@[simp] theorem mem_lanesOf (m : Mask) (j : Nat) : j ∈ lanesOf m ↔ m.getLsbD j = true := by
  simp only [lanesOf, List.mem_filter, List.mem_range]
  exact ⟨fun h => h.2, fun h => ⟨BitVec.lt_of_getLsbD h, h⟩⟩

/-- What advance does to an agent's own record and to its program counters. -/
theorem State.advance_spec (s : State) (iss : Iss) (lanes : Mask) (go : Tab W64) :
    (s.advance iss lanes go).still iss.w.g = s.still iss.w.g ∧
    (s.advance iss lanes go).ctx iss.w.g = s.ctx iss.w.g ∧
    (s.ctx iss.w.g ≠ none → ∀ j, (s.advance iss lanes go).pcOf iss.w.g j =
      match iss.w.g with
      | .warp _ => if lanes.getLsbD j then (Tab.find go j).getD iss.next else s.pcOf iss.w.g j
      | .ct _ => if lanes = 0 then s.pcOf iss.w.g j else (Tab.find go 0).getD iss.next) := by
  unfold State.advance
  cases hg : iss.w.g with
  | ct t =>
    by_cases hl : lanes = 0
    · simp [hl]
    · simp only [hl, if_false]
      refine ⟨State.still_updTeam _ _ _ (by intro _; rfl), State.ctx_updTeam _ _ _ (by intro _; rfl) _, fun hc j => ?_⟩
      cases ht : s.team t with
      | none => simp [State.ctx, ht] at hc
      | some x => simp [State.pcOf, ht]
  | warp k =>
    refine ⟨State.still_updWarp _ _ _ (by intro _; rfl), State.ctx_updWarp _ _ _ (by intro _; rfl) _, fun hc j => ?_⟩
    cases ht : s.warp k with
    | none => simp [State.ctx, ht] at hc
    | some x => simp [State.pcOf, ht, foldl_set_get]

/-! ## Instructions of fixed latency -/

/-- An instruction of fixed latency that executes normally issues its results and does nothing else. -/
theorem State.Runs.fixed {s : State} {i : Instr} {x : Args} {w : Who} (h : s.Runs i x w) (hi : isRetired i = false)
    (f : Iss → State → Nat → List RegWrite) :
    ∃ t, s.fixed i x f = .next t ∧
      s.Issued t i x w ((s.issOf i x w).each.flatMap (f (s.issOf i x w) (s.opened w.g))) := by
  obtain ⟨c, hc, -⟩ := State.ctx_of_who h.who
  refine ⟨_, h.issue _, ?_⟩
  rw [State.conclude_clean _ _ hi rfl rfl]
  generalize hws : (s.issOf i x w).each.flatMap (f (s.issOf i x w) (s.opened w.g)) = ws
  obtain ⟨ha1, ha2, ha3, id, ha4⟩ := (s.opened w.g).addLanding_spec w.g ((s.issOf i x w).last + latency i) (s.issOf i x w).act ws
    (s.issOf i x w).spec
  simp only [State.opened_cur] at ha2
  simp only [State.opened_ctx, hc, Option.map_some] at ha4
  have hr : (s.issOf i x w).results (s.opened w.g) (latency i) ws =
      (s.opened w.g).addLanding w.g ((s.issOf i x w).last + latency i) (s.issOf i x w).act ws (s.issOf i x w).spec := rfl
  unfold State.tail
  simp only [hr, State.leaveEntry_zero]
  set u := (s.opened w.g).addLanding w.g ((s.issOf i x w).last + latency i) (s.issOf i x w).act ws (s.issOf i x w).spec with hu
  have hul : (s.issOf i x w).lanes &&& ~~~(0 : Mask) = s.cur.lanes := mask_keep _
  set u' : State := { u with fresh := u.fresh + 1 } with hu'
  have hs' : u'.still w.g = s.still w.g := by
    rw [hu', State.still_fresh, ha1, State.opened_still]
  have hc' : u'.ctx w.g = u.ctx w.g := by cases w.g <;> rfl
  have hp' : ∀ j, u'.pcOf w.g j = s.pcOf w.g j := by
    intro j
    have : u'.pcOf w.g j = u.pcOf w.g j := by cases w.g <;> rfl
    rw [this, ha3, State.opened_pcOf]
  obtain ⟨hb1, hb2, hb3⟩ := u'.advance_spec (s.issOf i x w) s.cur.lanes []
  have hwg : (s.issOf i x w).w.g = w.g := rfl
  rw [hwg] at hb1 hb2 hb3
  have hcur : u'.cur.buffer = s.cur.buffer := congrArg Cursor.buffer ha2
  rw [hul, hwg, hcur]
  have hne : u'.ctx w.g ≠ none := by
    rw [hc', ha4]
    simp
  refine ⟨?_, fun c' hcc => ?_, fun j => ?_⟩
  · refine (State.still_updCtx _ _ _ (by intro _; rfl)).trans ?_
    split
    · exact hs'
    · rw [hb1, hs']
  · rw [hc] at hcc
    cases hcc
    rw [State.ctx_updCtx]
    have : (if s.cur.buffer = true then u' else u'.advance (s.issOf i x w) s.cur.lanes []).ctx w.g = u.ctx w.g := by
      split
      · exact hc'
      · rw [hb2, hc']
    rw [this, ha4]
    exact ⟨_, id, rfl, rfl, rfl, rfl, rfl⟩
  · rw [State.pcOf_updCtx]
    by_cases hb : s.cur.buffer
    · simp [hb, hp']
    · simp only [hb, Bool.false_eq_true, if_false, Bool.not_false, Bool.and_true]
      rw [hb3 hne j]
      have hn : (s.issOf i x w).next = s.nextPc := rfl
      cases hg : w.g with
      | warp k =>
        have := hp' j
        rw [hg] at this
        by_cases hl : s.cur.lanes.getLsbD j = true <;> simp [State.executing, Tab.find, hn, this, hl]
      | ct t =>
        simp only [State.executing, Tab.find, Option.getD_none, hn]
        have ht := hp' j
        rw [hg] at ht
        by_cases hl : s.cur.lanes = 0#128
        · rw [ht]
          simp [hl]
        · have hb : (s.cur.lanes != 0) = true := by simp [hl]
          simp only [hb, if_true]
          simp [hl]

/-- An instruction whose meaning is the shape of fixed latency has these results, where they are read alike once its entry is open. -/
theorem fixedResult_of {i : Instr} {x : Args} {g : Iss → State → Nat → List RegWrite} {f : State → Iss → Nat → List RegWrite}
    (hx : ∀ s, exec i s = s.fixed i x g) (hi : isRetired i = false) (he : ∀ s n j, n.x = x → g n s j = f s n j)
    (ho : ∀ s n a j, f (State.opened s a) n j = f s n j) : FixedResult i x f := by
  intro s w h
  obtain ⟨t, h1, h2⟩ := h.fixed hi g
  refine ⟨t, by rw [hx]; exact h1, ?_⟩
  have : g (s.issOf i x w) (s.opened w.g) = f s (s.issOf i x w) := by
    funext j
    rw [he _ _ _ rfl, ho]
  rw [← this]
  exact h2

end Sys2Proof.Machine
end

