-- ==== Sys2Proof/Laws/Memory.lean ====
section
/-!
SUPPORT. Laws of one memory: a read after a write, and that every operation keeps the canonical form (rising addresses, no listed
zero).
-/

namespace Sys2Proof.Machine

theorem Memory.wf_tail {e : Nat × Byte} {m : Mem} (h : Memory.wf (e :: m) = true) : Memory.wf m = true := by
  obtain ⟨i, v⟩ := e
  cases m with
  | nil => rfl
  | cons f r =>
    obtain ⟨j, w⟩ := f
    simp [Memory.wf] at h
    exact h.2

theorem Memory.wf_head {i : Nat} {v : Byte} {m : Mem} (h : Memory.wf ((i, v) :: m) = true) : v ≠ 0 := by
  cases m with
  | nil => simpa [Memory.wf] using h
  | cons f r =>
    obtain ⟨j, w⟩ := f
    simp [Memory.wf] at h
    exact h.1.1

/-- Every address listed after the first is higher. -/
theorem Memory.wf_lt {i : Nat} {v : Byte} {m : Mem} (h : Memory.wf ((i, v) :: m) = true) : ∀ e ∈ m, i < e.1 := by
  induction m generalizing i v with
  | nil => simp
  | cons f r ih =>
    obtain ⟨j, w⟩ := f
    have h' := h
    simp [Memory.wf] at h'
    intro e he
    rcases List.mem_cons.mp he with rfl | he
    · exact h'.1.2
    · exact Nat.lt_trans h'.1.2 (ih h'.2 e he)

theorem Memory.wf_cons {i : Nat} {v : Byte} {m : Mem} (hv : v ≠ 0) (hl : ∀ e ∈ m, i < e.1) (hm : Memory.wf m = true) :
    Memory.wf ((i, v) :: m) = true := by
  have hv : ¬v = 0#8 := hv
  cases m with
  | nil => simp [Memory.wf, hv]
  | cons f r =>
    obtain ⟨j, w⟩ := f
    have := hl (j, w) (by simp)
    simp [Memory.wf, hv, this, hm]

/-- A memory lists nothing at an address below its first. -/
theorem Mem.read_of_lt {m : Mem} {a : Nat} (h : ∀ e ∈ m, a < e.1) : Mem.read m a = 0 := by
  cases m with
  | nil => rfl
  | cons e r =>
    obtain ⟨i, v⟩ := e
    have hi : a < i := h (i, v) (by simp)
    simp [Mem.read, hi, Nat.ne_of_gt hi]

theorem Mem.write_mem {m : Mem} {a : Nat} {v : Byte} {e : Nat × Byte} (h : e ∈ Mem.write m a v) : e ∈ m ∨ e.1 = a := by
  induction m with
  | nil =>
    by_cases hv : v = 0#8
    · simp [Mem.write, hv] at h
    · simp [Mem.write, hv] at h
      exact .inr (by simp [h])
  | cons f r ih =>
    obtain ⟨i, w⟩ := f
    unfold Mem.write at h
    split at h
    · rcases List.mem_cons.mp h with rfl | h
      · simp
      · rcases ih h with h | h
        · exact .inl (List.mem_cons_of_mem _ h)
        · exact .inr h
    · split at h
      · split at h
        · exact .inl (List.mem_cons_of_mem _ h)
        · rcases List.mem_cons.mp h with rfl | h
          · exact .inr rfl
          · exact .inl (List.mem_cons_of_mem _ h)
      · split at h
        · exact .inl h
        · rcases List.mem_cons.mp h with rfl | h
          · exact .inr rfl
          · exact .inl h

/-- A write keeps the canonical form. -/
theorem Mem.write_wf {m : Mem} (a : Nat) (v : Byte) (h : Memory.wf m = true) : Memory.wf (Mem.write m a v) = true := by
  induction m with
  | nil => by_cases hv : v = 0#8 <;> simp [Mem.write, Memory.wf, hv]
  | cons f r ih =>
    obtain ⟨i, w⟩ := f
    have hl := Memory.wf_lt h
    have hr := Memory.wf_tail h
    have hw := Memory.wf_head h
    unfold Mem.write
    split
    · rename_i hia
      refine Memory.wf_cons hw (fun e he => ?_) (ih hr)
      rcases Mem.write_mem he with he | he
      · exact hl e he
      · omega
    · split
      · rename_i hia
        subst hia
        split
        · exact hr
        · exact Memory.wf_cons ‹_› hl hr
      · split
        · exact h
        · rename_i h1 h2 hv
          refine Memory.wf_cons hv (fun e he => ?_) h
          rcases List.mem_cons.mp he with rfl | he
          · simp
            omega
          · have := hl e he
            omega

/-- The byte written is read back, and every other byte reads as before. -/
@[simp] theorem Mem.read_write {m : Mem} (h : Memory.wf m = true) (a b : Nat) (v : Byte) :
    Mem.read (Mem.write m a v) b = if b = a then v else Mem.read m b := by
  induction m with
  | nil =>
    by_cases hv : v = 0#8
    · simp [Mem.write, Mem.read, hv]
    · by_cases hb : b = a
      · simp [Mem.write, Mem.read, hv, hb]
      · simp [Mem.write, Mem.read, hv, hb, Ne.symm hb]
  | cons f r ih =>
    obtain ⟨i, w⟩ := f
    have hl := Memory.wf_lt h
    have hr := Memory.wf_tail h
    have ih := ih hr
    unfold Mem.write
    split
    · rename_i hia
      simp only [Mem.read, ih]
      by_cases hb : b = a
      · subst hb
        simp [Nat.ne_of_lt hia, Nat.not_lt.mpr (Nat.le_of_lt hia)]
      · simp [hb]
    · split
      · rename_i hia
        subst hia
        split
        · rename_i hv
          subst hv
          by_cases hb : b = i
          · subst hb
            simp [Mem.read_of_lt hl]
          · by_cases hlt : b < i
            · simp [Mem.read, hb, hlt, Ne.symm hb, Mem.read_of_lt (m := r) (a := b) (fun e he => Nat.lt_trans hlt (hl e he))]
            · simp [Mem.read, hb, hlt, Ne.symm hb]
        · by_cases hb : b = i
          · simp [Mem.read, hb]
          · simp [Mem.read, hb, Ne.symm hb]
      · rename_i h1 h2
        have hai : a < i := by omega
        split
        · rename_i hv
          subst hv
          by_cases hb : b = a
          · subst hb
            simp [Mem.read, hai, Nat.ne_of_gt hai]
          · simp [hb]
        · by_cases hb : b = a
          · simp [Mem.read, hb]
          · by_cases hlt : b < a
            · have : b < i := by omega
              simp [Mem.read, hb, hlt, Ne.symm hb, this, Nat.ne_of_gt this]
            · simp [Mem.read, hb, hlt, Ne.symm hb]

theorem Mem.writeN_wf {m : Mem} (a n v : Nat) (h : Memory.wf m = true) : Memory.wf (Mem.writeN m a n v) = true := by
  induction n generalizing m a v with
  | zero => exact h
  | succ k ih => exact ih _ _ (Mem.write_wf _ _ h)

/-- A write of n bytes leaves every byte outside them alone. -/
theorem Mem.read_writeN_outside {m : Mem} (h : Memory.wf m = true) (a n v b : Nat) (hb : b < a ∨ a + n ≤ b) :
    Mem.read (Mem.writeN m a n v) b = Mem.read m b := by
  induction n generalizing m a v with
  | zero => rfl
  | succ k ih =>
    have h1 : b ≠ a := by omega
    have h2 : b < a + 1 ∨ a + 1 + k ≤ b := by omega
    simp [Mem.writeN, ih (Mem.write_wf _ _ h) _ _ h2, Mem.read_write h, h1]

/-- Byte i of n bytes written is byte i of the value, the lowest first (R3). -/
theorem Mem.read_writeN_inside {m : Mem} (h : Memory.wf m = true) (a n v i : Nat) (hi : i < n) :
    Mem.read (Mem.writeN m a n v) (a + i) = BitVec.ofNat 8 (v / 256 ^ i) := by
  induction n generalizing m a v i with
  | zero => omega
  | succ k ih =>
    cases i with
    | zero =>
      have := Mem.read_writeN_outside (Mem.write_wf a (BitVec.ofNat 8 v) h) (a + 1) k (v / 256) a (by omega)
      simp [Mem.writeN, this, Mem.read_write h]
    | succ j =>
      have := ih (m := Mem.write m a (BitVec.ofNat 8 v)) (Mem.write_wf _ _ h) (a + 1) (v / 256) j (by omega)
      rw [show a + 1 + j = a + (j + 1) by omega] at this
      simp only [Mem.writeN, this, Nat.div_div_eq_div_mul]
      congr 2
      rw [Nat.pow_succ, Nat.mul_comm]

theorem Mem.writeMasked_wf {m : Mem} (a : Nat) (d : Line) (k : ByteMask) (i n : Nat) (h : Memory.wf m = true) :
    Memory.wf (Mem.writeMasked m a d k i n) = true := by
  induction n generalizing m i with
  | zero => exact h
  | succ j ih =>
    unfold Mem.writeMasked
    apply ih
    split
    · exact Mem.write_wf _ _ h
    · exact h

/-- A write under a mask changes only bytes of its line. -/
theorem Mem.read_writeMasked_outside {m : Mem} (h : Memory.wf m = true) (a : Nat) (d : Line) (k : ByteMask) (i n b : Nat)
    (hb : b < a + i ∨ a + i + n ≤ b) : Mem.read (Mem.writeMasked m a d k i n) b = Mem.read m b := by
  induction n generalizing m i with
  | zero => rfl
  | succ j ih =>
    have h1 : b ≠ a + i := by omega
    have h2 : b < a + (i + 1) ∨ a + (i + 1) + j ≤ b := by omega
    unfold Mem.writeMasked
    by_cases hk : k.getLsbD i
    · simp [hk, ih (Mem.write_wf _ _ h) _ h2, Mem.read_write h, h1]
    · simp [hk, ih h _ h2]

end Sys2Proof.Machine
end

