-- ==== Sys2Proof/Tests/Slice0.lean ====
section
/-!
SUPPORT. Tests: words written out from the spec's encoding and what they decode to, an ill-formed term for each check of WellFormed,
states in which the hypotheses of the statements hold, and single steps.
-/

namespace Sys2Proof.Tests

set_option Elab.async false

open Sys2Proof.Machine

/-! ## Operands and words -/

def always : Ctl := { gap := 0, yld := false, alloc := 0, wait := 0, neg := false, guard := 7 }
def r0 : Opnd := .raw 0

/-- A word with these operands, type and MOD bits, unguarded and without a tag. -/
def word (t : Ty) (m : BitVec 10) (d a b c : Opnd) : Args := { ctl := always, d := d, a := a, b := b, c := c, ty := t, mod := m }

/-- The same with tag 1. -/
def tagged (t : Ty) (m : BitVec 10) (d a b c : Opnd) : Args := { word t m d a b c with ctl := { always with alloc := 1 } }

/-! ## WellFormed refuses (R251 to R257) -/

def add : Args := word .i32 0 (.v 1) (.v 2) (.v 3) r0

theorem test_wf_add : WellFormed (.iadd add) = true := by decide +kernel
/-- R255: a type that the form does not accept. -/
theorem test_wf_type : WellFormed (.iadd { add with ty := .f32 }) = false := by decide +kernel
/-- R256: a MOD bit that the form does not define. -/
theorem test_wf_mod : WellFormed (.iadd { add with mod := 1 }) = false := by decide +kernel
/-- R256: rounding code 5. -/
theorem test_wf_rounding : WellFormed (.fadd (word .f32 5 (.v 1) (.v 2) (.v 3) r0)) = false := by decide +kernel
/-- R253: two literals. -/
theorem test_wf_literals : WellFormed (.iadd { add with a := .lit32 1, b := .lit32 2 }) = false := by decide +kernel
/-- R253: a 64-bit literal of a 32-bit type. -/
theorem test_wf_literal64 : WellFormed (.iadd { add with b := .lit64 2 }) = false := by decide +kernel
/-- R252: a pair that starts at an odd register. -/
theorem test_wf_pair : WellFormed (.iadd (word .i64 0 (.v 1) (.v 2) (.v 4) r0)) = false := by decide +kernel
/-- R251: a destination that is no register. -/
theorem test_wf_destination : WellFormed (.iadd { add with d := .k 16 }) = false := by decide +kernel
/-- R251: a lane register in the uniform set. -/
theorem test_wf_uniform : WellFormed (.uadd add) = false := by decide +kernel
/-- R379: a lane register where the operand is used once. -/
theorem test_wf_once : WellFormed (.nap (word .i32 0 r0 (.v 2) r0 r0)) = false := by decide +kernel
/-- R251: a predicate destination that is a register. -/
theorem test_wf_predicate : WellFormed (.icmp add) = false := by decide +kernel
/-- R304: condition code 6. -/
theorem test_wf_condition : WellFormed (.icmp (word .i32 0xC0 (.p 2) (.v 2) (.v 3) r0)) = false := by decide +kernel
/-- R350: the base of a global address is a pair or a 64-bit literal. -/
theorem test_wf_base : WellFormed (.ld (tagged .b32 0 (.v 8) (.v 3) (.k 16) r0)) = false := by decide +kernel
/-- R350: a predicate code as the base of a scratchpad address. -/
theorem test_wf_scratch_base : WellFormed (.ld (tagged .b32 1 (.v 8) (.p 3) (.k 16) r0)) = false := by decide +kernel
/-- R352: scope 5, and space 3. -/
theorem test_wf_scope : WellFormed (.ld (tagged .b32 0x14 (.v 8) (.v 4) (.k 16) r0)) = false ∧
    WellFormed (.ld (tagged .b32 3 (.v 8) (.v 4) (.k 16) r0)) = false := by decide +kernel
/-- R352: a load that releases. -/
theorem test_wf_order : WellFormed (.ld (tagged .b32 0x40 (.v 8) (.v 4) (.k 16) r0)) = false := by decide +kernel
/-- R297: a carry in that is neither a predicate nor 0 nor 1. -/
theorem test_wf_carry : WellFormed (.iaddc (word .i32 0x380 (.v 1) (.v 2) (.v 3) (.k 18))) = false := by decide +kernel
/-- R372: a rejoin mask below j0. -/
theorem test_wf_jmask : WellFormed (.jset (word .i32 0 r0 r0 (.k 15) r0)) = false := by decide +kernel
/-- R370: a counter limit past 63. -/
theorem test_wf_waitc : WellFormed (.waitc (word .i32 0 (.raw 64) (.raw 63) (.raw 63) (.raw 63))) = false := by decide +kernel
/-- R397: a special register that does not exist, and .hi of one that has no high word. -/
theorem test_wf_special : WellFormed (.sread (word .b32 34 (.v 1) r0 r0 r0)) = false ∧
    WellFormed (.sread (word .b32 0x104 (.v 1) r0 r0 r0)) = false := by decide +kernel
/-- R393: trigger level 16, and a level that is no constant code. -/
theorem test_wf_trigger : ([.k 15, .k 16, .lit32 1, .p 1] : List Opnd).all (fun a => !WellFormed (.utrig (word .i32 0 r0 a r0 r0))) = true := by decide +kernel
/-- R380: quarter-tile 64. -/
theorem test_wf_quarter : WellFormed (.mxz (word .i32 0 (.raw 64) r0 r0 r0)) = false := by decide +kernel
/-- R360: a floating-point AND. -/
theorem test_wf_atomic : WellFormed (.atom (tagged .f32 0x180 (.v 8) (.v 4) (.v 5) r0)) = false := by decide +kernel
/-- R315: the exit kind that another form has. -/
theorem test_wf_selects : WellFormed (.exit (word .i32 0x20 r0 r0 r0 r0)) = false ∧ WellFormed (.exitTeam (word .i32 0x20 r0 r0 r0 r0)) = true := by
  decide +kernel

/-! ## Words of each family, bit by bit (R246, R264, R265) -/

/-- The fields of R246 put in their places. -/
def bits (s gap yld alloc wait cls minor guard dst sa sb sc ty mod : Nat) : Nat :=
  s * 2 ^ 79 + gap * 2 ^ 75 + yld * 2 ^ 74 + alloc * 2 ^ 71 + wait * 2 ^ 64 + cls * 2 ^ 60 + minor * 2 ^ 54 + guard * 2 ^ 50 + dst * 2 ^ 41 +
    sa * 2 ^ 32 + sb * 2 ^ 23 + sc * 2 ^ 14 + ty * 2 ^ 10 + mod

/-- A word on its own, with no literal after it. -/
def wordAt (w : Nat) : BitVec 208 := BitVec.ofNat 208 w

theorem test_word_integer : decode (wordAt (bits 0 3 0 0 0 0 1 7 4 5 (336 - 2) 0 2 0x10)) = .error .illegalOperand ∧
    decode (wordAt (bits 0 3 0 0 0 0 1 7 4 6 (336 - 2) 0 2 0x10)) =
      .ok (.isub { ctl := { always with gap := 3 }, d := .v 4, a := .v 6, b := .k 14, c := .raw 0, ty := .i64, mod := 0x10 }) := by decide +kernel
theorem test_word_logic : decode (wordAt (bits 0 0 1 0 0 1 9 9 4 5 6 300 14 0x20)) =
    .ok (.shf { ctl := { always with yld := true, neg := true, guard := 1 }, d := .v 4, a := .v 5, b := .v 6, c := .s 44, ty := .b32, mod := 0x20 }) := by
  decide +kernel
theorem test_word_compare : decode (wordAt (bits 0 0 0 0 0 2 1 7 (352 + 3) 8 9 0 8 0x28)) =
    .ok (.fcmp (word .f32 0x28 (.p 3) (.v 8) (.v 9) r0)) := by decide +kernel
theorem test_word_float : decode (wordAt (bits 0 0 0 0 0 3 0 7 4 6 8 0 9 0x11)) =
    .ok (.fadd (word .f64 0x11 (.v 4) (.v 6) (.v 8) r0)) := by decide +kernel
theorem test_word_transcendental : decode (wordAt (bits 0 0 0 2 1 4 2 7 4 5 0 0 8 0)) =
    .ok (.fsqrt { word .f32 0 (.v 4) (.v 5) r0 r0 with ctl := { always with alloc := 2, wait := 1 } }) := by decide +kernel
theorem test_word_conversion : decode (wordAt (bits 0 0 0 0 0 4 8 7 4 5 0 0 8 (10 * 2 ^ 5 + 1))) =
    .ok (.fcvt (word .f32 0x141 (.v 4) (.v 5) r0 r0)) := by decide +kernel
theorem test_word_memory : decode (wordAt (bits 0 0 0 0 0 5 1 7 4 6 336 0 14 0x4C)) =
    .ok (.st (word .b32 0x4C (.v 4) (.v 6) (.k 16) r0)) := by decide +kernel
theorem test_word_atomic : decode (wordAt (bits 0 0 0 3 0 6 0 7 4 6 5 0 0 0x010)) =
    .ok (.atom { word .i32 0x010 (.v 4) (.v 6) (.v 5) r0 with ctl := { always with alloc := 3 } }) := by decide +kernel
theorem test_word_barrier : decode (wordAt (bits 0 0 0 0 0 7 2 7 0 (256 + 4) 5 0 0 9)) =
    .ok (.barax (word .i32 9 r0 (.s 4) (.v 5) r0)) := by decide +kernel
/-- R373: the rejoin mask j5 is the constant code 336 + 5. -/
theorem test_word_join : decode (wordAt (bits 0 0 0 0 0 7 7 7 359 336 341 0 0 0)) =
    .ok (.join (word .i32 0 (.p 7) (.k 16) (.k 21) r0)) := by decide +kernel
theorem test_word_control : decode (wordAt (bits 0 0 0 0 0 8 1 2 0 8 0 0 0 0)) =
    .ok (.brx { word .i32 0 r0 (.v 8) r0 r0 with ctl := { always with guard := 2 } }) := by decide +kernel
theorem test_word_matrix : decode (wordAt (bits 0 0 0 1 0 9 2 7 16 63 0 0 0 7)) =
    .ok (.mxrd (tagged .i32 7 (.v 16) (.raw 63) r0 r0)) := by decide +kernel
theorem test_word_transfer : decode (wordAt (bits 0 0 0 0 0 10 0 7 0 (256 + 9) 0 0 0 0)) =
    .ok (.cpy (word .i32 0 r0 (.s 9) r0 r0)) := by decide +kernel
theorem test_word_system : decode (wordAt (bits 0 0 0 0 0 11 0 7 4 0 0 0 15 21)) =
    .ok (.sread (word .b64 21 (.v 4) r0 r0 r0)) := by decide +kernel
theorem test_word_retired : decode (wordAt (bits 0 0 0 0 0 12 0 7 1 2 3 4 1 0)) =
    .ok (.imad24 (word .n32 0 (.v 1) (.v 2) (.v 3) (.v 4))) := by decide +kernel
theorem test_word_uniform : decode (wordAt (bits 1 0 0 0 0 0 3 7 256 257 258 259 0 0)) =
    .ok (.umad (word .i32 0 (.s 0) (.s 1) (.s 2) (.s 3))) := by decide +kernel
theorem test_word_uniform_memory : decode (wordAt (bits 1 0 0 1 0 1 4 7 260 258 336 0 15 0)) =
    .ok (.uld (tagged .b64 0 (.s 4) (.s 2) (.k 16) r0)) := by decide +kernel
/-- R250: the offset −1 fills bits 40 to 14. -/
theorem test_word_branch : decode (wordAt (bits 1 0 0 0 0 2 4 7 256 511 511 511 0 0)) =
    .ok (.uloop (word .i32 0 (.s 0) (.raw 511) (.raw 511) (.raw 511))) := by decide +kernel
theorem test_word_launch : decode (wordAt (bits 1 0 0 0 0 3 7 7 264 336 353 0 0 8)) =
    .ok (.evwait (word .i32 8 (.s 8) (.k 16) (.p 1) r0)) := by decide +kernel
theorem test_word_uniform_system : decode (wordAt (bits 1 0 0 0 0 4 1 7 0 258 0 0 15 0x219)) =
    .ok (.uswriteRft (word .b64 0x219 r0 (.s 2) r0 r0)) := by decide +kernel
/-- R264, R265: classes and minors that are not listed. -/
theorem test_word_reserved : decode (wordAt (bits 0 0 0 0 0 13 0 15 0 0 0 0 0 0)) = .error .illegalOpcode ∧
    decode (wordAt (bits 0 0 0 0 0 0 15 7 0 0 0 0 0 0)) = .error .illegalOpcode ∧
    decode (wordAt (bits 1 0 0 0 0 5 0 7 0 0 0 0 0 0)) = .error .illegalOpcode := by decide +kernel

/-! ## The opcode map, row by row (R264, R265) -/

/-- The word with only a class and a minor code names the form that stands in this place. -/
def mapped (s cls : Nat) (is : List Instr) : Bool :=
  is.zipIdx.all (fun e => (readWord (wordAt (bits s 0 0 0 0 cls e.2 7 0 0 0 0 0 0))).map Instr.ctorIdx == some e.1.ctorIdx)

theorem test_map_integer : mapped 0 0 [.iadd add, .isub add, .imul add, .imulh add, .imad add, .imadw add, .ineg add, .iabs add, .imin add,
    .imax add, .iaddc add, .isubb add, .lea add, .idot4 add, .isad add] = true := by decide +kernel
theorem test_map_logic : mapped 0 1 [.and add, .or add, .xor add, .andn add, .bool3 add, .shl add, .shr add, .sar add, .rot add, .shf add,
    .bfx add, .bfi add, .popc add, .clz add, .ctz add, .brev add, .bytep add] = true := by decide +kernel
theorem test_map_compare : mapped 0 2 [.icmp add, .fcmp add, .sel add, .pset add, .pmov add, .mov add, .shfl add, .vote add, .match_ add,
    .redux add, .scan add] = true := by decide +kernel
theorem test_map_float : mapped 0 3 [.fadd add, .fsub add, .fmul add, .ffma add, .fmin add, .fmax add, .frnd add, .fscale add, .fclass add,
    .fdot2 add, .padd add, .pmul add, .pfma add, .pmin add, .pmax add] = true := by decide +kernel
theorem test_map_special : mapped 0 4 [.frcp add, .frsq add, .fsqrt add, .fexp2 add, .flog2 add, .fsin add, .fcos add, .ftanh add, .fcvt add,
    .icvt add, .fcvti add, .pack add, .unpk add] = true := by decide +kernel
theorem test_map_memory : mapped 0 5 [.ld add, .st add, .ldf add, .stf add, .pref add, .cwb add, .spmap add, .spwb add, .sprel add] = true := by
  decide +kernel
theorem test_map_atomic : mapped 0 6 [.atom add, .atomn add, .acas add, .fence add] = true := by decide +kernel
theorem test_map_sync : mapped 0 7 [.bari add, .bara add, .barax add, .barw add, .barq add, .waitc add, .jset add, .join add, .yield_ add,
    .nap add] = true := by decide +kernel
theorem test_map_control : mapped 0 8 [.bra add, .brx add, .call add, .callx add, .ret add, .exit add, .trap add, .brk add, .step_ add,
    .safe add] = true := by decide +kernel
theorem test_map_matrix : mapped 0 9 [.mxq add, .mxz add, .mxrd add, .mxwr add, .mxld add, .mxst add, .mxcfg add] = true := by decide +kernel
theorem test_map_transfer : mapped 0 10 [.cpy add, .cpys add, .dqpop add, .dqpeek add, .svc add] = true := by decide +kernel
theorem test_map_system : mapped 0 11 [.sread add, .swrite add, .featq add, .rft add, .dbgret add, .unpark add, .tlbsync add] = true := by
  decide +kernel
theorem test_map_retired : mapped 0 12 [.imad24 add, .barsync add, .frcpa add, .ldgx add] = true := by decide +kernel
theorem test_map_uniform : mapped 1 0 [.uadd add, .usub add, .umul add, .umad add, .umin add, .umax add, .uand add, .uor add, .uxor add,
    .ushl add, .ushr add, .usar add, .ubfx add, .ulea add] = true ∧
    mapped 1 1 [.ucmp add, .usel add, .umov add, .ufrom add, .uld add, .ust add, .uatom add] = true ∧
    mapped 1 2 [.ubra add, .ubrx add, .ucall add, .uret add, .uloop add, .uexit add] = true ∧
    mapped 1 3 [.dqpush add, .ucpy add, .ucpys add, .ulaunch add, .utrig add, .ugwait add, .evpop add, .evwait add, .uclock add] = true ∧
    mapped 1 4 [.usread add, .uswrite add, .ufence add] = true := by decide +kernel
/-- R305, R315, R358, R383, R396: the MOD bits that select a form. -/
theorem test_map_selected :
    ([(0, 2, 4, 0x80, Instr.pmovUnpack add), (0, 5, 5, 0x100, .cwbAll add), (0, 9, 2, 0x200, .mxrdCfg add), (0, 8, 5, 0x20, .exitTeam add),
      (0, 8, 5, 0x40, .exitGrid add), (1, 4, 1, 0x200, .uswriteRft add)] : List (Nat × Nat × Nat × Nat × Instr)).all
    (fun e => (readWord (wordAt (bits e.1 0 0 0 0 e.2.1 e.2.2.1 7 0 0 0 0 0 e.2.2.2.1))).map Instr.ctorIdx == some e.2.2.2.2.ctorIdx) = true := by
  decide +kernel

/-! ## States in which instructions run -/

/-- A warp of 32 lanes on core 0, or its team's control thread, that issues the word at address 0. -/
def begun (control : Bool) : State :=
  let s := State.reset.onlyLine control { asid := 0, va := 0, data := 0 }
  { s with cur := { agent := some (if control then .ct 0 else .warp 0), len := 10, lanes := if control then 1 else 0xFFFFFFFF } }

/-- Who issues there. -/
def issuer (control : Bool) (handler : Bool := false) : Who :=
  { g := if control then .ct 0 else .warp 0, core := 0, team := 0, grid := 0, asid := 0, part := 0, handler := handler }

/-- State.Runs, as a test. -/
def runs (s : State) (w : Who) (i : Instr) : Bool :=
  match argsOf i with
  | none => false
  | some x => s.cur.agent == some w.g && s.who w.g == some w && !(s.specStops w.g s.cur.lanes i false && !s.cur.buffer) &&
      (s.wordCause w.g i x s.cur.buffer).isNone && !never x.ctl && ((s.opened w.g).owedBy w (s.actOf i x w.g) s.cur.pc (s.issOf i x w).spec.isSome).isEmpty

theorem runs_spec {s : State} {w : Who} {i : Instr} {x : Args} (hx : argsOf i = some x) (h : runs s w i = true) : s.Runs i x w := by
  simp only [runs, hx, Bool.and_eq_true, Bool.not_eq_true', beq_iff_eq, Option.isNone_iff_eq_none, List.isEmpty_iff] at h
  obtain ⟨⟨⟨⟨⟨a, b⟩, c⟩, d⟩, e⟩, f⟩ := h
  exact ⟨a, b, hx, c, d, e, f⟩

/-- All of these run, and in some lane: the hypotheses of FixedResult. -/
def allRun (s : State) (w : Who) (is : List Instr) : Bool :=
  is.all (fun i => runs s w i && (match argsOf i with | some x => s.actOf i x w.g != 0 | none => false))

/-- The instruction runs in some lane, and its condition holds: the hypotheses of HasEffect and HasState. -/
def meets (s : State) (w : Who) (i : Instr) (pre : State → Iss → Bool) : Bool :=
  allRun s w [i] && (match argsOf i with | some x => pre (s.opened w.g) (s.issOf i x w) | none => false)

def w3 (t : Ty) : Args := word t 0 (.v 4) (.v 6) (.v 8) (.v 10)
def w2 (t : Ty) : Args := word t 0 (.v 4) (.v 6) (.v 8) r0
def w1 (t : Ty) : Args := word t 0 (.v 4) (.v 6) r0 r0
def u2 (t : Ty) : Args := word t 0 (.s 4) (.s 6) (.s 8) r0

theorem witness_IntegerResults : allRun (begun false) (issuer false)
    [.iadd (w2 .i64), .isub (w2 .i8), .imul (w2 .n64), .imulh (w2 .i32), .imad (w3 .n16), .imadw (w3 .i32), .ineg (w1 .i64), .iabs (w1 .i8),
      .imin (w2 .n8), .imax (w2 .i16), .iaddc { w2 .i32 with c := .p 3 }, .isubb { w2 .n64 with c := .k 17 }, .lea { w2 .n64 with mod := 0x3E0 },
      .idot4 (w3 .i32), .isad (w3 .n8)] = true := by decide +kernel
theorem witness_LogicResults : allRun (begun false) (issuer false)
    [.and (w2 .b64), .or (w2 .b32), .xor (w2 .i64), .andn (w2 .n32), .bool3 { w3 .b64 with mod := 0xE8 }, .shl (w2 .b32), .shr (w2 .n64),
      .sar (w2 .i64), .rot { w2 .b32 with mod := 0x20 }, .shf (w3 .b64), .bfx (w2 .i32), .bfi (w3 .n32), .popc (w1 .b64), .clz (w1 .b32),
      .ctz (w1 .n64), .brev (w1 .b64), .bytep (w3 .b32)] = true := by decide +kernel
theorem witness_CompareResults : allRun (begun false) (issuer false)
    [.icmp { w2 .i64 with d := .p 6 }, .fcmp { w2 .bf16 with d := .p 7, c := .p 1, mod := 0x100 }, .sel { w2 .f64 with c := .p 0 },
      .pset { w2 .i32 with d := .p 2, mod := 0x1E0 }, .pmov (word .i32 0 (.v 4) r0 r0 r0), .pmovUnpack (word .i32 0xFF r0 (.v 6) r0 r0),
      .mov (w1 .b64)] = true := by decide +kernel
theorem witness_CrossLaneResults : allRun (begun false) (issuer false)
    [.shfl { w3 .b64 with mod := 0x3F0 }, .vote { w1 .i32 with mod := 0x380 }, .vote { w1 .i32 with mod := 0x60 },
      .match_ { w1 .f64 with mod := 0x20 }, .redux { w1 .f32 with mod := 8, b := .raw 4 }, .scan { w1 .b64 with mod := 0x1A0, b := .raw 0 }] = true := by
  decide +kernel
theorem witness_FloatResults : allRun (begun false) (issuer false)
    [.fadd { w2 .f64 with mod := 0x1C }, .fsub (w2 .f16), .fmul (w2 .bf16), .ffma (w3 .f32), .fmin { w2 .f64 with mod := 8 }, .fmax (w2 .f16),
      .frnd (w1 .f64), .fscale (w2 .f32), .fclass (w1 .f64), .fdot2 (w3 .bf16), .padd (w2 .f16), .pmul (w2 .bf16), .pfma (w3 .f16),
      .pmin (w2 .f16), .pmax (w2 .bf16)] = true := by decide +kernel
theorem witness_ConversionResults : allRun (begun false) (issuer false)
    [.fcvt { w1 .t4 with mod := 9 * 32 }, .icvt { w1 .i64 with mod := 13 * 32 }, .fcvti { w1 .f64 with mod := 2 * 32 + 4 },
      .pack { w2 .f32 with mod := 0x1E0, c := .v 9 }, .unpk { w1 .t4 with mod := 0x180 }] = true := by decide +kernel
theorem witness_UniformResults : allRun (begun false) (issuer false)
    ([.uadd (u2 .b64), .usub (u2 .i32), .umul (u2 .n64), .umad { u2 .i64 with c := .k 0 }, .umin (u2 .n32), .umax (u2 .i64), .uand (u2 .b64),
      .uor (u2 .b32), .uxor (u2 .i32), .ushl (u2 .b64), .ushr (u2 .n32), .usar (u2 .i64), .ubfx (u2 .b32), .ulea (u2 .n64),
      .ucmp { u2 .i64 with d := .p 6 }, .usel { u2 .b64 with c := .p 0 }, .umov { u2 .b64 with b := r0 }, .ufrom { u2 .b64 with a := .v 6, b := .k 31 }]) = true ∧
    allRun (begun true) (issuer true) [.uadd (u2 .b64), .umov { u2 .b32 with b := r0 }] = true := by decide +kernel
theorem witness_TranscendentalResults :
    ([.frcp, .fsqrt, .frsq, .fexp2, .flog2, .fsin, .fcos, .ftanh] : List (Args → Instr)).all (fun f =>
      let x := tagged .f32 8 (.v 4) (.v 6) r0 r0
      meets (begun false) (issuer false) (f x) (fun s n => !s.unitBusy n.w.g && (s.takeUnit n (x.ty == .f64)).isSome)) = true := by decide +kernel

/-! ## Memory and synchronisation -/

/-- The same grid with room for matrix tiles, in the warp's handler or not. -/
def begunIn (control handler : Bool) : State :=
  let s := begun control
  let s : State := { s with grids := Tab.upd s.grids 0 (fun g => { g with rec_ := { g.rec_ with acc := 16 } }) }
  if control then s.updTeam 0 (fun t => { t with ct := { t.ct with handler := handler } })
  else s.updWarp 0 (fun y => { y with ctx := { y.ctx with handler := handler } })

def ldG : Args := tagged .b32 0 (.v 8) (.lit64 0x100) (.k 16) r0
def ldS (t : Ty) (m : BitVec 10) : Args := tagged t m (.v 8) (.lit32 0x100) (.k 16) r0

/-- Clear, as a test. -/
def clear (n : Iss) : Except State (State × List (Nat × LaneRes) × Mask) → Bool
  | .ok (t, _, stay) => (t.waitRelease (n.without stay)).1
  | .error _ => false
theorem clear_spec {n : Iss} {r : Except State (State × List (Nat × LaneRes) × Mask)} (h : clear n r = true) : Clear n r := by
  unfold clear at h
  split at h
  · exact ⟨_, _, _, rfl, h⟩
  · cases h

/-- A scratchpad load, at the last bytes of the allocation; and a global load whose page has no translation (its lanes trap or wait). -/
theorem witness_MemoryEffects_load :
    meets (begun false) (issuer false) (.ld (ldS .b64 1)) (fun s n => (s.splitAccess n .read (s.accesses n (some (.k 16)) 8 .read (fun _ => none))).isOk) = true ∧
    meets (begun false) (issuer false) (.ld { ldS .b64 0x81 with a := .lit32 65520 })
      (fun s n => (s.splitAccess n .read (s.accesses n (some (.k 16)) 16 .read (fun _ => none))).isOk) = true ∧
    meets (begun false) (issuer false) (.uld { ldS .b32 1 with d := .s 8 })
      (fun s n => (s.splitAccess n .read (s.accesses n (some (.k 16)) 4 .read (fun _ => none))).isOk) = true := by decide +kernel
theorem witness_MemoryEffects_store :
    meets (begun false) (issuer false) (.st (word .b64 0x41 (.v 8) (.lit32 0x100) (.k 16) r0)) (fun s n =>
      clear n (s.splitAccess n .write (s.accesses n (some (.k 16)) 8 .write (fun _ => none)))) = true ∧
    meets (begun true) (issuer true) (.ust (word .b32 1 (.s 8) (.lit32 0x100) (.k 16) r0)) (fun s n =>
      clear n (s.splitAccess n .write (s.accesses n (some (.k 16)) 4 .write (fun _ => none)))) = true := by decide +kernel
/-- The address 0x20000 begins a page of 64 KiB at the same physical address, with every right; its format entry 0 is T8 without scales. -/
def paged (s : State) : State :=
  let s := s.updCore 0 (fun c => { c with tlb := [{ asid := 0, base := 0x20000, size := 65536, leaf := BitVec.ofNat 64 (32 * 2 ^ 22 + 0xCF) }] })
  s.updTeam 0 (fun t => { t with fmt := [(0, BitVec.ofNat 64 (2 ^ 63 + 1))] })

theorem witness_MemoryEffects_rest :
    ([(begun false, true), (paged (begun false), false)] : List (State × Bool)).all (fun c =>
      meets c.1 (issuer false) (.pref (word .i32 0 r0 (.lit64 0x20000) (.k 16) r0)) (fun s n =>
        let m := (n.each.foldl (fun acc j => (acc.1 ||| (acc.2.prefLane n false j).1, (acc.2.prefLane n false j).2)) ((0 : Mask), s)).1
        m == 0 || (c.2 && m != n.act && !s.cur.buffer))) = true ∧
    meets (begun false) (issuer false) (.cwbAll (word .i32 0x100 r0 r0 r0 r0)) (fun s n => !s.unitsOf n.w.g (fun _ st => st)) = true := by decide +kernel

theorem witness_MemoryEffects_global :
    meets (paged (begun false)) (issuer false) (.ld (tagged .b64 0x30 (.v 8) (.lit64 0x20FFC) (.k 16) r0)) (fun s n =>
      (s.splitAccess n .read (s.accesses n (some (.k 16)) 8 .read (fun _ => none))).isOk) = true ∧
    meets (paged (begun false)) (issuer false) (.st (word .b64 0 (.v 8) (.lit64 0x20000) (.k 16) r0)) (fun s n =>
      clear n (s.splitAccess n .write (s.accesses n (some (.k 16)) 8 .write (fun _ => none)))) = true ∧
    meets (paged (begun false)) (issuer false) (.ldf (tagged .f32 0 (.v 8) (.lit64 0x20000) (.k 16) r0)) (fun s n =>
      !s.fmtLoading n && (s.splitAccess n .read (n.each.map (fun j => (j, s.formatRes n j .read)))).isOk) = true ∧
    meets ((paged (begun false)).updWarp 0 (fun y => { y with ctx := { y.ctx with
        hold := .scales 9, flights := [{ id := 9, tag := 0, cnt := .none, pc := 0, lanes := 1, form := .ready }] } }))
      (issuer false) (.stf (word .f32 0 (.v 8) (.lit64 0x20000) (.k 16) r0)) (fun s n =>
      !s.fmtLoading n && (missPages n (deferScales n (n.each.map (fun j => (j, s.formatRes n j .write))))).isEmpty && (s.waitRelease n).1 &&
      (s.scaleFlight n).any (fun f => f.missing == 0)) = true ∧
    meets (paged (begun false)) (issuer false) (.stf (word .f32 0 (.v 8) (.lit64 0x20000) (.k 16) r0)) (fun s n =>
      let scaled := deferScales n (n.each.map (fun j => (j, s.formatRes n j .write)))
      !s.fmtLoading n && (s.scaleFlight n).isNone && scaled.all (fun r => scaleSegs r.2 == []) && clear n (s.splitAccess n .write scaled)) = true ∧
    meets (paged (begun false)) (issuer false) (.cwb (word .i32 0 r0 (.lit64 0x20000) (.k 16) r0)) (fun s n =>
      (s.splitAccess n .clean (n.each.map (fun j => (j, s.cwbRes n j)))).isOk) = true := by decide +kernel

def region : Region := { off := 256, len := 512, base := 0x20000 }

theorem witness_RegionEffects :
    meets (begun false) (issuer false) (.spmap (word .i32 7 r0 (.lit32 0xFE00) (.s 4) (.s 6))) (fun s n =>
      (s.team 0).any (fun t => t.array.isEmpty && !t.regions.any (·.2.gone) && !t.regionOk (s.scratchSize 0) 7 0xFE00 0 0) && n.uni == false) = true ∧
    meets ((begun false).updWarp 0 (fun y => { y with ctx := { y.ctx with s := [(4, 512)] } })) (issuer false)
      (.spmap (word .i32 7 r0 (.lit32 0xFE00) (.s 4) (.s 6))) (fun s n =>
      (s.team 0).any (fun t => t.array.isEmpty && !t.regions.any (·.2.gone) &&
        t.regionOk (s.scratchSize 0) 7 (n.src32 s 0 (.lit32 0xFE00)) (n.src32 s 0 (.s 4)) (n.src s 0 .n64 (.s 6)))) = true ∧
    ([(Instr.spwb, false), (.sprel, true)] : List ((Args → Instr) × Bool)).all (fun f =>
      meets (paged ((begun false).updTeam 0 (fun t => { t with regions := [(0, { region with dirty := [256, 767] })] }))) (issuer false)
        (f.1 (word .i32 0xFF r0 r0 r0 r0)) (fun s n =>
        let res := (s.namedRegions n).flatMap (fun e => e.2.dirtyLines.map (fun l => (e.1, l, s.regionRes n.w e.2 l)))
        let flat := res.map (fun e => (lowest n.act, e.2.2))
        let one : Iss := { n with uni := true, lanes := n.act }
        !s.acquiring n.w.g && !s.regionsInUse n.w.team (s.namedRegions n) && (missPages one flat).isEmpty && !s.accessShut one flat && (s.planLanes one .write false flat).causes.isEmpty &&
          (s.planLanes one .write false flat).stay == 0 && flat.length == 2)) = true := by decide +kernel

theorem witness_AtomicEffects :
    ([(.atom (ldS .b32 0x181), false), (.atomn (word .n64 1 r0 (.lit32 0x100) (.v 6) r0), false),
      (.acas (tagged .b64 1 (.v 8) (.lit32 0x100) (.v 12) r0), true), (.uatom (tagged .b32 0x381 (.s 8) (.lit32 0x100) (.s 12) r0), true),
      (.uatom (tagged .b32 0x181 (.s 8) (.lit32 0x100) (.s 12) r0), false)] :
      List (Instr × Bool)).all (fun f => meets (begun false) (issuer false) f.1 (fun s n =>
      clear n (s.splitAccess n .atomic (s.accesses n none (Ty.bits n.x.ty / 8) .atomic (fun j => some (n.atomOf s f.2 j)))))) = true := by
  decide +kernel
/-- The four orders of a fence, at the narrowest and the widest scope. -/
theorem witness_AtomicEffects_fence :
    ([0x00, 0x10, 0x20, 0x30, 0x40, 0x50, 0x60, 0x70] : List (BitVec 10)).all (fun m =>
      meets (begun false) (issuer false) (.fence (word .i32 m r0 r0 r0 r0)) (fun s n => !s.awaiting n.w.g && !s.rawBusy n.w.g && (s.gate n (scopeOf m)).1) &&
      meets (begun true) (issuer true) (.ufence (word .i32 m r0 r0 r0 r0)) (fun s n => !s.awaiting n.w.g && !s.rawBusy n.w.g && (s.gate n (scopeOf m)).1)) = true := by
  decide +kernel

/-- A barrier object at the offset 0x100 of the scratchpad, that expects 'expect' arrivals. -/
def barred (expect epoch : Nat) (err : Bool) (s : State) : State :=
  s.writeScratch 0 0x100 32 (Obj.toBytes { expect := expect, epoch := epoch, scope := 0, lastErr := err, arrived := 0, err := false, pending := 0, watch := 0, last := 0 }) 0

theorem witness_BarrierEffects_arrive :
    ([.bara (word .i32 1 r0 (.lit32 0x100) r0 r0), .bara (word .i32 5 r0 (.lit32 0x100) r0 r0)] : List Instr).all (fun i =>
      meets (barred 32 0 false (begun false)) (issuer false) i (fun s n =>
        !(s.atObjects n (n.arrivals (modBit n.x.mod 2)) true (fun rs => some (s.objScope rs)) (fun s _ o => s.arrive n.w o 1 0)).stalled)) = true ∧
    ([.barax (word .i32 1 r0 (.lit32 0x100) (.v 6) r0), .barax (word .i32 9 r0 (.lit32 0x100) (.v 6) r0)] : List Instr).all (fun i =>
      meets (barred 32 0 false (begun false)) (issuer false) i (fun s n =>
        !(s.atObjects n (n.arrivals (modBit n.x.mod 2)) true (fun rs => some (s.objScope rs))
          (fun s j o => s.arrive n.w o (if modBit n.x.mod 3 then 0 else 1) (BitVec.ofNat 32 (n.src32 s j n.x.b)))).stalled)) = true := by decide +kernel
/-- A wait on a phase that has passed, on one that has not, and on one that failed. -/
theorem witness_BarrierEffects_wait :
    ([(1, 0, false), (0, 0, false), (1, 0, true)] : List (Nat × Nat × Bool)).all (fun c =>
      ([.barw (word .i32 1 r0 (.lit32 0x100) (.v 6) r0), .barq (word .i32 1 (.p 0) (.lit32 0x100) (.v 6) r0)] : List Instr).all (fun i =>
        meets (barred 32 c.1 c.2.2 (begun false)) (issuer false) i (fun s n =>
          let objs := (lanesOf n.act).map (fun j => (j, s.objRes n j .read))
          (s.splitAccess n .read objs).isOk && (s.objWaits n false objs).isNone &&
            epochPassed ((((s.planLanes n .read true objs).checkObjs n).st).objGet (.sp 0 0x100)).epoch c.2.1 == (c.1 == 1)))) = true := by decide +kernel
/-- The counts 1 and 65535 of BARI. -/
theorem witness_BarrierEffects_init :
    ([(1 : W32), 65535] : List W32).all (fun b => meets (begun false) (issuer false) (.bari (word .i32 1 r0 (.k 16) (.lit32 b) r0)) (fun s n =>
      (lanesOf n.act).all (fun j => decide (1 ≤ n.src32 s j n.x.b) && decide (n.src32 s j n.x.b ≤ 65535)) &&
      !(s.atObjects n (lanesOf n.act, n) true (fun _ => releaseOf n.x) (fun u _ _ => some u)).stalled)) = true := by decide +kernel
/-- What holds a barrier instruction back does not depend on what it does to the objects. -/
theorem atObjects_stalled (s : State) (n : Iss) (js : List Nat × Iss) (w : Bool) (r : List (Nat × LaneRes) → Option Nat)
    (f g : State → Nat → ObjLoc → Option State) : (s.atObjects n js w r f).stalled = (s.atObjects n js w r g).stalled := by
  unfold State.atObjects
  dsimp only
  split
  · rfl
  split
  · rfl
  split <;> rfl

theorem witness_WaitEffects :
    ([(63, 0), (0, 63), (63, 63)] : List (BitVec 9 × BitVec 9)).all (fun l =>
      meets (begun false) (issuer false) (.waitc (word .i32 0 (.raw l.1) (.raw 63) (.raw 63) (.raw l.2))) (fun s n =>
        (s.ctx n.w.g).all (fun c => c.countersOk l.1.toNat 63 63 l.2.toNat && c.errMx.isNone))) = true ∧
    meets ((begun false).updWarp 0 (fun y => { y with ctx := { y.ctx with ld := 1 } })) (issuer false)
      (.waitc (word .i32 0 (.raw 0) (.raw 63) (.raw 63) (.raw 63))) (fun s n => (s.ctx n.w.g).any (fun c => !c.countersOk 0 63 63 63)) = true ∧
    allRun (begun false) (issuer false)
      [.jset (word .i32 0 r0 r0 (.k 16) r0), .jset (word .i32 1 r0 (.s 4) (.k 31) r0), .jset (word .i32 3 r0 r0 (.k 16) r0),
        .join (word .i32 0 (.p 7) (.k 16) (.k 31) r0), .yield_ (word .i32 0 r0 r0 r0 r0), .nap (word .i32 0 r0 (.k 16) r0 r0),
        .nap (word .i32 0 r0 (.lit32 1048577) r0 r0)] = true := by decide +kernel
/-- No debug buffer, and every live lane joins. -/
theorem witness_WaitEffects_join :
    let s := begun false
    let x := word .i32 0 (.p 7) (.k 16) (.k 31) r0
    runs s (issuer false) (.join x) = true ∧ s.cur.buffer = false ∧ (s.warp 0).any (fun y =>
      y.maskJ (s.cycle 0) (jnum x.b) &&& y.live &&& ~~~(Tab.get 0 y.arrived (jnum x.b) ||| s.actOf (.join x) x (.warp 0)) == 0) = true := by
  decide +kernel

/-- A warp with p1 true in lane 0, and a variable-latency write to it in flight there. -/
def pending : State :=
  (begun false).updWarp 0 (fun y => { y with
    p := [(1, true)]
    pend := [(1, [(9, none)])]
    ctx := { y.ctx with flights := [{ id := 9, tag := 1, cnt := .none, pc := 0, lanes := 1, form := .ready, missing := 1 }] } })

theorem witness_BranchEffects :
    ([.bra (word .i32 0 r0 (.raw 511) (.raw 511) (.raw 511)), .brx (word .i32 0 r0 (.v 4) r0 r0),
      .call (word .i32 0 (.v 4) (.raw 0) (.raw 0) (.raw 1)), .callx (word .i32 0 (.v 4) (.v 6) r0 r0)] : List Instr).all (fun i =>
        meets (begun false) (issuer false) i (fun s n => !s.isPredicted n)) = true ∧
    ([.bra { word .i32 0 r0 (.raw 511) (.raw 511) (.raw 511) with ctl := { always with guard := 1 } },
      .brx { word .i32 0 r0 (.v 4) r0 r0 with ctl := { always with guard := 1 } },
      .call { word .i32 0 (.v 4) (.raw 0) (.raw 0) (.raw 1) with ctl := { always with guard := 1 } },
      .callx { word .i32 0 (.v 4) (.v 6) r0 r0 with ctl := { always with guard := 1 } }] : List Instr).all (fun i =>
        meets pending (issuer false) i (fun s n => s.isPredicted n && (s.warp n.warpNo).all (fun y => decide (y.openBranches < 4) && decide (y.window.length < 32)))) = true ∧
    allRun (begun false) (issuer false) [.ret (word .i32 0 r0 (.v 4) r0 r0), .ubra (word .i32 0 r0 r0 r0 (.raw 5)), .uloop (word .i32 0 (.s 1) r0 r0 r0)] = true ∧
    meets (begun false) (issuer false) (.ubrx (word .i32 0 r0 (.s 4) r0 r0)) (fun s n => !(n.src s 0 .n64 (.s 4)).getLsbD 0) = true ∧
    meets ((begun false).updWarp 0 (fun y => { y with ctx := { y.ctx with s := [(4, 1)] } })) (issuer false) (.ubrx (word .i32 0 r0 (.s 4) r0 r0))
      (fun s n => (n.src s 0 .n64 (.s 4)).getLsbD 0) = true := by decide +kernel
/-- A call depth of 255 in one lane, and one of 1 in each. -/
theorem witness_BranchEffects_depth :
    meets (begun false) (issuer false) (.ucall (word .i32 0 (.s 4) r0 r0 r0)) (fun s n => (lanesOf n.lanes).all (fun j => s.depthOf n.w.g j != 255)) = true ∧
    meets ((begun false).updWarp 0 (fun y => { y with depth := [(31, 255)] })) (issuer false) (.ucall (word .i32 0 (.s 4) r0 r0 r0))
      (fun s n => (lanesOf n.lanes).any (fun j => s.depthOf n.w.g j == 255)) = true ∧
    meets ((begun true).updTeam 0 (fun t => { t with ctDepth := 1 })) (issuer true) (.uret (word .i32 0 r0 (.s 4) r0 r0)) (fun s n =>
      !(n.src s 0 .n64 (.s 4)).getLsbD 0 && (lanesOf n.lanes).all (fun j => s.depthOf n.w.g j != 0)) = true := by decide +kernel

theorem witness_ExitEffects :
    allRun (begunIn false false) (issuer false)
      [.exit (word .i32 0 r0 r0 r0 r0), .exitTeam (word .i32 0x20 r0 r0 r0 r0), .exitGrid (word .i32 0x40 r0 r0 r0 r0), .uexit (word .i32 0 r0 r0 r0 r0),
        .uexit (word .i32 0x20 r0 r0 r0 r0), .uexit (word .i32 0x40 r0 r0 r0 r0)] = true ∧
    allRun (begunIn false true) (issuer false true)
      [.exit (word .i32 0 r0 r0 r0 r0), .exitTeam (word .i32 0x20 r0 r0 r0 r0), .exitGrid (word .i32 0x40 r0 r0 r0 r0), .uexit (word .i32 0 r0 r0 r0 r0),
        .uexit (word .i32 0x20 r0 r0 r0 r0), .uexit (word .i32 0x40 r0 r0 r0 r0)] = true ∧
    allRun (begunIn true false) (issuer true) [.uexit (word .i32 0 r0 r0 r0 r0)] = true := by decide +kernel

def attached (stop : Bool) (s : State) : State := { s with dbgctx := [{ asid := 0, laneStop := stop }] }
/-- The team's grid takes safe points, with one entry for warps and one for control threads. -/
def preempted (s : State) : State :=
  let s := s.updTeam 0 (fun t => { t with preempt := .points 0x10000 1000 })
  { s with grids := Tab.upd s.grids 0 (fun g => { g with hdr := { g.hdr with safe := [(0x40, 2 ^ 32), (0x80, 2 ^ 32 + 2 ^ 33)] } }) }

theorem witness_TrapEffects :
    allRun (begun false) (issuer false) [.trap (word .i32 0x3FF r0 r0 r0 r0)] = true ∧
    meets (begun false) (issuer false) (.brk (word .i32 0 r0 r0 r0 r0)) (fun s n => s.dbgOf n.w.asid == none) = true ∧
    meets (attached true (begun false)) (issuer false) (.brk (word .i32 0 r0 r0 r0 r0)) (fun s n => s.dbgOf n.w.asid == some { asid := 0, laneStop := true }) = true ∧
    meets { begun false with trcfg := [0x19, 0, 0, 0] } (issuer false) (.step_ (word .i32 0 r0 (.lit64 0x200000000000001) r0 r0))
      (fun s n => s.stepEn (dieOf n.w.core)) = true ∧
    meets (begun false) (issuer false) (.step_ (word .i32 0 r0 (.s 4) r0 r0)) (fun s n => !s.stepEn (dieOf n.w.core)) = true ∧
    meets (begun false) (issuer false) (.safe (word .i32 0x3F r0 r0 r0 r0)) (fun s n => (s.takeSafe n.w.g 63).isNone && !s.safeSoon n.w.g 63) = true ∧
    meets (preempted { begun false with cur := { (begun false).cur with lanes := 1 } }) (issuer false) (.safe (word .i32 0 r0 r0 r0 r0))
      (fun s n => (s.warp 0).any (fun y => n.lanes != y.live)) = true ∧
    meets (preempted (begun false)) (issuer false) (.safe (word .i32 0 r0 r0 r0 r0)) (fun s n =>
      (s.warp 0).any (fun y => n.lanes == y.live) && (s.takeSafe n.w.g 0).isSome) = true := by decide +kernel

/-- There is room for the operation: a place in the queue and a lock entry. -/
def placeFor (s : State) (n : Iss) : Bool :=
  n.ofWarp && !s.engineHeld n.w.g && decide (1 ≤ s.lockRoom n.w.core) &&
    (s.warp n.warpNo).any (fun y => decide ((y.queued (s.serving n.w.core)).length < 4))

theorem witness_MatrixEffects :
    meets (begunIn false false) (issuer false) (.mxq (word .i32 0 (.raw 12) (.v 8) (.lit32 61440) r0)) (fun s n => placeFor s n &&
      decide (n.mxqOff s % 128 = 0) && decide (n.mxqOff s + mxqSize n.x ≤ s.scratchSize n.w.team) && !s.quarterPast n 12) = true ∧
    meets (begunIn false false) (issuer false) (.mxz (word .i32 15 (.raw 0) r0 r0 r0)) (fun s n => placeFor s n && decide (0 + 16 ≤ s.accOf n.w.grid)) = true ∧
    meets (begunIn false false) (issuer false) (.mxrd (tagged .i32 0 (.v 8) (.raw 12) r0 r0)) (fun s n => placeFor s n && !s.quarterPast n 12) = true ∧
    meets (begunIn false false) (issuer false) (.mxrdCfg (tagged .i32 0x200 (.v 8) r0 r0 r0)) placeFor = true ∧
    meets (begunIn false false) (issuer false) (.mxwr (word .i32 0 (.raw 12) (.v 8) r0 r0)) (fun s n => placeFor s n && !s.quarterPast n 12) = true ∧
    meets (begunIn false false) (issuer false) (.mxcfg (word .i32 12 r0 r0 r0 r0)) placeFor = true ∧
    ([false, true] : List Bool).all (fun store => ([(1, .lit32 0x100), (0, .lit64 0x100)] : List (BitVec 10 × Opnd)).all (fun a =>
      let x := word .i32 a.1 (.raw 15) a.2 (.k 16) r0
      meets (begunIn false false) (issuer false) (if store then .mxst x else .mxld x) (fun s n => placeFor s n && decide (n.mxAddr s % 256 = 0) && decide (15 + 1 ≤ s.accOf n.w.grid) && (s.warp 0).any (fun y =>
          spaceOf a.1 != 1 || decide (n.mxAddr s + y.mxBytes x store ≤ s.scratchSize n.w.team))))) = true := by decide +kernel
/-- What R181 bars: a misaligned operand, one past the allocation, and a quarter or tile past the accumulators. -/
theorem witness_MatrixEffects_bars :
    let here (i : Instr) (p : State → Iss → Warp → Bool) : Bool :=
      meets (begunIn false false) (issuer false) i (fun s n => n.ofWarp && (s.warp n.warpNo).any (fun y => p s n y))
    here (.mxq (word .i32 0 (.raw 12) (.v 8) (.lit32 64) r0)) (fun s n _ => n.mxqOff s % 128 != 0) = true ∧
    here (.mxq (word .i32 0 (.raw 12) (.v 8) (.lit32 65536) r0))
      (fun s n _ => n.mxqOff s % 128 == 0 && decide (s.scratchSize n.w.team < n.mxqOff s + mxqSize n.x)) = true ∧
    here (.mxq (word .i32 0 (.raw 63) (.v 8) (.lit32 0) r0))
      (fun s n _ => n.mxqOff s % 128 == 0 && decide (n.mxqOff s + mxqSize n.x ≤ s.scratchSize n.w.team) && s.quarterPast n 63) = true ∧
    here (.mxz (word .i32 15 (.raw 1) r0 r0 r0)) (fun s n _ => decide (s.accOf n.w.grid < 1 + 16)) = true ∧
    here (.mxrd (tagged .i32 0 (.v 8) (.raw 63) r0 r0)) (fun s n _ => s.quarterPast n 63) = true ∧
    here (.mxwr (word .i32 0 (.raw 63) (.v 8) r0 r0)) (fun s n _ => s.quarterPast n 63) = true ∧
    ([false, true] : List Bool).all (fun store => ([(.lit32 0x80, .raw 0, 0), (.lit32 0xFFFFFF00, .raw 0, 1), (.lit32 0, .raw 16, 2)] :
        List (Opnd × Opnd × Nat)).all (fun a =>
      let x := word .i32 1 a.2.1 a.1 (.k 16) r0
      here (if store then .mxst x else .mxld x) (fun s n y =>
        let inside := decide (n.mxAddr s + y.mxBytes x store ≤ s.scratchSize n.w.team)
        match a.2.2 with
        | 0 => n.mxAddr s % 256 != 0
        | 1 => n.mxAddr s % 256 == 0 && spaceOf x.mod == 1 && !inside
        | _ => n.mxAddr s % 256 == 0 && inside && decide (s.accOf n.w.grid < 16 + 1)))) = true := by decide +kernel

/-- A copy descriptor of 64 bytes at the scratchpad offset 0x100: from the offset 0x1000 to the offset 0x2000, both of the team's scratchpad,
with a barrier object at the offset 0x40 of it. -/
def described (s : State) : State :=
  s.writeScratch 0 0x100 64 (7 * 2 ^ 8 + 0x40 * 2 ^ 256 + 0x1000 * 2 ^ 64 + 0x2000 * 2 ^ 128 + 0x40 * 2 ^ 192) 0

theorem witness_CopyEffects :
    let x := word .i32 0 r0 (.lit32 0x100) r0 r0
    let ready (s : State) (n : Iss) : Bool := decide (n.src32 s (lowest n.act) n.x.a % 64 = 0) &&
      decide (n.src32 s (lowest n.act) n.x.a + 64 ≤ s.scratchSize n.w.team) && !s.engineHeld n.w.g &&
      s.scratchRes n.w n.w.team 0x100 64 .read == .sp n.w.team 0x100 [] && !s.scratchBad n.w.team 0x100 64
    meets (described (begun false)) (issuer false) (.cpy x) (fun s n => ready s n && (s.copyStart n true 0x100).isOk) = true ∧
    meets (described (begun false)) (issuer false) (.ucpy x) (fun s n => ready s n && (s.copyStart n false 0x100).isOk) = true ∧
    meets (described (begun true)) (issuer true) (.ucpy x) (fun s n => ready s n && (s.copyStart n false 0x100).isOk) = true ∧
    meets (begun false) (issuer false) (.cpy (word .i32 0 r0 (.lit32 0x120) r0 r0)) (fun s n => !n.uni && n.src32 s (lowest n.act) n.x.a % 64 != 0) = true ∧
    ([false, true] : List Bool).all (fun ct => ([.lit32 0x120, .lit32 65536] : List Opnd).all (fun a =>
      meets (begun ct) (issuer ct) (.ucpy (word .i32 0 r0 a r0 r0)) (fun s n => n.uni &&
        (n.src32 s (lowest n.act) a % 64 != 0 || decide (s.scratchSize n.w.team < n.src32 s (lowest n.act) a + 64))))) = true := by
  decide +kernel
theorem witness_CopyEffects_stage :
    ([(1, .k 16, true), (0, .lit32 64, true), (0, .k 16, false)] : List (BitVec 10 × Opnd × Bool)).all (fun a =>
      let new (s : State) (n : Iss) (stage : Nat) : Nat := if modBit n.x.mod 0 then min (stage + 1) 63 else min (n.src32 s (lowest n.act) n.x.a) 63
      meets (begun false) (issuer false) (.cpys (word .i32 a.1 r0 (if a.1 = 1 then r0 else a.2.1) r0 r0)) (fun s n => !n.uni && !s.engineHeld n.w.g &&
        (s.team 0).any (fun t => decide (s.stageFrom n.w.g t < new s n (s.stageFrom n.w.g t)) == a.2.2)) &&
      meets (begun true) (issuer true) (.ucpys (word .i32 a.1 r0 (if a.1 = 1 then r0 else a.2.1) r0 r0)) (fun s n => n.uni && !s.engineHeld n.w.g &&
        ((s.nextCsn n).team 0).any (fun t => decide ((s.nextCsn n).stageFrom n.w.g t < new (s.nextCsn n) n ((s.nextCsn n).stageFrom n.w.g t)) == a.2.2))) =
      true := by
  decide +kernel

def entry : DqEntry := { value := 5, mask := 1, clock := 0, edge := 0 }
def record : EvRec := { source := 0, status := 0, cause := 0, flags := 0, csn := 0, bytes := 0, cpc := 0, object := 0, t := 0, edge := 0 }

theorem witness_QueueEffects :
    meets (begun true) (issuer true) (.dqpush (word .i32 1 r0 (.s 4) r0 r0)) (fun s n =>
      (s.team 0).all (fun t => decide (t.dq.length < 64)) && (s.gate n 1).1 && ((s.gate n 1).2.team 0).isSome && ((s.gate n 1).2.ctx n.w.g).isSome) = true ∧
    ([.dqpop (tagged .i32 0 (.v 4) r0 r0 r0), .dqpeek (tagged .i32 0 (.v 4) r0 r0 r0)] : List Instr).all (fun i =>
      meets ((begun false).updTeam 0 (fun t => { t with dq := [entry] })) (issuer false) i (fun s n =>
        n.ofWarp && (s.warp n.warpNo).any (fun y => (s.team n.w.team).any (fun t => (t.dqEntry y.k).isSome)))) = true ∧
    ([false, true] : List Bool).all (fun done => ([.dqpop (tagged .i32 0 (.v 4) r0 r0 r0), .dqpeek (tagged .i32 0 (.v 4) r0 r0 r0)] : List Instr).all (fun i =>
      meets ((begun false).updTeam 0 (fun t => { t with ctExited := done })) (issuer false) i (fun s n =>
        n.ofWarp && (s.warp n.warpNo).any (fun y => (s.team n.w.team).any (fun t => (t.dqEntry y.k).isNone && t.ctExited == done))))) = true ∧
    ([([], false), ([(0, { pc := 0, call := 3, value := 7 })], true)] : List (Tab SvcPred × Bool)).all (fun g =>
      meets ((begun false).updTeam 0 (fun t => { t with svcPred := g.1 })) (issuer false) (.svc (tagged .i32 3 (.s 8) r0 r0 r0)) (fun s n =>
        n.ofWarp && (s.warp n.warpNo).all (fun y => y.svc.isNone) && (s.gate n 3).1 &&
          ((s.gate n 3).2.team n.w.team).any (fun u => (n.svcGuess u).isSome == g.2))) = true := by decide +kernel
theorem witness_QueueEffects_events :
    ([(false, [record]), (false, []), (true, []), (true, [record])] : List (Bool × List EvRec)).all (fun q =>
      ([Hold.none, .evwait (some 0) 0, .evwait (some 5) 0] : List Hold).all (fun h =>
        let s := (begun true).updTeam 0 (fun t => { t with lost := q.1, eq := q.2, ct := { t.ct with hold := h } })
        meets s (issuer true) (.evpop (word .i32 0 (.s 8) r0 (.p 1) r0)) (fun s n => (s.team n.w.team).any (fun t => t.lost == q.1 && t.eq == q.2)) &&
        meets s (issuer true) (.evwait (word .i32 0 (.s 8) (.k 16) (.p 1) r0)) (fun s n =>
          (s.team n.w.team).any (fun t => t.lost == q.1 && t.eq == q.2 && t.ct.hold == h)))) = true := by decide +kernel

theorem witness_LaunchEffects :
    meets (begun false) (issuer false) (.ulaunch (word .i32 0 (.s 4) (.s 8) r0 r0)) (fun s n =>
      (s.grid n.w.grid).any (fun p => decide (p.depth < 10)) && s.freeEntry.isSome && (s.gate n 3).1 &&
        (((s.gate n 3).2.nextCsn n).team n.w.team).isSome && (((s.gate n 3).2.nextCsn n).ctx n.w.g).isSome) = true ∧
    meets { begun true with grids := Tab.upd (begun true).grids 0 (fun g => { g with depth := 10 }) } (issuer true)
      (.ulaunch (word .i32 0 (.s 4) (.s 8) r0 r0)) (fun s n => (s.grid n.w.grid).any (fun p => decide (10 ≤ p.depth))) = true ∧
    ([(17, 0), (31, 14), (31, 15), (17, 1)] : List (BitVec 5 × Nat)).all (fun l =>
      meets ((begun true).updTeam 0 (fun t => { t with trig := l.2 })) (issuer true) (.utrig (word .i32 0 r0 (.k l.1) r0 r0)) (fun s n =>
        decide (1 ≤ n.src32 s 0 n.x.a) && decide (n.src32 s 0 n.x.a ≤ 15) && (s.gate n 3).1 && ((s.gate n 3).2.team n.w.team).any (fun t => t.trig == l.2) &&
          ((s.gate n 3).2.ctx n.w.g).isSome)) = true ∧
    ([0, 16] : List W32).all (fun l => meets ((begun true).updTeam 0 (fun t => { t with ct := { t.ct with s := [(4, l)] } })) (issuer true)
      (.utrig (word .i32 0 r0 (.s 4) r0 r0)) (fun s n => n.src32 s 0 n.x.a == 0 || decide (15 < n.src32 s 0 n.x.a))) = true := by decide +kernel
/-- A token below 2^63; the handle of a launch that has gone; and one that an UGWAIT in progress waits for. -/
theorem witness_LaunchEffects_wait :
    meets (begun true) (issuer true) (.ugwait (word .i32 0 r0 (.lit64 0x7FFFFFFFFFFFFFFF) r0 r0)) (fun s n => !(n.src s 0 .n64 n.x.a).getLsbD 63) = true ∧
    ([Hold.none, .ugwait 3] : List Hold).all (fun h => meets ((begun true).updTeam 0 (fun t => { t with ct := { t.ct with hold := h } })) (issuer true)
      (.ugwait (word .i32 0 r0 (.lit64 0xC000000100000000) r0 r0)) (fun s n =>
        (n.src s 0 .n64 n.x.a).getLsbD 63 && (s.gridOver (n.src s 0 .n64 n.x.a)).isSome && (s.ctx n.w.g).any (fun c => c.hold == h))) = true ∧
    allRun (begun true) (issuer true) [.uclock (word .i32 0 (.s 4) r0 r0 r0)] = true := by decide +kernel

theorem witness_SpecialRegisterEffects :
    ([14, 15] : List (BitVec 10)).all (fun m => allRun (begun false) (issuer false) [.sread (tagged .b64 m (.v 4) r0 r0 r0), .usread (tagged .b64 m (.s 4) r0 r0 r0)]) = true ∧
    ([0, 13, 16, 32, 33] : List (BitVec 10)).all (fun m => allRun (begun false) (issuer false) [.sread (word .b64 m (.v 4) r0 r0 r0)]) = true ∧
    ([1, 13, 16, 32, 33] : List (BitVec 10)).all (fun m => allRun (begun false) (issuer false) [.usread (word .b64 m (.s 4) r0 r0 r0)]) = true ∧
    ([0x20E, 0x20F] : List (BitVec 10)).all (fun m =>
      meets (begun false) (issuer false) (.usread (tagged .b64 m (.s 4) r0 r0 r0)) (fun s n => (s.syncWait n).1)) = true ∧
    ([0x201, 0x221] : List (BitVec 10)).all (fun m =>
      meets (begun false) (issuer false) (.usread (word .b64 m (.s 4) r0 r0 r0)) (fun s n => (s.syncWait n).1)) = true ∧
    allRun (begun false) (issuer false) [.tlbsync (word .i32 0 r0 r0 r0 r0)] = true := by decide +kernel
/-- A special register that any mode writes, and one that only handler mode writes, in either mode. -/
theorem witness_SpecialRegisterEffects_write :
    ([(12, false), (19, false), (12, true), (22, true), (22, false), (23, false)] : List (BitVec 10 × Bool)).all (fun c =>
      meets (begunIn false c.2) (issuer false c.2) (.swrite (word .b64 c.1 r0 (.s 4) r0 r0)) (fun s n =>
        (srPrivileged c.1.toNat == false || n.w.handler) || !s.cur.buffer)) = true ∧
    ([(12, true), (12, false), (19, false), (22, true), (22, false), (30, false)] : List (BitVec 10 × Bool)).all (fun c =>
      allRun (begunIn false c.2) (issuer false c.2) [.uswrite (word .b64 c.1 r0 (.s 4) r0 r0)]) = true ∧
    ([true, false] : List Bool).all (fun h => allRun (begunIn true h) (issuer true h) [.uswriteRft (word .b64 0x219 r0 (.s 4) r0 r0)]) = true := by
  decide +kernel

theorem witness_SystemEffects :
    allRun (begun false) (issuer false) [.featq (word .i32 0 (.v 4) (.lit32 7) r0 r0), .featq (word .i32 0 (.s 4) (.k 16) r0 r0),
      .rft (word .i32 1 r0 r0 r0 r0), .dbgret (word .i32 0 r0 (.v 4) r0 r0), .unpark (word .i32 0 r0 (.s 4) r0 r0), .unpark (word .i32 1 r0 r0 r0 r0)] = true ∧
    allRun (begunIn false true) (issuer false true) [.rft (word .i32 0 r0 r0 r0 r0)] = true ∧
    meets (begunIn false true) (issuer false true) (.rft (word .i32 1 r0 r0 r0 r0)) (fun s n =>
      match s.lengthAt n.w.core n.w.asid n.w.part ((s.ctx n.w.g).elim 0 (·.trapPc)) with | .ok len => len == 10 | .error _ => false) = true ∧
    allRun { begun false with cur := { (begun false).cur with buffer := true } } (issuer false) [.dbgret (word .i32 0 r0 (.v 4) r0 r0)] = true := by
  decide +kernel

theorem witness_RetiredForms :
    runs (begun false) (issuer false) (.imad24 (w3 .i32)) = true ∧
    ([1, 2] : List Nat).all (fun c =>
      let x := word .i32 1 r0 (.lit32 0x100) r0 r0
      let s := barred (3 - c) 0 false (begun false)
      runs s (issuer false) (.barsync x) &&
      let n := s.issOf (.barsync x) x (issuer false)
      let u := s.opened (.warp 0)
      let e := u.atObjects n (n.arrivals false) true (fun rs => some (u.objScope rs)) (fun v _ o => v.arrive (issuer false) o 1 0)
      n.act != 0 && objOf (u.objRes n (lowest n.act) .atomic) == some (.sp 0 0x100) && !e.stalled && e.causes.isEmpty && e.stay == 0 &&
      epochPassed (e.st.objGet (.sp 0 0x100)).epoch (u.objGet (.sp 0 0x100)).epoch == (c == 2) && !(e.st.objGet (.sp 0 0x100)).lastErr) = true ∧
    ([.frcpa (w1 .f32), .ldgx (word .i32 0 (.v 4) (.lit64 0) (.k 16) r0)] : List Instr).all (fun i => (begun false).cur.agent == some (.warp 0) &&
      (begun false).who (.warp 0) == some (issuer false) && !(begun false).specStops (.warp 0) (begun false).cur.lanes i false) = true := by decide +kernel

/-! ## States in which events happen -/

/-- The part in RUN, with a warp and its team on core 0. -/
def running : State := { begun false with cur := {} }

/-- The condition of an event of the running part. -/
def occurs (s : State) (pre : State → Bool) : Bool := s.live && pre s

def warp0 (f : Warp → Warp) : State := running.updWarp 0 f
def ctx0 (f : Ctx → Ctx) : State := warp0 (fun y => { y with ctx := f y.ctx })
def landing (due : Nat) : Landing := { id := 3, due := due, lanes := 3, writes := [{ lane := 0, dest := .v 4, val := 5 }] }
def flight (missing : Nat) : Flight := { id := 9, tag := 1, cnt := .none, pc := 0, lanes := 1, form := .ready, missing := missing }

theorem witness_WaitingEvents :
    occurs (ctx0 (fun c => { c with landings := [landing 0] })) (fun s => (s.ctx (.warp 0)).any (fun c => c.landings.any (fun l => decide (l.due ≤ s.cycle 0)))) = true ∧
    occurs (warp0 (fun y => { y with window := [{ id := 4, pc := 0, next := 10, lanes := 1, kind := .branch 1 false [] 1 false [3] }] }))
      (fun s => (s.warp 0).isSome) = true ∧
    occurs (ctx0 (fun c => { c with flights := [flight 0] })) (fun s => ((s.land (.warp 0)).ctx (.warp 0)).any (fun c =>
      (c.flights.find? (fun f => f.tag == 1)).any (fun f => (s.land (.warp 0)).flightOver (.warp 0) f))) = true ∧
    occurs { warp0 (fun y => { y with rounds := [(3, (0, 1))] }) with time := 100 } (fun s => ((s.joinCheck 0).warp 0).any (fun y =>
      (Tab.find y.rounds 3).any (fun r => r.2 != 0 && decide (r.1 + r.2 < (s.joinCheck 0).cycle y.core)))) = true ∧
    occurs (warp0 (fun y => { y with blocks := [(0, { why := .nap 0, since := 0, time := 0, next := 10 })] })) (fun s => (s.warp 0).isSome) = true ∧
    occurs (running.updTeam 0 (fun t => { t with ct := { t.ct with hold := .evwait (some 0) 0 } })) (fun s =>
      (s.team 0).any (fun t => t.ct.hold == .evwait (some 0) 0 && decide (0 ≤ s.cycle 0))) = true ∧
    occurs (barred 32 1 false (warp0 (fun y => { y with blocks := [(0, { why := .barw (.sp 0 0x100) 0, since := 0, time := 0, next := 10 })] }))) (fun s =>
      (s.warp 0).any (fun y => y.blocks.length == 1) && (s.who (.warp 0)).isSome && epochPassed (s.objGet (.sp 0 0x100)).epoch 0 &&
        !s.objBad (.sp 0 0x100) && !(s.objGet (.sp 0 0x100)).lastErr) = true := by decide +kernel

def call : SvcReq :=
  { warp := 0, flight := 9, call := 63, args := [], cpc := 0, csn := 0, pc := 0, lanes := 1, d := 8, predicted := none, old := 0 }
def called : State := { warp0 (fun y => { y with svc := some 9, ctx := { y.ctx with flights := [{ flight 1 with svc := true }] } }) with svcs := [call] }

/-- The host has been asked about a page. -/
def inquired (who : Waiter) : State := { running with pris := [{ id := 6, pa := 0x4000000000000, asid := 0, who := who, ticket := 2 }] }

theorem witness_ReplyEvents :
    occurs called (fun s =>
      let u := ({ s with svcs := [] } : State).land (.warp 0) |>.updWarp 0 (fun y => { y with svc := none })
      s.svcs == [call] && (s.warp 0).any (fun y => y.svc == some 9 && call.lanes &&& y.live != 0) && decide (call.call < 64) &&
      ((u.learnSvc 0 call 7).flight (.warp 0) 9).isSome && (u.flight (.warp 0) 9).isSome) = true ∧
    occurs { running with deferred := [{ request := 5, team := 0, grid := 0, num := 0, csn := 0, cpc := 0, order := 0 }] } (fun s =>
      (s.deferred.find? (fun d => d.team == 0 && d.request == 5)).any (fun d => (s.grid d.grid).any (fun g => g.order == d.order) &&
        (s.teams.find? (fun e => e.2.grid == d.grid && e.2.num == d.num)).isSome)) = true ∧
    occurs { running with faults := [{ id := 6, asid := 0, va := 0, access := .read, who := .lanes (.warp 0) 1 }] }
      (fun s => (s.faults.find? (fun f => f.id == 6)).isSome) = true ∧
    ([.lanes (.warp 0) 1, .grid 0, .engine (.cmd 4), .hw 0 0] : List Waiter).all (fun who => occurs (inquired who) (fun s =>
      (s.pris.find? (fun f => f.id == 6)).any (fun p => p.who == who))) = true ∧
    occurs { inquired (.engine (.mx 0 5)) with warps := (warp0 (fun y => { y with mxq := [{ id := 5, kind := 4, acc := 0, mod := 0, lanes := 1, arrival := 0 }] })).warps }
      (fun s => (s.pris.find? (fun f => f.id == 6)).any (fun p => p.who == .engine (.mx 0 5)) && (s.warp 0).any (fun y => (y.mxq.find? (fun q => q.id == 5)).isSome)) = true ∧
    occurs { inquired (.peer 8) with peerIn := [{ id := 8, chip := 1, pasid := 0, va := 0, op := .read 64, edge := 0 }] }
      (fun s => (s.pris.find? (fun f => f.id == 6)).any (fun p => p.who == .peer 8) && (s.peerIn.find? (fun q => q.id == 8)).isSome) = true := by decide +kernel

/-- A request of the core for line 5 that has reached home 0 in an earlier cycle. -/
def request (k : ReqKind) : Req :=
  { id := 7, src := .core 0, core := 0, line := 5, key := 0, part := 0, c := 0, kind := k, awaits := [], arrived := some 0 }
def asked (k : ReqKind) : State := { running with reqs := [request k], time := 100 }
def inQueue (s : State) (p : Req → Bool) : Bool := (s.reqs.find? (fun o => o.id == 7)).any (fun r => lineHome r.line == some 0 && p r)
def served (write : Bool) (s : State) : Bool :=
  inQueue s (fun r => r.arrived.isSome && s.reqReady r && (s.clearHost r.line r.key r.part write).isNone)
def fetched (s : State) : State := (({ s with reqs := [] } : State).sweepFirst 0 5 |>.raiseMts 0 0).fetchLine 0 5 0 0 false
def reply (k : ReqKind) : Reply := { id := 7, req := request k, wts := 1, rts := 1, data := 0, sectors := 15, same := true }
def replying (k : ReqKind) (s : State := running) : State := { s with replies := [reply k] }
def l1With (l : L1Line) : State := running.updCore 0 (fun c => { c with l1 := [(5, l)] })
/-- No key slot holds a valid key. -/
def keyless (k : ReqKind) : State := { asked k with keyValid := 0 }
def renewal (l2only : Bool) : ReqKind := .renew none 0 none l2only
def writeback : ReqKind := .wback 0 1 none 0
def adding : ReqKind := .atomic 252 { op := 0, ty := .i32, b := 1 }

/-- A request of each kind on its way, one that has arrived to a line that a host owns, and one that arrives in this very cycle. -/
theorem witness_HomeEvents_comes :
    ([(renewal false, false), (.read1, false), (writeback, true), (adding, true)] : List (ReqKind × Bool)).all (fun k =>
      occurs { asked k.1 with reqs := [{ request k.1 with arrived := none }] } (fun s => inQueue s (fun r => r.arrived.isNone && s.mayArrive r)) &&
      occurs { asked k.1 with l2 := [(5, { wts := 1, rts := 1, host := .he })] }
        (fun s => inQueue s (fun r => r.arrived.isSome && s.reqReady r && (s.clearHost r.line r.key r.part k.2).isSome)) &&
      occurs { asked k.1 with time := 0 } (fun s => inQueue s (fun r => r.arrived.isSome && !s.reqReady r))) = true := by decide +kernel
theorem witness_HomeEvents :
    occurs (asked (renewal false)) (fun s => served false s && inQueue s (fun r => !s.reqKeyBad r) && (Tab.find (fetched s).l2 5).isSome) = true ∧
    ([renewal true, .read1] : List ReqKind).all (fun k => occurs (asked k) (fun s => served false s && inQueue s (fun r => !s.reqKeyBad r))) = true ∧
    ([renewal false, .read1] : List ReqKind).all (fun k => occurs (keyless k) (fun s => served false s && inQueue s (fun r => s.reqKeyBad r))) = true ∧
    occurs (asked .rawRead) (fun s => served false s && s.keyValid.getLsbD 0) = true ∧
    ([writeback, .rawWrite 0 1] : List ReqKind).all (fun k => occurs (asked k) (fun s => served true s && s.keyValid.getLsbD 0)) = true ∧
    occurs (keyless writeback) (fun s => served true s && !s.keyValid.getLsbD 0) = true ∧
    occurs (asked adding) (fun s => served true s && inQueue s (fun r => !s.reqKeyBad r) && (fetched s).poisonOf 5 &&& byteRange 252 4 == 0) = true := by
  decide +kernel
theorem witness_HomeEvents_replies :
    occurs (replying (renewal false)) (fun s => (s.replyFor 7 ReqKind.isRenew).any (fun p => p.cause == .none)) = true ∧
    occurs (replying writeback (l1With { dirty := 3, sent := [(7, 1)], valid := 1 })) (fun s => (s.replyFor 7 ReqKind.isWrite).isSome &&
      ((({ s with replies := [] } : State).raiseEclk 0 1).l1 0 5).any (fun l => l.key == 0 && l.peer.isNone)) = true ∧
    occurs (replying adding) (fun s => (s.replyFor 7 ReqKind.isAtomic).any (fun p => p.req.src == .core 0)) = true ∧
    occurs { running with replies := [{ reply adding with req := { request adding with src := .peer 1 } }] } (fun s =>
      (s.replyFor 7 ReqKind.isAtomic).any (fun p => p.req.src == .peer 1)) = true ∧
    ([.read1, .rawRead] : List ReqKind).all (fun k => occurs (replying k) (fun s => (s.replyFor 7 ReqKind.isRead).any (fun p => p.req.kind == k && p.cause == .none))) = true ∧
    occurs { running with replies := [{ reply .read1 with cause := .keyInvalid }] } (fun s => (s.replyFor 7 ReqKind.isRead).any (fun p => p.cause != .none)) = true ∧
    occurs (replying (.rawWrite 0 1)) (fun s => (s.replyFor 7 ReqKind.isWrite).any (fun p => p.req.kind == .rawWrite 0 1)) = true := by decide +kernel

theorem witness_ClockEvents :
    occurs { running with time := 51250 } (fun s => (s.ctx (.warp 0)).any (fun c => !c.saved && decide (c.placedAt + 1024 * (c.creeps + 1) < s.cycle 0))) = true ∧
    occurs { running with homes := List.replicate 6 { sweep := some (5, l2Sets 0 - 1) } } (fun s => (s.home 0).sweep.isSome) = true ∧
    occurs { running with time := 4096 * 50 } (fun s => decide (s.floorN < (s.time - s.resetAt) / (4096 * 50))) = true ∧
    occurs (l1With { valid := 1 }) (fun s => (s.l1 0 5).any (fun l => l.dirty == 0)) = true ∧
    occurs (l1With { valid := 1, dirty := 1 }) (fun s => (s.l1 0 5).any (fun l => l.dirty &&& 3 != 0 && l.dirty != 0)) = true ∧
    occurs { running with l2 := [(5, { wts := 1, rts := 1 })] } (fun s => (Tab.find s.l2 5).isSome && homeOf (256 * 5) == some 0) = true ∧
    ([none, some true, some false] : List (Option Bool)).all (fun n => occurs { running with l2 := [(5, { wts := 1, rts := 1, host := .hs, snoop := n })] } (fun s =>
      (Tab.find s.l2 5).any (fun l => l.snoop == n))) = true ∧
    occurs { running with hostL2 := [(0x40000000000, { data := 0, filled := 0 })] } (fun s =>
      (Tab.find s.l2 0x40000000000).isNone && (Tab.find s.hostL2 0x40000000000).isSome) = true := by decide +kernel

/-- Tables for ASID 0 at the physical address 0x100000: one leaf of 1 GiB at the virtual address 0. -/
def tables : State :=
  { running with
    asidcfg := 0x100000
    mem := Mem.writeN (Mem.writeN (Mem.writeN [] 0x100000 8 (0x101000 + 1)) 0x101000 8 (0x102 * 2 ^ 22 + 1)) 0x102000 8 (0x103 * 2 ^ 22 + 1)
      |> fun m => Mem.writeN m 0x103000 8 0xCF }
def walking (s : State) (access : Access := .read) (stale : Bool := false) : State :=
  { s with walks := [{ id := 2, die := 0, asid := 0, va := 0x3FFFFFFF, access := access, waiters := [{ who := .lanes (.warp 0) 1, va := 0x3FFFFFFF, access := access }], stale := stale }] }
def walks (s : State) (p : Walk → WalkEnd → Bool) : Bool :=
  (s.walks.find? (fun k => k.id == 2)).any (fun k => (s.running k.die).any (fun o => o.id == 2) && !s.parkHeld k.asid && p k (s.walk k.die k.asid k.va))
/-- The leaf is there, and it lets in no write once its W is gone. -/
def readOnly : State := { tables with mem := Mem.writeN tables.mem 0x103000 8 0xCB }

theorem witness_TranslationEvents :
    occurs (walking tables) (fun s => walks s (fun k e => !k.stale && match e with
      | .leaf f => k.waiters.any (s.letsIn f.leaf) && k.waiters.all (fun x => !s.letsIn f.leaf x || s.adReady f x.access (s.inHandler x.who))
      | _ => false)) = true ∧
    occurs (walking readOnly .write) (fun s => walks s (fun k e => !k.stale && match e with | .leaf f => k.waiters.all (fun x => !s.letsIn f.leaf x) | _ => false)) = true ∧
    occurs (walking running) (fun s => walks s (fun k e => !k.stale && e == .fault none)) = true ∧
    occurs (walking { running with asidcfg := 0x2FFFFFFF000 }) (fun s => walks s (fun k e => !k.stale && e == .fault (some 0x2FFFFFFF000))) = true ∧
    occurs (walking { tables with l2 := [(0x1000, { wts := 1, rts := 1, host := .he })] }) (fun s =>
      (s.walks.find? (fun k => k.id == 2)).any (fun k => (s.running k.die).any (fun o => o.id == 2) && s.parkHeld k.asid)) = true ∧
    occurs (walking tables .read true) (fun s => walks s (fun k e => k.stale && match e with | .leaf _ => true | _ => false)) = true ∧
    occurs { walking tables with l2 := [(0x1020, { wts := 1, rts := 1, host := .he })] } (fun s => walks s (fun _ e => match e with | .wait _ => true | _ => false)) = true ∧
    occurs { walking tables with walks := (List.range 65).map (fun i => { id := 66 - i, die := 0, asid := 0, va := 0, access := .read, waiters := [] }) } (fun s =>
      (s.walks.find? (fun k => k.id == 2)).any (fun k => !(s.running k.die).any (fun o => o.id == 2))) = true ∧
    occurs { running with time := 50, invals := [{ kind := 3, asid := 0, va := 0, walks := [4], uses := [8], posted := 49 }] } (fun s =>
      s.invals.any (fun v => decide (v.posted / 50 < s.time / 50) && v.walks.all (fun w => s.walks.all (fun k => k.id != w)) &&
        v.uses.all (fun u => !s.usesNow.contains u))) = true := by decide +kernel

def matrixOp (k : Nat) (left : List Nat) : MxOp := { id := 5, kind := k, acc := 0, n := 1, mod := 0, lanes := 0xFF, arrival := 0, left := left }
def queued (o : MxOp) (time : Nat) : State := { (warp0 (fun y => { y with mxq := [o] })) with time := time }
def portOf (o : MxOp) (time : Nat) : State := (queued o time).updCore 0 (fun c => { c with portOp := some (0, 5) })
def tookPort (s : State) : State := ((s.portNow 0).elim s (fun h => s.sendPieces (.mx h.1 h.2.2.id) h.2.2.pieces)).portTake 0
def ported (s : State) (p : State → Warp → MxOp → Bool) : Bool :=
  occurs s (fun s => ((tookPort s).portNow 0).any (fun r => r.1 == 0 && p (tookPort s) r.2.1 r.2.2))
def idlePort (s : State) : Bool := decide ((s.core 0).portFree ≤ s.cycle 0)
def landedOf (o : MxOp) : Option Piece := o.pieces.find? (fun p => p.sent && !p.bad && p.writes == 0)
def onPort (k : Nat) (s : State) : Bool :=
  ((tookPort s).portNow 0).any (fun r => r.1 == 0 && r.2.2.kind == k) && decide (((tookPort s).core 0).portFree ≤ (tookPort s).cycle 0)

/-- A copy of 64 bytes within the scratchpad, from 0x1000 to 0x2000. -/
def copyDesc : BitVec 512 := BitVec.ofNat 512 (7 * 2 ^ 8 + 0x40 * 2 ^ 256 + 0x1000 * 2 ^ 64 + 0x2000 * 2 ^ 128 + 0x40 * 2 ^ 192)
def command : Cmd :=
  { id := 4, core := 0, team := 0, warp := none, desc := copyDesc, c := 0, t := 0, cpc := 0, csn := 0, edge := 0, total := 64, recv := [0] }
def piece : Piece := { at_ := 0, n := 64, sent := true }
def copying (c : Cmd) : State := { running with cmds := [c] }
def triedCmd (s : State) : State := (s.cmds.find? (fun c => c.id == 4)).elim s (fun c => s.sendPieces (.cmd 4) c.inflight)
def foundCmd (s : State) (p : Cmd → Bool) : Bool := (s.cmds.find? (fun c => c.id == 4)).any (fun c => !c.complete && p c)

/-- An operation with these quarters left, at this cycle, and the lead that was chosen before, if one was. -/
def passing (left : List Nat) (cycle : Nat) (lead : Option (Nat × Nat × Nat)) : State :=
  (queued { matrixOp 0 left with lanes := 0xFFFFFFFF } (50 * cycle)).updCore 0 (fun c => { c with lead := lead })
/-- The lead that Obligations.EngineEvents names, with the quarters of its group and the end of its wait. -/
def led (s : State) (p : Nat → Nat → Nat → Bool) : Bool :=
  let u := s.touchHeads 0
  let ptr := (u.core 0).mxPtr
  let found : Option ((Nat × MxOp) × Nat) := match (u.core 0).lead with
    | some (lw, id, until_) => ((u.mxqHeads 0 ptr).find? (fun h => h.1 == lw && h.2.id == id)).map (fun h => (h, until_))
    | none => (u.mxqHeads 0 ptr).head?.map (fun h => (h, h.2.arrival + 16))
  decide ((u.core 0).mxFree ≤ u.cycle 0) && u.gateOpen 0 && (u.core 0).leftover == none && found.any (fun r =>
    let join := (u.mxqHeads 0 (r.1.1 % 128)).filter (fun h => h.2.id != r.1.2.id && h.2.matches r.1.2 && decide (h.2.arrival ≤ r.1.2.arrival + 16))
    p ((r.1 :: join).flatMap (fun h => h.2.left)).length (u.cycle 0) r.2)

/-- A pass with four parts there, and one whose wait of 16 cycles is over, its lead chosen now or before; and a lead that waits. -/
theorem witness_EngineEvents_pass :
    ([([0, 1, 2, 3], 0, none), ([0], 16, none), ([0], 16, some (0, 5, 16)), ([0, 1, 2, 3], 3, some (0, 5, 16))] :
      List (List Nat × Nat × Option (Nat × Nat × Nat))).all (fun c =>
        occurs (passing c.1 c.2.1 c.2.2) (fun s => led s (fun n now until_ => decide (4 ≤ n) || decide (until_ ≤ now)))) = true ∧
    ([none, some (0, 5, 16)] : List (Option (Nat × Nat × Nat))).all (fun l =>
        occurs (passing [0] 15 l) (fun s => led s (fun n now until_ => decide (n < 4) && decide (now < until_)))) = true ∧
    occurs { running.updCore 0 (fun c => { c with passes := [{ parts := [(0, 5, 0)], ends := 1, writes := 2 }] }) with time := 100 } (fun s =>
      (s.core 0).passes.any (fun p => decide (p.writes ≤ s.cycle 0))) = true ∧
    ([1, 2, 3, 6, 7] : List Nat).all (fun k => occurs (portOf (matrixOp k []) 100000) (onPort k)) = true := by
  decide +kernel
/-- A lead that has quarters left over; and quarters that joined in an earlier cycle. -/
theorem witness_EngineEvents_leftover :
    occurs ((passing [0] 15 none).updCore 0 (fun c => { c with leftover := some (0, 5) })) (fun s =>
      let u := s.touchHeads 0
      decide ((u.core 0).mxFree ≤ u.cycle 0) && u.gateOpen 0 && (u.core 0).lead == none && (u.core 0).leftover == some (0, 5) &&
        ((u.mxqHeads 0 (u.core 0).mxPtr).find? (fun h => h.1 == 0 && h.2.id == 5)).isSome) = true ∧
    occurs ((passing [0] 15 (some (0, 5, 16))).updCore 0 (fun c => { c with joined := [(0, 5, 0)] })) (fun s => led s (fun n _ _ => n == 1)) = true := by
  decide +kernel
/-- MXLD and MXST on the port: before their port cycles, a poisoned tile, a piece to issue, a piece that is back, and the last one. -/
theorem witness_EngineEvents_memory :
    ([4, 5] : List Nat).all (fun k =>
      let o := matrixOp k []
      ported (portOf o 100000) (fun s y o => o.kind == k && o.failed.isNone && (landedOf o).isNone && o.stopped.isNone && !o.started && idlePort s &&
        !o.tiles.any y.poisoned) &&
      ported (portOf { o with started := true } 100000) (fun _ _ o => o.kind == k && o.failed.isNone && (landedOf o).isNone && o.stopped.isNone && o.started) &&
      ([(0, false), (o.n * 1024 * o.elem - 64, true)] : List (Nat × Bool)).all (fun d =>
        ported (portOf { o with started := true, done := d.1, pieces := [piece] } 100000) (fun s _ o => (landedOf o).any (fun p =>
          ((s.mxLand 0 o p).warp 0).any (fun z => (z.mxq.find? (fun e => e.id == o.id)).any (fun q =>
            q.failed.isNone && decide (q.n * 1024 * q.elem ≤ q.done) == d.2)))))) = true ∧
    ported ((portOf (matrixOp 5 []) 100000).updWarp 0 (fun y => y.setBadTile 0 true)) (fun s y o => o.kind == 5 && o.failed.isNone && (landedOf o).isNone &&
      o.stopped.isNone && !o.started && idlePort s && o.tiles.any y.poisoned) = true := by decide +kernel
theorem witness_EngineEvents_copy :
    occurs { running with grids := (begunIn false false).grids } (fun s =>
      (s.warp 0).any (fun y => (s.team y.ctx.team).any (fun t => decide (15 < s.accOf t.grid)))) = true ∧
    occurs (copying { command with inflight := [piece] }) (fun s => foundCmd (triedCmd s) (fun c => c.inflight.find? (fun p => p.sent && !p.bad && p.writes == 0) == some piece)) = true ∧
    occurs (copying command) (fun s => foundCmd (triedCmd s) (fun c => c.inflight.isEmpty && c.failed.isNone && c.suspended.isNone && decide (c.next < c.total) &&
      !(c.fmtNew && (triedCmd s).tableDue c.team) && match (triedCmd s).cmdStep c with | .go _ => true | _ => false)) = true ∧
    occurs (copying { command with desc := BitVec.ofNat 512 (6 * 2 ^ 8 + 0x40 * 2 ^ 256 + 0x1000 * 2 ^ 64 + 0x2000 * 2 ^ 128 + 0x40 * 2 ^ 192) ||| (0x7FFFFFFFFFFFFF <<< 72) }) (fun s => foundCmd s (fun c =>
      c.inflight.isEmpty && c.failed.isNone && c.suspended.isNone && decide (c.next < c.total) && match s.cmdStep c with | .fault .. => true | _ => false)) = true ∧
    occurs (copying { command with acks := [2], complete := true }) (fun s =>
      (s.cmds.find? (fun c => c.id == 4)).any (fun c => c.acks == [2] && (s.ackLoc c).isNone && (s.objsHeld c []).isNone)) = true ∧
    occurs (barred 2 0 false (copying { command with acks := [0, 2], complete := true, desc := BitVec.ofNat 512 (2 ^ 14 + 0x100 * 2 ^ 448) })) (fun s =>
      (s.cmds.find? (fun c => c.id == 4)).any (fun c => c.acks == [0, 2] && s.ackLoc c == some (.sp 0 0x100) && (s.objsHeld c [.sp 0 0x100]).isNone && s.rankTeam c.team 0 == some 0 &&
        ((s.objGet (.sp 0 0x100)).arrive 1 0 (lastWords (engineCode false 0) c.csn c.edge)).isSome)) = true ∧
    occurs (running.updTeam 0 (fun t => { t with sched := [{ desc := copyDesc, released := some (0, 0, 0, 0) }] })) (fun s =>
      (s.team 0).any (fun t => t.preempt == .none && t.heldCmd.isEmpty && t.sched.length == 1) && !s.castHeld 0 copyDesc && (s.engWho 0).any (fun w =>
        (s.startCmd w copyDesc { c := 0, cpc := 0, csn := 0, edge := 0, warp := none } none).isOk)) = true := by decide +kernel

/-! ## Peers, queues and grids -/

def inPod : State := { running with chipcfg := 0x10005 }
/-- Every link is in its retraining window. -/
def shutWays : State := { running with links := List.replicate 13 { window := some (100, 0) } }
def hostTxn (write fill : Bool) : HostTxn := { id := 6, pa := 0x4000000000000, n := 4, write := write, asid := 0, core := 0, line := 0x40000000000, fill := fill, await := .none }

theorem witness_PeerEvents :
    occurs inPod (fun s => s.chipcfg.getLsbD 16 && s.chipcfg.toNat % 1024 == 5) = true ∧
    (peerBytes (.write 64 0) = 64 ∧ 0 + peerBytes (.write 64 0) ≤ 64 ∧ peerBytes (.read 1) ≠ 0 ∧ 63 + peerBytes (.read 1) ≤ 64) ∧
    occurs { running with remotes := [{ id := 6, core := 0, port := 2, window := 0 }] } (fun s => (s.remotes.find? (fun r => r.id == 6)).isSome && !s.flitShut (.ack 6)) = true ∧
    occurs { shutWays with remotes := [{ id := 6, core := 0, port := 2, window := 0 }] } (fun s => s.flitShut (.ack 6)) = true ∧
    occurs { shutWays with chipcfg := 0x10005, peerOut := [{ id := 6, chip := 1, pasid := 0, va := 0, op := .read 64, edge := 0, core := 0, pa := 0x100000000000000 }] } (fun s => s.flitShut (.peer 0 5 1 0 (.reply 6 0 .none) 0 0)) = true ∧
    occurs running (fun s => !s.flitShut (.peer 0 5 1 0 (.read 1) 0 0)) = true ∧
    occurs { running with time := 47000 } (fun s => s.datum / 1000 != s.window) = true ∧
    -- a chip that port 3 of I/O die 0 leads to (the port and its open way: witness_PeerEvents_route), and one that no port leads to
    occurs { inPod with routes := [(9, 8)] } (fun s => s.chipcfg.getLsbD 16 && s.chipcfg.toNat % 1024 != 9) = true ∧
    ([.read 1, .reply 6 0 .none] : List PeerOp).all (fun op => occurs inPod (fun s =>
      s.chipcfg.toNat % 1024 != 9 && !s.flitShut (.peer 0 9 1 0 op 0 0) && (s.pickPort 0 1 9 0).isNone)) = true ∧
    occurs running (fun s => !s.chipcfg.getLsbD 16 && decide ((Tab.get {} s.rollWindow.belcy 127).lanesDown < 2)) = true ∧
    occurs { running with hostTxns := [hostTxn true false] } (fun s =>
      (s.hostTxns.find? (fun t => t.id == 6)).any (fun x => x.write && x.atom.isNone && !x.fill) && !s.flitShut (.hostDone 6 0 true)) = true ∧
    occurs { running with hostTxns := [hostTxn false true] } (fun s =>
      (s.hostTxns.find? (fun t => t.id == 6)).any (fun x => !x.write && x.fill && (s.hostBlocks x).isNone && (s.hostTxns.filter (fun t => t.id != 6)).isEmpty) && !s.flitShut (.hostDone 6 0 true)) = true ∧
    occurs { shutWays with hostTxns := [hostTxn true false] } (fun s =>
      (s.hostTxns.find? (fun t => t.id == 6)).any (fun x => (s.hostBlocks x).isNone) && s.flitShut (.hostDone 6 0 true)) = true := by
  decide +kernel

theorem flit_passes {s : State} {port dest src q : Nat} {pasid : W16} {va edge : W64} {op : PeerOp} (n : dest % 1024 ≠ s.chipId)
    (h : s.pickPort (port / 64 % 2) src (dest % 1024) va.toNat = some q) (e : q / 64 % 2 = port / 64 % 2) :
    s.flitShut (.peer port dest src edge op pasid va) = false := by
  simp only [State.flitShut, State.flitWay, if_neg n, State.transitWay, h, e, if_true]

theorem witness_PeerEvents_route : ({ inPod with routes := [(9, 8)] } : State).pickPort 0 1 9 0 = some 3 ∧
    ({ inPod with routes := [(9, 8)] } : State).flitShut (.peer 0 9 1 0 (.read 1) 0 0) = false := by
  have h : (List.range 64).filter (fun p => (Tab.get 0 [(9, (8 : W64))] (0 * 1024 + 9)).getLsbD p) = [3] := by decide +kernel
  have p : ({ inPod with routes := [(9, 8)] } : State).portOn 0 1 9 0 = some 3 := by
    dsimp only [State.portOn]
    erw [h, List.length_singleton, Nat.mod_one]
    rfl
  have q : ({ inPod with routes := [(9, 8)] } : State).pickPort 0 1 9 0 = some 3 := by rw [State.pickPort, p]
  have n : (9 : Nat) % 1024 ≠ ({ inPod with routes := [(9, 8)] } : State).chipId := by decide +kernel
  exact ⟨q, flit_passes n q rfl⟩

def theQueue (h t : W32) : Queue := { word0 := 0x4000000000000000, head := h, tail := t }
def queueing (h t : W32) : State := { running with queues := [(3, theQueue h t)] }
/-- The grid, in a state of its life. -/
def grid0 (f : Grid → Grid) (s : State := running) : State := { s with grids := s.grids.map (fun e => (e.1, f e.2)) }
def inGrid (s : State) (p : Grid → Bool) : Bool := (s.grid 0).any p
/-- With the pages of tables, and the header of a code object at address 0. -/
def paging : State := { tables with grids := running.grids }
def fresh : Grid → Grid := fun g => { g with
  state := .consumed, rec_ := { g.rec_ with legal := true, part := 0, depth := 0, pred := [], slots := 0 }, part := 0 }

theorem witness_GridEvents_front :
    (occurs (queueing 0 1) (fun s => s.freeEntry.isSome && qEn (s.queue 3).word0 && (s.queue 3).head != (s.queue 3).tail && !(s.queue 3).overrun &&
      !(s.queue 3).recfault && physKind (qBase (s.queue 3).word0) == .home 0 && match s.hwPhys (qBase (s.queue 3).word0) 128 none with | .val _ => true | _ => false)) = true ∧
    occurs (grid0 (fun g => { g with state := .waiting, rec_ := { g.rec_ with pred := [] } })) (fun s => inGrid s (fun g => g.state == .waiting &&
      g.rec_.pred.all (fun t => (s.tokenClock t).isSome))) = true ∧
    occurs (grid0 (fun g => { g with state := .admitting })) (fun s => inGrid s (fun g => g.state == .admitting && s.grids.length == 1)) = true := by decide +kernel

/-- The header of a code object at address 0: magic, version 1, 8 KiB with data from 4096, lane entry 256, 16 registers, any width. -/
def headed (s : State) : State :=
  let words : List (Nat × Nat × Nat) := [(0, 4, 0x4F433153), (4, 2, 1), (8, 8, 0x2000), (0x10, 8, 0x100), (0x20, 2, 16), (0x28, 1, 7), (0x88, 8, 0x1000)]
  { s with mem := words.foldl (fun m e => Mem.writeN m e.1 e.2.1 e.2.2) s.mem }
/-- A grid of the first partition, which has the first cluster. -/
def placing (f : Grid → Grid) (s : State) : State :=
  grid0 f { s with parts := s.parts.set 0 { s.part 0 with word0 := (s.part 0).word0 ||| 1, clusters := 1 } }
/-- The team of the grid, not started, whose decision its dispatch unit carries out next. -/
def decided (f : Team → Team) (s : State := running) : State := { s.updTeam 0 (fun t => f { t with started := false }) with decisions := [(0, 0, 0)] }
def starting (s : State) (p : Grid → SchedRead → Bool) : Bool :=
  (s.team 0).any (fun x => (s.grid x.grid).any (fun g => !x.started && g.saved == [] && s.decisionNext x && (s.featWait g.asid).isNone &&
    p g ((s.holdLeaves 0 g.asid).readSched 0 g).1))

/-- The words that 'tables' has on the way to the virtual address 0 stand in this state. -/
def hasTables (s : State) : Bool :=
  s.asidcfg == 0x100000 && s.tableWord 0 0 0x100000 == some 0x101001 && s.tableWord 0 0 0x100008 == some 0 &&
  s.tableWord 0 0 0x101000 == some (BitVec.ofNat 64 (0x102 * 2 ^ 22 + 1)) && s.tableWord 0 0 0x102000 == some (BitVec.ofNat 64 (0x103 * 2 ^ 22 + 1)) &&
  s.tableWord 0 0 0x103000 == some 0xCF && s.homeRead 0x103000 8 == 0xCF && !s.hostOwns 0x1030

theorem walk_tables {s : State} (hs : hasTables s = true) (va : W64) (hv : va.toNat < 2 ^ 30) :
    ∃ w, s.walk 0 0 va = .leaf w ∧ w.leaf = 0xCF ∧ w.level = 3 := by
  simp only [hasTables, Bool.and_eq_true, beq_iff_eq, Bool.not_eq_true'] at hs
  obtain ⟨⟨⟨⟨⟨⟨⟨h0, h1⟩, h1b⟩, h2⟩, h3⟩, h4⟩, h5⟩, h6⟩ := hs
  have i3 : walkIndex va 3 = 0 := by simp only [walkIndex]; omega
  have i4 : walkIndex va 4 = 0 := by simp only [walkIndex]; omega
  have i5 : walkIndex va 5 = 0 := by simp only [walkIndex]; omega
  have a : s.asidAddr 0 = 0x100000 := by rw [State.asidAddr, h0]; rfl
  have o : homeOf 0x100000 = some 0 ∧ homeOf 0x101000 = some 0 ∧ homeOf 0x102000 = some 0 ∧ homeOf 0x103000 = some 0 := by decide +kernel
  have k : asidOk 0x101001 0 = true := by decide +kernel
  have m5 : (!pteV (BitVec.ofNat 64 (0x102 * 2 ^ 22 + 1)) || malformed 5 (BitVec.ofNat 64 (0x102 * 2 ^ 22 + 1))) = false ∧
    pteLeaf (BitVec.ofNat 64 (0x102 * 2 ^ 22 + 1)) = false ∧ ptePpn (BitVec.ofNat 64 (0x102 * 2 ^ 22 + 1)) * 4096 = 0x102000 := by decide +kernel
  have m4 : (!pteV (BitVec.ofNat 64 (0x103 * 2 ^ 22 + 1)) || malformed 4 (BitVec.ofNat 64 (0x103 * 2 ^ 22 + 1))) = false ∧
    pteLeaf (BitVec.ofNat 64 (0x103 * 2 ^ 22 + 1)) = false ∧ ptePpn (BitVec.ofNat 64 (0x103 * 2 ^ 22 + 1)) * 4096 = 0x103000 := by decide +kernel
  have m3 : (!pteV 0xCF || malformed 3 0xCF) = false ∧ pteLeaf 0xCF = true := by decide +kernel
  have t0 : (0x101001 : W64).toNat / 4096 % 2 ^ 40 * 4096 = 0x101000 := by decide +kernel
  have p8 : 0x100000 + 8 = 0x100008 := rfl
  have l3 : 0x103000 / 256 = 0x1030 := rfl
  simp only [State.walk, State.walkFrom, a, o, p8, h1, h1b, k, if_true, t0, i3, i4, i5, Nat.mul_zero, Nat.add_zero, h2, m5, h3, m4, h4, m3,
    Bool.false_eq_true, if_false, h5, l3, h6, WalkEnd.leaf.injEq, exists_eq_left']
  exact ⟨rfl, trivial⟩

/-- The line of this number is in home 0, as the tables map it, and a hardware read finds these bytes in it. -/
def plainLine (s : State) (l : Nat) (d : Line) : Bool :=
  hasTables s && s.keyUsable 0 (pteKey 0xCF) && decide (l < 0x400000) && !s.hostOwns l && s.poisonOf l == 0 && s.lineAs l (pteKey 0xCF) == d &&
    !s.otherSlot l (some (pteKey 0xCF))

theorem hwLeaf_plain {s : State} {l : Nat} {d : Line} (hs : plainLine s l d = true) (va : W64) (n : Nat) (h : Bool) (h0 : 256 * l ≤ va.toNat)
    (hn : va.toNat + n ≤ 256 * l + 256) (n0 : 0 < n) : ∃ w, s.hwLeaf 0 0 0 va n .read h = .ok va.toNat 0xCF w ∧ w.leaf = 0xCF := by
  simp only [plainLine, Bool.and_eq_true, beq_iff_eq, decide_eq_true_eq, Bool.not_eq_true'] at hs
  obtain ⟨⟨⟨⟨⟨⟨ht, hk⟩, hl⟩, _⟩, _⟩, _⟩, _⟩ := hs
  obtain ⟨w, hw, wl, wv⟩ := walk_tables ht va (by omega)
  have pa : leafPa 0xCF (pageSize 3 0xCF) va = va.toNat := by
    show 0 * 4096 + va.toNat % 2 ^ 30 = va.toNat
    omega
  have r : rangeFault va n = none := by
    have c : va.toNat / 2 ^ 56 = 0 := by omega
    have e : va.toNat + (n - 1) < 2 ^ 56 := by omega
    simp only [rangeFault, canonical, c, e, if_true]
    rfl
  have p : permits (0xCF : W64) .read h = true := by cases h <;> decide +kernel
  have b : adBits (0xCF : W64) .read h = 0 := by cases h <;> decide +kernel
  exact ⟨w, by simp only [State.hwLeaf, r, hw, wl, wv, pa, p, State.keyFor, hk, State.adReady, b, Bool.or_true, Bool.not_true, Bool.false_eq_true,
    if_false, beq_self_eq_true, Bool.true_or], wl⟩

theorem hwRead_plain {s : State} {l : Nat} {d : Line} (hs : plainLine s l d = true) (va : W64) (n : Nat) (h : Bool) (h0 : 256 * l ≤ va.toNat)
    (hn : va.toNat + n ≤ 256 * l + 256) (n0 : 0 < n) :
    s.hwRead 0 0 0 va n h = .val (lineField d (va.toNat - 256 * l) n) ∧ s.hwTouch 0 0 0 va n .read h = s := by
  obtain ⟨w, hw, wl⟩ := hwLeaf_plain hs va n h h0 hn n0
  simp only [plainLine, Bool.and_eq_true, beq_iff_eq, decide_eq_true_eq, Bool.not_eq_true'] at hs
  obtain ⟨⟨⟨⟨⟨_, hl⟩, ho⟩, hp⟩, hd⟩, hx⟩ := hs
  have k : physKind va.toNat = .home (va.toNat / 0x1000000000) := if_pos (by omega)
  have q : va.toNat / 256 = l := by omega
  have o : va.toNat % 256 = va.toNat - 256 * l := by omega
  have b : adBits (0xCF : W64) .read h = 0 := by cases h <;> decide +kernel
  constructor
  · simp only [State.hwRead, hw, State.hwPhys, k, q, ho, hp, hx, State.homeReadAs, hd, o, Bool.false_and, Bool.or_false, Bool.false_eq_true, if_false]
    exact if_pos BitVec.zero_and
  · have z : s.rehome va.toNat 0xCF = s := by
      simp only [State.rehome, q]
      cases homeOf va.toNat with
      | none => rfl
      | some _ => simp only [hx, Bool.not_false, if_true]
    simp only [State.hwTouch, hw, State.setAd, wl, b, if_true, k, reduceCtorEq, if_false, z, ite_self]

theorem hwTake_plain {s : State} {l : Nat} {d : Line} (hs : plainLine s l d = true) : ∀ (k : Nat) (va : W64), 256 * l ≤ va.toNat →
    va.toNat + 8 * k ≤ 256 * l + 256 → s.hwTake 0 0 0 va 8 k = (.val (lineField d (va.toNat - 256 * l) (8 * k)), s)
  | 0, va, _, _ => by simp [State.hwTake, lineField, Nat.mod_one]
  | k + 1, va, h0, hn => by
    have hl : l < 0x400000 := by
      simp only [plainLine, Bool.and_eq_true, decide_eq_true_eq] at hs
      omega
    have t : (va + BitVec.ofNat 64 8).toNat = va.toNat + 8 := by
      rw [BitVec.toNat_add]
      show (va.toNat + 8) % 2 ^ 64 = _
      omega
    have ih := hwTake_plain hs k (va + BitVec.ofNat 64 8) (by omega) (by omega)
    have e : 8 * (va.toNat + 8 - 256 * l) = 8 * (va.toNat - 256 * l) + 64 := by omega
    have m : 2 ^ (8 * (8 * (k + 1))) = 2 ^ 64 * 2 ^ (8 * (8 * k)) := by rw [← Nat.pow_add]; congr 1; omega
    obtain ⟨r, u⟩ := hwRead_plain hs va 8 false h0 (by omega) (by omega)
    simp only [State.hwTake, r, u, ih, t, lineField, e, m, Nat.mod_mul, Nat.shiftRight_add, Nat.shiftRight_eq_div_pow _ 64]
    rw [Nat.mul_comm (2 ^ 64)]

/-- A check whose header is a line of zeros. -/
def unheaded : State := grid0 fresh paging
/-- The header of 'headed' as it stands in the line. -/
def header : Line :=
  BitVec.ofNat 2048 (0x4F433153 + 2 ^ 32 + 0x2000 * 2 ^ 64 + 0x100 * 2 ^ 128 + 16 * 2 ^ 256 + 7 * 2 ^ 320 + 0x1000 * 2 ^ 1088)
def checkable (g : Grid) : Bool :=
  g.state == .consumed && g.recAddr.isNone && g.rec_.legal && (g.rec_.part == g.part && g.rec_.depth == 0) && g.rec_.pred.all (tokenLegal g.queue g.index)

theorem unheaded_line : plainLine unheaded 0 0 = true := by decide +kernel
theorem headed_line : plainLine (headed unheaded) 0 header = true := by decide +kernel

theorem witness_GridEvents_rejected : unheaded.live = true ∧ ∃ g h u, unheaded.grid 0 = some g ∧ checkable g = true ∧
    unheaded.hwTake 0 g.asid g.part g.rec_.code 8 32 = (.val h, u) ∧ unheaded.featWait g.asid = none ∧
    (verdict (u.featTouch g.asid) g h).isSome = true :=
  ⟨by decide +kernel, fresh fetchGrid, _, _, by decide +kernel, by decide +kernel, hwTake_plain unheaded_line 32 0 (by decide) (by decide),
    by decide +kernel, by decide +kernel⟩
theorem witness_GridEvents_waiting : (headed unheaded).live = true ∧ ∃ g h u v safe, (headed unheaded).grid 0 = some g ∧ checkable g = true ∧
    (headed unheaded).hwTake 0 g.asid g.part g.rec_.code 8 32 = (.val h, u) ∧ (headed unheaded).featWait g.asid = none ∧
    verdict (u.featTouch g.asid) g h = none ∧
    (u.featTouch g.asid).safeTable g (g.rec_.code + BitVec.ofNat 64 (hdrField h 0x30 8)) (hdrField h 0x29 1) = .ok (safe, v) := by
  have z : hdrField (lineField header ((0 : W64).toNat - 256 * 0) (8 * 32)) 0x29 1 = 0 := by decide +kernel
  exact ⟨by decide +kernel, fresh fetchGrid, _, _, (headed unheaded).featTouch (fresh fetchGrid).asid, [], by decide +kernel, by decide +kernel,
    hwTake_plain headed_line 32 0 (by decide) (by decide), by decide +kernel, by decide +kernel, by rw [z]; rfl⟩

def badSched : State := decided id (grid0 (fun g => { g with rec_ := { g.rec_ with sched := 0x4000 } }) paging)
theorem badSched_line : plainLine (badSched.holdLeaves 0 fetchGrid.asid) 0x40 0 = true := by decide +kernel
theorem readSched_zero {s u : State} {die : Nat} {g : Grid} (h0 : g.rec_.sched ≠ 0)
    (h : s.hwTake die g.asid g.part g.rec_.sched 8 8 = (.val 0, u)) : s.readSched die g = (.bad .illegalOperand, u) := by
  unfold State.readSched
  rw [if_neg h0, h]
  exact if_pos (Or.inl rfl)
theorem witness_GridEvents_badSched : badSched.live = true ∧ ∃ x g c u, badSched.team 0 = some x ∧ badSched.grid x.grid = some g ∧
    (!x.started && g.saved == [] && badSched.decisionNext x) = true ∧ badSched.featWait g.asid = none ∧
    (badSched.holdLeaves 0 g.asid).readSched 0 g = (.bad c, u) := by
  refine ⟨by decide +kernel, (badSched.team 0).getD (fetchTeam false), { fetchGrid with rec_ := { fetchGrid.rec_ with sched := 0x4000 } }, .illegalOperand,
    badSched.holdLeaves 0 fetchGrid.asid, by decide +kernel, by decide +kernel, by decide +kernel, by decide +kernel, ?_⟩
  have r := hwTake_plain badSched_line 8 0x4000 (by decide) (by decide)
  have z : lineField 0 ((0x4000 : W64).toNat - 256 * 0x40) (8 * 8) = 0 := by decide +kernel
  rw [z] at r
  exact readSched_zero (by decide) r

theorem witness_GridEvents_teams :
    occurs (placing (fun g => { g with state := .placing, placed := 0, resident := [] }) { running with time := 376 }) (fun s =>
      let v : State := { s.noteRoom with lastPlace := s.placeTime }
      decide (s.lastPlace + 8 ≤ s.datum) && ((List.range 8).find? (fun k => (List.range 8).any (fun p => (v.placeable p k).isSome))).any (fun k =>
        (v.placeable (v.turnOf k).1 k).any (fun r => (r.2.1.saved.find? (fun x => x.team.num == r.2.2.1)).isNone))) = true ∧
    occurs (decided id) (fun s => starting s (fun _ r => match r with | .ok _ => true | _ => false)) = true ∧
    occurs (running.updTeam 0 (fun t => { t with fmtLoad := true })) (fun s => (s.team 0).any (fun x => (s.who (.ct 0)).isSome && x.fmtLoad && x.started &&
      x.fmtBy.isNone && x.fmtFlight.isNone && x.fmtBase &&& ~~~0xFF == 0)) = true ∧
    occurs (running.updTeam 0 (fun t => { t with
      fmtLoad := true
      fmtBase := 0x4000
      fmtFlight := some (.ct 0, 4, 0x4000)
      ct := { t.ct with flights := [{ id := 4, tag := 0, cnt := .none, pc := 0, lanes := 0, form := .ready }] } })) (fun s => (s.team 0).any (fun x =>
        x.fmtLoad && x.started && (s.fmtReader 0 x).1 == .ct 0 && (s.who (.ct 0)).isSome && x.fmtFlight == some (.ct 0, 4, x.fmtBase &&& ~~~0xFF) &&
        (s.flight (.ct 0) 4).any (fun f => f.id == 4 && f.missing == 0 && f.bad.isEmpty))) = true ∧
    occurs ({ warp0 (fun y => { y with live := 0 }) with cmds := [] }.updTeam 0 (fun t => { t with ctExited := true, exited := 1 })) (fun s =>
      (s.team 0).any (fun x => x.over && s.enginesIdle 0 x && x.regions.isEmpty && !s.wbInFlight x.core)) = true ∧
    occurs ({ warp0 (fun y => { y with live := 0 }) with cmds := [] }.updTeam 0 (fun t => { t with ctExited := true, exited := 1, regions := [(0, region)] })) (fun s =>
      (s.team 0).any (fun x => x.over && s.enginesIdle 0 x && !x.regions.isEmpty && (s.flushWait 0).isNone)) = true ∧
    occurs (grid0 (fun g => { g with ending := true })) (fun s => (s.team 0).any (fun x => !x.ended && (s.grid x.grid).any (fun g => g.ending))) = true ∧
    ([false, true] : List Bool).all (fun r => occurs (grid0 (fun g => { g with state := .draining, released := r, cores := [0] })) (fun s =>
      inGrid s (fun g => g.drained && !s.hasChildren 0 g && g.released == r && g.parent.isNone && !s.wbInFlight 0))) = true ∧
    occurs (grid0 (fun g => { g with state := .retired, rec_ := { g.rec_ with compl := 0x4000 } }) paging) (fun s => inGrid s (fun g =>
      g.state == .retired && !s.childOf 0 g && g.compl == .start && g.rec_.compl.toNat % 32 == 0 && g.cores.all (fun c => s.hostClear c && s.remoteClear c g.end_) &&
        match s.completionWrite 0 g true (g.rec_.compl + 8) 24 (g.completion / 2 ^ 64) .first with | .yes _ => true | _ => false)) = true ∧
    occurs (grid0 (fun g => { g with state := .retired, compl := .done, cores := [0] })) (fun s => inGrid s (fun g =>
      g.state == .retired && !s.childOf 0 g && g.compl == .done && g.cores.all (fun c => s.hostClear c && s.remoteClear c g.end_))) = true := by decide +kernel

/-! ## Pre-emption -/

def asking (p : Preempt) : State := running.updTeam 0 (fun t => { t with preempt := p })
/-- A waiting grid of rank 0 that lacks only room, beside the running one of rank 7, whose record fills the core. -/
def crowded : State :=
  let s := placing (fun g => { g with rec_ := { g.rec_ with scratch := 786432 } }) { running with time := 10 * usec }
  { s with grids := s.grids ++ [(1, { fetchGrid with state := .placing, placed := 0, rank := 0, resident := [], roomless := some 0 })] }
/-- The warp stands at a SAFE whose entry is valid. -/
def atSafe : State :=
  preempted (running.updCore 0 (fun c => { c with fetch := [{ asid := 0, va := 0, data := ((encode (.safe (word .i32 0 r0 r0 r0 r0))).getD 0).setWidth 512 }] }))
def savedTeam (s : State) : SavedTeam := { team := (s.team 0).getD { fetchTeam false with num := 0 }, warps := [], ctSafe := none, area := 0x4000, clock := 0, cmds := [] }

theorem witness_PreemptionEvents :
    occurs crowded (fun s => (s.grid 1).any (fun g => g.roomless.any (fun t => decide (t + 10 * usec ≤ s.time)) && !g.rec_.cluster &&
      !s.teams.any (fun o => o.2.reqRank == some 1 && o.2.preempt != .none) &&
      (shortest ((s.coresOf g.part).filterMap (fun c => s.fewestOn g.part c g))).any (fun l => !l.isEmpty))) = true ∧
    occurs (asking (.retry 0)) (fun s => (s.team 0).any (fun x => x.preempt == .retry 0 && decide (0 ≤ s.time))) = true ∧
    occurs { asking (.drain 0x4000 9) with cmds := [{ command with core := 159 }] } (fun s => (s.team 0).any (fun x =>
      s.cmds.all (fun c => c.core / 4 != 0 || Desc.mcast c.desc == 0 || decide (x.reqMark ≤ c.id)))) = true ∧
    occurs atSafe (fun s =>
      let v := s.land (.warp 0)
      (v.who (.warp 0)).any (fun w => (v.warp 0).any (fun y => y.live != 0 && y.parked == 0 &&
        (lanesOf y.live).all (fun j => v.pcOf (.warp 0) j == 0) && v.pcOf (.warp 0) (lowest y.live) == 0 && !y.ctx.forced && !y.ctx.saved &&
        (v.instrAt w 0).any (fun i => (v.safeHere (.warp 0) i).any (fun k => (v.takeSafe (.warp 0) k).isSome))))) = true ∧
    occurs (asking (.points 0x4000 0)) (fun s => (s.team 0).any (fun x => x.preempt == .points 0x4000 0 && decide (0 ≤ s.time) && x.started && !x.ct.halted &&
      x.warps.all (fun w => (s.warp w).all (fun y => y.halted == 0)))) = true ∧
    occurs ({ asking (.points 0x4000 9) with cur := {} }.updWarp 0 (fun y => { y with ctx := { y.ctx with saved := true } })) (fun s => (s.team 0).any (fun x =>
      (s.grid x.grid).isSome && ((s.takeForced x).team 0).any (fun y => !y.over && y.started && (s.takeForced x).allSaved y && (s.takeForced x).enginesDrained 0 y &&
        y.regions.all (fun r => r.2.dirty.isEmpty)))) = true ∧
    occurs { asking (.writeBack 0x4000) with grids := (grid0 id paging).grids } (fun s => (s.team 0).any (fun x => x.preempt == .writeBack 0x4000 &&
      (s.grid x.grid).any (fun g => !s.wbInFlight x.core && (s.areaWait g x.core 0x4000 (4096 + g.rec_.scratch + (x.warps.length + 1) * g.areaSize)).isNone))) = true ∧
    occurs (decided id (grid0 (fun g => { g with saved := [savedTeam running], rec_ := { g.rec_ with scratch := 64 } }) paging)) (fun s => inGrid s (fun g =>
      (s.featWait g.asid).isNone && (s.returning g).any (fun r => (s.team r.2).any (fun x => s.locksFit (s.backLocks r.2 r.1) && (s.readArea g x.core r.1.area r.1.team.scr).isOk)))) = true ∧
    occurs running (fun s => !s.preemptBusy 0) = true := by decide +kernel

/-! ## Registers, host ports, power, links and debugging -/

def enabled0 (c e : Nat) : State :=
  { running with parts := running.parts.set 0 { running.part 0 with word0 := BitVec.ofNat 64 (0x320100 + e), clusters := BitVec.ofNat 64 c } }
def onQueue (q : Queue) : State := { running with queues := [(3, q)] }

theorem witness_RegisterEvents :
    (occurs (queueing 0 1) (fun s => serialLt (s.queue 3).tail 5 && decide ((5 - (s.queue 3).head).toNat ≤ 2 ^ (qLog (s.queue 3).word0 + 4)) &&
      serialLt (s.queue 3).tail 40 && decide (2 ^ (qLog (s.queue 3).word0 + 4) < (40 - (s.queue 3).head).toNat) && !serialLt (s.queue 3).tail 0 &&
      (s.queue 3).tail == 1 && qEn (s.queue 3).word0)) = true ∧
    occurs (onQueue {}) (fun s => !qEn (s.queue 3).word0 && ringFits 0x4000000000000000 && (s.queue 3).head == (s.queue 3).tail) = true ∧
    occurs (onQueue {}) (fun s => !qEn (s.queue 3).word0 && !ringFits ((0x7FFFFFFFFFF ||| 0x4000000000000000) &&& 0x7FFFFFFFFFFFFFFF)) = true ∧
    occurs (onQueue { head := 0, tail := 1 }) (fun s => !qEn (s.queue 3).word0 && (s.queue 3).head != (s.queue 3).tail &&
      qRing ((0x1000 ||| 0x4000000000000000) &&& 0x7FFFFFFFFFFFFFFF) != (s.queue 3).heldBase) = true ∧
    occurs (enabled0 1 0) (fun s => !(s.part 0).word0.getLsbD 0 && s.canEnable 0) = true ∧
    occurs (enabled0 1 1) (fun s => (s.part 0).word0.getLsbD 0) = true ∧
    occurs (enabled0 0 0) (fun s => !(s.part 0).word0.getLsbD 0 && !s.canEnable 0) = true ∧
    occurs running (fun s => s.keyBusy.isNone && s.l2.all (fun e => e.2.key != s.keySlot)) = true ∧
    ([false, true] : List Bool).all (fun k => occurs { running with keyBusy := some k } (fun s => s.keyBusy == some k && s.l2.isEmpty)) = true ∧
    occurs running (fun s => (match regOf (regBase + 0x2400) with | .slot .. => false | _ => true) && !(hostWrites (regOf (regBase + 0x2400))) &&
      hostWrites (regOf (regBase + 0x2030)) && (s.ports.getD 0 {}).admin && !(s.ports.getD 1 {}).admin &&
      hostReads (regOf (regBase + 0x2000)) && !hostReads (regOf (regBase + 0x2608))) = true ∧
    occurs running (fun s => !s.chipcfg.getLsbD 16) = true ∧ occurs inPod (fun s => s.chipcfg.getLsbD 16) = true ∧
    (4 ≤ (0x407 : W64).toNat / 2 ^ 8 % 128 ∧ (0x4007 : W64).toNat / 2 ^ 8 % 128 ≤ 64) ∧
    ((0x307 : W64).toNat / 2 ^ 8 % 128 < 4 ∧ 64 < (0x4107 : W64).toNat / 2 ^ 8 % 128) ∧
    occurs { running with links := running.links.set 12 { rate := 1, failing := true } } (fun s => (s.link 12).rate != 3 &&
      ((4 : W64).setWidth 2 : BitVec 2) == 0 && ((2 : W64).setWidth 2 : BitVec 2).toNat - 1 == (s.link 12).rate && (s.link 12).failing) = true ∧
    occurs running (fun s => (s.link 12).rate != 3 && ((2 : W64).setWidth 2 : BitVec 2) != 0 && ((2 : W64).setWidth 2 : BitVec 2).toNat - 1 != (s.link 12).rate &&
      ((1 : W64).setWidth 2 : BitVec 2) != 0 && ((1 : W64).setWidth 2 : BitVec 2).toNat - 1 == (s.link 12).rate && !(s.link 12).failing) = true ∧
    occurs { running with links := running.links.set 12 { rate := 3 } } (fun s => (s.link 12).rate == 3) = true := by decide +kernel

/-- A host port that decodes the first homes' lines, as the only port of its interleave. -/
def port0 (cxl : Bool) (key : BitVec 6 := 0) (s : State := running) : State :=
  { s with ports := s.ports.set 0 { cxl := cxl, hkey := key, hdm := { size := 2 ^ 42, ways := 1, pos := 0 } } }
def lineHost (h : HState) (snoop : Option Bool) (s : State) : State := { s with l2 := [(5, { wts := 1, rts := 1, host := h, snoop := snoop })] }
def mine (s : State) (line : Nat) : Bool := (s.ports.getD 0 {}).decodes line
def hostServed (s : State) (write : Bool) : Bool :=
  mine s 5 && physKind (256 * 5) == .home 0 && s.hostKey 0 == some 0 && (s.hostAwaits 5 0 write).isNone && decide (s.heldWays 0 5 < 12)

theorem witness_HostEvents :
    occurs (port0 true) (fun s => hostServed s false && s.hostState 5 != .he) = true ∧
    occurs (port0 true 1) (fun s => mine s 5 && physKind (256 * 5) == .home 0 && s.hostKey 0 == none) = true ∧
    occurs (lineHost .he none (port0 true)) (fun s => mine s 5 && s.hostKey 0 == some 0 && s.hostState 5 == .he && !s.hostBehind 5 &&
      (Tab.find s.l2 5).any (fun l => l.snoop.isNone && l.key == 0)) = true ∧
    occurs (port0 true) (fun s => mine s 0x2FFFFFFF0 && physKind (256 * 0x2FFFFFFF0) == .none) = true ∧
    ([false, true] : List Bool).all (fun i => occurs (lineHost .he (some i) (port0 true)) (fun s =>
      (Tab.find s.l2 5).any (fun l => l.snoop == some i && l.host == .he))) = true ∧
    occurs (port0 false) (fun s => !(s.ports.getD 0 {}).cxl && !(s.ports.getD 0 {}).down && bar4 1280 64 && homeOf 1280 == some 0 && s.hostKey 0 == some 0 &&
      cuts 3 1280 0 64 == [(0, 64)] && (s.bar4Awaits 0 1280 64 true).isNone && (s.hostAwaits 5 0 false).isNone &&
      ((s.hostFetch 0 5 0).hostSaw 5).poisonOf 5 &&& byteRange 0 64 == 0) = true ∧
    occurs (lineHost .hs none (port0 false)) (fun s => bar4 1280 64 && (s.bar4Awaits 0 1280 64 true).isSome) = true ∧
    occurs (port0 false) (fun s => bar4 0x2FFFFFFF000 64 && homeOf 0x2FFFFFFF000 == none && s.live) = true ∧
    occurs (port0 false) (fun s => (s.ports.getD 0 {}).reaches 1528 8 && hostAtomic { op := 0, ty := .i64, b := 1 } && 1528 % (Ty.bits .i64 / 8) == 0 && homeOf 1528 == some 0 &&
      (s.hostAwaits 5 0 true).isNone && (s.hostFetch 0 5 0).poisonOf 5 &&& byteRange 248 8 == 0) = true := by decide +kernel

def image (v : Nat) : Image := { body := [], sig := [], secVersion := v, raiseMin := true }
def inVudor (s : State) (f : Vudor → Vudor) : State := { s with vudor := f s.vudor }

theorem witness_PowerEvents :
    ({ running with pkg := .off } : State).standing = false ∧
    ([.standby, .boot, .recovery] : List Pkg).all (fun k => ({ running with pkg := k } : State).standing) = true ∧ running.vudor.image = none ∧
    occurs { running with pkg := .start, powerSeq := [158, 159] } (fun s => s.powerAt.isNone && s.powerSeq.tail == [159]) = true ∧
    occurs { running with pkg := .start, powerSeq := [159], powerAt := some 0, time := 2 * usec } (fun s => s.powerAt.all (fun t => decide (t + 2 * usec ≤ s.time))) = true ∧
    occurs { (enabled0 1 1) with teams := [], grids := [], cores := [], time := msec } (fun s =>
      !s.partBusy 0 && decide ((s.part 0).idleAt + msec ≤ s.time) && (s.idleCores 0).all (fun c => (s.core c).dirtyLines.isEmpty && !s.wbInFlight c)) = true ∧
    occurs { inVudor running (fun v => { v with frame := some 1 }) with time := msec } (fun s => s.vudor.frame == some 1 && decide (s.vudor.hallAt + msec ≤ s.time) &&
      decide (s.vudor.lapseAt ≤ s.time)) = true ∧
    occurs { running with time := 100 * msec } (fun s => decide (s.boardTime + msec ≤ s.time ∧ s.boardw.toNat % 65536 ≠ 0 ∧ s.boardw.toNat % 65536 < 3201 ∧
      3039 * 100 < 95 * (s.boardw.toNat % 65536) ∧ s.levelTime.getD 0 0 + 100 * usec ≤ s.time ∧ s.levelTime.getD 1 0 + 50 * usec ≤ s.time)) = true ∧
    { running with time := commitEvery }.vudor.committedAt + commitEvery ≤ commitEvery := by decide +kernel

/-- A frame of the hall that carries its authentication code: number 1, hold h ms, every level 64. -/
def frameLow (h : Nat) : BitVec 192 := BitVec.ofNat 192 (1 + 2 ^ 32 + h * 2 ^ 64 + 0x4040404040404040 * 2 ^ 128)
theorem frame_toNat (t : BitVec 128) (l : BitVec 192) : (t ++ l : BitVec 320).toNat = t.toNat * 2 ^ 192 + l.toNat := by
  rw [BitVec.toNat_append, Nat.shiftLeft_eq, Nat.mul_comm, Nat.two_pow_add_eq_or_of_lt l.isLt]
theorem frame_low (t : BitVec 128) (l : BitVec 192) (k n : Nat) (h : k + n ≤ 192) :
    (t ++ l : BitVec 320).toNat / 2 ^ k % 2 ^ n = l.toNat / 2 ^ k % 2 ^ n := by
  have e : t.toNat * 2 ^ 192 = t.toNat * 2 ^ (192 - k - n) * 2 ^ n * 2 ^ k := by
    rw [Nat.mul_assoc, Nat.mul_assoc, ← Nat.pow_add, ← Nat.pow_add, show 192 - k - n + (n + k) = 192 by omega]
  rw [frame_toNat, e, Nat.add_comm, Nat.add_mul_div_right _ _ (Nat.two_pow_pos k), Nat.add_mul_mod_self_right]
theorem frameLow_fields : ∀ h ∈ [0, 5],
    (List.range 8).all (fun k => decide (4 ≤ (frameLow h).toNat / 2 ^ (8 * (16 + k)) % 2 ^ 8 ∧ (frameLow h).toNat / 2 ^ (8 * (16 + k)) % 2 ^ 8 ≤ 64)) ∧
      (frameLow h).toNat % 2 ^ 8 = 1 ∧ (frameLow h).toNat / 2 ^ 8 % 2 ^ 8 ≤ 7 ∧
      serialLt running.hallSeq (BitVec.ofNat 32 ((frameLow h).toNat / 2 ^ 32 % 2 ^ 32)) = true := by decide +kernel
theorem frameLow_hold : ∀ h ∈ [0, 5], (frameLow h).toNat / 2 ^ 64 % 2 ^ 32 = h := by decide +kernel
theorem witness_PowerEvents_frame : ∀ h ∈ [0, 5], ∃ f, running.standing = true ∧ running.frameOk f = true ∧ frameWord f 8 = h := by
  intro h hh
  refine ⟨(Config.kmac running.vudor.hallKey (frameLow h) ++ frameLow h : BitVec 320), by decide +kernel, ?_, ?_⟩
  · have w (t : BitVec 128) : (t ++ frameLow h : BitVec 320).setWidth 192 = frameLow h := by
      apply BitVec.eq_of_toNat_eq
      rw [BitVec.toNat_setWidth]
      have := frame_low t (frameLow h) 0 192 (by omega)
      simpa [Nat.mod_eq_of_lt (frameLow h).isLt] using this
    have q (t : BitVec 128) : (t ++ frameLow h : BitVec 320).toNat / 2 ^ 192 = t.toNat := by
      rw [frame_toNat]
      have := (frameLow h).isLt
      omega
    have b (i : Nat) (hi : i < 24) (t : BitVec 128) : frameByte (t ++ frameLow h : BitVec 320) i = (frameLow h).toNat / 2 ^ (8 * i) % 2 ^ 8 :=
      frame_low t (frameLow h) (8 * i) 8 (by omega)
    have x (t : BitVec 128) : frameWord (t ++ frameLow h : BitVec 320) 4 = (frameLow h).toNat / 2 ^ 32 % 2 ^ 32 := frame_low t (frameLow h) 32 32 (by omega)
    have r := frameLow_fields h hh
    have a (t : BitVec 128) : (List.range 8).all (fun k => decide (4 ≤ frameByte (t ++ frameLow h : BitVec 320) (16 + k) ∧
        frameByte (t ++ frameLow h : BitVec 320) (16 + k) ≤ 64)) = true := by
      rw [List.all_eq_true]
      intro k hk
      rw [b (16 + k) (by have := List.mem_range.mp hk; omega) t]
      exact List.all_eq_true.mp r.1 k hk
    simp only [State.frameOk, a, w, q, x, b 0 (by omega), b 1 (by omega), Nat.mul_zero, Nat.pow_zero, Nat.div_one, r.2.1, r.2.2.2, Nat.mul_one,
      decide_eq_true r.2.2.1, BitVec.ofNat_toNat, BitVec.setWidth_eq, beq_self_eq_true, Bool.and_self]
  · exact (frame_low (Config.kmac running.vudor.hallKey (frameLow h)) (frameLow h) 64 32 (by omega)).trans (frameLow_hold h hh)
/-- An image whose signature holds is good unless its version has been revoked. -/
theorem witness_PowerEvents_image :
    (∀ i, Config.mldsaVerify (imageDigest i) i.sig = true → ({ inVudor running (fun v => { v with image := some i }) with pkg := .boot } : State).imageOk i = true) ∧
    (inVudor running (fun v => { v with image := some (image 1), minVersion := 2 })).imageOk (image 1) = false := by
  constructor
  · intro i h
    rw [State.imageOk, h, Bool.true_and]
    exact decide_eq_true (Nat.zero_le _)
  · rw [State.imageOk, Bool.and_eq_false_iff]
    exact Or.inr (decide_eq_false (by decide +kernel))

def link12 (l : Link) : State := { running with links := running.links.set 12 l, time := 20 * usec }

theorem witness_LinkEvents :
    occurs (link12 { rate := 2 }) (fun s => (s.link 12).pin == 0 && (s.link 12).nextRate != 0 && decide ((s.link 12).nextRate < 3) && (s.link 12).window.isNone) = true ∧
    occurs (link12 {}) (fun s => (s.link 12).pin == 0 && (s.link 12).nextRate == 0) = true ∧
    occurs (link12 {}) (fun s => (s.link 12).pin == 0 && decide ((s.link 12).rate < 2) && (s.link 12).window.isNone && decide ((s.link 12).lastStep + 20 * usec ≤ s.time)) = true ∧
    occurs (link12 { window := some (7, 2), failing := true }) (fun s => (s.link 12).window == some (7, 2) && (s.link 12).failing) = true := by decide +kernel

theorem link12_fails (n : Nat) : ((link12 { fails := n }).link 12).fails = n := rfl
/-- After six failures in a row the next is no eighth; after seven it is the eighth, unless the free value says that it is another flit's. -/
theorem witness_LinkEvents_fails (b : Bool) : ∃ s n, (link12 { fails := n }) = s ∧ s.live = true ∧ (s.link 12).window = none ∧
    (if b then (if s.free.1.getLsbD 0 then (s.link 12).fails + 1 else 1) < 8 else (8 ≤ if s.free.1.getLsbD 0 then (s.link 12).fails + 1 else 1) ∨ s.free.1.getLsbD 0 = false) := by
  refine ⟨_, 7 - (if b then 1 else 0), rfl, ?_, ?_, ?_⟩
  · cases b <;> decide +kernel
  · cases b <;> decide +kernel
  · rw [link12_fails]
    generalize ((link12 _).free.1).getLsbD 0 = x
    cases b <;> cases x <;> decide

/-- The debug window lies in the first home that may hold it, and slot 0 there asks for a command. -/
def windowed (op : Nat) : State :=
  { running with dbgbase := BitVec.ofNat 64 (0x10000000000 + 1), time := 2 * usec, mem := Mem.writeN [] 0x10000000000 16 (1 + op * 2 ^ 64 + 0 * 2 ^ 96) }
def polling (op : Nat) (f : State → State) (p : CmdEnd → Bool) : Bool :=
  occurs (f (windowed op)) (fun s => s.debugWindow == some 0x10000000000 && decide (s.dbgPoll < s.time / usec) && s.dbgrun.isNone && s.ownLate.isEmpty &&
    match ({ s with dbgPoll := s.time / usec } : State).slotRead 0x10000000000 40 with
    | .ok v => v % 2 ^ 32 != v / 2 ^ 32 % 2 ^ 32 && p (({ s with dbgPoll := s.time / usec } : State).debugCmd 0 0x10000000000 (DbgCmd.ofBytes v))
    | .error _ => false)
def sampling : State :=
  { (enabled0 1 1) with parts := (enabled0 1 1).parts.set 0 { (enabled0 1 1).part 0 with sampctl := 0x1821 }, time := 65536 * 50 }

theorem witness_DebugEvents :
    polling 1 id (fun e => match e with | .done .. => true | _ => false) = true ∧
    polling 5 (fun s => s.updWarp 0 (fun y => { y with halted := y.live })) (fun e => match e with | .begun _ => true | _ => false) = true ∧
    occurs sampling (fun s => s.partOfCore 0 == some 0 && (s.part 0).sampctl.getLsbD 0 && decide ((s.core 0).sampAt / 2 ^ 16 < s.cycle 0 / 2 ^ 16) &&
      ((s.setCore 0 { s.core 0 with sampAt := s.cycle 0 }).nextSampled 0 (s.core 0).sampPos).any (fun r => (s.team r.2.ctx.team).isSome)) = true ∧
    occurs (sampling.updCore 0 (fun c => { c with sampPend := [{ kind := 1, issuer := 0, datum := 0, pc := 0, cpc := 0, csn := 0, va := 0, ref := 3, hops := 5 }] })) (fun s =>
      s.partOfCore 0 == some 0 && (s.core 0).sampPend.length == 1 && !s.outstanding 3) = true ∧
    occurs (windowed 1) (fun s => s.debugWindow == some 0x10000000000 &&
      (cuts 3 (0x10000000000 + 16376) 0 8).all (fun c => !s.hostOwns ((0x10000000000 + 16376 + c.1) / 256))) = true := by decide +kernel

/-! ## Words, issue and steps -/

/-- A word without a literal, one with a literal of four bytes and one with eight: their encodings are there, and are read as these instructions. -/
theorem witness_EncodedDecodes :
    ([.iadd add, .iadd { add with b := .lit32 5 }, .ld ldG, .uloop (word .i32 0 (.s 0) (.raw 511) (.raw 511) (.raw 511))] : List Instr).all (fun i =>
      WellFormed i && (encode i).any (fun w => readWord w == some i)) = true := by decide +kernel
theorem witness_DecodedEncodes :
    ([(.iadd add, 10), (.iadd { add with b := .lit32 5 }, 14), (.ld ldG, 18)] : List (Instr × Nat)).all (fun i =>
      WellFormed i.1 && (encode i.1).any (fun w => readWord w == some i.1 && lengthOf w == i.2)) = true := by decide +kernel
theorem witness_WordFields :
    (readWord (wordAt (bits 0 3 1 2 5 0 1 9 4 6 (336 - 2) 0 2 0x10))).any (fun i => (argsOf i).isSome) = true ∧
    ([[], [5], List.replicate 26 5] : List (List Byte)).all (fun bs => decide (bs.length ≤ 26)) = true ∧ 25 < (List.replicate 26 (5 : Byte)).length ∧
    ([(0, 8, 0), (0, 8, 2), (1, 2, 0), (1, 2, 2), (1, 2, 4)] : List (Nat × Nat × Nat)).all (fun k =>
      match readWord (wordAt (bits k.1 0 0 0 0 k.2.1 k.2.2 7 256 511 511 511 0 0)) with
      | some (.bra _) | some (.call _) | some (.ubra _) | some (.ucall _) | some (.uloop _) => true | _ => false) = true := by decide +kernel
/-- Offsets at both ends of the field. -/
theorem witness_BranchTargets :
    ([(0, 8, 0, 0), (0, 8, 2, 4), (1, 2, 0, 0), (1, 2, 2, 256), (1, 2, 4, 256)] : List (Nat × Nat × Nat × Nat)).all (fun k =>
      ([(255, 511, 511), (256, 0, 0)] : List (Nat × Nat × Nat)).all (fun o =>
        (readWord (wordAt (bits k.1 0 0 0 0 k.2.1 k.2.2.1 7 k.2.2.2 o.1 o.2.1 o.2.2 0 0))).any (fun i => WellFormed i &&
          match i with | .bra _ | .call _ | .ubra _ | .ucall _ | .uloop _ => true | _ => false))) = true := by decide +kernel

/-- A last landing that is due, with an earlier one before it; and one that is not due, alone. -/
theorem witness_FixedLatency :
    ([([landing 9], 0), ([], 0), ([], 8)] : List (List Landing × Nat)).all (fun c =>
      let l : Landing := landing c.2
      ((ctx0 (fun x => { x with landings := c.1 ++ [l] })).ctx (.warp 0)).any (fun x => x.landings == c.1 ++ [l] &&
        l.writes == [{ lane := 0, dest := .v 4, val := 5 }] && hits { lane := 0, dest := .v 4, val := 5 } 0 (.v 4) &&
        decide (l.due ≤ (ctx0 id).cycle (agentCore (.warp 0))) == (c.2 == 0))) = true := by decide +kernel

def deciding : Warp := { fetchWarp false with lpc := [(0, 10), (1, 20), (2, 10)] }
/-- No lane; lanes at two addresses; one of them starved; some of them deferred, and all of them. -/
theorem witness_IssueDecision :
    deciding.decide 0 = none ∧ deciding.decide 7 = some (10, 5) ∧
    ({ deciding with starve := [(1, 4096)] }).decide 7 = some (20, 2) ∧ ({ deciding with deferred := 5 }).decide 7 = some (20, 2) ∧
    ({ deciding with deferred := 7 }).decide 7 = some (10, 5) := by decide +kernel
theorem witness_YieldDefers :
    runs (begun false) (issuer false) (.yield_ (word .i32 0 r0 r0 r0 r0)) = true ∧ ((begun false).warp 0).isSome = true ∧
    (7 : Mask) &&& ~~~({ deciding with deferred := 5 } : Warp).deferred ≠ 0 ∧ (7 : Mask) &&& ~~~({ deciding with deferred := 7 } : Warp).deferred = 0 := by
  decide +kernel

/-- The word in a fetch line, and the agent whose turn it is. -/
def fetching : State := State.reset.withFetchWord 80 (bits 0 0 0 0 0 0 0 7 1 2 3 0 0 0)
theorem witness_StepRunsDecoded :
    decodeTableWord 80 (bits 0 0 0 0 0 0 0 7 1 2 3 0 0 0) = some (.iadd add) ∧
    (fetching.ctx (.warp 0)).any (fun c => (match fetching.codeWord 0 0 0 with | .ok w => decode w == .ok (.iadd add) | .error _ => false) &&
      decide (c.gapUntil ≤ fetching.cycle 0) && !c.tagWait (.iadd add) && (fetching.privByte 0 0 0).isNone &&
      !fetching.counterHeld (.warp 0) c 0xFFFFFFFF (.iadd add) && !fetching.queueFull (.warp 0) (.iadd add) &&
      !(isTrans (.iadd add) && fetching.unitBusy (.warp 0)) && !fetching.specStops (.warp 0) 0xFFFFFFFF (.iadd add) false) = true ∧
    fetching.look (.warp 0) = .go 0 0xFFFFFFFF (some (.iadd add)) 10 ∧ (fetching.warp 0).any (fun y => y.issuedAt != fetching.cycle (0 / 128) + 1) = true ∧
    (fetching.fetchOne [.warp 0]).isNone = true ∧ (firstCand (([.warp 0].filterMap (fun g => fetching.candOf g)).filter (fun _ => true))).isSome = true ∧
    (fetching.who (.warp 0)).any (fun w => (fetching.bpAt w.asid 0).isNone) = true ∧
    (fetching.live && fetching.dbgrun.isNone && fetching.moves.isEmpty && fetching.turn == .place 0 && fetching.placesFrom 0 == List.range 9) = true ∧
    (match (fetching.placeTurn 0).2 with | some (.run i _) => i == .iadd add | _ => false) = true ∧
    (match ({ fetching with turn := .place 0 } : State).placeTurn (9 * 0 + 0) with | (_, some (.run i _)) => i == .iadd add | _ => false) = true ∧
    (match fetching.plan with | .run i _ => i == .iadd add | _ => false) = true ∧
    (match ({ fetching with turn := .events, moves := [.slot 0 0] } : State).plan with | .run i _ => i == .iadd add | _ => false) = true := by decide +kernel
theorem witness_StepKeepsCanonical : Memory.wf fetching.mem = true ∧ (match step fetching with | .next t => (t.warp 0).any (fun y => Tab.get 0 y.lpc 31 == 10) | _ => false) = true := by
  decide +kernel

/-! ## Bytes, homes, barriers, partitions and handlers -/

def issOfSt (s : State) (x : Args) : Iss := s.issOf (.st x) x (issuer false)
/-- A misaligned global store over a line that the L1 holds, and over one that it does not; one to a scratchpad; and an access that an array performs. -/
theorem witness_StoredBytes :
    ([[], [(0x203, { dirty := 1, data := 7 })]] : List (Tab L1Line)).all (fun l =>
      let s := (paged (begun false)).updCore 0 (fun c => { c with l1 := l })
      let x := word .b64 0 (.v 8) (.lit64 0x2033C) (.k 16) r0
      (match s.laneRes (issOfSt s x) 0 (some x.b) (memSize x) .write none with
        | .glob _ segs => segs.length == 8 && segs.all (fun sg => match targetOf sg.pa sg.leaf with | .leased .. => true | _ => false)
        | _ => false) && (s.ctx (.warp 0)).isSome) = true ∧
    (let s := begun false; let x := word .b64 1 (.v 8) (.lit32 0x10C) (.k 16) r0;
      match s.laneRes (issOfSt s x) 0 (some x.b) (memSize x) .write none with | .sp t off _ => t == 0 && off == 0x10C | _ => false) = true ∧
    (let o : ArrayOp := { id := 3, agent := .warp 0, lane := 0, team := 0, off := 0x10C, n := 4, kind := .store 5, cnt := .st, owner := 9, pc := 0 };
      let s := begun false;
      (s.team 0).any (fun y => Memory.wf y.scr) && !s.arrayLocked 0 o && (s.ctx o.agent).all (fun c => (Tab.find c.storeBad o.owner).isNone)) = true := by
  decide +kernel

def homeLine (l : L2Line) : State := { running with l2 := [(5, l)] }
/-- A line that a host has read and lost, one of class 2 whose lease the writer has passed, and one whose lease it has not. -/
theorem witness_HomeWrite :
    ([{ wts := 1, rts := 1, recalled := true }, { wts := 1, rts := 3, cls := 2 }, { wts := 1, rts := 9, cls := 2 }] : List L2Line).all (fun l =>
      let s := homeLine l
      Memory.wf s.mem && decide (0 < s.homes.length) && (s.home 0).sweep.isNone && Tab.find s.l2 5 == some l && l.key == 0) = true ∧
    serialLe 5 3 = false ∧ serialLe 5 9 = true := by decide +kernel
theorem witness_HomeRead :
    (let s := homeLine { wts := 1, rts := 3 };
      decide (0 < s.homes.length) && (s.home 0).sweep.isNone && (Tab.find s.l2 5).any (fun l => l.key == 0)) = true ∧
    serialLt 3 9 = true ∧ serialLe 2 3 = true ∧ (Tab.find running.l2 5).isNone = true ∧ 0 < running.homes.length := by decide +kernel

def obj (expect arrived : Nat) (pending : W32) : Obj :=
  { expect := expect, epoch := 4095, scope := 3, lastErr := false, arrived := arrived, err := true, pending := pending, watch := 0, last := 0 }
/-- The largest fields; too many arrivals; the last arrival, with no bytes or with bytes still to come; and epochs at both ends. -/
theorem witness_BarrierPhases :
    (65535 < 2 ^ 16 ∧ (obj 65535 65535 5).epoch < 4096 ∧ (obj 65535 65535 5).scope < 8) ∧
    (obj 4 4 0).expect < (obj 4 4 0).arrived + 1 ∧ (obj 4 3 0).arrived + 1 = (obj 4 3 0).expect ∧ (obj 4 3 0).pending + 0 = 0 ∧
    (obj 4 4 5).arrived + 0 = (obj 4 4 5).expect ∧ (obj 4 4 5).pending + (-5) = 0 ∧ (obj 4 4 5).pending + 1 ≠ 0 ∧ (obj 4 2 0).arrived + 1 ≤ (obj 4 2 0).expect ∧
    epochPassed ((4095 + 1) % 4096) 4095 = true ∧ epochPassed ((4095 + 2047) % 4096) 4095 = true ∧ epochPassed ((4095 + 2048) % 4096) 4095 = false ∧
    epochPassed ((0 + 0) % 4096) 0 = false := by decide +kernel

theorem witness_PartitionLevels_levels :
    ([[64, 64, 64, 64, 64], [64, 4, 4, 32, 64]] : List (List Nat)).all (fun l => l.all (fun n => decide (n ≤ 64)) && !l.isEmpty) = true ∧
    2 < (enabled0 1 1).parts.length ∧ 4 < ((enabled0 1 1).part 0).levels.length ∧
    (enabled0 1 1).cores.any (fun e => (enabled0 1 1).partOfCore e.1 == some 0) = true ∧ running.partOfCore 77 = none := by decide +kernel
/-- A core of a partition whose level is 6, which divides its clock by four, one cycle after another. -/
def slowed : State :=
  (enabled0 1 1).updCore 0 (fun c => { c with clk := { div := 2 } }) |>.setPart 0 { (enabled0 1 1).part 0 with levels := [64, 64, 64, 6, 64] }
theorem at_time (s : State) (t core p : Nat) : ({ s with time := t } : State).partOfCore core = s.partOfCore core ∧
    ({ s with time := t } : State).part p = s.part p ∧ ({ s with time := t } : State).core core = s.core core := ⟨rfl, rfl, rfl⟩
theorem witness_PartitionLevels (i : Nat) :
    ({ slowed with time := 200 * i } : State).partOfCore 0 = some 0 ∧ (({ slowed with time := 200 * i } : State).part 0).level = 6 ∧
    ({ slowed with time := 200 * i } : State).cycle 0 = 0 + i := by
  rw [(at_time slowed (200 * i) 0 0).1, (at_time slowed (200 * i) 0 0).2.1]
  refine ⟨by decide +kernel, by decide +kernel, ?_⟩
  have h : (slowed.core 0).clk = { div := 2 } := by decide +kernel
  have e : ({ slowed with time := 200 * i } : State).cycle 0 = Clk.now (slowed.core 0).clk (200 * i) := rfl
  rw [e, h, Clk.now]
  show 0 + (200 * i - 0) / 200 = 0 + i
  omega

/-- Two lanes at the word that trapped and one elsewhere. -/
theorem witness_HandlerReturn :
    (let y : Warp := { fetchWarp false with savedLpc := [(0, 40), (1, 40), (2, 80)], live := 7, ctx := { team := 0, handler := true, trapPc := 40, trapMask := 3 } };
     (running.updWarp 0 (fun _ => y)).warp 0 == some y &&
       y.savedLpc.all (fun e => Tab.find y.savedLpc e.1 == some e.2 && y.live.getLsbD e.1)) = true := by decide +kernel

/-! ## Entering the handler -/

/-- The team's handler table lies at this address; the table's entry for ILLEGAL_OPERAND holds this address. -/
def handled (base : W64) (entry : Nat) : State :=
  let s := paging.updTeam 0 (fun t => { t with trapBase := base })
  { s with mem := Mem.writeN s.mem 0x4010 8 entry }
def trapping (s : State) (window handler : Bool) (base : W64) : Bool :=
  (s.warp 0).any (fun y => y.window.isEmpty != window) && (s.who (.warp 0)).any (fun w => w == issuer false handler) &&
    (s.team 0).any (fun t => t.trapBase == base)
def trappingCt (s : State) (handler : Bool) (base : W64) : Bool :=
  (s.who (.ct 0)).any (fun w => w.handler == handler && w.team == 0 && w.core == 0 && w.asid == 0 && w.part == 0) && (s.team 0).any (fun t => t.trapBase == base)
def aTrap : PendTrap := { lanes := 3, cause := .illegalOperand, pc := 40, addr := 0 }
theorem handled_line : ∀ v ∈ [0, 0x300], plainLine (handled 0x4000 v) 0x40 (BitVec.ofNat 2048 (v * 2 ^ 128)) = true := by decide +kernel
/-- Entries that hold an address and 0, a table that no page maps, and no table. -/
theorem witness_TrapEntry_read : ∀ v ∈ [0, 0x300], trapping (handled 0x4000 v) false false 0x4000 = true ∧ trappingCt (handled 0x4000 v) false 0x4000 = true ∧ causeCode aTrap.cause = 2 ∧
    (handled 0x4000 v).hwRead (dieOf 0) 0 0 (0x4000 + BitVec.ofNat 64 (8 * 2)) 8 true = .val v := by
  intro v hv
  have w : ∀ v ∈ [0, 0x300], trapping (handled 0x4000 v) false false 0x4000 = true ∧ trappingCt (handled 0x4000 v) false 0x4000 = true ∧
      lineField (BitVec.ofNat 2048 (v * 2 ^ 128)) ((0x4000 + BitVec.ofNat 64 (8 * 2) : W64).toNat - 256 * 0x40) 8 = v := by decide +kernel
  refine ⟨(w v hv).1, (w v hv).2.1, by decide, ?_⟩
  have r := (hwRead_plain (handled_line v hv) (0x4000 + BitVec.ofNat 64 (8 * 2)) 8 true (by decide) (by decide) (by decide)).1
  rw [(w v hv).2.2] at r
  exact r
theorem witness_TrapEntry_ends :
    trapping (handled 0 0) false false 0 = true ∧
    (trapping ({ handled 0x4000 0 with asidcfg := 0 } : State) false false 0x4000 &&
      match ({ handled 0x4000 0 with asidcfg := 0 } : State).hwRead 0 0 0 0x4010 8 true with | .fail _ => true | _ => false) = true ∧
    trapping ((handled 0x4000 0).updWarp 0 (fun y => { y with ctx := { y.ctx with handler := true } })) false true 0x4000 = true ∧
    -- the same of the control thread
    (trappingCt (handled 0 0) false 0 && trappingCt ({ handled 0x4000 0 with asidcfg := 0 } : State) false 0x4000 &&
      trappingCt ((handled 0x4000 0).updTeam 0 (fun t => { t with ct := { t.ct with handler := true } })) true 0x4000) = true ∧
    trapping ((handled 0x4000 0).updWarp 0 (fun y => { y with window := [{ id := 4, pc := 0, next := 10, lanes := 1, kind := .plain }] })) true false 0x4000 = true ∧
    (running.team 0).any (fun y => (running.grid y.grid).any (fun g => !g.ending)) = true ∧
    ((running.updGrid 0 (fun g => { g with ending := true, endBy := some (0, 3) })).team 0).any (fun y =>
      ((running.updGrid 0 (fun g => { g with ending := true, endBy := some (0, 3) })).grid y.grid).any (fun g => g.ending && decide (y.num < 3))) = true := by decide +kernel
/-- Two lanes with the lowest cause and one with another: a memory cause, and one that is none. -/
theorem witness_TrapEntry_lowest :
    lowestCause [(3, .translation, 5), (1, .permission, 6), (127, .translation, 7)] = some (.translation, 8 + 2 ^ 127, 5) ∧ memoryCause .translation = true ∧
    lowestCause [(0, .illegalOperand, 5)] = some (.illegalOperand, 1, 0) ∧ memoryCause .illegalOperand = false := by decide +kernel

end Sys2Proof.Tests
end

section
/-!
PROOFS. Posts and registers of the package block: an enable that takes effect restarts the sampling periods of the partition's cores.
-/

namespace Sys2Proof.Machine

/-- SHARE and DEADLINE as a write of a partition's first word leaves them (R56): 0 keeps the value. -/
def Part.configured (x : Part) (w : W64) : W64 :=
  let share := if w.toNat / 2 ^ 8 % 256 = 0 then x.word0.toNat / 2 ^ 8 % 256 else w.toNat / 2 ^ 8 % 256
  let dead := if w.toNat / 2 ^ 16 % 65536 = 0 then x.word0.toNat / 2 ^ 16 % 65536 else w.toNat / 2 ^ 16 % 65536
  BitVec.ofNat 64 (share * 2 ^ 8 + dead * 2 ^ 16)

/-- What the statement has an enable of a partition make of the state: EN is set and the partition's cores take the clock of its level. -/
def State.enabledPart (s : State) (p : Nat) (w : W64) : State :=
  (s.setPart p { s.part p with word0 := (s.part p).configured w ||| 1 }).retime p

theorem State.writePart0_enabling {s : State} {p : Nat} {v : W64} (hv : v.getLsbD 0 = true) (hoff : (s.part p).word0.getLsbD 0 = false)
    (hcan : s.canEnable p = true) : s.writePart0 p v = (s.enabledPart p v).restartSamples p := by
  simp only [State.writePart0, hv, hoff, hcan, Bool.not_true, Bool.false_eq_true, if_false, if_true]
  rfl

theorem exec_partitionEnable {s : State} (hl : s.live = true) (p : Nat) (v : W64) :
    exec (.partitionEnable p v) s = .next (s.writePart0 p (v ||| 1)) :=
  congrArg Host.Outcome.next (if_pos hl)

theorem exec_partitionEnable_enabling {s : State} {p : Nat} {v : W64} (hl : s.live = true) (hoff : (s.part p).word0.getLsbD 0 = false)
    (hcan : s.canEnable p = true) : exec (.partitionEnable p v) s = .next ((s.enabledPart p (v ||| 1)).restartSamples p) := by
  rw [exec_partitionEnable hl, State.writePart0_enabling (by simp) hoff hcan]

/-- Partition 0 has cluster 0 and is not enabled; the clock of core 0 has run for a cycle since the core's sampling periods began. -/
def unenabled : State :=
  { State.reset with
    pkg := .run
    time := 50
    parts := State.reset.parts.set 0 { State.reset.part 0 with clusters := 1 }
    cores := [(0, {})] }

/-- Refutes O33: the clause on an enable that takes effect leaves out that the sampling periods of the partition's cores restart
(R239, R240), so that it gives core 0 of this state the cycle 0 as the start of its periods, where the model gives it its present cycle 1. -/
theorem not_registerEvents : ¬ Obligations.RegisterEvents := by
  unfold Obligations.RegisterEvents
  intro h
  obtain ⟨-, -, -, -, -, -, -, -, -, enable, -⟩ := h 0 0 0 0 0 0 0 0
  have hcan : unenabled.canEnable 0 = true := by decide +kernel
  have claimed : exec (.partitionEnable 0 0) unenabled = .next (unenabled.enabledPart 0 (0 ||| 1)) := enable unenabled rfl (.inr hcan)
  rw [exec_partitionEnable_enabling rfl rfl hcan] at claimed
  have same := Host.Outcome.next.inj claimed
  have restarted : (((unenabled.enabledPart 0 (0 ||| 1)).restartSamples 0).core 0).sampAt = 1 := by decide +kernel
  have kept : ((unenabled.enabledPart 0 (0 ||| 1)).core 0).sampAt = 0 := by decide +kernel
  rw [same, kept] at restarted
  exact absurd restarted (by decide)

end Sys2Proof.Machine
end

section
/-!
PROOFS. The helpers of R7 (fields, extension, the serial order of logical times) and core numbers (R11).
-/

namespace Sys2Proof

theorem serialLt_iff (a b : W32) : serialLt a b = true ↔ 1 ≤ (b - a).toNat ∧ (b - a).toNat ≤ 2 ^ 31 - 1 := by
  simp only [serialLt, Bool.and_eq_true, decide_eq_true_eq]
  omega

theorem serialLe_iff (a b : W32) : serialLe a b = true ↔ a = b ∨ serialLt a b = true := by simp [serialLe]

theorem serialMax_of_lt {a b : W32} (h : serialLt a b = true) : serialMax a b = b := if_pos h

theorem serialMax_of_not_lt {a b : W32} (h : serialLt a b = false) : serialMax a b = a := if_neg (by simp [h])

/-- Half the circle apart, the distance is 2^31 both ways. -/
theorem serialLt_antipodal {a b : W32} (h : (b - a).toNat = 2 ^ 31) : serialLt a b = false ∧ serialLt b a = false := by
  have back : (a - b).toNat = 2 ^ 31 := by bv_omega
  simp [serialLt, h, back]

namespace Machine

theorem field_eq_extractLsb' (w : BitVec 208) (h l : Nat) : field w h l = (w.extractLsb' l (h + 1 - l)).toNat := by
  simp [field, BitVec.extractLsb'_toNat]

theorem extBits_unsigned (x n : Nat) : extBits x n false = ((x % 2 ^ n : Nat) : Int) := by simp [extBits]

/-- The sign bit is set where the field is at least half of 2^n. -/
theorem extBits_signed (x n : Nat) (hn : 1 ≤ n) : extBits x n true = (BitVec.ofNat n x).toInt := by
  obtain ⟨m, rfl⟩ : ∃ m, n = m + 1 := ⟨n - 1, by omega⟩
  have double : 2 ^ (m + 1) = 2 * 2 ^ m := Nat.pow_succ'
  have sign : 2 ^ m ≤ x % 2 ^ (m + 1) ↔ ¬ 2 * (x % 2 ^ (m + 1)) < 2 ^ (m + 1) := by omega
  by_cases half : 2 ^ m ≤ x % 2 ^ (m + 1)
  · simp [extBits, BitVec.toInt_eq_toNat_cond, half, sign.1 half]
  · simp [extBits, BitVec.toInt_eq_toNat_cond, half, not_not.1 (mt sign.2 half)]

theorem identity_warp {g n : Nat} (hn : n < 128) :
    identity (.warp (128 * g + n)) = BitVec.ofNat 32 (dieOf g * 2 ^ 13 + g % 40 * 2 ^ 7 + n) := by
  have core : (128 * g + n) / 128 = g := by omega
  have slot : (128 * g + n) % 128 = n := by omega
  simp only [identity, dieOf, core, slot]

theorem mem_allCores {g : Nat} (hg : g < 160) (p : Part) : g ∈ p.allCores ↔ p.clusters.getLsbD (g / 4) = true := by
  simp [Part.allCores, hg]

/-- Both lists rise and have the same members: the only cluster whose bit is set is c. -/
theorem allCores_one_cluster {p : Part} {c : Nat} (hc : c < 40) (hp : p.clusters = BitVec.ofNat 64 (2 ^ c)) :
    p.allCores = [4 * c, 4 * c + 1, 4 * c + 2, 4 * c + 3] := by
  have rises : p.allCores.Pairwise (· < ·) := List.pairwise_lt_range.filter _
  refine rises.eq_of_mem_iff (by simp) fun g => ?_
  have bit : p.clusters.getLsbD (g / 4) = true ↔ g / 4 = c := by
    rw [hp, BitVec.getLsbD_ofNat]
    simp only [Nat.testBit_two_pow, Bool.and_eq_true, decide_eq_true_eq]
    omega
  have mem : g ∈ p.allCores ↔ g < 160 ∧ g / 4 = c := by simp [Part.allCores, bit]
  rw [mem]
  simp only [List.mem_cons, List.not_mem_nil, or_false]
  omega

theorem dieOf_cluster (c : Nat) : dieOf (4 * c) = dieOf (4 * c + 3) := by
  simp only [dieOf]
  omega

/-- Settles O43, from the equations of the helpers of R7 and of the core numbers of R11. -/
theorem serialOrder : Obligations.SerialOrder := by
  unfold Obligations.SerialOrder
  refine ⟨⟨?fields, ?extension, ?order, by decide⟩, ?cores, ?clusters, ?dies, by decide, by decide⟩
  case fields => exact fun w h l _ => field_eq_extractLsb' w h l
  case extension => exact fun x n hn => ⟨extBits_unsigned x n, extBits_signed x n hn⟩
  case order =>
    exact fun a b => ⟨serialLt_iff a b, serialLe_iff a b, serialMax_of_lt, serialMax_of_not_lt, serialLt_antipodal⟩
  case cores => exact fun g hg => ⟨rfl, fun n hn => identity_warp hn, mem_allCores hg⟩
  case clusters => exact fun p c hc hp => allCores_one_cluster hc hp
  case dies => exact fun c _ => dieOf_cluster c

end Machine
end Sys2Proof
end

section
/-!
PROOFS. The links (R18 to R23): what each of their events does in the states where it has an effect.
-/

namespace Sys2Proof.Machine

/-- An event of the running part does what its operation does to the state. -/
theorem Happens.of_whileLive {e : Instr} {pre : State → Prop} {op f : State → State} (arm : ∀ s, exec e s = s.whileLive op)
    (does : ∀ s, pre s → op s = f s) : Happens e pre f := by
  intro s live hpre
  rw [arm, State.whileLive, if_pos live, does s hpre]

section
variable {s : State} {n : Nat}

theorem State.stepUp_raises (hn : n < 13) (unpinned : (s.link n).pin = 0) (below : (s.link n).nextRate ≠ 0) (up : (s.link n).nextRate < 3) :
    s.stepUp n = s.raiseStep n ((s.link n).nextRate - 1) :=
  if_neg (by simp only [not_or, not_le]; exact ⟨hn, not_not.2 unpinned, below, up⟩)

theorem State.stepUp_of_full (full : (s.link n).nextRate = 0) : s.stepUp n = s := if_pos (.inr (.inr (.inl full)))

theorem State.stepDown_raises (hn : n < 13) (unpinned : (s.link n).pin = 0) (above : (s.link n).rate < 2) (shut : (s.link n).window = none)
    (dwelt : (s.link n).lastStep + 20 * usec ≤ s.time) : s.stepDown n = s.raiseStep n ((s.link n).rate + 1) :=
  if_neg (by simp only [not_or, not_le, not_lt]; exact ⟨hn, not_not.2 unpinned, above, by simp [shut], dwelt⟩)

theorem State.closeWindow_of_open {t r : Nat} (isOpen : (s.link n).window = some (t, r)) : s.closeWindow n =
    (s.setLink n { s.link n with window := none, rate := r, lastStep := s.time, failing := false, fails := 0 }).serveLinks := by
  simp only [State.closeWindow, isOpen]

/-- The failures in a row that a flit of link n has when one more comes about: the free value tells whether the failure continues the run
of its flit (log entry 4). -/
def State.crcRun (s : State) (n : Nat) : Nat := if s.free.1.getLsbD 0 then (s.link n).fails + 1 else 1

/-- Link n with one more retried flit, in DLSTAT.CRCRETRY (R22) and in the run of the present flit. -/
def State.retried (s : State) (n : Nat) : Link := { s.link n with crc := min ((s.link n).crc + 1) 0xFFFF, fails := s.crcRun n }

theorem State.crcError_eq (hn : n < 13) (up : (s.link n).rate < 3) (shut : (s.link n).window = none) : s.crcError n =
    if s.crcRun n < 8 then s.free.2.setLink n (s.retried n)
    else s.free.2.setLink n { s.retried n with fails := 0, degraded := true, failing := true, request := some (s.time / 50, 2) } :=
  if_neg (by simp only [not_or, not_le]; exact ⟨hn, up, by simp [shut]⟩)

/-- Link n when it has gone down: RATE reads 3 (R21). -/
def State.downed (s : State) (n : Nat) : State :=
  s.setLink n { s.link n with rate := 3, window := none, request := none, failing := false, fails := 0 }

/-- The event of a link that has gone down, in the records, and the links that wait after it. -/
def State.downRecorded (s : State) (n : Nat) : State :=
  (((s.downed n).updCounts (fun c => { c with downs := bump c.downs n })).emit (.linkDown n)).commitRecords.serveLinks

theorem State.downLink_of_failing {w : Nat × Nat} (hn : n < 13) (failing : (s.link n).failing = true) (isOpen : (s.link n).window = some w) :
    s.downLink n = if (s.downRecorded n).routable then s.downRecorded n else (s.downRecorded n).fatalNow .unroutable :=
  if_neg (by simp [hn, failing, isOpen])

end

/-- Settles O36: each event has the effect of its operation on a link. -/
theorem linkEvents : Obligations.LinkEvents := by
  unfold Obligations.LinkEvents
  intro n free run
  refine ⟨.of_whileLive (fun _ => rfl) ?up, .of_whileLive (fun _ => rfl) ?full, .of_whileLive (fun _ => rfl) ?down,
    fun t r => .of_whileLive (fun _ => rfl) ?close, .of_whileLive (fun _ => rfl) ?retry, .of_whileLive (fun _ => rfl) ?exhausted,
    fun w => .of_whileLive (fun _ => rfl) ?fails⟩
  case up => exact fun s ⟨⟨hn, unpinned⟩, below, up⟩ => State.stepUp_raises hn unpinned below up
  case full => exact fun s ⟨_, full⟩ => State.stepUp_of_full full
  case down => exact fun s ⟨⟨hn, unpinned⟩, above, shut, dwelt⟩ => State.stepDown_raises hn unpinned above shut dwelt
  case close => exact fun s isOpen => State.closeWindow_of_open isOpen
  case retry => exact fun s ⟨hn, up, shut, few⟩ => (State.crcError_eq hn up shut).trans (if_pos few)
  case exhausted => exact fun s ⟨hn, up, shut, eight⟩ => (State.crcError_eq hn up shut).trans (if_neg (Nat.not_lt.2 eight))
  case fails => exact fun s ⟨hn, failing, isOpen⟩ => State.downLink_of_failing hn failing isOpen

end Sys2Proof.Machine
end

section
/-!
PROOFS. The values of the register tables at package reset.
-/

namespace Sys2Proof.Machine

theorem State.reset_part {p : Nat} (hp : p < 8) : State.reset.part p = {} := List.getD_replicate _ hp

theorem State.reset_home {k : Nat} (hk : k < 6) : State.reset.home k = {} := List.getD_replicate _ hk

/-- R44: ADMIN is 1 for port 0 alone. -/
theorem resetPorts_admin : ∀ p < 4, (resetPorts.getD p {}).admin = decide (p = 0) := by decide

/-- Settles O60: every partition, home and link starts at the values its record gives, and each single register at its own. -/
theorem resetValues : Obligations.ResetValues := by
  unfold Obligations.ResetValues
  refine ⟨rfl, rfl, ?parts, ?homes, rfl, rfl, rfl, rfl, rfl, rfl, rfl, rfl, rfl, rfl, rfl, rfl, ?port0, ?others⟩
  case parts =>
    intro p hp
    rw [State.reset_part hp]
    decide
  case homes =>
    intro k hk
    rw [State.reset_home hk]
    decide
  case port0 => exact resetPorts_admin 0 (by decide)
  case others => exact fun p atLeast below => (resetPorts_admin p below).trans (decide_eq_false (by omega))

end Sys2Proof.Machine
end

section
/-!
PROOFS. The level of a partition, the clock and the gate that it sets (R33, R34).
-/

namespace Sys2Proof.Machine

/-! ## The minimum of the causes (R34) -/

theorem Part.min?_levels {x : Part} (bounded : ∀ l ∈ x.levels, l ≤ 64) (nonempty : x.levels ≠ []) : x.levels.min? = some x.level := by
  obtain ⟨a, least⟩ := Option.ne_none_iff_exists'.1 (mt List.min?_eq_none_iff.1 nonempty)
  have le : a ≤ 64 := bounded a (List.min?_mem least)
  rw [Part.level, List.foldl_min, least, Option.getD_some, Nat.min_eq_right le]

theorem Part.binding_eq (x : Part) : x.binding = x.levels.map (fun l => decide (l = x.level ∧ x.level < 64)) :=
  List.map_congr_left fun _ _ => decide_eq_decide.2 (and_congr_right fun same => by rw [same])

/-! ## Setting the level of a cause -/

theorem State.part_setPart (s : State) (p q : Nat) (x : Part) :
    (s.setPart p x).part q = if q = p ∧ p < s.parts.length then x else s.part q := by
  simp only [State.part, State.setPart, List.getD_eq_getElem?_getD, List.getElem?_set]
  grind

/-- Whose a core is depends on a partition's EN and its clusters alone. -/
theorem State.partOfCore_setPart {s : State} {p : Nat} {x : Part} (word : x.word0 = (s.part p).word0)
    (clusters : x.clusters = (s.part p).clusters) (core : Nat) : (s.setPart p x).partOfCore core = s.partOfCore core := by
  have owns : ∀ q, ((s.setPart p x).part q).word0 = (s.part q).word0 ∧ ((s.setPart p x).part q).clusters = (s.part q).clusters := by
    intro q
    rw [State.part_setPart]
    split
    · next here => rw [here.1]; exact ⟨word, clusters⟩
    · exact ⟨rfl, rfl⟩
  simp only [State.partOfCore, owns]
  rfl

/-- A partition with the times of its binding causes brought up to a time (R38). -/
def Part.tallied (x : Part) (now : Nat) : Part :=
  { x with thrAcc := (x.thrAcc.zip x.binding).map (fun e => if e.2 then e.1 + (now - x.thrAt) else e.1), thrAt := now }

/-- A partition with the level of one cause set. -/
def Part.leveled (x : Part) (cause level : Nat) : Part := { x with levels := x.levels.set cause level }

theorem State.tally_eq (s : State) (p : Nat) : s.tally p = s.setPart p ((s.part p).tallied s.time) := rfl

theorem State.partOfCore_tally (s : State) (p core : Nat) : (s.tally p).partOfCore core = s.partOfCore core :=
  State.partOfCore_setPart (x := (s.part p).tallied s.time) rfl rfl core

theorem State.levels_tally (s : State) (p q : Nat) : ((s.tally p).part q).levels = (s.part q).levels := by
  rw [State.tally_eq, State.part_setPart]
  split
  · next here => rw [here.1, Part.tallied]
  · rfl

/-- A partition of the state with the level of one cause set, before its cores take the clock of its level. -/
def State.leveled (s : State) (p cause level : Nat) : State :=
  (s.tally p).setPart p (((s.tally p).part p).leveled cause level)

theorem State.setLevel_eq (s : State) (p cause level : Nat) : s.setLevel p cause level = (s.leveled p cause level).retime p := rfl

theorem State.partOfCore_leveled (s : State) (p cause level core : Nat) : (s.leveled p cause level).partOfCore core = s.partOfCore core :=
  (State.partOfCore_setPart (x := ((s.tally p).part p).leveled cause level) rfl rfl core).trans (s.partOfCore_tally p core)

theorem State.levels_setLevel {s : State} {p : Nat} (hp : p < s.parts.length) (q cause level : Nat) :
    ((s.setLevel p cause level).part q).levels = if q = p then (s.part p).levels.set cause level else (s.part q).levels := by
  have length : (s.tally p).parts.length = s.parts.length := List.length_set
  have part : (s.setLevel p cause level).part q = (s.leveled p cause level).part q := rfl
  rw [part, State.leveled, State.part_setPart, length]
  by_cases here : q = p
  · simp only [here, hp, and_self, if_true, Part.leveled, State.levels_tally]
  · simp only [here, false_and, if_false, State.levels_tally]

theorem State.levelOf_setLevel_same {s : State} {p cause : Nat} (hp : p < s.parts.length) (hc : cause < (s.part p).levels.length) (level : Nat) :
    (s.setLevel p cause level).levelOf p cause = level := by
  rw [State.levelOf, State.levels_setLevel hp, if_pos rfl, List.getD_eq_getElem?_getD, List.getElem?_set_self hc, Option.getD_some]

theorem State.levelOf_setLevel_other {s : State} {p q cause c : Nat} (hp : p < s.parts.length) (other : q ≠ p ∨ c ≠ cause) (level : Nat) :
    (s.setLevel p cause level).levelOf q c = s.levelOf q c := by
  rw [State.levelOf, State.levels_setLevel hp]
  split
  · next here =>
    have apart : cause ≠ c := (other.resolve_left (not_not.2 here)).symm
    rw [here, List.getD_eq_getElem?_getD, List.getElem?_set_ne apart, ← List.getD_eq_getElem?_getD, State.levelOf]
  · rfl

/-- A core that the clock of the level was not given to had that division already. -/
theorem State.div_retime {s : State} {p : Nat} {e : Nat × Core} (listed : e ∈ (s.retime p).cores) (mine : s.partOfCore e.1 = some p) :
    e.2.clk.div = divOf (s.part p).level := by
  obtain ⟨old, -, rfl⟩ := List.mem_map.1 listed
  have fixed : s.partOfCore old.1 = some p := by
    split at mine <;> exact mine
  split
  · rfl
  · next kept => simpa [fixed] using kept

theorem State.div_setLevel {s : State} {p cause level : Nat} {e : Nat × Core} (listed : e ∈ (s.setLevel p cause level).cores)
    (mine : s.partOfCore e.1 = some p) : e.2.clk.div = divOf ((s.setLevel p cause level).part p).level :=
  State.div_retime (s := s.leveled p cause level) listed ((s.partOfCore_leveled p cause level e.1).trans mine)

/-! ## Clock and gate of a level (R33) -/

theorem divOf_full {level : Nat} (h : 16 ≤ level) : divOf level = 0 := if_pos h

theorem divOf_half {level : Nat} (h : 8 ≤ level) (below : level < 16) : divOf level = 1 :=
  (if_neg (Nat.not_le.2 below)).trans (if_pos h)

theorem divOf_quarter {level : Nat} (below : level < 8) : divOf level = 2 :=
  (if_neg (by omega)).trans (if_neg (Nat.not_le.2 below))

theorem gateOf_full {level : Nat} (h : 16 ≤ level) : gateOf level = level := by rw [gateOf, divOf_full h, Nat.pow_zero, Nat.mul_one]

theorem gateOf_half {level : Nat} (h : 8 ≤ level) (below : level < 16) : gateOf level = 2 * level := by
  rw [gateOf, divOf_half h below, Nat.pow_one, Nat.mul_comm]

theorem gateOf_quarter {level : Nat} (below : level < 8) : gateOf level = 4 * level := by
  rw [gateOf, divOf_quarter below, Nat.mul_comm, Nat.pow_two]

theorem gateOf_le {level : Nat} (h : level ≤ 64) : gateOf level ≤ 64 := by
  rcases Nat.lt_or_ge level 8 with quarter | atLeast8
  · rw [gateOf_quarter quarter]
    omega
  · rcases Nat.lt_or_ge level 16 with half | full
    · rw [gateOf_half atLeast8 half]
      omega
    · rwa [gateOf_full full]

/-- A gate of g in 64 is open in cycle c where the whole part of c * g / 64 steps. -/
def gateSteps (g c : Nat) : Bool := decide (c * g / 64 < (c + 1) * g / 64)

theorem State.gateOpen_of_part {s : State} {core p : Nat} (mine : s.partOfCore core = some p) :
    s.gateOpen core = gateSteps (gateOf (s.part p).level) (s.cycle core) := by
  simp only [State.gateOpen, mine, gateSteps]

theorem State.gateOpen_of_none {s : State} {core : Nat} (unowned : s.partOfCore core = none) : s.gateOpen core = true := by
  simp only [State.gateOpen, unowned]

/-- The steps are of one, so that the open cycles of a stretch telescope. -/
theorem length_filter_gateSteps {g : Nat} (hg : g ≤ 64) (c n : Nat) :
    ((List.range n).filter (fun i => gateSteps g (c + i))).length + c * g / 64 = (c + n) * g / 64 := by
  induction n with
  | zero => simp
  | succ n ih =>
    have next : (c + n + 1) * g = (c + n) * g + g := Nat.succ_mul _ _
    have last : ((List.range (n + 1)).filter (fun i => gateSteps g (c + i))).length =
        ((List.range n).filter (fun i => gateSteps g (c + i))).length + if gateSteps g (c + n) then 1 else 0 := by
      rw [List.range_succ, List.filter_append, List.length_append, List.filter_singleton]
      cases gateSteps g (c + n) <;> rfl
    rw [last, ← Nat.add_assoc, next]
    simp only [gateSteps, next, decide_eq_true_eq] at ih ⊢
    split <;> omega

theorem gateSteps_even {g : Nat} (hg : g ≤ 64) (c n : Nat) :
    n * g ≤ 64 * ((List.range n).filter (fun i => gateSteps g (c + i))).length + 63 ∧
      64 * ((List.range n).filter (fun i => gateSteps g (c + i))).length ≤ n * g + 63 := by
  have total := length_filter_gateSteps hg c n
  have split : (c + n) * g = c * g + n * g := Nat.add_mul c n g
  omega

/-- Settles O55, from the minimum of the causes, the frame of a change of level, and the steps of the gate. -/
theorem partitionLevels : Obligations.PartitionLevels := by
  unfold Obligations.PartitionLevels
  refine ⟨?minimum, ?change, ?table, ?even, fun s core unowned => State.gateOpen_of_none unowned⟩
  case minimum =>
    intro x bounded nonempty
    obtain ⟨mem, le⟩ := List.min?_eq_some_iff.1 (Part.min?_levels bounded nonempty)
    exact ⟨le, mem, x.binding_eq⟩
  case change =>
    exact fun s p cause level hp hc =>
      ⟨State.levelOf_setLevel_same hp hc level, fun q c other => State.levelOf_setLevel_other hp other level,
        fun e listed mine => State.div_setLevel listed mine⟩
  case table =>
    exact fun level => ⟨fun h _ => ⟨divOf_full h, gateOf_full h⟩, fun h below => ⟨divOf_half h below, gateOf_half h below⟩,
      fun _ below => ⟨divOf_quarter below, gateOf_quarter below⟩⟩
  case even =>
    intro u core p level c n _ atMost stretch
    have opens : ∀ i, (u i).gateOpen core = gateSteps (gateOf level) (c + i) := by
      intro i
      obtain ⟨mine, same, cycle⟩ := stretch i
      rw [State.gateOpen_of_part mine, same, cycle]
    simp only [opens]
    exact gateSteps_even (gateOf_le atMost) c n

end Sys2Proof.Machine
end

section
/-!
PROOFS. Power and Vudor (R30 to R41): what each of their events does in the states where it has an effect.
-/

namespace Sys2Proof.Machine

/-- An event of Vudor does what its operation does to the state. -/
theorem Stands.of_whileStanding {e : Instr} {pre : State → Prop} {op f : State → State} (arm : ∀ s, exec e s = s.whileStanding op)
    (does : ∀ s, s.standing = true → pre s → op s = f s) : Stands e pre f := by
  intro s standing hpre
  rw [arm, State.whileStanding, if_pos standing, does s standing hpre]

/-! ## Package states (R30 to R32, R40) -/

section
variable {s : State}

theorem State.bootVerify_of_valid {i : Image} (boot : s.pkg = .boot) (image : s.vudor.image = some i) (ok : s.imageOk i = true) : s.bootVerify =
    { s with pkg := .start, chipcfg := (s.vudor.chipId.getD 0x3FF).setWidth 64, powerSeq := List.range 160, powerAt := none } := by
  rw [State.bootVerify, if_neg (by simp [boot])]
  simp only [image, ok, if_true]

theorem State.bootVerify_of_invalid (boot : s.pkg = .boot)
    (invalid : s.vudor.image = none ∨ ∃ i, s.vudor.image = some i ∧ s.imageOk i = false) : s.bootVerify = { s with pkg := .recovery } := by
  rw [State.bootVerify, if_neg (by simp [boot])]
  obtain image | ⟨i, image, bad⟩ := invalid
  · simp only [image]
  · simp only [image, bad, Bool.false_eq_true, if_false]

theorem State.packageReset_of_powered (standing : s.standing = true) (powered : s.pkg ≠ .standby) : s.packageReset = s.afterReset s.vudor .boot :=
  if_neg (by simpa [powered, State.standing] using standing)

/-- The state in which the next core of the sequence has its power (R31). -/
def State.poweredNext (s : State) (c : Nat) (rest : List Nat) : State :=
  { s.setCore c (poweredCore s c) with powerSeq := rest, powerAt := some s.time }

/-- START ends with the last core of its sequence. -/
theorem State.corePowerUp_of_due {c : Nat} {rest : List Nat} (seq : s.powerSeq = c :: rest) (due : ∀ t, s.powerAt = some t → t + 2 * usec ≤ s.time) :
    s.corePowerUp = if s.pkg == .start && rest.isEmpty then { s.poweredNext c rest with pkg := .run } else s.poweredNext c rest := by
  have passed : s.powerAt.all (fun t => decide (t + 2 * usec ≤ s.time)) = true := by simpa [Option.all_eq_true] using due
  simp only [State.corePowerUp, seq, passed, Bool.not_true, Bool.false_eq_true, if_false]
  rfl

theorem State.partitionIdle_of_clean {p : Nat} (quiet : s.partBusy p = false) (due : (s.part p).idleAt + msec ≤ s.time)
    (clean : ∀ c ∈ s.idleCores p, (s.core c).dirtyLines = [] ∧ s.wbInFlight c = false) : s.partitionIdle p =
      (s.idleCores p).foldl (fun u c => u.updCore c (fun y => { eclk := y.eclk, watch := y.watch, sampPos := y.sampPos })) s := by
  have waits : ¬ (s.partBusy p || s.time < (s.part p).idleAt + msec) = true := by simp [quiet, due]
  have settled : ¬ (s.idleCores p).any (fun c => !(s.core c).dirtyLines.isEmpty || s.wbInFlight c) = true := by
    simpa [List.any_eq_true] using clean
  exact (if_neg waits).trans (if_neg settled)

/-! ## Hall frames and the board limit (R35 to R37) -/

variable {f : BitVec 320} {m : Measure}

theorem State.capFrame_of_rejected (bad : s.frameOk f = false) : s.capFrame f m = { s with hallRejects := s.hallRejects + 1 } :=
  if_pos (by simp [bad])

theorem State.capFrame_of_accepted (good : s.frameOk f = true) : s.capFrame f m =
    if frameWord f 8 = 0 then { ({ s with hallSeq := BitVec.ofNat 32 (frameWord f 4) } : State).hallRelease with hallShort := false }
    else ({ s with hallSeq := BitVec.ofNat 32 (frameWord f 4),
                   vudor := { s.vudor with frame := some f, lapseAt := s.time + frameWord f 8 * msec } } : State).hallLevels f m :=
  if_neg (by simp [good])

theorem State.hallRecompute_of_due {fr : BitVec 320} (force : s.vudor.frame = some fr) (due : s.vudor.hallAt + msec ≤ s.time) :
    s.hallRecompute m = s.hallLevels fr m := by
  simp only [State.hallRecompute, force, due, if_true]

theorem State.hallExpire_of_lapsed (force : s.vudor.frame ≠ none) (lapsed : s.vudor.lapseAt ≤ s.time) : s.hallExpire = s.hallRelease :=
  if_pos (by simp [Option.isSome_iff_ne_none, force, lapsed])

/-- BOARDW.WATTS. -/
def State.watts (s : State) : Nat := s.boardw.toNat % 65536

/-- The levels that the loop of R37 gives the enabled partitions with a resident team, where the package draws more than the board's limit. -/
def State.boardCut (s : State) (m : Measure) : List (Nat × Nat) :=
  (cutLevels (fun _ => 4) (dynPower m) (64 * (m.power - s.watts))
    (s.powerOrder ((List.range 8).filter (fun p => (s.part p).word0.getLsbD 0 && s.partActive p)))).1

/-- Every partition's level of a cause as a function of the partition. -/
def State.levelsBy (s : State) (cause : Nat) (level : Nat → Nat) : State := s.setLevels cause ((List.range 8).map (fun p => (p, level p)))

/-- A measurement that is due is noted, and cuts, restores or keeps the board levels. -/
theorem State.boardMeasure_of_due (due : s.boardTime + msec ≤ s.time) : s.boardMeasure m =
    let u : State := { s with boardTime := s.time }
    if s.watts = 0 then u.allLevels 1 64
    else if s.watts < m.power then u.setLevels 1 ((u.boardCut m).map (fun e => (e.1, min e.2 (u.levelOf e.1 1))))
    else if m.power * 100 < 95 * s.watts then u.levelsBy 1 (fun p => min 64 (u.levelOf p 1 + 4))
    else u :=
  if_neg (Nat.not_lt.2 due)

/-! ## Temperature and current (R32, R34) -/

theorem State.thermalStep_of_hot {celsius : Nat} (dies : List Nat) (hot : 115 < celsius) : s.thermalStep celsius dies = s.fatalNow .temperature :=
  if_pos hot

/-- The state in which the histograms have taken the step of 100 µs that is due. -/
def State.thermalNoted (s : State) (celsius : Nat) (dies : List Nat) : State :=
  ({ s with levelTime := s.levelTime.set 0 s.time } : State).histograms celsius dies

theorem State.thermalStep_of_due {celsius : Nat} (dies : List Nat) (below : celsius ≤ 115) (due : s.levelTime.getD 0 0 + 100 * usec ≤ s.time) :
    s.thermalStep celsius dies =
      let u := s.thermalNoted celsius dies
      if 100 < celsius then u.levelsBy 2 (fun p => max 4 (u.levelOf p 2 - 4))
      else if celsius < 95 then u.levelsBy 2 (fun p => min 64 (u.levelOf p 2 + 4))
      else u :=
  (if_neg (Nat.not_lt.2 below)).trans (if_neg (Nat.not_lt.2 due))

theorem State.currentRestore_of_due (due : s.levelTime.getD 1 0 + 50 * usec ≤ s.time) : s.currentRestore =
    let u := s.levelsBy 4 (fun p => min 64 (s.levelOf p 4 + 4))
    { u with levelTime := u.levelTime.set 1 u.time } :=
  if_neg (Nat.not_lt.2 due)

/-! ## Vudor's flash (R39, R40) -/

theorem State.lifetimeCommit_of_due (due : s.vudor.committedAt + commitEvery ≤ s.time) : s.lifetimeCommit = s.commitRecords := if_pos due

variable {i : Image} {interrupted : Bool}

theorem State.firmwareUpdate_of_invalid (bad : s.imageOk i = false) : s.firmwareUpdate i interrupted = s := if_pos (by simp [bad])

theorem State.firmwareUpdate_of_valid (standing : s.standing = true) (ok : s.imageOk i = true) : s.firmwareUpdate i interrupted =
    if interrupted then { s with vudor := { s.vudor with image := none } }
    else
      let v : Vudor := { s.vudor with image := some i, minVersion := if i.raiseMin then max s.vudor.minVersion i.secVersion else s.vudor.minVersion }
      if s.pkg = .recovery then { s with vudor := v, pkg := .boot } else { s with vudor := v } :=
  if_neg (by simp [standing, ok])

end

/-- Settles O35: each event does its operation, by the equation of the operation in the case that the clause names. -/
theorem powerEvents : Obligations.PowerEvents := by
  unfold Obligations.PowerEvents
  intro p heat cause f m image nonce id levels stepped due low boardAt watts
  refine ⟨?standby, .of_whileStanding (fun _ => rfl) ?on, fun i => .of_whileStanding (fun _ => rfl) ?verified,
    .of_whileStanding (fun _ => rfl) ?unverified, fun c rest => .of_whileLive (fun _ => rfl) ?next, fun c => .of_whileLive (fun _ => rfl) ?last,
    .of_whileLive (fun _ => rfl) ?idle, .of_whileLive (fun _ => rfl) ?fatal, .of_whileStanding (fun _ => rfl) ?reset,
    .of_whileStanding (fun _ => rfl) ?loss, .of_whileStanding (fun _ => rfl) ?rejected, .of_whileStanding (fun _ => rfl) ?held,
    .of_whileStanding (fun _ => rfl) ?released, fun fr => .of_whileStanding (fun _ => rfl) ?recomputed, .of_whileStanding (fun _ => rfl) ?lapsed,
    .of_whileLive (fun _ => rfl) ?cut, .of_whileLive (fun _ => rfl) ?restored, .of_whileLive (fun _ => rfl) ?hot,
    .of_whileLive (fun _ => rfl) ?warm, .of_whileLive (fun _ => rfl) ?cool, .of_whileLive (fun _ => rfl) ?trip,
    .of_whileLive (fun _ => rfl) ?recover, .of_whileStanding (fun _ => rfl) ?commit, .of_whileStanding (fun _ => rfl) ?read,
    .of_whileStanding (fun _ => rfl) ?update, .of_whileStanding (fun _ => rfl) ?supplied, .of_whileStanding (fun _ => rfl) ?interrupted,
    fun i => .of_whileStanding (fun _ => rfl) ?refused, .of_whileStanding (fun _ => rfl) ?attested, .of_whileStanding (fun _ => rfl) ?chip⟩
  case standby => exact fun s dark => congrArg Host.Outcome.next (if_neg (by simp [dark]))
  case on => exact fun s _ standby => if_pos standby
  case verified => exact fun s _ ⟨boot, image, ok⟩ => State.bootVerify_of_valid boot image ok
  case unverified => exact fun s _ ⟨boot, invalid⟩ => State.bootVerify_of_invalid boot invalid
  case next =>
    intro s ⟨seq, due, more⟩
    refine (State.corePowerUp_of_due seq due).trans (if_neg ?_)
    obtain run | unfinished := more
    · simp [run]
    · simp [unfinished]
  case last => exact fun s ⟨seq, due, start⟩ => (State.corePowerUp_of_due seq due).trans (if_pos (by simp [start]))
  case idle => exact fun s ⟨quiet, due, clean⟩ => State.partitionIdle_of_clean quiet due clean
  case fatal => exact fun s _ => rfl
  case reset => exact fun s standing powered => State.packageReset_of_powered standing powered
  case loss => exact fun s _ _ => rfl
  case rejected => exact fun s _ bad => State.capFrame_of_rejected bad
  case held => exact fun s _ ⟨good, hold⟩ => (State.capFrame_of_accepted good).trans (if_neg hold)
  case released => exact fun s _ ⟨good, release⟩ => (State.capFrame_of_accepted good).trans (if_pos release)
  case recomputed => exact fun s _ ⟨force, due⟩ => State.hallRecompute_of_due force due
  case lapsed => exact fun s _ ⟨force, lapsed⟩ => State.hallExpire_of_lapsed force lapsed
  case cut =>
    exact fun s ⟨due, limited, above⟩ => (State.boardMeasure_of_due due).trans ((if_neg limited).trans (if_pos above))
  case restored =>
    intro s ⟨due, (well : m.power * 100 < 95 * s.watts)⟩
    have limited : s.watts ≠ 0 := by omega
    have below : ¬ s.watts < m.power := by omega
    exact (State.boardMeasure_of_due due).trans ((if_neg limited).trans ((if_neg below).trans (if_pos well)))
  case hot => exact fun s hot => State.thermalStep_of_hot heat.dies hot
  case warm => exact fun s ⟨above, below, due⟩ => (State.thermalStep_of_due heat.dies below due).trans (if_pos above)
  case cool =>
    intro s ⟨cool, due⟩
    exact (State.thermalStep_of_due heat.dies (by omega) due).trans ((if_neg (by omega)).trans (if_pos cool))
  case trip => exact fun s _ => rfl
  case recover => exact fun s due => State.currentRestore_of_due due
  case commit => exact fun s _ due => State.lifetimeCommit_of_due due
  case read => exact fun s _ _ => rfl
  case update => exact fun s standing ⟨ok, elsewhere⟩ => (State.firmwareUpdate_of_valid standing ok).trans (if_neg elsewhere)
  case supplied => exact fun s standing ⟨ok, recovery⟩ => (State.firmwareUpdate_of_valid standing ok).trans (if_pos recovery)
  case interrupted => exact fun s standing ok => State.firmwareUpdate_of_valid standing ok
  case refused => exact fun s _ bad => State.firmwareUpdate_of_invalid bad
  case attested => exact fun s _ _ => rfl
  case chip => exact fun s _ _ => rfl

end Sys2Proof.Machine
end

section
/-!
PROOFS. Host accesses to device memory (R42 to R44, R58, R60 to R63, R109, R125): what each access does in the states where it is served,
refused or must wait.
-/

namespace Sys2Proof.Machine

section
variable {s : State} {port line k pa n : Nat} {key : BitVec 6}

/-! ## What an access waits for (R60, R109, R126) -/

theorem State.grantRoom_of_room (room : s.heldWays k line < 12) : s.grantRoom k line = none := if_pos room

/-- The state in which the data of a resident line is asked of the host that owns it. -/
def State.recalling (s : State) (line : Nat) (l : L2Line) : State :=
  ({ s with l2 := Tab.set s.l2 line { l with snoop := some false, forWrite := false } } : State).emit (.bisnp line false)

theorem State.snoop_of_unasked {l : L2Line} (resident : Tab.find s.l2 line = some l) (unasked : l.snoop = none) :
    s.snoop line false false = s.recalling line l := by
  simp only [State.snoop, resident, unasked, Option.isSome_none, Bool.false_eq_true, if_false]
  rfl

/-- A read of a line that another host owns waits for its recall. -/
theorem State.hostAwaits_of_owned {l : L2Line} (first : s.hostBehind line = false) (resident : Tab.find s.l2 line = some l)
    (unasked : l.snoop = none) (owned : l.host = .he) (sameKey : l.key = key) : s.hostAwaits line key false = some (s.recalling line l) := by
  simp only [State.hostAwaits, first, resident, unasked, owned, sameKey, Option.isSome_none, Bool.false_eq_true, if_false, beq_self_eq_true,
    bne_self_eq_false, Bool.or_false, Bool.true_or, if_true, State.snoop_of_unasked resident unasked]

/-! ## HOST_SHARED_READ and HOST_OWNERSHIP_READ (R60, R61) -/

section
variable (mine : (s.ports.getD port {}).decodes line = true)
include mine

theorem State.sharedRead_of_served (home : physKind (256 * line) = .home k) (keyed : s.hostKey port = some key)
    (free : s.hostAwaits line key false = none) (room : s.heldWays k line < 12) : s.sharedRead port line =
      let u := s.hostFetch k line key
      ((u.setHost line .hs).hostSaw line).emit (.hostData port line (u.lineData line) (u.poisonOf line != 0)) := by
  simp only [State.sharedRead, mine, home, keyed, free, State.grantRoom_of_room room, Bool.not_true, Bool.false_eq_true, if_false]

theorem State.sharedRead_of_awaiting {u : State} (home : physKind (256 * line) = .home k) (keyed : s.hostKey port = some key)
    (awaits : s.hostAwaits line key false = some u) : s.sharedRead port line = u := by
  simp only [State.sharedRead, mine, home, keyed, awaits, Bool.not_true, Bool.false_eq_true, if_false]

theorem State.sharedRead_of_keyless (home : physKind (256 * line) = .home k) (keyless : s.hostKey port = none) :
    s.sharedRead port line = s.hostNoKey port line true := by
  simp only [State.sharedRead, mine, home, keyless, Bool.not_true, Bool.false_eq_true, if_false]

theorem State.sharedRead_of_unpopulated (unpopulated : physKind (256 * line) = .none) :
    s.sharedRead port line = (s.logStray (256 * line)).emit (.hostData port line 0 false) := by
  simp only [State.sharedRead, mine, unpopulated, Bool.not_true, Bool.false_eq_true, if_false]

theorem State.ownershipRead_of_served (home : physKind (256 * line) = .home k) (keyed : s.hostKey port = some key)
    (unowned : s.hostState line ≠ .he) (free : s.hostAwaits line key false = none) (room : s.heldWays k line < 12) : s.ownershipRead port line =
      let u := s.hostFetch k line key
      ((u.hostStamp k line).setHost line .he).emit (.grant port line (u.lineData line)) := by
  simp only [State.ownershipRead, mine, home, keyed, beq_eq_false_iff_ne.2 unowned, free, State.grantRoom_of_room room, Bool.not_true,
    Bool.false_eq_true, if_false]

theorem State.ownershipRead_of_unpopulated (unpopulated : physKind (256 * line) = .none) :
    s.ownershipRead port line = (s.logStray (256 * line)).emit (.hostData port line 0 false) := by
  simp only [State.ownershipRead, mine, unpopulated, Bool.not_true, Bool.false_eq_true, if_false]

/-! ## HOST_WRITEBACK and BISNP_RESPONSE (R60, R125) -/

theorem State.hostWriteBack_of_owned (data : Line) (bytes : ByteMask) (keep : Bool) (home : physKind (256 * line) = .home k)
    (keyed : s.hostKey port = some key) (owned : s.hostState line = .he) : s.hostWriteBack port line data bytes keep =
      (((s.hostRekey k line key).hostPut line data bytes).hostStamp k line).setHost line (if keep then .hs else .hi) := by
  simp only [State.hostWriteBack, mine, home, keyed, owned, bne_self_eq_false, Bool.not_true, Bool.false_eq_true, if_false]

end

theorem State.snoopAnswer_of_owned (data : Line) (bytes : ByteMask) {l : L2Line} {invalidate : Bool} (resident : Tab.find s.l2 line = some l)
    (asked : l.snoop = some invalidate) (owned : l.host = .he) : s.snoopAnswer line data bytes =
      let u := s.hostPut line data bytes
      { u with l2 := Tab.upd u.l2 line (fun l => { l with
          snoop := none
          forWrite := false
          host := if invalidate then .hi else if l.host = .hi then .hi else .hs
          recalled := l.recalled || (invalidate && l.forWrite) }) } := by
  simp only [State.snoopAnswer, resident, asked, owned, if_true]

/-! ## BAR 4 (R43, R62) -/

/-- An access to one line of a home awaits what that line has it await. -/
theorem State.bar4Awaits_of_one (write : Bool) (one : cuts 3 pa 0 n = [(0, n)]) (home : homeOf pa = some k) (keyed : s.hostKey port = some key) :
    s.bar4Awaits port pa n write = s.hostAwaits (pa / 256) key write := by
  simp only [State.bar4Awaits, keyed, one, Nat.add_zero, home, Option.isSome_some, if_true, List.findSome?_singleton]

section
variable (pcie : (s.ports.getD port {}).cxl = false) (up : (s.ports.getD port {}).down = false) (within : bar4 pa n = true)
include pcie up within

theorem State.bar4Write_of_free (data : BitVec 512) (free : s.bar4Awaits port pa n true = none) : s.bar4Write port pa n data =
    (cuts 3 pa 0 n).foldl (fun u c => u.bar4Piece port (pa + c.1) c.2 (data.toNat / 2 ^ (8 * c.1) % 2 ^ (8 * c.2))) s := by
  simp only [State.bar4Write, pcie, up, within, free, Bool.not_true, Bool.or_false, Bool.false_eq_true, if_false]

theorem State.bar4Write_of_awaiting (data : BitVec 512) {u : State} (awaits : s.bar4Awaits port pa n true = some u) :
    s.bar4Write port pa n data = u := by
  simp only [State.bar4Write, pcie, up, within, awaits, Bool.not_true, Bool.or_false, Bool.false_eq_true, if_false]

theorem State.bar4Read_of_one (one : cuts 3 pa 0 n = [(0, n)]) (home : homeOf pa = some k) (keyed : s.hostKey port = some key)
    (free : s.hostAwaits (pa / 256) key false = none)
    (clean : ((s.hostFetch k (pa / 256) key).hostSaw (pa / 256)).poisonOf (pa / 256) &&& byteRange (pa % 256) n = 0) : s.bar4Read port pa n =
      let u := (s.hostFetch k (pa / 256) key).hostSaw (pa / 256)
      u.emit (.hostWord port (BitVec.ofNat 512 (u.homeRead pa n))) := by
  have served : s.bar4Awaits port pa n false = none := (State.bar4Awaits_of_one false one home keyed).trans free
  simp only [State.bar4Read, pcie, up, within, one, keyed, served, home, clean, List.find?_cons, List.foldl_cons, List.foldl_nil, List.any_cons,
    List.any_nil, Nat.add_zero, Nat.mul_zero, Nat.pow_zero, Nat.mul_one, Nat.zero_add, Option.isSome_some, bne_self_eq_false, Bool.not_true,
    Bool.or_false, Bool.false_eq_true, if_false, if_true]

theorem State.bar4Read_of_unpopulated (unpopulated : ∀ cut ∈ cuts 3 pa 0 n, homeOf (pa + cut.1) = none) :
    s.bar4Read port pa n = (s.logStray pa).emit (.hostWord port 0) := by
  have nowhere : (cuts 3 pa 0 n).find? (fun cut => (homeOf (pa + cut.1)).isSome) = none :=
    List.find?_eq_none.2 fun cut mem => by simp [unpopulated cut mem]
  simp only [State.bar4Read, pcie, up, within, nowhere, Bool.not_true, Bool.or_false, Bool.false_eq_true, if_false]

end

/-! ## HOST_ATOMIC (R60, R147) -/

theorem State.hostAtomicOp_of_served {op : AtomOp} (reached : (s.ports.getD port {}).reaches pa (Ty.bits op.ty / 8) = true)
    (listed : hostAtomic op = true) (aligned : pa % (Ty.bits op.ty / 8) = 0) (home : homeOf pa = some k) (keyed : s.hostKey port = some key)
    (free : s.hostAwaits (pa / 256) key true = none)
    (clean : (s.hostFetch k (pa / 256) key).poisonOf (pa / 256) &&& byteRange (pa % 256) (Ty.bits op.ty / 8) = 0) : s.hostAtomicOp port pa op =
      let u := s.hostFetch k (pa / 256) key
      let old := lineField (u.lineData (pa / 256)) (pa % 256) (Ty.bits op.ty / 8)
      ((u.writeLine (pa / 256) (lineOf (pa % 256) (atomNew op old)) (byteRange (pa % 256) (Ty.bits op.ty / 8))).hostStamp k (pa / 256)).emit
        (.hostOld port (BitVec.ofNat 64 old)) := by
  simp only [State.hostAtomicOp, reached, listed, aligned, home, keyed, free, clean, bne_self_eq_false, Bool.not_true, Bool.or_false,
    Bool.false_eq_true, if_false]

end

/-- Settles O34: each access does its operation, by the equation of the operation in the case that the clause names. -/
theorem hostEvents : Obligations.HostEvents := by
  unfold Obligations.HostEvents
  intro port line pa n o data bytes word keep training ty b cmp up mine op served
  refine ⟨fun k key => .of_whileLive (fun _ => rfl) ?shared, fun k => .of_whileLive (fun _ => rfl) ?keyless,
    fun k key l => .of_whileLive (fun _ => rfl) ?recalled, .of_whileLive (fun _ => rfl) ?sharedStray,
    fun k key => .of_whileLive (fun _ => rfl) ?owned, .of_whileLive (fun _ => rfl) ?ownedStray,
    fun k key => .of_whileLive (fun _ => rfl) ?writeback, fun l inv => .of_whileLive (fun _ => rfl) ?answer,
    .of_whileLive (fun _ => rfl) ?write, fun u => .of_whileLive (fun _ => rfl) ?writeWaits, fun k key => .of_whileLive (fun _ => rfl) ?read,
    .of_whileLive (fun _ => rfl) ?readStray, fun k key => .of_whileLive (fun _ => rfl) ?atomic, .of_whileLive (fun _ => rfl) ?trained,
    .of_whileLive (fun _ => rfl) ?down⟩
  case shared => exact fun s ⟨mine, home, keyed, free, room⟩ => State.sharedRead_of_served mine home keyed free room
  case keyless => exact fun s ⟨mine, home, keyless⟩ => State.sharedRead_of_keyless mine home keyless
  case recalled =>
    exact fun s ⟨mine, home, keyed, first, resident, unasked, owned, sameKey⟩ =>
      State.sharedRead_of_awaiting mine home keyed (State.hostAwaits_of_owned first resident unasked owned sameKey)
  case sharedStray => exact fun s ⟨mine, unpopulated⟩ => State.sharedRead_of_unpopulated mine unpopulated
  case owned =>
    exact fun s ⟨⟨mine, home, keyed, free, room⟩, unowned⟩ => State.ownershipRead_of_served mine home keyed unowned free room
  case ownedStray => exact fun s ⟨mine, unpopulated⟩ => State.ownershipRead_of_unpopulated mine unpopulated
  case writeback =>
    exact fun s ⟨mine, home, keyed, owned⟩ => State.hostWriteBack_of_owned mine data bytes keep home keyed owned
  case answer => exact fun s ⟨resident, asked, owned⟩ => State.snoopAnswer_of_owned data bytes resident asked owned
  case write => exact fun s ⟨⟨pcie, up⟩, within, free⟩ => State.bar4Write_of_free pcie up within word free
  case writeWaits => exact fun s ⟨⟨pcie, up⟩, within, awaits⟩ => State.bar4Write_of_awaiting pcie up within word awaits
  case read =>
    exact fun s ⟨⟨pcie, up⟩, within, home, keyed, one, free, clean⟩ => State.bar4Read_of_one pcie up within one home keyed free clean
  case readStray => exact fun s ⟨⟨pcie, up⟩, within, unpopulated⟩ => State.bar4Read_of_unpopulated pcie up within unpopulated
  case atomic =>
    exact fun s ⟨reached, listed, aligned, home, keyed, free, clean⟩ => State.hostAtomicOp_of_served reached listed aligned home keyed free clean
  case trained => exact fun s _ => rfl
  case down => exact fun s _ => rfl

end Sys2Proof.Machine
end

section
/-!
PROOFS. The launch front (R49 to R73, R103, R217, R315): what each of its events does in the states where a record is consumed and checked, and
where a grid or a team moves on.
-/

namespace Sys2Proof.Machine

section
variable {s : State}

/-! ## RECORD_CONSUME (R49, R50) -/

/-- The queue has a record that the launch front may consume. -/
def State.recordReady (s : State) (q : Nat) : Prop :=
  qEn (s.queue q).word0 = true ∧ (s.queue q).head ≠ (s.queue q).tail ∧ (s.queue q).overrun = false ∧ (s.queue q).recfault = false

/-- The physical address of the record at HEAD. -/
def State.recordPa (s : State) (q : Nat) : Nat := qBase (s.queue q).word0 + 128 * ((s.queue q).head.toNat % 2 ^ (qLog (s.queue q).word0 + 4))

/-- The state in which the read of a record leaves its home, or the log of unpopulated addresses. -/
def State.recordRead (s : State) (pa : Nat) : State := match physKind pa with | .home k => s.ringRead k (pa / 256) | .none => s.logStray pa | _ => s

theorem State.recordRead_of_home {pa k : Nat} (home : physKind pa = .home k) : s.recordRead pa = s.ringRead k (pa / 256) := by
  simp only [State.recordRead, home]

theorem State.recordRead_of_elsewhere {pa : Nat} (populated : physKind pa ≠ .none) (elsewhere : ∀ k, physKind pa ≠ .home k) :
    s.recordRead pa = s := by
  unfold State.recordRead
  split
  case h_1 k home => exact absurd home (elsewhere k)
  case h_2 stray => exact absurd stray populated
  case h_3 => rfl

/-- A record v of s enters the launch front as grid f; its read has left u. -/
def State.recordTaken (s : State) (q f v : Nat) (u : State) : State :=
  let w := u.setQueue q { s.queue q with head := (s.queue q).head + 1 }
  { w with grids := Tab.set w.grids f (s.consumed q (BitVec.ofNat 1024 v)), launchSeq := w.launchSeq + 1, orderN := w.orderN + 1 }

theorem State.recordConsume_of_ready {q f v : Nat} (bad : Bool) (free : s.freeEntry = some f) (ready : s.recordReady q)
    (read : s.hwPhys (s.recordPa q) 128 none = .val v) : s.recordConsume q bad =
      if bad then s.setQueue q { s.queue q with recfault := true } else s.recordTaken q f v (s.recordRead (s.recordPa q)) := by
  obtain ⟨enabled, posted, intact, sound⟩ := ready
  have waits : ¬ (!qEn (s.queue q).word0 || (s.queue q).head == (s.queue q).tail || (s.queue q).overrun || (s.queue q).recfault) = true := by
    simp [enabled, posted, intact, sound]
  unfold State.recordPa at read
  simp only [State.recordConsume, free, if_neg waits, read]
  rfl

/-! ## LAUNCH_CHECK (R52, R275, R280) -/

section
variable {e h : Nat} {g : Grid}

theorem State.launchCheck_of_consumed (listed : s.grid e = some g) (consumed : g.state = .consumed) (held : g.recAddr = none) :
    s.launchCheck e = s.checkRec e g := by
  simp only [State.launchCheck, listed, consumed, held, bne_self_eq_false, Bool.false_eq_true, if_false]

/-- A record that passes the checks of its own fields is checked against the header that its code address names. -/
theorem State.checkRec_of_legal {u : State} (legal : g.rec_.legal = true) (own : g.parent.isSome = true ∨ g.rec_.part = g.part ∧ g.rec_.depth = 0)
    (tokens : g.rec_.pred.all (tokenLegal g.queue g.index) = true) (read : s.hwTake 0 g.asid g.part g.rec_.code 8 32 = (.val h, u))
    (features : s.featWait g.asid = none) : s.checkRec e g = (u.featTouch g.asid).checkHeader e g h := by
  have mine : (g.parent.isSome || (g.rec_.part == g.part && g.rec_.depth == 0)) = true := by simpa using own
  simp only [State.checkRec, legal, mine, tokens, read, features, Bool.not_true, Bool.or_false, Bool.false_eq_true, if_false]

theorem State.checkHeader_of_rejected {c : Cause} (fails : verdict s g h = some c) : s.checkHeader e g h = s.rejectGrid e c := by
  simp only [State.checkHeader, fails]

theorem State.checkHeader_of_passed {v : State} {safe : List (W64 × W64)} (passes : verdict s g h = none)
    (table : s.safeTable g (g.rec_.code + BitVec.ofNat 64 (hdrField h 0x30 8)) (hdrField h 0x29 1) = .ok (safe, v)) : s.checkHeader e g h =
      v.updGrid e (fun g => { g with
        state := .waiting
        hdr := { lentry := hdrField h 0x10 8, centry := hdrField h 0x18 8, safe := safe, fmtOff := hdrField h 0x50 8
                 trapOff := hdrField h 0x58 8 } }) := by
  simp only [State.checkHeader, passes, table]

/-! ## GRID_DEPENDENCES_MET and SLOT_ADMISSION (R53, R68) -/

theorem State.dependencesMet_of_satisfied (listed : s.grid e = some g) (waiting : g.state = .waiting)
    (met : g.rec_.pred.all (fun t => (s.tokenClock t).isSome) = true) :
    s.dependencesMet e = s.updGrid e (fun g => { g with state := if g.rec_.slots = 0 then .placing else .admitting }) := by
  simp only [State.dependencesMet, listed, waiting, met, beq_self_eq_true, Bool.and_self, if_true]

/-- A grid whose mask meets no other grid's mask is admitted, whatever the others reserve. -/
theorem State.slotAdmission_of_disjoint (listed : s.grid e = some g) (admitting : g.state = .admitting)
    (disjoint : ∀ o ∈ s.grids, o.1 = e ∨ o.2.rec_.slots &&& g.rec_.slots = 0) :
    s.slotAdmission e = s.updGrid e (fun g => { g with state := .placing }) := by
  simp only [State.slotAdmission, listed, admitting]
  refine if_pos ?_
  rw [beq_self_eq_true, Bool.true_and, Bool.not_eq_true', List.any_eq_false]
  intro o mem
  obtain same | apart := disjoint o mem
  · simp [same]
  · simp [apart]

end

/-! ## PLACEMENT_DECISION (R66) -/

/-- The launch front as a decision finds it: the room noted, the time of the decision taken. -/
def State.deciding (s : State) : State := { s.noteRoom with lastPlace := s.placeTime }

theorem State.placement_of_new {k p credit f n core : Nat} {g : Grid} {slots : List Nat} (due : s.lastPlace + 8 ≤ s.datum)
    (rank : (List.range 8).find? (fun k => (List.range 8).any (fun p => (s.deciding.placeable p k).isSome)) = some k)
    (turn : s.deciding.turnOf k = (p, credit)) (fits : s.deciding.placeable p k = some (f, g, n, core, slots))
    (unsaved : g.saved.find? (fun x => x.team.num == n) = none) : s.placement =
      let u : State := { s.deciding with
        curPart := Tab.put 0 s.deciding.curPart k p
        credit := Tab.put 0 s.deciding.credit k (credit - 1)
        pressure := s.deciding.pressure.filter (fun x => x != (g.order, n)) }
      (u.placeNew f g n core slots).nowRunning f := by
  unfold State.deciding at rank turn fits
  simp only [State.placement, if_neg (Nat.not_lt.2 due), rank, turn, fits, unsaved]
  rfl

/-! ## TEAM_START (R72, R73, R196) -/

section
variable {t : Nat} {x : Team} {g : Grid}

/-- The state in which a team has started with a clock, its decision done. -/
def State.teamStarted (s : State) (t : Nat) (x : Team) (clk : W32) : State := (s.decisionDone x).startTeamClocks t clk

section
variable {u : State} (listed : s.team t = some x) (mine : s.grid x.grid = some g) (fresh : x.started = false) (unsaved : g.saved = [])
  (decided : s.decisionNext x = true) (features : s.featWait g.asid = none)
include listed mine fresh unsaved decided features

theorem State.teamStart_of_scheduled {l : List SchedDesc} (schedule : (s.holdLeaves t g.asid).readSched (dieOf x.core) g = (.ok l, u)) :
    s.teamStart t = ((u.teamStarted t x (s.startClock g)).updTeam t (fun x => { x with sched := l })).releaseStage t
      { c := s.startClock g, cpc := x.cpc, csn := 0, edge := 0, warp := none } := by
  simp only [State.teamStart, listed, mine, fresh, unsaved, decided, features, schedule, List.any_nil, Bool.not_true, Bool.or_false,
    Bool.false_eq_true, if_false]
  rfl

theorem State.teamStart_of_badSchedule {c : Cause} (schedule : (s.holdLeaves t g.asid).readSched (dieOf x.core) g = (.bad c, u)) :
    s.teamStart t = (u.teamStarted t x (s.startClock g)).pushEvent t (evRec 0 1 c 0 0 0 x.cpc 0 (s.startClock g) 0) := by
  simp only [State.teamStart, listed, mine, fresh, unsaved, decided, features, schedule, List.any_nil, Bool.not_true, Bool.or_false,
    Bool.false_eq_true, if_false]
  rfl

end

/-! ## FORMAT_TABLE_LOAD (R217) -/

/-- At placement and restore the control thread reads the table. -/
theorem State.fmtReader_of_placed (unwritten : x.fmtBy = none) : s.fmtReader t x = (.ct t, false) := by
  simp only [State.fmtReader, unwritten]

section
variable {w : Who} (listed : s.team t = some x) (due : x.fmtLoad = true) (started : x.started = true)
include listed due started

theorem State.fmtLoad_of_tableless (resident : s.who (.ct t) = some w) (unwritten : x.fmtBy = none) (unread : x.fmtFlight = none)
    (tableless : x.fmtBase &&& ~~~(0xFF : W64) = 0) : s.fmtLoad t = s.fmtDone t [] := by
  simp only [State.fmtLoad, listed, due, started, State.fmtReader_of_placed unwritten, resident, unread, tableless, Bool.not_true, Bool.or_false,
    Bool.false_eq_true, if_false, if_true]

theorem State.fmtLoad_of_read {b : Agent} {f : Flight} (reader : (s.fmtReader t x).1 = b) (resident : s.who b = some w)
    (reading : x.fmtFlight = some (b, f.id, x.fmtBase &&& ~~~(0xFF : W64))) (flying : s.flight b f.id = some f) (complete : f.missing = 0)
    (good : f.bad = []) : s.fmtLoad t = (s.fmtDrop t b f.id).fmtDone t f.fmtWords := by
  simp only [State.fmtLoad, listed, due, started, reader, resident, reading, flying, complete, good, bne_self_eq_false, List.isEmpty_nil,
    Bool.not_true, Bool.or_false, Bool.false_eq_true, if_false, if_true, and_self]

end

/-! ## TEAM_EXIT and GRID_END_REQUEST (R103, R124, R204, R315) -/

/-- The state in which a team has left its core. -/
def State.teamGone (s : State) (t : Nat) (x : Team) : State :=
  let u := (s.freePlaces t x).decisionDone x
  { u with deferred := u.deferred.filter (fun d => !(d.grid == x.grid && d.num == x.num)) }

/-- A grid that one of its teams has left drains when it has no other, none saved and none to place. -/
def Grid.left (g : Grid) (num : Nat) : Grid :=
  let others := g.resident.filter (fun e => e.1 != num)
  let all := others.isEmpty && g.saved.isEmpty && (g.ending || decide (g.rec_.teams ≤ g.placed))
  { g with exitedN := g.exitedN + 1, resident := others, state := if all then .draining else g.state }

section
variable (listed : s.team t = some x) (ended : x.over = true) (idle : s.enginesIdle t x = true)
include listed ended idle

theorem State.teamExit_of_released (released : x.regions = []) (written : s.wbInFlight x.core = false) :
    s.teamExit t = (s.teamGone t x).updGrid x.grid (fun g => g.left x.num) := by
  simp only [State.teamExit, listed, ended, idle, released, written, List.isEmpty_nil, Bool.not_true, Bool.or_false, Bool.false_eq_true, if_false]
  rfl

theorem State.teamExit_of_regions (held : x.regions ≠ []) (free : s.flushWait t = none) :
    s.teamExit t = (s.flushRegions t).updTeam t (fun x => { x with regions := [] }) := by
  simp only [State.teamExit, listed, ended, idle, List.isEmpty_eq_false_iff.2 held, free, Bool.not_true, Bool.not_false, Bool.or_false,
    Bool.false_eq_true, if_false, if_true]

end

theorem State.gridEndRequest_of_ending (listed : s.team t = some x) (mine : s.grid x.grid = some g) (ending : g.ending = true)
    (running : x.ended = false) : s.gridEndRequest t = s.endTeam t := by
  simp only [State.gridEndRequest, listed, mine, ending, running, Bool.not_false, Bool.and_self, if_true]

end

/-! ## GRID_RETIRE and COMPLETION_RECORD_WRITE (R54, R55, R64, R67) -/

section
variable {e : Nat} {g : Grid} (listed : s.grid e = some g)
include listed

section
variable (drained : g.drained = true) (childless : s.hasChildren e g = false)
include drained childless

theorem State.gridRetire_of_unreleased (unreleased : g.released = false) : s.gridRetire e =
    (g.cores.foldl (fun u c => u.releaseStart c) s).updGrid e (fun g => { g with released := true, state := .draining }) := by
  simp only [State.gridRetire, listed, drained, childless, unreleased, Bool.not_true, Bool.not_false, Bool.or_false, Bool.false_eq_true, if_false,
    if_true]

theorem State.gridRetire_of_released (released : g.released = true) (topLevel : g.parent = none)
    (written : ∀ c ∈ g.cores, s.wbInFlight c = false) : s.gridRetire e =
      let u := s.updGrid e (fun h => { h with
        state := .retired
        tr := g.cores.foldl (fun m c => serialMax m (s.core c).eclk) (if g.trAny then g.tr else s.floor)
        trAny := true
        end_ := s.time
        saved := [] })
      { u with deferred := u.deferred.filter (fun d => d.grid != e) } := by
  have settled : g.cores.any (fun c => s.wbInFlight c) = false := List.any_eq_false.2 fun c mem => by simp [written c mem]
  simp only [State.gridRetire, listed, drained, childless, released, topLevel, settled, Bool.not_true, Bool.or_false, Bool.false_eq_true, if_false]

end

section
variable (retired : g.state = .retired) (childless : s.childOf e g = false)
  (released : ∀ c ∈ g.cores, s.hostClear c = true ∧ s.remoteClear c g.end_ = true)
include retired childless released

omit listed in
/-- The record is due: its grid has retired, its children's records are written, and the stores of its cores have completed. -/
theorem State.completion_not_held :
    (g.state != .retired || s.childOf e g || g.cores.any (fun c => !s.hostClear c || !s.remoteClear c g.end_)) = false := by
  have settled : g.cores.any (fun c => !s.hostClear c || !s.remoteClear c g.end_) = false :=
    List.any_eq_false.2 fun c mem => by simp [released c mem]
  simp only [retired, childless, settled, bne_self_eq_false, Bool.or_false]

theorem State.completion_of_start {u : State} (start : g.compl = .start) (aligned : g.rec_.compl.toNat % 32 = 0)
    (first : s.completionWrite e g true (g.rec_.compl + 8) 24 (g.completion / 2 ^ 64) .first = .yes u) :
    s.completion e = u.completionLast e g := by
  have due := State.completion_not_held retired childless released
  simp only [State.completion, listed, due, start, aligned, first, ne_eq, not_true_eq_false, Bool.false_eq_true, if_false]

theorem State.completion_of_done (done : g.compl = .done) : s.completion e = s.completionEnd e g true := by
  have due := State.completion_not_held retired childless released
  simp only [State.completion, listed, due, done, Bool.false_eq_true, if_false]

end

end

end

/-- Settles O31: each event does its operation, by the equation of the operation in the case that the clause names. -/
theorem gridEvents : Obligations.GridEvents := by
  unfold Obligations.GridEvents
  intro q t e ready rec_ taken own front started gone reads
  refine ⟨fun f v k => .of_whileLive (fun _ => rfl) ?homeRecord, fun f v => .of_whileLive (fun _ => rfl) ?otherRecord,
    fun f v => .of_whileLive (fun _ => rfl) ?badRecord, fun g h u v safe => .of_whileLive (fun _ => rfl) ?passed,
    fun g h u c => .of_whileLive (fun _ => rfl) ?rejected, fun g => .of_whileLive (fun _ => rfl) ?met,
    fun g => .of_whileLive (fun _ => rfl) ?admitted, fun k p credit f g n core slots => .of_whileLive (fun _ => rfl) ?placed,
    fun x g l u => .of_whileLive (fun _ => rfl) ?scheduled, fun x g c u => .of_whileLive (fun _ => rfl) ?badSchedule,
    fun x w => .of_whileLive (fun _ => rfl) ?tableless, fun x w g f => .of_whileLive (fun _ => rfl) ?tabled,
    fun x => .of_whileLive (fun _ => rfl) ?exited, fun x => .of_whileLive (fun _ => rfl) ?flushed, fun x g => .of_whileLive (fun _ => rfl) ?ended,
    fun g => .of_whileLive (fun _ => rfl) ?releases, fun g => .of_whileLive (fun _ => rfl) ?retires,
    fun g u => .of_whileLive (fun _ => rfl) ?recorded, fun g => .of_whileLive (fun _ => rfl) ?completed⟩
  case homeRecord =>
    exact fun s ⟨free, ready, read, home⟩ =>
      (State.recordConsume_of_ready false free ready read).trans (congrArg (s.recordTaken q _ _) (State.recordRead_of_home home))
  case otherRecord =>
    exact fun s ⟨free, ready, read, populated, elsewhere⟩ =>
      (State.recordConsume_of_ready false free ready read).trans
        (congrArg (s.recordTaken q _ _) (State.recordRead_of_elsewhere populated elsewhere))
  case badRecord => exact fun s ⟨free, ready, read⟩ => State.recordConsume_of_ready true free ready read
  case passed =>
    exact fun s ⟨listed, consumed, held, legal, own, tokens, ⟨read, features⟩, passes, table⟩ =>
      (State.launchCheck_of_consumed listed consumed held).trans
        ((State.checkRec_of_legal legal own tokens read features).trans (State.checkHeader_of_passed passes table))
  case rejected =>
    exact fun s ⟨listed, consumed, held, legal, own, tokens, ⟨read, features⟩, fails⟩ =>
      (State.launchCheck_of_consumed listed consumed held).trans
        ((State.checkRec_of_legal legal own tokens read features).trans (State.checkHeader_of_rejected fails))
  case met => exact fun s ⟨listed, waiting, met⟩ => State.dependencesMet_of_satisfied listed waiting met
  case admitted => exact fun s ⟨listed, admitting, disjoint⟩ => State.slotAdmission_of_disjoint listed admitting disjoint
  case placed => exact fun s ⟨due, rank, turn, fits, unsaved⟩ => State.placement_of_new due rank turn fits unsaved
  case scheduled =>
    exact fun s ⟨listed, mine, fresh, unsaved, decided, features, schedule⟩ =>
      State.teamStart_of_scheduled listed mine fresh unsaved decided features schedule
  case badSchedule =>
    exact fun s ⟨listed, mine, fresh, unsaved, decided, features, schedule⟩ =>
      State.teamStart_of_badSchedule listed mine fresh unsaved decided features schedule
  case tableless =>
    exact fun s ⟨listed, resident, due, started, unwritten, unread, tableless⟩ =>
      State.fmtLoad_of_tableless listed due started resident unwritten unread tableless
  case tabled =>
    exact fun s ⟨listed, due, started, reader, resident, reading, flying, complete, good⟩ =>
      State.fmtLoad_of_read listed due started reader resident reading flying complete good
  case exited => exact fun s ⟨listed, ended, idle, released, written⟩ => State.teamExit_of_released listed ended idle released written
  case flushed => exact fun s ⟨listed, ended, idle, held, free⟩ => State.teamExit_of_regions listed ended idle held free
  case ended => exact fun s ⟨listed, mine, ending, running⟩ => State.gridEndRequest_of_ending listed mine ending running
  case releases =>
    exact fun s ⟨listed, drained, childless, unreleased⟩ => State.gridRetire_of_unreleased listed drained childless unreleased
  case retires =>
    exact fun s ⟨listed, drained, childless, released, topLevel, written⟩ =>
      State.gridRetire_of_released listed drained childless released topLevel written
  case recorded =>
    exact fun s ⟨listed, retired, childless, start, aligned, released, first⟩ =>
      State.completion_of_start listed retired childless released start aligned first
  case completed => exact fun s ⟨listed, retired, childless, done, released⟩ => State.completion_of_done listed retired childless released done

end Sys2Proof.Machine
end

section
/-!
PROOFS. Child launches, trigger levels, waits for grids and UCLOCK (R67, R69, R392 to R395).
-/

namespace Sys2Proof.Machine

/-- An instruction whose meaning is an issue takes the state that its body comes to. -/
theorem hasState_of_body {i : Instr} {x : Args} {body : Iss → State → Eff} {pre : State → Iss → Prop} {f : State → Iss → State}
    (arm : ∀ s, exec i s = s.issue i x body) (kept : isRetired i = false)
    (does : ∀ s n, n.act ≠ 0 → pre s n → body n s = { st := f s n }) : HasState i x pre f :=
  hasEffect_of_body arm kept fun s n _ active holds => ⟨does s n active holds, rfl⟩

/-- A gate that is passed answers true and its state. -/
theorem State.gate_of_passed {s : State} {n : Iss} {scope : Nat} (passed : (s.gate n scope).1 = true) :
    ∃ u, s.gate n scope = (true, u) ∧ (s.gate n scope).2 = u := ⟨_, Prod.ext passed rfl, rfl⟩

/-- Settles O20: in each clause the body of the instruction takes the branch that the clause names. -/
theorem launchEffects : Obligations.LaunchEffects := by
  unfold Obligations.LaunchEffects
  intro x
  dsimp only
  refine ⟨fun p e t c => hasState_of_body (fun s => show execUlaunch x s = _ from rfl) rfl ?launched,
    fun p => hasEffect_of_body (fun s => show execUlaunch x s = _ from rfl) rfl ?tooDeep,
    fun t c => hasState_of_body (fun s => show execUtrig x s = _ from rfl) rfl ?raised,
    hasState_of_body (fun s => show execUtrig x s = _ from rfl) rfl ?unraised,
    hasEffect_of_body (fun s => show execUtrig x s = _ from rfl) rfl ?illegal,
    hasState_of_body (fun s => show execUgwait x s = _ from rfl) rfl ?noToken,
    fun c => hasState_of_body (fun s => show execUgwait x s = _ from rfl) rfl ?finished,
    fun c k t => hasState_of_body (fun s => show execUgwait x s = _ from rfl) rfl ?waited,
    hasState_of_body (fun s => show execUclock x s = _ from rfl) rfl ?clock⟩
  case launched =>
    intro s n active ⟨parent, shallow, free, passed, resident, context⟩
    obtain ⟨u, gate, same⟩ := State.gate_of_passed passed
    rw [same] at resident context ⊢
    simp only [active, parent, Nat.not_le.2 shallow, free, gate, resident, context, if_false]
  case tooDeep =>
    intro s n _ active ⟨parent, deep⟩
    refine ⟨?_, rfl⟩
    simp only [active, parent, deep, if_false, if_true]
  case raised =>
    intro s n active ⟨least, most, passed, resident, context, below⟩
    obtain ⟨u, gate, same⟩ := State.gate_of_passed passed
    rw [same] at resident context ⊢
    have legal : ¬ (n.src32 s 0 x.a < 1 ∨ 15 < n.src32 s 0 x.a) := by omega
    simp only [active, legal, gate, resident, context, Nat.not_le.2 below, if_false]
  case unraised =>
    intro s n active ⟨least, most, passed, t, c, resident, context, reached⟩
    obtain ⟨u, gate, same⟩ := State.gate_of_passed passed
    rw [same] at resident context ⊢
    have legal : ¬ (n.src32 s 0 x.a < 1 ∨ 15 < n.src32 s 0 x.a) := by omega
    simp only [active, legal, gate, resident, context, reached, if_false, if_true]
  case illegal =>
    intro s n _ active outside
    have illegal : n.src32 s 0 x.a < 1 ∨ 15 < n.src32 s 0 x.a := by omega
    refine ⟨?_, rfl⟩
    simp only [active, illegal, if_false, if_true]
  case noToken =>
    intro s n active clear
    simp only [active, clear, Bool.not_false, if_false, if_true]
  case finished =>
    intro s n active ⟨handle, ended, fresh⟩
    simp only [active, handle, ended, Bool.not_true, Bool.false_eq_true, if_false]
    split
    case h_1 missing _ => cases missing
    case h_2 missing _ => cases missing
    case h_3 same _ =>
      cases same
      rfl
    case h_4 held =>
      split at held
      case h_1 context => exact absurd ⟨_, _, context, rfl⟩ fresh
      case h_2 => cases held
  case waited =>
    intro s n active ⟨handle, ended, context, held⟩
    cases k
    cases held
    simp only [active, handle, ended, context, Bool.not_true, Bool.false_eq_true, if_false]
  case clock =>
    intro s n active _
    simp only [active, if_false]

end Sys2Proof.Machine
end

section
/-!
PROOFS. The grids under the landing of results and the settling of speculation: no operation of these lists, removes or moves a grid, and only a
write of LEASE (R398) changes one.
-/

namespace Sys2Proof.Machine

/-! ## Operations that leave the grids alone -/

section
variable (s : State)

theorem State.foldl_grids {α : Type} {f : State → α → State} (kept : ∀ u a, (f u a).grids = u.grids) (l : List α) :
    (l.foldl f s).grids = s.grids :=
  List.foldlRecOn (motive := fun u => u.grids = s.grids) l f rfl fun u same a _ => (kept u a).trans same

/-- The same for a fold that answers a count too. -/
theorem State.foldl_pair_grids {α : Type} {f : Nat × State → α → Nat × State} (kept : ∀ u a, (f u a).2.grids = u.2.grids) (l : List α) (n : Nat) :
    (l.foldl f (n, s)).2.grids = s.grids :=
  List.foldlRecOn (motive := fun u => u.2.grids = s.grids) l f rfl fun u same a _ => (kept u a).trans same

@[simp] theorem State.setPart_grids (p : Nat) (x : Part) : (s.setPart p x).grids = s.grids := rfl
@[simp] theorem State.setLink_grids (n : Nat) (l : Link) : (s.setLink n l).grids = s.grids := rfl
@[simp] theorem State.setQueue_grids (q : Nat) (x : Queue) : (s.setQueue q x).grids = s.grids := rfl
@[simp] theorem State.setL1_grids (core line : Nat) (x : L1Line) : (s.setL1 core line x).grids = s.grids := rfl
@[simp] theorem State.dropL1_grids (core line : Nat) : (s.dropL1 core line).grids = s.grids := rfl
@[simp] theorem State.logStray_grids (pa : Nat) : (s.logStray pa).grids = s.grids := rfl
@[simp] theorem State.raiseClk_grids (g : Agent) (t : W32) : (s.raiseClk g t).grids = s.grids := s.updCtx_grids g _

/-! ### Requests, and the L1 -/

@[simp] theorem State.send_grids (src : Src) (core line : Nat) (key : BitVec 6) (part : Nat) (home2 : Bool) (c : W32) (kind : ReqKind)
    (awaits : List Await) : (s.send src core line key part home2 c kind awaits).grids = s.grids := rfl

@[simp] theorem State.writeBack_grids (core line : Nat) (mask : ByteMask) (clk : W32) (awaits : List Await) :
    (s.writeBack core line mask clk awaits).grids = s.grids := by
  unfold State.writeBack
  split <;> simp

@[simp] theorem State.countReq_grids (core kind : Nat) (issuer : W32) (pc cpc : W64) (csn : W32) (va : W64) (pa : Nat) :
    (s.countReq core kind issuer pc cpc csn va pa).grids = s.grids := by
  unfold State.countReq
  split
  · rfl
  · dsimp only
    split <;> rfl

@[simp] theorem State.countLane_grids (g : Agent) (kind : Nat) (va : W64) (pa : Nat) : (s.countLane g kind va pa).grids = s.grids := by
  unfold State.countLane
  split
  · rfl
  · split <;> simp

@[simp] theorem State.countFlush_grids (core line : Nat) : (s.countFlush core line).grids = s.grids := by
  unfold State.countFlush State.countFlushAt
  dsimp only
  split <;> simp

@[simp] theorem State.flushLine_grids (core line : Nat) (awaits : List Await) : (s.flushLine core line awaits).grids = s.grids := by
  unfold State.flushLine
  split
  · rfl
  · split <;> simp

@[simp] theorem State.releaseStart_grids (core : Nat) : (s.releaseStart core).grids = s.grids :=
  s.foldl_grids (fun u line => u.flushLine_grids core line [.evict]) _

@[simp] theorem State.releaseEnd_grids (g : Agent) (scope : Nat) : (s.releaseEnd g scope).grids = s.grids := by
  unfold State.releaseEnd
  split <;> simp

@[simp] theorem State.evictL1_grids (core line : Nat) : (s.evictL1 core line).grids = s.grids := by
  unfold State.evictL1
  split <;> simp [State.noteEvicted]

@[simp] theorem State.roomL1_grids (core line : Nat) : (s.roomL1 core line).grids = s.grids := by
  unfold State.roomL1
  split
  · rfl
  · dsimp only
    split
    · rfl
    · split <;> simp

@[simp] theorem State.takeL1_grids (core line : Nat) (key : BitVec 6) (part : Nat) (home2 : Bool) :
    (s.takeL1 core line key part home2).2.grids = s.grids := by
  unfold State.takeL1
  split
  · split <;> simp
  · simp

@[simp] theorem State.storeL1_grids (core line : Nat) (key : BitVec 6) (part : Nat) (home2 : Bool) (wclk : W32) (data : Line) (mask : ByteMask) :
    (s.storeL1 core line key part home2 wclk data mask).grids = s.grids := by simp [State.storeL1]

@[simp] theorem State.storePeerL1_grids (core line : Nat) (data : Line) (mask : ByteMask) :
    (s.storePeerL1 core line data mask).grids = s.grids := by
  unfold State.storePeerL1
  dsimp only
  split
  · split <;> rfl
  · rfl

/-! ### Windows and peers -/

@[simp] theorem State.leaveFar_grids (pa : Nat) (clk : W32) : (s.leaveFar pa clk).grids = s.grids := rfl

@[simp] theorem State.hostTxn_grids (w : Who) (pa n : Nat) (write fill : Bool) (data : BitVec 512) (atom : Option AtomOp) (await : Await) :
    (s.hostTxn w pa n write fill data atom await).grids = s.grids := rfl

@[simp] theorem State.rollWindow_grids : s.rollWindow.grids = s.grids := by
  unfold State.rollWindow
  dsimp only
  split
  · rfl
  · exact List.foldlRecOn (motive := fun u : State × Bool × Tab Belcy => u.1.grids = s.grids) s.belcy _ rfl fun u same e _ => by
      dsimp only
      split <;> exact same

@[simp] theorem State.noteSent_grids (core : Nat) : (s.noteSent core).grids = s.grids := by
  unfold State.noteSent
  split <;> rfl

@[simp] theorem State.sendPeer_grids (w : Who) (edge : W64) (pa n : Nat) (op : PeerOp) (await : Await) :
    (s.sendPeer w edge pa n op await).grids = s.grids := by
  unfold State.sendPeer State.sendPeerOn
  split
  · rfl
  · cases op <;> simp [State.admitBytes]

/-! ### Registers that a store writes -/

@[simp] theorem State.retime_grids (p : Nat) : (s.retime p).grids = s.grids := rfl
@[simp] theorem State.restartSamples_grids (p : Nat) : (s.restartSamples p).grids = s.grids := rfl
@[simp] theorem State.setLevel_grids (p cause level : Nat) : (s.setLevel p cause level).grids = s.grids := rfl

@[simp] theorem State.writePin_grids (n : Nat) (v : W64) : (s.writePin n v).grids = s.grids := by
  simp only [State.writePin, State.raiseStep, apply_ite State.grids, State.setLink_grids, ite_self]

@[simp] theorem State.writePart_grids (p off : Nat) (v : W64) : (s.writePart p off v).grids = s.grids := by
  unfold State.writePart State.writePart0
  dsimp only
  split <;> simp only [apply_ite State.grids, State.setPart_grids, State.retime_grids, State.restartSamples_grids, ite_self]

@[simp] theorem State.askPreempt_grids (t : Nat) : (s.askPreempt t).grids = s.grids := by
  unfold State.askPreempt
  split
  · rfl
  · split <;> rfl

@[simp] theorem State.goPreempt_grids (p : Nat) (minRank : BitVec 3) : (s.goPreempt p minRank).grids = s.grids := by
  unfold State.goPreempt
  split
  · rfl
  · exact s.foldl_grids (fun u t => u.askPreempt_grids t) _

@[simp] theorem State.writePreempt_grids (p : Nat) (v : W64) : (s.writePreempt p v).grids = s.grids := by
  unfold State.writePreempt
  dsimp only
  split <;> simp

@[simp] theorem State.regWrite_grids (r : Reg) (v : W64) : (s.regWrite r v).grids = s.grids := by
  cases r <;> simp [State.regWrite, State.writeKeyctl, State.postInval, State.writeSampctl, State.writeQ0, State.writeQ1, State.post,
    apply_ite State.grids]

@[simp] theorem State.regWriteBy_grids (r : Reg) (v : W64) : (s.regWriteBy r v).grids = s.grids := by
  unfold State.regWriteBy
  split <;> simp

/-! ### Held stores and the speculation window -/

@[simp] theorem State.storeSeg_grids (w : Who) (id lane : Nat) (pc : W64) (sg : Seg) (data : Nat) (rel : Bool) :
    (s.storeSeg w id lane pc sg data rel).2.grids = s.grids := by
  unfold State.storeSeg
  split
  · rfl
  · dsimp only
    split
    · split <;> simp
    all_goals simp

@[simp] theorem State.queueUnit_grids (team : Nat) (k : UnitKind) : (s.queueUnit team k).grids = s.grids := rfl
@[simp] theorem State.queueArray_grids (team : Nat) (op : ArrayOp) : (s.queueArray team op).grids = s.grids := rfl
@[simp] theorem State.passUses_grids (id first : Nat) : (s.passUses id first).grids = s.grids := rfl

@[simp] theorem State.storeSegs_grids (w : Who) (id lane : Nat) (pc : W64) (segs : List Seg) (data : Nat) (rel : Bool) :
    (s.storeSegs w id lane pc segs data rel).2.grids = s.grids := by
  unfold State.storeSegs
  split
  · simp
  · exact s.foldl_grids (fun u _ => u.queueUnit_grids _ _) _

@[simp] theorem State.queuePieces_grids (team : Nat) (op : ArrayOp) : (s.queuePieces team op).2.grids = s.grids := by
  unfold State.queuePieces
  refine s.foldl_pair_grids (fun u piece => ?_) _ 0
  rfl

@[simp] theorem State.commitStore_grids (w : Who) (id : Nat) (pc : W64) (h : HeldStore) : (s.commitStore w id pc h).2.grids = s.grids := by
  unfold State.commitStore
  split <;> simp

@[simp] theorem State.commitEntry_grids (w : Nat) (e : SpecEntry) : (s.commitEntry w e).grids = s.grids := by
  unfold State.commitEntry
  dsimp only
  rw [apply_ite State.grids, State.updWarp_grids, ite_self]
  split
  · rfl
  · split
    · rfl
    · simp only [State.passUses_grids, State.updCtx_grids]
      refine State.foldl_pair_grids _ (fun u h => ?_) _ 0
      exact u.2.commitStore_grids ..

@[simp] theorem State.entryRelease_grids (w : Nat) (e : SpecEntry) : (s.entryRelease w e).2.grids = s.grids := by
  unfold State.entryRelease
  split
  · rfl
  · simp only [apply_ite Prod.snd, apply_ite State.grids, State.releaseEnd_grids, State.releaseStart_grids, State.updWarp_grids, ite_self]

@[simp] theorem State.commit_grids (w fuel : Nat) : (s.commit w fuel).grids = s.grids := by
  induction fuel generalizing s with
  | zero => rfl
  | succ k rest =>
    unfold State.commit
    split
    case h_2 => rfl
    case h_1 =>
      split
      case h_2 => rfl
      case h_1 e _ _ =>
        have released := s.entryRelease_grids w e
        split
        · rfl
        split
        · rfl
        split
        · rfl
        split
        case h_1 u waits => simpa [waits] using released
        case h_2 u done => simpa [done, rest] using released

@[simp] theorem State.resolveBranches_grids (w : Nat) : (s.resolveBranches w).grids = s.grids := by
  unfold State.resolveBranches
  split
  · rfl
  · refine s.foldl_grids (fun u e => ?_) _
    dsimp only
    repeat' split
    all_goals rfl

@[simp] theorem State.settleSpec_grids (w : Nat) : (s.settleSpec w).grids = s.grids := by
  unfold State.settleSpec
  split
  · rfl
  · split <;> simp

end

/-! ## Every grid stays in its partition -/

/-- The partition of the grid of an entry. -/
def State.gridPart (s : State) (e : Nat) : Option Nat := (s.grid e).map (·.part)

section
variable (s : State)

theorem State.gridPart_of_grids {s u : State} (same : u.grids = s.grids) : u.gridPart = s.gridPart := by
  funext e
  simp only [State.gridPart, State.grid, same]

theorem State.foldl_gridPart {α : Type} {f : State → α → State} (kept : ∀ u a, (f u a).gridPart = u.gridPart) (l : List α) :
    (l.foldl f s).gridPart = s.gridPart :=
  List.foldlRecOn (motive := fun u => u.gridPart = s.gridPart) l f rfl fun u same a _ => (kept u a).trans same

theorem State.updGrid_gridPart (e : Nat) {f : Grid → Grid} (kept : ∀ g, (f g).part = g.part) : (s.updGrid e f).gridPart = s.gridPart := by
  funext k
  simp only [State.gridPart, State.grid, State.updGrid_grids, Tab.find_upd]
  split
  · rw [Option.map_map]
    exact congrArg (fun h => (Tab.find s.grids k).map h) (funext kept)
  · rfl

theorem State.updCtx_gridPart (g : Agent) (f : Ctx → Ctx) : (s.updCtx g f).gridPart = s.gridPart :=
  State.gridPart_of_grids (s.updCtx_grids g f)
theorem State.settleSpec_gridPart (w : Nat) : (s.settleSpec w).gridPart = s.gridPart := State.gridPart_of_grids (s.settleSpec_grids w)

theorem State.writeSr_gridPart (g : Agent) (lane idx : Nat) (v : W64) : (s.writeSr g lane idx v).gridPart = s.gridPart := by
  unfold State.writeSr
  split
  · rfl
  · split
    case h_1 => split <;> rfl
    case h_2 => exact s.updCtx_gridPart g _
    case h_4 => exact s.updCtx_gridPart g _
    case h_6 =>
      split
      · exact s.updGrid_gridPart _ fun _ => rfl
      · rfl
    all_goals rfl

theorem State.putReg_gridPart (g : Agent) (spec : Option Nat) (w : RegWrite) : (s.putReg g spec w).gridPart = s.gridPart := by
  unfold State.putReg
  split
  · exact s.writeSr_gridPart ..
  · rfl
  · split <;> rfl

theorem State.putRegs_gridPart (g : Agent) (spec : Option Nat) (ws : List RegWrite) : (s.putRegs g spec ws).gridPart = s.gridPart :=
  s.foldl_gridPart (fun u w => u.putReg_gridPart g spec w) ws

theorem State.landIn_gridPart (g : Agent) (lanes : Mask) : (s.landIn g lanes).gridPart = s.gridPart := by
  unfold State.landIn
  split
  · rfl
  · refine (State.updCtx_gridPart _ g _).trans (s.foldl_gridPart (fun u l => ?_) _)
    exact u.putRegs_gridPart ..

theorem State.landWarp_gridPart (w : Nat) (due : List Landing) : (s.landWarp w due).gridPart = s.gridPart := by
  induction due generalizing s with
  | nil => exact s.settleSpec_gridPart w
  | cons l r rest =>
    unfold State.landWarp
    dsimp only
    rw [rest, apply_ite State.gridPart, State.settleSpec_gridPart, ite_self]
    split
    · rfl
    · split
      · rfl
      · exact (State.putRegs_gridPart ..).trans (s.updCtx_gridPart ..)

theorem State.land_gridPart (g : Agent) : (s.land g).gridPart = s.gridPart := by
  unfold State.land
  split
  · exact s.landIn_gridPart ..
  · split
    · rfl
    · exact s.landWarp_gridPart ..

/-- Where a safe point is taken, only the agent that takes it changes. -/
theorem State.takeSafe_gridPart {g : Agent} {i : Nat} {u : State} (taken : s.takeSafe g i = some u) : u.gridPart = s.gridPart := by
  unfold State.takeSafe at taken
  repeat' split at taken
  all_goals cases taken <;> rfl

theorem State.safePointTake_gridPart (g : Agent) : (s.safePointTake g).gridPart = s.gridPart := by
  unfold State.safePointTake
  dsimp only
  split
  · exact s.land_gridPart g
  · rename_i k _
    cases taken : (s.land g).takeSafe g k with
    | none => exact s.land_gridPart g
    | some u => exact ((s.land g).takeSafe_gridPart taken).trans (s.land_gridPart g)

end

end Sys2Proof.Machine
end

section
/-!
PROOFS. Pre-emption (R77 to R84): what each of its events does in the states where it has an effect.
-/

namespace Sys2Proof.Machine

section
variable {s : State} {t : Nat} {x : Team}

/-! ## Rank pressure (R77) -/

/-- One team of a request of rank pressure for a grid: it is asked to save, unless a request for it is in progress. -/
def State.askFor (s : State) (e t : Nat) : State :=
  (s.team t).elim s (fun x => if x.asked then s else (s.askPreempt t).updTeam t (fun x => { x with reqRank := some e }))

/-- The launch front notes that a team of a grid is to be placed first. -/
def State.notePressure (s : State) (team : Nat × Nat) : State :=
  { s with pressure := if s.pressure.contains team then s.pressure else s.pressure ++ [team] }

theorem State.rankPressure_of_roomless {e n l at_ : Nat} {ls : List Nat} {g : Grid} (listed : s.grid e = some g) (next : s.nextTeam g = some n)
    (roomless : g.roomless = some at_) (late : at_ + 10 * usec ≤ s.time)
    (unasked : s.teams.any (fun o => o.2.reqRank == some e && o.2.preempt != .none) = false) (single : g.rec_.cluster = false)
    (fewest : shortest ((s.coresOf g.part).filterMap (fun c => s.fewestOn g.part c g)) = some (l :: ls)) :
    s.rankPressure e = ((dedup ((l :: ls).flatMap (fun t => s.group t))).foldl (fun u t => u.askFor e t) s).notePressure (g.order, n) := by
  simp only [State.rankPressure, listed, next, roomless, late, unasked, single, fewest, decide_true, Bool.not_true, Bool.or_false,
    Bool.false_eq_true, if_false]
  refine congrArg (State.notePressure · (g.order, n)) (List.foldl_ext _ _ s fun u t _ => ?_)
  unfold State.askFor
  cases u.team t <;> rfl

/-! ## Save areas and multicasts (R78 steps 1 and 2) -/

theorem State.areaRetry_of_due {at_ : Nat} (listed : s.team t = some x) (abandoned : x.preempt = .retry at_) (due : at_ ≤ s.time) :
    s.areaRetry t = (s.updTeam t (fun x => { x with preempt := .none })).askPreempt t := by
  cases x
  cases abandoned
  simp only [State.areaRetry, listed, due, if_true]

/-- A team whose cluster's multicasts have drained waits for its agents. -/
def Team.toPoints (x : Team) : Team := match x.preempt with | .drain b dead => { x with preempt := .points b dead } | _ => x

theorem State.drainDone_of_drained (listed : s.team t = some x)
    (drained : ∀ c ∈ s.cmds, c.core / 4 ≠ t / 32 ∨ Desc.mcast c.desc = 0 ∨ x.reqMark ≤ c.id) :
    s.drainDone t = s.updTeam t Team.toPoints := by
  have idle : s.cmds.any (fun c => c.core / 4 == t / 32 && Desc.mcast c.desc != 0 && decide (c.id < x.reqMark)) = false := by
    refine List.any_eq_false.2 fun c mem => ?_
    obtain elsewhere | single | younger := drained c mem
    · simp [elsewhere]
    · simp [single]
    · simp [younger]
  simp only [State.drainDone, listed, idle, Bool.false_eq_true, if_false]
  rfl

/-! ## Safe points (R78 steps 3 and 4, R79) -/

/-- A warp whose live lanes all stand at one address stands at the safe point that its instruction is. -/
theorem State.safeAt_of_gathered {k e : Nat} {w : Who} {y : Warp} {pc : W64} {i : Instr} (resident : s.who (.warp e) = some w)
    (listed : s.warp e = some y) (live : y.live ≠ 0) (unparked : y.parked = 0) (gathered : ∀ j ∈ lanesOf y.live, s.pcOf (.warp e) j = pc)
    (lowest_ : s.pcOf (.warp e) (lowest y.live) = pc) (unforced : y.ctx.forced = false) (unsaved : y.ctx.saved = false)
    (word : s.instrAt w pc = some i) (point : s.safeHere (.warp e) i = some k) : s.safeAt (.warp e) = some k := by
  have context : s.ctx (.warp e) = some y.ctx := by simp only [State.ctx, listed, Option.map_some]
  have together : (y.live != 0 && y.parked == 0 && (lanesOf y.live).all (fun j => s.pcOf (.warp e) j == pc)) = true := by
    simp only [Bool.and_eq_true, bne_iff_ne, beq_iff_eq, List.all_eq_true]
    exact ⟨⟨live, unparked⟩, gathered⟩
  simp only [State.safeAt, resident, listed, lowest_, together, context, unforced, unsaved, word, point, Bool.or_false, Bool.false_eq_true,
    if_false, if_true, Option.bind_some]

theorem State.safePointTake_of_taken {g : Agent} {k : Nat} {u : State} (stands : (s.land g).safeAt g = some k)
    (taken : (s.land g).takeSafe g k = some u) : s.safePointTake g = u := by
  simp only [State.safePointTake, stands, taken, Option.getD_some]

/-! ## The deadline (R78, R80) -/

/-- The agents of a team that stand at a safe point have taken it. -/
def State.pointsTaken (s : State) (x : Team) : State := (s.unsaved x).foldl (fun u g => u.safePointTake g) s

/-- The agents of team t that have not begun their save routine then. -/
def State.leftOver (s : State) (t : Nat) (x : Team) : List Agent := (s.pointsTaken x).unsaved (((s.pointsTaken x).team t).getD x)

/-- The partition of the grid of an entry, 0 where none is listed. -/
def State.partOfGrid (s : State) (e : Nat) : Nat := match s.grid e with | some g => g.part | none => 0

theorem State.partOfGrid_eq (s : State) (e : Nat) : s.partOfGrid e = (s.gridPart e).getD 0 := by
  unfold State.partOfGrid State.gridPart
  cases s.grid e <;> rfl

theorem State.partOfGrid_pointsTaken (s : State) (x : Team) (e : Nat) : (s.pointsTaken x).partOfGrid e = s.partOfGrid e := by
  have kept : (s.pointsTaken x).gridPart = s.gridPart := s.foldl_gridPart State.safePointTake_gridPart _
  rw [State.partOfGrid_eq, kept, State.partOfGrid_eq]

theorem State.deadline_of_due {b : W64} {dead : Nat} (listed : s.team t = some x) (waits : x.preempt = .points b dead) (due : dead ≤ s.time)
    (started : x.started = true) (control : x.ct.halted = false) (running : ∀ w ∈ x.warps, ∀ y, s.warp w = some y → y.halted = 0) :
    s.deadline t =
      let u := (s.leftOver t x).foldl (fun u g => u.forceSave g) (s.pointsTaken x)
      let p := s.partOfGrid x.grid
      u.setPart p { u.part p with forcedN := (u.part p).forcedN + (s.leftOver t x).length } := by
  rw [← s.partOfGrid_pointsTaken x]
  simp only [State.deadline, listed, waits]
  refine (if_neg ?_).trans rfl
  simp only [started, control, Nat.not_lt.2 due, decide_false, Bool.not_true, Bool.false_or, Bool.or_false, Bool.not_eq_true, List.any_eq_false]
  intro w mem
  cases resident : s.warp w with
  | none => simp
  | some y => simp [running w mem y resident]

/-! ## The hardware save and the restore (R78 steps 5 and 6, R80 to R82) -/

theorem State.hardwareSave_of_saved {y : Team} {g : Grid} {b : W64} {dead : Nat} (listed : s.team t = some x) (waits : x.preempt = .points b dead)
    (mine : s.grid x.grid = some g) (taken : (s.takeForced x).team t = some y) (running : y.over = false) (started : y.started = true)
    (saved : (s.takeForced x).allSaved y = true) (drained : (s.takeForced x).enginesDrained t y = true)
    (clean : ∀ r ∈ y.regions, r.2.dirty = []) :
    s.hardwareSave t = ((s.takeForced x).releaseStart y.core).updTeam t (fun x => { x with preempt := .writeBack b }) := by
  have settled : y.regions.any (fun r => !r.2.dirty.isEmpty) = false := List.any_eq_false.2 fun r mem => by simp [clean r mem]
  simp only [State.hardwareSave, listed, waits, mine, taken, running, started, saved, drained, settled, Bool.not_true, Bool.or_false,
    Bool.false_eq_true, if_false]

theorem State.hardwareSave_of_written {g : Grid} {b : W64} (listed : s.team t = some x) (writes : x.preempt = .writeBack b)
    (mine : s.grid x.grid = some g) (written : s.wbInFlight x.core = false)
    (mapped : s.areaWait g x.core b (4096 + g.rec_.scratch + (x.warps.length + 1) * g.areaSize) = none) : s.hardwareSave t = s.saveTeam t x g b := by
  simp only [State.hardwareSave, listed, writes, mine, written, mapped, Bool.false_eq_true, if_false]

theorem State.teamRestore_of_returning {e k : Nat} {g : Grid} {y : SavedTeam} {scr : Mem} {u : State} (listed : s.grid e = some g)
    (returns : s.returning g = some (y, k)) (placed : s.team k = some x) (locks : s.locksFit (s.backLocks k y) = true)
    (read : s.readArea g x.core y.area y.team.scr = .ok (scr, u)) (features : s.featWait g.asid = none) :
    s.teamRestore e = u.bringBack e g y k x scr := by
  simp only [State.teamRestore, listed, returns, placed, locks, read, features, Bool.not_true, Bool.false_eq_true, if_false]

end

/-- Settles O32: each event does its operation, by the equation of the operation in the case that the clause names. A deadline counts the agents
that it forces in the partition of the team's grid, which stays the same while the agents take their safe points. -/
theorem preemptionEvents : Obligations.PreemptionEvents := by
  unfold Obligations.PreemptionEvents
  intro t e p base minRank hold
  refine ⟨fun g n l ls => .of_whileLive (fun _ => rfl) ?pressure, .of_whileLive (fun _ => rfl) ?supplied,
    fun x at_ => .of_whileLive (fun _ => rfl) ?retry, fun x => .of_whileLive (fun _ => rfl) ?drained,
    fun w y pc i k u => .of_whileLive (fun _ => rfl) ?taken, fun x b dead => .of_whileLive (fun _ => rfl) ?deadline,
    fun x y g b dead => .of_whileLive (fun _ => rfl) ?saved, fun x g b => .of_whileLive (fun _ => rfl) ?written,
    fun g y k x scr u => .of_whileLive (fun _ => rfl) ?restored, .of_whileLive (fun _ => rfl) ?go, .of_whileLive (fun _ => rfl) ?held⟩
  case pressure =>
    exact fun s ⟨listed, next, ⟨_, roomless, late⟩, unasked, single, fewest⟩ =>
      State.rankPressure_of_roomless listed next roomless late unasked single fewest
  case supplied => exact fun s _ => by cases base <;> rfl
  case retry => exact fun s ⟨listed, abandoned, due⟩ => State.areaRetry_of_due listed abandoned due
  case drained => exact fun s ⟨listed, drained⟩ => State.drainDone_of_drained listed drained
  case taken =>
    exact fun s ⟨resident, listed, live, unparked, gathered, lowest_, unforced, unsaved, word, point, taken⟩ =>
      State.safePointTake_of_taken
        (State.safeAt_of_gathered resident listed live unparked gathered lowest_ unforced unsaved word point) taken
  case deadline =>
    exact fun s ⟨listed, waits, due, started, control, running⟩ => State.deadline_of_due listed waits due started control running
  case saved =>
    exact fun s ⟨listed, waits, mine, taken, running, started, saved, drained, clean⟩ =>
      State.hardwareSave_of_saved listed waits mine taken running started saved drained clean
  case written => exact fun s ⟨listed, writes, mine, written, mapped⟩ => State.hardwareSave_of_written listed writes mine written mapped
  case restored =>
    exact fun s ⟨listed, returns, placed, locks, read, features⟩ => State.teamRestore_of_returning listed returns placed locks read features
  case go => exact fun s idle => if_neg (by simp [idle])
  case held => exact fun s _ => rfl

end Sys2Proof.Machine
end

section
/-!
PROOFS. The step (R74, R86, R246, R257): from the word at an agent's program counter to what its agent could do, the decision that picks it, the
beginning of its issue, and the step that runs it.
-/

namespace Sys2Proof.Machine

theorem readWord_of_decode {word : BitVec 208} {i : Instr} (decoded : decode word = .ok i) : readWord word = some i := by
  unfold decode at decoded
  cases read : readWord word with
  | none => simp [read] at decoded
  | some j =>
    simp only [read] at decoded
    split at decoded
    · exact congrArg some (Except.ok.inj decoded)
    · cases decoded

section
variable {s : State}

/-! ## What an agent could do (R74, R246, R257) -/

/-- An agent at an instruction that nothing holds could issue it. -/
theorem State.lookAt_of_decode {w : Who} {c : Ctx} {pc : W64} {lanes : Mask} {word : BitVec 208} {i : Instr}
    (fetched : s.codeWord w.core w.asid pc = .ok word) (decoded : decode word = .ok i) (gap : c.gapUntil ≤ s.cycle w.core)
    (tags : c.tagWait i = false) (open_ : w.handler = true ∨ s.privByte w.core w.asid pc = none)
    (counter : s.counterHeld w.g c lanes i = false) (queue : s.queueFull w.g i = false) (unit : (isTrans i && s.unitBusy w.g) = false)
    (free : s.specStops w.g lanes i (never (ctlOfInstr i)) = false) : s.lookAt w c pc lanes = .go pc lanes (some i) (lengthOf word) := by
  have allowed : (!w.handler && (s.privByte w.core w.asid pc).isSome) = false := by
    obtain handler | unprivileged := open_
    · simp [handler]
    · simp [unprivileged]
  simp only [State.lookAt, fetched, allowed, if_neg (Nat.not_lt.2 gap), readWord_of_decode decoded, tags, counter, queue, unit, free,
    Bool.or_false, Bool.false_eq_true, if_false]

/-- A warp that could issue, and has not issued in this cycle, is a candidate with what it could issue. -/
theorem State.candOf_of_go {k : Nat} {y : Warp} {c : Ctx} {pc : W64} {lanes : Mask} {i : Option Instr} {len : Nat} (resident : s.warp k = some y)
    (context : s.ctx (.warp k) = some c) (could : s.look (.warp k) = .go pc lanes i len) (fresh : y.issuedAt ≠ s.cycle (k / 128) + 1) :
    ∃ q, s.candOf (.warp k) = some q ∧ q.g = .warp k ∧ q.e = y.pool y.open_ ∧ q.pc = pc ∧ q.lanes = lanes ∧ q.i = i ∧ q.len = len := by
  have unissued : (y.issuedAt == s.cycle (agentCore (.warp k)) + 1) = false := beq_eq_false_iff_ne.2 fresh
  simp only [State.candOf, context, could, resident, unissued, Bool.false_eq_true, if_false]
  exact ⟨_, rfl, rfl, rfl, rfl, rfl, rfl, rfl⟩

/-! ## The decision and the issue that it begins (R74, R86) -/

/-- With no fetch to do, the first candidate that fits has its issue begun. -/
theorem State.portTurn_of_pick {gs : List Agent} {fits : Cand → Bool} {q : Cand} (fetched : s.fetchOne gs = none)
    (pick : firstCand ((gs.filterMap (fun g => s.candOf g)).filter fits) = some q) :
    let u := s.noteReady gs ((gs.filterMap (fun g => s.candOf g)).map (·.g))
    s.portTurn gs true fits = (u, some (u.issueAt q.g q.e q.pc q.lanes q.i q.len false)) := by
  simp only [State.portTurn, fetched, pick, Bool.not_true, Bool.false_eq_true, if_false]

theorem State.begin_cur (s : State) (g : Agent) (e : Mask) (pc : W64) (lanes : Mask) (len : Nat) (one : Bool) :
    (s.begin_ g e pc lanes len one).cur = { agent := some g, pc := pc, len := len, lanes := lanes, step := one } := by cases g <;> rfl

/-- Where no breakpoint fires, the issue of an instruction runs it. -/
theorem State.issueAt_runs {g : Agent} {w : Who} {pc : W64} {one : Bool} (resident : s.who g = some w) (e lanes : Mask) (i : Instr) (len : Nat)
    (unbroken : one = true ∨ s.bpAt w.asid pc = none) :
    s.issueAt g e pc lanes (some i) len one = .run i (s.begin_ g e pc lanes len one) := by
  have quiet : ∀ again : Bool, (if (one || again) = true then none else s.bpAt w.asid pc) = none := by
    intro again
    obtain stepped | clear := unbroken
    · simp [stepped]
    · simp [clear]
  simp only [State.issueAt, resident, quiet]

/-! ## The step -/

variable {u v : State} {i : Instr}

theorem State.debugTurn_of_undebugged (undebugged : s.dbgrun = none) : s.debugTurn = (s, none) := by simp only [State.debugTurn, undebugged]

theorem State.plan_of_listed {m : Move} {rest : List Move} (undebugged : s.dbgrun = none) (listed : s.moves = m :: rest) :
    s.plan = s.listedMove m rest := by
  simp only [State.plan, State.debugTurn_of_undebugged undebugged, ite_self, listed]

theorem State.plan_of_unlisted (undebugged : s.dbgrun = none) (unlisted : s.moves = []) : s.plan = s.defaultTurn := by
  simp only [State.plan, State.debugTurn_of_undebugged undebugged, ite_self, unlisted]

theorem State.plan_of_slot {core slot : Nat} {rest : List Move} (live : s.live = true) (undebugged : s.dbgrun = none)
    (next : s.moves = .slot core slot :: rest) (early : s.turn ≠ .late) (real : slot < 8)
    (runs : ({ s with moves := rest, turn := .place 0 } : State).placeTurn (9 * core + slot) = (u, some (.run i v))) : s.plan = .run i v := by
  have liveToo : ({ s with moves := rest, turn := .place 0 } : State).live = true := live
  simp only [State.plan_of_listed undebugged next, State.listedMove, State.move, live, liveToo, early, real, runs, Bool.not_true,
    Bool.false_eq_true, if_false, if_true, decide_true, Bool.and_self]

theorem State.plan_of_place {n p : Nat} {rest : List Nat} (live : s.live = true) (undebugged : s.dbgrun = none) (unlisted : s.moves = [])
    (turn : s.turn = .place n) (next : s.placesFrom n = p :: rest) (runs : s.placeTurn p = (u, some (.run i v))) :
    s.plan = .run i { v with turn := .place p } := by
  simp only [State.plan_of_unlisted undebugged unlisted, State.defaultTurn, turn, live, if_true, next, State.scan, runs]

section
variable (planned : s.plan = .run i u)
include planned

theorem step_of_next {t : State} (goes : exec i u = .next t) : step s = .next (s.after u i t) := by simp only [step, planned, goes]

theorem step_of_fault {f : Fault} (faults : exec i u = .fault f) : step s = .fault f := by simp only [step, planned, faults]

theorem step_of_refused {r : Refusal} (refuses : exec i u = .refused r) : step s = .refused r := by simp only [step, planned, refuses]

end

end

/-- Settles O56: the links from the word to the step, one by one. -/
theorem stepRunsDecoded : Obligations.StepRunsDecoded := by
  unfold Obligations.StepRunsDecoded
  refine ⟨?look, ?candidate, ?pick, ?begins, ?slot, ?place, ?runs⟩
  case look =>
    exact fun s w c pc lanes word i fetched decoded gap tags open_ counter queue unit free =>
      State.lookAt_of_decode fetched decoded gap tags open_ counter queue unit free
  case candidate => exact fun s k y c pc lanes i len resident context could fresh => State.candOf_of_go resident context could fresh
  case pick => exact fun s gs fits q fetched pick => ⟨_, State.portTurn_of_pick fetched pick, rfl⟩
  case begins =>
    exact fun s g w e pc lanes i len one resident unbroken =>
      ⟨State.issueAt_runs resident e lanes i len unbroken, s.begin_cur g e pc lanes len one⟩
  case slot =>
    exact fun s u v core slot rest i live undebugged next early real runs => State.plan_of_slot live undebugged next early real runs
  case place =>
    exact fun s u v n p rest i live undebugged unlisted turn next runs => State.plan_of_place live undebugged unlisted turn next runs
  case runs => exact fun s u i planned => ⟨fun t => step_of_next planned, fun f => step_of_fault planned, fun r => step_of_refused planned⟩

end Sys2Proof.Machine
end

section
/-!
PROOFS. Issue decisions (R86) and YIELD (R87): the lanes that a decision chooses from, the least address among them, and what an issue leaves of
the record of its warp.
-/

namespace Sys2Proof.Machine

/-! ## Sets of lanes -/

theorem getLsbD_laneBit (j i : Nat) : (laneBit j).getLsbD i = (decide (i < 128) && decide (j = i)) := by
  rw [laneBit, BitVec.getLsbD_ofNat, Nat.testBit_two_pow]

theorem getLsbD_foldl_laneBit (l : List Nat) (m : Mask) (i : Nat) :
    (l.foldl (fun m j => m ||| laneBit j) m).getLsbD i = true ↔ m.getLsbD i = true ∨ i < 128 ∧ i ∈ l := by
  induction l generalizing m with
  | nil => simp
  | cons j r ih =>
    simp only [List.foldl_cons, ih, BitVec.getLsbD_or, getLsbD_laneBit, Bool.or_eq_true, Bool.and_eq_true, decide_eq_true_eq, List.mem_cons]
    rw [or_assoc, ← and_or_left, @eq_comm _ j i]

theorem getLsbD_maskOf {l : List Nat} {i : Nat} : (maskOf l).getLsbD i = true ↔ i < 128 ∧ i ∈ l :=
  (getLsbD_foldl_laneBit l 0 i).trans (by simp)

theorem nodup_lanesOf (m : Mask) : (lanesOf m).Nodup := List.nodup_range.filter _

theorem lanesOf_eq_nil {m : Mask} : lanesOf m = [] ↔ m = 0 := by
  constructor
  · intro none_
    refine BitVec.eq_of_getLsbD_eq fun j _ => ?_
    have : j ∉ lanesOf m := by simp [none_]
    simpa using this
  · rintro rfl
    exact List.eq_nil_iff_forall_not_mem.2 (by simp)

/-! ## The issue decision (R86) -/

/-- The earliest of some addresses. -/
def leastPc (pc : Nat → W64) (a : W64) (ls : List Nat) : W64 := ls.foldl (fun a i => if (pc i).toNat < a.toNat then pc i else a) a

theorem leastPc_mem (pc : Nat → W64) (a : W64) (ls : List Nat) : leastPc pc a ls = a ∨ ∃ i ∈ ls, pc i = leastPc pc a ls := by
  induction ls generalizing a with
  | nil => exact .inl rfl
  | cons i r ih =>
    rw [leastPc, List.foldl_cons, ← leastPc]
    rcases ih (if (pc i).toNat < a.toNat then pc i else a) with first | ⟨k, mem, at_⟩
    · rw [first]
      split
      · exact .inr ⟨i, by simp, rfl⟩
      · exact .inl rfl
    · exact .inr ⟨k, by simp [mem], at_⟩

theorem leastPc_le (pc : Nat → W64) (a : W64) (ls : List Nat) :
    (leastPc pc a ls).toNat ≤ a.toNat ∧ ∀ i ∈ ls, (leastPc pc a ls).toNat ≤ (pc i).toNat := by
  induction ls generalizing a with
  | nil => simp [leastPc]
  | cons i r ih =>
    rw [leastPc, List.foldl_cons, ← leastPc]
    obtain ⟨first, rest⟩ := ih (if (pc i).toNat < a.toNat then pc i else a)
    have both : (if (pc i).toNat < a.toNat then pc i else a).toNat ≤ a.toNat ∧ (if (pc i).toNat < a.toNat then pc i else a).toNat ≤ (pc i).toNat := by
      split <;> omega
    refine ⟨first.trans both.1, fun k mem => ?_⟩
    rcases List.mem_cons.1 mem with rfl | mem
    · exact first.trans both.2
    · exact rest k mem

section
variable {x : Warp} {e : Mask}

theorem Warp.pool_eq : x.pool e = if e &&& ~~~x.deferred ≠ 0 then e &&& ~~~x.deferred else e := by simp only [Warp.pool, bne_iff_ne]

theorem Warp.pool_eq_zero : x.pool e = 0 ↔ e = 0 := by
  rw [Warp.pool_eq]
  split
  case isTrue some_ => exact ⟨fun none_ => absurd none_ some_, fun none_ => absurd (by simp [none_]) some_⟩
  case isFalse => rfl

/-- A lane has been left out of 4,096 decisions. -/
def Warp.starves (x : Warp) (j : Nat) : Prop := 4096 ≤ Tab.get 0 x.starve j

/-- The lanes whose addresses a decision compares: the starving ones of those that it chooses from, where there is one. -/
def Warp.rivals (x : Warp) (e : Mask) : List Nat :=
  let lanes := lanesOf (x.pool e)
  let hungry := lanes.filter (fun j => 4096 ≤ Tab.get 0 x.starve j)
  if hungry.isEmpty then lanes else hungry

theorem Warp.mem_rivals {j : Nat} : j ∈ x.rivals e ↔
    (x.pool e).getLsbD j = true ∧ ((∃ k, (x.pool e).getLsbD k = true ∧ x.starves k) → x.starves j) := by
  have hungry {k : Nat} : k ∈ (lanesOf (x.pool e)).filter (fun j => 4096 ≤ Tab.get 0 x.starve j) ↔ (x.pool e).getLsbD k = true ∧ x.starves k := by
    simp [Warp.starves]
  unfold Warp.rivals
  dsimp only
  split
  case isTrue none_ =>
    have fed : ¬ ∃ k, (x.pool e).getLsbD k = true ∧ x.starves k := by
      rintro ⟨k, starving⟩
      simpa [List.isEmpty_iff.1 none_] using hungry.2 starving
    simp [fed]
  case isFalse some_ =>
    obtain ⟨k, starving⟩ := List.exists_mem_of_ne_nil _ (mt List.isEmpty_iff.2 some_)
    have starved : ∃ k, (x.pool e).getLsbD k = true ∧ x.starves k := ⟨k, hungry.1 starving⟩
    simp only [hungry, starved, forall_const]

theorem Warp.rivals_eq_nil : x.rivals e = [] ↔ e = 0 := by
  rw [← Warp.pool_eq_zero (x := x), ← lanesOf_eq_nil]
  unfold Warp.rivals
  dsimp only
  split
  case isTrue => rfl
  case isFalse some_ => exact ⟨fun none_ => absurd (by simp [none_]) some_, fun none_ => by simp [none_]⟩

theorem Warp.decide_eq_none : x.decide e = none ↔ e = 0 := by
  rw [← Warp.rivals_eq_nil (x := x)]
  unfold Warp.decide
  change (match x.rivals e with | [] => none | j :: r => _) = none ↔ _
  cases x.rivals e <;> simp

/-- What a decision takes: the earliest address of the lanes that it compares, and all lanes that it chooses from at that address. -/
theorem Warp.decide_eq_some {a : W64} {m : Mask} (decided : x.decide e = some (a, m)) :
    (∃ j ∈ x.rivals e, Tab.get 0 x.lpc j = a) ∧ (∀ j ∈ x.rivals e, a.toNat ≤ (Tab.get 0 x.lpc j).toNat) ∧
    ∀ j, m.getLsbD j = ((x.pool e).getLsbD j && Tab.get 0 x.lpc j == a) := by
  unfold Warp.decide at decided
  change (match x.rivals e with | [] => none | j :: r => _) = _ at decided
  cases rivals : x.rivals e with
  | nil => simp [rivals] at decided
  | cons j r =>
    rw [rivals] at decided
    obtain ⟨rfl, rfl⟩ := Prod.mk.inj (Option.some.inj decided)
    change (∃ i ∈ j :: r, Tab.get 0 x.lpc i = leastPc (Tab.get 0 x.lpc) (Tab.get 0 x.lpc j) r) ∧
      (∀ i ∈ j :: r, (leastPc (Tab.get 0 x.lpc) (Tab.get 0 x.lpc j) r).toNat ≤ (Tab.get 0 x.lpc i).toNat) ∧ _
    refine ⟨?_, ?_, fun i => ?_⟩
    · rcases leastPc_mem (Tab.get 0 x.lpc) (Tab.get 0 x.lpc j) r with first | ⟨i, mem, at_⟩
      · exact ⟨j, by simp, first.symm⟩
      · exact ⟨i, by simp [mem], at_⟩
    · exact List.forall_mem_cons.2 (leastPc_le ..)
    · rw [Bool.eq_iff_iff, getLsbD_maskOf]
      simp only [List.mem_filter, mem_lanesOf, Bool.and_eq_true]
      exact ⟨fun h => h.2, fun h => ⟨BitVec.lt_of_getLsbD h.1, h⟩⟩

end

/-- A change of the entries of some keys, each once, from what it lists there. -/
theorem Tab.get_foldl_put {α : Type} [DecidableEq α] (d : α) (v : Nat → α → α) {ls : List Nat} (once : ls.Nodup) (t : Tab α) (j : Nat) :
    Tab.get d (ls.foldl (fun t i => Tab.put d t i (v i (Tab.get d t i))) t) j = if j ∈ ls then v j (Tab.get d t j) else Tab.get d t j := by
  induction ls generalizing t with
  | nil => simp
  | cons i r ih =>
    obtain ⟨other, once⟩ := List.nodup_cons.1 once
    rw [List.foldl_cons, ih once, Tab.get_put]
    by_cases same : j = i
    · subst same
      simp [other]
    · simp [same]

theorem Warp.starve_decided (x : Warp) (e m : Mask) (j : Nat) : Tab.get 0 (x.decided e m).starve j =
    if e.getLsbD j then (if m.getLsbD j then 0 else Tab.get 0 x.starve j + 1) else Tab.get 0 x.starve j := by
  have counted := Tab.get_foldl_put 0 (fun i n => if m.getLsbD i then 0 else n + 1) (nodup_lanesOf e) x.starve j
  simp only [mem_lanesOf] at counted
  exact counted

/-- Settles O47, from the lanes and the address that a decision takes and the counts that it leaves. -/
theorem issueDecision : Obligations.IssueDecision := by
  unfold Obligations.IssueDecision
  intro y e
  dsimp only
  rw [← Warp.pool_eq]
  refine ⟨Warp.decide_eq_none, fun a m decided => ?_, fun m => ⟨rfl, y.starve_decided e m⟩⟩
  obtain ⟨⟨j, rival, at_⟩, least, lanes⟩ := Warp.decide_eq_some decided
  obtain ⟨inPool, hungriest⟩ := Warp.mem_rivals.1 rival
  exact ⟨lanes, ⟨j, by simp only [lanes, inPool, at_, beq_self_eq_true, Bool.and_self], hungriest⟩, fun i inPool hungriest => least i (Warp.mem_rivals.2 ⟨inPool, hungriest⟩)⟩

/-! ## YIELD (R87) -/

section
variable {iss : Iss} {e : Eff} {k : Nat} (stays : e.stay = 0)
include stays

/-- A property of a warp that its program counters and its context have no part in survives the end of an issue in which no lane stays. -/
theorem State.map_warp_tail {α : Type} {f : Warp → α} (kept : ∀ y c l, f { y with ctx := c, lpc := l } = f y) :
    ((State.tail iss e).warp k).map f = (e.st.warp k).map f := by
  have updated (u : State) (n : Nat) {h : Warp → Warp} (same : ∀ y, f (h y) = f y) : ((u.updWarp n h).warp k).map f = (u.warp k).map f := by
    rw [State.warp_updWarp]
    split
    · rw [Option.map_map]
      exact congrArg (fun h => (u.warp k).map h) (funext same)
    · rfl
  have moved (u : State) (lanes : Mask) : ((u.advance iss lanes e.go).warp k).map f = (u.warp k).map f := by
    unfold State.advance
    split
    · split <;> rfl
    · exact updated _ _ fun y => kept y y.ctx _
  have framed (u : State) (h : Ctx → Ctx) : ((u.updCtx iss.w.g h).warp k).map f = (u.warp k).map f := by
    cases iss.w.g with
    | warp n => exact updated _ _ fun y => kept y _ y.lpc
    | ct t => rfl
  unfold State.tail
  simp only [stays, State.leaveEntry_zero, framed]
  split
  · rfl
  · exact moved ..

/-- The executing lanes of a warp move past an instruction at which no lane stays or branches, unless a program buffer holds it. -/
theorem State.pcOf_tail (straight : e.go = []) (agent : iss.w.g = .warp k) (resident : e.st.ctx (.warp k) ≠ none) (j : Nat) :
    (State.tail iss e).pcOf (.warp k) j = if iss.lanes.getLsbD j && !e.st.cur.buffer then iss.next else e.st.pcOf (.warp k) j := by
  unfold State.tail
  simp only [stays, straight, State.leaveEntry_zero, mask_keep, State.pcOf_updCtx]
  cases e.st.cur.buffer with
  | true => simp only [if_true, Bool.not_true, Bool.and_false, Bool.false_eq_true, if_false]; rfl
  | false =>
    obtain ⟨-, -, moved⟩ := ({ e.st with fresh := e.st.fresh + 1 } : State).advance_spec iss iss.lanes []
    rw [agent] at moved
    simp only [Bool.false_eq_true, if_false, Bool.not_false, Bool.and_true]
    exact moved resident j

end

/-- A warp in which some lanes are deferred too. -/
def Warp.deferring (y : Warp) (m : Mask) : Warp := { y with deferred := y.deferred ||| m }

theorem State.deferred_yielded (s : State) (i : Instr) (x : Args) (w : Who) (k : Nat) (m : Mask) :
    ((State.tail (s.issOf i x w) { st := (s.opened w.g).updWarp k (·.deferring m) }).warp k).map (·.deferred) =
      (s.warp k).map (fun y => y.deferred ||| m) := by
  rw [State.map_warp_tail rfl fun _ _ _ => rfl, State.warp_updWarp, if_pos rfl, Option.map_map]
  exact s.opened_warp w.g k (fun y => y.deferred ||| m) fun _ _ _ => rfl

section
variable {s : State} {x : Args} {w : Who} {k : Nat} (agent : w.g = .warp k)
include agent

/-- The state after YIELD: its lanes that take effect are deferred, and the issue ends. -/
theorem State.Runs.exec_yield (runs : s.Runs (.yield_ x) x w) : exec (.yield_ x) s =
    .next (State.tail (s.issOf (.yield_ x) x w) { st := (s.opened w.g).updWarp k (·.deferring (s.actOf (.yield_ x) x w.g)) }) := by
  change execYield_ x s = _
  have warp : (s.issOf (.yield_ x) x w).w.g = .warp k := agent
  rw [execYield_, runs.issue]
  simp only [warp]
  exact congrArg Host.Outcome.next (State.conclude_clean _ _ rfl rfl rfl)

theorem State.pcOf_yielded (resident : s.ctx w.g ≠ none) {i : Instr} {m : Mask} (j : Nat) :
    (State.tail (s.issOf i x w) { st := (s.opened w.g).updWarp k (·.deferring m) }).pcOf w.g j =
      if s.executing w.g j && !s.cur.buffer then s.nextPc else s.pcOf w.g j := by
  have context (a : Agent) : ((s.opened w.g).updWarp k (·.deferring m)).ctx a = s.ctx a :=
    (State.ctx_updWarp _ k (·.deferring m) (fun _ => rfl) a).trans (s.opened_ctx w.g a)
  have counter (a : Agent) : ((s.opened w.g).updWarp k (·.deferring m)).pcOf a j = s.pcOf a j :=
    (State.pcOf_updWarp _ k (·.deferring m) (fun _ => rfl) a j).trans (s.opened_pcOf w.g a j)
  have moved := State.pcOf_tail (iss := s.issOf i x w) (e := { st := (s.opened w.g).updWarp k (·.deferring m) }) rfl rfl agent
    (by rw [context, ← agent]; exact resident) j
  simp only [counter, State.updWarp_cur, State.opened_cur] at moved
  rw [agent] at moved ⊢
  exact moved

end

/-- Settles O48, from what YIELD leaves in its warp and from the pool of the next decision. -/
theorem yieldDefers : Obligations.YieldDefers := by
  unfold Obligations.YieldDefers
  refine ⟨?yields, ?decides⟩
  case yields =>
    intro x s w k y runs agent listed
    obtain ⟨c, context, -⟩ := State.ctx_of_who runs.who
    have deferred := s.deferred_yielded (.yield_ x) x w k (s.actOf (.yield_ x) x w.g)
    rw [listed] at deferred
    obtain ⟨z, ended, deferred⟩ := Option.map_eq_some_iff.1 deferred
    exact ⟨_, z, runs.exec_yield agent, ended, deferred, State.pcOf_yielded agent (by simp [context])⟩
  case decides =>
    intro y e a m decided
    obtain ⟨-, -, lanes⟩ := Warp.decide_eq_some decided
    refine ⟨fun some_ => ?_, fun none_ => ?_, rfl⟩
    · have pool : y.pool e = e &&& ~~~y.deferred := Warp.pool_eq.trans (if_pos some_)
      refine BitVec.eq_of_getLsbD_eq fun j below => ?_
      simp only [BitVec.getLsbD_and, lanes, pool, BitVec.getLsbD_not]
      cases y.deferred.getLsbD j <;> simp
    · have pool : y.pool e = ({ y with deferred := 0 } : Warp).pool e := by
        rw [Warp.pool_eq, Warp.pool_eq, if_neg (not_not.2 none_)]
        simp only [mask_keep, ite_self]
      simp only [Warp.decide, pool]

end Sys2Proof.Machine
end

section
/-!
PROOFS. What the hardware does for itself, when it reads an address of its own accord, leaves the agents alone (R14, R58, R154, R431).
-/

namespace Sys2Proof.Machine

/-- The records of the warps and of the teams with their control threads. -/
def State.agents (s : State) : Tab Warp × Tab Team := (s.warps, s.teams)

theorem State.warp_of_agents {s u : State} (same : u.agents = s.agents) (k : Nat) : u.warp k = s.warp k := by
  rw [State.warp, State.warp, (Prod.mk.inj same).1]

theorem State.team_of_agents {s u : State} (same : u.agents = s.agents) (t : Nat) : u.team t = s.team t := by
  rw [State.team, State.team, (Prod.mk.inj same).2]

section
variable (s : State)

@[simp] theorem State.setHome_agents (k : Nat) (h : Home) : (s.setHome k h).agents = s.agents := rfl
@[simp] theorem State.raiseMts_agents (k : Nat) (x : W32) : (s.raiseMts k x).agents = s.agents := by
  simp only [State.raiseMts, State.setHome_agents]
@[simp] theorem State.writeLine_agents (line : Nat) (data : Line) (mask : ByteMask) : (s.writeLine line data mask).agents = s.agents := by
  simp only [State.writeLine, State.agents]
@[simp] theorem State.logStray_agents (pa : Nat) : (s.logStray pa).agents = s.agents := rfl
@[simp] theorem State.ownReq_agents (line : Nat) (key : BitVec 6) (home2 : Bool) (kind : ReqKind) (await : Await) :
    (s.ownReq line key home2 kind await).agents = s.agents := rfl

@[simp] theorem State.sweepFirst_agents (k line : Nat) : (s.sweepFirst k line).agents = s.agents := by
  unfold State.sweepFirst
  split
  · split <;> rfl
  · rfl

@[simp] theorem State.setPoison_agents (line : Nat) (mask bad : ByteMask) : (s.setPoison line mask bad).agents = s.agents := by
  unfold State.setPoison
  split <;> rfl

@[simp] theorem State.wayAmong_agents (k line : Nat) (ways : List Nat) : (s.wayAmong k line ways).2.agents = s.agents := by
  unfold State.wayAmong
  dsimp only
  split
  · rfl
  · split <;> rfl

@[simp] theorem State.findWay_agents (k line part : Nat) : (s.findWay k line part).2.agents = s.agents := by
  have own := s.wayAmong_agents k line (s.partWays part)
  unfold State.findWay
  split
  case h_1 found => rwa [found] at own
  case h_2 u found =>
    rw [found] at own
    have any_ := u.wayAmong_agents k line (List.range 16)
    split
    all_goals
      rename_i found
      rw [found] at any_
      exact any_.trans own

@[simp] theorem State.fetchLine_agents (k line : Nat) (key : BitVec 6) (part : Nat) (home2 : Bool) :
    (s.fetchLine k line key part home2).agents = s.agents := by
  unfold State.fetchLine
  dsimp only
  split
  · split
    · rfl
    · unfold State.agents
      dsimp only
      split <;> exact State.findWay_agents ..
  · unfold State.agents
    dsimp only
    split <;> exact State.findWay_agents ..

@[simp] theorem State.homeWrite_agents (k line : Nat) (key : BitVec 6) (part : Nat) (home2 : Bool) (c : W32) (data : Line) (mask bad : ByteMask) :
    (s.homeWrite k line key part home2 c data mask bad).2.agents = s.agents := by
  unfold State.homeWrite
  dsimp only
  split
  · simp
  · rw [State.raiseMts_agents, State.setPoison_agents, State.writeLine_agents]
    exact (State.fetchLine_agents ..).trans (by simp)

@[simp] theorem State.snoop_agents (line : Nat) (invalidate forWrite : Bool) : (s.snoop line invalidate forWrite).agents = s.agents := by
  unfold State.snoop
  split
  · split <;> rfl
  · rfl

theorem State.clearHost_agents {line : Nat} {key : BitVec 6} {part : Nat} {write : Bool} {u : State}
    (waits : s.clearHost line key part write = some u) : u.agents = s.agents := by
  unfold State.clearHost at waits
  dsimp only at waits
  split at waits
  · split at waits
    · obtain rfl := Option.some.inj waits
      split <;> rfl
    · split at waits
      · obtain rfl := Option.some.inj waits
        exact s.snoop_agents ..
      · cases waits
  · split at waits
    · cases waits
    · obtain ⟨n, -, rfl⟩ := Option.map_eq_some_iff.1 waits
      exact s.snoop_agents ..

@[simp] theorem State.ownPerform_agents (k line : Nat) (key : BitVec 6) (off : Nat) (o : OwnOp) : (s.ownPerform k line key off o).agents = s.agents := by
  simp [State.ownPerform]

@[simp] theorem State.ownAtomic_agents (pa : Nat) (key : BitVec 6) (o : OwnOp) : (s.ownAtomic pa key o).agents = s.agents := by
  unfold State.ownAtomic
  split
  · rfl
  · split
    · simp
    case h_2 u waits => exact (u.ownReq_agents ..).trans (s.clearHost_agents waits)
    · simp

@[simp] theorem State.setAd_agents (w : Walked) (access : Access) (handler : Bool) : (s.setAd w access handler).2.agents = s.agents := by
  unfold State.setAd
  dsimp only
  split
  · rfl
  · exact s.ownAtomic_agents ..

@[simp] theorem State.rehome_agents (pa : Nat) (leaf : W64) : (s.rehome pa leaf).agents = s.agents := by
  unfold State.rehome
  dsimp only
  split
  · split
    · rfl
    · split
      · rfl
      · simp
  · rfl

@[simp] theorem State.hwTouch_agents (die : Nat) (asid : W16) (part : Nat) (va : W64) (n : Nat) (access : Access) (handler : Bool) :
    (s.hwTouch die asid part va n access handler).agents = s.agents := by
  unfold State.hwTouch
  dsimp only
  split
  · split
    · simp
    · split <;> simp
  · split <;> simp
  · rfl

end

end Sys2Proof.Machine
end

section
/-!
PROOFS. Entering a trap handler (R100, R103, R281) and returning from one (R101, R400).
-/

namespace Sys2Proof.Machine

/-! ## At the handler (R100) -/

/-- The lanes of a warp that go to a handler. -/
def Warp.going (y : Warp) : Mask := y.live &&& ~~~y.parked

theorem Warp.getLsbD_going {y : Warp} {j : Nat} : y.going.getLsbD j = true ↔ y.live.getLsbD j = true ∧ y.parked.getLsbD j = false := by
  simp only [Warp.going, BitVec.getLsbD_and, BitVec.getLsbD_not, Bool.and_eq_true, decide_eq_true_eq, Bool.not_eq_true']
  exact ⟨fun h => ⟨h.1, h.2.2⟩, fun h => ⟨h.1, BitVec.lt_of_getLsbD h.1, h.2⟩⟩

/-- A warp whose trapping lanes stand at the instruction that trapped (R99), unless they keep the LPC at which they are (R203). -/
def Warp.atTrap (y : Warp) (p : PendTrap) : Warp := if p.keep then y else y.goTo (lanesOf (p.lanes &&& y.live &&& ~~~y.parked)) p.pc

theorem Warp.atTrap_eq (y : Warp) (p : PendTrap) : ∃ l, y.atTrap p = { y with lpc := l } ∧ ∀ j, Tab.get 0 l j =
    if p.keep = false ∧ p.lanes.getLsbD j = true ∧ y.going.getLsbD j = true then p.pc else Tab.get 0 y.lpc j := by
  unfold Warp.atTrap
  cases p.keep with
  | true => exact ⟨y.lpc, rfl, fun j => by simp⟩
  | false =>
    refine ⟨_, rfl, fun j => ?_⟩
    have lanes : p.lanes &&& y.live &&& ~~~y.parked = p.lanes &&& y.going := BitVec.and_assoc ..
    simp only [foldl_set_get, mem_lanesOf, lanes, BitVec.getLsbD_and, Bool.and_eq_true, true_and]

/-- A warp that goes to a handler: what it saves, and where its lanes go. -/
theorem State.warp_vector {u : State} {k : Nat} {y : Warp} (listed : u.warp k = some y) (p : PendTrap) (handler : W64) :
    ∃ z, (u.vector (.warp k) p handler).warp k = some z ∧
      z.ctx.trapMask = p.lanes ∧ z.ctx.trapCause = BitVec.ofNat 6 (causeCode p.cause) ∧ z.ctx.trapPc = p.pc ∧ z.ctx.trapAddr = p.addr ∧
      z.ctx.handler = true ∧ z.blocks = [] ∧ z.parked = y.parked ∧ z.live = y.live ∧ z.v = y.v ∧ z.p = y.p ∧ z.ctx.s = y.ctx.s ∧
      z.ctx.q = y.ctx.q ∧ z.ctx.flags = y.ctx.flags ∧ z.ctx.landings = y.ctx.landings ∧ z.deferred = 0 ∧ z.latch = none ∧
      (∀ j, y.going.getLsbD j = true → Tab.get 0 z.savedLpc j =
        if p.keep = false ∧ p.lanes.getLsbD j = true then p.pc else Tab.get 0 y.lpc j) ∧
      ∀ j, Tab.get 0 z.lpc j = if y.going.getLsbD j then handler else Tab.get 0 y.lpc j := by
  obtain ⟨l, atTrap, standing⟩ := y.atTrap_eq p
  change (if p.keep then y else y.goTo (lanesOf (p.lanes &&& y.live &&& ~~~y.parked)) p.pc) = _ at atTrap
  have mem {j : Nat} : j ∈ lanesOf (y.live &&& ~~~y.parked) ↔ y.going.getLsbD j = true := mem_lanesOf y.going j
  refine ⟨_, (State.warp_updWarp ..).trans (by rw [if_pos rfl, listed]; rfl), ?_⟩
  dsimp only
  rw [atTrap]
  refine ⟨rfl, rfl, rfl, rfl, rfl, rfl, rfl, rfl, rfl, rfl, rfl, rfl, rfl, rfl, rfl, rfl, fun j goes => ?_, fun j => ?_⟩
  · dsimp only [Warp.leaveBlocks]
    rw [foldl_set_get, if_pos (mem.2 goes), standing]
    simp only [goes, and_true]
  · dsimp only [Warp.leaveBlocks]
    rw [foldl_set_get, standing]
    by_cases going : y.going.getLsbD j = true <;> simp [mem, going]

/-- A control thread that goes to a handler: what it saves, and where it goes. -/
theorem State.team_vector {u : State} {t : Nat} {y : Team} (listed : u.team t = some y) (p : PendTrap) (handler : W64) :
    ∃ z, (u.vector (.ct t) p handler).team t = some z ∧
      z.ct.trapMask = 1 ∧ z.ct.trapCause = BitVec.ofNat 6 (causeCode p.cause) ∧ z.ct.trapPc = p.pc ∧ z.ct.trapAddr = p.addr ∧
      z.ct.handler = true ∧ z.savedCpc = (if p.keep = true then y.cpc else p.pc) ∧ z.cpc = handler ∧ z.ct.hold = .none ∧ z.ct.s = y.ct.s ∧
      z.ct.q = y.ct.q ∧ z.ct.flags = y.ct.flags ∧ z.ct.landings = y.ct.landings ∧ z.csn = y.csn ∧ z.stage = y.stage := by
  refine ⟨_, (State.team_updTeam ..).trans (by rw [if_pos rfl, listed]; rfl), ?_⟩
  exact ⟨rfl, rfl, rfl, rfl, rfl, rfl, rfl, rfl, rfl, rfl, rfl, rfl, rfl, rfl⟩

theorem causeCode_lt (c : Cause) : causeCode c < 64 := by cases c <;> decide

theorem toNat_causeCode (c : Cause) : (BitVec.ofNat 6 (causeCode c)).toNat = causeCode c :=
  BitVec.toNat_ofNat .. ▸ Nat.mod_eq_of_lt (causeCode_lt c)

/-! ## Taking a trap (R100, R103, R281) -/

/-- A warp whose speculation is not resolved. -/
def State.unresolved (s : State) (g : Agent) : Bool :=
  match g with | .warp k => (match s.warp k with | some x => !x.window.isEmpty | none => false) | .ct _ => false

theorem State.unresolved_warp {s : State} {k : Nat} {y : Warp} (listed : s.warp k = some y) :
    s.unresolved (.warp k) = true ↔ y.window ≠ [] := by
  simp [State.unresolved, listed]

/-- An agent with a place has a team. -/
theorem State.team_of_who {s : State} {g : Agent} {w : Who} (resident : s.who g = some w) : ∃ t, s.team w.team = some t := by
  unfold State.who at resident
  split at resident
  · cases resident
  · split at resident
    · cases resident
    case h_2 t listed =>
      split at resident
      · cases resident
      · obtain rfl := Option.some.inj resident
        exact ⟨t, listed⟩

/-- The address of a cause's handler as the hardware reads it, and what that read does besides. -/
def State.handlerEntry (s : State) (w : Who) (base : W64) (c : Cause) : HwRead :=
  s.hwRead (dieOf w.core) w.asid w.part (base + BitVec.ofNat 64 (8 * causeCode c)) 8 true
def State.handlerRead (s : State) (w : Who) (base : W64) (c : Cause) : State :=
  s.hwTouch (dieOf w.core) w.asid w.part (base + BitVec.ofNat 64 (8 * causeCode c)) 8 .read true

section
variable {s : State} {g : Agent} {w : Who} {t : Team} {p : PendTrap} (resident : s.who g = some w)
include resident

theorem State.takeTrap_of_unresolved (busy : s.unresolved g = true) : s.takeTrap g p = s.updCtx g (fun c => { c with trap := some p }) := by
  unfold State.takeTrap
  rw [resident]
  exact if_pos busy

variable (settled : ¬ s.unresolved g = true)
include settled

theorem State.takeTrap_of_handler (inside : w.handler = true) : s.takeTrap g p = s.endGrid w.team (BitVec.ofNat 6 (causeCode p.cause)) := by
  unfold State.takeTrap
  rw [resident]
  exact (if_neg settled).trans (if_pos inside)

variable (outside : w.handler = false) (team : s.team w.team = some t)
include outside team

theorem State.takeTrap_of_tableless (tableless : t.trapBase = 0) :
    s.takeTrap g p = s.endGrid w.team (BitVec.ofNat 6 (causeCode p.cause)) := by
  unfold State.takeTrap
  rw [resident]
  refine (if_neg settled).trans ?_
  simp only [outside, team, tableless, Bool.false_eq_true, if_false, if_true]

variable (table : t.trapBase ≠ 0)
include table

theorem State.takeTrap_of_badEntry (bad : (∃ c, s.handlerEntry w t.trapBase p.cause = .fail c) ∨
      ∃ h, s.handlerEntry w t.trapBase p.cause = .val h ∧ (h = 0 ∨ h % 2 = 1)) :
    s.takeTrap g p = (s.handlerRead w t.trapBase p.cause).endGrid w.team (BitVec.ofNat 6 (causeCode p.cause)) := by
  unfold State.handlerEntry at bad
  unfold State.takeTrap
  rw [resident]
  refine (if_neg settled).trans ?_
  simp only [outside, team, table, Bool.false_eq_true, if_false]
  rcases bad with ⟨c, fails⟩ | ⟨h, entry, bad⟩
  · simp only [fails]
    rfl
  · simp only [entry, Bool.or_eq_true, decide_eq_true_eq, bad, if_true]
    rfl

theorem State.takeTrap_of_entry {h : Nat} (entry : s.handlerEntry w t.trapBase p.cause = .val h) (nonzero : h ≠ 0) (even : h % 2 = 0) :
    s.takeTrap g p = (s.handlerRead w t.trapBase p.cause).vector g p (BitVec.ofNat 64 h) := by
  unfold State.handlerEntry at entry
  unfold State.takeTrap
  rw [resident]
  refine (if_neg settled).trans ?_
  simp only [outside, team, table, entry, nonzero, even, Bool.false_eq_true, if_false, decide_false, Bool.or_self, zero_ne_one]
  rfl

end

/-! ## The end of a grid (R315, R327) -/

theorem State.updGrid_congr {s : State} {e : Nat} {g : Grid} (listed : s.grid e = some g) {f h : Grid → Grid} (same : f g = h g) :
    s.updGrid e f = s.updGrid e h := by
  have grids : Tab.upd s.grids e f = Tab.upd s.grids e h := Tab.upd_congr s.grids e f h fun x found => by
    obtain rfl := Option.some.inj (listed.symm.trans found)
    exact same
  simp only [State.updGrid, grids]

section
variable {s : State} {t : Nat} {y : Team} {g : Grid} (listed : s.team t = some y) (mine : s.grid y.grid = some g) (c : BitVec 6)
include listed mine

theorem State.gridEnds_of_first (first : g.ending = false) : s.gridEnds t c = s.updGrid y.grid (fun g => { g with
    ending := true
    endBy := some (s.time / 50, y.num)
    status := 2
    cause := c
    saved := []
    tr := (g.saved.flatMap (fun x => x.team.ct.wclk :: x.warps.map (·.wclk))).foldl serialMax (if g.trAny then g.tr else s.floor)
    trAny := true }) := by
  simp only [State.gridEnds, listed]
  exact State.updGrid_congr mine (if_neg (by simp [first]))

theorem State.gridEnds_of_later (later : g.ending = true) : s.gridEnds t c = s.updGrid y.grid (fun g => g.endBy.elim g (fun first =>
    if first.1 = s.time / 50 ∧ y.num < first.2 then { g with cause := c, endBy := some (first.1, y.num) } else g)) := by
  simp only [State.gridEnds, listed]
  refine State.updGrid_congr mine ((if_pos later).trans ?_)
  cases g.endBy <;> rfl

end

/-! ## The cause that a trap has (R99) -/

theorem foldl_min_le {α : Type} (f : α → Nat) (n : Nat) (l : List α) :
    l.foldl (fun m x => min m (f x)) n ≤ n ∧ ∀ x ∈ l, l.foldl (fun m x => min m (f x)) n ≤ f x := by
  induction l generalizing n with
  | nil => simp
  | cons a r ih =>
    obtain ⟨first, rest⟩ := ih (min n (f a))
    exact ⟨first.trans (min_le_left ..), List.forall_mem_cons.2 ⟨first.trans (min_le_right ..), rest⟩⟩

/-- The lanes that hold the lowest cause take it, with the address of the lowest of them. -/
theorem lowestCause_spec {cs : List (Nat × Cause × W64)} {c : Cause} {m : Mask} {va : W64} (real : ∀ x ∈ cs, x.1 < 128)
    (lowest_ : lowestCause cs = some (c, m, va)) :
    (∀ x ∈ cs, causeCode c ≤ causeCode x.2.1) ∧ (∀ j, m.getLsbD j = true ↔ ∃ x ∈ cs, x.1 = j ∧ causeCode x.2.1 = causeCode c) ∧
    ∃ x ∈ cs, x.1 = lowest m ∧ causeCode x.2.1 = causeCode c ∧ va = if memoryCause c then x.2.2 else 0 := by
  cases cs with
  | nil => cases lowest_
  | cons d r =>
    unfold lowestCause at lowest_
    dsimp only at lowest_
    obtain ⟨first, rest⟩ := foldl_min_le (fun x : Nat × Cause × W64 => causeCode x.2.1) (causeCode d.2.1) r
    generalize r.foldl (fun m x => min m (causeCode x.2.1)) (causeCode d.2.1) = code at lowest_ first rest
    split at lowest_
    case h_2 => cases lowest_
    case h_1 x found =>
      simp only [Option.some.injEq, Prod.mk.injEq] at lowest_
      obtain ⟨rfl, rfl, rfl⟩ := lowest_
      obtain ⟨mem, holds⟩ := List.mem_filter.1 (List.mem_of_find?_eq_some found)
      have at_ := List.find?_some found
      simp only [beq_iff_eq] at holds at_
      refine ⟨holds ▸ List.forall_mem_cons.2 ⟨first, rest⟩, fun j => ?_, x, mem, at_, rfl, rfl⟩
      simp only [getLsbD_maskOf, List.mem_map, List.mem_filter, beq_iff_eq, holds]
      exact ⟨fun ⟨_, y, ⟨mem, code⟩, at_⟩ => ⟨y, mem, at_, code⟩, fun ⟨y, mem, at_, code⟩ => ⟨at_ ▸ real y mem, y, ⟨mem, code⟩, at_⟩⟩

/-- Settles O49, from the branches of taking a trap, what an agent at its handler has saved, the end of a grid, and the lowest cause. The read of
the handler's address leaves the agents alone. -/
theorem trapEntry : Obligations.TrapEntry := by
  unfold Obligations.TrapEntry
  refine ⟨?warp, ?control, ?ends, ?causes⟩
  case warp =>
    intro s k y w p listed resident
    obtain ⟨t, team⟩ := State.team_of_who resident
    have calm (resolved : y.window = []) : ¬ s.unresolved (.warp k) = true := fun busy => (State.unresolved_warp listed).1 busy resolved
    simp only [team]
    refine ⟨fun busy => State.takeTrap_of_unresolved resident ((State.unresolved_warp listed).2 busy), ?warpEnters,
      fun resolved inside => State.takeTrap_of_handler resident (calm resolved) inside,
      fun resolved outside tableless => State.takeTrap_of_tableless resident (calm resolved) outside team tableless,
      fun resolved outside table bad => State.takeTrap_of_badEntry resident (calm resolved) outside team table bad⟩
    intro resolved outside table h entry nonzero even
    have same : (s.handlerRead w t.trapBase p.cause).warp k = some y := (State.warp_of_agents (s.hwTouch_agents ..) k).trans listed
    obtain ⟨z, entered, mask, cause, pc, addr, inside, blocks, parked, live, v, preds, regs, q, flags, landings, deferred, latch, saved, goes⟩ :=
      State.warp_vector same p (BitVec.ofNat 64 h)
    rw [State.takeTrap_of_entry resident (calm resolved) outside team table entry nonzero even]
    refine ⟨z, entered, mask, by rw [cause, toNat_causeCode], pc, addr, inside, blocks, parked, live, v, preds, regs, q, flags, landings, deferred,
      latch, fun j _ => ⟨fun going => ?_, fun stays => ?_⟩⟩
    · have going := Warp.getLsbD_going.2 going
      exact ⟨saved j going, (goes j).trans (if_pos going)⟩
    · exact (goes j).trans (if_neg (mt Warp.getLsbD_going.1 stays))
  case control =>
    intro s t y w p listed resident
    obtain ⟨x, team⟩ := State.team_of_who resident
    have calm : ¬ s.unresolved (.ct t) = true := Bool.false_ne_true
    simp only [team]
    refine ⟨?controlEnters, fun inside => State.takeTrap_of_handler resident calm inside,
      fun outside tableless => State.takeTrap_of_tableless resident calm outside team tableless,
      fun outside table bad => State.takeTrap_of_badEntry resident calm outside team table bad⟩
    intro outside table h entry nonzero even
    have same : (s.handlerRead w x.trapBase p.cause).team t = some y := (State.team_of_agents (s.hwTouch_agents ..) t).trans listed
    obtain ⟨z, entered, mask, cause, rest⟩ := State.team_vector same p (BitVec.ofNat 64 h)
    rw [State.takeTrap_of_entry resident calm outside team table entry nonzero even]
    exact ⟨z, entered, mask, by rw [cause, toNat_causeCode], rest⟩
  case ends =>
    intro s t y g c listed mine
    exact ⟨fun first => congrArg (State.endTeam · t) (State.gridEnds_of_first listed mine c first),
      fun later => congrArg (State.endTeam · t) (State.gridEnds_of_later listed mine c later)⟩
  case causes =>
    intro cs c m va real found
    obtain ⟨least, lanes, x, mem, at_, code, addr⟩ := lowestCause_spec real found
    exact ⟨least, lanes, fun other => by simpa [other] using addr, fun memory => ⟨x, mem, at_, code, by simpa [memory] using addr⟩⟩

/-! ## Returning from a trap (R101, R400) -/

theorem Tab.mem_of_find {α : Type} {t : Tab α} {k : Nat} {v : α} (found : Tab.find t k = some v) : (k, v) ∈ t := by
  induction t with
  | nil => cases found
  | cons e r ih =>
    obtain ⟨j, w⟩ := e
    unfold Tab.find at found
    split at found
    case isTrue same =>
      obtain rfl := Option.some.inj found
      simp [same]
    case isFalse => exact List.mem_cons_of_mem _ (ih found)

/-- Setting the entries of a list that pass a test of their keys, in a table: what it then holds at a key that the list names with one value only,
or at which the table held that value's image before. -/
theorem Tab.get_foldl_set {α β : Type} (d : β) (test : Nat → Bool) (value : Nat → α → β) {l : List (Nat × α)} {j : Nat} {a : α}
    (only : ∀ b, (j, b) ∈ l → b = a) (passes : test j = true) (t : Tab β) (listed : (j, a) ∈ l ∨ Tab.get d t j = value j a) :
    Tab.get d (l.foldl (fun t e => if test e.1 then Tab.set t e.1 (value e.1 e.2) else t) t) j = value j a := by
  induction l generalizing t with
  | nil => exact listed.resolve_left (List.not_mem_nil)
  | cons e r ih =>
    obtain ⟨i, b⟩ := e
    refine ih (fun b mem => only b (List.mem_cons_of_mem _ mem)) _ ?_
    by_cases same : i = j
    · subst same
      obtain rfl := only b (by simp)
      simp [passes]
    · have other : ¬ j = i := fun h => same h.symm
      have apart : Tab.get d (if test i then Tab.set t i (value i b) else t) j = Tab.get d t j := by split <;> simp [other]
      simpa [other, apart] using listed

/-- The LPC to which a lane returns whose saved LPC is a: past the instruction that trapped, for .next in a trapping lane that stands there. -/
def Warp.resumePc (y : Warp) (next : Bool) (len j : Nat) (a : W64) : W64 :=
  if next && y.ctx.trapMask.getLsbD j && a == y.ctx.trapPc then a + BitVec.ofNat 64 len else a

/-- Settles O50: each live lane takes the LPC that is saved for it, since no two are. -/
theorem handlerReturn : Obligations.HandlerReturn := by
  unfold Obligations.HandlerReturn
  intro s k next len y listed once
  dsimp only
  unfold State.rft
  rw [listed]
  refine ⟨_, (State.warp_updWarp ..).trans (by rw [if_pos rfl, listed]; rfl), ?_⟩
  refine ⟨rfl, rfl, rfl, rfl, rfl, rfl, rfl, rfl, fun j a live saved => ?_⟩
  have only (b : W64) (mem : (j, b) ∈ y.savedLpc) : b = a := Option.some.inj ((once j b mem).symm.trans saved)
  refine (Tab.get_foldl_set 0 y.live.getLsbD (y.resumePc next len) only live y.lpc (.inl (Tab.mem_of_find saved))).trans ?_
  simp only [Warp.resumePc, Bool.and_eq_true, beq_iff_eq, and_assoc]

end Sys2Proof.Machine
end

section
/-!
PROOFS. The cause codes (R106), and the events of waiting (R93, R259, R261, R368, R373, R375, R391).
-/

namespace Sys2Proof.Machine

/-! ## Cause codes (R106) -/

/-- The causes, in the order of R106. -/
def everyCause : List Cause :=
  [.none, .illegalOpcode, .illegalOperand, .retiredForm, .privilege, .controlOnly, .tagRequired, .fetchAlign, .softwareTrap, .breakpoint,
   .callDepth, .widthContract, .misalignedAtomic, .translation, .permission, .noncanonical, .addressWrap, .scratchBounds, .rangeLock,
   .dataUncorrectable, .hostPath, .peerPath, .keyInvalid, .formatEntry, .regionMap, .copyFault, .matrixSlot, .barrierOverrun, .queueOverrun,
   .serviceError, .launchDepth, .slotConflict, .engineUncorrectable, .watchpoint, .debugHalt, .singleStep, .forcedSave, .preemptSave]

/-- The cause that has a code. -/
def causeOfCode (n : Nat) : Option Cause := everyCause.find? (fun c => causeCode c == n)

theorem causeOfCode_causeCode (c : Cause) : causeOfCode (causeCode c) = some c := by cases c <;> rfl

theorem causeCode_injective {a b : Cause} (same : causeCode a = causeCode b) : a = b :=
  Option.some.inj ((causeOfCode_causeCode a).symm.trans ((congrArg causeOfCode same).trans (causeOfCode_causeCode b)))

/-- Settles O51: a code leads back to its cause. -/
theorem causeCodes : Obligations.CauseCodes := by
  unfold Obligations.CauseCodes
  refine ⟨fun a b => causeCode_injective, ?_⟩
  decide

/-! ## Waits that end -/

section
variable {s : State}

theorem State.landIn_of_context {g : Agent} {c : Ctx} (context : s.ctx g = some c) (lanes : Mask) : s.landIn g lanes =
    let now := s.cycle (agentCore g)
    let lands (y : RegWrite) : Bool := lanes.getLsbD y.lane || !perLane y.dest
    let due := c.landings.filter (fun l => decide (l.due ≤ now))
    (due.foldl (fun u l => u.putRegs g l.spec (l.writes.filter lands)) s).updCtx g (fun d =>
      (due.foldl (fun d l => if l.due = now then d.noteLanded now l.id (l.writes.filter lands) else d) d).dropLanded (fun l =>
        if now < l.due then some l
        else
          let left := l.writes.filter (fun y => !lands y)
          if left.isEmpty then none else some { l with writes := left, lanes := l.lanes &&& ~~~lanes })) := by
  simp only [State.landIn, context]

theorem State.land_of_warp {w : Nat} {y : Warp} (listed : s.warp w = some y) :
    s.land (.warp w) = s.landWarp w (y.ctx.landings.filter (fun l => decide (l.due ≤ s.cycle (w / 128)))) := by
  simp only [State.land, listed]

/-- The speculation of an agent, if it is a warp, is settled where it can be (R92). -/
def State.settleAgent (s : State) (g : Agent) : State := match g with | .warp w => s.settleSpec w | .ct _ => s

theorem State.tagFree_of_over {g : Agent} {tag : Nat} {c : Ctx} {f : Flight} (real : tag ≠ 0) (context : (s.land g).ctx g = some c)
    (found : c.flights.find? (fun f => f.tag == tag) = some f) (ended : (s.land g).flightOver g f = true) :
    s.tagFree g tag = ((s.land g).finishFlight g f).settleAgent g := by
  have named : c.flights.find? (fun f => tag != 0 && f.tag == tag) = some f := by
    simpa only [bne_iff_ne.2 real, Bool.true_and] using found
  simp only [State.tagFree, context, named, ended, if_true]
  rfl

theorem State.joinTimeout_of_late {w k began n : Nat} {y : Warp} (listed : (s.joinCheck w).warp w = some y)
    (round : Tab.find y.rounds k = some (began, n)) (timed : n ≠ 0) (late : began + n < (s.joinCheck w).cycle y.core) :
    s.joinTimeout w k = (s.joinCheck w).updWarp w (fun x => x.joinRelease k true) := by
  simp only [State.joinTimeout, listed, round]
  exact if_pos ⟨timed, late⟩

/-- A lane blocks at a nap that has ended. -/
def napOver (now : Nat) (b : Nat × Block) : Bool := match b.2.why with | .nap t => decide (t ≤ now) | _ => false

theorem State.napExpire_of_warp {w : Nat} {y : Warp} (listed : s.warp w = some y) :
    s.napExpire w = s.updWarp w (fun x => x.unblock ((y.blocks.filter (napOver (s.cycle y.core))).map (·.1)) true) := by
  simp only [State.napExpire, listed]
  rfl

theorem State.evwaitExpire_of_due {t u since : Nat} {x : Team} (listed : s.team t = some x) (waits : x.ct.hold = .evwait (some u) since)
    (due : u ≤ s.cycle (t / 8)) : s.evwaitExpire t = s.updCtx (.ct t) (fun c => { c with hold := .evwait (some 0) since }) := by
  simp only [State.evwaitExpire, listed, waits, due, if_true]

theorem State.afterSafe_of_held {g : Agent} {f : State → State} (young : s.safeWanted g = false) (held : s.safeHeld g = true) :
    s.afterSafe g f = s := by
  simp only [State.afterSafe, young, held, Bool.false_eq_true, if_false, if_true]

theorem State.afterSafe_of_free {g : Agent} {f : State → State} (young : s.safeWanted g = false) (free : s.safeHeld g = false) :
    s.afterSafe g f = f s := by
  simp only [State.afterSafe, young, free, Bool.false_eq_true, if_false]

/-- A retest of the lanes that block at one BARW on an object of a scratchpad, whose phase has passed without an error (R368). -/
theorem State.retestBarw_of_passed {w team off e : Nat} {x : Warp} {who : Who} {b : Nat × Block} (listed : s.warp w = some x)
    (resident : s.who (.warp w) = some who) (only : x.blocks = [b]) (why : b.2.why = .barw (.sp team off) e)
    (passed : epochPassed (s.objGet (.sp team off)).epoch e = true) (sound : s.objBad (.sp team off) = false)
    (clean : (s.objGet (.sp team off)).lastErr = false) : s.retestBarw w =
      ((s.observe who (.sp team off)).waitOver (.warp w) b.2.time (s.objGet (.sp team off)).arriver (s.objGet (.sp team off)).arriverEdge 0
        (ObjLoc.addr (.sp team off)).toNat).updWarp w (fun y => y.unblock [b.1] true) := by
  have blocked : (Tab.find [b] b.1).isSome = true := by simp [Tab.find]
  have together : ([b].filter (fun c => c.2.why == b.2.why && c.2.time == b.2.time)).map (·.1) = [b.1] := by simp
  rw [why] at together
  simp only [State.retestBarw, listed, resident, only, List.foldl_cons, List.foldl_nil, Option.any_some, blocked, why, together]
  simp only [State.barwTest, State.findAgain, State.objHeld, passed, sound, clean, Bool.not_true, Bool.false_eq_true, if_false]

end

/-- Settles O24: each event does its operation, by the equation of the operation in the case that the clause names. -/
theorem waitingEvents : Obligations.WaitingEvents := by
  unfold Obligations.WaitingEvents
  intro g w k t tag lanes
  refine ⟨fun c => .of_whileLive (fun _ => rfl) ?land, fun y => .of_whileLive (fun _ => rfl) ?resolve, fun c f => .of_whileLive (fun _ => rfl) ?free,
    fun y began n => .of_whileLive (fun _ => rfl) ?join, fun y => .of_whileLive (fun _ => rfl) ?nap,
    fun x u since => .of_whileLive (fun _ => rfl) ?evwait, .of_whileLive (fun _ => rfl) ?joinHeld, .of_whileLive (fun _ => rfl) ?barwHeld,
    fun x who b off team e => .of_whileLive (fun _ => rfl) ?barw⟩
  case land => exact fun s context => State.landIn_of_context context lanes
  case resolve => exact fun s listed => State.land_of_warp listed
  case free => exact fun s ⟨real, context, found, ended⟩ => State.tagFree_of_over real context found ended
  case join =>
    exact fun s ⟨young, free, listed, round, timed, late⟩ =>
      (State.afterSafe_of_free young free).trans (State.joinTimeout_of_late listed round timed late)
  case nap => exact fun s listed => State.napExpire_of_warp listed
  case evwait => exact fun s ⟨listed, waits, due⟩ => State.evwaitExpire_of_due listed waits due
  case joinHeld => exact fun s ⟨young, held⟩ => State.afterSafe_of_held young held
  case barwHeld => exact fun s ⟨young, held⟩ => State.afterSafe_of_held young held
  case barw =>
    exact fun s ⟨young, free, listed, resident, only, why, passed, sound, clean⟩ =>
      (State.afterSafe_of_free young free).trans (State.retestBarw_of_passed listed resident only why passed sound clean)

end Sys2Proof.Machine
end

section
/-!
PROOFS. The bits of a line in memory, and what a write of a line under a mask makes of them.
-/

namespace Sys2Proof.Machine

/-! ## The bits of a line -/

/-- A number written with the digit b below n to the base 256. -/
theorem testBit_digit {b : Nat} (digit : b < 256) (n j : Nat) :
    (b + 256 * n).testBit j = if j < 8 then b.testBit j else n.testBit (j - 8) := by
  rw [Nat.add_comm]
  exact Nat.testBit_two_pow_mul_add n (i := 8) digit j

theorem Mem.testBit_readN (m : Mem) (a n j : Nat) :
    (Mem.readN m a n).testBit j = (decide (j < 8 * n) && (Mem.read m (a + j / 8)).getLsbD (j % 8)) := by
  induction n generalizing a j with
  | zero => simp [Mem.readN]
  | succ n ih =>
    rw [Mem.readN, testBit_digit (Mem.read m a).isLt, ih]
    split
    case isTrue low =>
      have within : j < 8 * (n + 1) := by omega
      simp [Nat.div_eq_of_lt low, Nat.mod_eq_of_lt low, within, BitVec.getLsbD]
    case isFalse high =>
      have byte : a + 1 + (j - 8) / 8 = a + j / 8 := by omega
      have bit : (j - 8) % 8 = j % 8 := by omega
      have within : j - 8 < 8 * n ↔ j < 8 * (n + 1) := by omega
      simp only [byte, bit, within]

theorem testBit_spread_go (n m j : Nat) : (spread.go n m).testBit j = (decide (j < 8 * n) && m.testBit (j / 8)) := by
  induction n generalizing m j with
  | zero => simp [spread.go]
  | succ n ih =>
    have digit : (if m % 2 = 1 then 255 else 0) < 256 := by split <;> decide
    rw [spread.go, testBit_digit digit, ih]
    split
    case isTrue low =>
      have within : j < 8 * (n + 1) := by omega
      have ones : Nat.testBit 255 j = true := (Nat.testBit_two_pow_sub_one 8 j).trans (decide_eq_true low)
      by_cases odd : m % 2 = 1 <;> simp [odd, Nat.div_eq_of_lt low, within, ones, Nat.testBit_zero]
    case isFalse high =>
      have bit : (j - 8) / 8 + 1 = j / 8 := by omega
      have within : j - 8 < 8 * n ↔ j < 8 * (n + 1) := by omega
      simp only [Nat.testBit_div_two, bit, within]

theorem getLsbD_mergeLine (old new : Line) (mask : ByteMask) {j : Nat} (within : j < 2048) :
    (mergeLine old new mask).getLsbD j = if mask.getLsbD (j / 8) then new.getLsbD j else old.getLsbD j := by
  have spread_bit : (spread mask).getLsbD j = mask.getLsbD (j / 8) := by
    rw [spread, BitVec.getLsbD_ofNat, testBit_spread_go, decide_eq_true within, Bool.true_and, Bool.true_and, BitVec.getLsbD]
  rw [mergeLine, BitVec.getLsbD_or, BitVec.getLsbD_and, BitVec.getLsbD_and, BitVec.getLsbD_not, spread_bit, decide_eq_true within]
  cases mask.getLsbD (j / 8) <;> simp only [Bool.not_true, Bool.not_false, Bool.and_false, Bool.and_true, Bool.or_false,
    Bool.false_or, Bool.false_eq_true, if_true, if_false]

theorem Mem.getLsbD_line (m : Mem) (a : Nat) {j : Nat} (within : j < 2048) :
    (Mem.line m a).getLsbD j = (Mem.read m (a + j / 8)).getLsbD (j % 8) := by
  rw [Mem.line, BitVec.getLsbD_ofNat, Mem.testBit_readN, decide_eq_true within, Bool.true_and, Bool.true_and]

/-! ## Writes under a mask -/

theorem Mem.read_writeMasked_inside {m : Mem} (canonical : Memory.wf m = true) (a : Nat) (d : Line) (mask : ByteMask) {i n b : Nat} (from_ : i ≤ b)
    (below : b < i + n) : Mem.read (Mem.writeMasked m a d mask i n) (a + b) = if mask.getLsbD b then lineByte d b else Mem.read m (a + b) := by
  induction n generalizing m i with
  | zero => omega
  | succ n ih =>
    rw [Mem.writeMasked]
    have stays : Memory.wf (if mask.getLsbD i then Mem.write m (a + i) (lineByte d i) else m) = true := by
      split
      · exact Mem.write_wf _ _ canonical
      · exact canonical
    rcases Nat.eq_or_lt_of_le from_ with rfl | later
    · refine (Mem.read_writeMasked_outside stays a d mask _ _ _ (by omega)).trans ?_
      split
      · exact (Mem.read_write canonical ..).trans (if_pos rfl)
      · rfl
    · refine (ih stays later (by omega)).trans ?_
      have apart : a + b ≠ a + i := by omega
      split
      · rfl
      · split
        · exact (Mem.read_write canonical ..).trans (if_neg apart)
        · rfl

theorem Mem.line_writeMasked {m : Mem} (canonical : Memory.wf m = true) (a : Nat) (d : Line) (mask : ByteMask) :
    Mem.line (Mem.writeMasked m a d mask 0 256) a = mergeLine (Mem.line m a) d mask := by
  refine BitVec.eq_of_getLsbD_eq fun j within => ?_
  have byte : 8 * (j / 8) + j % 8 = j := by omega
  have written : (lineByte d (j / 8)).getLsbD (j % 8) = d.getLsbD j := by
    rw [lineByte, BitVec.getLsbD_ofNat, Nat.testBit_shiftRight, byte, decide_eq_true (Nat.mod_lt j (by decide)), Bool.true_and, BitVec.getLsbD]
  rw [getLsbD_mergeLine _ _ _ within, Mem.getLsbD_line _ _ within, Mem.getLsbD_line _ _ within,
    Mem.read_writeMasked_inside canonical a d mask (Nat.zero_le _) (by omega)]
  split
  · exact written
  · rfl

theorem Mem.read_writeMasked_otherLine {m : Mem} (canonical : Memory.wf m = true) {line a : Nat} (other : a / 256 ≠ line) (d : Line)
    (mask : ByteMask) : Mem.read (Mem.writeMasked m (256 * line) d mask 0 256) a = Mem.read m a :=
  Mem.read_writeMasked_outside canonical (256 * line) d mask 0 256 a (by omega)

end Sys2Proof.Machine
end

section
/-!
PROOFS. The write of a resident line at its home (R108, R114, R116): which records it changes, its bytes and its stamp.
-/

namespace Sys2Proof.Machine

section
variable {s : State} {line : Nat}

/-! ## What a home's clock and a change of poison leave alone -/

@[simp] theorem State.raiseMts_mem (s : State) (k : Nat) (x : W32) : (s.raiseMts k x).mem = s.mem := rfl
@[simp] theorem State.raiseMts_l2 (s : State) (k : Nat) (x : W32) : (s.raiseMts k x).l2 = s.l2 := rfl
@[simp] theorem State.raiseMts_cores (s : State) (k : Nat) (x : W32) : (s.raiseMts k x).cores = s.cores := rfl

section
variable (s : State) (line : Nat) (mask bad : ByteMask)

/-- Poison is all that a change of poison changes. -/
theorem State.setPoison_eq : ∃ p, s.setPoison line mask bad = { s with poison := p } := by
  unfold State.setPoison
  split
  · exact ⟨s.poison, rfl⟩
  · exact ⟨_, rfl⟩

@[simp] theorem State.setPoison_mem : (s.setPoison line mask bad).mem = s.mem := by
  obtain ⟨p, same⟩ := s.setPoison_eq line mask bad
  rw [same]

@[simp] theorem State.setPoison_l2 : (s.setPoison line mask bad).l2 = s.l2 := by
  obtain ⟨p, same⟩ := s.setPoison_eq line mask bad
  rw [same]

@[simp] theorem State.setPoison_cores : (s.setPoison line mask bad).cores = s.cores := by
  obtain ⟨p, same⟩ := s.setPoison_eq line mask bad
  rw [same]

@[simp] theorem State.setPoison_homes : (s.setPoison line mask bad).homes = s.homes := by
  obtain ⟨p, same⟩ := s.setPoison_eq line mask bad
  rw [same]

end

/-! ## The bytes of a line -/

theorem State.lineData_congr {u : State} (l2 : u.l2 = s.l2) (mem : u.mem = s.mem) : u.lineData line = s.lineData line := by
  rw [State.lineData, State.lineData, l2, mem]

theorem State.lineData_of_resident {l : L2Line} (resident : Tab.find s.l2 line = some l) :
    s.lineData line = l.copy.getD (Mem.line s.mem (256 * line)) := by
  obtain ⟨_, _, _, _, _, _, _, _, _, copy, _, _⟩ := l
  cases copy <;> simp only [State.lineData, resident] <;> rfl

/-- The memory into which a write of a resident line merges its bytes: a copy that the L2 holds reaches it first, in the blocks that the write
touches (R58). -/
def State.baseOf (s : State) (line : Nat) (l : L2Line) (mask : ByteMask) : Mem :=
  l.copy.elim s.mem (fun d => Mem.writeMasked s.mem (256 * line) d (blockBytes mask) 0 256)

theorem State.mem_writeLine {l : L2Line} (resident : Tab.find s.l2 line = some l) (data : Line) (mask : ByteMask) :
    (s.writeLine line data mask).mem = Mem.writeMasked (s.baseOf line l mask) (256 * line) data mask 0 256 := by
  obtain ⟨_, _, _, _, _, _, _, _, _, copy, _, _⟩ := l
  cases copy <;> simp only [State.writeLine, State.baseOf, resident, Option.elim]

/-- A resident line with the bytes of a write in its copy, if it has one, and dirty towards DRAM (R108). -/
def L2Line.merged (l : L2Line) (data : Line) (mask : ByteMask) : L2Line :=
  { l with copy := l.copy.map (fun d => mergeLine d data mask), dirty := l.dirty ||| mask }

theorem State.find_writeLine {l : L2Line} (resident : Tab.find s.l2 line = some l) (data : Line) (mask : ByteMask) :
    Tab.find (s.writeLine line data mask).l2 line = some (l.merged data mask) := by
  simp [State.writeLine, resident, L2Line.merged]

theorem State.baseOf_wf (canonical : s.Canonical) (l : L2Line) (mask : ByteMask) : Memory.wf (s.baseOf line l mask) = true := by
  unfold State.baseOf
  cases l.copy with
  | none => exact canonical
  | some d =>
    rw [Option.elim_some]
    exact Mem.writeMasked_wf _ d _ _ _ canonical

theorem State.read_baseOf (canonical : s.Canonical) {a : Nat} (other : a / 256 ≠ line) (l : L2Line) (mask : ByteMask) :
    Mem.read (s.baseOf line l mask) a = Mem.read s.mem a := by
  unfold State.baseOf
  cases l.copy with
  | none => rfl
  | some d =>
    rw [Option.elim_some]
    exact Mem.read_writeMasked_otherLine canonical other d _

section
variable {l : L2Line} (canonical : s.Canonical) (resident : Tab.find s.l2 line = some l) (data : Line) (mask : ByteMask)
include canonical resident

theorem State.wf_writeLine : Memory.wf (s.writeLine line data mask).mem = true := by
  rw [State.mem_writeLine resident]
  exact Mem.writeMasked_wf _ _ _ _ _ (State.baseOf_wf canonical l mask)

theorem State.read_writeLine_other {a : Nat} (other : a / 256 ≠ line) : Mem.read (s.writeLine line data mask).mem a = Mem.read s.mem a := by
  rw [State.mem_writeLine resident, Mem.read_writeMasked_otherLine (State.baseOf_wf canonical l mask) other, State.read_baseOf canonical other]

theorem State.lineData_writeLine : (s.writeLine line data mask).lineData line = mergeLine (s.lineData line) data mask := by
  rw [State.lineData_of_resident (State.find_writeLine resident data mask), State.lineData_of_resident resident, State.mem_writeLine resident,
    Mem.line_writeMasked (State.baseOf_wf canonical l mask), State.baseOf, L2Line.merged]
  cases l.copy <;> rfl

end

@[simp] theorem State.writeLine_homes (s : State) (line : Nat) (data : Line) (mask : ByteMask) : (s.writeLine line data mask).homes = s.homes := by
  simp only [State.writeLine]

@[simp] theorem State.writeLine_cores (s : State) (line : Nat) (data : Line) (mask : ByteMask) : (s.writeLine line data mask).cores = s.cores := by
  simp only [State.writeLine]

/-! ## The home's clock and the stamp -/

theorem State.home_setHome_same {k : Nat} (listed : k < s.homes.length) (h : Home) : (s.setHome k h).home k = h := by
  simp [State.home, State.setHome, List.getD_eq_getElem?_getD, listed]

theorem State.length_homes_raiseMts (k : Nat) (x : W32) : (s.raiseMts k x).homes.length = s.homes.length := List.length_set

theorem State.mts_raiseMts {k : Nat} (listed : k < s.homes.length) (x : W32) : ((s.raiseMts k x).home k).mts = serialMax (s.home k).mts x := by
  rw [State.raiseMts, State.home_setHome_same listed]

theorem State.sweepFirst_of_unswept {k : Nat} (unswept : (s.home k).sweep = none) : s.sweepFirst k line = s := by
  simp only [State.sweepFirst, unswept]

theorem State.fetchLine_of_resident {l : L2Line} (resident : Tab.find s.l2 line = some l) (k part : Nat) (home2 : Bool) :
    s.fetchLine k line l.key part home2 = s := by
  simp only [State.fetchLine, resident, if_true]

/-- The home's clock and the line as a write with clock c leaves them before its bytes are merged. -/
def State.stamping (s : State) (k line : Nat) (c : W32) (l : L2Line) : State :=
  { s.raiseMts k c with l2 := Tab.set s.l2 line (stampLine l c).2 }

theorem State.find_stamping (s : State) (k : Nat) (c : W32) (l : L2Line) : Tab.find (s.stamping k line c l).l2 line = some (stampLine l c).2 :=
  Tab.find_set_same ..

theorem State.lineData_stamping {l : L2Line} (resident : Tab.find s.l2 line = some l) (k : Nat) (c : W32) :
    (s.stamping k line c l).lineData line = s.lineData line := by
  rw [State.lineData_of_resident (s.find_stamping k c l), State.lineData_of_resident resident]
  rfl

theorem State.homeWrite_of_resident {k : Nat} {l : L2Line} (unswept : (s.home k).sweep = none) (resident : Tab.find s.l2 line = some l)
    (part : Nat) (home2 : Bool) (c : W32) (data : Line) (mask bad : ByteMask) :
    s.homeWrite k line l.key part home2 c data mask bad = (((stampLine l c).1, l.wts),
      (((s.stamping k line c l).writeLine line data mask).setPoison line mask bad).raiseMts k (stampLine l c).1) := by
  have still : Tab.find (s.raiseMts k c).l2 line = some l := resident
  simp only [State.homeWrite, State.sweepFirst_of_unswept unswept, State.fetchLine_of_resident still, still]
  rfl

/-- R114: the class falls where the stamp jumped past a lease, unless it is 0. -/
theorem cls_stampLine (l : L2Line) (c : W32) : (stampLine l c).2.cls =
    if (serialLe c l.rts = true ∨ l.recalled = true) ∧ l.cls ≠ 0 then l.cls - 1 else l.cls := by
  simp only [stampLine, Bool.and_eq_true, Bool.or_eq_true, bne_iff_ne]

end

/-- Settles O52: the write is the merge of the bytes at the stamped line, between two raises of the home's clock. -/
theorem homeWrite : Obligations.HomeWrite := by
  unfold Obligations.HomeWrite
  intro s k line key part home2 c data mask bad l canonical listed unswept resident rfl
  have stamped := s.find_stamping (line := line) k c l
  have still : (s.stamping k line c l).Canonical := canonical
  dsimp only
  rw [State.homeWrite_of_resident unswept resident]
  refine ⟨rfl, ⟨(stampLine l c).2.merged data mask, ?line, rfl, rfl, ?falls, ?stays⟩, ?clock, ?bytes, ?others, ?l1s, ?canonical⟩
  case line => simp only [State.raiseMts_l2, State.setPoison_l2, State.find_writeLine stamped data mask]
  case falls => exact fun jumped positive => (cls_stampLine l c).trans (if_pos ⟨jumped, positive⟩)
  case stays => exact fun kept => (cls_stampLine l c).trans (if_neg fun ⟨jumped, positive⟩ => kept.elim (· jumped) positive)
  case clock =>
    have stays : k < (s.raiseMts k c).homes.length := by rwa [State.length_homes_raiseMts]
    have homes : (((s.stamping k line c l).writeLine line data mask).setPoison line mask bad).homes = (s.raiseMts k c).homes := by
      rw [State.setPoison_homes, State.writeLine_homes, State.stamping]
    rw [State.mts_raiseMts (homes ▸ stays), State.home, homes]
    exact congrArg (serialMax · _) (State.mts_raiseMts listed c)
  case bytes =>
    rw [State.lineData_congr (State.raiseMts_l2 ..) (State.raiseMts_mem ..), State.lineData_congr (State.setPoison_l2 ..) (State.setPoison_mem ..),
      State.lineData_writeLine still stamped, State.lineData_stamping resident]
  case others =>
    intro a other
    rw [State.raiseMts_mem, State.setPoison_mem, State.read_writeLine_other still stamped data mask other]
    rfl
  case l1s =>
    rw [State.raiseMts_cores, State.setPoison_cores, State.writeLine_cores]
    rfl
  case canonical =>
    rw [State.Canonical, State.raiseMts_mem, State.setPoison_mem]
    exact State.wf_writeLine still stamped data mask

end Sys2Proof.Machine
end

section
/-!
PROOFS. Clocks (R119 to R121) and ECC errors (R130): what each of their events does in the states where it has an effect.
-/

namespace Sys2Proof.Machine

section
variable {s : State}

/-! ## Clocks -/

theorem State.clockCreep_of_due {g : Agent} {c : Ctx} (context : s.ctx g = some c) (placed : c.saved = false)
    (due : c.placedAt + 1024 * (c.creeps + 1) < s.cycle (agentCore g)) :
    s.clockCreep g = s.updCtx g (fun c => { c with creeps := c.creeps + 1, wclk := c.wclk + 1 }) := by
  simp only [State.clockCreep, context, placed, due, decide_true, Bool.not_false, Bool.and_self, if_true]

/-- The next set of home k, swept to a limit (R120). -/
def State.sweptSet (s : State) (k : Nat) (limit : W32) (set : Nat) : State :=
  { s with l2 := s.l2.map (fun e => if homeOf (256 * e.1) = some k ∧ l2Set k e.1 = set then (e.1, sweepLine limit e.2) else e) }

theorem State.sweepStep_of_sweeping {k set : Nat} {limit : W32} (sweeping : (s.home k).sweep = some (limit, set)) : s.sweepStep k =
    (s.sweptSet k limit set).setHome k
      (if set + 1 < l2Sets k then { s.home k with sweep := some (limit, set + 1) }
       else { s.home k with sweep := none, sweeps := (s.home k).sweeps + 1 }) := by
  simp only [State.sweepStep, sweeping, State.sweptSet, Bool.and_eq_true, beq_iff_eq]

theorem State.floorBroadcast_of_due (due : s.floorN < (s.time - s.resetAt) / (4096 * 50)) : s.floorBroadcast =
    let f := s.maxMts - 0x20000000
    let u := (List.range 6).foldl (fun u k => u.raiseMts k f) s
    { u with
      floorN := (u.time - u.resetAt) / (4096 * 50)
      floor := f
      warps := u.warps.map (fun e => (e.1, { e.2 with ctx := e.2.ctx.floored f }))
      teams := u.teams.map (fun e => (e.1, { e.2 with ct := e.2.ct.floored f }))
      cores := u.cores.map (fun e => (e.1, { e.2 with eclk := floored f e.2.eclk, l1 := e.2.l1.map (fun l => (l.1, l.2.floored f)) }))
      hclk := floored f u.hclk } :=
  if_neg (Nat.not_le.2 due)

/-! ## Errors in the L1 -/

section
variable {core line : Nat} {l : L1Line} (resident : s.l1 core line = some l)
include resident

theorem State.cacheError_cleanLine (clean : l.dirty = 0) : s.cacheError (.l1Clean core line) = (s.dropL1 core line).countCorrected 1 := by
  simp only [State.cacheError, resident, clean, if_true]

theorem State.cacheError_cleanBytes (dirty : l.dirty ≠ 0) :
    s.cacheError (.l1Clean core line) = (s.setL1 core line { l with valid := fullSectors l.dirty }).countCorrected 1 := by
  simp only [State.cacheError, resident, dirty, if_false]

theorem State.cacheError_dirtyBytes {bytes : ByteMask} (struck : l.dirty &&& bytes ≠ 0) : s.cacheError (.l1Dirty core line bytes) =
    (s.setL1 core line { l with poison := l.poison ||| (l.dirty &&& bytes), sent := l.resent bytes }).countUncorrected 1 (256 * line) := by
  simp only [State.cacheError, resident, struck, if_false]

theorem State.cacheError_lineState : s.cacheError (.l1State core line) =
    ((s.setL1 core line { l with poison := l.poison ||| l.dirty, sent := [] }).evictL1 core line).countCorrected 1 := by
  simp only [State.cacheError, resident]

end

/-! ## Errors in the L2 -/

section
variable {line : Nat} {bytes : ByteMask}

theorem State.cacheError_hostLine {l : HostLine} (absent : Tab.find s.l2 line = none) (resident : Tab.find s.hostL2 line = some l) :
    s.cacheError (.l2Data line bytes) =
      ({ s with hostL2 := Tab.set s.hostL2 line { l with poison := l.poison ||| bytes } } : State).countUncorrected 4 (256 * line) := by
  simp only [State.cacheError, absent, resident]

variable {l : L2Line} (resident : Tab.find s.l2 line = some l)
include resident

theorem State.cacheError_homeLine : s.cacheError (.l2Data line bytes) = (s.setPoison line bytes bytes).countUncorrected 4 (256 * line) := by
  simp only [State.cacheError, resident]

theorem State.cacheError_hostState (unasked : l.snoop ≠ some false) :
    s.cacheError (.l2Host line) = (s.snoop line true false).countUncorrected 4 (256 * line) := by
  simp only [State.cacheError, resident]  -- the match falls through to its last case by unasked

theorem State.cacheError_hostStateAsked (asked : l.snoop = some false) : s.cacheError (.l2Host line) =
    (({ s with l2 := Tab.set s.l2 line { l with snoop := some true } } : State).emit (.bisnp line true)).countUncorrected 4 (256 * line) := by
  simp only [State.cacheError, resident, asked]

theorem State.cacheError_stamp {k : Nat} (home : homeOf (256 * line) = some k) : s.cacheError (.l2Stamp line) =
    let t := (s.home k).mts + 1
    (({ s with l2 := Tab.set s.l2 line { l with wts := t, rts := t, cls := 0 } } : State).raiseMts k t).countCorrected 4 := by
  simp only [State.cacheError, resident, home]

end

end

/-- Settles O27: each event does its operation, by the equation of the operation in the case that the clause names. -/
theorem clockEvents : Obligations.ClockEvents := by
  unfold Obligations.ClockEvents
  intro g home core line unit bytes
  refine ⟨fun c => .of_whileLive (fun _ => rfl) ?creep, fun limit set => .of_whileLive (fun _ => rfl) ?sweep,
    .of_whileLive (fun _ => rfl) ?floor, .of_whileLive (fun _ => rfl) ?corrected, fun l => .of_whileLive (fun _ => rfl) ?cleanLine,
    fun l => .of_whileLive (fun _ => rfl) ?cleanBytes, .of_whileLive (fun _ => rfl) ?elsewhere, fun l => .of_whileLive (fun _ => rfl) ?dirtyBytes,
    fun l => .of_whileLive (fun _ => rfl) ?lineState, fun l => .of_whileLive (fun _ => rfl) ?homeLine,
    fun l => .of_whileLive (fun _ => rfl) ?hostLine, fun l => .of_whileLive (fun _ => rfl) ?hostState,
    fun l => .of_whileLive (fun _ => rfl) ?hostStateAsked, fun l k => .of_whileLive (fun _ => rfl) ?stamp⟩
  case creep => exact fun s ⟨context, placed, due⟩ => State.clockCreep_of_due context placed due
  case sweep => exact fun s sweeping => State.sweepStep_of_sweeping sweeping
  case floor => exact fun s due => State.floorBroadcast_of_due due
  case corrected => exact fun s _ => rfl
  case cleanLine => exact fun s ⟨resident, clean⟩ => State.cacheError_cleanLine resident clean
  case cleanBytes => exact fun s ⟨resident, dirty⟩ => State.cacheError_cleanBytes resident dirty
  case elsewhere => exact fun s _ => rfl
  case dirtyBytes => exact fun s ⟨resident, struck⟩ => State.cacheError_dirtyBytes resident struck
  case lineState => exact fun s resident => State.cacheError_lineState resident
  case homeLine => exact fun s resident => State.cacheError_homeLine resident
  case hostLine => exact fun s ⟨absent, resident⟩ => State.cacheError_hostLine absent resident
  case hostState => exact fun s ⟨resident, unasked⟩ => State.cacheError_hostState resident unasked
  case hostStateAsked => exact fun s ⟨resident, asked⟩ => State.cacheError_hostStateAsked resident asked
  case stamp => exact fun s ⟨resident, home⟩ => State.cacheError_stamp resident home

end Sys2Proof.Machine
end

section
/-!
PROOFS. Peers and the host window: requests, acknowledgements, datum windows and messages of Belcy (R24 to R26, R128, R144, R164), and
completions of the host (R127).
-/

namespace Sys2Proof.Machine

section
variable {s : State}

/-! ## Requests of peers (R164) and acknowledgements (R144) -/

theorem State.peerRequest_of_within {chip : Nat} {pasid : W16} {va edge : W64} {op : PeerOp} (some_ : peerBytes op ≠ 0)
    (within : va.toNat % 64 + peerBytes op ≤ 64) : s.peerRequest chip pasid va op edge =
      ({ s with nextId := s.nextId + 1 } : State).servePeer { id := s.nextId, chip := chip, pasid := pasid, va := va, op := op, edge := edge } := by
  simp only [State.peerRequest, some_, Nat.not_lt.2 within, decide_false, Bool.or_false, Bool.false_eq_true, if_false]
  rfl

theorem State.remoteAck_of_listed {id : Nat} {r : RemoteWrite} (c : Cause) (listed : s.remotes.find? (fun r => r.id == id) = some r) :
    s.remoteAck id c = ({ s with remotes := s.remotes.filter (fun o => o.id != id) } : State).answerWrite r.owner r.core none c := by
  simp only [State.remoteAck, listed]

theorem State.ackFlit_of_open {since id : Nat} (passes : s.flitShut (.ack id) = false) : s.ackFlit since id = s.remoteAck id Cause.none :=
  if_neg (by simp [passes])

theorem State.ackFlit_of_shut {since id : Nat} (shut : s.flitShut (.ack id) = true) : s.ackFlit since id = s.holdFlit since (.ack id) := if_pos shut

theorem State.windowStart_of_due (due : s.datum / 1000 ≠ s.window) : s.windowStart = s.rollWindow.expirePeers := if_neg due

/-! ## Messages at a port (R24, R25) -/

/-- A message that is no answer. -/
def NoAnswer (op : PeerOp) : Prop := ∀ i d c, op ≠ .reply i d c

section
variable {since port dest src : Nat} {edge va : W64} {op : PeerOp} {pasid : W16}

theorem State.peerFlit_of_shut (shut : s.flitShut (.peer port dest src edge op pasid va) = true) :
    s.peerFlit since port dest src edge op pasid va = s.holdFlit since (.peer port dest src edge op pasid va) := if_pos shut

theorem State.peerFlit_of_open (passes : s.flitShut (.peer port dest src edge op pasid va) = false) :
    s.peerFlit since port dest src edge op pasid va = s.belcyArrive port dest src edge op pasid va :=
  if_neg (by simp [passes])

/-- No link of the package lies on the way of a request for this chip. -/
theorem State.flitShut_of_request (here : dest % 1024 = s.chipId) (asks : NoAnswer op) :
    s.flitShut (.peer port dest src edge op pasid va) = false := by
  cases op with
  | reply i d c => exact absurd rfl (asks i d c)
  | _ => simp only [State.flitShut, State.flitWay, here, if_true]

theorem State.belcyArrive_of_unlocked (unlocked : s.chipcfg.getLsbD 16 = false) : s.belcyArrive port dest src edge op pasid va = s :=
  if_pos (by rw [unlocked, Bool.not_false])

section
variable (locked : s.chipcfg.getLsbD 16 = true)
include locked

theorem State.belcyArrive_of_request (here : dest % 1024 = s.chipId) (asks : NoAnswer op) :
    s.belcyArrive port dest src edge op pasid va = s.peerRequest src pasid va op edge := by
  have same : dest % 1024 = s.chipcfg.toNat % 1024 := here
  cases op with
  | reply i d c => exact absurd rfl (asks i d c)
  | _ => simp only [State.belcyArrive, locked, same, Bool.not_true, bne_self_eq_false, Bool.false_eq_true, if_false]

theorem State.belcyArrive_of_transit (away : dest % 1024 ≠ s.chipId) :
    s.belcyArrive port dest src edge op pasid va = s.forward (port / 64 % 2) (dest % 1024) src edge op pasid va := by
  have apart : (dest % 1024 != s.chipcfg.toNat % 1024) = true := bne_iff_ne.2 away
  simp only [State.belcyArrive, locked, apart, Bool.not_true, Bool.false_eq_true, if_false, if_true]

end

theorem State.forward_of_port {io out : Nat} (leads : s.pickPort io src dest va.toNat = some out) : s.forward io dest src edge op pasid va =
    (s.rollWindow.admitBytes out (peerBytes op + 32) false).emit (.peer 0 out src dest pasid va op edge) := by
  simp only [State.forward, leads]

theorem State.forward_of_none {io : Nat} (leads : s.pickPort io src dest va.toNat = none) :
    s.forward io dest src edge op pasid va = s.refuseTransit src edge op pasid va := by
  simp only [State.forward, leads]

theorem State.refuseTransit_of_request (asks : NoAnswer op) : s.refuseTransit src edge op pasid va =
    ({ s with nextId := s.nextId + 1 } : State).peerAnswer { id := s.nextId, chip := src, pasid := pasid, va := va, op := op, edge := edge } 0
      .peerPath := by
  cases op with
  | reply i d c => exact absurd rfl (asks i d c)
  | _ => rfl

end

theorem State.laneFail_of_up {port : Nat} (real : port < 128) (up : (Tab.get {} s.rollWindow.belcy port).lanesDown < 2) : s.laneFail port =
    let u := s.rollWindow
    let b := Tab.get {} u.belcy port
    (({ u with belcy := Tab.put {} u.belcy port { b with lanesDown := b.lanesDown + 1, lateNow := true } } : State).updCounts
      (fun c => { c with laneEvents := bump c.laneEvents port })).emit (.laneEvent port) := by
  simp only [State.laneFail, Nat.not_le.2 real, Nat.not_le.2 up, decide_false, Bool.or_false, Bool.false_eq_true, if_false]

/-! ## The host window (R127) -/

section
variable {since id : Nat} {data : Line} {x : HostTxn} (listed : s.hostTxns.find? (fun t => t.id == id) = some x)
include listed

theorem State.hostFlit_of_open {ok : Bool} (free : s.hostBlocks x = none) (passes : s.flitShut (.hostDone id data ok) = false) :
    s.hostFlit since id data ok = s.hostDone id data ok := by
  simp only [State.hostFlit, listed, free, passes, Bool.false_eq_true, if_false]

theorem State.hostFlit_of_shut {ok : Bool} (free : s.hostBlocks x = none) (shut : s.flitShut (.hostDone id data ok) = true) :
    s.hostFlit since id data ok = s.holdFlit since (.hostDone id data ok) := by
  simp only [State.hostFlit, listed, free, shut, if_true]

omit listed in
/-- What fills no line waits for no way. -/
theorem State.hostBlocks_of_unfilled (unfilled : x.fill = false) : s.hostBlocks x = none := by
  simp only [State.hostBlocks, unfilled, Bool.not_false, Bool.true_or, if_true]

/-- The transaction with this number has left. -/
def State.dropTxn (s : State) (id : Nat) : State := { s with hostTxns := s.hostTxns.filter (fun o => o.id != id) }

theorem State.hostDone_of_write (write : x.write = true) (plain : x.atom = none) (unfilled : x.fill = false) :
    s.hostDone id data true = (s.dropTxn id).answerWrite x.await x.core none .none := by
  simp only [State.hostDone, listed, write, plain, unfilled, Option.isNone_none, Bool.false_and, Bool.not_true, Bool.and_self, Bool.false_eq_true,
    if_false, if_true]
  rfl

/-- The L2 of the I/O die filled with the bytes of a read, under those of writes that came later. -/
def State.filledHost (s : State) (x : HostTxn) (data : Line) : State :=
  let room := s.hostRoom x.line x.part
  { room.2 with hostL2 := Tab.set room.2.hostL2 x.line { data := mergeLine data x.laterData x.later, filled := room.2.time, way := room.1 } }

omit listed in
/-- No write of the line that was sent before lies over the bytes that the host read. -/
theorem foldl_before_of_alone {l : List HostTxn} (t : HostTxn) (alone : ∀ o ∈ l, o.line ≠ t.line) (data : Line) :
    l.foldl (fun d o => if o.write && o.line == t.line && o.atom.isNone && decide (o.id < t.id) then
      mergeLine d (lineOf (o.pa % 256) o.data.toNat) (byteRange (o.pa % 256) o.n) else d) data = data := by
  refine List.foldlRecOn (motive := fun d => d = data) l _ rfl fun d same o mem => ?_
  have apart : (o.line == t.line) = false := beq_eq_false_iff_ne.2 (alone o mem)
  simp only [apart, same, Bool.and_false, Bool.false_and, Bool.false_eq_true, if_false]

theorem State.hostDone_of_fill (read : x.write = false) (fills : x.fill = true) (alone : ∀ o ∈ (s.dropTxn id).hostTxns, o.line ≠ x.line) :
    s.hostDone id data true = (((s.dropTxn id).filledHost x data).meetFar x.await x.line).answerRead x.await data 0 .none none := by
  have bytes := foldl_before_of_alone x alone data
  rw [State.dropTxn] at bytes
  simp only [State.hostDone, listed, read, fills, bytes, Bool.and_self, Bool.false_and, Bool.false_eq_true, if_false, if_true]
  rfl

end

end

/-- Settles O30: each event does its operation, by the equation of the operation in the case that the clause names. -/
theorem peerEvents : Obligations.PeerEvents := by
  unfold Obligations.PeerEvents
  intro chip port dest src id pasid va edge op data within wait done flit
  refine ⟨.of_whileLive (fun _ => rfl) ?request, fun r => .of_whileLive (fun _ => rfl) ?ack, .of_whileLive (fun _ => rfl) ?window,
    .of_whileLive (fun _ => rfl) ?arrives, fun out => .of_whileLive (fun _ => rfl) ?forwards, .of_whileLive (fun _ => rfl) ?refused,
    .of_whileLive (fun _ => rfl) ?lost, .of_whileLive (fun _ => rfl) ?unlocked, .of_whileLive (fun _ => rfl) ?shut,
    .of_whileLive (fun _ => rfl) ?ackShut, .of_whileLive (fun _ => rfl) ?laneFails, fun x => .of_whileLive (fun _ => rfl) ?written,
    fun x => .of_whileLive (fun _ => rfl) ?filled, .of_whileLive (fun _ => rfl) ?answerShut⟩
  case request => exact fun s ⟨locked, some_, within⟩ => (if_pos locked).trans (State.peerRequest_of_within some_ within)
  case ack => exact fun s ⟨passes, listed⟩ => (State.ackFlit_of_open passes).trans (State.remoteAck_of_listed _ listed)
  case window => exact fun s due => State.windowStart_of_due due
  case arrives =>
    exact fun s ⟨locked, here, ⟨some_, within⟩, asks⟩ =>
      (State.peerFlit_of_open (State.flitShut_of_request here asks)).trans
        ((State.belcyArrive_of_request locked here asks).trans (State.peerRequest_of_within some_ within))
  case forwards =>
    exact fun s ⟨locked, passes, away, leads⟩ =>
      (State.peerFlit_of_open passes).trans ((State.belcyArrive_of_transit locked away).trans (State.forward_of_port leads))
  case refused =>
    exact fun s ⟨locked, passes, away, nowhere, asks⟩ =>
      (State.peerFlit_of_open passes).trans ((State.belcyArrive_of_transit locked away).trans
        ((State.forward_of_none nowhere).trans (State.refuseTransit_of_request asks)))
  case lost =>
    intro s ⟨locked, passes, away, nowhere, i, d, c, answers⟩
    rw [State.peerFlit_of_open passes, State.belcyArrive_of_transit locked away, State.forward_of_none nowhere, answers]
    rfl
  case unlocked => exact fun s ⟨unlocked, passes⟩ => (State.peerFlit_of_open passes).trans (State.belcyArrive_of_unlocked unlocked)
  case shut => exact fun s shut => State.peerFlit_of_shut shut
  case ackShut => exact fun s shut => State.ackFlit_of_shut shut
  case laneFails => exact fun s ⟨real, up⟩ => State.laneFail_of_up real up
  case written =>
    exact fun s ⟨listed, passes, write, plain, unfilled⟩ =>
      (State.hostFlit_of_open listed (State.hostBlocks_of_unfilled unfilled) passes).trans (State.hostDone_of_write listed write plain unfilled)
  case filled =>
    exact fun s ⟨listed, free, passes, read, fills, alone⟩ =>
      (State.hostFlit_of_open listed free passes).trans (State.hostDone_of_fill listed read fills alone)
  case answerShut =>
    intro s ⟨isListed, free, shut⟩
    obtain ⟨x, listed⟩ := Option.isSome_iff_exists.1 isListed
    exact State.hostFlit_of_shut listed (free x listed) shut

end Sys2Proof.Machine
end

section
/-!
PROOFS. Requests at their homes and what their replies bring (R111 to R117, R126).
-/

namespace Sys2Proof.Machine

section
variable {s : State} {id k : Nat} {r : Req} {kind : ReqKind → Bool} {write : Bool}

/-! ## A request arrives, waits, or is served -/

/-- Request r of a kind has this number, and its line has home k. -/
def State.Asks (s : State) (id : Nat) (kind : ReqKind → Bool) (r : Req) (k : Nat) : Prop :=
  s.reqs.find? (fun o => o.id == id && kind o.kind) = some r ∧ lineHome r.line = some k

/-- It is its turn at its home, and no host stands in its way. -/
def State.Served (s : State) (id : Nat) (kind : ReqKind → Bool) (r : Req) (k : Nat) (write : Bool) : Prop :=
  s.Asks id kind r k ∧ r.arrived.isSome = true ∧ s.reqReady r = true ∧ s.clearHost r.line r.key r.part write = none

/-- The request has left the queue of its home. -/
def State.dropReq (s : State) (id : Nat) : State := { s with reqs := s.reqs.filter (fun o => o.id != id) }

section
variable {f : State → Req → Nat → State}

theorem State.serve_of_arriving (asks : s.Asks id kind r k) (away : r.arrived = none) (may : s.mayArrive r = true) :
    s.serve id write kind f = s.arriveReq id := by
  obtain ⟨found, home⟩ := asks
  simp only [State.serve, found, home, away, may, Option.isNone_none, if_true]

section
variable (asks : s.Asks id kind r k) (arrived : r.arrived.isSome = true)
include asks arrived

theorem State.serve_of_early (early : s.reqReady r = false) : s.serve id write kind f = s := by
  obtain ⟨found, home⟩ := asks
  simp only [State.serve, found, home, Option.isNone_eq_false_iff.2 arrived, early, Bool.not_false, Bool.false_eq_true, if_false, if_true]

theorem State.serve_of_recall {u : State} (ready : s.reqReady r = true) (recalls : s.clearHost r.line r.key r.part write = some u) :
    s.serve id write kind f = u := by
  obtain ⟨found, home⟩ := asks
  simp only [State.serve, found, home, Option.isNone_eq_false_iff.2 arrived, ready, recalls, Bool.not_true, Bool.false_eq_true, if_false]

end

theorem State.serve_of_served (served : s.Served id kind r k write) : s.serve id write kind f = f (s.dropReq id) r k := by
  obtain ⟨⟨found, home⟩, arrived, ready, clear⟩ := served
  simp only [State.serve, found, home, Option.isNone_eq_false_iff.2 arrived, ready, clear, Bool.not_true, Bool.false_eq_true, if_false]
  rfl

/-- An event that serves a request, in the states in which it does: the request arrives, has a line recalled from a host, or waits for an
earlier one. -/
def Comes (id : Nat) (e : Instr) (kind : ReqKind → Bool) (write : Bool) (fresh : State → Prop) : Prop :=
  (∀ r k, Happens e (fun s => fresh s ∧ s.Asks id kind r k ∧ r.arrived = none ∧ s.mayArrive r = true) (fun s => s.arriveReq id)) ∧
  (∀ r k u, Happens e
    (fun s => fresh s ∧ s.Asks id kind r k ∧ r.arrived.isSome = true ∧ s.reqReady r = true ∧ s.clearHost r.line r.key r.part write = some u)
    (fun _ => u)) ∧
  (∀ r k, Happens e (fun s => fresh s ∧ s.Asks id kind r k ∧ r.arrived.isSome = true ∧ s.reqReady r = false) (fun s => s))

theorem comes_of_serve {e : Instr} {fresh : State → Prop} {op : State → State} (arm : ∀ s, exec e s = s.whileLive op)
    (serves : ∀ s, fresh s → op s = s.serve id write kind f) : Comes id e kind write fresh := by
  refine ⟨fun r k => .of_whileLive arm ?arrives, fun r k u => .of_whileLive arm ?recalls, fun r k => .of_whileLive arm ?waits⟩
  case arrives => exact fun s ⟨new, asks, away, may⟩ => (serves s new).trans (State.serve_of_arriving asks away may)
  case recalls => exact fun s ⟨new, asks, arrived, ready, recalls⟩ => (serves s new).trans (State.serve_of_recall asks arrived ready recalls)
  case waits => exact fun s ⟨new, asks, arrived, early⟩ => (serves s new).trans (State.serve_of_early asks arrived early)

end

/-! ## The home's clock under a request -/

theorem State.homes_sweepFirst (s : State) (k line : Nat) : (s.sweepFirst k line).homes = s.homes := by
  unfold State.sweepFirst
  split
  · split <;> rfl
  · rfl

theorem State.reqClock_sweepFirst (s : State) (k line : Nat) (r : Req) : (s.sweepFirst k line).reqClock k r = s.reqClock k r := by
  simp only [State.reqClock, State.home, State.homes_sweepFirst]

/-- The home's clock has taken that of the request, which has left the queue. -/
def State.noted (s : State) (id : Nat) (r : Req) (k : Nat) : State :=
  ((s.dropReq id).sweepFirst k r.line).raiseMts k (((s.dropReq id).sweepFirst k r.line).reqClock k r)

theorem State.noteClock_dropReq (s : State) (id : Nat) (r : Req) (k : Nat) : (s.dropReq id).noteClock k r = s.noted id r k := by
  rw [State.noted, State.reqClock_sweepFirst, State.noteClock]

/-- The line of the request is resident. -/
def State.fetched (s : State) (id : Nat) (r : Req) (k : Nat) : State := (s.noted id r k).fetchLine k r.line r.key r.part r.home2

/-! ## Renewals (R111) -/

section
variable (served : s.Served id ReqKind.isRenew r k false) {wts : Option W32} {sector : Nat} {pin : Option (BitVec 2)}
include served

theorem State.homeRenew_of_resident {l : L2Line} (good : (s.noted id r k).reqKeyBad r = false) (renew : r.kind = .renew wts sector pin false)
    (resident : Tab.find (s.fetched id r k).l2 r.line = some l) : s.homeRenew id =
      let cls := if wts = some l.wts ∧ l.cls ≠ 3 then l.cls + 1 else l.cls
      let len := leaseLen (pin.getD cls)
      let rts := serialMax l.rts (serialMax (l.wts + len) (r.c + len))
      let u := ({ s.fetched id r k with l2 := Tab.set (s.fetched id r k).l2 r.line { l with cls := cls, rts := rts } } : State).raiseMts k rts
      u.reply { id := id, req := r, wts := l.wts, rts := rts, data := u.lineData r.line
                sectors := if wts = some l.wts then BitVec.ofNat 4 (2 ^ sector) else 15, same := false, bad := u.poisonOf r.line } := by
  rw [State.fetched] at resident ⊢
  rw [State.homeRenew, State.serve_of_served served]
  simp only [renew, State.noteClock_dropReq, good, resident, Bool.and_eq_true, decide_eq_true_eq, bne_iff_ne, Bool.false_eq_true, if_false]

/-- A prefetch into the L2 alone has no reply. -/
theorem State.homeRenew_of_prefetch (good : (s.noted id r k).reqKeyBad r = false) (renew : r.kind = .renew wts sector pin true) :
    s.homeRenew id = s.fetched id r k := by
  rw [State.homeRenew, State.serve_of_served served]
  simp only [renew, State.noteClock_dropReq, good, Bool.false_eq_true, if_false, if_true]
  split <;> rfl

theorem State.homeRenew_of_badKey {l2only : Bool} (bad : (s.noted id r k).reqKeyBad r = true) (renew : r.kind = .renew wts sector pin l2only) :
    s.homeRenew id = (s.noted id r k).reply
      { id := id, req := r, wts := r.c, rts := r.c, data := 0, sectors := 0, same := false, cause := .keyInvalid } := by
  rw [State.homeRenew, State.serve_of_served served]
  simp only [renew, State.noteClock_dropReq, bad, if_true]

end

/-! ## Reads (R112) -/

/-- A reply that brings neither bytes nor a time. -/
def plainReply (id : Nat) (r : Req) : Reply := { id := id, req := r, wts := 0, rts := 0, data := 0, sectors := 0, same := false }

theorem State.home1Read_of_new (new : s.replyFor id ReqKind.isRead = none) : s.home1Read id = s.home1Serve id := by
  simp only [State.home1Read, new]

section
variable (served : s.Served id ReqKind.isRead r k false)
include served

theorem State.home1Serve_of_read (good : (s.noted id r k).reqKeyBad r = false) (read : r.kind = .read1) : s.home1Serve id =
    let x := (s.noted id r k).stampRead k r.line r.key r.part r.home2 ((s.noted id r k).reqClock k r)
    x.2.reply { plainReply id r with wts := x.1, rts := x.1, data := x.2.lineData r.line, bad := x.2.poisonOf r.line } := by
  rw [State.home1Serve, State.serve_of_served served]
  simp only [read, State.noteClock_dropReq, good, Bool.false_eq_true, if_false, plainReply]

theorem State.home1Serve_of_badKey (bad : (s.noted id r k).reqKeyBad r = true) (read : r.kind = .read1) :
    s.home1Serve id = (s.noted id r k).reply { plainReply id r with cause := .keyInvalid } := by
  rw [State.home1Serve, State.serve_of_served served]
  simp only [read, State.noteClock_dropReq, bad, if_true, plainReply]

theorem State.home1Serve_of_untimed (good : s.keyValid.getLsbD r.key.toNat = true) (raw : r.kind = .rawRead) : s.home1Serve id =
    (s.dropReq id).reply { plainReply id r with data := (s.dropReq id).lineAs r.line r.key, bad := (s.dropReq id).poisonOf r.line } := by
  have still : (s.dropReq id).keyValid.getLsbD r.key.toNat = true := good
  rw [State.home1Serve, State.serve_of_served served]
  simp only [raw, still, Bool.not_true, Bool.false_eq_true, if_false, plainReply]

end

section
variable {p : Reply} (comes : s.replyFor id ReqKind.isRead = some p)
include comes

theorem State.home1Read_of_stamped (read : p.req.kind = .read1) (good : p.cause = .none) : s.home1Read id =
    p.req.awaits.foldl (fun u a => u.answerRead a p.data p.bad .none (some p.wts)) (s.dropReply id) := by
  simp only [State.home1Read, comes, read, good]

theorem State.home1Read_of_failed (read : p.req.kind = .read1) (bad : p.cause ≠ .none) : s.home1Read id =
    p.req.awaits.foldl (fun u a => u.answerRead a p.data p.bad p.cause none) (s.dropReply id) := by
  simp only [State.home1Read, comes, read]
  split
  case h_1 good => exact absurd good bad
  case h_2 => rfl

theorem State.home1Read_of_untimed (raw : p.req.kind = .rawRead) : s.home1Read id =
    p.req.awaits.foldl (fun u a => (u.meetFar a p.req.line).answerRead a p.data p.bad p.cause none) (s.dropReply id) := by
  simp only [State.home1Read, comes, raw]

end

/-! ## Write-backs (R114) -/

section
variable (served : s.Served id ReqKind.isWrite r k true)
include served

section
variable {data : Line} {mask bad : ByteMask} {wts : Option W32}

theorem State.homeWriteback_of_merged (good : (s.noted id r k).keyValid.getLsbD r.key.toNat = true) (wback : r.kind = .wback data mask wts bad)
    (other : r.src ≠ .own) : s.homeWriteback id =
      let x := (s.noted id r k).homeWrite k r.line r.key r.part r.home2 ((s.noted id r k).reqClock k r) data mask bad
      x.2.reply { id := id, req := r, wts := x.1.1, rts := x.1.1, data := 0, sectors := 0, same := wts == some x.1.2 } := by
  rw [State.homeWriteback, State.serve_of_served served]
  simp only [wback, State.noteClock_dropReq, good, other, Bool.not_true, Bool.false_eq_true, if_false]

theorem State.homeWriteback_of_badKey (cleared : (s.noted id r k).keyValid.getLsbD r.key.toNat = false) (wback : r.kind = .wback data mask wts bad)
    (other : r.src ≠ .own) : s.homeWriteback id = ((s.noted id r k).logError 4 (256 * r.line)).reply
      { id := id, req := r, wts := r.c, rts := r.c, data := 0, sectors := 0, same := false } := by
  rw [State.homeWriteback, State.serve_of_served served]
  simp only [wback, State.noteClock_dropReq, cleared, other, Bool.not_false, if_false, if_true]

end

theorem State.homeWriteback_of_untimed {data : Line} {mask : ByteMask} (good : s.keyValid.getLsbD r.key.toNat = true)
    (raw : r.kind = .rawWrite data mask) : s.homeWriteback id = ((s.dropReq id).writeRaw r.line r.key data mask).reply (plainReply id r) := by
  have still : (s.dropReq id).keyValid.getLsbD r.key.toNat = true := good
  rw [State.homeWriteback, State.serve_of_served served]
  simp only [raw, still, if_true, plainReply]

end

/-! ## Atomics (R116) -/

theorem State.homeAtomic_of_performed {off : Nat} {op : AtomOp} (served : s.Served id ReqKind.isAtomic r k true)
    (good : (s.noted id r k).reqKeyBad r = false) (atomic : r.kind = .atomic off op)
    (clean : (s.fetched id r k).poisonOf r.line &&& byteRange off (Ty.bits op.ty / 8) = 0) : s.homeAtomic id =
      let u := s.fetched id r k
      let c := (s.noted id r k).reqClock k r
      let old := lineField (u.lineData r.line) off (Ty.bits op.ty / 8)
      let x := u.homeWrite k r.line r.key r.part r.home2 c (lineOf off (atomNew op old)) (byteRange off (Ty.bits op.ty / 8)) 0
      x.2.reply { id := id, req := r, wts := x.1.1, rts := x.1.1, data := lineOf off old, sectors := 0, same := false
                  old := BitVec.ofNat 64 old } := by
  rw [State.fetched] at clean ⊢
  rw [State.homeAtomic, State.serve_of_served served]
  simp only [atomic, State.noteClock_dropReq, good, clean, bne_self_eq_false, Bool.false_eq_true, if_false, if_true]

/-! ## Replies -/

/-- The line of a request in its core's L1, if it is held under the request's key. -/
def State.heldLineOf (s : State) (r : Req) : Option L1Line := (s.l1 r.core r.line).filter (fun l => l.key == r.key)

theorem State.elim_heldLineOf {α : Type} (s : State) (r : Req) (absent : α) (f : L1Line → α) : (s.heldLineOf r).elim absent f =
    match s.l1 r.core r.line with
    | some l => if l.key = r.key then f l else absent
    | none => absent := by
  unfold State.heldLineOf
  cases s.l1 r.core r.line with
  | none => rfl
  | some l => by_cases same : l.key = r.key <;> simp [Option.filter, same]

theorem State.renewalReply_of_good {p : Reply} (comes : s.replyFor id ReqKind.isRenew = some p) (good : p.cause = .none) : s.renewalReply id =
    let full : Reply := { p with
      data := mergeLine p.data p.req.kept p.req.keptMask, bad := (p.bad &&& ~~~p.req.keptMask) ||| p.req.keptBad }
    let v := (p.req.awaits.foldl (fun u a => u.awaitDirty a p.req.keptLine) (s.dropReply id)).installL1 full
    let u := (v.heldLineOf p.req).elim v (fun l => p.req.awaits.foldl (fun u a => u.awaitDirty a l) v)
    let own : ByteMask × Line × ByteMask := (u.heldLineOf p.req).elim (0, 0, 0) (fun l => (l.dirty, l.data, l.poison))
    p.req.awaits.foldl (fun u a => u.answerRead a (mergeLine full.data own.2.1 own.1) ((full.bad &&& ~~~own.1) ||| (own.2.2 &&& own.1)) .none
      (some p.wts)) u := by
  simp only [State.renewalReply, comes, Reply.withKept, good, if_true, State.elim_heldLineOf] <;> rfl

theorem Reply.stamp_of_untimed {p : Reply} {data : Line} {mask : ByteMask} (raw : p.req.kind = .rawWrite data mask) : p.stamp = none := by
  simp only [Reply.stamp, raw]
  split
  case h_1 wback => cases wback
  case h_2 wback => cases wback
  case h_3 => rfl

section
variable {p : Reply} (comes : s.replyFor id ReqKind.isWrite = some p)
include comes

theorem State.writebackReply_of_resident {data : Line} {mask bad : ByteMask} {wts : Option W32} {core : Nat} {l : L1Line}
    (wback : p.req.kind = .wback data mask wts bad) (mine : p.req.src = .core core)
    (resident : ((s.dropReply id).raiseEclk p.req.core p.wts).l1 p.req.core p.req.line = some l) (sameKey : l.key = p.req.key)
    (leased : l.peer = none) : s.writebackReply id =
      p.req.awaits.foldl (fun v a => v.answerWrite a p.req.core (some p.wts) .none)
        (((s.dropReply id).raiseEclk p.req.core p.wts).setL1 p.req.core p.req.line (l.stamped id p.wts p.same)) := by
  simp only [State.writebackReply, comes, Reply.stamp, wback, mine, resident, sameKey, leased, Option.isNone_none, and_self, if_true]

theorem State.writebackReply_of_untimed {data : Line} {mask : ByteMask} (raw : p.req.kind = .rawWrite data mask) :
    s.writebackReply id = p.req.awaits.foldl (fun v a => v.answerWrite a p.req.core none .none) (s.dropReply id) := by
  simp only [State.writebackReply, comes, Reply.stamp_of_untimed raw, raw]
  split
  case h_1 wback _ => cases wback
  case h_2 => rfl

end

section
variable {p : Reply} (comes : s.replyFor id ReqKind.isAtomic = some p)
include comes

theorem State.atomicReply_of_core (inside : ∀ c, p.req.src ≠ .peer c) : s.atomicReply id =
    p.req.awaits.foldl (fun v a => v.answerRead a p.data 0 p.cause (some p.wts)) ((s.dropReply id).raiseEclk p.req.core p.wts) := by
  simp only [State.atomicReply, comes]

theorem State.atomicReply_of_peer {chip : Nat} (peer : p.req.src = .peer chip) : s.atomicReply id =
    p.req.awaits.foldl (fun v a => v.answerRead a p.data 0 p.cause none) (s.dropReply id) := by
  simp only [State.atomicReply, comes, peer]

end

end

/-- Settles O26: a request arrives, waits or is served by the equations of State.serve, and each service and each reply does its operation in the
case that the clause names. -/
theorem homeEvents : Obligations.HomeEvents := by
  unfold Obligations.HomeEvents
  intro id asks served comes taken noted fetched plain new replied
  refine ⟨comes_of_serve (fun _ => rfl) fun _ _ => rfl, comes_of_serve (fun _ => rfl) fun _ new => State.home1Read_of_new new,
    comes_of_serve (fun _ => rfl) fun _ _ => rfl, comes_of_serve (fun _ => rfl) fun _ _ => rfl,
    fun r k wts sector pin l => .of_whileLive (fun _ => rfl) ?renewed, fun r k wts sector pin => .of_whileLive (fun _ => rfl) ?prefetched,
    fun r k wts sector pin l2only => .of_whileLive (fun _ => rfl) ?renewBadKey, fun r k => .of_whileLive (fun _ => rfl) ?read,
    fun r k => .of_whileLive (fun _ => rfl) ?readBadKey, fun r k => .of_whileLive (fun _ => rfl) ?rawRead,
    fun p => .of_whileLive (fun _ => rfl) ?readReply, fun p => .of_whileLive (fun _ => rfl) ?readFails,
    fun p => .of_whileLive (fun _ => rfl) ?rawReply, fun r k data mask wts bad => .of_whileLive (fun _ => rfl) ?merged,
    fun r k data mask wts bad => .of_whileLive (fun _ => rfl) ?discarded, fun r k data mask => .of_whileLive (fun _ => rfl) ?rawWrite,
    fun r k off op => .of_whileLive (fun _ => rfl) ?atomic, fun p wts sector pin l2only => .of_whileLive (fun _ => rfl) ?renewReply,
    fun p data mask wts bad core l => .of_whileLive (fun _ => rfl) ?writeReply, fun p data mask => .of_whileLive (fun _ => rfl) ?rawWritten,
    fun p off op => .of_whileLive (fun _ => rfl) ?atomicReply, fun p off op chip => .of_whileLive (fun _ => rfl) ?peerReply⟩
  case renewed => exact fun s ⟨served, good, renew, resident⟩ => State.homeRenew_of_resident served good renew resident
  case prefetched => exact fun s ⟨served, good, renew⟩ => State.homeRenew_of_prefetch served good renew
  case renewBadKey => exact fun s ⟨served, bad, renew⟩ => State.homeRenew_of_badKey served bad renew
  case read =>
    exact fun s ⟨new, served, good, read⟩ => (State.home1Read_of_new new).trans (State.home1Serve_of_read served good read)
  case readBadKey =>
    exact fun s ⟨new, served, bad, read⟩ => (State.home1Read_of_new new).trans (State.home1Serve_of_badKey served bad read)
  case rawRead =>
    exact fun s ⟨new, served, good, raw⟩ => (State.home1Read_of_new new).trans (State.home1Serve_of_untimed served good raw)
  case readReply => exact fun s ⟨comes, read, good⟩ => State.home1Read_of_stamped comes read good
  case readFails => exact fun s ⟨comes, read, bad⟩ => State.home1Read_of_failed comes read bad
  case rawReply => exact fun s ⟨comes, raw⟩ => State.home1Read_of_untimed comes raw
  case merged => exact fun s ⟨served, good, wback, other⟩ => State.homeWriteback_of_merged served good wback other
  case discarded => exact fun s ⟨served, cleared, wback, other⟩ => State.homeWriteback_of_badKey served cleared wback other
  case rawWrite => exact fun s ⟨served, good, raw⟩ => State.homeWriteback_of_untimed served good raw
  case atomic => exact fun s ⟨served, good, atomic, clean⟩ => State.homeAtomic_of_performed served good atomic clean
  case renewReply => exact fun s ⟨comes, _, good⟩ => State.renewalReply_of_good comes good
  case writeReply =>
    exact fun s ⟨comes, wback, mine, resident, sameKey, leased⟩ =>
      State.writebackReply_of_resident comes wback mine resident sameKey leased
  case rawWritten => exact fun s ⟨comes, raw⟩ => State.writebackReply_of_untimed comes raw
  case atomicReply => exact fun s ⟨comes, _, inside⟩ => State.atomicReply_of_core comes inside
  case peerReply => exact fun s ⟨comes, _, peer⟩ => State.atomicReply_of_peer comes peer

end Sys2Proof.Machine
end

section
/-!
PROOFS. Address translation: how a walk ends (R154, R157 to R161), and invalidations of translations (R165, R166).
-/

namespace Sys2Proof.Machine

/-! ## Walks (R158 to R161) -/

section
variable {s : State} {id : Nat} {k : Walk} (found : s.walks.find? (fun k => k.id == id) = some k)
include found

/-- The walk waits in its die's queue until one of the walkers takes it up. -/
theorem State.walkComplete_of_queued (queued : (s.running k.die).any (fun o => o.id == id) = false) : s.walkComplete id = s := by
  simp only [State.walkComplete, found, queued, Bool.not_false, if_true]

variable (runs : (s.running k.die).any (fun o => o.id == id) = true)
include runs

theorem State.walkComplete_of_parkHeld (held : s.parkHeld k.asid = true) : s.walkComplete id = s.recallPark k.asid := by
  simp only [State.walkComplete, found, runs, held, Bool.not_true, Bool.false_eq_true, if_false, if_true]

end

/-- The walk is run by one of its die's walkers, and no host holds the entry that says whether its ASID parks. -/
def State.Walks (s : State) (id : Nat) (k : Walk) : Prop :=
  s.walks.find? (fun k => k.id == id) = some k ∧ (s.running k.die).any (fun o => o.id == id) = true ∧ s.parkHeld k.asid = false

/-- The walk has left its die's walkers. -/
def State.dropWalk (s : State) (id : Nat) : State := { s with walks := s.walks.filter (fun o => o.id != id) }

section
variable {s : State} {id : Nat} {k : Walk} (walks : s.Walks id k)
include walks

/-- A table's line has first to come back from the host that owns it. -/
theorem State.walkComplete_of_wait {pa : Nat} (waits : s.walk k.die k.asid k.va = .wait pa) :
    s.walkComplete id = s.snoop (pa / 256) false false := by
  obtain ⟨found, runs, free⟩ := walks
  simp only [State.walkComplete, found, runs, free, waits, Bool.not_true, Bool.false_eq_true, if_false]

/-- R166: what a walk has found that began before an invalidation is not installed. -/
theorem State.walkComplete_of_staleLeaf {f : Walked} (stale : k.stale = true) (leaf : s.walk k.die k.asid k.va = .leaf f) :
    s.walkComplete id = k.waiters.foldl (fun u x => u.walkHelps id x) (s.dropWalk id) := by
  obtain ⟨found, runs, free⟩ := walks
  simp only [State.walkComplete, found, runs, free, leaf, stale, Bool.not_true, Bool.false_eq_true, if_false, if_true, State.dropWalk]

section
variable (fresh : k.stale = false)
include fresh

theorem State.walkComplete_of_fault {stray : Option Nat} (fault : s.walk k.die k.asid k.va = .fault stray) :
    s.walkComplete id = k.waiters.foldl (fun u x => u.walkFails k x .translation) ((s.dropWalk id).logMaybe stray) := by
  obtain ⟨found, runs, free⟩ := walks
  simp only [State.walkComplete, found, runs, free, fault, fresh, Bool.not_true, Bool.false_eq_true, if_false]
  cases stray <;> rfl

variable {f : Walked} (leaf : s.walk k.die k.asid k.va = .leaf f)
include leaf

theorem State.walkComplete_of_forbidden (forbidden : ∀ x ∈ k.waiters, s.letsIn f.leaf x = false) :
    s.walkComplete id = k.waiters.foldl (fun u x => u.walkFails k x .permission) (s.dropWalk id) := by
  obtain ⟨found, runs, free⟩ := walks
  have none_ : (k.waiters.filter (s.letsIn f.leaf)).isEmpty = true :=
    List.isEmpty_iff.2 (List.filter_eq_nil_iff.2 fun x hx => Bool.eq_false_iff.1 (forbidden x hx))
  simp only [State.walkComplete, found, runs, free, leaf, fresh, none_, Bool.not_true, Bool.false_eq_true, if_false, if_true, State.dropWalk]

/-- R154, R159: A and D are set for the waiters that the leaf lets in, and it is installed. -/
theorem State.walkComplete_of_leaf (permitted : ∃ x ∈ k.waiters, s.letsIn f.leaf x = true)
    (ready : ∀ x ∈ k.waiters, s.letsIn f.leaf x = true → s.adReady f x.access (s.inHandler x.who) = true) : s.walkComplete id =
      ((s.dropWalk id).setAds f (k.waiters.filter (s.letsIn f.leaf))).2.walkFound k
        ((s.dropWalk id).setAds f (k.waiters.filter (s.letsIn f.leaf))).1 := by
  obtain ⟨found, runs, free⟩ := walks
  have some_ : (k.waiters.filter (s.letsIn f.leaf)).isEmpty = false := by
    simpa only [List.isEmpty_eq_false_iff, ne_eq, List.filter_eq_nil_iff, not_forall, not_not, exists_prop] using permitted
  have noneWaits : (k.waiters.filter (s.letsIn f.leaf)).any (fun x => !s.adReady f x.access (s.inHandler x.who)) = false := by
    simpa only [List.any_eq_false, List.mem_filter, Bool.not_eq_true', Bool.not_eq_false, and_imp] using ready
  simp only [State.walkComplete, found, runs, free, leaf, fresh, some_, noneWaits, Bool.not_true, Bool.false_eq_true, if_false, State.dropWalk]

end

end

/-! ## Invalidations (R165, R166) -/

theorem State.invalDone_of_over {s : State} {v : Inval} {rest : List Inval} (oldest : s.invals = v :: rest)
    (later : v.posted / 50 < s.time / 50) (walksOver : ∀ w ∈ v.walks, ∀ k ∈ s.walks, k.id ≠ w) (usesOver : ∀ u ∈ v.uses, u ∉ s.usesNow) :
    s.invalDone = { s with invals := rest, tlbDone := s.tlbDone + 1 } := by
  have nothingLeft : (decide (s.time / 50 ≤ v.posted / 50) || v.walks.any (fun w => s.walks.any (fun k => k.id == w)) ||
      v.uses.any s.usesNow.contains) = false := by
    simpa only [Bool.or_eq_false_iff, decide_eq_false_iff_not, not_le, List.any_eq_false, Bool.not_eq_true, beq_eq_false_iff_ne,
      List.contains_iff_mem, and_assoc] using ⟨later, walksOver, usesOver⟩
  simp only [State.invalDone, oldest, nothingLeft, Bool.false_eq_true, if_false]

/-- Settles O28: a walk that is over ends in the case of State.walkComplete that the clause names, the four forms post by State.postInval, and
State.invalDone completes the oldest invalidation. -/
theorem translationEvents : Obligations.TranslationEvents := by
  unfold Obligations.TranslationEvents
  intro id asid post ended runs
  refine ⟨fun k f => .of_whileLive (fun _ => rfl) ?leaf, fun k f => .of_whileLive (fun _ => rfl) ?forbidden,
    fun k => .of_whileLive (fun _ => rfl) ?fault, fun k pa => .of_whileLive (fun _ => rfl) ?strayFault,
    fun k => .of_whileLive (fun _ => rfl) ?parkHeld, fun k f => .of_whileLive (fun _ => rfl) ?stale,
    fun k pa => .of_whileLive (fun _ => rfl) ?wait, fun k => .of_whileLive (fun _ => rfl) ?queued,
    .of_whileLive (fun _ => rfl) ?postLeaf, .of_whileLive (fun _ => rfl) ?postAsid, .of_whileLive (fun _ => rfl) ?postNonglobal,
    .of_whileLive (fun _ => rfl) ?postAll, fun v rest => .of_whileLive (fun _ => rfl) ?complete⟩
  case leaf =>
    exact fun s ⟨walks, fresh, leaf, permitted, ready⟩ => State.walkComplete_of_leaf walks fresh leaf permitted ready
  case forbidden => exact fun s ⟨walks, fresh, leaf, forbidden⟩ => State.walkComplete_of_forbidden walks fresh leaf forbidden
  case fault => exact fun s ⟨walks, fresh, fault⟩ => State.walkComplete_of_fault walks fresh fault
  case strayFault => exact fun s ⟨walks, fresh, fault⟩ => State.walkComplete_of_fault walks fresh fault
  case parkHeld => exact fun s ⟨found, runs, held⟩ => State.walkComplete_of_parkHeld found runs held
  case stale => exact fun s ⟨walks, stale, leaf⟩ => State.walkComplete_of_staleLeaf walks stale leaf
  case wait => exact fun s ⟨walks, waits⟩ => State.walkComplete_of_wait walks waits
  case queued => exact fun s ⟨found, queued⟩ => State.walkComplete_of_queued found queued
  case postLeaf => exact fun s _ => rfl
  case postAsid => exact fun s _ => rfl
  case postNonglobal => exact fun s _ => rfl
  case postAll => exact fun s _ => rfl
  case complete => exact fun s ⟨oldest, later, walksOver, usesOver⟩ => State.invalDone_of_over oldest later walksOver usesOver

end Sys2Proof.Machine
end

section
/-!
PROOFS. Matrix instructions (R175, R176, R181, R381 to R385): what bars one at its issue, and how one enters its warp's queue.
-/

namespace Sys2Proof.Machine

theorem Iss.agent_of_ofWarp {n : Iss} (ofWarp : n.ofWarp = true) : n.w.g = .warp n.warpNo := by
  unfold Iss.ofWarp at ofWarp
  unfold Iss.warpNo
  cases agent : n.w.g with
  | warp k => rfl
  | ct t => simp [agent] at ofWarp

/-- R175: a warp issues whose queue has a place, and its core has so many lock entries left. -/
def State.Place (s : State) (n : Iss) (locks : Nat) (more : Warp → Prop) : Prop :=
  n.ofWarp = true ∧ locks ≤ s.lockRoom n.w.core ∧ ∃ y, s.warp n.warpNo = some y ∧ (y.queued (s.serving n.w.core)).length < 4 ∧ more y

theorem slotCause_false : slotCause false = none := rfl
theorem slotCause_true : slotCause true = some (.matrixSlot, 0) := rfl

/-! ## Any matrix instruction -/

section
variable {i : Instr} {x : Args} {locks : Nat} {cause : Iss → State → Warp → Option (Cause × W64)} {go : Iss → State → Nat → Warp → Eff}

/-- One with a place that nothing bars takes the state that its own part comes to. -/
theorem hasState_of_matrixOp {pre : State → Iss → Prop} {more : State → Iss → Warp → Prop} {f : State → Iss → State}
    (arm : ∀ s, exec i s = s.matrixOp i x locks cause go) (kept : isRetired i = false) (placed : ∀ s n, pre s n → s.Place n locks (more s n))
    (allowed : ∀ s n y, more s n y → cause n s y = none)
    (does : ∀ s n y, s.warp n.warpNo = some y → more s n y → go n s n.warpNo y = { st := f s n }) : HasState i x pre f := by
  refine hasState_of_body (fun s => (arm s).trans rfl) kept fun s n active holds => ?_
  obtain ⟨ofWarp, room, y, listed, few, holds⟩ := placed s n holds
  have place : (decide (4 ≤ (y.queued (s.serving n.w.core)).length) || decide (s.lockRoom n.w.core < locks)) = false := by
    simpa using ⟨few, room⟩
  simp only [Iss.agent_of_ofWarp ofWarp, listed, active, allowed s n y holds, place, does s n y listed holds, Bool.false_eq_true, if_false]

/-- R181: a bar raises its cause in every executing lane. -/
theorem hasEffect_of_matrixOp_barred {c : Cause} {at_ : State → Iss → W64} {pre : State → Iss → Warp → Prop}
    (arm : ∀ s, exec i s = s.matrixOp i x locks cause go) (kept : isRetired i = false)
    (barred : ∀ s n y, pre s n y → cause n s y = some (c, at_ s n)) :
    HasEffect i x (fun s n => n.ofWarp = true ∧ ∃ y, s.warp n.warpNo = some y ∧ pre s n y) (fun s n => .all s n.lanes c (at_ s n)) := by
  refine hasEffect_of_body (fun s => (arm s).trans rfl) kept fun s n _ active ⟨ofWarp, y, listed, holds⟩ => ⟨?_, rfl⟩
  simp only [Iss.agent_of_ofWarp ofWarp, listed, active, barred s n y holds, if_false]

end

/-! ## MXLD and MXST (R384) -/

section
variable {i : Instr} {x : Args} {store : Bool} (arm : ∀ s, exec i s = s.mxMemOp i x store) (kept : isRetired i = false)
include arm kept

theorem hasState_mxMemOp : HasState i x
    (fun s n => s.engineHeld n.w.g = false ∧ s.Place n 1 (fun y =>
      n.mxAddr s % 256 = 0 ∧ rawOf x.d + (modBits x.mod 4 2 + 1) ≤ s.accOf n.w.grid ∧
      (spaceOf x.mod = 1 → n.mxAddr s + y.mxBytes x store ≤ s.scratchSize n.w.team)))
    (fun s n => (s.warp n.warpNo).elim s (fun y => s.mxMemGo n n.warpNo y store)) := by
  refine hasState_of_matrixOp (fun s => (arm s).trans rfl) kept
    (fun s n ⟨free, ofWarp, room, y, listed, few, fits⟩ => ⟨ofWarp, room, y, listed, few, And.intro free fits⟩) ?allowed ?does
  case allowed =>
    intro s n y ⟨_, aligned, slots, inside⟩
    have inScratch : ¬ (spaceOf x.mod = 1 ∧ s.scratchSize n.w.team < n.mxAddr s + y.mxBytes x store) :=
      not_and.2 fun scratch => Nat.not_lt.2 (inside scratch)
    simp only [aligned, inScratch, Nat.not_lt.2 slots, ne_eq, not_true_eq_false, decide_false, if_false, slotCause_false]
  case does =>
    intro s n y listed ⟨free, _⟩
    simp only [free, listed, Bool.false_eq_true, if_false, Option.elim_some]

theorem hasEffect_mxMemOp_misaligned : HasEffect i x
    (fun s n => n.ofWarp = true ∧ ∃ y, s.warp n.warpNo = some y ∧ n.mxAddr s % 256 ≠ 0) (fun s n => .all s n.lanes .illegalOperand 0) :=
  hasEffect_of_matrixOp_barred (fun s => (arm s).trans rfl) kept fun _ _ _ misaligned => if_pos misaligned

theorem hasEffect_mxMemOp_outside : HasEffect i x
    (fun s n => n.ofWarp = true ∧ ∃ y, s.warp n.warpNo = some y ∧
      n.mxAddr s % 256 = 0 ∧ spaceOf x.mod = 1 ∧ s.scratchSize n.w.team < n.mxAddr s + y.mxBytes x store)
    (fun s n => .all s n.lanes .scratchBounds (BitVec.ofNat 64 (n.mxAddr s))) :=
  hasEffect_of_matrixOp_barred (fun s => (arm s).trans rfl) kept fun _ _ _ ⟨aligned, outside⟩ =>
    (if_neg (not_not.2 aligned)).trans (if_pos outside)

theorem hasEffect_mxMemOp_pastSlots : HasEffect i x
    (fun s n => n.ofWarp = true ∧ ∃ y, s.warp n.warpNo = some y ∧
      n.mxAddr s % 256 = 0 ∧ (spaceOf x.mod = 1 → n.mxAddr s + y.mxBytes x store ≤ s.scratchSize n.w.team) ∧
      s.accOf n.w.grid < rawOf x.d + (modBits x.mod 4 2 + 1))
    (fun s n => .all s n.lanes .matrixSlot 0) := by
  refine hasEffect_of_matrixOp_barred (fun s => (arm s).trans rfl) kept fun s n y ⟨aligned, inside, past⟩ => ?_
  have inScratch : ¬ (spaceOf x.mod = 1 ∧ s.scratchSize n.w.team < n.mxAddr s + y.mxBytes x store) :=
    not_and.2 fun scratch => Nat.not_lt.2 (inside scratch)
  simp only [aligned, inScratch, past, ne_eq, not_true_eq_false, decide_true, if_false, slotCause_true]

end

/-! ## MXRD and MXRD.cfg (R383) -/

/-- What MXRD and MXRD.cfg make of the state: a result under way that the port forms, and the operation in the queue. -/
def State.mxReadGo (s : State) (n : Iss) (x : Args) (kind : Nat) : State :=
  let u := s.newId.2.beginFlight n { id := s.nextId, tag := 0, cnt := .none, pc := 0, lanes := 0, form := .ready, missing := 1 }
  let d := match x.d with | .v r => r.toNat | _ => 0
  let o (id : Nat) : MxOp := { id := id, kind := kind, acc := rawOf x.a, mod := x.mod, lanes := n.act, d := d, flight := s.nextId, arrival := 0 }
  u.enqueue n n.warpNo o (fun _ => [])

section
variable {i : Instr} {x : Args} {kind : Nat} {more : State → Iss → Prop} (arm : ∀ s, exec i s = s.mxReadOp i x kind)
  (kept : isRetired i = false)
include arm kept

theorem hasState_mxReadOp (inside : ∀ s n, more s n → (kind == 2 && s.quarterPast n (rawOf x.a)) = false) :
    HasState i x (fun s n => s.Place n 0 (fun _ => more s n)) (fun s n => s.mxReadGo n x kind) := by
  refine hasState_of_matrixOp (fun s => (arm s).trans rfl) kept (fun _ _ => id) ?allowed ?does
  case allowed =>
    intro s n _ holds
    rw [inside s n holds, slotCause_false]
  case does => exact fun s n y _ _ => rfl

theorem hasEffect_mxReadOp_past (past : ∀ s n, more s n → (kind == 2 && s.quarterPast n (rawOf x.a)) = true) :
    HasEffect i x (fun s n => n.ofWarp = true ∧ ∃ y, s.warp n.warpNo = some y ∧ more s n) (fun s n => .all s n.lanes .matrixSlot 0) :=
  hasEffect_of_matrixOp_barred (fun s => (arm s).trans rfl) kept fun s n _ holds => congrArg slotCause (past s n holds)

end

/-- Settles O17: each form's bars are the branches of its cause, and one that none of them meets enters the queue. -/
theorem matrixEffects : Obligations.MatrixEffects := by
  unfold Obligations.MatrixEffects
  intro x
  dsimp only
  refine ⟨hasState_of_matrixOp (fun s => show execMxq x s = _ from rfl) rfl
      (fun s n ⟨free, ofWarp, room, y, listed, few, fits⟩ => ⟨ofWarp, room, y, listed, few, And.intro free fits⟩) ?mxqAllowed ?mxq,
    hasEffect_of_matrixOp_barred (fun s => show execMxq x s = _ from rfl) rfl ?mxqMisaligned,
    hasEffect_of_matrixOp_barred (fun s => show execMxq x s = _ from rfl) rfl ?mxqOutside,
    hasEffect_of_matrixOp_barred (fun s => show execMxq x s = _ from rfl) rfl ?mxqPast,
    hasEffect_of_matrixOp_barred (fun s => show execMxz x s = _ from rfl) rfl ?mxzPast,
    hasEffect_mxReadOp_past (fun _ => rfl) rfl ?mxrdPast,
    hasEffect_of_matrixOp_barred (fun s => show execMxwr x s = _ from rfl) rfl ?mxwrPast,
    hasState_of_matrixOp (fun s => show execMxz x s = _ from rfl) rfl (fun _ _ => id) ?mxzAllowed ?mxz,
    hasState_mxReadOp (fun _ => rfl) rfl ?mxrd, hasState_mxReadOp (fun _ => rfl) rfl ?mxrdCfg,
    hasState_of_matrixOp (fun s => show execMxwr x s = _ from rfl) rfl (fun _ _ => id) ?mxwrAllowed ?mxwr, ?mxld, ?mxst,
    hasState_of_matrixOp (fun s => show execMxcfg x s = _ from rfl) rfl (fun _ _ => id) ?mxcfgAllowed ?mxcfg⟩
  case mxqAllowed =>
    intro s n y ⟨_, aligned, inside, slots⟩
    simp only [aligned, Nat.not_lt.2 inside, slots, ne_eq, not_true_eq_false, if_false, slotCause_false]
  case mxq =>
    intro s n y listed ⟨free, _⟩
    simp only [free, listed, Bool.false_eq_true, if_false, Option.elim_some]
  case mxqMisaligned => exact fun s n y misaligned => if_pos misaligned
  case mxqOutside => exact fun s n y ⟨aligned, outside⟩ => (if_neg (not_not.2 aligned)).trans (if_pos outside)
  case mxqPast =>
    intro s n y ⟨aligned, inside, pastSlots⟩
    simp only [aligned, Nat.not_lt.2 inside, pastSlots, ne_eq, not_true_eq_false, if_false, slotCause_true]
  case mxzPast => exact fun s n y pastSlots => congrArg slotCause (decide_eq_true pastSlots)
  case mxrdPast => exact fun s n pastSlots => pastSlots
  case mxwrPast => exact fun s n y pastSlots => congrArg slotCause pastSlots
  case mxzAllowed => exact fun s n y slots => congrArg slotCause (decide_eq_false (Nat.not_lt.2 slots))
  case mxz => exact fun s n y _ _ => rfl
  case mxrd => exact fun s n slots => slots
  case mxrdCfg => exact fun s n _ => rfl
  case mxwrAllowed => exact fun s n y slots => congrArg slotCause slots
  case mxwr => exact fun s n y _ _ => rfl
  case mxld =>
    exact ⟨hasState_mxMemOp (fun _ => rfl) rfl, hasEffect_mxMemOp_misaligned (fun _ => rfl) rfl, hasEffect_mxMemOp_outside (fun _ => rfl) rfl,
      hasEffect_mxMemOp_pastSlots (fun _ => rfl) rfl⟩
  case mxst =>
    exact ⟨hasState_mxMemOp (fun _ => rfl) rfl, hasEffect_mxMemOp_misaligned (fun _ => rfl) rfl, hasEffect_mxMemOp_outside (fun _ => rfl) rfl,
      hasEffect_mxMemOp_pastSlots (fun _ => rfl) rfl⟩
  case mxcfgAllowed => exact fun s n y _ => rfl
  case mxcfg => exact fun s n y _ _ => rfl

end Sys2Proof.Machine
end

section
/-!
PROOFS. The matrix engine's events: array passes (R177, R178) and the accumulator port (R179, R181).
-/

namespace Sys2Proof.Machine

/-! ## Array passes (R177, R178) -/

/-- The lead of the next pass on a core, until when it waits and where the pointer then stands: it was chosen in an earlier cycle, has quarters left
over, or is the first after the pointer. -/
def State.Leads (s : State) (core lw : Nat) (lead : MxOp) (until_ at_ : Nat) : Prop :=
  let c := s.core core
  let head : Prop := (s.mxqHeads core c.mxPtr).find? (fun h => h.1 == lw && h.2.id == lead.id) = some (lw, lead)
  (c.lead = some (lw, lead.id, until_) ∧ at_ = c.mxPtr ∧ head) ∨
  (c.lead = none ∧ c.leftover = some (lw, lead.id) ∧ until_ = s.cycle core ∧ at_ = c.mxPtr ∧ head) ∨
  (c.lead = none ∧ c.leftover = none ∧ until_ = lead.arrival + 16 ∧ at_ = lw % 128 ∧ ∃ rest, s.mxqHeads core c.mxPtr = (lw, lead) :: rest)

theorem State.leadOf_of_leads {s : State} {core lw until_ at_ : Nat} {lead : MxOp} (leads : s.Leads core lw lead until_ at_) :
    s.leadOf core = some ((lw, lead), until_, at_) := by
  obtain ⟨chosen, rfl, head⟩ | ⟨unchosen, left, rfl, rfl, head⟩ | ⟨unchosen, noneLeft, rfl, rfl, rest, heads⟩ := leads
  · simp only [State.leadOf, chosen, head, Option.bind_some, Option.map_some]
  · simp only [State.leadOf, unchosen, left, head, Option.bind_none, Option.bind_some]
  · simp only [State.leadOf, unchosen, noneLeft, heads, Option.bind_none, List.head?_cons, Option.map_some]

section
variable {s : State} {core lw until_ at_ : Nat} {lead : MxOp}
  (free : ((s.touchHeads core).core core).mxFree ≤ (s.touchHeads core).cycle core) (ungated : (s.touchHeads core).gateOpen core = true)
  (leads : (s.touchHeads core).Leads core lw lead until_ at_)
include free ungated leads

theorem State.passStart_of_waiting (few : ((s.touchHeads core).passWant core lw lead).length < 4) (early : (s.touchHeads core).cycle core < until_) :
    s.passStart core = (s.touchHeads core).updCore core (fun c => { c with
      lead := some (lw, lead.id, until_), joined := (s.touchHeads core).passWant core lw lead, mxPtr := at_ }) := by
  have all : ((s.touchHeads core).passWant core lw lead).take 4 = (s.touchHeads core).passWant core lw lead := List.take_of_length_le (by omega)
  simp only [State.passStart, Nat.not_lt.2 free, ungated, State.leadOf_of_leads leads, all, few, early, Bool.not_true, Bool.false_eq_true, or_self,
    and_self, if_false, if_true]

theorem State.passStart_of_full (full : 4 ≤ ((s.touchHeads core).passWant core lw lead).length ∨ until_ ≤ (s.touchHeads core).cycle core) :
    s.passStart core =
      let u := s.touchHeads core
      let parts := (u.passWant core lw lead).take 4
      let ends := u.cycle core + (if lead.fmt = 4 ∨ lead.fmt = 5 then 4 else 2) - 1
      u.beginPass core
        { parts := parts, ends := ends, writes := ends + 10, tiles := u.readTiles (dedup (parts.map (·.1))) lead.boff lead.bBytes } at_
        (((u.passWant core lw lead).drop 4).head?.bind (fun r => if parts.any (fun p => p.2.1 == r.2.1) then some (r.1, r.2.1) else none)) := by
  have goes : ¬ ((((s.touchHeads core).passWant core lw lead).take 4).length < 4 ∧ (s.touchHeads core).cycle core < until_) := by
    rw [List.length_take]
    omega
  simp only [State.passStart, Nat.not_lt.2 free, ungated, State.leadOf_of_leads leads, goes, Bool.not_true, Bool.false_eq_true, or_self, if_false]

end

theorem State.passWrite_of_due {s : State} {core : Nat} {p : Pass} {rest : List Pass} (oldest : (s.core core).passes = p :: rest)
    (due : p.writes ≤ s.cycle core) :
    s.passWrite core = p.parts.foldl (fun u e => u.writePart_ p e) (s.updCore core (fun c => { c with passes := rest })) := by
  simp only [State.passWrite, oldest, Nat.not_lt.2 due, if_false]

/-! ## The operation that the port serves (R179) -/

/-- The pieces that wait for the way to their destinations have tried again, and a free port has taken up an operation. -/
def State.portTook (s : State) (core : Nat) : State :=
  ((s.portNow core).elim s (fun h => s.sendPieces (.mx h.1 h.2.2.id) h.2.2.pieces)).portTake core

section
variable {s : State} {core w : Nat} {y : Warp} {o : MxOp} (serves : (s.portTook core).portNow core = some (w, y, o))
include serves

theorem State.portMove_of_serves : s.portMove core =
    (if o.kind = 4 ∨ o.kind = 5 then (s.portTook core).mxMemory core w y o else (s.portTook core).portOp core w y o).portTake core := by
  unfold State.portTook at serves ⊢
  cases before : s.portNow core with
  | none =>
    simp only [before, Option.elim_none] at serves ⊢
    simp only [State.portMove, before, State.portServe, serves]
  | some now =>
    simp only [before, Option.elim_some] at serves ⊢
    simp only [State.portMove, before, State.portServe, serves]

theorem State.portMove_of_memory {u : State} (memory : o.kind = 4 ∨ o.kind = 5) (does : (s.portTook core).mxMemory core w y o = u) :
    s.portMove core = u.portTake core := by
  rw [State.portMove_of_serves serves, if_pos memory, does]

theorem State.portMove_of_other {u : State} (other : ¬ (o.kind = 4 ∨ o.kind = 5)) (does : (s.portTook core).portOp core w y o = u) :
    s.portMove core = u.portTake core := by
  rw [State.portMove_of_serves serves, if_neg other, does]

end

/-! ## Operations other than MXLD and MXST (R382, R383, R385) -/

section
variable {s : State} {core w : Nat} {y : Warp} {o : MxOp} (free : (s.core core).portFree ≤ s.cycle core)
include free

theorem State.portOp_mxz (kind : o.kind = 1) : s.portOp core w y o = (s.updWarp w (fun x => x.zeroTiles o)).mxDone w o := by
  simp only [State.portOp, Nat.not_lt.2 free, kind, if_false]

theorem State.portOp_mxwr (kind : o.kind = 3) : s.portOp core w y o = (s.updWarp w (fun x => x.writeChunk o)).mxDone w o := by
  simp only [State.portOp, Nat.not_lt.2 free, kind, if_false]

theorem State.portOp_mxcfg (kind : o.kind = 6) :
    s.portOp core w y o = (s.updWarp w (fun x => { x with mxcfg := o.mod.setWidth 4 })).mxDone w o := by
  simp only [State.portOp, Nat.not_lt.2 free, kind, if_false]

theorem State.portOp_mxrd (kind : o.kind = 2) : s.portOp core w y o =
    let lanes := lanesOf o.lanes
    let bad := lanes.filter (fun j => y.poisoned (o.acc + j / 8))
    let u := s.updFlight (.warp w) o.flight (fun f => { f with
      missing := 0, writes := (lanes.filter (fun j => !bad.contains j)).flatMap (y.chunk o) })
    (bad.foldl (fun u j => u.badIn (.warp w) o.flight j .dataUncorrectable) u).mxDone w o := by
  simp only [State.portOp, Nat.not_lt.2 free, kind, if_false, beq_self_eq_true, Bool.true_and]

/-- MXRD.cfg reads no quarter-tile, so that none is poisoned. -/
theorem State.portOp_mxrdCfg (kind : o.kind = 7) : s.portOp core w y o =
    (s.updFlight (.warp w) o.flight (fun f => { f with
      missing := 0, writes := (lanesOf o.lanes).flatMap (fun j => [{ lane := j, dest := .v o.d, val := o.cfg.setWidth 128 }]) })).mxDone w o := by
  simp [State.portOp, Nat.not_lt.2 free, kind]

end

/-! ## MXLD and MXST (R384) -/

/-- A piece of an MXLD or MXST that has been read and written. -/
def MxOp.landed (o : MxOp) : Option Piece := o.pieces.find? (fun p => p.sent && !p.bad && p.writes == 0)

/-- Bytes of the memory image of an MXLD or MXST. -/
def MxOp.whole (o : MxOp) : Nat := o.n * 1024 * o.elem

section
variable {s : State} {core w : Nat} {y : Warp} {o : MxOp}

theorem State.mxMemory_of_landed {p : Piece} (landed : o.landed = some p) : s.mxMemory core w y o = (s.mxLand w o p).mxOver w o.id := by
  unfold MxOp.landed at landed
  simp only [State.mxMemory, landed]

section
variable (good : o.failed = none) (unlanded : o.landed = none) (goesOn : o.stopped = none)
include good unlanded goesOn

theorem State.mxMemory_of_started (started : o.started = true) : s.mxMemory core w y o = s.mxPiece w y o o.whole := by
  unfold MxOp.landed at unlanded
  simp only [State.mxMemory, good, unlanded, goesOn, started, Option.isSome_none, Bool.not_true, Bool.false_eq_true, if_false, MxOp.whole]

variable (unstarted : o.started = false) (free : (s.core core).portFree ≤ s.cycle core)
include unstarted free

/-- R181: MXST finds a poisoned quarter-tile. -/
theorem State.mxMemory_of_poisoned (stores : o.kind = 5) (poisoned : o.tiles.any y.poisoned = true) :
    s.mxMemory core w y o = s.mxError w o .dataUncorrectable 0 := by
  unfold MxOp.landed at unlanded
  simp [State.mxMemory, good, unlanded, goesOn, unstarted, free, stores, poisoned]

theorem State.mxMemory_of_portCycles (unpoisoned : o.kind = 5 → o.tiles.any y.poisoned = false) : s.mxMemory core w y o =
    s.updMx w o.id (fun e => { e with started := true, buf := if o.kind = 5 then y.storeTiles o else e.buf }) := by
  have allowed : (decide (o.kind = 5) && o.tiles.any y.poisoned) = false := by simpa using unpoisoned
  unfold MxOp.landed at unlanded
  simp [State.mxMemory, good, unlanded, goesOn, unstarted, free, allowed]

end

theorem State.mxOver_of_short {z : Warp} {q : MxOp} (listed : s.warp w = some z) {id : Nat} (found : z.mxq.find? (fun e => e.id == id) = some q)
    (short : q.failed.isSome = true ∨ q.done < q.whole) : s.mxOver w id = s := by
  have stays : (q.failed.isSome || decide (q.done < q.n * 1024 * q.elem)) = true := by simpa [MxOp.whole] using short
  simp only [State.mxOver, listed, found, stays, if_true]

theorem State.mxOver_of_done {z : Warp} {q : MxOp} (listed : s.warp w = some z) {id : Nat} (found : z.mxq.find? (fun e => e.id == id) = some q)
    (good : q.failed = none) (done : q.whole ≤ q.done) :
    s.mxOver w id = ((if q.kind = 4 then s.updWarp w (fun x => x.loadTiles q) else s).unlock q.id false).mxDone w q := by
  have ends : (q.failed.isSome || decide (q.done < q.n * 1024 * q.elem)) = false := by simpa [good, MxOp.whole] using done
  have same : q.id = id := by simpa using List.find?_some found
  simp only [State.mxOver, listed, found, ends, same, Bool.false_eq_true, if_false]

end

/-- R181, R39: a quarter-tile of the warp is poisoned, and the error recorded, raised and counted. -/
theorem State.engineError_of_tile {s : State} {w tile : Nat} {y : Warp} {t : Team} (listed : s.warp w = some y)
    (resident : s.team y.ctx.team = some t) (inside : tile < s.accOf t.grid) :
    (if (s.warp w).any (fun x => (s.team x.ctx.team).any (fun t => decide (tile < s.accOf t.grid))) then
      (s.engineError w tile).countUncorrected 3 (128 * w + tile) else s) =
    (((s.updWarp w (fun x => x.setBadTile tile true)).updCtx (.warp w) (fun c => { c with
        errMx := some (c.errMx.getD (.engineUncorrectable, 0)) })).pushEvent y.ctx.team
        (evRec 1 1 .engineUncorrectable 0 t.csn 0 t.cpc 0 y.ctx.wclk y.ctx.edge)).countUncorrected 3 (128 * w + tile) := by
  simp only [State.engineError, Nat.not_le.2 inside, if_false, listed, resident, inside, Option.any_some, decide_true, if_true]

end Sys2Proof.Machine
end

section
/-!
PROOFS. The copy engines' events: pieces that land, are issued or fault (R189, R191, R194), acknowledgements of multicasts (R195) and descriptors of
schedules (R197); with them, all events of the engines.
-/

namespace Sys2Proof.Machine

/-! ## Pieces (R189, R191, R194) -/

/-- The pieces of a command that wait for the way to their destinations have tried again. -/
def State.cmdTried (s : State) (id : Nat) : State := (s.cmds.find? (fun c => c.id == id)).elim s (fun c => s.sendPieces (.cmd id) c.inflight)

/-- A piece of a command that has been read and written. -/
def Cmd.landed (c : Cmd) : Option Piece := c.inflight.find? (fun p => p.sent && !p.bad && p.writes == 0)

section
variable {s : State} {id : Nat} {c : Cmd}

theorem State.pieceLand_of_listed (listed : (s.cmdTried id).cmds.find? (fun c => c.id == id) = some c) :
    s.pieceLand id = (s.cmdTried id).pieceTurn id := by
  unfold State.cmdTried at listed ⊢
  cases before : s.cmds.find? (fun c => c.id == id) with
  | none => simp [before] at listed
  | some b => simp only [State.pieceLand, before, Option.elim_some]

section
variable (listed : s.cmds.find? (fun c => c.id == id) = some c) (runs : c.complete = false)
include listed runs

theorem State.pieceTurn_of_landed {p : Piece} (landed : c.landed = some p) : s.pieceTurn id = s.cmdLand c p := by
  unfold Cmd.landed at landed
  simp only [State.pieceTurn, listed, runs, landed, Bool.false_eq_true, if_false]

variable (good : c.failed = none) (goesOn : c.suspended = none) (more : c.next < c.total) (tabled : (c.fmtNew && s.tableDue c.team) = false)
include good goesOn more tabled

theorem State.pieceTurn_of_issued {u : State} (unlanded : c.landed = none) (issues : s.cmdStep c = .go u) : s.pieceTurn id = u := by
  have due : (c.suspended.isSome || decide (c.total ≤ c.next) || (c.fmtNew && s.tableDue c.team)) = false := by simp [goesOn, more, tabled]
  unfold Cmd.landed at unlanded
  simp only [State.pieceTurn, listed, runs, unlanded, good, due, issues, Bool.false_eq_true, if_false]

theorem State.pieceFault_of_fault {k : Cause} {va : W64} {serve : Bool} {access : Access} (alone : c.inflight = [])
    (faults : s.cmdStep c = .fault k va serve access) : s.pieceFault id = s.cmdFault c k va serve access := by
  have due : (c.complete || c.suspended.isSome || c.failed.isSome || decide (c.total ≤ c.next) || !c.inflight.isEmpty ||
      (c.fmtNew && s.tableDue c.team)) = false := by simp [runs, good, goesOn, more, tabled, alone]
  simp only [State.pieceFault, listed, due, faults, Bool.false_eq_true, if_false]

end

/-! ## Acknowledgements of multicasts (R195) -/

section
variable {rank : Nat} (listed : s.cmds.find? (fun c => c.id == id) = some c) (awaited : rank ∈ c.acks)
include listed awaited

/-- The last acknowledgement, of a command without a usable ACKBAR. -/
theorem State.castAck_of_last (reachable : s.objsHeld c [] = none) (noBar : s.ackLoc c = none)
    (last : c.acks.filter (fun r => r != rank) = []) :
    s.castAck id rank = { s.unlock id false with cmds := s.cmds.filter (fun x => x.id != id) } := by
  simp only [State.castAck, listed, List.contains_iff_mem.2 awaited, noBar, Option.toList_none, reachable, last, Bool.not_true, Bool.false_eq_true,
    List.isEmpty_nil, if_false, if_true]

/-- An acknowledgement that arrives on ACKBAR, with others outstanding. -/
theorem State.castAck_of_arrival {o : ObjLoc} {k : Nat} {b : Bool × Obj} (bar : s.ackLoc c = some o) (reachable : s.objsHeld c [o] = none)
    (from_ : s.rankTeam c.team rank = some k)
    (arrives : (s.objGet o).arrive 1 0 (lastWords (engineCode false (k / 8)) c.csn c.edge) = some b)
    (outstanding : c.acks.filter (fun r => r != rank) ≠ []) : s.castAck id rank =
      (s.updateObj c 0 o (engineCode false (k / 8)) true
        (fun b => (b.arrive 1 0 (lastWords (engineCode false (k / 8)) c.csn c.edge)).getD (false, b))).updCmd id
        (fun x => { x with acks := c.acks.filter (fun r => r != rank) }) := by
  simp only [State.castAck, listed, List.contains_iff_mem.2 awaited, bar, Option.toList_some, reachable, from_, arrives,
    List.isEmpty_eq_false_iff.2 outstanding, Bool.not_true, Bool.false_eq_true, if_false]

end

end

/-! ## Descriptors of schedules (R197) -/

theorem State.schedIssue_of_started {s u : State} {team : Nat} {t : Team} {who : Who} {d : SchedDesc} {rest : List SchedDesc} {c : W32}
    {cpc : W64} {csn : W32} {edge : W64} (listed : s.team team = some t) (engine : s.engWho team = some who) (unheld : t.heldCmd = [])
    (first : t.sched = d :: rest) (released : d.released = some (c, cpc, csn, edge)) (may : s.castHeld team d.desc = false)
    (starts : s.startCmd who d.desc { c := c, cpc := cpc, csn := csn, edge := edge, warp := none } (if d.locked then some d.id else none) = .ok u) :
    s.schedIssue team = u.updTeam team (fun y => { y with sched := rest }) := by
  simp only [State.schedIssue, listed, engine, unheld, first, released, may, starts, ite_self, Bool.false_eq_true, if_false]

end Sys2Proof.Machine

namespace Sys2Proof

open Machine

/-- Settles O29: each event does its operation, by the equation of the operation in the case that the clause names. -/
theorem engineEvents : Obligations.EngineEvents := by
  unfold Obligations.EngineEvents
  intro core w t id tile rank
  dsimp only
  refine ⟨fun lw lead until_ at_ => .of_whileLive (fun _ => rfl) ?waits, fun lw lead until_ at_ => .of_whileLive (fun _ => rfl) ?starts,
    fun p rest => .of_whileLive (fun _ => rfl) ?writes, fun y o => .of_whileLive (fun _ => rfl) ?mxz,
    fun y o => .of_whileLive (fun _ => rfl) ?mxwr, fun y o => .of_whileLive (fun _ => rfl) ?mxcfg,
    fun y o => .of_whileLive (fun _ => rfl) ?mxrd, fun y o => .of_whileLive (fun _ => rfl) ?mxrdCfg,
    fun y o => .of_whileLive (fun _ => rfl) ?portCycles, fun y o => .of_whileLive (fun _ => rfl) ?poisoned,
    fun y o => .of_whileLive (fun _ => rfl) ?issues, fun y o p z q => .of_whileLive (fun _ => rfl) ?lands,
    fun y o p z q => .of_whileLive (fun _ => rfl) ?completes, fun y team => .of_whileLive (fun _ => rfl) ?uncorrectable,
    fun c p => .of_whileLive (fun _ => rfl) ?pieceLands, fun c u => .of_whileLive (fun _ => rfl) ?pieceIssued,
    fun c k va serve access => .of_whileLive (fun _ => rfl) ?pieceFaults, fun c => .of_whileLive (fun _ => rfl) ?lastAck,
    fun c o k b => .of_whileLive (fun _ => rfl) ?ackArrives,
    fun team who d rest c cpc csn edge u => .of_whileLive (fun _ => rfl) ?scheduled⟩
  case waits => exact fun s ⟨⟨free, ungated⟩, leads, few, early⟩ => State.passStart_of_waiting free ungated leads few early
  case starts => exact fun s ⟨⟨free, ungated⟩, leads, full⟩ => State.passStart_of_full free ungated leads full
  case writes => exact fun s ⟨oldest, due⟩ => State.passWrite_of_due oldest due
  case mxz => exact fun s ⟨⟨serves, free⟩, kind⟩ => State.portMove_of_other serves (by simp [kind]) (State.portOp_mxz free kind)
  case mxwr => exact fun s ⟨⟨serves, free⟩, kind⟩ => State.portMove_of_other serves (by simp [kind]) (State.portOp_mxwr free kind)
  case mxcfg => exact fun s ⟨⟨serves, free⟩, kind⟩ => State.portMove_of_other serves (by simp [kind]) (State.portOp_mxcfg free kind)
  case mxrd => exact fun s ⟨⟨serves, free⟩, kind⟩ => State.portMove_of_other serves (by simp [kind]) (State.portOp_mxrd free kind)
  case mxrdCfg => exact fun s ⟨⟨serves, free⟩, kind⟩ => State.portMove_of_other serves (by simp [kind]) (State.portOp_mxrdCfg free kind)
  case portCycles =>
    exact fun s ⟨serves, memory, good, unlanded, goesOn, unstarted, free, unpoisoned⟩ =>
      State.portMove_of_memory serves memory (State.mxMemory_of_portCycles good unlanded goesOn unstarted free unpoisoned)
  case poisoned =>
    exact fun s ⟨serves, memory, good, unlanded, goesOn, unstarted, free, stores, poisoned⟩ =>
      State.portMove_of_memory serves memory (State.mxMemory_of_poisoned good unlanded goesOn unstarted free stores poisoned)
  case issues =>
    exact fun s ⟨serves, memory, good, unlanded, goesOn, started⟩ =>
      State.portMove_of_memory serves memory (State.mxMemory_of_started good unlanded goesOn started)
  case lands =>
    exact fun s ⟨serves, memory, landed, listed, found, short⟩ =>
      State.portMove_of_memory serves memory ((State.mxMemory_of_landed landed).trans (State.mxOver_of_short listed found short))
  case completes =>
    exact fun s ⟨serves, memory, landed, listed, found, good, done⟩ =>
      State.portMove_of_memory serves memory ((State.mxMemory_of_landed landed).trans (State.mxOver_of_done listed found good done))
  case uncorrectable => exact fun s ⟨listed, resident, inside⟩ => State.engineError_of_tile listed resident inside
  case pieceLands =>
    exact fun s ⟨listed, runs, landed⟩ => (State.pieceLand_of_listed listed).trans (State.pieceTurn_of_landed listed runs landed)
  case pieceIssued =>
    exact fun s ⟨listed, runs, unlanded, good, goesOn, more, tabled, issues⟩ =>
      (State.pieceLand_of_listed listed).trans (State.pieceTurn_of_issued listed runs good goesOn more tabled unlanded issues)
  case pieceFaults =>
    exact fun s ⟨listed, runs, goesOn, good, more, alone, tabled, faults⟩ =>
      State.pieceFault_of_fault listed runs good goesOn more tabled alone faults
  case lastAck => exact fun s ⟨listed, awaited, reachable, noBar, last⟩ => State.castAck_of_last listed awaited reachable noBar last
  case ackArrives =>
    exact fun s ⟨listed, awaited, bar, reachable, from_, arrives, outstanding⟩ =>
      State.castAck_of_arrival listed awaited bar reachable from_ arrives outstanding
  case scheduled =>
    exact fun s ⟨listed, engine, _, unheld, first, released, may, starts⟩ =>
      State.schedIssue_of_started listed engine unheld first released may starts

end Sys2Proof
end

section
/-!
PROOFS. Replies of the service cores and of the host: to calls (R201 to R203), deferred calls (R204), faults (R98, R162) and page requests (R63).
-/

namespace Sys2Proof.Machine

/-! ## Replies to calls (R201 to R203) -/

/-- The only call in flight has left: what is due has landed, and its warp may call again. -/
def State.callTaken (s : State) (w : Nat) : State :=
  (({ s with svcs := [] } : State).land (.warp w)).updWarp w (fun y => { y with svc := none })

/-- What a call's answer writes: a uniform pair. -/
def SvcReq.writes (r : SvcReq) (value : W64) : List RegWrite := regWrites (.s (BitVec.ofNat 6 r.d)) (lowest r.lanes) 2 value.toNat

section
variable {s : State} {w : Nat} {r : SvcReq}

section
variable {y : Warp} (only : s.svcs = [r]) (caller : r.warp = w) (listed : s.warp w = some y) (waits : y.svc = some r.flight)
  (unguessed : r.predicted = none)
include only caller listed waits unguessed

theorem State.svcAnswer_of_refused (value : W64) :
    s.svcAnswer w value true = (s.callTaken w).svcLands w r (r.lanes &&& y.live) (r.writes value) true := by
  have kept : ({ s with svcs := [] } : State).warp w = some y := listed
  simp [State.svcAnswer, only, caller, kept, waits, unguessed, State.callTaken, SvcReq.writes]

/-- A call numbered below 64 is not deferred: its value enters the predictor and lands. -/
theorem State.svcAnswer_of_served (immediate : r.call < 64) (value : W64) : s.svcAnswer w value false =
    ((s.callTaken w).learnSvc y.ctx.team r value).svcLands w r (r.lanes &&& y.live) (r.writes value) false := by
  have kept : ({ s with svcs := [] } : State).warp w = some y := listed
  simp [State.svcAnswer, only, caller, kept, waits, unguessed, immediate, State.callTaken, SvcReq.writes]

end

section
variable {f : Flight} (inFlight : s.flight (.warp w) r.flight = some f)
include inFlight

theorem State.svcLands_of_value (lanes : Mask) (dest : List RegWrite) : s.svcLands w r lanes dest false =
    s.finishFlight (.warp w) { f with writes := dest, lanes := maskOf (dest.map (·.lane)), dead := 0 } := by
  simp only [State.svcLands, inFlight, Bool.false_eq_true, if_false]

theorem State.svcLands_of_error {lanes : Mask} (left : lanes ≠ 0) (dest : List RegWrite) : s.svcLands w r lanes dest true =
    ((s.finishFlight (.warp w) { f with writes := [] }).oweTrap (.warp w)).updCtx (.warp w) (fun c => { c with
      trap := some { lanes := lanes, cause := .serviceError, pc := r.pc, addr := 0, keep := true } }) := by
  simp only [State.svcLands, inFlight, left, if_true, if_false]

end

end

/-! ## Deferred calls (R204) -/

section
variable {s : State}

/-- The record of a team that runs, and that no pre-emption has saved, enters its queue. -/
theorem State.teamRecord_of_running {entry num : Nat} {g : Grid} {e : Nat × Team} (grid : s.grid entry = some g)
    (unsaved : g.saved.any (fun x => x.team.num == num) = false)
    (runs : s.teams.find? (fun e => e.2.grid == entry && e.2.num == num) = some e) (record : EvRec) :
    s.teamRecord entry num record = s.pushEvent e.1 record := by
  simp only [State.teamRecord, grid, Option.any_some, unsaved, runs, Bool.false_eq_true, if_false]

/-- The call is no longer deferred. -/
def State.deferredTaken (s : State) (d : Deferred) : State := { s with deferred := s.deferred.filter (fun o => o != d) }

theorem State.deferredDone_of_listed {t : Nat} {request : W32} {d : Deferred} {g : Grid}
    (listed : s.deferred.find? (fun d => d.team == t && d.request == request) = some d) (grid : s.grid d.grid = some g)
    (same : g.order = d.order) (value : W64) (err : Bool) : s.deferredDone t request value err =
      (s.deferredTaken d).teamRecord d.grid d.num (deferredRec d value err) := by
  have kept : (s.deferredTaken d).grid d.grid = some g := grid
  unfold State.deferredTaken at kept ⊢
  simp only [State.deferredDone, listed, kept, same, bne_self_eq_false, Bool.false_eq_true, if_false]

/-- The request that a record answers is the one that was looked for. -/
theorem Deferred.request_of_found {ds : List Deferred} {t : Nat} {request : W32} {d : Deferred}
    (found : ds.find? (fun d => d.team == t && d.request == request) = some d) : d.request = request := by
  have meets := List.find?_some found
  exact beq_iff_eq.1 (Bool.and_eq_true_iff.1 meets).2

/-! ## Faults (R98, R162) and page requests (R63) -/

theorem State.faultReply_of_listed {id : Nat} {f : FaultReq} (listed : s.faults.find? (fun f => f.id == id) = some f) (answer : FaultAnswer) :
    s.faultReply id answer =
      ({ s with faults := s.faults.filter (fun o => o.id != id) } : State).answerWho id f.va f.who (answerCause answer) := by
  simp only [State.faultReply, listed]

theorem State.peerTake_of_listed {id : Nat} {q : PeerWait} (listed : s.peerIn.find? (fun q => q.id == id) = some q)
    (f : State → PeerWait → State) : s.peerTake id f = f { s with peerIn := s.peerIn.filter (fun o => o.id != id) } q := by
  simp only [State.peerTake, listed]

/-- The host has answered about a page: the request is no longer open. -/
def State.priTaken (s : State) (id : Nat) : State := { s with pris := s.pris.filter (fun o => o.id != id) }

section
variable {id : Nat} {p : PriReq} (listed : s.pris.find? (fun p => p.id == id) = some p) (ok : Bool)
include listed

/-- Lanes, a completion record and a copy command go on, or fail, as after a fault. -/
theorem State.priReply_of_plain (who : (∃ g m, p.who = .lanes g m) ∨ (∃ e, p.who = .grid e) ∨ ∃ c, p.who = .engine (.cmd c)) :
    s.priReply id ok = (s.priTaken id).answerWho p.ticket 0 p.who (if ok then none else some .hostPath) := by
  obtain ⟨g, m, lanes⟩ | ⟨e, grid⟩ | ⟨c, command⟩ := who
  · simp only [State.priReply, listed, lanes, State.priTaken]
  · simp only [State.priReply, listed, grid, State.priTaken]
  · simp only [State.priReply, listed, command, State.priTaken]

theorem State.priReply_of_matrix {v : Nat} {y : Warp} {o : MxOp} (who : p.who = .engine (.mx v o.id)) (warp : s.warp v = some y)
    (queued : y.mxq.find? (fun q => q.id == o.id) = some o) : s.priReply id ok =
      (s.priTaken id).answerWho p.ticket ((s.priTaken id).engVa (.mx v o.id) o.done 0) p.who (if ok then none else some .hostPath) := by
  have kept : (s.priTaken id).warp v = some y := warp
  unfold State.priTaken at kept ⊢
  simp only [State.priReply, listed, who, kept, Option.bind_some, queued]

theorem State.priReply_of_peer {pid : Nat} {q : PeerWait} (who : p.who = .peer pid)
    (waits : s.peerIn.find? (fun q => q.id == pid) = some q) : s.priReply id ok =
      let u : State := { s.priTaken id with peerIn := s.peerIn.filter (fun o => o.id != pid) }
      if ok then u.peerHostSend { q with id := pid } p.pa else u.peerAnswer q 0 .hostPath := by
  have kept : (s.priTaken id).peerIn.find? (fun q => q.id == pid) = some q := waits
  unfold State.priTaken at kept ⊢
  simp only [State.priReply, listed, who, State.peerTake_of_listed kept]

theorem State.priReply_of_hardware {core part : Nat} (who : p.who = .hw core part) : s.priReply id true =
    (s.priTaken id).hostTxn { g := noAgent, core := core, team := 0, grid := 0, asid := p.asid, part := part, handler := false }
      (p.pa / 256 * 256) 64 false true 0 none .none := by
  simp only [State.priReply, listed, who, State.priTaken, if_true]

end

end

/-- Settles O25: each event does its operation, by the equation of the operation in the case that the clause names. -/
theorem replyEvents : Obligations.ReplyEvents := by
  unfold Obligations.ReplyEvents
  intro w t id request value err ok answer
  dsimp only
  refine ⟨fun r y f => .of_whileLive (fun _ => rfl) ?served, fun r y f => .of_whileLive (fun _ => rfl) ?refused,
    fun d g e => .of_whileLive (fun _ => rfl) ?deferred, fun f => .of_whileLive (fun _ => rfl) ?fault,
    fun p => .of_whileLive (fun _ => rfl) ?plain, fun p v o y => .of_whileLive (fun _ => rfl) ?matrix,
    fun p q pid => .of_whileLive (fun _ => rfl) ?peer, fun p core part => .of_whileLive (fun _ => rfl) ?hardware⟩
  case served =>
    exact fun s ⟨⟨only, caller, listed, waits, unguessed⟩, immediate, inFlight⟩ =>
      (State.svcAnswer_of_served only caller listed waits unguessed immediate value).trans (State.svcLands_of_value inFlight _ _)
  case refused =>
    exact fun s ⟨⟨only, caller, listed, waits, unguessed⟩, left, inFlight⟩ =>
      (State.svcAnswer_of_refused only caller listed waits unguessed value).trans (State.svcLands_of_error inFlight left _)
  case deferred =>
    rintro s ⟨listed, grid, same, unsaved, runs⟩
    obtain rfl := Deferred.request_of_found listed
    exact (State.deferredDone_of_listed listed grid same value err).trans
      (State.teamRecord_of_running (s := s.deferredTaken d) grid unsaved runs _)
  case fault => exact fun s listed => State.faultReply_of_listed listed answer
  case plain => exact fun s ⟨listed, who⟩ => State.priReply_of_plain listed ok who
  case matrix => exact fun s ⟨listed, who, warp, queued⟩ => State.priReply_of_matrix listed ok who warp queued
  case peer => exact fun s ⟨listed, who, waits⟩ => State.priReply_of_peer listed ok who waits
  case hardware => exact fun s ⟨listed, who⟩ => State.priReply_of_hardware listed who

end Sys2Proof.Machine
end

section
/-!
PROOFS. The debug unit and the samplers: polls of the command slots (R231, R232), PC samples (R240), memory samples (R241), accesses
through JTAG (R230).
-/

namespace Sys2Proof.Machine

section
variable {s : State} {base : Nat}

/-! ## Polls of the command slots (R231, R232) -/

/-- The debug unit has begun the poll of the present microsecond. -/
def State.polled (s : State) : State := { s with dbgPoll := s.time / usec }

theorem State.debugPoll_of_due (window : s.debugWindow = some base) (due : s.dbgPoll < s.time / usec) (idle : s.dbgrun = none) :
    s.debugPoll = s.polled.pollSlots base (List.range 16) := by
  simp only [State.debugPoll, window, if_neg (Nat.not_le.2 due), idle, Option.isSome_none, Bool.false_eq_true, if_false, State.polled]

section
variable {k v : Nat} {rest : List Nat} {u : State} (performed : s.ownLate = []) (reads : s.slotRead (base + 512 * k) 40 = .ok v)
  (asks : v % 2 ^ 32 ≠ v / 2 ^ 32 % 2 ^ 32)
include performed reads asks

/-- A command that is done: its slot takes the answer, and the poll goes on with the later slots. -/
theorem State.pollSlots_of_done {status : Nat} (does : s.debugCmd k base (DbgCmd.ofBytes v) = .done u status) :
    s.pollSlots base (k :: rest) = (u.slotDone k (DbgCmd.ofBytes v).seq status none).pollSlots base rest := by
  simp only [State.pollSlots, performed, List.any_nil, Bool.false_eq_true, if_false, reads, if_neg asks, does]

/-- A command that goes on in the pipeline keeps the later slots waiting. -/
theorem State.pollSlots_of_begun (does : s.debugCmd k base (DbgCmd.ofBytes v) = .begun u) : s.pollSlots base (k :: rest) = u := by
  simp only [State.pollSlots, performed, List.any_nil, Bool.false_eq_true, if_false, reads, if_neg asks, does]

end

/-! ## PC samples (R240) -/

/-- A core has taken note of the cycle of its sample. -/
def State.sampleNoted (s : State) (core : Nat) : State := s.setCore core { s.core core with sampAt := s.cycle core }

/-- The bytes of the record of a sampled warp of a team. -/
def State.pcRecord (s : State) (k : Nat) (x : Warp) (t : Team) : Nat :=
  let r := s.sampleWarp k x
  1 + r.1 * 2 ^ 8 + (identity (.warp k)).toNat * 2 ^ 32 + s.datum % 2 ^ 64 * 2 ^ 64 + r.2.1.toNat * 2 ^ 128 +
    t.cpc.toNat * 2 ^ 192 + t.csn.toNat * 2 ^ 256 + r.2.2.toNat % 2 ^ 32 * 2 ^ 288

theorem State.pcSample_of_due {core p k : Nat} {x : Warp} {t : Team} (mine : s.partOfCore core = some p)
    (on : (s.part p).sampctl.getLsbD 0 = true)
    (due : (s.core core).sampAt / 2 ^ samplePeriod (s.part p).sampctl < s.cycle core / 2 ^ samplePeriod (s.part p).sampctl)
    (next : (s.sampleNoted core).nextSampled core (s.core core).sampPos = some (k, x)) (team : s.team x.ctx.team = some t) :
    s.pcSample core =
      ((s.sampleNoted core).updCore core (fun c => { c with sampPos := k % 128 + 1 })).sampleOut p ((s.sampleNoted core).pcRecord k x t) := by
  have kept : (s.sampleNoted core).team x.ctx.team = some t := team
  unfold State.sampleNoted at next kept ⊢
  simp only [State.pcSample, mine, on, Bool.not_true, Bool.false_or, decide_eq_true_eq, if_neg (Nat.not_le.2 due), next, kept, State.pcRecord]

/-! ## Memory samples (R241) -/

/-- The bytes of the record of a sampled request: `now` is the datum at its completion, `free` holds the times in the queues. -/
def SampReq.record (r : SampReq) (now free : Nat) : Nat :=
  2 + r.kind % 256 * 2 ^ 8 + r.issuer.toNat * 2 ^ 32 + r.datum % 2 ^ 64 * 2 ^ 64 + r.pc.toNat * 2 ^ 128 + r.cpc.toNat * 2 ^ 192 +
    r.csn.toNat * 2 ^ 256 + (now - r.datum) % 2 ^ 32 * 2 ^ 288 + hopTimes r.hops free * 2 ^ 320 + r.va.toNat * 2 ^ 448

section
variable {core : Nat} {r : SampReq}

theorem State.memSample_of_done {p : Nat} (mine : s.partOfCore core = some p) (done : s.sampleDone core = some r) : s.memSample core =
    (s.free.2.updCore core (fun c => { c with sampPend := c.sampPend.erase r })).sampleOut p (r.record s.free.2.datum s.free.1.toNat) := by
  simp only [State.memSample, mine, done, SampReq.record]

variable {rest : List SampReq} (pending : (s.core core).sampPend = r :: rest)
include pending

theorem State.sampleDone_of_head (completed : s.outstanding r.ref = false) : s.sampleDone core = some r := by
  simp only [State.sampleDone, pending, List.find?_cons, completed, Bool.not_false]

/-- The oldest sampled request leaves those that the core waits for. -/
theorem State.updCore_erase_head : s.updCore core (fun c => { c with sampPend := c.sampPend.erase r }) =
    s.updCore core (fun c => { c with sampPend := rest }) := by
  simp only [State.updCore, pending, List.erase_cons_head]

end

/-! ## Accesses through JTAG (R230) -/

/-- Up to 8 bytes inside the window are not refused. -/
theorem jtag_fits {off n : Nat} (positive : 1 ≤ n) (few : n ≤ 8) (inside : off + n ≤ 16384) :
    (n = 0 || 8 < n || 16384 < off + n) = false := by
  simp only [Bool.or_eq_false_iff, decide_eq_false_iff_not]
  omega

section
variable {off n : Nat} (window : s.debugWindow = some base) (positive : 1 ≤ n) (few : n ≤ 8) (inside : off + n ≤ 16384) (data : W64)
include window positive few inside

theorem State.jtag_write : s.jtag off n true data = (cuts 3 (base + off) 0 n).foldl
    (fun u c => u.unitWrite (base + off + c.1) c.2 (data.toNat / 2 ^ (8 * c.1) % 2 ^ (8 * c.2))) s := by
  simp only [State.jtag, window, jtag_fits positive few inside, Bool.false_eq_true, if_false, if_true]

theorem State.jtag_read_of_unowned (unowned : ∀ c ∈ cuts 3 (base + off) 0 n, s.hostOwns ((base + off + c.1) / 256) = false) :
    s.jtag off n false data = s.emit (.value (BitVec.ofNat 64 ((cuts 3 (base + off) 0 n).foldl
      (fun v c => v + s.homeRead (base + off + c.1) c.2 * 2 ^ (8 * c.1)) 0))) := by
  have noneOwned : (cuts 3 (base + off) 0 n).find? (fun cut => s.hostOwns ((base + off + cut.1) / 256)) = none :=
    List.find?_eq_none.2 fun c listed => Bool.eq_false_iff.1 (unowned c listed)
  simp only [State.jtag, window, jtag_fits positive few inside, noneOwned, Bool.false_eq_true, if_false]

end

end

/-- Settles O37: each event does its operation, by the equation of the operation in the case that the clause names. -/
theorem debugEvents : Obligations.DebugEvents := by
  unfold Obligations.DebugEvents
  intro core off n data
  dsimp only
  refine ⟨fun base v u status => .of_whileLive (fun _ => rfl) ?done, fun base v u => .of_whileLive (fun _ => rfl) ?begun,
    fun p k x t => .of_whileLive (fun _ => rfl) ?pcSample, fun p r rest => .of_whileLive (fun _ => rfl) ?memorySample,
    fun base => .of_whileLive (fun _ => rfl) ?write, fun base => .of_whileLive (fun _ => rfl) ?read⟩
  case done =>
    exact fun s ⟨window, due, idle, ⟨performed, reads, asks⟩, does⟩ =>
      (State.debugPoll_of_due window due idle).trans (State.pollSlots_of_done (s := s.polled) (k := 0) performed reads asks does)
  case begun =>
    exact fun s ⟨window, due, idle, ⟨performed, reads, asks⟩, does⟩ =>
      (State.debugPoll_of_due window due idle).trans (State.pollSlots_of_begun (s := s.polled) (k := 0) performed reads asks does)
  case pcSample => exact fun s ⟨⟨mine, on⟩, due, next, team⟩ => State.pcSample_of_due mine on due next team
  case memorySample =>
    rintro s ⟨mine, pending, completed⟩
    have does := State.memSample_of_done mine (State.sampleDone_of_head pending completed)
    rwa [State.updCore_erase_head (s := s.free.2) pending] at does
  case write => exact fun s ⟨window, positive, few, inside⟩ => State.jtag_write window positive few inside data
  case read => exact fun s ⟨window, positive, few, inside, unowned⟩ => State.jtag_read_of_unowned window positive few inside data unowned

end Sys2Proof.Machine
end

section
/-!
PROOFS. The encoder and the decoder of instruction words (R246 to R257, R264, R265).
-/

namespace Sys2Proof

open Machine

/-! ## The opcode map, read both ways -/

/-- What the operand fields of a word are used for. -/
def rolesOf (i : Instr) : Option (Role × Role × Role × Role) := (sigOf i).map (fun g => (g.d, g.a, g.b, g.c))

-- The five cases with names are the keys whose MOD bits select among several forms.
set_option maxRecDepth 20000 in
/-- A form that a key names has this key and carries the fields it is given; the uses of its operand fields go by type and MOD alone. -/
theorem formOfKey_spec {key : Nat} {mk : Args → Instr} (named : formOfKey key = some mk) (x : Args) :
    keyOf (mk x) = some key ∧ argsOf (mk x) = some x ∧
    ∀ ctl d a b c, rolesOf (mk { x with ctl := ctl, d := d, a := a, b := b, c := c }) = rolesOf (mk x) := by
  unfold formOfKey at named
  split at named <;> cases named
  case h_37.refl | h_77.refl | h_100.refl | h_107.refl | h_165.refl =>
    dsimp only
    (repeat' split) <;> exact ⟨rfl, rfl, fun _ _ _ _ _ => rfl⟩
  all_goals exact ⟨rfl, rfl, fun _ _ _ _ _ => rfl⟩

theorem formOfKey_keyOf {i : Instr} {key : Nat} {x : Args} (key_i : keyOf i = some key) (args_i : argsOf i = some x)
    (selected : selects i = true) : ∃ mk, formOfKey key = some mk ∧ mk x = i := by
  cases i <;> cases key_i <;> cases args_i <;> exact ⟨_, rfl, by simp_all [selects]⟩

/-! ## Reading a word -/

/-- The key, the literal and the decoded fields of a word, its operands left as numbers or read for given uses. -/
def wordKey (w : BitVec 208) : Nat := field w 79 60 / 2 ^ 19 * 1024 + field w 63 54
def wordLit (w : BitVec 208) : BitVec 64 := BitVec.ofNat 64 (field w 143 80)
def rawArgs (w : BitVec 208) : Args :=
  { ctl := ctlOf w
    d := .raw (BitVec.ofNat 9 (field w 49 41))
    a := .raw (BitVec.ofNat 9 (field w 40 32))
    b := .raw (BitVec.ofNat 9 (field w 31 23))
    c := .raw (BitVec.ofNat 9 (field w 22 14))
    ty := Ty.ofCode (field w 13 10)
    mod := BitVec.ofNat 10 (field w 9 0) }
def wordArgs (r : Role × Role × Role × Role) (w : BitVec 208) : Args :=
  { rawArgs w with
    d := decodeOpnd r.1 (field w 49 41) (wordLit w)
    a := decodeOpnd r.2.1 (field w 40 32) (wordLit w)
    b := decodeOpnd r.2.2.1 (field w 31 23) (wordLit w)
    c := decodeOpnd r.2.2.2 (field w 22 14) (wordLit w) }

theorem readWord_eq (w : BitVec 208) :
    readWord w = (formOfKey (wordKey w)).bind fun mk => (rolesOf (mk (rawArgs w))).map fun r => mk (wordArgs r w) := by
  unfold readWord rolesOf
  change (match formOfKey (wordKey w) with | none => none | some mk => _) = _
  cases formOfKey (wordKey w) with
  | none => rfl
  | some mk =>
    change (match sigOf (mk (rawArgs w)) with | none => none | some g => _) = _
    dsimp only [Option.bind_some]
    cases sigOf (mk (rawArgs w)) <;> rfl

/-- A word names the form of its key, with its fields read for the uses of that form. -/
theorem readWord_eq_some_iff (w : BitVec 208) (i : Instr) :
    readWord w = some i ↔ ∃ mk r, formOfKey (wordKey w) = some mk ∧ rolesOf i = some r ∧ mk (wordArgs r w) = i := by
  have uses : ∀ {mk}, formOfKey (wordKey w) = some mk → ∀ r, rolesOf (mk (rawArgs w)) = rolesOf (mk (wordArgs r w)) :=
    fun named r => ((formOfKey_spec named (rawArgs w)).2.2 _ _ _ _ _).symm
  simp only [readWord_eq, Option.bind_eq_some_iff, Option.map_eq_some_iff]
  constructor
  · rintro ⟨mk, named, r, roles, rfl⟩
    exact ⟨mk, r, named, uses named r ▸ roles, rfl⟩
  · rintro ⟨mk, r, named, roles, rfl⟩
    exact ⟨mk, named, r, (uses named r).trans roles, rfl⟩

/-! ## The fields of an encoded word -/

theorem opndCode_lt (o : Opnd) : opndCode o < 512 := by
  cases o with
  | v n | s n | k n | p n | raw n =>
    have := n.isLt
    simp only [opndCode]
    omega
  | lit32 | lit64 => simp [opndCode]

theorem opndLit_lt (o : Opnd) : opndLit o < 2 ^ 64 := by
  cases o with
  | lit32 x | lit64 x =>
    have := x.isLt
    simp only [opndLit]
    omega
  | _ => simp [opndLit]

theorem opndLit_of_not_isLit {o : Opnd} (plain : isLit o = false) : opndLit o = 0 := by
  cases o <;> simp_all [isLit, opndLit]

theorem ofCode_code (t : Ty) : Ty.ofCode (Ty.code t).toNat = t := by cases t <;> rfl

theorem code_ofCode {n : Nat} (small : n < 16) : (Ty.code (Ty.ofCode n)).toNat = n := by
  interval_cases n <;> rfl

theorem getLsbD_eq_div (w : BitVec 208) (k : Nat) : w.getLsbD k = decide (w.toNat / 2 ^ k % 2 = 1) := by
  rw [BitVec.getLsbD, Nat.testBit_eq_decide_div_mod_eq]

theorem field_eq_div (w : BitVec 208) (h l : Nat) : field w h l = w.toNat / 2 ^ l % 2 ^ (h + 1 - l) := by
  rw [field, Nat.shiftRight_eq_div_pow]

/-- The bit that a flag sets. -/
theorem ite_eq_toNat_mul (b : Bool) (n : Nat) : (if b then n else 0) = b.toNat * n := by cases b <;> simp

theorem decide_eq_of_toNat {n : Nat} {b : Bool} (h : n = b.toNat) : decide (n = 1) = b := by cases b <;> simp_all

/-- The fields of a word that the encoder writes, where its literal fits (R246, R247). -/
theorem fields_encodeArgs {key : Nat} (x : Args) (small : key < 2048) {lit : Nat} (fits : lit < 2 ^ 64)
    (lits : opndLit x.d + opndLit x.a + opndLit x.b + opndLit x.c = lit) :
    let w := BitVec.ofNat 208 (encodeArgs key x)
    wordKey w = key ∧ ctlOf w = x.ctl ∧ (field w 49 41 = opndCode x.d ∧ field w 40 32 = opndCode x.a ∧ field w 31 23 = opndCode x.b ∧
      field w 22 14 = opndCode x.c) ∧ field w 13 10 = (Ty.code x.ty).toNat ∧ field w 9 0 = x.mod.toNat ∧ field w 143 80 = lit := by
  obtain ⟨⟨gap, yld, alloc, wait, neg, guard⟩, d, a, b, c, ty, mod⟩ := x
  dsimp only at lits ⊢
  have gap_lt := gap.isLt
  have alloc_lt := alloc.isLt
  have wait_lt := wait.isLt
  have guard_lt := guard.isLt
  have yld_lt := yld.toNat_lt
  have neg_lt := neg.toNat_lt
  have d_lt := opndCode_lt d
  have a_lt := opndCode_lt a
  have b_lt := opndCode_lt b
  have c_lt := opndCode_lt c
  have ty_lt := (Ty.code ty).isLt
  have mod_lt := mod.isLt
  simp only [wordKey, ctlOf, field_eq_div, getLsbD_eq_div, BitVec.toNat_ofNat, encodeArgs, ctlBits, ite_eq_toNat_mul, lits]
  clear lits
  obtain ⟨hi, lo, hi_lt, lo_lt, rfl⟩ : ∃ hi lo, hi < 2 ∧ lo < 1024 ∧ key = hi * 1024 + lo :=
    ⟨key / 1024, key % 1024, by omega, by omega, by omega⟩
  have div_key : (hi * 1024 + lo) / 1024 = hi := by omega
  have mod_key : (hi * 1024 + lo) % 1024 = lo := by omega
  rw [div_key, mod_key]
  refine ⟨by omega, ?ctl, ⟨by omega, by omega, by omega, by omega⟩, by omega, by omega, by omega⟩
  rw [Ctl.mk.injEq]
  refine ⟨BitVec.eq_of_toNat_eq ?_, decide_eq_of_toNat ?_, BitVec.eq_of_toNat_eq ?_, BitVec.eq_of_toNat_eq ?_, decide_eq_of_toNat ?_,
    BitVec.eq_of_toNat_eq ?_⟩
  all_goals
    try rw [BitVec.toNat_ofNat]
    omega

/-! ## Operands -/

/-- The operand that a code names in a field that is used (R251). -/
def usedOpnd (code : Nat) (lit : BitVec 64) : Opnd :=
  if code < 256 then .v (BitVec.ofNat 8 code)
  else if code < 320 then .s (BitVec.ofNat 6 (code - 256))
  else if code < 352 then .k (BitVec.ofNat 5 (code - 320))
  else if code < 360 then .p (BitVec.ofNat 3 (code - 352))
  else if code = 510 then .lit32 (lit.setWidth 32)
  else if code = 511 then .lit64 lit
  else .raw (BitVec.ofNat 9 code)

theorem decodeOpnd_eq (r : Role) (code : Nat) (lit : BitVec 64) :
    decodeOpnd r code lit = if r = .unused ∨ r = .raw then .raw (BitVec.ofNat 9 code) else usedOpnd code lit := by
  cases r <;> rfl

/-- A number stands exactly in the fields that are not used, or are read as numbers. -/
theorem number_of_roleOk {uni : Bool} {r : Role} {o : Opnd} (legal : roleOk uni r o = true) :
    (r = .unused ∨ r = .raw) ↔ ∃ n, o = .raw n := by
  cases o <;> cases r <;> simp_all [roleOk, codeOk]

theorem usedOpnd_opndCode {o : Opnd} (operand : ¬ ∃ n, o = .raw n) {lit : BitVec 64} (literal : isLit o = true → opndLit o = lit.toNat) :
    usedOpnd (opndCode o) lit = o := by
  cases o with
  | raw n => exact absurd ⟨n, rfl⟩ operand
  | lit32 x =>
    have whole : x.toNat = lit.toNat := literal rfl
    exact congrArg Opnd.lit32 (BitVec.eq_of_toNat_eq (by
      rw [BitVec.toNat_setWidth, ← whole, Nat.mod_eq_of_lt x.isLt]))
  | lit64 x => exact congrArg Opnd.lit64 (BitVec.eq_of_toNat_eq (literal rfl).symm)
  | v n =>
    have := n.isLt
    simp [usedOpnd, opndCode, this]
  | s n =>
    have := n.isLt
    simp [usedOpnd, opndCode, show 256 + n.toNat < 320 by omega]
  | k n =>
    have := n.isLt
    simp [usedOpnd, opndCode, show ¬ 320 + n.toNat < 256 by omega, show 320 + n.toNat < 352 by omega]
  | p n =>
    have := n.isLt
    simp [usedOpnd, opndCode, show ¬ 352 + n.toNat < 256 by omega, show ¬ 352 + n.toNat < 320 by omega, show 352 + n.toNat < 360 by omega]

/-- An operand that may stand in a field is read back from its code and its literal (R251, R253). -/
theorem decodeOpnd_opndCode {uni : Bool} {r : Role} {o : Opnd} (legal : roleOk uni r o = true) {lit : BitVec 64}
    (literal : isLit o = true → opndLit o = lit.toNat) : decodeOpnd r (opndCode o) lit = o := by
  rw [decodeOpnd_eq]
  split
  · obtain ⟨n, rfl⟩ := (number_of_roleOk legal).1 ‹_›
    simp [opndCode]
  · exact usedOpnd_opndCode (mt (number_of_roleOk legal).2 ‹_›) literal

theorem opndCode_usedOpnd {code : Nat} (small : code < 512) (lit : BitVec 64) : opndCode (usedOpnd code lit) = code := by
  unfold usedOpnd
  (repeat' split) <;> simp only [opndCode, BitVec.toNat_ofNat] <;> omega

/-- Whatever an operand field is read for, its code is kept. -/
theorem opndCode_decodeOpnd (r : Role) {code : Nat} (small : code < 512) (lit : BitVec 64) : opndCode (decodeOpnd r code lit) = code := by
  rw [decodeOpnd_eq]
  split
  · simp [opndCode, small]
  · exact opndCode_usedOpnd small lit

/-! ## Decoding an encoded instruction -/

/-- An instruction form that is well formed has a key, uses for its fields, and operands that may stand in them, one of them a literal at most. -/
theorem wellFormed_form {i : Instr} {key : Nat} {x : Args} (key_i : keyOf i = some key) (args_i : argsOf i = some x) (good : WellFormed i = true) :
    key < 2048 ∧ selects i = true ∧ ∃ g, sigOf i = some g ∧ sigOk g x = true := by
  have small : key < 2048 ∧ (sigOf i).isSome = true := by
    cases i <;> cases key_i <;> exact ⟨by decide, rfl⟩
  obtain ⟨g, signed⟩ := Option.isSome_iff_exists.1 small.2
  simp only [WellFormed, signed, args_i, Bool.and_eq_true] at good
  exact ⟨small.1, good.1, g, signed, good.2⟩

/-- What sigOk says of the operands. -/
theorem sigOk_opnds {g : Sig} {x : Args} (good : sigOk g x = true) :
    (roleOk g.uni g.d x.d = true ∧ roleOk g.uni g.a x.a = true ∧ roleOk g.uni g.b x.b = true ∧ roleOk g.uni g.c x.c = true) ∧
    (isLit x.d).toNat + (isLit x.a).toNat + (isLit x.b).toNat + (isLit x.c).toNat ≤ 1 := by
  simp only [sigOk, Bool.and_eq_true, decide_eq_true_eq] at good
  obtain ⟨⟨⟨⟨⟨-, d⟩, a⟩, b⟩, c⟩, lits⟩ := good
  refine ⟨⟨d, a, b, c⟩, ?_⟩
  simpa only [ite_eq_toNat_mul, Nat.mul_one] using lits

/-- With one literal at most, the sum of the literals is the literal of each operand that has one. -/
theorem opndLit_sum {x : Args} (one : (isLit x.d).toNat + (isLit x.a).toNat + (isLit x.b).toNat + (isLit x.c).toNat ≤ 1) :
    let sum := opndLit x.d + opndLit x.a + opndLit x.b + opndLit x.c
    sum < 2 ^ 64 ∧ ∀ o ∈ [x.d, x.a, x.b, x.c], isLit o = true → opndLit o = sum := by
  have d_lt := opndLit_lt x.d
  have a_lt := opndLit_lt x.a
  have b_lt := opndLit_lt x.b
  have c_lt := opndLit_lt x.c
  have d_zero := @opndLit_of_not_isLit x.d
  have a_zero := @opndLit_of_not_isLit x.a
  have b_zero := @opndLit_of_not_isLit x.b
  have c_zero := @opndLit_of_not_isLit x.c
  simp only [List.forall_mem_cons, List.not_mem_nil, false_imp_iff, implies_true, and_true]
  generalize isLit x.d = ld at *
  generalize isLit x.a = la at *
  generalize isLit x.b = lb at *
  generalize isLit x.c = lc at *
  cases ld <;> cases la <;> cases lb <;> cases lc <;> simp_all

/-- A well-formed instruction form and its encoding: the key and the fields that the word holds. -/
theorem encode_eq_some {i : Instr} {w : BitVec 208} (coded : encode i = some w) :
    ∃ key x, keyOf i = some key ∧ argsOf i = some x ∧ w = BitVec.ofNat 208 (encodeArgs key x) := by
  unfold encode at coded
  split at coded
  · exact ⟨_, _, ‹_›, ‹_›, (Option.some.inj coded).symm⟩
  · cases coded

/-- The fields of the word of operands that may stand in them are read back. -/
theorem wordArgs_encodeArgs {key : Nat} {g : Sig} {x : Args} (small : key < 2048) (legal : sigOk g x = true) :
    wordKey (BitVec.ofNat 208 (encodeArgs key x)) = key ∧
    wordArgs (g.d, g.a, g.b, g.c) (BitVec.ofNat 208 (encodeArgs key x)) = x := by
  obtain ⟨⟨d_ok, a_ok, b_ok, c_ok⟩, one⟩ := sigOk_opnds legal
  obtain ⟨fits, lits⟩ := opndLit_sum one
  obtain ⟨key_w, ctl_w, ⟨d_w, a_w, b_w, c_w⟩, ty_w, mod_w, lit_w⟩ := fields_encodeArgs x small fits rfl
  have lit_eq : opndLit x.d + opndLit x.a + opndLit x.b + opndLit x.c = (wordLit (BitVec.ofNat 208 (encodeArgs key x))).toNat := by
    rw [wordLit, lit_w, BitVec.toNat_ofNat, Nat.mod_eq_of_lt fits]
  rw [lit_eq] at lits
  obtain ⟨ctl, d, a, b, c, ty, mod⟩ := x
  refine ⟨key_w, Args.mk.injEq .. ▸ ⟨ctl_w, ?_, ?_, ?_, ?_, ?_, ?_⟩⟩
  · rw [d_w]
    exact decodeOpnd_opndCode d_ok (lits d (by simp))
  · rw [a_w]
    exact decodeOpnd_opndCode a_ok (lits a (by simp))
  · rw [b_w]
    exact decodeOpnd_opndCode b_ok (lits b (by simp))
  · rw [c_w]
    exact decodeOpnd_opndCode c_ok (lits c (by simp))
  · exact (congrArg Ty.ofCode ty_w).trans (ofCode_code ty)
  · exact (congrArg (BitVec.ofNat 10) mod_w).trans (by rw [BitVec.ofNat_toNat, BitVec.setWidth_eq])

theorem decode_of_readWord {w : BitVec 208} {i : Instr} (names : readWord w = some i) (good : WellFormed i = true) : decode w = .ok i := by
  simp only [decode, names, good, Bool.or_true, if_true]

theorem readWord_encodeArgs {i : Instr} {key : Nat} {x : Args} (key_i : keyOf i = some key) (args_i : argsOf i = some x)
    (good : WellFormed i = true) : readWord (BitVec.ofNat 208 (encodeArgs key x)) = some i := by
  obtain ⟨small, selected, g, signed, legal⟩ := wellFormed_form key_i args_i good
  obtain ⟨mk, named, rfl⟩ := formOfKey_keyOf key_i args_i selected
  obtain ⟨key_w, args_w⟩ := wordArgs_encodeArgs small legal
  have uses : rolesOf (mk x) = some (g.d, g.a, g.b, g.c) := by rw [rolesOf, signed, Option.map_some]
  rw [readWord_eq_some_iff, key_w]
  exact ⟨mk, _, named, uses, congrArg mk args_w⟩

/-- Settles O39: every field that the encoder writes is read back, so the word names the form of the key, with the operands encoded. -/
theorem encodedDecodes : Obligations.EncodedDecodes := by
  unfold Obligations.EncodedDecodes
  intro i w good coded
  obtain ⟨key, x, key_i, args_i, rfl⟩ := encode_eq_some coded
  exact decode_of_readWord (readWord_encodeArgs key_i args_i good) good

/-! ## Encoding a decoded word -/

/-- The literal of an operand that is read is the low bytes that it takes of those after the word (R247). -/
theorem opndLit_decodeOpnd (r : Role) (code : Nat) (lit : BitVec 64) :
    opndLit (decodeOpnd r code lit) = lit.toNat % 2 ^ (8 * opndLen (decodeOpnd r code lit)) := by
  rw [decodeOpnd_eq]
  unfold usedOpnd
  (repeat' split) <;> simp [opndLit, opndLen, Nat.mod_one, Nat.mod_eq_of_lt lit.isLt]

theorem opndLen_of_isLit {o : Opnd} (literal : isLit o = true) : opndLen o = 4 ∨ opndLen o = 8 := by
  cases o <;> simp_all [isLit, opndLen]

theorem opndLen_of_not_isLit {o : Opnd} (plain : isLit o = false) : opndLen o = 0 := by
  cases o <;> simp_all [isLit, opndLen]

theorem toNat_decide_mod_two (n : Nat) : (decide (n % 2 = 1)).toNat = n % 2 := by
  rcases Nat.mod_two_eq_zero_or_one n with h | h <;> simp [h]

theorem field_lt (w : BitVec 208) (h l : Nat) : field w h l < 2 ^ (h + 1 - l) := Nat.mod_lt _ (Nat.two_pow_pos _)

/-- The fields of a word as it is read: R246 for the word, R251 for its operands. -/
theorem fields_readWord {w : BitVec 208} {i : Instr} (names : readWord w = some i) :
    ∃ x, argsOf i = some x ∧ keyOf i = some (wordKey w) ∧ x.ctl = ctlOf w ∧
      (opndCode x.d = field w 49 41 ∧ opndCode x.a = field w 40 32 ∧ opndCode x.b = field w 31 23 ∧ opndCode x.c = field w 22 14) ∧
      (Ty.code x.ty).toNat = field w 13 10 ∧ x.mod.toNat = field w 9 0 ∧
      ∀ o ∈ [x.d, x.a, x.b, x.c], opndLit o = field w 143 80 % 2 ^ (8 * opndLen o) := by
  obtain ⟨mk, r, named, -, rfl⟩ := (readWord_eq_some_iff w i).1 names
  obtain ⟨key_i, args_i, -⟩ := formOfKey_spec named (wordArgs r w)
  refine ⟨_, args_i, key_i, rfl, ⟨?_, ?_, ?_, ?_⟩, code_ofCode (field_lt w 13 10), ?mod, ?lits⟩
  case mod => exact (BitVec.toNat_ofNat ..).trans (Nat.mod_eq_of_lt (field_lt w 9 0))
  case lits =>
    have lit : (wordLit w).toNat = field w 143 80 := (BitVec.toNat_ofNat ..).trans (Nat.mod_eq_of_lt (field_lt w 143 80))
    simp only [← lit, List.forall_mem_cons, List.not_mem_nil, false_imp_iff, implies_true, and_true]
    exact ⟨opndLit_decodeOpnd .., opndLit_decodeOpnd .., opndLit_decodeOpnd .., opndLit_decodeOpnd ..⟩
  all_goals exact opndCode_decodeOpnd _ (field_lt w _ _) _

/-- The literals of operands of which one at most is a literal are the low bytes that they take (R247). -/
theorem opndLit_sum_mod {x : Args} {lit : Nat} (one : (isLit x.d).toNat + (isLit x.a).toNat + (isLit x.b).toNat + (isLit x.c).toNat ≤ 1)
    (lits : ∀ o ∈ [x.d, x.a, x.b, x.c], opndLit o = lit % 2 ^ (8 * opndLen o)) :
    let len := opndLen x.d + opndLen x.a + opndLen x.b + opndLen x.c
    (len = 0 ∨ len = 4 ∨ len = 8) ∧ opndLit x.d + opndLit x.a + opndLit x.b + opndLit x.c = lit % 2 ^ (8 * len) := by
  have d_len := @opndLen_of_isLit x.d
  have a_len := @opndLen_of_isLit x.a
  have b_len := @opndLen_of_isLit x.b
  have c_len := @opndLen_of_isLit x.c
  have d_none := @opndLen_of_not_isLit x.d
  have a_none := @opndLen_of_not_isLit x.a
  have b_none := @opndLen_of_not_isLit x.b
  have c_none := @opndLen_of_not_isLit x.c
  simp only [List.forall_mem_cons, List.not_mem_nil, false_imp_iff, implies_true, and_true] at lits
  generalize isLit x.d = ld at *
  generalize isLit x.a = la at *
  generalize isLit x.b = lb at *
  generalize isLit x.c = lc at *
  cases ld <;> cases la <;> cases lb <;> cases lc <;> simp_all [Nat.mod_one]

/-- The low bits of a number, in two fields. -/
theorem mod_two_pow_add (n l k : Nat) : n % 2 ^ (l + k) = n / 2 ^ l % 2 ^ k * 2 ^ l + n % 2 ^ l := by
  rw [pow_add, Nat.mod_mul, Nat.mul_comm, Nat.add_comm]

/-- The 80 bits of a word, field by field (R246). -/
theorem mod_two_pow_80 (n : Nat) : n % 2 ^ 80 =
    n / 2 ^ 79 % 2 ^ 1 * 2 ^ 79 + (n / 2 ^ 75 % 2 ^ 4 * 2 ^ 75 + (n / 2 ^ 74 % 2 ^ 1 * 2 ^ 74 + (n / 2 ^ 71 % 2 ^ 3 * 2 ^ 71 +
      (n / 2 ^ 64 % 2 ^ 7 * 2 ^ 64 + (n / 2 ^ 54 % 2 ^ 10 * 2 ^ 54 + (n / 2 ^ 53 % 2 ^ 1 * 2 ^ 53 + (n / 2 ^ 50 % 2 ^ 3 * 2 ^ 50 +
      (n / 2 ^ 41 % 2 ^ 9 * 2 ^ 41 + (n / 2 ^ 32 % 2 ^ 9 * 2 ^ 32 + (n / 2 ^ 23 % 2 ^ 9 * 2 ^ 23 + (n / 2 ^ 14 % 2 ^ 9 * 2 ^ 14 +
      (n / 2 ^ 10 % 2 ^ 4 * 2 ^ 10 + n % 2 ^ 10)))))))))))) := by
  rw [mod_two_pow_add n 79 1, mod_two_pow_add n 75 4, mod_two_pow_add n 74 1, mod_two_pow_add n 71 3, mod_two_pow_add n 64 7,
    mod_two_pow_add n 54 10, mod_two_pow_add n 53 1, mod_two_pow_add n 50 3, mod_two_pow_add n 41 9, mod_two_pow_add n 32 9,
    mod_two_pow_add n 23 9, mod_two_pow_add n 14 9, mod_two_pow_add n 10 4]

theorem wordKey_eq (w : BitVec 208) : wordKey w = w.toNat / 2 ^ 79 % 2 ^ 1 * 1024 + w.toNat / 2 ^ 54 % 2 ^ 10 := by
  simp only [wordKey, field_eq_div]
  omega

/-- The word that is encoded from the fields of a word is that word's 80 bits, with the literal above them. -/
theorem encodeArgs_fields {w : BitVec 208} {x : Args} (ctl : x.ctl = ctlOf w)
    (codes : opndCode x.d = field w 49 41 ∧ opndCode x.a = field w 40 32 ∧ opndCode x.b = field w 31 23 ∧ opndCode x.c = field w 22 14)
    (ty : (Ty.code x.ty).toNat = field w 13 10) (mod : x.mod.toNat = field w 9 0) :
    encodeArgs (wordKey w) x = w.toNat % 2 ^ 80 + (opndLit x.d + opndLit x.a + opndLit x.b + opndLit x.c) * 2 ^ 80 := by
  obtain ⟨d, a, b, c⟩ := codes
  rw [encodeArgs, ctl, d, a, b, c, ty, mod]
  have key_hi : wordKey w / 1024 = w.toNat / 2 ^ 79 % 2 ^ 1 := by
    rw [wordKey_eq]
    omega
  have key_lo : wordKey w % 1024 = w.toNat / 2 ^ 54 % 2 ^ 10 := by
    rw [wordKey_eq]
    omega
  rw [key_hi, key_lo, mod_two_pow_80]
  simp only [ctlBits, ctlOf, ite_eq_toNat_mul, getLsbD_eq_div, field_eq_div, BitVec.toNat_ofNat, toNat_decide_mod_two, Nat.reduceAdd, Nat.reduceSub,
    Nat.mod_mod, pow_zero, Nat.div_one, pow_one]
  ring

theorem lengthOf_of_args {w : BitVec 208} {i : Instr} {x : Args} (names : readWord w = some i) (args_i : argsOf i = some x) :
    lengthOf w = 10 + (opndLen x.d + opndLen x.a + opndLen x.b + opndLen x.c) := by
  simp only [lengthOf, names, args_i]
  omega

/-- Settles O40: the fields of the word are the codes of its operands, and the literal is the bytes that its length takes after them. -/
theorem decodedEncodes : Obligations.DecodedEncodes := by
  unfold Obligations.DecodedEncodes
  intro i w names good
  obtain ⟨x, args_i, key_i, ctl, codes, ty, mod, lits⟩ := fields_readWord names
  obtain ⟨-, -, g, -, legal⟩ := wellFormed_form key_i args_i good
  obtain ⟨len, sum⟩ := opndLit_sum_mod (sigOk_opnds legal).2 lits
  rw [lengthOf_of_args names args_i]
  generalize opndLen x.d + opndLen x.a + opndLen x.b + opndLen x.c = n at len sum
  refine ⟨by omega, BitVec.ofNat 208 (encodeArgs (wordKey w) x), by simp only [encode, key_i, args_i], ?_⟩
  rw [encodeArgs_fields ctl codes ty mod, sum, BitVec.toNat_ofNat, field_eq_div]
  rcases len with rfl | rfl | rfl <;> omega

/-- Settles O38: each of the words is read by the decoder. -/
theorem workedWords : Obligations.WorkedWords := by
  unfold Obligations.WorkedWords
  decide +kernel

/-! ## Fields, bytes and branch targets -/

theorem wordKey_eq_fields (w : BitVec 208) : wordKey w = field w 79 79 * 1024 + field w 63 60 * 64 + field w 59 54 := by
  simp only [wordKey_eq, field_eq_div]
  omega

theorem wordOfBytes_lt (bs : List Byte) : wordOfBytes bs < 256 ^ bs.length := by
  induction bs with
  | nil => decide
  | cons b r ih =>
    have := b.isLt
    simp only [wordOfBytes, List.length_cons, pow_succ]
    omega

theorem wordOfBytes_div (bs : List Byte) (k : Nat) : wordOfBytes bs / 256 ^ k % 256 = (bs.getD k 0).toNat := by
  induction bs generalizing k with
  | nil => simp [wordOfBytes]
  | cons b r ih =>
    have := b.isLt
    cases k with
    | zero =>
      simp only [wordOfBytes, List.getD_cons_zero, pow_zero, Nat.div_one]
      omega
    | succ k =>
      have rest : (b.toNat + 256 * wordOfBytes r) / 256 = wordOfBytes r := by omega
      rw [List.getD_cons_succ, ← ih, wordOfBytes, pow_succ', ← Nat.div_div_eq_div_mul, rest]

theorem field_wordOfBytes {bs : List Byte} (fits : bs.length ≤ 26) (k : Nat) :
    field (BitVec.ofNat 208 (wordOfBytes bs)) (8 * k + 7) (8 * k) = (bs.getD k 0).toNat := by
  have small : wordOfBytes bs < 2 ^ 208 :=
    calc wordOfBytes bs < 256 ^ bs.length := wordOfBytes_lt bs
      _ ≤ 256 ^ 26 := Nat.pow_le_pow_right (by decide) fits
      _ = 2 ^ 208 := by norm_num
  have byte : 8 * k + 7 + 1 - 8 * k = 8 := by omega
  rw [field_eq_div, BitVec.toNat_ofNat, Nat.mod_eq_of_lt small, byte, pow_mul]
  exact wordOfBytes_div bs k

/-- The forms that keep a branch offset in SA, SB and SC (R250), with what they use DST for. -/
theorem branch_roles {i : Instr} {x : Args} (branch : i ∈ [Instr.bra x, .call x, .ubra x, .ucall x, .uloop x]) :
    argsOf i = some x ∧ ∃ r, rolesOf i = some (r, .raw, .raw, .raw) ∧ (r = .unused ∨ r = .dst 2 2 ∨ r = .dst 1 1) := by
  simp only [List.mem_cons, List.not_mem_nil, or_false] at branch
  rcases branch with rfl | rfl | rfl | rfl | rfl <;> exact ⟨rfl, _, rfl, by decide⟩

theorem label_of_readWord {w : BitVec 208} {i : Instr} {x : Args} {iss : Iss}
    (branch : i ∈ [Instr.bra x, .call x, .ubra x, .ucall x, .uloop x]) (names : readWord w = some i) (own : iss.x = x) :
    iss.label = iss.pc + 10 + BitVec.ofInt 64 (2 * (BitVec.ofNat 27 (field w 40 14)).toInt) := by
  obtain ⟨args_i, r, roles, -⟩ := branch_roles branch
  obtain ⟨mk, r', named, roles', rfl⟩ := (readWord_eq_some_iff w i).1 names
  obtain rfl : r' = (r, .raw, .raw, .raw) := Option.some.inj (roles'.symm.trans roles)
  obtain rfl : wordArgs (r, .raw, .raw, .raw) w = x := Option.some.inj ((formOfKey_spec named _).2.1.symm.trans args_i)
  have offset : rawOf (wordArgs (r, .raw, .raw, .raw) w).c + rawOf (wordArgs (r, .raw, .raw, .raw) w).b * 2 ^ 9 +
      rawOf (wordArgs (r, .raw, .raw, .raw) w).a * 2 ^ 18 = field w 40 14 := by
    simp only [wordArgs, decodeOpnd, rawOf, BitVec.toNat_ofNat, field_eq_div]
    omega
  have doubled (o : BitVec 27) : 2 * o.signExtend 64 = BitVec.ofInt 64 (2 * o.toInt) := by
    rw [BitVec.ofInt_mul]
    rfl
  simp only [Iss.label, own, offset, doubled]

/-- Settles O41, from the fields of a word as it is read, its bytes, and the offset in SA, SB and SC. -/
theorem wordFields : Obligations.WordFields := by
  unfold Obligations.WordFields
  refine ⟨fun w i x names args_i => ?fields, fun bs k fits _ => field_wordOfBytes fits k, fun w iss x names own => ?label⟩
  case fields =>
    obtain ⟨x', args_i', key_i, ctl, ⟨d, a, b, c⟩, ty, mod, -⟩ := fields_readWord names
    cases args_i.symm.trans args_i'
    have of_field (h l n : Nat) (fits : n = h + 1 - l) : (BitVec.ofNat n (field w h l)).toNat = field w h l := by
      rw [BitVec.toNat_ofNat, Nat.mod_eq_of_lt (fits ▸ field_lt w h l)]
    rw [← wordKey_eq_fields, ctl]
    exact ⟨key_i, of_field 78 75 4 rfl, rfl, of_field 73 71 3 rfl, of_field 70 64 7 rfl, rfl, of_field 52 50 3 rfl, d, a, b, c, ty, mod⟩
  case label =>
    rcases names with names | names | names | names | names <;> exact label_of_readWord (by simp) names own

theorem opndLen_of_number {uni : Bool} {r : Role} {o : Opnd} (legal : roleOk uni r o = true) (number : r = .unused ∨ r = .raw) :
    opndLen o = 0 := by
  obtain ⟨n, rfl⟩ := (number_of_roleOk legal).1 number
  rfl

theorem opndLen_of_dst {uni : Bool} {n al : Nat} {o : Opnd} (legal : roleOk uni (.dst n al) o = true) : opndLen o = 0 := by
  cases o <;> simp_all [roleOk, opndLen]

/-- Settles O42: the offset field is 27 bits wide, and a well-formed branch names no literal. -/
theorem branchTargets : Obligations.BranchTargets := by
  unfold Obligations.BranchTargets
  intro w i x iss branch names good own
  obtain ⟨args_i, r, roles, used⟩ := branch_roles branch
  obtain ⟨x', args_i', key_i, -⟩ := fields_readWord names
  obtain ⟨-, -, g, signed, legal⟩ := wellFormed_form key_i args_i good
  obtain ⟨⟨d_ok, a_ok, b_ok, c_ok⟩, -⟩ := sigOk_opnds legal
  rw [rolesOf, signed, Option.map_some, Option.some.injEq, Prod.mk.injEq, Prod.mk.injEq, Prod.mk.injEq] at roles
  obtain ⟨rd, ra, rb, rc⟩ := roles
  rw [ra] at a_ok
  rw [rb] at b_ok
  rw [rc] at c_ok
  have target : opndLen x.d = 0 := by
    rw [rd] at d_ok
    rcases used with rfl | rfl | rfl
    · exact opndLen_of_number d_ok (.inl rfl)
    · exact opndLen_of_dst d_ok
    · exact opndLen_of_dst d_ok
  have lo := (BitVec.ofNat 27 (field w 40 14)).le_toInt
  have hi := (BitVec.ofNat 27 (field w 40 14)).toInt_lt
  refine ⟨label_of_readWord branch names own, ?_, target, opndLen_of_number a_ok (.inr rfl), opndLen_of_number b_ok (.inr rfl),
    opndLen_of_number c_ok (.inr rfl), by omega, by omega⟩
  rw [lengthOf_of_args names args_i, target, opndLen_of_number a_ok (.inr rfl), opndLen_of_number b_ok (.inr rfl),
    opndLen_of_number c_ok (.inr rfl)]

end Sys2Proof
end

section
/-!
PROOFS. Instructions of fixed latency (R293 to R310, R320 to R347): each has the results that its meaning names, read alike whether or not the
speculation entry of the issue is open.
-/

namespace Sys2Proof.Machine

@[simp] theorem State.opened_int (s : State) (n : Iss) (g : Agent) (j : Nat) (t : Ty) (o : Opnd) : n.int (s.opened g) j t o = n.int s j t o := by
  simp [Iss.int]

@[simp] theorem State.opened_bits (s : State) (n : Iss) (g : Agent) (j : Nat) (o : Opnd) : n.bits (s.opened g) j o = n.bits s j o := by
  simp [Iss.bits]

theorem State.src_opened (s : State) (n : Iss) (g : Agent) : n.src (s.opened g) = n.src s := by
  funext j t o
  simp

theorem State.src32_opened (s : State) (n : Iss) (g : Agent) : n.src32 (s.opened g) = n.src32 s := by
  funext j o
  simp

/-- The reads of a result do not see whether the speculation entry of the issue is open. -/
def ReadsAlike (f : State → Iss → Nat → List RegWrite) : Prop := ∀ s n g j, f (State.opened s g) n j = f s n j

/-- An instruction whose meaning is the shape of fixed latency has the results that its meaning names, x being its fields. -/
theorem fixedResult_of_exec {i : Instr} {x : Args} {f : State → Iss → Nat → List RegWrite}
    (meaning : ∀ s, exec i s = s.fixed i x (fun n s j => f s { n with x := x } j)) (kept : isRetired i = false) (alike : ReadsAlike f) :
    FixedResult i x f :=
  fixedResult_of meaning kept (fun _ n _ own => by rw [← own]) (fun s n g j => alike s n g j)

/-- Settles O1: each form is its meaning; the carries differ in how a sum of naturals stands as an integer. -/
theorem integerResults : Obligations.IntegerResults := by
  unfold Obligations.IntegerResults
  intro x
  refine ⟨?add, ?sub, ?mul, ?mulh, ?mad, ?madw, ?neg, ?abs, ?min, ?max, ?addc, ?subb, ?lea, ?dot4, ?sad⟩
  case madw =>
    refine fixedResult_of_exec (fun s => Eq.trans (b := execImadw x s) rfl (congrArg (s.fixed (.imadw x) x) ?_)) rfl (fun s n a j => by simp)
    funext n u j
    simp only [beq_iff_eq]
    rfl
  case abs =>
    simp only [Int.abs_eq_natAbs]
    exact fixedResult_of_exec (fun _ => rfl) rfl (fun s n a j => by simp)
  case addc =>
    simp only [Nat.cast_add]
    exact fixedResult_of_exec (fun _ => rfl) rfl (fun s n a j => by simp)
  case subb =>
    simp only [Nat.cast_add, ← Int.sub_sub]
    exact fixedResult_of_exec (fun _ => rfl) rfl (fun s n a j => by simp)
  all_goals exact fixedResult_of_exec (fun _ => rfl) rfl (fun s n a j => by simp)

/-- Settles O2: each form is its meaning. -/
theorem logicResults : Obligations.LogicResults := by
  unfold Obligations.LogicResults
  intro x
  refine ⟨?and, ?or, ?xor, ?andn, ?bool3, ?shl, ?shr, ?sar, ?rot, ?shf, ?bfx, ?bfi, ?popc, ?clz, ?ctz, ?brev, ?bytep⟩
  case andn =>
    simp only [BitVec.toNat_and, BitVec.toNat_not]
    exact fixedResult_of_exec (fun _ => rfl) rfl (fun s n a j => by simp)
  all_goals exact fixedResult_of_exec (fun _ => rfl) rfl (fun s n a j => by simp)

/-- Settles O3: each form is its meaning. -/
theorem compareResults : Obligations.CompareResults := by
  unfold Obligations.CompareResults
  intro x
  refine ⟨?icmp, ?fcmp, ?sel, ?pset, ?pmov, ?pmovUnpack, ?mov⟩
  all_goals exact fixedResult_of_exec (fun _ => rfl) rfl (fun s n a j => by simp)

/-- Settles O4: each form is its meaning; VOTE and MATCH answer a mask or number and a predicate by the same case. -/
theorem crossLaneResults : Obligations.CrossLaneResults := by
  unfold Obligations.CrossLaneResults
  intro x
  refine ⟨?shfl, ?vote, ?mtch, ?redux, ?scan⟩
  case vote =>
    refine fixedResult_of_exec (fun s => Eq.trans (b := execVote x s) rfl (congrArg (s.fixed (.vote x) x) ?_)) rfl
      (fun s n a j => by rw [s.src32_opened, s.opened_widthOf])
    funext n u j
    dsimp only
    split <;> rfl
  case mtch =>
    refine fixedResult_of_exec (fun s => Eq.trans (b := execMatch_ x s) rfl (congrArg (s.fixed (.match_ x) x) ?_)) rfl
      (fun s n a j => by rw [s.src_opened, s.opened_widthOf])
    funext n u j
    dsimp only
    split <;> rfl
  case redux =>
    refine fixedResult_of_exec (fun s => Eq.trans (b := s.foldOp (.redux x) x (fun _ _ => true)) rfl (congrArg (s.fixed (.redux x) x) ?_)) rfl (fun s n a j => by simp)
    funext n u j
    simp only [Bool.and_true]
    rfl
  all_goals exact fixedResult_of_exec (fun _ => rfl) rfl (fun s n a j => by simp)

/-- Settles O5: each form is its meaning. -/
theorem floatResults : Obligations.FloatResults := by
  unfold Obligations.FloatResults
  intro x
  refine ⟨?add, ?sub, ?mul, ?fma, ?min, ?max, ?rnd, ?scale, ?cls, ?dot2, ?padd, ?pmul, ?pfma, ?pmin, ?pmax⟩
  all_goals exact fixedResult_of_exec (fun _ => rfl) rfl (fun s n a j => by simp)

/-- Settles O6: each form is its meaning. -/
theorem conversionResults : Obligations.ConversionResults := by
  unfold Obligations.ConversionResults
  intro x
  refine ⟨?fcvt, ?icvt, ?fcvti, ?pack, ?unpk⟩
  case pack =>
    refine fixedResult_of_exec (fun s => Eq.trans (b := execPack x s) rfl (congrArg (s.fixed (.pack x) x) ?_)) rfl (fun s n a j => by simp)
    funext n u j
    simp only [Bool.or_eq_true, beq_iff_eq]
    rfl
  case unpk =>
    refine fixedResult_of_exec (fun s => Eq.trans (b := execUnpk x s) rfl (congrArg (s.fixed (.unpk x) x) ?_)) rfl (fun s n a j => by simp)
    funext n u j
    simp only [beq_iff_eq]
    split <;> rfl
  all_goals exact fixedResult_of_exec (fun _ => rfl) rfl (fun s n a j => by simp)

/-- Settles O7: each form is its meaning, that of the lane form of its name. -/
theorem uniformResults : Obligations.UniformResults := by
  unfold Obligations.UniformResults
  intro x
  refine ⟨?add, ?sub, ?mul, ?mad, ?min, ?max, ?and, ?or, ?xor, ?shl, ?shr, ?sar, ?bfx, ?lea, ?cmp, ?sel, ?mov, ?ufrom⟩
  all_goals exact fixedResult_of_exec (fun _ => rfl) rfl (fun s n a j => by simp)

end Sys2Proof.Machine
end

section
/-!
PROOFS. What operands supply (R249 to R253), registers that read as constants, FLAGS (R102), and reads of results on their way (R259, R260).
-/

namespace Sys2Proof.Machine

/-! ## Reading a register under results on their way (R259, R260) -/

/-- What is read is what the last result on its way leaves, if it is seen, of what the earlier ones leave. -/
theorem readThrough_append_one (fresh cycle : Nat) (ls : List Landing) {l : Landing} {w : RegWrite} (one : l.writes = [w]) {lane : Nat}
    (code : Nat) {d : Dest} (hit : hits w lane d = true) (plain : d ≠ .flags) (v : BitVec 128) :
    readThrough fresh cycle (ls ++ [l]) lane code d v =
      if decide (l.due ≤ cycle) || Config.seesNew fresh l.id lane code then w.val else readThrough fresh cycle ls lane code d v := by
  simp [readThrough, one, hit, plain]

theorem State.reg_eq_readThrough {s : State} {g : Agent} {c : Ctx} (ctx : s.ctx g = some c) (lane : Nat) {d : Dest} (not_p7 : d ≠ .p 7)
    (not_q7 : d ≠ .q 7) :
    s.reg g lane d = readThrough s.fresh (s.cycle (agentCore g)) c.landings lane (destCode d) d (s.base g lane d) := by
  unfold State.reg State.regPart
  rw [ctx]
  dsimp only
  split <;> simp_all

/-- Settles O46: the last result that hits a register decides what a read of it sees; the latencies are those of the table. -/
theorem fixedLatency : Obligations.FixedLatency := by
  unfold Obligations.FixedLatency
  refine ⟨fun s g c lane d ls l w ctx lands one hit plain not_p7 not_q7 => ?_, fun x => ?_⟩
  · have read := s.reg_eq_readThrough ctx lane not_p7 not_q7
    rw [lands, readThrough_append_one _ _ _ one _ hit plain] at read
    refine ⟨fun landed => ?_, ?_⟩
    · simpa [landed] using read
    · rintro rfl
      rw [read]
      split
      · exact .inl rfl
      · exact .inr rfl
  · simp [latency]

/-! ## Constants and literals (R251, R253) -/

/-- The conversion of a constant to a floating-point type is exact. -/
theorem iCvt_const_exact (c : BitVec 5) :
    ∀ t ∈ [Ty.f32, .f64, .f16, .bf16], (iCvt t {} ((c.toNat : Int) - 16)).fl = 0 := by
  revert c
  decide +kernel

/-- A predicate supplies the constant 0 or 1 that it holds. -/
theorem State.opnd_pred (s : State) (g : Agent) (uni packed : Bool) (lane : Nat) (t : Ty) (k : BitVec 3) :
    s.opnd g uni packed lane t (.p k) =
      s.opnd g uni packed lane t (.k (if s.reg g lane (if uni then .q k.toNat else .p k.toNat) = 0 then 16 else 17)) := by
  simp only [State.opnd]
  generalize s.reg g lane _ = r
  congr 1
  split <;> rfl

/-! ## Writes of registers (R102, R249) -/

/-- A landed write that is none of a special register only raises FLAGS. -/
theorem Ctx.put_keeps_flags (c : Ctx) (w : RegWrite) {k : Nat} (set : c.flags.getLsbD k = true) : (c.put w).flags.getLsbD k = true := by
  unfold Ctx.put
  split
  · exact set
  · split <;> exact set
  · simp [set]
  · exact set
  · exact set

@[simp] theorem Warp.put_ctx (y : Warp) (w : RegWrite) : (y.put w).ctx = y.ctx := by
  unfold Warp.put
  split
  case h_2 => split <;> rfl
  all_goals rfl

@[simp] theorem Warp.logUndo_ctx (y : Warp) (spec : Option Nat) (old : RegWrite) : (y.logUndo spec old).ctx = y.ctx := by
  cases spec <;> rfl

/-- What landing a write of no special register leaves of the agent's context: the context it was, or the one that the write is put in. -/
theorem State.putReg_ctx {s : State} {g : Agent} {c : Ctx} (ctx : s.ctx g = some c) (spec : Option Nat) {w : RegWrite}
    (plain : ∀ i, w.dest ≠ .sr i) : (s.putReg g spec w).ctx g = some c ∨ (s.putReg g spec w).ctx g = some (c.put w) := by
  unfold State.putReg
  split
  case h_1 special => exact absurd special (plain _)
  case h_2 k _ =>
    left
    exact (s.ctx_updWarp k _ (by intro _; rfl) _).trans ctx
  case h_3 =>
    right
    rename_i g _ _ _ _ _
    cases g with
    | warp k =>
      obtain ⟨y, here, rfl⟩ := Option.map_eq_some_iff.1 (show (s.warp k).map (·.ctx) = some c from ctx)
      simp [State.ctx, here]
    | ct t =>
      obtain ⟨y, here, rfl⟩ := Option.map_eq_some_iff.1 (show (s.team t).map (·.ct) = some c from ctx)
      simp only [State.ctx, State.team_updTeam, if_true, here, Option.map_some]
      split <;> rfl

/-- Results that land keep the bits of FLAGS. -/
theorem State.putRegs_keeps_flags {s : State} {g : Agent} {c : Ctx} (ctx : s.ctx g = some c) (spec : Option Nat) {ws : List RegWrite}
    (plain : ∀ w ∈ ws, ∀ i, w.dest ≠ .sr i) {k : Nat} (set : c.flags.getLsbD k = true) :
    ∃ d, (s.putRegs g spec ws).ctx g = some d ∧ d.flags.getLsbD k = true := by
  induction ws generalizing s c with
  | nil => exact ⟨c, ctx, set⟩
  | cons w r rest =>
    have plain_r : ∀ w ∈ r, ∀ i, w.dest ≠ .sr i := fun u mem => plain u (List.mem_cons_of_mem _ mem)
    rcases s.putReg_ctx ctx spec (plain w List.mem_cons_self) with same | put
    · exact rest same plain_r set
    · exact rest put plain_r (c.put_keeps_flags w set)

theorem State.reg_const_true {s : State} {g : Agent} {c : Ctx} (ctx : s.ctx g = some c) (lane : Nat) :
    s.reg g lane (.p 7) = 1 ∧ s.reg g lane (.q 7) = 1 := by
  simp [State.reg, State.regPart, ctx]

/-- Settles O45: an operand's bits by its code and type, the registers that read as true, and what landing a write keeps of FLAGS. -/
theorem operandValues : Obligations.OperandValues := by
  unfold Obligations.OperandValues
  refine ⟨fun s g uni lane c x y => ?operands, fun s g c lane ctx => s.reg_const_true ctx lane, fun y c lane v => ⟨rfl, rfl, rfl⟩,
    fun s g c spec ws k ctx plain set => s.putRegs_keeps_flags ctx spec plain set⟩
  case operands =>
    refine ⟨?_, ?_, rfl, rfl, rfl, rfl, ?_, ?_, fun t k => s.opnd_pred g uni false lane t k⟩
    · simp [State.opnd, constVal, litVal]
    · simp [State.opnd, constVal]
    · simp [State.opnd, litVal]
    · exact fun t mem => ⟨by revert t; simp [State.opnd, constVal], iCvt_const_exact c t mem⟩

end Sys2Proof.Machine
end

section
/-!
PROOFS. Transcendental instructions (R329, R341, R342) and the retired forms (R264, R266, R290, R291, R404).
-/

namespace Sys2Proof.Machine

/-- An instruction whose meaning is the shape of the transcendental unit takes the unit while it is free, and its result waits. -/
theorem hasState_of_transOp {i : Instr} {x : Args} {f : Nat → Res} (meaning : ∀ s, exec i s = s.transOp i x f) (kept : isRetired i = false) :
    HasState i x (fun s n => s.unitBusy n.w.g = false ∧ (s.takeUnit n (x.ty == .f64)).isSome) (fun s n =>
      ((s.takeUnit n (x.ty == .f64)).getD s).later n (n.each.flatMap (fun j => resWrites x.ty x.d j (f (n.fsrc s j x.ty x.a))))) := by
  refine hasState_of_body meaning kept fun s n active ⟨free, taken⟩ => ?_
  obtain ⟨u, taken⟩ := Option.isSome_iff_exists.1 taken
  simp only [free, active, taken, Bool.false_eq_true, if_false, Option.getD_some]

/-- Settles O8: each form has the shape of the transcendental unit, with its own function. -/
theorem transcendentalResults : Obligations.TranscendentalResults := by
  unfold Obligations.TranscendentalResults
  intro x
  refine ⟨?rcp, ?sqrt, ?rsq, ?exp2, ?log2, ?sin, ?cos, ?tanh⟩
  all_goals exact hasState_of_transOp (fun _ => rfl) rfl

/-! ## Retired forms -/

/-- An instruction that executes normally has its effect, is counted where it is retired, and ends its issue. -/
theorem State.Runs.counted {s : State} {i : Instr} {x : Args} {w : Who} (h : s.Runs i x w) {body : Iss → State → Eff} {e : Eff}
    (comes : body (s.issOf i x w) (s.opened w.g) = e) (goes : e.stalled = false) :
    s.issue i x body = .next (State.finish (s.issOf i x w) { e with st := e.st.countRetired w i }) := by
  rw [h.issue, comes]
  simp only [State.conclude, goes, Bool.false_eq_true, if_false, State.payOwed_nil, List.nil_append]
  rfl

theorem State.Runs.fixed_counted {s : State} {i : Instr} {x : Args} {w : Who} (h : s.Runs i x w) (f : Iss → State → Nat → List RegWrite) :
    s.fixed i x f = .next (State.finish (s.issOf i x w)
      { st := ((s.issOf i x w).results (s.opened w.g) (latency i)
          ((s.issOf i x w).each.flatMap (f (s.issOf i x w) (s.opened w.g)))).countRetired w i }) :=
  h.counted (body := fun n u => { st := n.results u (latency i) (n.each.flatMap (f n u)) }) rfl rfl

theorem isTrapped_iff (i : Instr) : isTrapped i = true ↔ ∃ y, i = .frcpa y ∨ i = .ldgx y := by
  cases i <;> simp [isTrapped]

/-- A form in its trapped state raises RETIRED_FORM at decode and is counted (R257, R264, R291). -/
theorem State.issue_trapped {s : State} {i : Instr} {x : Args} {w : Who} {k : Nat} (agent : s.cur.agent = some w.g) (who : s.who w.g = some w)
    (warp : w.g = .warp k) (free : s.specStops w.g s.cur.lanes i (never x.ctl) = false) (trapped : isTrapped i = true) (body : Iss → State → Eff) :
    s.issue i x body =
      .next (State.finish (s.issOf i x w) (Eff.all ((s.opened w.g).countRetired w i) s.cur.lanes .retiredForm 0)) := by
  have issuer : s.issuer = some w := by simp [State.issuer, agent, who]
  have cause : s.wordCause w.g i x s.cur.buffer = some .retiredForm := by
    rw [warp] at who
    obtain ⟨y, rfl | rfl⟩ := (isTrapped_iff i).1 trapped <;> simp [State.wordCause, sigOf, warp, who, bufferRefuses, isTrapped]
  have stops : (s.specStops w.g (s.issOf i x w).lanes i (never x.ctl) && !s.cur.buffer) = false := by
    rw [show (s.issOf i x w).lanes = s.cur.lanes from rfl, free, Bool.false_and]
  simp only [State.issue, issuer, stops, cause, Bool.false_eq_true, if_false]
  rfl

/-- No lane branches at an instruction that reaches barrier objects. -/
theorem State.atObjects_go (s : State) (n : Iss) (lanes : List Nat × Iss) (write : Bool) (release : List (Nat × LaneRes) → Option Nat)
    (f : State → Nat → ObjLoc → Option State) : (s.atObjects n lanes write release f).go = [] := by
  unfold State.atObjects
  dsimp only
  repeat' split
  all_goals rfl

/-- Settles O23: IMAD24 has its result, BARSYNC arrives and then waits or sees the phase passed, and both are counted; the trapped forms raise
their cause. -/
theorem retiredForms : Obligations.RetiredForms := by
  unfold Obligations.RetiredForms
  intro x
  dsimp only
  refine ⟨fun s w runs => ?imad24, fun s w o runs active reached goes clean here => ?barsync,
    fun s w k agent who warp free => ?frcpa, fun s w k agent who warp free => ?ldgx⟩
  case imad24 => exact (show execImad24 x s = _ from runs.fixed_counted _)
  case frcpa => exact (show execFrcpa x s = _ from State.issue_trapped agent who warp free rfl _)
  case ldgx => exact (show execLdgx x s = _ from State.issue_trapped agent who warp free rfl _)
  case barsync =>
    have straight := (s.opened w.g).atObjects_go (s.issOf (.barsync x) x w) ((s.issOf (.barsync x) x w).arrivals false) true
      (fun rs => some ((s.opened w.g).objScope rs)) (fun v _ o => v.arrive w o 1 0)
    have own : (s.issOf (.barsync x) x w).w = w := rfl
    generalize arrived : (s.opened w.g).atObjects (s.issOf (.barsync x) x w) _ _ _ _ = e at goes clean here straight ⊢
    obtain ⟨u, stalled, causes, stay, go⟩ := e
    obtain rfl : stalled = false := goes
    obtain rfl : causes = [] := clean
    obtain rfl : stay = 0 := here
    obtain rfl : go = [] := straight
    refine ⟨fun waits => ?_, fun passed good => ?_⟩
    · refine (show execBarsync x s = _ from runs.counted (e := { st := u.block _ _, stay := (s.issOf (.barsync x) x w).act }) ?_ rfl)
      simp only [active, reached, own, arrived, waits, if_false, Bool.false_or, List.isEmpty_nil, Bool.not_true,
        bne_self_eq_false, Bool.false_eq_true, Option.map_some, Bool.not_false, if_true]
    · refine (show execBarsync x s = _ from runs.counted (e := { st := u.observe w o }) ?_ rfl)
      simp only [active, reached, own, arrived, passed, good, if_false, Bool.false_or, List.isEmpty_nil, Bool.not_true,
        bne_self_eq_false, Bool.false_eq_true, Option.map_some]

end Sys2Proof.Machine
end

section
/-!
PROOFS. Control flow: branches, calls and returns (R311 to R313, R324, R325), exits (R101, R315, R326), and TRAP, BRK, STEP and SAFE (R316
to R318, R237).
-/

namespace Sys2Proof.Machine

/-! ## Branches and calls -/

theorem State.ofWarp_of_isPredicted {s : State} {n : Iss} (predicted : s.isPredicted n = true) : n.w.g = .warp n.warpNo := by
  unfold State.isPredicted at predicted
  unfold Iss.warpNo
  split at predicted
  case h_1 => cases predicted
  case h_2 _ w same => rw [same]

/-- A predicted branch issues while fewer than four are open and the window has a place for its entry (R92). -/
theorem State.predict_goes {s : State} {n : Iss} {w : Nat} {call : Bool} {target : Nat → W64}
    (room : ∀ y, s.warp w = some y → y.openBranches < 4 ∧ (n.spec.isSome = true ∨ y.window.length < 32)) :
    (s.predict n w call target).stalled = false := by
  unfold State.predict
  split
  case h_1 => rfl
  case h_2 y resident =>
    obtain ⟨few, place⟩ := room y resident
    have goes : (decide (4 ≤ y.openBranches) || (n.spec.isNone && decide (32 ≤ y.window.length))) = false := by
      cases h : n.spec <;> simp_all
    rw [if_neg (by simp only [goes, Bool.false_eq_true, not_false_eq_true])]

/-- A resolved branch raises the cause of each lane that has one; the others go to their targets, with their links where it is a call. -/
theorem hasEffect_of_branchOp_resolved {i : Instr} {x : Args} {call : Bool} {target : Iss → State → Nat → W64}
    (meaning : ∀ s, exec i s = s.branchOp i x call target) (kept : isRetired i = false) :
    HasEffect i x (fun s n => s.isPredicted n = false) (fun s n =>
      let bad (j : Nat) : Option Cause := s.branchCause n.w.g call j (target n s j)
      let good := (lanesOf n.act).filter (fun j => (bad j).isNone)
      { st := if call then (good.foldl (fun u j => u.setDepth n.w.g n.spec j (u.depthOf n.w.g j + 1)) s).link_ n good n.spec else s
        causes := (lanesOf n.act).filterMap (fun j => (bad j).map (fun c => (j, c, 0)))
        go := good.map (fun j => (j, target n s j)) }) := by
  refine hasEffect_of_body meaning kept fun s n _ _ resolved => ⟨?_, rfl⟩
  have good (g : Agent) : (((lanesOf n.act).map (fun j => (j, s.branchCause g call j (target n s j)))).filter (fun r => r.2.isNone)).map (·.1) =
      (lanesOf n.act).filter (fun j => (s.branchCause g call j (target n s j)).isNone) := by
    simp only [List.filter_map, List.map_map, Function.comp_def, List.map_id']
  generalize n.w.g = g at resolved ⊢
  cases g <;> simp only [resolved, good, List.filterMap_map, Function.comp_def]

/-- A predicted branch, with room for it, enters the window (R90 to R92, R313). -/
theorem hasEffect_of_branchOp_predicted {i : Instr} {x : Args} {call : Bool} {target : Iss → State → Nat → W64}
    (meaning : ∀ s, exec i s = s.branchOp i x call target) (kept : isRetired i = false) :
    HasEffect i x (fun s n => s.isPredicted n = true ∧
        ∀ y, s.warp n.warpNo = some y → y.openBranches < 4 ∧ (n.spec.isSome = true ∨ y.window.length < 32))
      (fun s n => s.predict n n.warpNo call (target n s)) := by
  refine hasEffect_of_body meaning kept fun s n _ _ ⟨predicted, room⟩ => ⟨?_, State.predict_goes room⟩
  simp only [State.ofWarp_of_isPredicted predicted, predicted]

/-- Settles O14: each instruction of the family takes the branch of its body that the clause names. -/
theorem branchEffects : Obligations.BranchEffects := by
  unfold Obligations.BranchEffects
  intro x
  dsimp only
  refine ⟨⟨hasEffect_of_branchOp_resolved (fun s => show execBra x s = _ from rfl) rfl,
      hasEffect_of_branchOp_predicted (fun s => show execBra x s = _ from rfl) rfl⟩,
    ⟨hasEffect_of_branchOp_resolved (fun s => show execBrx x s = _ from rfl) rfl,
      hasEffect_of_branchOp_predicted (fun s => show execBrx x s = _ from rfl) rfl⟩,
    ⟨hasEffect_of_branchOp_resolved (fun s => show execCall x s = _ from rfl) rfl,
      hasEffect_of_branchOp_predicted (fun s => show execCall x s = _ from rfl) rfl⟩,
    ⟨hasEffect_of_branchOp_resolved (fun s => show execCallx x s = _ from rfl) rfl,
      hasEffect_of_branchOp_predicted (fun s => show execCallx x s = _ from rfl) rfl⟩,
    hasEffect_of_body (fun s => show execRet x s = _ from rfl) rfl fun s n _ _ _ => ⟨rfl, rfl⟩,
    hasEffect_of_body (fun s => show execUbra x s = _ from rfl) rfl fun s n _ active _ => ⟨if_neg active, rfl⟩,
    hasEffect_of_body (fun s => show execUbrx x s = _ from rfl) rfl ?ubrx,
    hasEffect_of_body (fun s => show execUbrx x s = _ from rfl) rfl ?ubrxOdd,
    hasEffect_of_body (fun s => show execUcall x s = _ from rfl) rfl ?ucall,
    hasEffect_of_body (fun s => show execUcall x s = _ from rfl) rfl ?ucallFull,
    hasEffect_of_body (fun s => show execUret x s = _ from rfl) rfl ?uret,
    hasEffect_of_body (fun s => show execUloop x s = _ from rfl) rfl fun s n _ active _ => ⟨if_neg active, rfl⟩⟩
  case ubrx =>
    intro s n _ active even
    refine ⟨?_, rfl⟩
    simp only [active, even, if_false, Bool.false_eq_true]
  case ubrxOdd =>
    intro s n _ active odd
    refine ⟨?_, rfl⟩
    simp only [active, odd, if_false, if_true]
  case ucall =>
    intro s n _ active shallow
    have notFull : (lanesOf n.lanes).any (fun j => s.depthOf n.w.g j == 255) = false := by
      simpa only [List.any_eq_false, beq_iff_eq] using shallow
    refine ⟨?_, rfl⟩
    simp only [active, notFull, if_false, Bool.false_eq_true, State.uniformGo]
  case ucallFull =>
    intro s n _ active deep
    have full : (lanesOf n.lanes).any (fun j => s.depthOf n.w.g j == 255) = true := by
      simpa only [List.any_eq_true, beq_iff_eq] using deep
    refine ⟨?_, rfl⟩
    simp only [active, full, if_false, if_true]
  case uret =>
    intro s n _ active ⟨even, called⟩
    have some_ : (lanesOf n.lanes).any (fun j => s.depthOf n.w.g j == 0) = false := by
      simpa only [List.any_eq_false, beq_iff_eq] using called
    refine ⟨?_, rfl⟩
    simp only [active, even, some_, if_false, Bool.false_eq_true, State.uniformGo]

/-! ## Exits -/

theorem Iss.warp_of_ofWarp {n : Iss} (ofWarp : n.ofWarp = true) : n.w.g = .warp n.warpNo := by
  unfold Iss.ofWarp at ofWarp
  unfold Iss.warpNo
  cases same : n.w.g <;> simp_all only [Bool.false_eq_true]

theorem Iss.ct_of_not_ofWarp {n : Iss} (ofCt : n.ofWarp = false) : n.w.g = .ct n.warpNo := by
  unfold Iss.ofWarp at ofCt
  unfold Iss.warpNo
  cases same : n.w.g <;> simp_all only [Bool.true_eq_false]

/-- Settles O15: each exit takes the branch of its body that the kind of exit, the agent and its mode name. -/
theorem exitEffects : Obligations.ExitEffects := by
  unfold Obligations.ExitEffects
  intro x
  dsimp only
  refine ⟨hasEffect_of_body (fun s => show execExit x s = _ from rfl) rfl ?lanes,
    hasEffect_of_body (fun s => show execExit x s = _ from rfl) rfl ?handler,
    hasEffect_of_body (fun s => show execExitTeam x s = _ from rfl) rfl ?team,
    hasEffect_of_body (fun s => show execExitTeam x s = _ from rfl) rfl ?teamBarred,
    hasEffect_of_body (fun s => show execExitGrid x s = _ from rfl) rfl ?grid,
    hasEffect_of_body (fun s => show execExitGrid x s = _ from rfl) rfl ?gridBarred,
    hasEffect_of_body (fun s => show execUexit x s = _ from rfl) rfl ?uniform,
    hasEffect_of_body (fun s => show execUexit x s = _ from rfl) rfl ?control,
    hasEffect_of_body (fun s => show execUexit x s = _ from rfl) rfl ?uniformTeam,
    hasEffect_of_body (fun s => show execUexit x s = _ from rfl) rfl ?uniformGrid,
    hasEffect_of_body (fun s => show execUexit x s = _ from rfl) rfl ?uniformBarred⟩
  case lanes =>
    intro s n _ active ⟨ofWarp, mode⟩
    refine ⟨?_, rfl⟩
    simp only [Iss.warp_of_ofWarp ofWarp, active, mode, if_false, Bool.false_eq_true]
  case handler =>
    intro s n _ active ⟨ofWarp, mode⟩
    refine ⟨?_, rfl⟩
    simp only [Iss.warp_of_ofWarp ofWarp, active, mode, if_false, if_true]
  case team | grid =>
    intro s n _ active mode
    refine ⟨?_, rfl⟩
    simp only [active, mode, if_false, if_true]
  case teamBarred | gridBarred =>
    intro s n _ active mode
    refine ⟨?_, rfl⟩
    simp only [active, mode, if_false, Bool.false_eq_true]
  case uniform =>
    intro s n _ active ⟨lanes, ofWarp⟩
    refine ⟨?_, rfl⟩
    simp only [active, lanes, Iss.warp_of_ofWarp ofWarp, if_false]
  case control =>
    intro s n _ active ⟨lanes, ofCt⟩
    refine ⟨?_, rfl⟩
    simp only [active, lanes, Iss.ct_of_not_ofWarp ofCt, if_false]
  case uniformTeam =>
    intro s n _ active ⟨team, mode⟩
    refine ⟨?_, rfl⟩
    simp only [active, team, mode, if_false]
  case uniformGrid =>
    intro s n _ active ⟨grid, mode⟩
    obtain ⟨k, kind⟩ : ∃ k, modBits x.mod 6 5 = k + 2 := ⟨_, (Nat.sub_add_cancel grid).symm⟩
    refine ⟨?_, rfl⟩
    simp only [active, kind, mode, if_false]
  case uniformBarred =>
    intro s n _ active ⟨more, mode⟩
    refine ⟨?_, rfl⟩
    obtain ⟨k, kind⟩ : ∃ k, modBits x.mod 6 5 = k + 1 := ⟨_, (Nat.sub_add_cancel more).symm⟩
    cases k <;> simp only [active, kind, mode, if_false]

/-! ## TRAP, BRK, STEP and SAFE -/

/-- Settles O16: each instruction takes the branch of its body that the debugger, STEPEN or the safe point names. -/
theorem trapEffects : Obligations.TrapEffects := by
  unfold Obligations.TrapEffects
  intro x
  dsimp only
  refine ⟨hasEffect_of_body (fun s => show execTrap x s = _ from rfl) rfl fun s n _ _ _ => ⟨rfl, rfl⟩,
    hasEffect_of_body (fun s => show execBrk x s = _ from rfl) rfl ?breakpoint,
    fun d => hasEffect_of_body (fun s => show execBrk x s = _ from rfl) rfl ?halts,
    hasState_of_body (fun s => show execStep_ x s = _ from rfl) rfl ?station,
    hasState_of_body (fun s => show execStep_ x s = _ from rfl) rfl ?noStation,
    hasState_of_body (fun s => show execSafe x s = _ from rfl) rfl ?notDue,
    hasState_of_body (fun s => show execSafe x s = _ from rfl) rfl ?someLanes,
    fun u => hasEffect_of_body (fun s => show execSafe x s = _ from rfl) rfl ?safePoint⟩
  case breakpoint =>
    intro s n _ active detached
    refine ⟨?_, rfl⟩
    simp only [active, detached, if_false]
  case halts =>
    intro s n _ active attached
    refine ⟨?_, rfl⟩
    simp only [active, attached, if_false]
  case station =>
    intro s n active enabled
    simp only [active, enabled, if_false, if_true]
  case noStation =>
    intro s n active disabled
    simp only [active, disabled, if_false, Bool.false_eq_true]
  case notDue =>
    intro s n active ⟨notTaken, notSoon⟩
    simp only [notTaken, notSoon, Bool.false_eq_true, if_false, ite_self]
  case someLanes =>
    intro s n active ⟨ofWarp, y, resident, apart⟩
    simp only [Iss.warp_of_ofWarp ofWarp, resident, active, apart, ne_eq, not_false_eq_true, or_true, if_true]
  case safePoint =>
    intro s n _ active ⟨ofWarp, ⟨y, resident, all⟩, taken⟩
    refine ⟨?_, rfl⟩
    rw [Iss.warp_of_ofWarp ofWarp] at taken
    simp only [Iss.warp_of_ofWarp ofWarp, resident, active, all, ne_eq, not_true_eq_false, or_self, if_false, taken]

end Sys2Proof.Machine
end

section
/-!
PROOFS. Memory instructions, region maps, atomics and fences (R352 to R362).
-/

namespace Sys2Proof.Machine

/-! ## Accesses that go on -/

theorem Except.exists_of_isOk {ε α : Type} {r : Except ε α} (ok : r.isOk = true) : ∃ a, r = .ok a := by
  cases r with
  | ok a => exact ⟨a, rfl⟩
  | error e => cases ok

/-- A wait that is over answers true and its state. -/
theorem eq_of_fst_true {α : Type} {r : Bool × α} (released : r.1 = true) : r = (true, r.2) := Prod.ext released rfl

/-- The lanes of an access that go on are lanes of the access. -/
theorem State.mem_of_splitAccess {s t : State} {n : Iss} {a : Access} {res here : List (Nat × LaneRes)} {stay : Mask}
    (split : s.splitAccess n a res = .ok (t, here, stay)) : ∀ r ∈ here, r ∈ res := by
  unfold State.splitAccess at split
  dsimp only at split
  split at split
  case isTrue => cases split
  case isFalse =>
    split at split
    case isTrue => cases split
    case isFalse =>
      cases split
      exact fun r listed => (List.mem_filter.1 listed).1

@[simp] theorem State.loadLanes_stalled (n : Iss) (p : Plan) (k : Nat) (form : Form) (acquire : Option Nat) :
    (State.loadLanes n p k form acquire).stalled = false := by
  unfold State.loadLanes
  dsimp only
  split <;> rfl

@[simp] theorem State.storeLanes_stalled (n : Iss) (p : Plan) (k : Nat) (rel : Option Nat) (data : Nat → Nat) :
    (State.storeLanes n p k rel data).stalled = false := rfl

@[simp] theorem State.stfGo_stalled (s : State) (n : Iss) (res : List (Nat × LaneRes)) (stay : Mask) (rd : Option Flight) (regs : Nat → Nat) :
    (s.stfGo n res stay rd regs).stalled = false := rfl

@[simp] theorem State.atomLanes_stalled (n : Iss) (p : Plan) (x : Args) (cas result : Bool) :
    (State.atomLanes n p x cas result).stalled = false := by
  unfold State.atomLanes
  dsimp only
  split <;> rfl

/-! ## Loads, stores, prefetches and write-backs -/

theorem hasEffect_of_loadOp {i : Instr} {x : Args} (meaning : ∀ s, exec i s = s.loadOp i x) (kept : isRetired i = false) :
    HasEffect i x (fun s n => (s.splitAccess n .read (s.accesses n (some x.b) (memSize x) .read (fun _ => none))).isOk = true) (fun s n =>
      Goes (s.splitAccess n .read (s.accesses n (some x.b) (memSize x) .read (fun _ => none))) (fun t res stay =>
        State.loadLanes n ((t.planLanes n .read true res).staying stay) (memSize x) (.plain x.d x.ty (memSize x)) (acquireOf x))) := by
  refine hasEffect_of_body meaning kept fun s n _ active goes => ?_
  unfold State.accesses at goes ⊢
  obtain ⟨⟨t, res, stay⟩, split⟩ := Except.exists_of_isOk goes
  simp only [active, split, if_false, Goes, State.loadLanes_stalled, and_self]

theorem hasEffect_of_storeOp {i : Instr} {x : Args} (meaning : ∀ s, exec i s = s.storeOp i x) (kept : isRetired i = false) :
    HasEffect i x (fun s n => Clear n (s.splitAccess n .write (s.accesses n (some x.b) (memSize x) .write (fun _ => none)))) (fun s n =>
      Goes (s.splitAccess n .write (s.accesses n (some x.b) (memSize x) .write (fun _ => none))) (fun t res stay =>
        State.storeLanes n (((t.waitRelease (n.without stay)).2.planLanes n .write false res).staying stay) (memSize x) (releaseOf x)
          (fun j => t.regsVal n.w.g j x.d (memRegs x) % 2 ^ (8 * memSize x)))) := by
  refine hasEffect_of_body meaning kept fun s n _ active ⟨t, res, stay, split, released⟩ => ?_
  unfold State.accesses at split ⊢
  rw [split]
  refine ⟨?_, rfl⟩
  simp only [active, split, if_false, Goes]
  rw [eq_of_fst_true released]

/-- Settles O9: each instruction takes the branch of its body in which nothing holds its lanes any longer. -/
theorem memoryEffects : Obligations.MemoryEffects := by
  unfold Obligations.MemoryEffects
  intro x
  dsimp only
  refine ⟨hasEffect_of_loadOp (fun s => show execLd x s = _ from rfl) rfl, hasEffect_of_loadOp (fun s => show execUld x s = _ from rfl) rfl,
    hasEffect_of_storeOp (fun s => show execSt x s = _ from rfl) rfl, hasEffect_of_storeOp (fun s => show execUst x s = _ from rfl) rfl,
    hasEffect_of_body (fun s => show execLdf x s = _ from rfl) rfl ?ldf,
    hasEffect_of_body (fun s => show execStf x s = _ from rfl) rfl ?scaled,
    hasEffect_of_body (fun s => show execStf x s = _ from rfl) rfl ?unscaled,
    hasEffect_of_body (fun s => show execPref x s = _ from rfl) rfl ?pref,
    hasEffect_of_body (fun s => show execCwb x s = _ from rfl) rfl ?cwb,
    hasState_of_body (fun s => show execCwbAll x s = _ from rfl) rfl ?cwbAll⟩
  case ldf =>
    intro s n _ active ⟨loaded, goes⟩
    obtain ⟨⟨t, res, stay⟩, split⟩ := Except.exists_of_isOk goes
    simp only [active, loaded, split, Bool.false_eq_true, if_false, Goes, State.loadLanes_stalled, and_self]
  case scaled =>
    intro s n _ active ⟨loaded, present, released, f, reading, read⟩
    refine ⟨?_, rfl⟩
    simp only [active, loaded, reading, present, read, Bool.false_eq_true, if_false, List.isEmpty_nil, Bool.not_true, bne_self_eq_false]
    rw [eq_of_fst_true released]
  case unscaled =>
    intro s n _ active ⟨loaded, unread, bare, t, res, stay, split, released⟩
    have none_ : res.filter (fun r => !(scaleSegs r.2).isEmpty) = [] :=
      List.filter_eq_nil_iff.2 fun r listed => by simp [bare r (State.mem_of_splitAccess split r listed)]
    rw [split]
    refine ⟨?_, rfl⟩
    simp only [active, loaded, unread, split, none_, Bool.false_eq_true, if_false, List.isEmpty_nil, Bool.not_true, Goes]
    rw [eq_of_fst_true released]
  case pref =>
    intro s n _ active goes
    refine ⟨if_neg fun held => ?_, rfl⟩
    obtain ⟨some_, all⟩ := Bool.and_eq_true_iff.1 held
    rcases goes with none_ | ⟨notAll, direct⟩
    · exact (bne_iff_ne.1 some_) none_
    · rw [Bool.or_eq_true, decide_eq_true_eq] at all
      exact all.elim notAll (fun buffer => Bool.false_ne_true (direct.symm.trans buffer))
  case cwb =>
    intro s n _ active goes
    obtain ⟨⟨t, res, stay⟩, split⟩ := Except.exists_of_isOk goes
    rw [split]
    refine ⟨?_, rfl⟩
    simp only [active, split, if_false, Goes]
  case cwbAll =>
    intro s n active idle
    simp only [active, idle, Bool.false_eq_true, if_false]

/-! ## Regions -/

/-- SPWB and SPREL write their regions back once nothing holds them and every line of them can be written. -/
theorem hasState_of_regionOp {i : Instr} {x : Args} {unmap : Bool} (meaning : ∀ s, exec i s = s.regionOp i x unmap) (kept : isRetired i = false) :
    let res (s : State) (n : Iss) := (s.namedRegions n).flatMap (fun e => e.2.dirtyLines.map (fun l => (e.1, l, s.regionRes n.w e.2 l)))
    let flat (s : State) (n : Iss) := (res s n).map (fun e => (lowest n.act, e.2.2))
    let plan (s : State) (n : Iss) := s.planLanes { n with uni := true, lanes := n.act } .write false (flat s n)
    HasState i x
      (fun s n => s.acquiring n.w.g = false ∧ s.regionsInUse n.w.team (s.namedRegions n) = false ∧
        missPages { n with uni := true, lanes := n.act } (flat s n) = [] ∧
        s.accessShut { n with uni := true, lanes := n.act } (flat s n) = false ∧
        (plan s n).causes = [] ∧ (plan s n).stay = 0)
      (fun s n => (plan s n).st.writeRegions n (s.namedRegions n) (res s n) unmap) := by
  refine hasState_of_body meaning kept fun s n active ⟨acquired, unused, present, open_, clean, here⟩ => ?_
  dsimp only at present open_ clean here
  simp only [active, acquired, unused, present, open_, clean, here, if_false, Bool.or_self, Bool.false_eq_true, List.isEmpty_nil,
    Bool.not_true, bne_self_eq_false]

/-- Settles O10: SPMAP tests the region against R123; SPWB and SPREL go on. -/
theorem regionEffects : Obligations.RegionEffects := by
  unfold Obligations.RegionEffects
  intro x
  dsimp only
  refine ⟨hasState_of_body (fun s => show execSpmap x s = _ from rfl) rfl ?maps,
    hasEffect_of_body (fun s => show execSpmap x s = _ from rfl) rfl ?raises,
    hasState_of_regionOp (fun s => show execSpwb x s = _ from rfl) rfl,
    hasState_of_regionOp (fun s => show execSprel x s = _ from rfl) rfl⟩
  case maps =>
    intro s n active ⟨t, resident, kept, late, meets⟩
    simp only [active, resident, kept, late, meets, Bool.or_self, Bool.false_eq_true, if_false, if_true]
  case raises =>
    intro s n _ active ⟨t, resident, kept, late, fails⟩
    refine ⟨?_, rfl⟩
    simp only [active, resident, kept, late, fails, Bool.or_self, Bool.false_eq_true, if_false]

/-! ## Atomics and fences -/

theorem hasEffect_of_atomOp {i : Instr} {x : Args} {cas result : Bool} (meaning : ∀ s, exec i s = s.atomOp i x cas result)
    (kept : isRetired i = false) :
    let res (s : State) (n : Iss) := s.accesses n none (Ty.bits x.ty / 8) .atomic (fun j => some (n.atomOf s cas j))
    HasEffect i x (fun s n => Clear n (s.splitAccess n .atomic (res s n))) (fun s n =>
      Goes (s.splitAccess n .atomic (res s n)) (fun t rs stay =>
        State.atomLanes n (((t.waitRelease (n.without stay)).2.planLanes n .atomic true rs).staying stay) x cas result)) := by
  refine hasEffect_of_body meaning kept fun s n _ active ⟨t, rs, stay, split, released⟩ => ?_
  unfold State.accesses at split ⊢
  rw [split]
  refine ⟨?_, State.atomLanes_stalled ..⟩
  simp only [active, split, if_false, Goes]
  rw [eq_of_fst_true released]

/-- A fence completes: one of no order at once, one that acquires once the agent awaits nothing, one that releases once its gate is passed. -/
theorem hasState_of_fenceOp {i : Instr} {x : Args} (meaning : ∀ s, exec i s = s.fenceOp i x) (kept : isRetired i = false) :
    let order := Machine.orderOf x.mod
    HasState i x (fun _ _ => order = 0) (fun s _ => s) ∧
    HasState i x (fun s n => order = 1 ∧ s.awaiting n.w.g = false ∧ s.rawBusy n.w.g = false)
      (fun s n => (s.endHold n.w.g).acquireEnd n.w.g (scopeOf x.mod)) ∧
    HasState i x (fun s n => order = 2 ∧ s.rawBusy n.w.g = false ∧ (s.gate n (scopeOf x.mod)).1 = true)
      (fun s n => (s.gate n (scopeOf x.mod)).2) ∧
    HasState i x (fun s n => order = 3 ∧ s.awaiting n.w.g = false ∧ s.rawBusy n.w.g = false ∧ (s.gate n (scopeOf x.mod)).1 = true)
      (fun s n => (s.gate n (scopeOf x.mod)).2.acquireEnd n.w.g (scopeOf x.mod)) := by
  refine ⟨hasState_of_body meaning kept ?relaxed, hasState_of_body meaning kept ?acquires, hasState_of_body meaning kept ?releases,
    hasState_of_body meaning kept ?both⟩
  case relaxed =>
    intro s n active order
    simp [order]
  case acquires =>
    intro s n active ⟨order, idle, quiet⟩
    simp [show ¬ n.act = 0#128 from active, order, idle, quiet]
  case releases =>
    intro s n active ⟨order, quiet, passed⟩
    obtain ⟨u, gate, same⟩ := State.gate_of_passed passed
    simp [show ¬ n.act = 0#128 from active, order, quiet, gate]
  case both =>
    intro s n active ⟨order, idle, quiet, passed⟩
    obtain ⟨u, gate, same⟩ := State.gate_of_passed passed
    simp [show ¬ n.act = 0#128 from active, order, idle, quiet, gate]

/-- Settles O11: the two shapes of body, for each of their instructions. -/
theorem atomicEffects : Obligations.AtomicEffects := by
  unfold Obligations.AtomicEffects
  intro x
  exact ⟨hasEffect_of_atomOp (fun s => show execAtom x s = _ from rfl) rfl, hasEffect_of_atomOp (fun s => show execAtomn x s = _ from rfl) rfl,
    hasEffect_of_atomOp (fun s => show execAcas x s = _ from rfl) rfl, hasEffect_of_atomOp (fun s => show execUatom x s = _ from rfl) rfl,
    hasState_of_fenceOp (fun s => show execFence x s = _ from rfl) rfl, hasState_of_fenceOp (fun s => show execUfence x s = _ from rfl) rfl⟩

end Sys2Proof.Machine
end

section
/-!
PROOFS. Barrier instructions (R366 to R368).
-/

namespace Sys2Proof.Machine

/-- An arrival takes effect where no wait holds it. -/
theorem hasEffect_of_arriveOp {i : Instr} {x : Args} {count : Nat} {bytes : Iss → State → Nat → W32}
    (meaning : ∀ s, exec i s = s.arriveOp i x count bytes) (kept : isRetired i = false) :
    let arrive (s : State) (n : Iss) : Eff :=
      s.atObjects n (n.arrivals (modBit x.mod 2)) true (fun rs => some (s.objScope rs)) (fun s j o => s.arrive n.w o count (bytes n s j))
    HasEffect i x (fun s n => (arrive s n).stalled = false) arrive :=
  hasEffect_of_body meaning kept fun _ _ _ active goes => ⟨if_neg active, goes⟩

/-- Settles O12: arrivals act where nothing holds them, and the lanes of BARW and BARQ part by their epochs. -/
theorem barrierEffects : Obligations.BarrierEffects := by
  unfold Obligations.BarrierEffects
  intro x
  dsimp only
  refine ⟨hasEffect_of_arriveOp (fun s => show execBara x s = _ from rfl) rfl,
    hasEffect_of_arriveOp (fun s => show execBarax x s = _ from rfl) rfl,
    hasEffect_of_body (fun s => show execBarw x s = _ from rfl) rfl ?barw,
    hasEffect_of_body (fun s => show execBarq x s = _ from rfl) rfl ?barq,
    hasEffect_of_body (fun s => show execBari x s = _ from rfl) rfl ?bari⟩
  case barw =>
    intro s n _ active ⟨t, rs, stay, split, unheld⟩
    rw [split]
    refine ⟨?_, rfl⟩
    simp only [active, split, unheld, if_false, Goes, List.filter_filter, Bool.not_and, Bool.and_or_distrib_left, Bool.and_not_self,
      Bool.or_false, Bool.and_comm]
  case barq =>
    intro s n _ active ⟨t, rs, stay, split, unheld⟩
    rw [split]
    refine ⟨?_, rfl⟩
    have tested (u : State) (l : List (Nat × LaneRes)) :
        l.filterMap (fun r => (objOf r.2).map (fun o => (r.1, o, epochPassed (u.objGet o).epoch (n.src32 t r.1 x.b % 4096)))) =
          (l.filterMap (fun r => (objOf r.2).map (fun o => (r.1, o, n.src32 t r.1 x.b % 4096)))).map
            (fun e => (e.1, e.2.1, epochPassed (u.objGet e.2.1).epoch e.2.2)) := by
      simp only [List.map_filterMap, Option.map_map, Function.comp_def]
    simp only [active, split, unheld, if_false, Goes, tested, List.filter_map, List.foldl_map,
      List.flatMap_map, List.map_map, Function.comp_def, ← List.foldl_filter, List.filter_filter]
    rfl
  case bari =>
    intro s n _ active ⟨legal, goes⟩
    have none_ : (lanesOf n.act).filter (fun j => decide (n.src32 s j x.b = 0 ∨ 65535 < n.src32 s j x.b)) = [] := by
      refine List.filter_eq_nil_iff.2 fun j listed => ?_
      have := legal j listed
      simp only [decide_eq_true_eq]
      omega
    refine ⟨?_, goes _⟩
    simp only [active, none_, if_false, List.contains_nil, Bool.not_false, List.filter_true, List.map_nil, List.nil_append]

end Sys2Proof.Machine
end

section
/-!
PROOFS. WAITC, rejoin masks, YIELD and NAP (R370 to R375).
-/

namespace Sys2Proof.Machine

/-! ## An instruction that completes -/

theorem State.pcOf_leaveEntry (s : State) (n : Iss) (stay : Mask) (g : Agent) (j : Nat) : (s.leaveEntry n stay).pcOf g j = s.pcOf g j := by
  unfold State.leaveEntry
  split
  case h_1 =>
    split
    case isTrue => rfl
    case isFalse => exact s.pcOf_updWarp _ _ (by intro _; rfl) g j
  case h_2 => rfl

theorem State.ctx_leaveEntry (s : State) (n : Iss) (stay : Mask) (g : Agent) : (s.leaveEntry n stay).ctx g = s.ctx g := by
  unfold State.leaveEntry
  split
  case h_1 =>
    split
    case isTrue => rfl
    case isFalse => exact s.ctx_updWarp _ _ (by intro _; rfl) g
  case h_2 => rfl

theorem State.cur_leaveEntry (s : State) (n : Iss) (stay : Mask) : (s.leaveEntry n stay).cur = s.cur := by
  unfold State.leaveEntry
  split
  case h_1 => split <;> rfl
  case h_2 => rfl

theorem State.ctx_fresh (s : State) (k : Nat) (g : Agent) : ({ s with fresh := k } : State).ctx g = s.ctx g := by cases g <;> rfl

theorem State.pcOf_fresh (s : State) (k : Nat) (g : Agent) (j : Nat) : ({ s with fresh := k } : State).pcOf g j = s.pcOf g j := by
  cases g <;> rfl

/-- The program counter of a lane, or of the control thread, moves with an issue. -/
def Iss.goesOn (n : Iss) (stay : Mask) (j : Nat) : Bool :=
  match n.w.g with | .warp _ => (n.lanes &&& ~~~stay).getLsbD j | .ct _ => n.lanes &&& ~~~stay != 0

/-- Lanes that do not stay at the instruction, and do not branch, move past it. -/
theorem State.pcOf_tail_of_goes {n : Iss} {e : Eff} {j : Nat} (direct : e.st.cur.buffer = false) (straight : e.go = [])
    (alive : e.st.ctx n.w.g ≠ none) (goes : n.goesOn e.stay j = true) :
    (State.tail n e).pcOf n.w.g j = n.next := by
  unfold State.tail
  simp only [State.cur_leaveEntry, direct, straight, Bool.false_eq_true, if_false, State.pcOf_updCtx]
  obtain ⟨-, -, moves⟩ := (({ e.st with fresh := e.st.fresh + 1 } : State).leaveEntry n e.stay).advance_spec n (n.lanes &&& ~~~e.stay) []
  rw [moves (by rw [State.ctx_leaveEntry, State.ctx_fresh]; exact alive)]
  cases agent : n.w.g with
  | warp k => exact if_pos (by simpa only [Iss.goesOn, agent] using goes)
  | ct t => exact if_neg (by simpa only [Iss.goesOn, agent, bne_iff_ne] using goes)

/-- Lanes of a warp that stay at the instruction stand where its effect left them. -/
theorem State.pcOf_tail_of_stays {n : Iss} {e : Eff} {j k : Nat} (agent : n.w.g = .warp k) (alive : e.st.ctx n.w.g ≠ none)
    (stays : e.stay.getLsbD j = true) : (State.tail n e).pcOf n.w.g j = e.st.pcOf n.w.g j := by
  unfold State.tail
  simp only [State.pcOf_updCtx]
  obtain ⟨-, -, moves⟩ := (({ e.st with fresh := e.st.fresh + 1 } : State).leaveEntry n e.stay).advance_spec n (n.lanes &&& ~~~e.stay) e.go
  have left : (n.lanes &&& ~~~e.stay).getLsbD j = false := by simp [stays]
  have still : (({ e.st with fresh := e.st.fresh + 1 } : State).leaveEntry n e.stay).pcOf n.w.g j = e.st.pcOf n.w.g j := by
    rw [State.pcOf_leaveEntry, State.pcOf_fresh]
  split
  case isTrue => exact still
  case isFalse =>
    rw [moves (by rw [State.ctx_leaveEntry, State.ctx_fresh]; exact alive), agent]
    simp only [left, Bool.false_eq_true, if_false]
    rw [← agent]
    exact still

theorem State.Runs.next {s : State} {i : Instr} {x : Args} {w : Who} (h : s.Runs i x w) {body : Iss → State → Eff}
    (meaning : exec i s = s.issue i x body) : ∃ t, exec i s = .next t :=
  ⟨_, meaning.trans (h.issue body)⟩

/-- An instruction that executes normally and raises no cause ends its issue with the state that its effect comes to. -/
theorem State.Runs.tail {s : State} {i : Instr} {x : Args} {w : Who} (h : s.Runs i x w) (kept : isRetired i = false)
    {body : Iss → State → Eff} (meaning : exec i s = s.issue i x body) {e : Eff} (comes : body (s.issOf i x w) (s.opened w.g) = e)
    (goes : e.stalled = false) (clean : e.causes = []) : exec i s = .next (State.tail (s.issOf i x w) e) := by
  rw [meaning, h.issue, comes, State.conclude_clean _ _ kept goes clean]

/-- An instruction whose effect leaves the issue where it stands, and its agent resident, completes: its executing lanes move past it. -/
theorem State.Runs.completes {s : State} {i : Instr} {x : Args} {w : Who} (h : s.Runs i x w) (kept : isRetired i = false)
    {body : Iss → State → Eff} (meaning : exec i s = s.issue i x body) (direct : s.cur.buffer = false) {u : State} (comes : body (s.issOf i x w) (s.opened w.g) = { st := u })
    (cur : u.cur = s.cur) (alive : u.ctx w.g ≠ none) :
    ∃ t, exec i s = .next t ∧ ∀ j, s.executing w.g j = true → t.pcOf w.g j = s.nextPc := by
  refine ⟨_, meaning.trans (h.issue body), fun j executes => ?_⟩
  rw [comes, State.conclude_clean _ _ kept rfl rfl]
  have all : s.cur.lanes &&& ~~~(0 : Mask) = s.cur.lanes := mask_keep _
  refine State.pcOf_tail_of_goes (n := s.issOf i x w) (by rw [cur]; exact direct) rfl alive ?_
  have own : (s.issOf i x w).w.g = w.g := rfl
  have lanes : (s.issOf i x w).lanes = s.cur.lanes := rfl
  unfold Iss.goesOn
  unfold State.executing at executes
  rw [own, lanes, all]
  cases agent : w.g <;> simpa only [agent] using executes

theorem State.Runs.alive {s : State} {i : Instr} {x : Args} {w : Who} (h : s.Runs i x w) : (s.opened w.g).ctx w.g ≠ none := by
  obtain ⟨c, context, -⟩ := State.ctx_of_who h.who
  simp only [State.opened_ctx, context, ne_eq, reduceCtorEq, not_false_eq_true]

theorem State.updCtx_alive {s : State} {g : Agent} {f : Ctx → Ctx} (alive : s.ctx g ≠ none) : (s.updCtx g f).ctx g ≠ none := by
  rw [State.ctx_updCtx, ne_eq, Option.map_eq_none_iff]
  exact alive

theorem State.addLanding_alive {s : State} {g : Agent} {due : Nat} {lanes : Mask} {ws : List RegWrite} {spec : Option Nat}
    (alive : s.ctx g ≠ none) : (s.addLanding g due lanes ws spec).ctx g ≠ none := by
  obtain ⟨-, -, -, id, context⟩ := s.addLanding_spec g due lanes ws spec
  rw [context, ne_eq, Option.map_eq_none_iff]
  exact alive

/-! ## Rejoins -/

/-- A lane of a join leaves it: its predicate is set, and it goes on past its JOIN. -/
def Warp.leaveJoin (timedOut : Bool) (x : Warp) (j : Nat) : Warp :=
  match Tab.find x.blocks j with
  | some { why := .join _ pd, next := n, .. } =>
    let x := x.put { lane := j, dest := .p pd, val := if timedOut then 1 else 0 }
    { x with lpc := Tab.set x.lpc j n, blocks := Tab.erase x.blocks j }
  | _ => x

theorem Warp.joinRelease_eq (x : Warp) (k : Nat) (timedOut : Bool) :
    x.joinRelease k timedOut =
      let y := (lanesOf (Tab.get 0 x.arrived k)).foldl (Warp.leaveJoin timedOut) x
      { y with arrived := Tab.erase y.arrived k, rounds := Tab.erase y.rounds k } := rfl

/-- A lane blocks at a JOIN, to go on at an address. -/
def Warp.Joins (x : Warp) (next : W64) (j : Nat) : Prop :=
  ∃ k pd since time, Tab.find x.blocks j = some { why := .join k pd, since := since, time := time, next := next }

/-- A lane is not blocked and stands at an address. -/
def Warp.Stands (x : Warp) (next : W64) (j : Nat) : Prop := Tab.find x.blocks j = none ∧ Tab.get 0 x.lpc j = next

theorem Warp.put_pred_frame (x : Warp) (j pd : Nat) (v : BitVec 128) :
    ∃ p, x.put { lane := j, dest := .p pd, val := v } = { x with p := p } := by
  unfold Warp.put
  dsimp only
  split
  case isTrue => exact ⟨x.p, rfl⟩
  case isFalse => exact ⟨_, rfl⟩

/-- A lane that leaves a join changes its own block and LPC, and predicates. -/
theorem Warp.leaveJoin_cases (b : Bool) (x : Warp) (j : Nat) :
    (x.leaveJoin b j = x ∧ ∀ next, ¬ x.Joins next j) ∨
    ∃ next p, x.Joins next j ∧ x.leaveJoin b j = { x with p := p, lpc := Tab.set x.lpc j next, blocks := Tab.erase x.blocks j } := by
  unfold Warp.leaveJoin Warp.Joins
  split
  case h_1 k pd since time next found =>
    obtain ⟨p, same⟩ := x.put_pred_frame j pd (if b then 1 else 0)
    exact .inr ⟨next, p, ⟨k, pd, since, time, found⟩, by rw [same]⟩
  case h_2 other =>
    exact .inl ⟨rfl, fun next ⟨k, pd, since, time, found⟩ => other _ _ _ _ _ found⟩

theorem Warp.Joins.leaves {x : Warp} {next : W64} {j : Nat} (joins : x.Joins next j) (b : Bool) : (x.leaveJoin b j).Stands next j := by
  rcases x.leaveJoin_cases b j with ⟨-, none_⟩ | ⟨n, p, ⟨k, pd, since, time, found⟩, same⟩
  · exact absurd joins (none_ next)
  · obtain ⟨k', pd', since', time', found'⟩ := joins
    cases found.symm.trans found'
    rw [same]
    exact ⟨by simp, by simp⟩

theorem Warp.Stands.leaveJoin {x : Warp} {next : W64} {j : Nat} (stands : x.Stands next j) (b : Bool) (i : Nat) :
    (x.leaveJoin b i).Stands next j := by
  rcases x.leaveJoin_cases b i with ⟨same, -⟩ | ⟨n, p, ⟨k, pd, since, time, found⟩, same⟩
  · rw [same]
    exact stands
  · obtain ⟨free, at_⟩ := stands
    have other : j ≠ i := fun eq => by rw [eq, found] at free; cases free
    rw [same]
    exact ⟨by simp [other, free], by simpa [other] using at_⟩

theorem Warp.Joins.leaveJoin {x : Warp} {next : W64} {j : Nat} (joins : x.Joins next j) (b : Bool) {i : Nat} (other : j ≠ i) :
    (x.leaveJoin b i).Joins next j := by
  rcases x.leaveJoin_cases b i with ⟨same, -⟩ | ⟨n, p, -, same⟩
  · rw [same]
    exact joins
  · obtain ⟨k, pd, since, time, found⟩ := joins
    rw [same]
    exact ⟨k, pd, since, time, by simp [other, found]⟩

/-- The lanes of a list have left their joins, and others have not lost theirs. -/
theorem Warp.foldl_leaveJoin {x : Warp} {next : W64} {j : Nat} (b : Bool) (lanes : List Nat) (held : x.Joins next j ∨ x.Stands next j) :
    (j ∈ lanes ∨ x.Stands next j → (lanes.foldl (Warp.leaveJoin b) x).Stands next j) ∧
    ((lanes.foldl (Warp.leaveJoin b) x).Joins next j ∨ (lanes.foldl (Warp.leaveJoin b) x).Stands next j) := by
  induction lanes generalizing x with
  | nil => exact ⟨fun h => h.elim (fun h => absurd h List.not_mem_nil) id, held⟩
  | cons i r ih =>
    rw [List.foldl_cons]
    rcases held with joins | stands
    · by_cases same : j = i
      · subst same
        have stands := joins.leaves b
        have := ih (.inr stands)
        exact ⟨fun _ => this.1 (.inr stands), this.2⟩
      · have := ih (.inl (joins.leaveJoin b same))
        refine ⟨fun h => ?_, this.2⟩
        rcases h with listed | ⟨free, -⟩
        · exact this.1 (.inl ((List.mem_cons.1 listed).resolve_left same))
        · obtain ⟨k, pd, since, time, found⟩ := joins
          cases free.symm.trans found
    · have stands := stands.leaveJoin b i
      have := ih (.inr stands)
      exact ⟨fun _ => this.1 (.inr stands), this.2⟩

/-- What decides a join: the mask and the lanes that have arrived. -/
def Warp.sameJoins (x y : Warp) (k : Nat) : Prop :=
  y.live = x.live ∧ y.ctx = x.ctx ∧ y.j = x.j ∧ Tab.get 0 y.arrived k = Tab.get 0 x.arrived k

theorem Warp.foldl_leaveJoin_sameJoins (x : Warp) (b : Bool) (lanes : List Nat) :
    let y := lanes.foldl (Warp.leaveJoin b) x
    y.live = x.live ∧ y.ctx = x.ctx ∧ y.j = x.j ∧ y.arrived = x.arrived := by
  induction lanes generalizing x with
  | nil => exact ⟨rfl, rfl, rfl, rfl⟩
  | cons i r ih =>
    obtain ⟨live, ctx, masks, arrived⟩ := ih (x.leaveJoin b i)
    rw [List.foldl_cons]
    rcases x.leaveJoin_cases b i with ⟨same, -⟩ | ⟨n, p, -, same⟩ <;> rw [same] at live ctx masks arrived ⊢ <;>
      exact ⟨live, ctx, masks, arrived⟩

theorem Tab.get_erase_other {α : Type} (d : α) (t : Tab α) {k n : Nat} (other : n ≠ k) : Tab.get d (Tab.erase t k) n = Tab.get d t n := by
  simp [Tab.get, other]

theorem Warp.joinRelease_sameJoins (x : Warp) (b : Bool) {k i : Nat} (other : k ≠ i) : x.sameJoins (x.joinRelease i b) k := by
  obtain ⟨live, ctx, masks, arrived⟩ := x.foldl_leaveJoin_sameJoins b (lanesOf (Tab.get 0 x.arrived i))
  rw [Warp.joinRelease_eq]
  exact ⟨live, ctx, masks, (Tab.get_erase_other _ _ other).trans (by rw [arrived])⟩

theorem Warp.Stands.joinRelease {x : Warp} {next : W64} {j : Nat} (stands : x.Stands next j) (b : Bool) (i : Nat) :
    (x.joinRelease i b).Stands next j :=
  (Warp.foldl_leaveJoin b (lanesOf (Tab.get 0 x.arrived i)) (.inr stands)).1 (.inr stands)

/-- The check of one rejoin mask (R88). -/
def Warp.joinStep (now : Nat) (x : Warp) (k : Nat) : Warp :=
  let a := Tab.get 0 x.arrived k
  if a != 0 && (x.maskJ now k &&& x.live &&& ~~~a) = 0 then x.joinRelease k false else x

theorem Warp.joinCheck_eq (x : Warp) (now : Nat) : x.joinCheck now = (List.range 16).foldl (Warp.joinStep now) x := rfl

theorem Warp.Stands.foldl_joinStep {x : Warp} {next : W64} {j : Nat} (stands : x.Stands next j) (now : Nat) (ks : List Nat) :
    (ks.foldl (Warp.joinStep now) x).Stands next j := by
  induction ks generalizing x with
  | nil => exact stands
  | cons i r ih =>
    rw [List.foldl_cons]
    refine ih ?_
    unfold Warp.joinStep
    dsimp only
    split
    · exact stands.joinRelease false i
    · exact stands

/-- A join whose mask has arrived releases its lanes: each of them that blocks at a JOIN goes on past it. -/
theorem Warp.foldl_joinStep_stands {x : Warp} {next : W64} {j now k : Nat} {ks : List Nat} (listed : k ∈ ks)
    (arrived : (Tab.get 0 x.arrived k).getLsbD j = true) (complete : x.maskJ now k &&& x.live &&& ~~~(Tab.get 0 x.arrived k) = 0)
    (held : x.Joins next j ∨ x.Stands next j) :
    (ks.foldl (Warp.joinStep now) x).Stands next j := by
  induction ks generalizing x with
  | nil => cases listed
  | cons i r ih =>
    rw [List.foldl_cons]
    by_cases same : k = i
    · subst same
      have some_ : (Tab.get 0 x.arrived k != 0) = true := bne_iff_ne.2 fun none_ => by
        rw [none_] at arrived
        simp at arrived
      refine Warp.Stands.foldl_joinStep ?_ now r
      simp only [Warp.joinStep, some_, complete, decide_true, Bool.and_self, if_true]
      exact (Warp.foldl_leaveJoin false _ held).1 (.inl ((mem_lanesOf _ j).2 arrived))
    · have later : k ∈ r := (List.mem_cons.1 listed).resolve_left same
      unfold Warp.joinStep
      dsimp only
      split
      · obtain ⟨live, ctx, masks, now_⟩ := x.joinRelease_sameJoins false same
        refine ih later (now_ ▸ arrived) ?_ (Warp.foldl_leaveJoin false (lanesOf (Tab.get 0 x.arrived i)) held).2
        have kept : (x.joinRelease i false).maskJ now k = x.maskJ now k := by simp only [Warp.maskJ, ctx, masks]
        rw [now_, live, kept]
        exact complete
      · exact ih later arrived complete held

theorem Warp.joinCheck_stands {x : Warp} {next : W64} {j now k : Nat} (real : k < 16) (arrived : (Tab.get 0 x.arrived k).getLsbD j = true)
    (complete : x.maskJ now k &&& x.live &&& ~~~(Tab.get 0 x.arrived k) = 0) (joins : x.Joins next j) :
    Tab.get 0 (x.joinCheck now).lpc j = next :=
  (Warp.foldl_joinStep_stands (List.mem_range.2 real) arrived complete (.inl joins)).2

theorem State.pcOf_joinCheck {s : State} {v : Nat} {x : Warp} (listed : s.warp v = some x) (j : Nat) :
    (s.joinCheck v).pcOf (.warp v) j = Tab.get 0 (x.joinCheck (s.cycle (v / 128))).lpc j := by
  simp [State.joinCheck, State.pcOf, listed]

theorem State.ctx_joinCheck_warp {s : State} {v : Nat} {x : Warp} (listed : s.warp v = some x) :
    (s.joinCheck v).ctx (.warp v) ≠ none := by
  simp [State.joinCheck, State.ctx, listed]

theorem Tab.find_foldl_set {α : Type} (ls : List Nat) (f : Nat → α) (t : Tab α) (j : Nat) :
    Tab.find (ls.foldl (fun t i => Tab.set t i (f i)) t) j = if j ∈ ls then some (f j) else Tab.find t j := by
  induction ls generalizing t with
  | nil => rfl
  | cons i r ih =>
    rw [List.foldl_cons, ih]
    by_cases later : j ∈ r <;> by_cases same : j = i <;> simp [later, same]

theorem jnum_lt (o : Opnd) : jnum o < 16 := by
  unfold jnum
  split
  case h_1 c => exact Nat.mod_lt _ (by decide)
  case h_2 => decide

/-- The active lanes of an issue arrive at a JOIN of a warp. -/
def State.arriveJoin (s : State) (n : Iss) (v : Nat) : State :=
  (s.block n ((lanesOf n.act).map (fun j => (j, .join (jnum n.x.b) (predNum n.x.d))))).updWarp v (fun y => { y with
    rounds := if Tab.get 0 y.arrived (jnum n.x.b) = 0 then Tab.set y.rounds (jnum n.x.b) (n.now, n.src32 s (lowest n.act) n.x.a) else y.rounds
    arrived := Tab.set y.arrived (jnum n.x.b) (Tab.get 0 y.arrived (jnum n.x.b) ||| n.act) })

theorem State.arriveJoin_cycle (s : State) (n : Iss) (v c : Nat) : (s.arriveJoin n v).cycle c = s.cycle c := by
  unfold State.arriveJoin State.block
  split <;> rfl

/-- The warp in which lanes have arrived: each of them blocks, and the mask has them besides those that arrived before. -/
theorem State.arriveJoin_warp {s : State} {n : Iss} {v : Nat} {y : Warp} (agent : n.w.g = .warp v) (listed : s.warp v = some y) :
    ∃ z, (s.arriveJoin n v).warp v = some z ∧ z.live = y.live ∧ z.ctx = y.ctx ∧ z.j = y.j ∧
      Tab.get 0 z.arrived (jnum n.x.b) = Tab.get 0 y.arrived (jnum n.x.b) ||| n.act ∧
      ∀ j, n.act.getLsbD j = true → z.Joins n.next j := by
  unfold State.arriveJoin State.block
  simp only [agent, State.warp_updWarp, listed, if_true, Option.map_some, List.foldl_map]
  refine ⟨_, rfl, rfl, rfl, rfl, by simp, fun j here => ⟨jnum n.x.b, predNum n.x.d, n.now, s.time, ?_⟩⟩
  rw [Tab.find_foldl_set, if_pos ((mem_lanesOf _ _).2 here)]

/-- The lanes of a JOIN whose mask has arrived with them go on past it (R88, R373). -/
theorem State.Runs.join_completes {s : State} {x : Args} {w : Who} {v : Nat} {y : Warp} (runs : s.Runs (.join x) x w) (agent : w.g = .warp v)
    (listed : s.warp v = some y) (complete : y.maskJ (s.cycle (v / 128)) (jnum x.b) &&& y.live &&&
      ~~~(Tab.get 0 y.arrived (jnum x.b) ||| s.actOf (.join x) x w.g) = 0) :
    ∃ t, exec (.join x) s = .next t ∧ ∀ j, (s.actOf (.join x) x w.g).getLsbD j = true → t.pcOf w.g j = s.nextPc := by
  by_cases active : s.actOf (.join x) x w.g = 0
  case pos =>
    obtain ⟨t, next⟩ := runs.next (show execJoin x s = _ from rfl)
    exact ⟨t, next, fun j here => by rw [active] at here; simp at here⟩
  case neg =>
    have own : (s.issOf (.join x) x w).w.g = .warp v := agent
    have alike := s.opened_warp w.g v (fun z => (z.live, z.ctx, z.j, z.arrived)) (by intro _ _ _; rfl)
    rw [listed, Option.map_some, Option.map_eq_some_iff] at alike
    obtain ⟨y₀, listed₀, same⟩ := alike
    obtain ⟨live₀, ctx₀, masks₀, arrived₀⟩ : y₀.live = y.live ∧ y₀.ctx = y.ctx ∧ y₀.j = y.j ∧ y₀.arrived = y.arrived := by simpa using same
    obtain ⟨z, arrives, live, ctx, masks, arrived, joins⟩ := State.arriveJoin_warp own listed₀
    replace arrived : Tab.get 0 z.arrived (jnum x.b) = Tab.get 0 y.arrived (jnum x.b) ||| s.actOf (.join x) x w.g :=
      arrived.trans (by rw [arrived₀]; rfl)
    have mask : z.maskJ (s.cycle (v / 128)) (jnum x.b) = y.maskJ (s.cycle (v / 128)) (jnum x.b) := by
      simp only [Warp.maskJ, ctx, ctx₀, masks, masks₀]
    refine ⟨_, runs.tail rfl (show execJoin x s = _ from rfl)
      (e := { st := ((s.opened w.g).arriveJoin (s.issOf (.join x) x w) v).joinCheck v, stay := (s.issOf (.join x) x w).act }) ?_ rfl rfl, fun j here => ?_⟩
    · simp only [own, show ¬ (s.issOf (.join x) x w).act = 0 from active, if_false]
      rfl
    · have alive : (((s.opened w.g).arriveJoin (s.issOf (.join x) x w) v).joinCheck v).ctx (s.issOf (.join x) x w).w.g ≠ none := by
        rw [own]
        exact State.ctx_joinCheck_warp arrives
      refine (State.pcOf_tail_of_stays (n := s.issOf (.join x) x w) (j := j)
        (e := { st := ((s.opened w.g).arriveJoin (s.issOf (.join x) x w) v).joinCheck v, stay := (s.issOf (.join x) x w).act })
        own alive here).trans ?_
      rw [own, State.pcOf_joinCheck arrives, State.arriveJoin_cycle, State.opened_cycle]
      refine Warp.joinCheck_stands (jnum_lt x.b) ?_ ?_ (joins j here)
      · rw [arrived, BitVec.getLsbD_or, here, Bool.or_true]
      · rw [mask, live, live₀, arrived]
        exact complete

/-! ## WAITC, JSET, JOIN, YIELD and NAP -/

/-- Settles O13: each instruction takes the branch of its body that the clause names; where its effect leaves the program counters to the end of
the issue its lanes move past it, and the last lanes to arrive at a JOIN are released by its check of the mask. -/
theorem waitEffects : Obligations.WaitEffects := by
  unfold Obligations.WaitEffects
  intro x
  dsimp only
  refine ⟨hasState_of_body (fun s => show execWaitc x s = _ from rfl) rfl ?passes,
    hasEffect_of_body (fun s => show execWaitc x s = _ from rfl) rfl ?blocks,
    hasState_of_body (fun s => show execJset x s = _ from rfl) rfl fun s n active _ => if_neg active,
    hasEffect_of_body (fun s => show execJoin x s = _ from rfl) rfl ?arrives,
    hasState_of_body (fun s => show execYield_ x s = _ from rfl) rfl ?yields,
    hasState_of_body (fun s => show execNap x s = _ from rfl) rfl ?noNap,
    hasEffect_of_body (fun s => show execNap x s = _ from rfl) rfl ?naps,
    fun s w runs active direct pre => ?waitcGoes, fun s w runs active direct _ => ?jsetGoes, fun s w runs active direct _ => ?yieldGoes,
    fun s w runs active direct none_ => ?napGoes, fun s w v y runs direct agent listed complete => ?joinGoes,
    fun s w runs => runs.next (show execJoin x s = _ from rfl), fun s w runs => runs.next (show execNap x s = _ from rfl),
    fun s w runs => runs.next (show execWaitc x s = _ from rfl)⟩
  case passes =>
    intro s n active met
    cases context : s.ctx n.w.g with
    | none => simp only [Option.elim_none]
    | some c =>
      obtain ⟨ok, clean⟩ := met c context
      have none_ : (if rawOf x.c % 64 = 63 then none else c.errMx) = none := by rcases clean with any | clean <;> simp [*]
      simp only [active, ok, none_, Bool.not_true, Bool.false_eq_true, if_false, Option.elim_some]
  case blocks =>
    intro s n _ active ⟨c, context, high⟩
    refine ⟨?_, rfl⟩
    simp only [active, context, high, Bool.not_false, if_false, if_true]
  case arrives =>
    intro s n _ active ofWarp
    refine ⟨?_, rfl⟩
    simp only [active, Iss.warp_of_ofWarp ofWarp, if_false]
  case yields =>
    intro s n active ofWarp
    simp only [Iss.warp_of_ofWarp ofWarp]
  case noNap =>
    intro s n active none_
    simp only [none_, Nat.zero_min, or_true, if_true]
  case naps =>
    intro s n _ active some_
    refine ⟨if_neg ?_, rfl⟩
    have := Nat.pos_of_ne_zero some_
    rintro (idle | none_)
    · exact active idle
    · omega
  case waitcGoes =>
    obtain ⟨c, context, ok, clean⟩ := pre
    have none_ : (if rawOf x.c % 64 = 63 then none else c.errMx) = none := by rcases clean with any | clean <;> simp [*]
    refine runs.completes rfl (show execWaitc x s = _ from rfl) direct (u := (s.opened w.g).raiseClk w.g c.cmdClock) ?_ ?_
      (State.updCtx_alive runs.alive)
    · simp only [show ¬ (s.issOf (.waitc x) x w).act = 0 from active, context, ok, none_, Bool.not_true, Bool.false_eq_true, if_false]
      rfl
    · simp [State.raiseClk]
  case jsetGoes =>
    refine runs.completes rfl (show execJset x s = _ from rfl) direct (if_neg active) ?_ (State.addLanding_alive runs.alive)
    exact ((s.opened w.g).addLanding_spec ..).2.1.trans (s.opened_cur w.g)
  case yieldGoes =>
    have own : (s.issOf (.yield_ x) x w).w.g = w.g := rfl
    cases agent : w.g with
    | ct t =>
      have := runs.completes rfl (show execYield_ x s = _ from rfl) direct (u := s.opened w.g) (by simp only [own, agent]) (s.opened_cur w.g) runs.alive
      rwa [agent] at this
    | warp v =>
      have := runs.completes rfl (show execYield_ x s = _ from rfl) direct
        (u := (s.opened w.g).updWarp v (fun y => { y with deferred := y.deferred ||| (s.issOf (.yield_ x) x w).act })) (by simp only [own, agent])
        (s.opened_cur w.g) (by rw [State.ctx_updWarp _ _ _ (by intro _; rfl)]; exact runs.alive)
      rwa [agent] at this
  case napGoes =>
    refine runs.completes rfl (show execNap x s = _ from rfl) direct (u := s.opened w.g) (if_pos (.inr ?_)) (s.opened_cur w.g) runs.alive
    rw [none_, Nat.zero_min]
  case joinGoes =>
    exact runs.join_completes agent listed complete

end Sys2Proof.Machine
end

section
/-!
PROOFS. Barrier objects: their layout and their phases (R363, R365, R367).
-/

namespace Sys2Proof.Machine

/-! ## Layout -/

/-- The bit of a flag in an object's words. -/
theorem flagBit_eq (b : Bool) (k : Nat) : (if b then 2 ^ k else 0) = b.toNat * 2 ^ k := by cases b <;> simp

/-- A number in eight fields, as an object's words hold them: each field is found at its place. -/
theorem fields_of_words {a b c d e f p w l : Nat} (ha : a < 2 ^ 16) (hb : b < 2 ^ 12) (hc : c < 2 ^ 3) (hd : d < 2) (he : e < 2 ^ 16)
    (hf : f < 2) (hp : p < 2 ^ 32) (hw : w < 2 ^ 32) :
    let v := a + b * 2 ^ 16 + c * 2 ^ 28 + d * 2 ^ 31 + e * 2 ^ 32 + f * 2 ^ 48 + p * 2 ^ 64 + w * 2 ^ 96 + l * 2 ^ 128
    v % 2 ^ 16 = a ∧ v / 2 ^ 16 % 2 ^ 12 = b ∧ v / 2 ^ 28 % 8 = c ∧ v / 2 ^ 31 % 2 = d ∧ v / 2 ^ 32 % 2 ^ 16 = e ∧ v / 2 ^ 48 % 2 = f ∧
    v / 2 ^ 64 % 2 ^ 32 = p ∧ v / 2 ^ 96 % 2 ^ 32 = w ∧ v / 2 ^ 128 = l := by
  dsimp only
  refine ⟨?_, ?_, ?_, ?_, ?_, ?_, ?_, ?_, ?_⟩ <;> omega

theorem Bool.decide_toNat_eq_one (b : Bool) : decide (b.toNat = 1) = b := by cases b <;> rfl

theorem Obj.ofBytes_toBytes {o : Obj} (expect : o.expect < 2 ^ 16) (epoch : o.epoch < 4096) (scope : o.scope < 8) (arrived : o.arrived < 2 ^ 16) :
    Obj.ofBytes o.toBytes = o := by
  obtain ⟨h1, h2, h3, h4, h5, h6, h7, h8, h9⟩ := fields_of_words (l := o.last.toNat) expect epoch scope o.lastErr.toNat_lt arrived o.err.toNat_lt
    o.pending.isLt o.watch.isLt
  unfold Obj.ofBytes Obj.toBytes
  simp only [flagBit_eq]
  rw [h1, h2, h3, h4, h5, h6, h9]
  simp only [Bool.decide_toNat_eq_one, BitVec.ofNat_toNat, BitVec.setWidth_eq]
  have pending : BitVec.ofNat 32 _ = o.pending := BitVec.eq_of_toNat_eq ((BitVec.toNat_ofNat ..).trans h7)
  have watch : BitVec.ofNat 32 _ = o.watch := BitVec.eq_of_toNat_eq ((BitVec.toNat_ofNat ..).trans h8)
  rw [pending, watch]

/-! ## Phases -/

theorem Obj.arrive_of_overrun {o : Obj} {n : Nat} (excess : o.expect < o.arrived + n) (x : W32) (last : BitVec 128) :
    o.arrive n x last = none := if_pos excess

/-- An arrival within what is expected leaves the object as its check makes it. -/
theorem Obj.arrive_of_le {o : Obj} {n : Nat} (within : o.arrived + n ≤ o.expect) (x : W32) (last : BitVec 128) :
    o.arrive n x last =
      some (Obj.check { o with arrived := o.arrived + n, pending := o.pending + x, last := if n = 0 then o.last else last }) :=
  if_neg (Nat.not_lt.2 within)

theorem Obj.check_fst (o : Obj) : o.check.1 = decide (o.arrived = o.expect ∧ o.pending = 0) := by
  unfold Obj.check
  split
  case isTrue ends => exact (decide_eq_true ends).symm
  case isFalse runs => exact (decide_eq_false runs).symm

theorem Obj.check_last (o : Obj) : o.check.2.last = o.last := by
  unfold Obj.check
  split <;> rfl

/-- The epoch that is d phases past e. -/
theorem epochPassed_add {e d : Nat} (he : e < 4096) (hd : d < 4096) : epochPassed ((e + d) % 4096) e = true ↔ 1 ≤ d ∧ d ≤ 2047 := by
  have past : ((e + d) % 4096 + 4096 - e % 4096) % 4096 = d := by omega
  simp only [epochPassed, past, decide_eq_true_eq]

/-- Settles O54: the fields of the words, and the check of an object in its two cases. -/
theorem barrierPhases : Obligations.BarrierPhases := by
  unfold Obligations.BarrierPhases
  refine ⟨fun o expect epoch scope arrived => Obj.ofBytes_toBytes expect epoch scope arrived,
    fun o n x last => ⟨fun excess => Obj.arrive_of_overrun excess x last, fun all none_ => ?flips, fun within left => ?stays⟩,
    fun o k last => ⟨Obj.check_last _, (Obj.check_fst _).trans ?given⟩, fun e d he hd => epochPassed_add he hd⟩
  case flips =>
    refine ⟨_, (Obj.arrive_of_le all.le x last).trans (congrArg some (if_pos ⟨all, none_⟩)), ?_⟩
    exact ⟨rfl, rfl, rfl, rfl, rfl, rfl⟩
  case stays =>
    have open_ : ¬ (o.arrived + n = o.expect ∧ o.pending + x = 0) := by tauto
    refine ⟨_, (Obj.arrive_of_le within x last).trans (congrArg some (if_neg open_)), ?_⟩
    exact ⟨rfl, rfl, rfl, rfl, rfl, rfl, rfl⟩
  case given => simp only [sub_eq_zero]

end Sys2Proof.Machine
end

section
/-!
PROOFS. Copies and STAGE (R386, R387).
-/

namespace Sys2Proof.Machine

/-! ## An access to the scratchpad whose lines are filled -/

theorem State.acquiring_of_engineHeld {s : State} {g : Agent} (free : s.engineHeld g = false) : s.acquiring g = false := by
  unfold State.engineHeld at free
  simp only [Bool.or_eq_false_iff] at free
  exact free.1.1

theorem State.causesWait_of_clean {s : State} {n : Iss} {res : List (Nat × LaneRes)} (clean : s.causeLanes n res = 0) :
    s.causesWait n res = (0, s) := by
  unfold State.causesWait
  split
  case h_1 => rfl
  case h_2 =>
    split
    case h_1 => exact if_pos clean
    case h_2 => rfl

/-- Nothing but an acquire holds the access of one lane to filled scratchpad lines. -/
theorem State.splitAccess_filled {s : State} {n : Iss} {a : Access} {j t off : Nat} (acquired : s.acquiring n.w.g = false) :
    s.splitAccess n a [(j, .sp t off [])] = .ok (s, [(j, .sp t off [])], 0) := by
  have present : missPages n [(j, LaneRes.sp t off [])] = [] := rfl
  have clean : s.causesWait n [(j, .sp t off [])] = (0, s) := State.causesWait_of_clean rfl
  have stays : (s.holdWalks n.w [] a) = s := rfl
  have here : [(j, LaneRes.sp t off [])].filter (fun r => !r.2.misses && !(0 : Mask).getLsbD r.1) = [(j, .sp t off [])] := by
    simp [LaneRes.misses]
  have open_ : s.accessShut n [(j, .sp t off [])] = false := rfl
  simp only [State.splitAccess, acquired, present, stays, clean, here, open_, Bool.false_eq_true, if_false, List.isEmpty_cons, List.isEmpty_nil,
    Bool.false_and, Bool.not_true, Bool.and_false, Bool.or_self, List.foldl_nil]

theorem State.planLanes_filled_ok (s : State) (n : Iss) (a : Access) (now : Bool) (j t off : Nat) :
    (s.planLanes n a now [(j, .sp t off [])]).ok = [(j, .sp t off [])] := rfl

/-! ## CPY and UCPY -/

theorem hasState_of_copyOp {i : Instr} {x : Args} {counts : Bool} (meaning : ∀ s, exec i s = s.copyOp i x counts) (kept : isRetired i = false)
    (u : State) :
    let off (s : State) (n : Iss) : Nat := n.src32 s (lowest n.act) x.a
    HasState i x
      (fun s n => (off s n % 64 = 0 ∧ off s n + 64 ≤ s.scratchSize n.w.team ∧ s.engineHeld n.w.g = false ∧
        s.scratchRes n.w n.w.team (off s n) 64 .read = .sp n.w.team (off s n) [] ∧ s.scratchBad n.w.team (off s n) 64 = false) ∧
        s.copyStart n counts (off s n) = .ok u)
      (fun _ n => if counts then u.updCtx n.w.g (fun c => { c with cp := c.cp + 1 }) else u) := by
  refine hasState_of_body meaning kept fun s n active ⟨⟨aligned, within, free, filled, sound⟩, starts⟩ => ?_
  dsimp only at aligned within filled sound starts
  have legal : ¬ (n.src32 s (lowest n.act) x.a % 64 ≠ 0 ∨ s.scratchSize n.w.team < n.src32 s (lowest n.act) x.a + 64) := by omega
  have split (m : Iss) (own : m.w = n.w) (j : Nat) := State.splitAccess_filled (s := s) (n := m) (a := .read) (j := j) (t := n.w.team)
    (off := n.src32 s (lowest n.act) x.a) (by rw [own]; exact State.acquiring_of_engineHeld free)
  simp only [active, legal, free, filled, split, State.planLanes_filled_ok, sound, starts, if_false, Bool.false_eq_true, List.isEmpty_nil,
    List.isEmpty_cons, Bool.not_true]

theorem hasEffect_of_copyOp_outside {i : Instr} {x : Args} {counts : Bool} (meaning : ∀ s, exec i s = s.copyOp i x counts)
    (kept : isRetired i = false) (uni : Bool) :
    let off (s : State) (n : Iss) : Nat := n.src32 s (lowest n.act) x.a
    HasEffect i x (fun s n => n.uni = uni ∧ (off s n % 64 ≠ 0 ∨ s.scratchSize n.w.team < off s n + 64))
      (fun s n => .all s (if uni then n.lanes else n.act) .scratchBounds (BitVec.ofNat 64 (off s n))) := by
  refine hasEffect_of_body meaning kept fun s n _ active ⟨set, outside⟩ => ⟨?_, rfl⟩
  simp only [active, set, outside, if_false, if_true]

/-! ## CPYS and UCPYS -/

/-- The state from which CPYS or UCPYS advances: a uniform one raises CSN first. -/
def State.stageBase (s : State) (n : Iss) : State := if n.uni then s.nextCsn n else s

theorem hasState_of_stageOp {i : Instr} {x : Args} (meaning : ∀ s, exec i s = s.stageOp i x) (kept : isRetired i = false) (t : Team) :
    let new (s : State) (n : Iss) (stage : Nat) : Nat := if modBit x.mod 0 then min (stage + 1) 63 else min (n.src32 s (lowest n.act) x.a) 63
    HasState i x (fun s n => s.engineHeld n.w.g = false ∧ (s.stageBase n).team n.w.team = some t) (fun s n =>
      let u := s.stageBase n
      let old := u.stageFrom n.w.g t
      if old < new u n old then u.advanceStage n.w.team (new u n old) (n.w.g == .ct n.w.team) (u.originOf n none) else u) := by
  refine hasEffect_of_body meaning kept fun s n own active ⟨free, resident⟩ => ⟨?_, rfl⟩
  subst own
  unfold State.stageBase at resident ⊢
  simp only [active, free, resident, if_false, Bool.false_eq_true]
  rfl

/-- A condition may grow, and the state be named otherwise under it. -/
theorem HasState.of_imp {i : Instr} {x : Args} {pre pre' : State → Iss → Prop} {f f' : State → Iss → State} (h : HasState i x pre f)
    (imp : ∀ s n, pre' s n → pre s n ∧ f s n = f' s n) : HasState i x pre' f' := by
  intro s w runs active holds
  obtain ⟨met, same⟩ := imp _ _ holds
  dsimp only
  rw [← same]
  exact h s w runs active met

theorem HasEffect.of_imp {i : Instr} {x : Args} {pre pre' : State → Iss → Prop} {f f' : State → Iss → Eff} (h : HasEffect i x pre f)
    (imp : ∀ s n, pre' s n → pre s n ∧ f s n = f' s n) : HasEffect i x pre' f' := by
  intro s w runs active holds
  obtain ⟨met, same⟩ := imp _ _ holds
  rw [← same]
  exact h s w runs active met

/-- Settles O18: the two shapes of body, each with its bounds and its advance. -/
theorem copyEffects : Obligations.CopyEffects := by
  unfold Obligations.CopyEffects
  intro x
  dsimp only
  refine ⟨hasState_of_copyOp (i := .cpy x) (counts := true) (fun s => show execCpy x s = _ from rfl) rfl, hasState_of_copyOp (i := .ucpy x) (counts := false) (fun s => show execUcpy x s = _ from rfl) rfl,
    hasEffect_of_copyOp_outside (i := .cpy x) (counts := true) (fun s => show execCpy x s = _ from rfl) rfl false,
    hasEffect_of_copyOp_outside (i := .ucpy x) (counts := false) (fun s => show execUcpy x s = _ from rfl) rfl true,
    fun t => (hasState_of_stageOp (i := .cpys x) (x := x) (fun s => show execCpys x s = _ from rfl) rfl t).of_imp ?advances,
    fun t => (hasState_of_stageOp (i := .cpys x) (x := x) (fun s => show execCpys x s = _ from rfl) rfl t).of_imp ?stays,
    fun t => (hasState_of_stageOp (i := .ucpys x) (x := x) (fun s => show execUcpys x s = _ from rfl) rfl t).of_imp ?uniAdvances,
    fun t => (hasState_of_stageOp (i := .ucpys x) (x := x) (fun s => show execUcpys x s = _ from rfl) rfl t).of_imp ?uniStays⟩
  case advances | uniAdvances =>
    intro s n ⟨set, free, resident, below⟩
    simp only [State.stageBase, set, Bool.false_eq_true, if_false, if_true]
    exact ⟨⟨free, resident⟩, if_pos below⟩
  case stays | uniStays =>
    intro s n ⟨set, free, resident, reached⟩
    simp only [State.stageBase, set, Bool.false_eq_true, if_false, if_true]
    exact ⟨⟨free, resident⟩, if_neg (Nat.not_lt.2 reached)⟩

end Sys2Proof.Machine
end

section
/-!
PROOFS. Decision queue, event queue and service calls (R388 to R391, R201 to R203).
-/

namespace Sys2Proof.Machine

/-! ## A form of control threads that stalls -/

theorem ite_some_ne_none {α : Type} {p : Prop} [Decidable p] {a : α} {o : Option α} (some_ : o ≠ none) : (if p then some a else o) ≠ none := by
  split
  case isTrue => exact Option.some_ne_none a
  case isFalse => exact some_

/-- A form that only control threads issue is not issued by a warp (R257). -/
theorem State.Runs.ct_of_controlOnly {s : State} {i : Instr} {x : Args} {w : Who} (h : s.Runs i x w) (only : controlOnly i = true) :
    ∃ t, w.g = .ct t := by
  cases agent : w.g with
  | ct t => exact ⟨t, rfl⟩
  | warp k =>
    obtain ⟨g, sig⟩ := h.sig
    have who := h.who
    rw [agent] at who
    have clean := h.word
    simp only [State.wordCause, sig, agent, who, only, Bool.not_false, Bool.and_self, if_true] at clean
    exact absurd clean (ite_some_ne_none (ite_some_ne_none (ite_some_ne_none (Option.some_ne_none _))))

/-- A stalled form of a control thread has not issued: it is where its effect has left it. -/
theorem State.Runs.stalls {s : State} {i : Instr} {x : Args} {w : Who} (h : s.Runs i x w) (only : controlOnly i = true)
    {body : Iss → State → Eff} {u : State} (comes : body (s.issOf i x w) (s.opened w.g) = .stall u) :
    s.issue i x body = .next (State.finish (s.issOf i x w) (.stall u)) := by
  obtain ⟨t, agent⟩ := h.ct_of_controlOnly only
  have same : u.unissue s w.g (s.issOf i x w).spec = u := by rw [agent]; rfl
  rw [h.issue, comes]
  exact congrArg (fun v => Host.Outcome.next (State.finish (s.issOf i x w) { Eff.stall u with st := v })) same

/-! ## The gate of a release leaves the issue alone -/

section
variable (s : State)

@[simp] theorem State.countReq_cur (core kind : Nat) (issuer : W32) (pc cpc : W64) (csn : W32) (va : W64) (pa : Nat) :
    (s.countReq core kind issuer pc cpc csn va pa).cur = s.cur := by
  unfold State.countReq
  split
  case h_1 => rfl
  case h_2 =>
    dsimp only
    split <;> rfl

@[simp] theorem State.countLane_cur (g : Agent) (kind : Nat) (va : W64) (pa : Nat) : (s.countLane g kind va pa).cur = s.cur := by
  unfold State.countLane
  split
  case h_1 => rfl
  case h_2 => split <;> simp

@[simp] theorem State.countFlush_cur (core line : Nat) : (s.countFlush core line).cur = s.cur := by
  unfold State.countFlush State.countFlushAt
  dsimp only
  split <;> simp

@[simp] theorem State.writeBack_cur (core line : Nat) (mask : ByteMask) (clk : W32) (awaits : List Await) :
    (s.writeBack core line mask clk awaits).cur = s.cur := by
  unfold State.writeBack
  split <;> rfl

@[simp] theorem State.flushLine_cur (core line : Nat) (awaits : List Await) : (s.flushLine core line awaits).cur = s.cur := by
  unfold State.flushLine
  split
  case h_1 => rfl
  case h_2 => split <;> simp

@[simp] theorem State.releaseStart_cur (core : Nat) : (s.releaseStart core).cur = s.cur :=
  List.foldlRecOn (motive := fun u : State => u.cur = s.cur) _ _ rfl fun u same line _ => (u.flushLine_cur core line [.evict]).trans same

@[simp] theorem State.releaseEnd_cur (g : Agent) (scope : Nat) : (s.releaseEnd g scope).cur = s.cur := by
  unfold State.releaseEnd
  split
  case isTrue => rfl
  case isFalse => exact State.updCtx_cur ..

@[simp] theorem State.gate_cur (n : Iss) (scope : Nat) (ready : Bool) : (s.gate n scope ready).2.cur = s.cur := by
  unfold State.gate
  dsimp only
  split
  case isTrue => rfl
  case isFalse =>
    repeat' split
    all_goals simp [State.endHold, State.holdIn]

theorem State.gate_cur_of_passed {n : Iss} {scope : Nat} {u : State} (gate : s.gate n scope = (true, u)) : u.cur = s.cur := by
  have := s.gate_cur n scope true
  rwa [gate] at this

end

/-- Settles O19: each form takes the branch of its body that the clause names; an EVWAIT that begins to wait stalls its control thread. -/
theorem queueEffects : Obligations.QueueEffects := by
  unfold Obligations.QueueEffects
  intro x
  dsimp only
  refine ⟨fun t c => hasState_of_body (fun s => show execDqpush x s = _ from rfl) rfl ?push,
    fun e => hasState_of_body (fun s => show execDqpop x s = _ from rfl) rfl ?pop,
    hasEffect_of_body (fun s => show execDqpop x s = _ from rfl) rfl ?popEnded,
    hasEffect_of_body (fun s => show execDqpop x s = _ from rfl) rfl ?popWaits,
    fun e => hasState_of_body (fun s => show execDqpeek x s = _ from rfl) rfl ?peek,
    hasState_of_body (fun s => show execDqpeek x s = _ from rfl) rfl ?peekNone,
    fun t => hasState_of_body (fun s => show execSvc x s = _ from rfl) rfl ?plain,
    fun t v => hasState_of_body (fun s => show execSvc x s = _ from rfl) rfl ?guess,
    fun r q => hasState_of_body (fun s => show execEvpop x s = _ from rfl) rfl ?takes,
    hasState_of_body (fun s => show execEvpop x s = _ from rfl) rfl ?empty,
    fun q => hasEffect_of_body (fun s => show execEvpop x s = _ from rfl) rfl ?lost,
    fun r q => hasState_of_body (fun s => show execEvwait x s = _ from rfl) rfl ?finds,
    fun r q u since => hasState_of_body (fun s => show execEvwait x s = _ from rfl) rfl ?ends,
    fun since => hasState_of_body (fun s => show execEvwait x s = _ from rfl) rfl ?expires,
    fun s w runs active ⟨t, resident, kept, none_, free⟩ => ?waits,
    fun q => hasEffect_of_body (fun s => show execEvwait x s = _ from rfl) rfl ?waitLost⟩
  case push =>
    intro s n active ⟨room, passed, resident, context⟩
    obtain ⟨u, gate, same⟩ := State.gate_of_passed passed
    rw [same] at resident context ⊢
    have notFull : (match s.team n.w.team with | some t => decide (64 ≤ t.dq.length) | none => false) = false := by
      cases held : s.team n.w.team with
      | none => rfl
      | some y => exact decide_eq_false (Nat.not_le.2 (room y held))
    simp only [active, gate, context, if_false]
    exact if_neg (Bool.eq_false_iff.1 notFull)
  case pop =>
    intro s n active ⟨ofWarp, y, t, listed, resident, found⟩
    simp only [Iss.warp_of_ofWarp ofWarp, active, listed, resident, found, if_false, Option.elim_some]
  case popEnded =>
    intro s n _ active ⟨ofWarp, y, t, listed, resident, none_, ended⟩
    refine ⟨?_, rfl⟩
    simp only [Iss.warp_of_ofWarp ofWarp, active, listed, resident, none_, ended, if_false, if_true]
  case popWaits =>
    intro s n _ active ⟨ofWarp, y, t, listed, resident, none_, runs⟩
    refine ⟨?_, rfl⟩
    simp only [Iss.warp_of_ofWarp ofWarp, active, listed, resident, none_, runs, Bool.false_eq_true, if_false]
    rfl
  case peek =>
    intro s n active ⟨ofWarp, y, t, listed, resident, found⟩
    simp only [Iss.warp_of_ofWarp ofWarp, active, listed, resident, found, if_false, Option.isSome_some]
  case peekNone =>
    intro s n active ⟨ofWarp, y, t, listed, resident, none_⟩
    simp only [Iss.warp_of_ofWarp ofWarp, active, listed, resident, none_, if_false, Option.isSome_none, List.nil_append]
  case plain =>
    intro s n active ⟨ofWarp, idle, passed, _, resident, rfl, unpredicted⟩
    obtain ⟨u, gate, same⟩ := State.gate_of_passed passed
    rw [same] at resident ⊢
    have unknown : (if u.cur.buffer then none else n.svcGuess t) = none := by
      rw [s.gate_cur_of_passed gate]
      rcases unpredicted with buffer | none_
      · exact if_pos buffer
      · rw [none_, ite_self]
    cases listed : s.warp n.warpNo with
    | none => simp only [Iss.warp_of_ofWarp ofWarp, active, listed, gate, resident, unknown, Bool.false_eq_true, if_false]
    | some y =>
      simp only [Iss.warp_of_ofWarp ofWarp, active, listed, idle y listed, Option.isSome_none, gate, resident, unknown, Bool.false_eq_true,
        if_false]
  case guess =>
    intro s n active ⟨ofWarp, idle, passed, _, resident, rfl, direct, known⟩
    obtain ⟨u, gate, same⟩ := State.gate_of_passed passed
    rw [same] at resident ⊢
    have found : (if u.cur.buffer then none else n.svcGuess t) = some v := by
      rw [s.gate_cur_of_passed gate, direct, known]
      rfl
    cases listed : s.warp n.warpNo with
    | none => simp only [Iss.warp_of_ofWarp ofWarp, active, listed, gate, resident, found, Bool.false_eq_true, if_false]
    | some y =>
      simp only [Iss.warp_of_ofWarp ofWarp, active, listed, idle y listed, Option.isSome_none, gate, resident, found, Bool.false_eq_true,
        if_false]
  case takes =>
    intro s n active ⟨t, resident, kept, queue, _⟩
    simp only [active, resident, kept, queue, Bool.false_eq_true, if_false]
  case empty =>
    intro s n active ⟨t, resident, kept, none_, _⟩
    simp only [active, resident, kept, none_, Bool.false_eq_true, if_false]
  case lost | waitLost =>
    intro s n _ active ⟨t, resident, lost, _⟩
    refine ⟨?_, rfl⟩
    simp only [active, resident, lost, if_false, if_true]
  case finds =>
    intro s n active ⟨t, resident, kept, queue, free⟩
    cases held : t.ct.hold with
    | evwait u since => exact absurd held (free u since)
    | _ => simp only [active, resident, kept, queue, held, Bool.false_eq_true, if_false]
  case ends =>
    intro s n active ⟨t, resident, kept, queue, waits⟩
    simp only [active, resident, kept, queue, waits, Bool.false_eq_true, if_false]
  case expires =>
    intro s n active ⟨t, resident, kept, none_, waits⟩
    simp only [active, resident, kept, none_, waits, Bool.false_eq_true, if_false]
  case waits =>
    replace active : ¬ (s.issOf (.evwait x) x w).act = 0 := active
    refine (show execEvwait x s = _ from runs.stalls rfl ?_)
    cases held : t.ct.hold with
    | evwait u since => exact absurd held (free u since)
    | _ => simp only [active, resident, kept, none_, held, Bool.false_eq_true, if_false]

end Sys2Proof.Machine
end

section
/-!
PROOFS. Special registers, FEATQ, RFT, DBGRET, UNPARK and TLBSYNC (R396 to R403).
-/

namespace Sys2Proof.Machine

/-! ## Reads -/

theorem State.srRead_tagged {s : State} {n : Iss} (tagged : modBits n.x.mod 7 0 = 14 ∨ modBits n.x.mod 7 0 = 15) :
    s.srRead n = s.later n (s.srReads n) := if_pos tagged

theorem State.srRead_plain {s : State} {n : Iss} (active : ¬ n.act = 0) (counts : modBits n.x.mod 7 0 ≠ 14) (tags : modBits n.x.mod 7 0 ≠ 15) :
    s.srRead n = n.results (s.srClear n) 4 (s.srReads n) :=
  (if_neg (not_or.2 ⟨counts, tags⟩)).trans (if_neg active)

theorem State.srClear_other {s : State} {n : Iss} (other : modBits n.x.mod 7 0 ≠ 33) : s.srClear n = s := by
  unfold State.srClear
  split
  case h_1 => exact if_neg other
  case h_2 => rfl

theorem State.srClear_predstat {s : State} {n : Iss} (named : modBits n.x.mod 7 0 = 33) (ofWarp : n.ofWarp = true) :
    s.srClear n = s.updWarp n.warpNo (fun y => { y with predstat := 0 }) := by
  unfold State.srClear
  rw [Iss.warp_of_ofWarp ofWarp]
  exact if_pos named

/-- A read of a special register whose body, under a condition, is the read itself in some state. -/
theorem hasState_of_srRead {i : Instr} {x : Args} {body : Iss → State → Eff} {pre : State → Iss → Prop} {f : State → Iss → State}
    (meaning : ∀ s, exec i s = s.issue i x body) (kept : isRetired i = false)
    (does : ∀ s n, n.x = x → ¬ n.act = 0 → pre s n → body n s = { st := (f s n).srRead n }) :
    let idx := modBits x.mod 7 0
    let read (s : State) (n : Iss) : List RegWrite := n.each.flatMap (fun j =>
      putWrites x.ty x.d j (BitVec.ofNat 64 (s.srValue n j idx / (if modBit x.mod 8 then 2 ^ 64 else 1))))
    HasState i x (fun s n => pre s n ∧ (idx = 14 ∨ idx = 15)) (fun s n => (f s n).later n (read (f s n) n)) ∧
    HasState i x (fun s n => pre s n ∧ idx ≠ 14 ∧ idx ≠ 15 ∧ idx ≠ 33) (fun s n => n.results (f s n) 4 (read (f s n) n)) ∧
    HasState i x (fun s n => pre s n ∧ idx = 33 ∧ n.ofWarp = true) (fun s n =>
      n.results ((f s n).updWarp n.warpNo (fun y => { y with predstat := 0 })) 4 (read (f s n) n)) := by
  refine ⟨hasEffect_of_body meaning kept fun s n own active ⟨holds, tagged⟩ => ⟨?_, rfl⟩,
    hasEffect_of_body meaning kept fun s n own active ⟨holds, counts, tags, other⟩ => ⟨?_, rfl⟩,
    hasEffect_of_body meaning kept fun s n own active ⟨holds, named, ofWarp⟩ => ⟨?_, rfl⟩⟩
  all_goals
    rw [does s n own active holds]
    subst own
  · rw [State.srRead_tagged tagged]
    rfl
  · rw [State.srRead_plain active counts tags, State.srClear_other other]
    rfl
  · rw [State.srRead_plain active (by omega) (by omega), State.srClear_predstat named ofWarp]
    rfl

/-! ## Writes -/

theorem hasEffect_of_srWrite {i : Instr} {x : Args} (meaning : ∀ s, exec i s = s.issue i x (fun iss s => s.srWrite iss))
    (kept : isRetired i = false) :
    let idx := modBits x.mod 7 0
    let now (s : State) (n : Iss) : List RegWrite :=
      (if idx = 12 then lanesOf n.act else [lowest (if n.uni then n.lanes else n.act)]).map (fun j =>
        { lane := j, dest := .sr idx, val := (s.srSource n j).setWidth 128 })
    HasState i x (fun _ n => srPrivileged idx = false ∨ n.w.handler = true)
      (fun s n => n.results (if idx = 30 then s.awaitTable n.w.team else s) 4 (now s n)) ∧
    HasEffect i x (fun s n => srPrivileged idx = true ∧ n.w.handler = false ∧ s.cur.buffer = false)
      (fun s n => .all s (if n.uni then n.lanes else n.act) .privilege 0) := by
  refine ⟨hasEffect_of_body meaning kept fun s n own active allowed => ⟨?_, rfl⟩,
    hasEffect_of_body meaning kept fun s n own active ⟨barred, mode, direct⟩ => ⟨?_, rfl⟩⟩
  all_goals
    subst own
    unfold State.srWrite
  · have free : (srPrivileged (modBits n.x.mod 7 0) && !n.w.handler) = false := by rcases allowed with open_ | mode <;> simp [*]
    simp only [active, free, Bool.false_eq_true, if_false]
  · simp only [active, barred, mode, direct, Bool.not_false, Bool.and_self, Bool.false_and, Bool.false_eq_true, if_false, if_true]

/-- Settles O21: the reads and the writes of a special register, each in the state that its form reads or writes in. -/
theorem specialRegisterEffects : Obligations.SpecialRegisterEffects := by
  unfold Obligations.SpecialRegisterEffects
  intro x
  refine ⟨hasState_of_srRead (fun s => show execSread x s = _ from rfl) rfl fun _ _ _ _ _ => rfl,
    hasState_of_srRead (fun s => show execUsread x s = _ from rfl) rfl ?usread,
    hasState_of_srRead (fun s => show execUsread x s = _ from rfl) rfl ?synced,
    hasEffect_of_srWrite (fun s => show execSwrite x s = _ from rfl) rfl, hasEffect_of_srWrite (fun s => show execUswrite x s = _ from rfl) rfl,
    hasEffect_of_body (fun s => show execUswriteRft x s = _ from rfl) rfl ?returns,
    hasEffect_of_body (fun s => show execUswriteRft x s = _ from rfl) rfl ?barred,
    hasState_of_body (fun s => show execTlbsync x s = _ from rfl) rfl ?tlbsync⟩
  case usread =>
    intro s n _ active plain
    exact if_neg fun ⟨sync, _⟩ => Bool.false_ne_true (plain.symm.trans sync)
  case synced =>
    intro s n _ active ⟨sync, done⟩
    simp only [sync, active, ne_eq, not_false_eq_true, and_self, if_true]
    rw [eq_of_fst_true done]
  case returns =>
    intro s n _ active ⟨ofCt, mode⟩
    refine ⟨?_, rfl⟩
    simp only [Iss.ct_of_not_ofWarp ofCt, active, mode, Bool.not_true, Bool.false_eq_true, if_false]
  case barred =>
    intro s n _ active ⟨ofCt, mode⟩
    refine ⟨?_, rfl⟩
    simp only [Iss.ct_of_not_ofWarp ofCt, active, mode, Bool.not_false, if_false, if_true]
  case tlbsync =>
    intro s n active done
    simp only [active, if_false]
    rw [eq_of_fst_true done]

/-! ## FEATQ, RFT, DBGRET and UNPARK -/

/-- Settles O22: each form takes the branch of its body that the agent, its mode and the program buffer name. -/
theorem systemEffects : Obligations.SystemEffects := by
  unfold Obligations.SystemEffects
  intro x
  dsimp only
  refine ⟨hasState_of_body (fun s => show execFeatq x s = _ from rfl) rfl fun s n active _ => if_neg active,
    hasEffect_of_body (fun s => show execRft x s = _ from rfl) rfl ?rft,
    fun len => hasEffect_of_body (fun s => show execRft x s = _ from rfl) rfl ?rftNext,
    hasEffect_of_body (fun s => show execRft x s = _ from rfl) rfl ?barred,
    hasState_of_body (fun s => show execDbgret x s = _ from rfl) rfl ?dbgret,
    hasEffect_of_body (fun s => show execDbgret x s = _ from rfl) rfl ?dbgretBarred,
    hasState_of_body (fun s => show execUnpark x s = _ from rfl) rfl ?unpark⟩
  case rft =>
    intro s n _ active ⟨ofWarp, mode, plain⟩
    refine ⟨?_, rfl⟩
    simp only [Iss.warp_of_ofWarp ofWarp, active, mode, plain, Bool.not_true, Bool.false_eq_true, if_false]
  case rftNext =>
    intro s n _ active ⟨ofWarp, mode, next, length⟩
    refine ⟨?_, rfl⟩
    rw [Iss.warp_of_ofWarp ofWarp] at length
    simp only [Iss.warp_of_ofWarp ofWarp, active, mode, next, length, Bool.not_true, Bool.false_eq_true, if_false, if_true]
  case barred =>
    intro s n _ active ⟨ofWarp, mode⟩
    refine ⟨?_, rfl⟩
    simp only [Iss.warp_of_ofWarp ofWarp, active, mode, Bool.not_false, if_false, if_true]
  case dbgret =>
    intro s n active buffer
    simp only [active, buffer, Bool.not_true, Bool.false_eq_true, if_false]
  case dbgretBarred =>
    intro s n _ active direct
    refine ⟨?_, rfl⟩
    simp only [active, direct, Bool.not_false, if_false, if_true]
  case unpark =>
    intro s n active ofWarp
    simp only [Iss.warp_of_ofWarp ofWarp, active, if_false]

end Sys2Proof.Machine
end

section
/-!
PROOFS. The reset state's memory (O58), and that every step goes on (O57): an issue answers a next state where its issuer is resident, an event
always does, and what is planned is one or the other.
-/

namespace Sys2Proof.Machine

/-- Settles O58: nothing is written at reset. -/
theorem resetCanonical : Obligations.ResetCanonical := rfl

/-! ## What runs answers a next state -/

/-- An instruction word whose issuer is resident answers a next state: each is the frame of an issue around a body. -/
theorem exec_next_of_word {i : Instr} {x : Args} {s : State} {w : Who} (resident : s.issuer = some w) (word : argsOf i = some x) :
    ∃ t, exec i s = .next t := by
  unfold exec
  cases i
  all_goals
    cases word
  all_goals
    simp only [execIadd, execIsub, execImul, execImulh, execImad, execImadw, execIneg, execIabs, execImin, execImax, execIaddc, execIsubb,
      execLea, execIdot4, execIsad, execAnd, execOr, execXor, execAndn, execBool3, execShl, execShr, execSar, execRot, execShf, execBfx,
      execBfi, execPopc, execClz, execCtz, execBrev, execBytep, execIcmp, execFcmp, execSel, execPset, execPmov, execPmovUnpack, execMov,
      execShfl, execVote, execMatch_, execRedux, execScan, execFadd, execFsub, execFmul, execFfma, execFmin, execFmax, execFrnd, execFscale,
      execFclass, execFdot2, execPadd, execPmul, execPfma, execPmin, execPmax, execFrcp, execFrsq, execFsqrt, execFexp2, execFlog2, execFsin,
      execFcos, execFtanh, execFcvt, execIcvt, execFcvti, execPack, execUnpk, execLd, execSt, execLdf, execStf, execPref, execCwb, execCwbAll,
      execSpmap, execSpwb, execSprel, execAtom, execAtomn, execAcas, execFence, execBari, execBara, execBarax, execBarw, execBarq, execWaitc,
      execJset, execJoin, execYield_, execNap, execBra, execBrx, execCall, execCallx, execRet, execExit, execExitTeam, execExitGrid, execTrap,
      execBrk, execStep_, execSafe, execMxq, execMxz, execMxrd, execMxrdCfg, execMxwr, execMxld, execMxst, execMxcfg, execCpy, execCpys,
      execDqpop, execDqpeek, execSvc, execSread, execSwrite, execFeatq, execRft, execDbgret, execUnpark, execTlbsync, execImad24, execBarsync,
      execFrcpa, execLdgx, execUadd, execUsub, execUmul, execUmad, execUmin, execUmax, execUand, execUor, execUxor, execUshl, execUshr,
      execUsar, execUbfx, execUlea, execUcmp, execUsel, execUmov, execUfrom, execUld, execUst, execUatom, execUbra, execUbrx, execUcall,
      execUret, execUloop, execUexit, execDqpush, execUcpy, execUcpys, execUlaunch, execUtrig, execUgwait, execEvpop, execEvwait, execUclock,
      execUsread, execUswrite, execUswriteRft, execUfence, State.intOp2, State.intOp1, State.intOp3, State.bitOp2, State.bitOpB, State.carry,
      State.leaOp, State.bfxOp, State.countOp, State.cmpOp, State.selOp, State.movOp, State.foldOp, State.float1, State.float2, State.float3,
      State.packed2, State.transOp, State.loadOp, State.storeOp, State.regionOp, State.atomOp, State.fenceOp, State.arriveOp, State.branchOp,
      State.matrixOp, State.mxReadOp, State.mxMemOp, State.copyOp, State.stageOp, State.fixed]
    exact State.issue_next _ _ _ _ resident

/-- An event answers a next state from every state. -/
theorem exec_next_of_event {i : Instr} (event : argsOf i = none) (s : State) : ∃ t, exec i s = .next t := by
  unfold exec
  cases i
  all_goals
    cases event
  all_goals
    exact ⟨_, rfl⟩

/-! ## What is planned is an event or has its issuer -/

/-- What is to be done is done already, an event, or an instruction of a resident agent. -/
def Todo.Ready : Todo → Prop
  | .done _ => True
  | .run i s => isEvent i = true ∨ ∃ w, s.issuer = some w

/-- Where an agent belongs rests on its own record, its team and its grid. -/
theorem State.who_congr {s t : State} {g : Agent} (ctx : t.ctx g = s.ctx g) (teams : t.teams = s.teams) (grids : t.grids = s.grids) :
    t.who g = s.who g := by
  simp only [State.who, ctx, State.team, teams, State.grid, grids]

theorem State.begin_issuer {s : State} {g : Agent} {w : Who} (resident : s.who g = some w) (e : Mask) (pc : W64) (lanes : Mask) (len : Nat)
    (step : Bool) : (s.begin_ g e pc lanes len step).issuer = some w := by
  rw [State.issuer, State.begin_cur]
  cases g with
  | warp k =>
    exact (State.who_congr (State.ctx_updWarp _ k (fun x => x.decided (e ||| lanes) lanes) (fun _ => rfl) (.warp k)) rfl rfl).trans resident
  | ct k => exact resident

theorem State.issueAt_ready (s : State) (g : Agent) (e : Mask) (pc : W64) (lanes : Mask) (i : Option Instr) (len : Nat) (step : Bool) :
    (s.issueAt g e pc lanes i len step).Ready := by
  unfold State.issueAt
  split
  case h_1 => trivial
  case h_2 w resident =>
    dsimp only
    split
    case h_1 => split <;> trivial
    case h_2 => trivial
    case h_3 => exact .inr ⟨w, State.begin_issuer resident e pc lanes len step⟩

/-- A turn finds nothing to do, or something that is ready. -/
def Todo.AllReady : Option Todo → Prop
  | none => True
  | some t => t.Ready

theorem Todo.allReady_ite {c : Prop} [Decidable c] {a b : Option Todo} (yes : Todo.AllReady a) (no : Todo.AllReady b) :
    Todo.AllReady (if c then a else b) := by
  split
  case isTrue => exact yes
  case isFalse => exact no

theorem Todo.allReady_done (o : Option State) : Todo.AllReady (o.map Todo.done) := by
  cases o <;> trivial

theorem State.portTurn_ready (s : State) (gs : List Agent) (free : Bool) (fits : Cand → Bool) : Todo.AllReady (s.portTurn gs free fits).2 := by
  unfold State.portTurn
  split
  case h_1 => trivial
  case h_2 =>
    split
    case isTrue => trivial
    case isFalse =>
      dsimp only
      split
      case h_1 => trivial
      case h_2 => exact State.issueAt_ready ..

theorem State.placeTurn_ready (s : State) (n : Nat) : Todo.AllReady (s.placeTurn n).2 := by
  simp only [State.placeTurn]
  split <;> exact State.portTurn_ready ..

theorem State.scan_ready (places : List Nat) (s : State) : (s.scan places).Ready := by
  induction places generalizing s with
  | nil => trivial
  | cons p rest ih =>
    have turn := s.placeTurn_ready p
    rw [State.scan]
    split
    case h_1 => trivial
    case h_2 i t found => rw [found] at turn; exact turn
    case h_3 => exact ih _

theorem State.stepEnd_ready (s : State) (r : DbgRun) : Todo.AllReady (s.stepEnd r) := by
  unfold State.stepEnd
  split
  case h_1 => trivial
  case h_2 => exact Todo.allReady_ite trivial trivial

theorem State.bufferTurn_ready (s : State) (r : DbgRun) : Todo.AllReady (s.bufferTurn r) := by
  unfold State.bufferTurn
  split
  case h_2 => trivial
  case h_1 w _ resident _ =>
    split
    case h_1 => trivial
    case h_2 =>
      refine Todo.allReady_ite trivial ?_
      split
      case h_1 => trivial
      case h_2 =>
        split
        case h_1 => exact Todo.allReady_ite trivial trivial
        case h_2 => exact Todo.allReady_ite trivial (.inr ⟨w, resident⟩)

theorem State.debugTurn_ready (s : State) : Todo.AllReady s.debugTurn.2 := by
  simp only [State.debugTurn]
  split
  case h_1 => trivial
  case h_2 r _ =>
    rw [apply_ite Prod.snd, apply_ite Prod.snd]
    refine Todo.allReady_ite (State.bufferTurn_ready _ r) (Todo.allReady_ite (State.stepEnd_ready _ r) ?_)
    split
    case h_1 =>
      rw [apply_ite Prod.snd]
      exact Todo.allReady_ite trivial trivial
    case h_2 => exact Todo.allReady_done _
    case h_3 => trivial
    case h_4 => exact State.issueAt_ready ..

/-- A place's turn, or nothing where there is nothing to do. -/
theorem State.place_ready (s : State) (n : Nat) :
    (match s.placeTurn n with | (_, some t) => t | (u, none) => Todo.done u).Ready := by
  have turn := s.placeTurn_ready n
  split
  case h_1 t found => rw [found] at turn; exact turn
  case h_2 => trivial

theorem State.move_ready (s : State) (m : Move) : (s.move m).Ready := by
  cases m with
  | slot core slot =>
    simp only [State.move]
    split
    case isTrue => exact s.place_ready _
    case isFalse => trivial
  | pipe core =>
    simp only [State.move]
    split
    case isTrue => exact s.place_ready _
    case isFalse => trivial
  | tick n => trivial
  | array team id => trivial
  | unit id => trivial
  | flit since f => trivial
  | event e =>
    simp only [State.move]
    split
    case isTrue event => exact .inl event
    case isFalse => trivial

theorem State.listedMove_ready (s : State) (m : Move) (rest : List Move) : (s.listedMove m rest).Ready := by
  simp only [State.listedMove]
  split
  case isTrue => exact State.move_ready ..
  case isFalse =>
    split
    case h_1 => exact State.move_ready ..
    case h_2 =>
      split
      case isTrue => trivial
      case isFalse => exact State.move_ready ..
    case h_3 =>
      split
      case isTrue => trivial
      case isFalse => exact State.move_ready ..
    case h_4 =>
      split
      case isTrue =>
        split
        case h_1 => exact State.move_ready ..
        case h_2 => exact State.scan_ready ..
        case h_3 => exact State.scan_ready ..
      case isFalse =>
        split
        case isTrue => trivial
        case isFalse => exact State.move_ready ..

theorem State.defaultTurn_ready (s : State) : s.defaultTurn.Ready := by
  unfold State.defaultTurn
  split
  case h_1 => trivial
  case h_2 =>
    split
    case isTrue => exact State.scan_ready ..
    case isFalse => trivial
  case h_3 =>
    split
    case isTrue => exact State.scan_ready ..
    case isFalse => trivial
  case h_4 => trivial

theorem State.plan_ready (s : State) : s.plan.Ready := by
  have turn := s.debugTurn_ready
  unfold State.plan
  split
  case h_1 t found =>
    split at found
    case isTrue => rw [found] at turn; exact turn
    case isFalse => cases found
  case h_2 =>
    split
    case h_1 => exact State.listedMove_ready ..
    case h_2 => exact State.defaultTurn_ready _

/-- Settles O57: what the plan runs is ready, and what is ready answers a next state. -/
theorem everyStepGoesOn : Obligations.EveryStepGoesOn := by
  intro s
  have ready := s.plan_ready
  cases planned : s.plan with
  | done t => exact ⟨t, by simp only [step, planned]⟩
  | run i u =>
    rw [planned] at ready
    have goes : ∃ t, exec i u = .next t := by
      cases word : argsOf i with
      | none => exact exec_next_of_event word u
      | some x =>
        obtain event | ⟨w, resident⟩ := ready
        · simp [isEvent, word] at event
        · exact exec_next_of_word resident word
    obtain ⟨t, goes⟩ := goes
    exact ⟨_, step_of_next planned goes⟩

end Sys2Proof.Machine
end

section
/-!
PROOFS. The bytes that a store leaves (O44): the pieces of a global access cover it, a piece of a leased page leaves its bytes in its line of the L1
(R113), and an access to a scratchpad is queued in pieces (R131) that leave their bytes there (R353).
-/

namespace Sys2Proof.Machine

/-! ## The pieces of a global access -/

/-- Cutting at sector boundaries leaves no byte out, given a cut for each sector that the bytes may touch. -/
theorem exists_mem_cuts {fuel va pos n k : Nat} (enough : va % 64 + n ≤ 64 * fuel) (within : k < n) :
    ∃ c ∈ cuts fuel va pos n, c.1 ≤ pos + k ∧ pos + k < c.1 + c.2 := by
  induction fuel generalizing va pos n k with
  | zero => omega
  | succ fuel ih =>
    rw [cuts, if_neg (by omega)]
    by_cases first : k < min n (64 - va % 64)
    · exact ⟨_, List.mem_cons_self, by dsimp only; omega, by dsimp only; omega⟩
    · obtain ⟨c, mem, low, high⟩ := ih (va := va + min n (64 - va % 64)) (pos := pos + min n (64 - va % 64)) (n := n - min n (64 - va % 64))
        (k := k - min n (64 - va % 64)) (by omega) (by omega)
      exact ⟨c, List.mem_cons_of_mem _ mem, by omega, by omega⟩

/-- Every byte of an access of n bytes at va is in a piece that stands at its place. -/
def Covers (va : W64) (n : Nat) (segs : List Seg) : Prop :=
  ∀ k, k < n → ∃ sg ∈ segs, sg.pos ≤ k ∧ k < sg.pos + sg.n ∧ sg.va = va + BitVec.ofNat 64 sg.pos

/-- A fold that answers pieces has added the piece of each cut. -/
theorem Reach.foldl_ok {f : Reach → Nat × Nat → Reach} {va : W64} {segs : List Seg} {l : List (Nat × Nat)} {acc : List Seg}
    (adds : ∀ acc c l, f (.ok acc) c = .ok l → ∃ sg, l = acc ++ [sg] ∧ sg.pos = c.1 ∧ sg.n = c.2 ∧ sg.va = va + BitVec.ofNat 64 c.1)
    (stays : ∀ r c l, f r c = .ok l → ∃ acc, r = .ok acc) (answer : l.foldl f (.ok acc) = .ok segs) :
    (∀ sg ∈ acc, sg ∈ segs) ∧ ∀ c ∈ l, ∃ sg ∈ segs, sg.pos = c.1 ∧ sg.n = c.2 ∧ sg.va = va + BitVec.ofNat 64 c.1 := by
  have started : ∀ (l : List (Nat × Nat)) r, l.foldl f r = .ok segs → ∃ acc, r = .ok acc := by
    intro l
    induction l with
    | nil => exact fun r done => ⟨segs, done⟩
    | cons c l ih =>
      intro r rest
      obtain ⟨acc, next⟩ := ih _ rest
      exact stays r c acc next
  induction l generalizing acc with
  | nil =>
    cases answer
    exact ⟨fun _ mem => mem, fun _ mem => nomatch mem⟩
  | cons c l ih =>
    rw [List.foldl_cons] at answer
    obtain ⟨next, one⟩ := started l _ answer
    obtain ⟨sg, rfl, place⟩ := adds acc c next one
    rw [one] at answer
    obtain ⟨kept, rest⟩ := ih answer
    refine ⟨fun sg mem => kept sg (List.mem_append_left _ mem), fun d mem => ?_⟩
    rcases List.mem_cons.1 mem with rfl | mem
    · exact ⟨sg, kept sg (by simp), place⟩
    · exact rest d mem

variable {s : State}

theorem State.reach_covers {w : Who} {va : W64} {n : Nat} {access : Access} {segs : List Seg} (few : n ≤ 16)
    (reached : s.reach w va n access = .ok segs) : Covers va n segs := by
  unfold State.reach at reached
  split at reached
  case h_1 => cases reached
  case h_2 =>
    have pieces := Reach.foldl_ok (va := va) ?adds ?stays reached
    case adds =>
      intro acc c l one
      dsimp only at one
      split at one
      case h_1 =>
        split at one
        case isTrue => cases one; exact ⟨_, rfl, rfl, rfl, rfl⟩
        case isFalse => cases one
      all_goals cases one
    case stays =>
      intro r c l one
      dsimp only at one
      split at one
      case h_1 acc => exact ⟨acc, rfl⟩
      case h_2 bad => exact (bad l one).elim
    intro k within
    obtain ⟨c, mem, low, high⟩ := exists_mem_cuts (fuel := 6) (va := va.toNat) (pos := 0) (by omega) within
    obtain ⟨sg, piece, pos, count, at_⟩ := pieces.2 c mem
    exact ⟨sg, piece, by omega, by omega, by rw [at_, pos]⟩

theorem Covers.byteSegs {va : W64} {n : Nat} {segs : List Seg} (covers : Covers va n segs) : Covers va n (byteSegs va n segs) := by
  unfold Machine.byteSegs
  split
  case isTrue => exact covers
  case isFalse =>
    intro k within
    obtain ⟨sg, mem, low, high, at_⟩ := covers k within
    refine ⟨sg.cut (k - sg.pos, 1), List.mem_flatMap.2 ⟨sg, mem, List.mem_map.2 ⟨k - sg.pos, List.mem_range.2 (by omega), rfl⟩⟩, ?_, ?_, ?_⟩
    · simp only [Seg.cut]; omega
    · simp only [Seg.cut]; omega
    · simp only [Seg.cut, at_, BitVec.add_assoc, BitVec.ofNat_add]

theorem State.access_covers {w : Who} {va : W64} {n : Nat} {access : Access} {atom : Option AtomOp} {segs : List Seg} (few : n ≤ 16)
    (reached : s.access w va n access atom = .ok segs) : Covers va n segs := by
  unfold State.access at reached
  split at reached
  case h_1 pieces free =>
    have covers : Covers va n pieces := by
      unfold State.reachFree at free
      split at free
      case isTrue => cases free
      case isFalse => exact State.reach_covers few free
    split at reached
    case h_1 => cases reached
    case h_2 => cases reached; exact covers.byteSegs
  case h_2 bad => exact (bad segs reached).elim

/-- A load or a store has 16 bytes or fewer (R352). -/
theorem memSize_le (x : Args) : memSize x ≤ 16 := by
  unfold memSize
  split
  case isTrue => exact Nat.le_refl _
  case isFalse => cases x.ty <;> decide

theorem State.globalRes_eq_glob {w : Who} {va a : W64} {n : Nat} {access : Access} {atom : Option AtomOp} {segs : List Seg}
    (res : s.globalRes w va n access atom = .glob a segs) : a = va ∧ s.access w va n access atom = .ok segs := by
  unfold State.globalRes at res
  split at res
  case h_1 l reached => cases res; exact ⟨rfl, reached⟩
  all_goals cases res

/-- A lane's access that is not performed. -/
def LaneRes.Fails : LaneRes → Prop
  | .glob .. | .sp .. => False
  | _ => True

theorem State.fillRes_fails {w : Who} {t : Team} {e : Nat × Nat} {r : LaneRes} (res : s.fillRes w t e = .error r) : r.Fails := by
  unfold State.fillRes at res
  split at res
  case h_1 => cases res; trivial
  case h_2 =>
    dsimp only at res
    split at res
    case h_1 =>
      split at res
      case h_1 => cases res; trivial
      case h_2 => cases res
    all_goals
      cases res
      trivial

/-- Only the lines to touch are in doubt once an access lies within an allocation that no lock holds. -/
theorem State.scratchRes_cases (s : State) (w : Who) (team off n : Nat) (access : Access) :
    (s.scratchRes w team off n access).Fails ∨
    (∃ y, s.team team = some y) ∧ ∃ fills, s.scratchRes w team off n access = .sp team off fills := by
  unfold State.scratchRes
  split
  case h_1 => exact .inl trivial
  case h_2 t found =>
    split
    case isTrue => exact .inl trivial
    case isFalse =>
      split
      case isTrue => exact .inl trivial
      case isFalse =>
        dsimp only
        split
        case h_1 r failed =>
          refine .inl ?_
          refine List.foldlRecOn (motive := fun (a : Except LaneRes (List (Nat × Nat × Seg))) => ∀ r, a = .error r → r.Fails) _ _
            (fun _ h => by cases h) (fun a kept e _ r => ?_) r failed
          split
          case h_1 =>
            split
            case h_1 => exact fun h => by cases h
            case h_2 x bad => exact fun h => by cases h; exact State.fillRes_fails bad
          case h_2 => exact kept r
        case h_2 l _ => exact .inr ⟨⟨t, found⟩, l, rfl⟩

theorem State.laneRes_eq_glob {n : Iss} {lane size : Nat} {off : Option Opnd} {access : Access} {va : W64} {segs : List Seg}
    (few : size ≤ 16) (res : s.laneRes n lane off size access none = .glob va segs) :
    va = n.globalVa s lane n.x.a off ∧ Covers va size segs := by
  unfold State.laneRes at res
  simp only [Option.isNone_none, Bool.true_or, Bool.not_true, Bool.false_eq_true, if_true, if_false] at res
  split at res
  case h_1 =>
    obtain ⟨rfl, reached⟩ := State.globalRes_eq_glob res
    exact ⟨rfl, State.access_covers few reached⟩
  case h_2 =>
    split at res
    case h_1 team _ =>
      rcases s.scratchRes_cases n.w team (n.scratchOff s lane n.x.a off) size access with fails | ⟨_, _, is⟩
      · exact (res ▸ fails : LaneRes.Fails (.glob va segs)).elim
      · cases is.symm.trans res
    case h_2 => cases res

theorem State.laneRes_eq_sp {n : Iss} {lane size : Nat} {off : Option Opnd} {access : Access} {tm o : Nat} {fills : List (Nat × Nat × Seg)}
    (res : s.laneRes n lane off size access none = .sp tm o fills) :
    o = n.scratchOff s lane n.x.a off ∧ ∃ y, s.team tm = some y := by
  unfold State.laneRes at res
  simp only [Option.isNone_none, Bool.true_or, Bool.not_true, Bool.false_eq_true, if_true, if_false] at res
  split at res
  case h_1 =>
    unfold State.globalRes at res
    split at res <;> cases res
  case h_2 =>
    split at res
    case h_1 team _ =>
      rcases s.scratchRes_cases n.w team (n.scratchOff s lane n.x.a off) size access with fails | ⟨resident, _, is⟩
      · exact (res ▸ fails : LaneRes.Fails (.sp tm o fills)).elim
      · cases is.symm.trans res
        exact ⟨rfl, resident⟩
    case h_2 => cases res

/-! ## Bytes of a line -/

theorem getLsbD_lineByte (d : Line) (b : Nat) {i : Nat} (low : i < 8) : (lineByte d b).getLsbD i = d.getLsbD (8 * b + i) := by
  rw [lineByte, BitVec.getLsbD_ofNat, decide_eq_true low, Bool.true_and, Nat.testBit_shiftRight, BitVec.getLsbD]

theorem lineByte_mergeLine (old new : Line) (mask : ByteMask) {b : Nat} (within : b < 256) :
    lineByte (mergeLine old new mask) b = if mask.getLsbD b then lineByte new b else lineByte old b := by
  refine BitVec.eq_of_getLsbD_eq fun i low => ?_
  have place : (8 * b + i) / 8 = b := by omega
  rw [getLsbD_lineByte _ _ low, getLsbD_mergeLine _ _ _ (by omega), place]
  split <;> rw [getLsbD_lineByte _ _ low]

theorem getLsbD_byteRange (off n : Nat) {b : Nat} (within : b < 256) : (byteRange off n).getLsbD b = decide (off ≤ b ∧ b < off + n) := by
  rw [byteRange, BitVec.getLsbD_ofNat, decide_eq_true within, Bool.true_and, Nat.mul_comm, Nat.testBit_two_pow_mul,
    Nat.testBit_two_pow_sub_one]
  by_cases low : off ≤ b
  · have high : b - off < n ↔ b < off + n := by omega
    simp [low, high]
  · simp [low]

theorem lineByte_zero (b : Nat) : lineByte 0#2048 b = 0#8 := by
  rw [lineByte, BitVec.toNat_zero, Nat.zero_shiftRight]

/-- Bytes of a number from a place on, as a piece of a store puts them into its line. -/
theorem lineByte_lineOf_piece {data pos off n b : Nat} (within : b < 256) (low : off ≤ b) (high : b < off + n) :
    lineByte (lineOf off ((data >>> (8 * pos)) % 2 ^ (8 * n))) b = BitVec.ofNat 8 (data >>> (8 * (pos + (b - off)))) := by
  refine BitVec.eq_of_getLsbD_eq fun i bit => ?_
  have inLine : 8 * b + i < 2048 := by omega
  have fromOff : 8 * b + i ≥ 8 * off := by omega
  have inPiece : 8 * b + i - 8 * off < 8 * n := by omega
  have place : 8 * pos + (8 * b + i - 8 * off) = 8 * (pos + (b - off)) + i := by omega
  rw [getLsbD_lineByte _ _ bit, lineOf, BitVec.getLsbD_ofNat, BitVec.getLsbD_ofNat, Nat.testBit_shiftLeft, Nat.testBit_mod_two_pow,
    Nat.testBit_shiftRight, Nat.testBit_shiftRight, place, decide_eq_true inLine, decide_eq_true fromOff, decide_eq_true inPiece,
    decide_eq_true bit, Bool.true_and, Bool.true_and]

/-! ## Lines of the L1 that leave -/

/-- What no access of a core to its own L1 changes: memory, the L2 and the teams. -/
structure State.SameStore (s t : State) : Prop where
  mem : t.mem = s.mem
  l2 : t.l2 = s.l2
  teams : t.teams = s.teams

theorem State.SameStore.trans {s t u : State} (first : s.SameStore t) (second : t.SameStore u) : s.SameStore u :=
  ⟨second.mem.trans first.mem, second.l2.trans first.l2, second.teams.trans first.teams⟩

@[simp] theorem State.l1_setCore (s : State) (core : Nat) (x : Core) (c i : Nat) :
    (s.setCore core x).l1 c i = if c = core then Tab.find x.l1 i else s.l1 c i := by
  simp only [State.l1, State.core, State.setCore, Tab.get_set]
  split <;> rfl

@[simp] theorem State.l1_setL1 (s : State) (core line : Nat) (l : L1Line) (c i : Nat) :
    (s.setL1 core line l).l1 c i = if c = core ∧ i = line then some l else s.l1 c i := by
  simp only [State.setL1, State.updCore, State.l1_setCore, Tab.find_set]
  by_cases own : c = core
  · subst own
    by_cases here : i = line <;> simp [here, State.l1]
  · simp [own]

@[simp] theorem State.l1_dropL1 (s : State) (core line c i : Nat) :
    (s.dropL1 core line).l1 c i = if c = core ∧ i = line then none else s.l1 c i := by
  simp only [State.dropL1, State.updCore, State.l1_setCore, Tab.find_erase]
  by_cases own : c = core
  · subst own
    by_cases here : i = line <;> simp [here, State.l1]
  · simp [own]

theorem State.countReq_sameStore (s : State) (core kind : Nat) (issuer : W32) (pc cpc : W64) (csn : W32) (va : W64) (pa : Nat) :
    s.SameStore (s.countReq core kind issuer pc cpc csn va pa) ∧ (s.countReq core kind issuer pc cpc csn va pa).l1 = s.l1 := by
  unfold State.countReq
  split
  case h_1 => exact ⟨⟨rfl, rfl, rfl⟩, rfl⟩
  case h_2 =>
    dsimp only
    split
    case isFalse => exact ⟨⟨rfl, rfl, rfl⟩, rfl⟩
    case isTrue =>
      refine ⟨⟨rfl, rfl, rfl⟩, funext fun c => funext fun i => ?_⟩
      rw [State.l1_setCore]
      split
      case isTrue own => rw [own]; rfl
      case isFalse => rfl

theorem State.countLane_sameStore (s : State) (g : Agent) (kind : Nat) (va : W64) (pa : Nat) :
    s.SameStore (s.countLane g kind va pa) ∧ (s.countLane g kind va pa).l1 = s.l1 := by
  unfold State.countLane
  split
  case h_1 => exact ⟨⟨rfl, rfl, rfl⟩, rfl⟩
  case h_2 =>
    split
    case h_1 => exact State.countReq_sameStore ..
    case h_2 => exact ⟨⟨rfl, rfl, rfl⟩, rfl⟩

theorem State.countFlush_sameStore (s : State) (core line : Nat) :
    s.SameStore (s.countFlush core line) ∧ (s.countFlush core line).l1 = s.l1 := by
  unfold State.countFlush State.countFlushAt
  dsimp only
  split
  case h_1 =>
    obtain ⟨⟨mem, l2, teams⟩, l1⟩ := s.free.2.countLane_sameStore _ 1 (s.free.1.setWidth 64) (256 * line)
    exact ⟨⟨mem, l2, teams⟩, l1⟩
  case h_2 =>
    obtain ⟨⟨mem, l2, teams⟩, l1⟩ := s.free.2.free.2.free.2.free.2.countReq_sameStore core 1 (s.free.2.free.1.setWidth 32)
      (s.free.2.free.2.free.1.setWidth 64) (s.free.2.free.2.free.2.free.1.setWidth 64) (s.free.2.free.1.extractLsb' 32 32)
      (s.free.1.setWidth 64) (256 * line)
    exact ⟨⟨mem, l2, teams⟩, l1⟩

theorem State.writeBack_sameStore (s : State) (core line : Nat) (mask : ByteMask) (clk : W32) (awaits : List Await) :
    s.SameStore (s.writeBack core line mask clk awaits) ∧
    ∀ c i, ¬ (c = core ∧ i = line) → (s.writeBack core line mask clk awaits).l1 c i = s.l1 c i := by
  unfold State.writeBack
  split
  case h_1 => exact ⟨⟨rfl, rfl, rfl⟩, fun _ _ _ => rfl⟩
  case h_2 l _ => exact ⟨⟨rfl, rfl, rfl⟩, fun c i other => (State.l1_setL1 s core line _ c i).trans (if_neg other)⟩

theorem State.flushLine_sameStore (s : State) (core line : Nat) (awaits : List Await) :
    s.SameStore (s.flushLine core line awaits) ∧
    ∀ c i, ¬ (c = core ∧ i = line) → (s.flushLine core line awaits).l1 c i = s.l1 c i := by
  unfold State.flushLine
  split
  case h_1 => exact ⟨⟨rfl, rfl, rfl⟩, fun _ _ _ => rfl⟩
  case h_2 l _ =>
    split
    case isTrue => exact ⟨⟨rfl, rfl, rfl⟩, fun _ _ _ => rfl⟩
    case isFalse =>
      obtain ⟨counted, l1⟩ := s.countFlush_sameStore core line
      obtain ⟨sent, others⟩ := (s.countFlush core line).writeBack_sameStore core line (unsent l) l.dclk awaits
      exact ⟨counted.trans sent, fun c i other => (others c i other).trans (by rw [l1])⟩

theorem State.evictL1_sameStore (s : State) (core line : Nat) :
    s.SameStore (s.evictL1 core line) ∧ ∀ c i, (s.evictL1 core line).l1 c i = if c = core ∧ i = line then none else s.l1 c i := by
  unfold State.evictL1
  split
  case h_1 l _ =>
    obtain ⟨⟨mem, l2, teams⟩, others⟩ := s.flushLine_sameStore core line [.evict]
    refine ⟨⟨mem, l2, teams⟩, fun c i => (State.l1_dropL1 _ core line c i).trans ?_⟩
    split
    case isTrue => rfl
    case isFalse other => exact others c i other
  case h_2 absent =>
    refine ⟨⟨rfl, rfl, rfl⟩, fun c i => ?_⟩
    split
    case isTrue here => rw [here.1, here.2, absent]
    case isFalse => rfl

/-- Lines other than the named one stay, or leave the same L1. -/
def State.OthersStay (s t : State) (core line : Nat) : Prop :=
  ∀ c i, ¬ (c = core ∧ i = line) → t.l1 c i = s.l1 c i ∨ c = core ∧ t.l1 c i = none

theorem State.evictL1_others (s : State) (core victim line : Nat) : s.OthersStay (s.evictL1 core victim) core line := by
  intro c i _
  rw [(s.evictL1_sameStore core victim).2]
  split
  case isTrue here => exact .inr ⟨here.1, rfl⟩
  case isFalse => exact .inl rfl

theorem State.roomL1_others (s : State) (core line : Nat) :
    s.SameStore (s.roomL1 core line) ∧ s.OthersStay (s.roomL1 core line) core line := by
  have unchanged : s.SameStore s ∧ s.OthersStay s core line := ⟨⟨rfl, rfl, rfl⟩, fun _ _ _ => .inl rfl⟩
  unfold State.roomL1
  split
  case h_1 => exact unchanged
  case h_2 =>
    dsimp only
    split
    case isTrue => exact unchanged
    case isFalse =>
      split
      case h_1 e _ =>
        obtain ⟨mem, l2, teams⟩ := (s.free.2.evictL1_sameStore core e.1).1
        exact ⟨⟨mem, l2, teams⟩, s.free.2.evictL1_others core e.1 line⟩
      case h_2 => exact ⟨⟨rfl, rfl, rfl⟩, fun _ _ _ => .inl rfl⟩

/-- The line of a core's L1 as a page with a key finds it. -/
def State.heldL1 (s : State) (core line : Nat) (key : BitVec 6) : Option L1Line := (s.l1 core line).filter (fun l => l.key == key)

theorem State.takeL1_others (s : State) (core line : Nat) (key : BitVec 6) (part : Nat) (home2 : Bool) :
    s.SameStore (s.takeL1 core line key part home2).2 ∧ s.OthersStay (s.takeL1 core line key part home2).2 core line := by
  unfold State.takeL1
  split
  case h_1 =>
    split
    case isTrue => exact ⟨⟨rfl, rfl, rfl⟩, fun _ _ _ => .inl rfl⟩
    case isFalse => exact ⟨(s.evictL1_sameStore core line).1, s.evictL1_others core line line⟩
  case h_2 => exact s.roomL1_others core line

/-- A line is taken with the bytes that it holds, and is empty where it was absent. -/
theorem State.takeL1_line (s : State) (core line : Nat) (key : BitVec 6) (part : Nat) (home2 : Bool) :
    (∀ b, lineByte (s.takeL1 core line key part home2).1.data b = (s.heldL1 core line key).elim 0 (fun l => lineByte l.data b)) ∧
    ∀ b, (s.takeL1 core line key part home2).1.dirty.getLsbD b = (s.heldL1 core line key).elim false (fun l => l.dirty.getLsbD b) := by
  unfold State.takeL1 State.heldL1
  split
  case h_1 l found =>
    rw [found]
    by_cases same : l.key = key
    · simp [same, Option.filter]
    · simp [same, Option.filter, lineByte_zero]
  case h_2 absent => simp [absent, lineByte_zero]

/-- R113 for the L1: the line of a store holds its bytes over those that it had, dirty; the rest of the L1 stays or makes room. -/
theorem State.storeL1_effect (s : State) (core line : Nat) (key : BitVec 6) (part : Nat) (home2 : Bool) (wclk : W32) (data : Line)
    (mask : ByteMask) :
    s.SameStore (s.storeL1 core line key part home2 wclk data mask) ∧
    s.OthersStay (s.storeL1 core line key part home2 wclk data mask) core line ∧
    ∃ l, (s.storeL1 core line key part home2 wclk data mask).l1 core line = some l ∧ ∀ b, b < 256 →
      lineByte l.data b = (if mask.getLsbD b then lineByte data b else (s.heldL1 core line key).elim 0 (fun o => lineByte o.data b)) ∧
      l.dirty.getLsbD b = (mask.getLsbD b || (s.heldL1 core line key).elim false (fun o => o.dirty.getLsbD b)) := by
  obtain ⟨⟨mem, l2, teams⟩, others⟩ := s.takeL1_others core line key part home2
  obtain ⟨bytes, dirty⟩ := s.takeL1_line core line key part home2
  rcases taken : s.takeL1 core line key part home2 with ⟨l, t⟩
  rw [taken] at mem l2 teams others bytes dirty
  simp only [State.storeL1, taken]
  refine ⟨⟨mem, l2, teams⟩, fun c i other => ?_, _, (State.l1_setL1 t core line _ core line).trans (if_pos ⟨rfl, rfl⟩), fun b within => ⟨?_, ?_⟩⟩
  · rw [State.l1_setL1, if_neg other]
    exact others c i other
  · exact (lineByte_mergeLine _ _ _ within).trans (by rw [bytes])
  · exact BitVec.getLsbD_or.trans (by rw [dirty, Bool.or_comm])

/-! ## Teams under the first touch of a region -/

section
variable (s : State)

@[simp] theorem State.countLane_teams (g : Agent) (kind : Nat) (va : W64) (pa : Nat) : (s.countLane g kind va pa).teams = s.teams :=
  (s.countLane_sameStore g kind va pa).1.teams

@[simp] theorem State.hostTxn_teams (w : Who) (pa n : Nat) (write fill : Bool) (data : BitVec 512) (atom : Option AtomOp) (await : Await) :
    (s.hostTxn w pa n write fill data atom await).teams = s.teams := rfl

@[simp] theorem State.rollWindow_teams : s.rollWindow.teams = s.teams := by
  unfold State.rollWindow
  dsimp only
  split
  case isTrue => rfl
  case isFalse =>
    exact List.foldlRecOn (motive := fun u : State × Bool × Tab Belcy => u.1.teams = s.teams) s.belcy _ rfl fun u same e _ => by
      dsimp only
      split <;> exact same

@[simp] theorem State.noteSent_teams (core : Nat) : (s.noteSent core).teams = s.teams := by
  unfold State.noteSent
  split <;> rfl

@[simp] theorem State.sendPeer_teams (w : Who) (edge : W64) (pa n : Nat) (op : PeerOp) (await : Await) :
    (s.sendPeer w edge pa n op await).teams = s.teams := by
  unfold State.sendPeer State.sendPeerOn
  split
  case h_1 => rfl
  case h_2 => cases op <;> simp [State.admitBytes]

end

/-- The accesses that wait for each team's scratchpad are the same. -/
def State.KeepsArrays (s t : State) : Prop := ∀ k, (t.team k).map (·.array) = (s.team k).map (·.array)

theorem State.KeepsArrays.trans {s t u : State} (first : s.KeepsArrays t) (second : t.KeepsArrays u) : s.KeepsArrays u :=
  fun k => (second k).trans (first k)

theorem State.KeepsArrays.of_teams {s t : State} (same : t.teams = s.teams) : s.KeepsArrays t := fun k => by rw [State.team, State.team, same]

theorem State.KeepsArrays.foldl {α : Type} {f : State → α → State} (kept : ∀ (u : State) (a : α), u.KeepsArrays (f u a)) (s : State) (l : List α) :
    s.KeepsArrays (l.foldl f s) :=
  List.foldlRecOn (motive := fun u => s.KeepsArrays u) l f (fun _ => rfl) fun u same a _ => same.trans (kept u a)

theorem State.KeepsArrays.ite {c : Prop} [Decidable c] {s t u : State} (yes : s.KeepsArrays t) (no : s.KeepsArrays u) :
    s.KeepsArrays (if c then t else u) := by
  split
  case isTrue => exact yes
  case isFalse => exact no

theorem State.updTeam_keepsArrays (s : State) (tm : Nat) {f : Team → Team} (kept : ∀ t, (f t).array = t.array) : s.KeepsArrays (s.updTeam tm f) := by
  intro k
  rw [State.team_updTeam]
  split
  case isTrue => cases s.team k <;> simp [kept]
  case isFalse => rfl

theorem State.regionBytes_keepsArrays (s : State) (tm k line off n : Nat) (data : Line) (bad : ByteMask) :
    s.KeepsArrays (s.regionBytes tm k line off n data bad) := by
  unfold State.regionBytes
  split
  case h_1 => exact .of_teams rfl
  case h_2 =>
    split
    case h_1 => exact .of_teams rfl
    case h_2 =>
      refine s.updTeam_keepsArrays tm (fun t => ?_)
      simp only [Team.dropRegions]

theorem State.fillRegions_keepsArrays (s : State) (w : Who) (for_ : Option Agent) (c : W32) (edge : W64) (tm : Nat) (fills : List (Nat × Nat × Seg))
    {count : State → Seg → State} (counts : ∀ u sg, (count u sg).teams = u.teams) :
    s.KeepsArrays (s.fillRegions w for_ c edge tm fills count) := by
  refine State.KeepsArrays.foldl (fun u e => State.KeepsArrays.ite (.of_teams rfl) ?_) s fills
  have asked : ∀ ask, u.KeepsArrays (u.updTeam tm (fun t => { t with regions := Tab.upd t.regions e.1 ask })) :=
    fun ask => u.updTeam_keepsArrays tm (fun _ => rfl)
  dsimp only
  split
  case h_1 => exact (asked _).trans (.of_teams ((State.hostTxn_teams ..).trans (counts _ e.2.2)))
  case h_2 => exact (asked _).trans (State.KeepsArrays.foldl (fun v i => .of_teams ((State.sendPeer_teams ..).trans (counts v _))) _ _)
  case h_3 => exact ((asked _).trans (.of_teams (counts _ e.2.2))).trans (fun k => State.regionBytes_keepsArrays _ tm e.1 e.2.1 0 256 0 0 k)
  case h_4 => exact (asked _).trans (.of_teams (counts _ e.2.2))

theorem State.touchRegions_keepsArrays (s : State) (w : Who) (tm : Nat) (fills : List (Nat × Nat × Seg)) :
    s.KeepsArrays (s.touchRegions w tm fills) := by
  unfold State.touchRegions
  split
  case h_1 => exact s.fillRegions_keepsArrays _ _ _ _ _ _ (fun u sg => u.countLane_teams ..)
  case h_2 => exact .of_teams rfl

/-! ## The pieces of a scratchpad access -/

theorem byteEvents_within {off n : Nat} {c : Nat × Nat} (mem : c ∈ byteEvents off n) : c.1 + c.2 ≤ n := by
  unfold byteEvents at mem
  split at mem
  case isTrue => obtain rfl := List.mem_singleton.1 mem; omega
  case isFalse =>
    obtain ⟨k, low, rfl⟩ := List.mem_map.1 mem
    exact List.mem_range.1 low

theorem exists_mem_byteEvents (off : Nat) {n k : Nat} (within : k < n) : ∃ c ∈ byteEvents off n, c.1 ≤ k ∧ k < c.1 + c.2 := by
  unfold byteEvents
  split
  case isTrue => exact ⟨_, List.mem_singleton_self _, Nat.zero_le k, by omega⟩
  case isFalse => exact ⟨(k, 1), List.mem_map.2 ⟨k, List.mem_range.2 within, rfl⟩, Nat.le_refl k, Nat.lt_succ_self k⟩

/-- A list holds a piece of an access for each of some events, and nothing else. -/
def ArrayOp.PiecesOf (op : ArrayOp) (l : List (Nat × Nat)) (q : List ArrayOp) : Prop :=
  (∀ e ∈ q, ∃ id, ∃ c ∈ l, e = op.piece id c.1 c.2) ∧ ∀ c ∈ l, ∃ id, op.piece id c.1 c.2 ∈ q

theorem State.queueEvents_array {op : ArrayOp} {tm : Nat} (l : List (Nat × Nat)) {acc : Nat × State} {y : Team}
    (resident : acc.2.team tm = some y) :
    ∃ q, (l.foldl (fun acc e => (acc.1 + 1, acc.2.newId.2.queueArray tm (op.piece acc.2.newId.1 e.1 e.2))) acc).2.team tm =
      some { y with array := y.array ++ q } ∧ op.PiecesOf l q := by
  induction l generalizing acc y with
  | nil => exact ⟨[], by simp [resident], by simp [ArrayOp.PiecesOf]⟩
  | cons c l ih =>
    have one : (acc.2.newId.2.queueArray tm (op.piece acc.2.newId.1 c.1 c.2)).team tm =
        some { y with array := y.array ++ [op.piece acc.2.newId.1 c.1 c.2] } := by
      rw [State.queueArray, State.team_updTeam, if_pos rfl]
      exact congrArg (Option.map _) resident
    obtain ⟨q, queued, pieces, all⟩ := ih (acc := (acc.1 + 1, acc.2.newId.2.queueArray tm (op.piece acc.2.newId.1 c.1 c.2))) one
    refine ⟨op.piece acc.2.newId.1 c.1 c.2 :: q, ?_, fun e mem => ?_, fun d mem => ?_⟩
    · rw [List.foldl_cons, queued]
      simp
    · rcases List.mem_cons.1 mem with rfl | mem
      · exact ⟨_, c, List.mem_cons_self, rfl⟩
      · obtain ⟨id, d, listed, is⟩ := pieces e mem
        exact ⟨id, d, List.mem_cons_of_mem _ listed, is⟩
    · rcases List.mem_cons.1 mem with rfl | mem
      · exact ⟨_, List.mem_cons_self⟩
      · obtain ⟨id, listed⟩ := all d mem
        exact ⟨id, List.mem_cons_of_mem _ listed⟩

theorem State.queuePieces_array {s : State} {op : ArrayOp} {tm : Nat} {y : Team} (resident : s.team tm = some y) :
    ∃ q, (s.queuePieces tm op).2.team tm = some { y with array := y.array ++ q } ∧
      ({ op with first := s.nextId } : ArrayOp).PiecesOf (byteEvents op.off op.n) q :=
  State.queueEvents_array (byteEvents op.off op.n) (acc := (0, s)) resident

/-- R353: a store to a scratchpad is queued as pieces that hold its bytes, and between them all of them. -/
theorem State.toArray_store {s : State} {n : Iss} {tm : Nat} {y : Team} (resident : s.team tm = some y) (lane off size : Nat)
    (fills : List (Nat × Nat × Seg)) (data : BitVec 128) (cnt : Counter) (owner : Nat) :
    ∃ y' q, (s.toArray n lane tm off size fills (.store data) cnt owner).2.team tm = some y' ∧ y'.array = y.array ++ q ∧
      (∀ e ∈ q, off ≤ e.off ∧ e.off + e.n ≤ off + size ∧ e.kind = .store (data >>> (8 * (e.off - off))) ∧ e.agent = n.w.g) ∧
      ∀ k, k < size → ∃ e ∈ q, e.off ≤ off + k ∧ off + k < e.off + e.n := by
  have kept := s.touchRegions_keepsArrays n.w tm fills tm
  rw [resident] at kept
  obtain ⟨z, touched, array⟩ := Option.map_eq_some_iff.1 kept
  obtain ⟨q, queued, pieces, all⟩ := State.queuePieces_array (op := {
    id := 0, agent := n.w.g, lane := lane, team := tm, off := off, n := size, kind := .store data, cnt := cnt, owner := owner, pc := n.pc
    blame := if n.uni then n.lanes else 0 }) touched
  refine ⟨_, q, queued, by rw [array], fun e mem => ?_, fun k within => ?_⟩
  · obtain ⟨id, c, listed, rfl⟩ := pieces e mem
    have inside := byteEvents_within listed
    simp only [ArrayOp.piece] at inside ⊢
    exact ⟨by omega, by omega, by rw [Nat.add_sub_cancel_left], trivial⟩
  · obtain ⟨c, listed, low, high⟩ := exists_mem_byteEvents off within
    obtain ⟨id, mem⟩ := all c listed
    refine ⟨_, mem, ?_, ?_⟩
    · simp only [ArrayOp.piece]; omega
    · simp only [ArrayOp.piece]; omega

/-! ## A piece that a scratchpad array performs -/

/-- The bytes of memory and of every scratchpad are the same. -/
structure State.SameBytes (s t : State) : Prop where
  mem : t.mem = s.mem
  scr : ∀ k, (t.team k).map (·.scr) = (s.team k).map (·.scr)

theorem State.SameBytes.refl (s : State) : s.SameBytes s := ⟨rfl, fun _ => rfl⟩

theorem State.SameBytes.trans {s t u : State} (first : s.SameBytes t) (second : t.SameBytes u) : s.SameBytes u :=
  ⟨second.mem.trans first.mem, fun k => (second.scr k).trans (first.scr k)⟩

theorem State.updTeam_sameBytes (s : State) (tm : Nat) {f : Team → Team} (kept : ∀ t, (f t).scr = t.scr) : s.SameBytes (s.updTeam tm f) := by
  refine ⟨rfl, fun k => ?_⟩
  rw [State.team_updTeam]
  split
  case isTrue => cases s.team k <;> simp [kept]
  case isFalse => rfl

theorem State.updCtx_sameBytes (s : State) (g : Agent) (f : Ctx → Ctx) : s.SameBytes (s.updCtx g f) := by
  cases g with
  | warp w => exact ⟨rfl, fun _ => rfl⟩
  | ct t => exact s.updTeam_sameBytes t (fun _ => rfl)

theorem Ctx.storeDone_storeBad (c : Ctx) (id : Nat) : (c.storeDone id).storeBad = c.storeBad := by
  unfold Ctx.storeDone
  split
  case h_1 => rfl
  case h_2 => split <;> rfl

/-- A store none of whose writes was refused completes without a byte changed. -/
theorem State.storeDone_sameBytes (s : State) (g : Agent) (id : Nat) (unrefused : ∀ c, s.ctx g = some c → Tab.find c.storeBad id = none) :
    s.SameBytes (s.storeDone g id) := by
  have counted := s.updCtx_sameBytes g (fun c => c.storeDone id)
  simp only [State.storeDone, State.ctx_updCtx]
  split
  case h_1 => exact counted
  case h_2 c found =>
    obtain ⟨d, before, rfl⟩ := Option.map_eq_some_iff.1 found
    split
    case isTrue => exact counted
    case isFalse =>
      rw [Ctx.storeDone_storeBad, unrefused d before]
      exact counted.trans (State.updTeam_sameBytes _ _ (fun _ => rfl))

theorem State.leaveClock_sameBytes (s : State) (tm off n : Nat) (clk : W32) : s.SameBytes (s.leaveClock tm off n clk) :=
  s.updTeam_sameBytes tm (fun _ => rfl)

/-- What an access to an array does before it stores: it leaves the queue, and the range locks let it in. -/
def State.letArray (s : State) (tm : Nat) (o : ArrayOp) : State :=
  (s.updTeam tm (fun t => { t with array := t.array.filter (fun e => e.id != o.id) })).updTeam tm (fun t => t.letIn o.first)

theorem State.letArray_sameBytes (s : State) (tm : Nat) (o : ArrayOp) : s.SameBytes (s.letArray tm o) :=
  (s.updTeam_sameBytes tm (f := fun t => { t with array := t.array.filter (fun e => e.id != o.id) }) (fun _ => rfl)).trans
    (State.updTeam_sameBytes _ tm (f := fun t => t.letIn o.first) (fun _ => rfl))

theorem State.letArray_ctx (s : State) (tm : Nat) (o : ArrayOp) (g : Agent) : (s.letArray tm o).ctx g = s.ctx g :=
  (State.ctx_updTeam _ tm (fun t => t.letIn o.first) (fun _ => rfl) g).trans
    (s.ctx_updTeam tm (fun t => { t with array := t.array.filter (fun e => e.id != o.id) }) (fun _ => rfl) g)

theorem State.leaveClock_ctx (s : State) (tm off n : Nat) (clk : W32) (g : Agent) : (s.leaveClock tm off n clk).ctx g = s.ctx g :=
  s.ctx_updTeam tm _ (by intro; rfl) g

theorem State.writeScratch_ctx (s : State) (tm off n v : Nat) (clk : W32) (g : Agent) : (s.writeScratch tm off n v clk).ctx g = s.ctx g :=
  s.ctx_updTeam tm _ (by intro; rfl) g

theorem State.performArray_of_store {s : State} {tm : Nat} {o : ArrayOp} {data : BitVec 128} (kind : o.kind = .store data)
    (free : s.arrayLocked tm o = false) :
    ∃ u clk, s.performArray tm o = (u.writeScratch tm o.off o.n data.toNat clk).storeDone o.agent o.owner ∧ s.SameBytes u ∧
      ∀ g, u.ctx g = s.ctx g := by
  have unlocked : (s.updTeam tm (fun t => { t with array := t.array.filter (fun e => e.id != o.id) })).arrayLocked tm o = false := free
  have reads : o.reads = false := by simp only [ArrayOp.reads, kind]
  have stores : o.stores = true := by simp only [ArrayOp.stores, kind]
  have bytes := s.letArray_sameBytes tm o
  have ctx := s.letArray_ctx tm o
  cases clocked : (s.letArray tm o).ctx o.agent with
  | none =>
    refine ⟨s.letArray tm o, 0, ?_, bytes, ctx⟩
    unfold State.letArray at clocked
    simp only [State.performArray, unlocked, reads, stores, kind, clocked, Bool.false_eq_true, if_false, if_true, State.letArray]
  | some c =>
    refine ⟨(s.letArray tm o).leaveClock tm o.off o.n c.wclk, c.wclk, ?_, bytes.trans (State.leaveClock_sameBytes ..), fun g => ?_⟩
    · have still : ((s.letArray tm o).leaveClock tm o.off o.n c.wclk).ctx o.agent = some c :=
        (State.leaveClock_ctx ..).trans clocked
      unfold State.letArray at clocked still
      simp only [State.performArray, unlocked, reads, stores, kind, clocked, still, Bool.false_eq_true, if_false, if_true, State.letArray]
    · exact (State.leaveClock_ctx ..).trans (ctx g)

theorem Mem.read_writeN {m : Mem} (canonical : Memory.wf m = true) (off n v a : Nat) :
    Mem.read (Mem.writeN m off n v) a = if off ≤ a ∧ a < off + n then BitVec.ofNat 8 (v >>> (8 * (a - off))) else Mem.read m a := by
  split
  case isTrue inside =>
    obtain ⟨i, rfl⟩ := Nat.exists_eq_add_of_le inside.1
    rw [Mem.read_writeN_inside canonical off n v i (by omega), Nat.add_sub_cancel_left, Nat.shiftRight_eq_div_pow, Nat.pow_mul]
  case isFalse outside => exact Mem.read_writeN_outside canonical off n v a (by omega)

theorem State.team_writeScratch (s : State) (tm off n v : Nat) (clk : W32) (k : Nat) :
    ((s.writeScratch tm off n v clk).team k).map (·.scr) =
      if k = tm then (s.team k).map (fun y => Mem.writeN y.scr off n v) else (s.team k).map (·.scr) := by
  rw [State.writeScratch, State.team_updTeam]
  split
  case isTrue => cases s.team k <;> rfl
  case isFalse => rfl

/-- R353: a piece of a store that no range lock stops leaves its bytes in the scratchpad, and no other byte changes. -/
theorem State.performArray_store {s : State} {tm : Nat} {y : Team} {o : ArrayOp} {data : BitVec 128} (resident : s.team tm = some y)
    (canonical : Memory.wf y.scr = true) (kind : o.kind = .store data) (free : s.arrayLocked tm o = false)
    (unrefused : ∀ c, s.ctx o.agent = some c → Tab.find c.storeBad o.owner = none) :
    ∃ y', (s.performArray tm o).team tm = some y' ∧ Memory.wf y'.scr = true ∧ (s.performArray tm o).mem = s.mem ∧
      (∀ a, Mem.read y'.scr a = if o.off ≤ a ∧ a < o.off + o.n then BitVec.ofNat 8 (data.toNat >>> (8 * (a - o.off))) else Mem.read y.scr a) ∧
      ∀ k, k ≠ tm → ((s.performArray tm o).team k).map (·.scr) = (s.team k).map (·.scr) := by
  obtain ⟨u, clk, performed, ⟨mem, scr⟩, ctx⟩ := State.performArray_of_store kind free
  have done := State.storeDone_sameBytes (u.writeScratch tm o.off o.n data.toNat clk) o.agent o.owner
    (fun c found => unrefused c ((ctx _).symm.trans ((u.writeScratch_ctx ..).symm.trans found)))
  rw [← performed] at done
  have left : ((s.performArray tm o).team tm).map (·.scr) = some (Mem.writeN y.scr o.off o.n data.toNat) := by
    rw [done.scr, State.team_writeScratch, if_pos rfl]
    have before := scr tm
    rw [resident] at before
    obtain ⟨z, there, same⟩ := Option.map_eq_some_iff.1 before
    rw [there, Option.map_some, same]
  obtain ⟨y', there, bytes⟩ := Option.map_eq_some_iff.1 left
  refine ⟨y', there, ?_, done.mem.trans mem, fun a => ?_, fun k other => ?_⟩
  · rw [bytes]; exact Mem.writeN_wf _ _ _ canonical
  · rw [bytes]; exact Mem.read_writeN canonical ..
  · rw [done.scr, State.team_writeScratch, if_neg other, scr]

/-! ## The obligation -/

/-- A piece of a store to a leased page goes to its line of the L1. -/
theorem State.storeSeg_of_leased {s : State} {w : Who} {sg : Seg} {h : Nat} {h2 : Bool} {c : Ctx} (leased : targetOf sg.pa sg.leaf = .leased h h2)
    (resident : s.ctx w.g = some c) (id lane : Nat) (pc : W64) (data : Nat) :
    (s.storeSeg w id lane pc sg data false).2 = s.storeL1 w.core (sg.pa / 256) (pteKey sg.leaf) w.part h2 c.wclk
      (lineOf (sg.pa % 256) ((data >>> (8 * sg.pos)) % 2 ^ (8 * sg.n))) (byteRange (sg.pa % 256) sg.n) := by
  simp only [State.storeSeg, resident, leased, Bool.false_eq_true, if_false]

/-- Settles O44: the L1 through `State.storeL1_effect`, the scratchpad through `State.toArray_store` and `State.performArray_store`. -/
theorem storedBytes : Obligations.StoredBytes := by
  unfold Obligations.StoredBytes
  rintro x s n j rfl
  refine ⟨fun va segs res => ?_, fun tm off fills res => ?_, fun tm y o data resident canonical kind free unrefused =>
    State.performArray_store resident canonical kind free unrefused⟩
  · obtain ⟨address, covers⟩ := State.laneRes_eq_glob (memSize_le n.x) res
    refine ⟨address, covers, fun sg _ h h2 c data id pc leased resident => ?_⟩
    rw [State.storeSeg_of_leased leased resident]
    obtain ⟨⟨mem, l2, teams⟩, others, l, found, bytes⟩ := s.storeL1_effect n.w.core (sg.pa / 256) (pteKey sg.leaf) n.w.part h2 c.wclk
      (lineOf (sg.pa % 256) ((data >>> (8 * sg.pos)) % 2 ^ (8 * sg.n))) (byteRange (sg.pa % 256) sg.n)
    refine ⟨mem, l2, teams, ⟨l, found, fun b within => ?_⟩, fun core' line' other => others core' line' (fun same => other (by rw [same.1, same.2]))⟩
    obtain ⟨data_, dirty⟩ := bytes b within
    rw [getLsbD_byteRange _ _ within] at data_ dirty
    refine ⟨?_, dirty⟩
    rw [data_]
    dsimp only
    by_cases stored : sg.pa % 256 ≤ b ∧ b < sg.pa % 256 + sg.n
    · rw [if_pos (decide_eq_true stored), if_pos (decide_eq_true stored), lineByte_lineOf_piece within stored.1 stored.2]
    · rw [if_neg (by simpa using stored), if_neg (by simpa using stored)]
      rfl
  · obtain ⟨address, y, resident⟩ := State.laneRes_eq_sp res
    refine ⟨address, fun data id => ?_⟩
    obtain ⟨y', q, queued⟩ := State.toArray_store (n := n) resident j off (memSize n.x) fills data .st id
    exact ⟨y, y', q, resident, queued⟩

end Sys2Proof.Machine
end

section
/-!
PROOFS. That every step keeps the canonical form of memory (O59) rests on one lemma about each operation of the state that a step can
reach: `_mem` says that it leaves memory as it is, `_wf` that it leaves canonical memory canonical. They stand in the order of the model's
files; first, what a fold, a pair and a choice leave.
-/

namespace Sys2Proof.Machine

theorem State.foldl_mem {s : State} {α : Type} {f : State → α → State} {l : List α} (kept : ∀ u a, (f u a).mem = u.mem) :
    (l.foldl f s).mem = s.mem :=
  List.foldlRecOn (motive := fun u => u.mem = s.mem) l f rfl fun u same a _ => (kept u a).trans same

theorem State.foldl_pair_mem {s : State} {α β : Type} {n : β} {f : β × State → α → β × State} {l : List α} (kept : ∀ u a, (f u a).2.mem = u.2.mem) :
    (l.foldl f (n, s)).2.mem = s.mem :=
  List.foldlRecOn (motive := fun u => u.2.mem = s.mem) l f rfl fun u same a _ => (kept u a).trans same

theorem snd_mem {α : Type} {x : α × State} {a : α} {t : State} (found : x = (a, t)) : t.mem = x.2.mem := by rw [found]

theorem State.foldl_pair_wf {s : State} {α β : Type} {n : β} {f : β × State → α → β × State} {l : List α} (wf : Memory.wf s.mem = true)
    (kept : ∀ u : β × State, Memory.wf u.2.mem = true → ∀ a, Memory.wf (f u a).2.mem = true) : Memory.wf (l.foldl f (n, s)).2.mem = true :=
  List.foldlRecOn (motive := fun u => Memory.wf u.2.mem = true) l f wf fun u same a _ => kept u same a

theorem State.foldl_wf {s : State} {α : Type} {f : State → α → State} {l : List α} (wf : Memory.wf s.mem = true)
    (kept : ∀ u, Memory.wf u.mem = true → ∀ a, Memory.wf (f u a).mem = true) : Memory.wf (l.foldl f s).mem = true :=
  List.foldlRecOn (motive := fun u => Memory.wf u.mem = true) l f wf fun u same a _ => kept u same a

theorem State.ite_wf {p : Prop} [Decidable p] {a b : State} (yes : p → Memory.wf a.mem = true) (no : ¬ p → Memory.wf b.mem = true) :
    Memory.wf (if p then a else b).mem = true := by
  split
  next h => exact yes h
  next h => exact no h

theorem State.peerTake_wf {s : State} {id : Nat} {f : State → PeerWait → State} (wf : Memory.wf s.mem = true)
    (kept : ∀ u p, Memory.wf u.mem = true → Memory.wf (f u p).mem = true) : Memory.wf (s.peerTake id f).mem = true := by
  unfold State.peerTake
  split
  · exact wf
  · exact kept _ _ wf

end Sys2Proof.Machine
end

section
/-!
PROOFS. What the operations of Sys2Proof/Machine/Homes.lean leave of memory.
-/

namespace Sys2Proof.Machine

@[simp] theorem State.setHome_mem (s : State) (k : Nat) (h : Home) :
    (s.setHome k h).mem = s.mem := rfl

@[simp] theorem State.setPart_mem (s : State) (p : Nat) (x : Part) :
    (s.setPart p x).mem = s.mem := rfl

@[simp] theorem State.logError_mem (s : State) (k pa : Nat) :
    (s.logError k pa).mem = s.mem := rfl

@[simp] theorem State.sweepFirst_mem (s : State) (k line : Nat) :
    (s.sweepFirst k line).mem = s.mem := by
  unfold State.sweepFirst
  split
  · split <;> rfl
  · rfl

@[simp] theorem State.writeLine_wf (s : State) (line : Nat) (data : Line) (mask : ByteMask) (wf : Memory.wf s.mem = true) :
    Memory.wf (s.writeLine line data mask).mem = true := by
  unfold State.writeLine
  dsimp only
  apply Mem.writeMasked_wf
  split
  · exact Mem.writeMasked_wf _ _ _ 0 256 wf
  · exact wf

@[simp] theorem State.writeRaw_wf (s : State) (line : Nat) (key : BitVec 6) (data : Line) (mask : ByteMask) (wf : Memory.wf s.mem = true) :
    Memory.wf (s.writeRaw line key data mask).mem = true := by
  simp only [State.writeRaw, State.setPoison_mem]
  exact Mem.writeMasked_wf _ _ _ 0 256 (Mem.writeMasked_wf _ _ _ 0 256 wf)

@[simp] theorem State.wayAmong_mem (s : State) (k line : Nat) (ways : List Nat) :
    (s.wayAmong k line ways).2.mem = s.mem := by
  unfold State.wayAmong
  dsimp only
  split
  · rfl
  · split <;> rfl

@[simp] theorem State.findWay_mem (s : State) (k line part : Nat) :
    (s.findWay k line part).2.mem = s.mem := by
  unfold State.findWay
  split
  next _ _ t found => simp [snd_mem found]
  next _ t found =>
    split
    next _ _ v later => simp [snd_mem found, snd_mem later]
    next _ v later => simp [snd_mem found, snd_mem later]

@[simp] theorem State.fetchLine_mem (s : State) (k line : Nat) (key : BitVec 6) (part : Nat) (home2 : Bool) :
    (s.fetchLine k line key part home2).mem = s.mem := by
  unfold State.fetchLine
  dsimp only
  split
  · split
    · rfl
    · dsimp only
      split <;> simp
  · dsimp only
    split <;> simp

@[simp] theorem State.homeWrite_wf (s : State) (k line : Nat) (key : BitVec 6) (part : Nat) (home2 : Bool) (c : W32) (data : Line) (mask bad : ByteMask) (wf : Memory.wf s.mem = true) :
    Memory.wf (s.homeWrite k line key part home2 c data mask bad).2.mem = true := by
  unfold State.homeWrite
  dsimp only
  split <;> simp [wf]

@[simp] theorem State.snoop_mem (s : State) (line : Nat) (invalidate forWrite : Bool) :
    (s.snoop line invalidate forWrite).mem = s.mem := by
  unfold State.snoop
  split
  · split <;> rfl
  · rfl

theorem State.clearHost_mem (s : State) (line : Nat) (key : BitVec 6) (part : Nat) (write : Bool) :
    ∀ t, s.clearHost line key part write = some t → t.mem = s.mem := by
  unfold State.clearHost
  dsimp only
  split
  · split
    · split <;> simp
    · simp
  · split <;> simp

@[simp] theorem State.ownReq_mem (s : State) (line : Nat) (key : BitVec 6) (home2 : Bool) (kind : ReqKind) (await : Await) :
    (s.ownReq line key home2 kind await).mem = s.mem := rfl

@[simp] theorem State.ownStore_wf (s : State) (k line : Nat) (key : BitVec 6) (home2 : Bool) (data : Line) (mask : ByteMask) (await : Await) (wf : Memory.wf s.mem = true) :
    Memory.wf (s.ownStore k line key home2 data mask await).2.mem = true := by
  unfold State.ownStore
  split
  · simp [wf]
  next _ _ t found => simp [State.clearHost_mem _ _ _ _ _ _ found, wf]
  · simp [wf]

@[simp] theorem State.ownPerform_wf (s : State) (k line : Nat) (key : BitVec 6) (off : Nat) (o : OwnOp) (wf : Memory.wf s.mem = true) :
    Memory.wf (s.ownPerform k line key off o).mem = true := by simp [State.ownPerform, wf]

@[simp] theorem State.ownAtomic_wf (s : State) (pa : Nat) (key : BitVec 6) (o : OwnOp) (wf : Memory.wf s.mem = true) :
    Memory.wf (s.ownAtomic pa key o).mem = true := by
  unfold State.ownAtomic
  split
  · simp [wf]
  · split
    · simp [wf]
    next _ _ t found => simp [State.clearHost_mem _ _ _ _ _ _ found, wf]
    · simp [wf]

@[simp] theorem State.logStray_mem (s : State) (pa : Nat) :
    (s.logStray pa).mem = s.mem := rfl

end Sys2Proof.Machine
end

section
/-!
PROOFS. What the operations of Sys2Proof/Machine/Routes.lean leave of memory.
-/

namespace Sys2Proof.Machine

@[simp] theorem State.setLink_mem (s : State) (n : Nat) (l : Link) :
    (s.setLink n l).mem = s.mem := rfl

end Sys2Proof.Machine
end

section
/-!
PROOFS. What the operations of Sys2Proof/Machine/Walk.lean leave of memory.
-/

namespace Sys2Proof.Machine

@[simp] theorem State.logMaybe_mem (s : State) (stray : Option Nat) :
    (s.logMaybe stray).mem = s.mem := by
  unfold State.logMaybe
  split <;> rfl

@[simp] theorem State.installTlb_mem (s : State) (core : Nat) (e : TlbEntry) :
    (s.installTlb core e).mem = s.mem := rfl

@[simp] theorem State.installWalk_mem (s : State) (die : Nat) (asid : W16) (read : List (Nat × W64)) :
    (s.installWalk die asid read).mem = s.mem := by
  unfold State.installWalk
  refine State.foldl_mem (fun u a => ?_)
  rfl

@[simp] theorem State.setAd_wf (s : State) (w : Walked) (access : Access) (handler : Bool) (wf : Memory.wf s.mem = true) :
    Memory.wf (s.setAd w access handler).2.mem = true := by
  unfold State.setAd
  dsimp only
  split <;> simp [wf]

@[simp] theorem State.walkNow_wf (s : State) (core : Nat) (asid : W16) (va : W64) (access : Access) (handler : Bool) (wf : Memory.wf s.mem = true) :
    Memory.wf (s.walkNow core asid va access handler).mem = true := by
  unfold State.walkNow
  dsimp only
  split
  · split <;> simp [wf]
  · simp [wf]
  · simp [wf]

@[simp] theorem State.rehome_mem (s : State) (pa : Nat) (leaf : W64) :
    (s.rehome pa leaf).mem = s.mem := by
  unfold State.rehome
  dsimp only
  split
  · split
    · rfl
    · split
      · rfl
      · simp
  · rfl

@[simp] theorem State.hwTouch_wf (s : State) (die : Nat) (asid : W16) (part : Nat) (va : W64) (n : Nat) (access : Access) (handler : Bool) (wf : Memory.wf s.mem = true) :
    Memory.wf (s.hwTouch die asid part va n access handler).mem = true := by
  unfold State.hwTouch
  dsimp only
  split
  · split
    · simp [wf]
    · split <;> simp [wf]
  · split <;> simp [wf]
  · simp [wf]

end Sys2Proof.Machine
end

section
/-!
PROOFS. What the operations of Sys2Proof/Machine/Regs.lean leave of memory.
-/

namespace Sys2Proof.Machine

@[simp] theorem State.writeSr_mem (s : State) (g : Agent) (lane idx : Nat) (v : W64) :
    (s.writeSr g lane idx v).mem = s.mem := by
  unfold State.writeSr
  split
  · rfl
  · split
    · split <;> rfl
    · simp
    · rfl
    · simp
    · rfl
    · split <;> rfl
    · rfl
    · rfl

@[simp] theorem State.putReg_mem (s : State) (g : Agent) (spec : Option Nat) (w : RegWrite) :
    (s.putReg g spec w).mem = s.mem := by
  unfold State.putReg
  dsimp only
  split
  · simp
  · rfl
  · split <;> rfl

@[simp] theorem State.putRegs_mem (s : State) (g : Agent) (spec : Option Nat) (ws : List RegWrite) :
    (s.putRegs g spec ws).mem = s.mem := by
  unfold State.putRegs
  refine State.foldl_mem (fun u a => ?_)
  simp

@[simp] theorem State.landIn_mem (s : State) (g : Agent) (lanes : Mask) : (s.landIn g lanes).mem = s.mem := by
  unfold State.landIn
  split
  · rfl
  · dsimp only
    rw [State.updCtx_mem]
    exact State.foldl_mem (fun u l => State.putRegs_mem ..)

@[simp] theorem State.addLanding_mem (s : State) (g : Agent) (due : Nat) (lanes : Mask) (ws : List RegWrite) (spec : Option Nat) :
    (s.addLanding g due lanes ws spec).mem = s.mem := by
  unfold State.addLanding
  dsimp only
  split
  · rfl
  · split <;> rfl

@[simp] theorem State.setPcs_mem (s : State) (g : Agent) (lanes : List Nat) (tgt : W64) :
    (s.setPcs g lanes tgt).mem = s.mem := by
  unfold State.setPcs
  split
  · rfl
  · split <;> rfl

end Sys2Proof.Machine
end

section
/-!
PROOFS. What the operations of Sys2Proof/Machine/Cache.lean leave of memory.
-/

namespace Sys2Proof.Machine

@[simp] theorem State.send_mem (s : State) (src : Src) (core line : Nat) (key : BitVec 6) (part : Nat) (home2 : Bool) (c : W32) (kind : ReqKind) (awaits : List Await) :
    (s.send src core line key part home2 c kind awaits).mem = s.mem := rfl

@[simp] theorem State.countReq_mem (s : State) (core kind : Nat) (issuer : W32) (pc cpc : W64) (csn : W32) (va : W64) (pa : Nat) :
    (s.countReq core kind issuer pc cpc csn va pa).mem = s.mem := by
  unfold State.countReq
  dsimp only
  split
  · rfl
  · split <;> rfl

@[simp] theorem State.countLane_mem (s : State) (g : Agent) (kind : Nat) (va : W64) (pa : Nat) :
    (s.countLane g kind va pa).mem = s.mem := by
  unfold State.countLane
  split
  · rfl
  · split
    · simp
    · rfl

@[simp] theorem State.countFlushAt_mem (s : State) (core pa : Nat) :
    (s.countFlushAt core pa).mem = s.mem := by
  unfold State.countFlushAt
  dsimp only
  split <;> simp

@[simp] theorem State.countFlush_mem (s : State) (core line : Nat) :
    (s.countFlush core line).mem = s.mem := by simp [State.countFlush]

@[simp] theorem State.setL1_mem (s : State) (core line : Nat) (x : L1Line) :
    (s.setL1 core line x).mem = s.mem := rfl

@[simp] theorem State.dropL1_mem (s : State) (core line : Nat) :
    (s.dropL1 core line).mem = s.mem := rfl

@[simp] theorem State.writeBack_mem (s : State) (core line : Nat) (mask : ByteMask) (clk : W32) (awaits : List Await) :
    (s.writeBack core line mask clk awaits).mem = s.mem := by
  unfold State.writeBack
  dsimp only
  split <;> rfl

@[simp] theorem State.flushLine_mem (s : State) (core line : Nat) (awaits : List Await) :
    (s.flushLine core line awaits).mem = s.mem := by
  unfold State.flushLine
  split
  · rfl
  · split
    · rfl
    · simp

@[simp] theorem State.flushAll_mem (s : State) (core : Nat) (awaits : List Await) :
    (s.flushAll core awaits).mem = s.mem := by
  unfold State.flushAll
  refine State.foldl_mem (fun u a => ?_)
  simp

@[simp] theorem State.noteEvicted_mem (s : State) (core line : Nat) (l : L1Line) :
    (s.noteEvicted core line l).mem = s.mem := rfl

@[simp] theorem State.evictL1_mem (s : State) (core line : Nat) :
    (s.evictL1 core line).mem = s.mem := by
  unfold State.evictL1
  split
  · simp
  · rfl

@[simp] theorem State.roomL1_mem (s : State) (core line : Nat) :
    (s.roomL1 core line).mem = s.mem := by
  unfold State.roomL1
  dsimp only
  split
  · rfl
  · split
    · rfl
    · split
      · simp
      · rfl

@[simp] theorem State.takeL1_mem (s : State) (core line : Nat) (key : BitVec 6) (part : Nat) (home2 : Bool) :
    (s.takeL1 core line key part home2).2.mem = s.mem := by
  unfold State.takeL1
  split
  · split
    · rfl
    · simp
  · simp

@[simp] theorem State.storeL1_mem (s : State) (core line : Nat) (key : BitVec 6) (part : Nat) (home2 : Bool) (wclk : W32) (data : Line) (mask : ByteMask) :
    (s.storeL1 core line key part home2 wclk data mask).mem = s.mem := by simp [State.storeL1]

@[simp] theorem State.updFlight_mem (s : State) (g : Agent) (id : Nat) (f : Flight → Flight) :
    (s.updFlight g id f).mem = s.mem := by simp [State.updFlight]

@[simp] theorem State.bytesIn_mem (s : State) (g : Agent) (id lane pos n v : Nat) :
    (s.bytesIn g id lane pos n v).mem = s.mem := by simp [State.bytesIn]

@[simp] theorem State.badIn_mem (s : State) (g : Agent) (id lane : Nat) (c : Cause) :
    (s.badIn g id lane c).mem = s.mem := by simp [State.badIn]

@[simp] theorem State.missIn_mem (s : State) (g : Agent) (id : Nat) :
    (s.missIn g id).mem = s.mem := by simp [State.missIn]

@[simp] theorem State.pieceIn_mem (s : State) (g : Agent) (id : Nat) :
    (s.pieceIn g id).mem = s.mem := by simp [State.pieceIn]

@[simp] theorem State.raiseClk_mem (s : State) (g : Agent) (t : W32) :
    (s.raiseClk g t).mem = s.mem := by simp [State.raiseClk]

@[simp] theorem State.raiseEclk_mem (s : State) (core : Nat) (t : W32) :
    (s.raiseEclk core t).mem = s.mem := rfl

@[simp] theorem State.writeScratch_mem (s : State) (t off n v : Nat) (clk : W32) :
    (s.writeScratch t off n v clk).mem = s.mem := rfl

@[simp] theorem State.queueArray_mem (s : State) (team : Nat) (op : ArrayOp) :
    (s.queueArray team op).mem = s.mem := rfl

@[simp] theorem State.queuePieces_mem (s : State) (team : Nat) (op : ArrayOp) :
    (s.queuePieces team op).2.mem = s.mem := by
  unfold State.queuePieces
  refine State.foldl_pair_mem (fun u a => ?_)
  rfl

@[simp] theorem State.queueUnit_mem (s : State) (team : Nat) (k : UnitKind) :
    (s.queueUnit team k).mem = s.mem := rfl

end Sys2Proof.Machine
end

section
/-!
PROOFS. What the operations of Sys2Proof/Machine/RegBlock.lean leave of memory.
-/

namespace Sys2Proof.Machine

@[simp] theorem State.tally_mem (s : State) (p : Nat) :
    (s.tally p).mem = s.mem := rfl

@[simp] theorem State.retime_mem (s : State) (p : Nat) :
    (s.retime p).mem = s.mem := rfl

@[simp] theorem State.restartSamples_mem (s : State) (p : Nat) :
    (s.restartSamples p).mem = s.mem := rfl

@[simp] theorem State.setLevel_mem (s : State) (p cause level : Nat) :
    (s.setLevel p cause level).mem = s.mem := rfl

@[simp] theorem State.raiseStep_mem (s : State) (n rate : Nat) :
    (s.raiseStep n rate).mem = s.mem := by
  unfold State.raiseStep
  dsimp only
  split <;> rfl

@[simp] theorem State.writePin_mem (s : State) (n : Nat) (v : W64) :
    (s.writePin n v).mem = s.mem := by
  unfold State.writePin
  dsimp only
  split
  · rfl
  · split
    · rfl
    · split
      · simp
      · split <;> rfl

@[simp] theorem State.setQueue_mem (s : State) (q : Nat) (x : Queue) :
    (s.setQueue q x).mem = s.mem := rfl

@[simp] theorem State.writeQ0_mem (s : State) (q : Nat) (v : W64) :
    (s.writeQ0 q v).mem = s.mem := by
  unfold State.writeQ0
  dsimp only
  split
  · rfl
  · split <;> rfl

@[simp] theorem State.writeQ1_mem (s : State) (q : Nat) (v : W64) :
    (s.writeQ1 q v).mem = s.mem := by
  unfold State.writeQ1
  dsimp only
  split <;> rfl

@[simp] theorem State.post_mem (s : State) (q off size : Nat) (v : W64) :
    (s.post q off size v).mem = s.mem := by
  unfold State.post
  dsimp only
  split
  · split
    · rfl
    · split <;> rfl
  · split
    · rfl
    · split <;> rfl

@[simp] theorem State.writePart0_mem (s : State) (p : Nat) (v : W64) :
    (s.writePart0 p v).mem = s.mem := by
  unfold State.writePart0
  dsimp only
  split
  · rfl
  · split
    · rfl
    · split <;> rfl

@[simp] theorem State.writePart_mem (s : State) (p off : Nat) (v : W64) :
    (s.writePart p off v).mem = s.mem := by
  unfold State.writePart
  dsimp only
  split
  · simp
  · split <;> rfl
  · split <;> rfl
  · split <;> rfl
  · split <;> rfl
  · split <;> rfl
  · split <;> rfl
  · rfl
  · rfl
  · rfl

@[simp] theorem State.writeKeyctl_mem (s : State) (v : W64) :
    (s.writeKeyctl v).mem = s.mem := by
  unfold State.writeKeyctl
  dsimp only
  split <;> rfl

@[simp] theorem State.askPreempt_mem (s : State) (t : Nat) :
    (s.askPreempt t).mem = s.mem := by
  unfold State.askPreempt
  dsimp only
  split
  · rfl
  · split <;> rfl

@[simp] theorem State.goPreempt_mem (s : State) (p : Nat) (minRank : BitVec 3) :
    (s.goPreempt p minRank).mem = s.mem := by
  unfold State.goPreempt
  dsimp only
  split
  · rfl
  · refine State.foldl_mem (fun u a => ?_)
    simp

@[simp] theorem State.goOver_mem (s : State) (t : Nat) :
    (s.goOver t).mem = s.mem := rfl

@[simp] theorem State.writePreempt_mem (s : State) (p : Nat) (v : W64) :
    (s.writePreempt p v).mem = s.mem := by
  unfold State.writePreempt
  dsimp only
  split
  · simp
  · rfl

@[simp] theorem State.postInval_mem (s : State) (kind : Nat) (asid : W16) (va : W64) :
    (s.postInval kind asid va).mem = s.mem := rfl

@[simp] theorem State.regClear_mem (s : State) (r : Reg) :
    (s.regClear r).mem = s.mem := by
  unfold State.regClear
  dsimp only
  split <;> rfl

@[simp] theorem State.regRead_mem (s : State) (r : Reg) :
    (s.regRead r).2.mem = s.mem := by simp [State.regRead]

@[simp] theorem State.writeSampctl_mem (s : State) (p : Nat) (v : W64) :
    (s.writeSampctl p v).mem = s.mem := rfl

@[simp] theorem State.regWrite_mem (s : State) (r : Reg) (v : W64) :
    (s.regWrite r v).mem = s.mem := by
  unfold State.regWrite
  dsimp only
  split
  · rfl
  · simp
  · simp
  · rfl
  · simp
  · simp
  · rfl
  · rfl
  · simp
  · rfl
  · rfl
  · rfl
  · rfl
  · rfl
  · rfl
  · rfl
  · rfl
  · rfl
  · rfl
  · rfl
  · rfl
  · split <;> rfl
  · split <;> simp
  · simp
  · rfl
  · rfl

@[simp] theorem State.regWriteBy_mem (s : State) (r : Reg) (v : W64) :
    (s.regWriteBy r v).mem = s.mem := by
  unfold State.regWriteBy
  split
  · rfl
  · rfl
  · rfl
  · simp

end Sys2Proof.Machine
end

section
/-!
PROOFS. What the operations of Sys2Proof/Machine/Access.lean leave of memory.
-/

namespace Sys2Proof.Machine

@[simp] theorem State.rollWindow_mem (s : State) : s.rollWindow.mem = s.mem := by
  unfold State.rollWindow
  dsimp only
  split
  · rfl
  · exact List.foldlRecOn (motive := fun u : State × Bool × Tab Belcy => u.1.mem = s.mem) s.belcy _ rfl fun u same e _ => by
      dsimp only
      split <;> exact same

@[simp] theorem State.admitBytes_mem (s : State) (port bytes : Nat) (write : Bool) :
    (s.admitBytes port bytes write).mem = s.mem := rfl

@[simp] theorem State.notePath_mem (s : State) (w : Who) (c : Cause) (va : W64) :
    (s.notePath w c va).mem = s.mem := by
  unfold State.notePath
  split
  · split <;> rfl
  · rfl

@[simp] theorem State.recallHandles_mem (s : State) (segs : List Seg) :
    (s.recallHandles segs).mem = s.mem := by
  unfold State.recallHandles
  refine State.foldl_mem (fun u a => ?_)
  split
  · simp
  · rfl

@[simp] theorem State.atsMiss_mem (s : State) (segs : List Seg) :
    (s.atsMiss segs).2.mem = s.mem := by
  unfold State.atsMiss
  dsimp only
  split
  · rfl
  · split <;> rfl

@[simp] theorem State.hostSend_mem (s : State) (asid : W16) (core part pa n : Nat) (write fill : Bool) (data : BitVec 512) (atom : Option AtomOp) (await : Await) :
    (s.hostSend asid core part pa n write fill data atom await).mem = s.mem := rfl

@[simp] theorem State.hostTxn_mem (s : State) (w : Who) (pa n : Nat) (write fill : Bool) (data : BitVec 512) (atom : Option AtomOp) (await : Await) :
    (s.hostTxn w pa n write fill data atom await).mem = s.mem := rfl

@[simp] theorem State.leaveFar_mem (s : State) (pa : Nat) (clk : W32) :
    (s.leaveFar pa clk).mem = s.mem := rfl

@[simp] theorem State.meetClock_mem (s : State) (g : Agent) (acquires : Bool) (clk : W32) :
    (s.meetClock g acquires clk).mem = s.mem := by
  unfold State.meetClock
  split <;> simp

@[simp] theorem State.meetFar_mem (s : State) (a : Await) (line : Nat) :
    (s.meetFar a line).mem = s.mem := by
  unfold State.meetFar
  split
  · split
    · simp
    · rfl
  · rfl

@[simp] theorem State.noteSent_mem (s : State) (core : Nat) :
    (s.noteSent core).mem = s.mem := by
  unfold State.noteSent
  split <;> rfl

@[simp] theorem State.sendPeerOn_mem (s : State) (core : Nat) (edge : W64) (pa n : Nat) (op : PeerOp) (await : Await) :
    (s.sendPeerOn core edge pa n op await).mem = s.mem := by
  unfold State.sendPeerOn
  dsimp only
  split
  · rfl
  · split
    · simp
    · split <;> split <;> simp

@[simp] theorem State.sendPeer_mem (s : State) (w : Who) (edge : W64) (pa n : Nat) (op : PeerOp) (await : Await) :
    (s.sendPeer w edge pa n op await).mem = s.mem := by simp [State.sendPeer]

@[simp] theorem State.ownPiece_wf (s : State) (core : Nat) (asid : W16) (pa n v : Nat) (leaf : Option W64) (wf : Memory.wf s.mem = true) :
    Memory.wf (s.ownPiece core asid pa n v leaf).mem = true := by
  unfold State.ownPiece
  dsimp only
  split
  · simp [wf]
  · split <;> simp [wf]
  · simp [wf]
  · simp [wf]
  · simp [wf]

@[simp] theorem State.ownWrite_wf (s : State) (core : Nat) (asid : W16) (pa n v : Nat) (leaf : Option W64) (wf : Memory.wf s.mem = true) :
    Memory.wf (s.ownWrite core asid pa n v leaf).mem = true := by
  unfold State.ownWrite
  refine State.foldl_wf (by simp [wf]) (fun u wf a => ?_)
  simp [wf]

@[simp] theorem State.ownCount_wf (s : State) (core : Nat) (asid : W16) (pa : Nat) (wf : Memory.wf s.mem = true) :
    Memory.wf (s.ownCount core asid pa).mem = true := by
  unfold State.ownCount
  split
  · simp [wf]
  · split <;> simp [wf]
  · simp [wf]
  · simp [wf]
  · simp [wf]

@[simp] theorem State.stalePeers_mem (s : State) (core : Nat) (hit : Nat → Bool) :
    (s.stalePeers core hit).mem = s.mem := rfl

@[simp] theorem State.storePeerL1_mem (s : State) (core line : Nat) (data : Line) (mask : ByteMask) :
    (s.storePeerL1 core line data mask).mem = s.mem := by
  unfold State.storePeerL1
  dsimp only
  split
  · split <;> rfl
  · rfl

@[simp] theorem State.askRenew_mem (s : State) (w : Who) (fid line sector : Nat) (key : BitVec 6) (home2 : Bool) (clk : W32) (pin : Option (BitVec 2)) (va : W64) (await : Await) :
    (s.askRenew w fid line sector key home2 clk pin va await).mem = s.mem := by
  unfold State.askRenew
  dsimp only
  split
  · rfl
  · simp

@[simp] theorem State.takeDirty_mem (s : State) (g : Agent) (fid : Nat) (l : L1Line) (mask : ByteMask) :
    (s.takeDirty g fid l mask).mem = s.mem := by
  unfold State.takeDirty
  split
  · split
    · simp
    · rfl
  · rfl

@[simp] theorem State.loadSeg_mem (s : State) (w : Who) (fid lane : Nat) (sg : Seg) :
    (s.loadSeg w fid lane sg).mem = s.mem := by
  unfold State.loadSeg
  dsimp only
  split
  · rfl
  · split
    · split
      · split <;> simp
      · simp
    · simp
    · simp
    · split
      · split <;> simp
      · simp
    · split <;> simp
    · simp
    · simp

@[simp] theorem State.storeSeg_mem (s : State) (w : Who) (id lane : Nat) (pc : W64) (sg : Seg) (data : Nat) (rel : Bool) :
    (s.storeSeg w id lane pc sg data rel).2.mem = s.mem := by
  unfold State.storeSeg
  dsimp only
  split
  · rfl
  · split
    · split <;> simp
    · simp
    · simp
    · simp
    · simp
    · simp
    · simp

@[simp] theorem State.storeSegs_mem (s : State) (w : Who) (id lane : Nat) (pc : W64) (segs : List Seg) (data : Nat) (rel : Bool) :
    (s.storeSegs w id lane pc segs data rel).2.mem = s.mem := by
  unfold State.storeSegs
  split
  · simp
  · refine State.foldl_mem (fun u a => ?_)
    rfl

@[simp] theorem State.atomSeg_mem (s : State) (w : Who) (sg : Seg) (op : AtomOp) (await : Await) :
    (s.atomSeg w sg op await).mem = s.mem := by
  unfold State.atomSeg
  dsimp only
  split
  · rfl
  · split
    · simp
    · simp
    · simp
    · split
      · split <;> simp
      · simp
    · simp
    · rfl

@[simp] theorem State.releaseStart_mem (s : State) (core : Nat) :
    (s.releaseStart core).mem = s.mem := by simp [State.releaseStart]

@[simp] theorem State.releaseEnd_mem (s : State) (g : Agent) (scope : Nat) :
    (s.releaseEnd g scope).mem = s.mem := by
  unfold State.releaseEnd
  split
  · rfl
  · simp

@[simp] theorem State.takeSeen_mem (s : State) (g : Agent) :
    (s.takeSeen g).mem = s.mem := by
  unfold State.takeSeen
  split
  · simp
  · rfl

@[simp] theorem State.acquireEnd_mem (s : State) (g : Agent) (scope : Nat) :
    (s.acquireEnd g scope).mem = s.mem := by
  unfold State.acquireEnd
  dsimp only
  split <;> simp

end Sys2Proof.Machine
end

section
/-!
PROOFS. What the operations of Sys2Proof/Machine/Spec.lean leave of memory.
-/

namespace Sys2Proof.Machine

@[simp] theorem State.resolveBranches_mem (s : State) (w : Nat) :
    (s.resolveBranches w).mem = s.mem := by
  unfold State.resolveBranches
  dsimp only
  split
  · rfl
  · refine State.foldl_mem (fun u a => ?_)
    split
    · rfl
    · split
      · rfl
      · split
        · split <;> rfl
        · rfl

@[simp] theorem State.commitStore_mem (s : State) (w : Who) (id : Nat) (pc : W64) (h : HeldStore) :
    (s.commitStore w id pc h).2.mem = s.mem := by
  unfold State.commitStore
  split <;> simp

@[simp] theorem State.passUses_mem (s : State) (id first : Nat) :
    (s.passUses id first).mem = s.mem := rfl

@[simp] theorem State.entryRelease_mem (s : State) (w : Nat) (e : SpecEntry) :
    (s.entryRelease w e).2.mem = s.mem := by
  unfold State.entryRelease
  dsimp only
  split
  · rfl
  · split
    · rfl
    · split
      · split <;> simp
      · split
        · simp
        · rfl

@[simp] theorem State.commitEntry_mem (s : State) (w : Nat) (e : SpecEntry) :
    (s.commitEntry w e).mem = s.mem := by
  unfold State.commitEntry
  dsimp only
  split
  · split
    · rfl
    · split
      · rfl
      · refine State.foldl_pair_mem (fun u a => ?_)
        simp
  · rw [State.updWarp_mem]
    split
    · rfl
    · split
      · rfl
      · refine State.foldl_pair_mem (fun u a => ?_)
        simp

@[simp] theorem State.commit_mem (s : State) (w fuel : Nat) : (s.commit w fuel).mem = s.mem := by
  induction fuel generalizing s with
  | zero => rfl
  | succ k ih =>
    rw [State.commit]
    split
    · split
      · split
        · rfl
        · split
          · rfl
          · split
            · rfl
            · split
              next t found => exact (snd_mem found).trans (State.entryRelease_mem ..)
              next t found => rw [ih, State.commitEntry_mem, snd_mem found, State.entryRelease_mem]
      · rfl
    · rfl

@[simp] theorem State.settleSpec_mem (s : State) (w : Nat) :
    (s.settleSpec w).mem = s.mem := by
  unfold State.settleSpec
  split
  · rfl
  · split
    · rfl
    · simp

@[simp] theorem State.landWarp_mem (s : State) (w : Nat) (due : List Landing) : (s.landWarp w due).mem = s.mem := by
  induction due generalizing s with
  | nil => exact State.settleSpec_mem ..
  | cons l r ih =>
    unfold State.landWarp
    dsimp only
    rw [ih, apply_ite State.mem, State.settleSpec_mem, ite_self]
    split
    · rfl
    · split
      · rfl
      · simp

@[simp] theorem State.land_mem (s : State) (g : Agent) :
    (s.land g).mem = s.mem := by
  unfold State.land
  split
  · simp
  · split
    · rfl
    · simp

end Sys2Proof.Machine
end

section
/-!
PROOFS. What the operations of Sys2Proof/Machine/Ops.lean leave of memory.
-/

namespace Sys2Proof.Machine

@[simp] theorem State.joinCheck_mem (s : State) (w : Nat) :
    (s.joinCheck w).mem = s.mem := rfl

@[simp] theorem State.endClock_mem (s : State) (g : Agent) :
    (s.endClock g).mem = s.mem := by
  unfold State.endClock
  split
  · rfl
  · split <;> rfl

@[simp] theorem State.warpGone_mem (s : State) (w : Nat) :
    (s.warpGone w).mem = s.mem := by
  unfold State.warpGone
  dsimp only
  split
  · rfl
  · split
    · rfl
    · split
      · rfl
      · simp

@[simp] theorem State.exitLanes_mem (s : State) (w : Nat) (lanes : Mask) :
    (s.exitLanes w lanes).mem = s.mem := by simp [State.exitLanes]

@[simp] theorem State.exitCt_mem (s : State) (t : Nat) :
    (s.exitCt t).mem = s.mem := by
  unfold State.exitCt
  dsimp only
  split
  · rfl
  · split
    · rfl
    · simp

@[simp] theorem State.endTeam_mem (s : State) (t : Nat) :
    (s.endTeam t).mem = s.mem := by
  unfold State.endTeam
  dsimp only
  split
  · rfl
  · rw [State.updTeam_mem]
    split <;> simp [State.foldl_mem]

@[simp] theorem State.endSoon_mem (s : State) (t : Nat) :
    (s.endSoon t).mem = s.mem := rfl

@[simp] theorem State.endTeams_mem (s : State) (dt : Nat) :
    (s.endTeams dt).mem = s.mem := by
  unfold State.endTeams
  simp [State.foldl_mem]

@[simp] theorem State.gridEnds_mem (s : State) (t : Nat) (cause : BitVec 6) :
    (s.gridEnds t cause).mem = s.mem := by
  unfold State.gridEnds
  dsimp only
  split <;> rfl

@[simp] theorem State.endGrid_mem (s : State) (t : Nat) (cause : BitVec 6) :
    (s.endGrid t cause).mem = s.mem := by simp [State.endGrid]

@[simp] theorem State.vector_mem (s : State) (g : Agent) (p : PendTrap) (handler : W64) :
    (s.vector g p handler).mem = s.mem := by
  unfold State.vector
  dsimp only
  split <;> rfl

@[simp] theorem State.fillHost_mem (s : State) (w : Who) (pa : Nat) : (s.fillHost w pa).mem = s.mem := by
  unfold State.fillHost
  split
  · rfl
  · split
    · split
      · rfl
      · simp
    · dsimp only
      split
      · simp
      · cases found : s.clearHost (pa / 256) (s.slotOf (pa / 256)) noPart true with
        | none => rfl
        | some t => exact State.clearHost_mem _ _ _ _ _ t found
    · dsimp only
      split <;> rfl

@[simp] theorem State.takeTrap_wf (s : State) (g : Agent) (p : PendTrap) (wf : Memory.wf s.mem = true) :
    Memory.wf (s.takeTrap g p).mem = true := by
  unfold State.takeTrap
  dsimp only
  split
  · exact wf
  · refine State.ite_wf (fun _ => by simp [wf]) fun _ => State.ite_wf (fun _ => by simp [wf]) fun _ =>
      State.ite_wf (fun _ => by simp [wf]) fun _ => ?_
    split
    · exact State.ite_wf (fun _ => by simp [wf]) fun _ => by simp [wf]
    · simp [wf]
    · simp [wf]

@[simp] theorem State.parkTicket_mem (s : State) (g : Agent) (lanes : Mask) (va : W64) :
    (s.parkTicket g lanes va).2.mem = s.mem := by
  unfold State.parkTicket
  dsimp only
  split
  · rfl
  · split
    · rfl
    · split
      · rfl
      · split <;> rfl

@[simp] theorem State.park_mem (s : State) (g : Agent) (asid : W16) (lanes : Mask) (va : W64) (access : Access) :
    (s.park g asid lanes va access).mem = s.mem := by
  unfold State.park
  dsimp only
  split
  next _ t found => simp [snd_mem found]
  next _ _ t found => simp [snd_mem found]

@[simp] theorem State.parkPri_mem (s : State) (g : Agent) (asid : W16) (lanes : Mask) (va : W64) (pa : Nat) :
    (s.parkPri g asid lanes va pa).mem = s.mem := by
  unfold State.parkPri
  dsimp only
  split
  next _ t found => simp [snd_mem found]
  next _ _ t found => simp [snd_mem found]

theorem State.askWalk_mem (s : State) (core : Nat) (asid : W16) (va : W64) (access : Access) (who : Waiter) :
    ∀ t, s.askWalk core asid va access who = some t → t.2.mem = s.mem := by
  unfold State.askWalk
  dsimp only
  split
  · split <;> simp
  · split <;> simp

@[simp] theorem State.holdWalks_mem (s : State) (w : Who) (pages : List (W64 × Mask)) (access : Access) :
    (s.holdWalks w pages access).mem = s.mem := by
  refine State.foldl_mem (fun u p => ?_)
  cases found : u.askWalk w.core w.asid p.1 access (.lanes w.g p.2) with
  | none =>
    dsimp only
    split
    · rfl
    · split <;> simp
  | some r =>
    have kept := State.askWalk_mem _ _ _ _ _ _ r found
    obtain ⟨id, t⟩ := r
    dsimp only at kept ⊢
    split
    · exact kept
    · split <;> simp [kept]

/-- The states that a fetch step may go on with have a given memory. -/
def Fetched.Leaves (m : Mem) : Fetched → Prop
  | .word _ s | .wait s | .pri _ _ s => s.mem = m
  | _ => True

theorem State.fillFetch_mem (s : State) (w : Who) (va : W64) (pa : Nat) (leaf : W64) : (s.fillFetch w va pa leaf).Leaves s.mem := by
  unfold State.fillFetch
  dsimp only
  split
  · split
    · trivial
    · split
      · exact State.updCore_mem ..
      · split
        · trivial
        · exact State.sendPeer_mem ..
  · split
    · exact (State.updCore_mem ..).trans (by split <;> simp)
    · trivial
    · split
      · trivial
      · split
        · exact State.free_mem s
        · exact State.free_mem s
  · split
    · exact (State.updCore_mem ..).trans (by split <;> simp)
    · trivial
    · split
      · trivial
      · exact State.fillHost_mem ..

theorem State.fetch_mem (s : State) (w : Who) (pc : W64) (lanes : Mask) : (s.fetch w pc lanes).Leaves s.mem := by
  unfold State.fetch
  split
  · trivial
  · trivial
  · split
    · rfl
    · dsimp only
      split
      · split
        · exact State.fillFetch_mem ..
        · trivial
      · split
        · trivial
        · exact State.holdWalks_mem ..
      · trivial
      · trivial

@[simp] theorem State.rft_mem (s : State) (k : Nat) (next : Bool) (length : Nat) :
    (s.rft k next length).mem = s.mem := by
  unfold State.rft
  dsimp only
  split <;> rfl

@[simp] theorem Eff.stall_mem (s : State) :
    (Eff.stall s).st.mem = s.mem := rfl

@[simp] theorem Eff.all_mem (s : State) (lanes : Mask) (c : Cause) (va : W64) :
    (Eff.all s lanes c va).st.mem = s.mem := rfl

@[simp] theorem State.advance_mem (s : State) (iss : Iss) (lanes : Mask) (go : Tab W64) :
    (s.advance iss lanes go).mem = s.mem := by
  unfold State.advance
  split
  · split <;> rfl
  · rfl

@[simp] theorem State.leaveEntry_mem (s : State) (iss : Iss) (stay : Mask) :
    (s.leaveEntry iss stay).mem = s.mem := by
  unfold State.leaveEntry
  split
  · split <;> rfl
  · rfl

@[simp] theorem State.finish_wf (iss : Iss) (e : Eff) (wf : Memory.wf e.st.mem = true) :
    Memory.wf (State.finish iss e).mem = true := by
  unfold State.finish
  refine State.ite_wf (fun _ => wf) fun _ => ?_
  cases lowestCause e.causes with
  | none => simp [apply_ite State.mem, wf]
  | some p =>
    refine State.ite_wf (fun _ => by simp [apply_ite State.mem, wf]) fun _ => ?_
    cases iss.spec with
    | none => exact State.takeTrap_wf _ _ _ (by simp [apply_ite State.mem, wf])
    | some id =>
      cases iss.w.g with
      | warp w => simp [apply_ite State.mem, wf]
      | ct t => exact State.takeTrap_wf _ _ _ (by simp [apply_ite State.mem, wf])

@[simp] theorem State.takeTag_mem (s : State) (g : Agent) (k : BitVec 3) :
    (s.takeTag g k).mem = s.mem := by
  unfold State.takeTag
  split
  · rfl
  · simp

@[simp] theorem State.passTag_mem (s : State) (iss : Iss) :
    (s.passTag iss).mem = s.mem := by
  unfold State.passTag
  dsimp only
  split
  · rfl
  · simp

@[simp] theorem State.countRetired_wf (s : State) (w : Who) (i : Instr) (wf : Memory.wf s.mem = true) :
    Memory.wf (s.countRetired w i).mem = true := by
  unfold State.countRetired
  dsimp only
  split
  · simp [wf]
  · split <;> simp [wf]

@[simp] theorem State.openEntry_mem (s : State) (g : Agent) (lanes : Mask) (next : W64) :
    (s.openEntry g lanes next).2.mem = s.mem := by
  unfold State.openEntry
  dsimp only
  split
  · rfl
  · split
    · rfl
    · split <;> rfl

@[simp] theorem State.clearOwed_mem (s : State) (g : Agent) (lanes : Mask) (pc : W64) (guess : Bool) :
    (s.clearOwed g lanes pc guess).mem = s.mem := by
  unfold State.clearOwed
  split <;> rfl

@[simp] theorem State.payOwed_mem (s : State) (g : Agent) (pc : W64) (spec : Option Nat) (owed causes : List (Nat × Cause × W64)) :
    (s.payOwed g pc spec owed causes).mem = s.mem := by
  unfold State.payOwed
  split
  · rfl
  · split
    · simp
    · split
      · simp
      · rfl

@[simp] theorem State.unissue_mem (s s0 : State) (g : Agent) (spec : Option Nat) : (s.unissue s0 g spec).mem = s.mem := by
  unfold State.unissue
  split <;> rfl

@[simp] theorem State.openedBy_mem (s : State) (g : Agent) :
    (s.openedBy g).2.mem = s.mem := by
  unfold State.openedBy
  split
  · rfl
  · simp

@[simp] theorem State.opened_mem (s : State) (g : Agent) :
    (s.opened g).mem = s.mem := by
  unfold State.opened
  split <;> simp

end Sys2Proof.Machine
end

section
/-!
PROOFS. What the operations of Sys2Proof/Machine/Operands.lean leave of memory.
-/

namespace Sys2Proof.Machine

@[simp] theorem Iss.results_mem (iss : Iss) (s : State) (lat : Nat) (ws : List RegWrite) :
    (iss.results s lat ws).mem = s.mem := by simp [Iss.results]

end Sys2Proof.Machine
end

section
/-!
PROOFS. What the operations of Sys2Proof/Machine/Float.lean leave of memory.
-/

namespace Sys2Proof.Machine

@[simp] theorem State.beginFlight_mem (s : State) (iss : Iss) (f : Flight) :
    (s.beginFlight iss f).mem = s.mem := by simp [State.beginFlight]

@[simp] theorem State.later_mem (s : State) (iss : Iss) (ws : List RegWrite) :
    (s.later iss ws).mem = s.mem := by
  unfold State.later
  dsimp only
  split
  · simp
  · split <;> simp

theorem State.takeUnit_mem (s : State) (iss : Iss) (f64 : Bool) :
    ∀ t, s.takeUnit iss f64 = some t → t.mem = s.mem := by
  unfold State.takeUnit
  dsimp only
  split
  · simp
  · split <;> simp

end Sys2Proof.Machine
end

section
/-!
PROOFS. What the operations of Sys2Proof/Machine/LaneAccess.lean leave of memory.
-/

namespace Sys2Proof.Machine

@[simp] theorem State.planLanes_mem (s : State) (iss : Iss) (access : Access) (now : Bool) (res : List (Nat × LaneRes)) :
    (s.planLanes iss access now res).st.mem = s.mem := by
  unfold State.planLanes
  refine List.foldlRecOn (motive := fun p : Plan => p.st.mem = s.mem) res _ rfl fun p same r _ => ?_
  rw [← same]
  dsimp only
  split
  · simp
  · split <;> simp
  · simp
  · split
    next t found => simp [snd_mem found]
    next sg t found => split <;> simp [snd_mem found]
  · split
    · simp
    · split
      next t found => simp [snd_mem found]
      next sg t found => split <;> simp [snd_mem found]

@[simp] theorem State.recallPark_mem (s : State) (asid : W16) :
    (s.recallPark asid).mem = s.mem := by simp [State.recallPark]

@[simp] theorem State.accessRecall_mem (s : State) (iss : Iss) (res : List (Nat × LaneRes)) :
    (s.accessRecall iss res).mem = s.mem := by
  unfold State.accessRecall
  dsimp only
  split <;> simp

@[simp] theorem State.holdIn_mem (s : State) (iss : Iss) (h : Hold) :
    (s.holdIn iss h).mem = s.mem := by simp [State.holdIn]

@[simp] theorem State.endHold_mem (s : State) (g : Agent) :
    (s.endHold g).mem = s.mem := by simp [State.endHold]

@[simp] theorem State.gate_mem (s : State) (iss : Iss) (scope : Nat) (ready : Bool) :
    (s.gate iss scope ready).2.mem = s.mem := by
  unfold State.gate
  dsimp only
  split
  · rfl
  · split
    · split
      · split <;> simp
      · split
        · simp
        · rfl
    · split <;> split <;> simp

@[simp] theorem State.regionBytes_mem (s : State) (team k line off n : Nat) (data : Line) (bad : ByteMask) :
    (s.regionBytes team k line off n data bad).mem = s.mem := by
  unfold State.regionBytes
  dsimp only
  split
  · rfl
  · split <;> rfl

theorem State.fillRegions_mem {s : State} {w : Who} {for_ : Option Agent} {c : W32} {edge : W64} {team : Nat} {fills : List (Nat × Nat × Seg)}
    {count : State → Seg → State} (kept : ∀ u sg, (count u sg).mem = u.mem) :
    (s.fillRegions w for_ c edge team fills count).mem = s.mem := by
  refine State.foldl_mem (fun u e => ?_)
  rw [apply_ite State.mem]
  refine (congrArg (ite _ _) ?_).trans (ite_self _)
  dsimp only
  split
  · simp [kept]
  · exact State.foldl_mem (fun v i => by simp [kept])
  · simp [kept]
  · exact kept ..

@[simp] theorem State.touchRegions_mem (s : State) (w : Who) (team : Nat) (fills : List (Nat × Nat × Seg)) :
    (s.touchRegions w team fills).mem = s.mem := by
  unfold State.touchRegions
  split
  · refine State.foldl_mem (fun u a => ?_)
    dsimp only
    split
    · split
      · rfl
      · split
        · simp
        · refine State.foldl_mem (fun u a => ?_)
          simp
        · simp
        · simp
    · rfl
  · rfl

@[simp] theorem State.toArray_mem (s : State) (iss : Iss) (lane team off n : Nat) (fills : List (Nat × Nat × Seg)) (kind : ArrayKind) (cnt : Counter) (owner : Nat) :
    (s.toArray iss lane team off n fills kind cnt owner).2.mem = s.mem := by simp [State.toArray]

@[simp] theorem State.overlay_mem (s : State) (g : Agent) (fid lane pos : Nat) (loc : Nat ⊕ (Nat × Nat)) :
    (s.overlay g fid lane pos loc).mem = s.mem := by
  unfold State.overlay
  dsimp only
  split
  · rfl
  · split
    · rfl
    · split <;> rfl

@[simp] theorem State.loadPieces_mem (s : State) (w : Who) (fid lane : Nat) (segs : List Seg) :
    (s.loadPieces w fid lane segs).mem = s.mem := by
  unfold State.loadPieces
  dsimp only
  split <;> simp [State.foldl_mem]

@[simp] theorem State.loadLane_mem (s : State) (iss : Iss) (fid : Nat) (n : Nat) (r : Nat × LaneRes) :
    (s.loadLane iss fid n r).mem = s.mem := by
  unfold State.loadLane
  dsimp only
  split
  · simp
  · simp [State.foldl_mem]
  · rfl

@[simp] theorem State.loadLanes_mem (iss : Iss) (p : Plan) (n : Nat) (form : Form) (acquire : Option Nat) :
    (State.loadLanes iss p n form acquire).st.mem = p.st.mem := by
  unfold State.loadLanes
  dsimp only
  split
  · simp
  · simp [State.foldl_mem]

@[simp] theorem State.storeLanes_mem (iss : Iss) (p : Plan) (n : Nat) (rel : Option Nat) (data : Nat → Nat) :
    (State.storeLanes iss p n rel data).st.mem = p.st.mem := by
  unfold State.storeLanes
  dsimp only
  split
  · refine State.foldl_mem (fun u a => ?_)
    split
    · simp
    · rfl
  · rw [State.updCtx_mem]
    refine State.foldl_pair_mem (fun u a => ?_)
    split
    · simp
    · simp
    · rfl

end Sys2Proof.Machine
end

section
/-!
PROOFS. What the operations of Sys2Proof/Machine/Memory.lean leave of memory.
-/

namespace Sys2Proof.Machine

@[simp] theorem State.causesWait_mem (s : State) (iss : Iss) (res : List (Nat × LaneRes)) :
    (s.causesWait iss res).2.mem = s.mem := by
  unfold State.causesWait
  dsimp only
  split
  · rfl
  · split
    · split <;> rfl
    · rfl

theorem State.splitAccess_error_mem (s : State) (iss : Iss) (access : Access) (res : List (Nat × LaneRes)) :
    ∀ t, s.splitAccess iss access res = .error t → t.mem = s.mem := by
  unfold State.splitAccess
  dsimp only
  split
  · simp
  · split <;> simp

theorem State.splitAccess_ok_mem (s : State) (iss : Iss) (access : Access) (res : List (Nat × LaneRes)) :
    ∀ t l m, s.splitAccess iss access res = .ok (t, l, m) → t.mem = s.mem := by
  unfold State.splitAccess
  dsimp only
  split
  · simp
  · split
    · simp
    · intro t l m same
      cases same
      simp

@[simp] theorem Plan.staying_mem (p : Plan) (m : Mask) :
    (p.staying m).st.mem = p.st.mem := rfl

@[simp] theorem State.waitRelease_mem (s : State) (iss : Iss) :
    (s.waitRelease iss).2.mem = s.mem := by
  unfold State.waitRelease
  split
  · rfl
  · split
    · rfl
    · simp

@[simp] theorem State.askScales_mem (s : State) (iss : Iss) (ok : List (Nat × LaneRes)) :
    (s.askScales iss ok).mem = s.mem := by
  unfold State.askScales
  simp [State.foldl_mem]

@[simp] theorem State.stfGo_mem (s : State) (iss : Iss) (res : List (Nat × LaneRes)) (stay : Mask) (rd : Option Flight) (regs : Nat → Nat) :
    (s.stfGo iss res stay rd regs).st.mem = s.mem := by
  unfold State.stfGo
  dsimp only
  rw [Iss.results_mem]
  split <;> simp

@[simp] theorem State.dropScales_mem (s : State) (iss : Iss) (f : Flight) :
    (s.dropScales iss f).mem = s.mem := by simp [State.dropScales]

@[simp] theorem State.prefAt_mem (s : State) (w : Who) (l2 : Bool) (va : W64) :
    (s.prefAt w l2 va).mem = s.mem := by
  unfold State.prefAt
  dsimp only
  split
  · split
    · rfl
    · split
      · split
        · rfl
        · simp
      · split
        · simp
        · rfl
      · split <;> simp
      · split
        · rfl
        · split <;> simp
      · rfl
      · rfl
  · rfl

@[simp] theorem State.prefLane_mem (s : State) (iss : Iss) (l2 : Bool) (j : Nat) : (s.prefLane iss l2 j).2.mem = s.mem := by
  unfold State.prefLane
  dsimp only
  split
  · rfl
  · split
    · split
      next id t found => exact State.askWalk_mem _ _ _ _ _ _ (id, t) found
      · dsimp only
        split
        · split <;> rfl
        · rfl
    · split
      · split <;> simp
      · rfl

@[simp] theorem State.joinWriteBacks_mem (s : State) (core line : Nat) (a : Await) :
    (s.joinWriteBacks core line a).2.mem = s.mem := rfl

@[simp] theorem State.writeLines_mem (s : State) (iss : Iss) (lines : List Nat) : (s.writeLines iss lines).mem = s.mem := by
  unfold State.writeLines
  dsimp only
  rw [State.updCtx_mem]
  exact (State.foldl_mem (fun u l => State.flushLine_mem ..)).trans (State.foldl_pair_mem (fun u l => State.joinWriteBacks_mem ..))

theorem State.writeRegion_mem {s : State} {core team part k : Nat} {asid : W16} {edge : W64} {target : Nat → Option (Nat × W64)} {await : Await}
    {count : State → W64 → Nat → State} (kept : ∀ u va pa, (count u va pa).mem = u.mem) :
    (s.writeRegion core team part k asid edge target await count).2.mem = s.mem := by
  unfold State.writeRegion
  split
  · rfl
  · split
    · rfl
    · refine (State.foldl_pair_mem (fun u line => ?_)).trans rfl
      split
      · rfl
      · dsimp only
        split
        · exact State.foldl_pair_mem (s := u.2) (n := u.1) (fun v e => kept ..)
        · exact State.foldl_pair_mem (s := u.2) (n := u.1) (fun v e => (State.sendPeerOn_mem ..).trans (kept ..))
        · exact kept ..
        · exact kept ..

@[simp] theorem State.writeRegions_mem (s : State) (iss : Iss) (named : List (Nat × Region)) (res : List (Nat × Nat × LaneRes)) (unmap : Bool) :
    (s.writeRegions iss named res unmap).mem = s.mem := by
  unfold State.writeRegions
  dsimp only
  rw [apply_ite State.mem, State.updTeam_mem, ite_self, State.updCtx_mem]
  exact State.foldl_pair_mem (fun u e => State.writeRegion_mem (fun v va pa => State.countLane_mem ..))

end Sys2Proof.Machine
end

section
/-!
PROOFS. What the operations of Sys2Proof/Machine/Atomic.lean leave of memory.
-/

namespace Sys2Proof.Machine

@[simp] theorem State.atomLane_mem (s : State) (iss : Iss) (fid n : Nat) (cas : Bool) (r : Nat × LaneRes) :
    (s.atomLane iss fid n cas r).mem = s.mem := by
  unfold State.atomLane
  dsimp only
  split
  · refine State.foldl_mem (fun u a => ?_)
    split <;> simp
  · simp
  · rfl

@[simp] theorem State.goBack_mem (s : State) (g : Agent) (lanes : Mask) (pc : W64) :
    (s.goBack g lanes pc).mem = s.mem := by
  unfold State.goBack
  dsimp only
  split
  · rfl
  · split
    · split <;> rfl
    · rfl

@[simp] theorem State.owe_mem (s : State) (g : Agent) (lanes : Mask) (c : Cause) (va : W64) (pc : Option W64) :
    (s.owe g lanes c va pc).mem = s.mem := by
  unfold State.owe
  split
  · split <;> rfl
  · rfl

@[simp] theorem State.lateBeside_mem (s : State) (g : Agent) (t p : PendTrap) :
    (s.lateBeside g t p).mem = s.mem := by
  unfold State.lateBeside
  dsimp only
  split
  · simp
  · split <;> simp

@[simp] theorem State.lateCauses_mem (s : State) (g : Agent) (id : Nat) (pc : W64) (bad : List (Nat × Cause × W64)) :
    (s.lateCauses g id pc bad).mem = s.mem := by
  unfold State.lateCauses
  dsimp only
  split
  · split
    · split <;> simp
    · simp
  · rfl

@[simp] theorem State.finishFlight_mem (s : State) (g : Agent) (f : Flight) :
    (s.finishFlight g f).mem = s.mem := by
  unfold State.finishFlight
  dsimp only
  split <;> split <;> simp

@[simp] theorem State.pieceDone_mem (s : State) (g : Agent) (id : Nat) :
    (s.pieceDone g id).mem = s.mem := by
  unfold State.pieceDone
  dsimp only
  split
  · split <;> simp
  · simp

@[simp] theorem State.atomLanes_mem (iss : Iss) (p : Plan) (x : Args) (cas result : Bool) :
    (State.atomLanes iss p x cas result).st.mem = p.st.mem := by
  unfold State.atomLanes
  dsimp only
  split
  · dsimp only
    split
    · simp
    · rfl
  · dsimp only
    split
    · split
      · split
        · split
          · split <;> simp [State.foldl_mem]
          · simp [State.foldl_mem]
        · simp [State.foldl_mem]
      · split
        · split
          · split <;> simp [State.foldl_mem]
          · simp [State.foldl_mem]
        · simp [State.foldl_mem]
    · split
      · split
        · split <;> simp [State.foldl_mem]
        · simp [State.foldl_mem]
      · simp [State.foldl_mem]

@[simp] theorem State.storeRefused_mem (s : State) (g : Agent) (id lane : Nat) (pc : W64) (c : Cause) (va : W64) :
    (s.storeRefused g id lane pc c va).mem = s.mem := by simp [State.storeRefused]

@[simp] theorem State.storeDone_mem (s : State) (g : Agent) (id : Nat) :
    (s.storeDone g id).mem = s.mem := by
  unfold State.storeDone
  dsimp only
  split
  · simp
  · split
    · simp
    · split <;> simp

@[simp] theorem State.leaveClock_mem (s : State) (team off n : Nat) (clk : W32) :
    (s.leaveClock team off n clk).mem = s.mem := rfl

@[simp] theorem State.takeClock_mem (s : State) (g : Agent) (acquires : Bool) (team off n : Nat) :
    (s.takeClock g acquires team off n).mem = s.mem := by
  unfold State.takeClock
  split
  · rfl
  · refine State.foldl_mem (fun u a => ?_)
    refine State.foldl_mem (fun u a => ?_)
    split
    · simp
    · rfl

@[simp] theorem State.refusePiece_mem (s : State) (o : ArrayOp) :
    (s.refusePiece o).mem = s.mem := by
  unfold State.refusePiece
  dsimp only
  split <;> simp

@[simp] theorem State.refuseArray_mem (s : State) (team : Nat) (o : ArrayOp) :
    (s.refuseArray team o).mem = s.mem := by
  unfold State.refuseArray
  refine State.foldl_mem (fun u a => ?_)
  simp

@[simp] theorem State.performArray_mem (s : State) (team : Nat) (o : ArrayOp) :
    (s.performArray team o).mem = s.mem := by
  unfold State.performArray
  dsimp only
  split
  · simp
  · split
    · split
      · split <;> split <;> split <;> simp
      · split <;> split <;> simp
    · split
      · split <;> split <;> simp
      · split <;> simp
    · split
      · split
        · split <;> split <;> split <;> simp
        · split <;> split <;> simp
      · split
        · split
          · split
            · simp
            · rfl
          · split
            · simp
            · rfl
        · split
          · simp
          · rfl

@[simp] theorem State.roomFound_mem (s : State) (w : Nat) :
    (s.roomFound w).mem = s.mem := by
  unfold State.roomFound
  dsimp only
  split
  · rfl
  · simp [State.foldl_mem]

@[simp] theorem State.arrayMove_mem (s : State) (team id : Nat) :
    (s.arrayMove team id).mem = s.mem := by
  unfold State.arrayMove
  split
  · rfl
  · split
    · split
      · simp
      · rfl
    · rfl

end Sys2Proof.Machine
end

section
/-!
PROOFS. What the operations of Sys2Proof/Machine/Trace.lean leave of memory.
-/

namespace Sys2Proof.Machine

@[simp] theorem State.logRecord_wf (s : State) (base v : Nat) (wf : Memory.wf s.mem = true) :
    Memory.wf (s.logRecord base v).mem = true := by simp [State.logRecord, wf]

@[simp] theorem State.flushLog_wf (s : State) (wf : Memory.wf s.mem = true) :
    Memory.wf s.flushLog.mem = true := by
  unfold State.flushLog
  dsimp only
  split
  · simp [wf]
  · simp [wf]
  · split
    · simp [wf]
    · split
      · simp [wf]
      · split <;> simp [wf]

@[simp] theorem State.flushOne_wf (s : State) (wf : Memory.wf s.mem = true) :
    Memory.wf s.flushOne.mem = true := by
  unfold State.flushOne
  split
  · split <;> simp [wf]
  · simp [wf]

@[simp] theorem State.flushLate_wf (s : State) (wf : Memory.wf s.mem = true) :
    Memory.wf s.flushLate.mem = true := by
  unfold State.flushLate
  refine State.foldl_wf (by simp [wf]) (fun u wf a => ?_)
  simp [wf]

@[simp] theorem State.ownAfter_wf (s : State) (core pa n v : Nat) (wf : Memory.wf s.mem = true) :
    Memory.wf (s.ownAfter core pa n v).mem = true := by simp [State.ownAfter, wf]

@[simp] theorem State.logEvent_wf (s : State) (cause : Cause) (identity : W32) (pc : W64) (arriver : W32) (wf : Memory.wf s.mem = true) :
    Memory.wf (s.logEvent cause identity pc arriver).mem = true := by
  unfold State.logEvent
  dsimp only
  split <;> simp [wf]

@[simp] theorem State.nextSeq_mem (s : State) (die : Nat) :
    (s.nextSeq die).mem = s.mem := rfl

@[simp] theorem State.writeStation_wf (s : State) (core : Nat) (begin_ release : Nat) (waiter arriver : W32) (kind : Nat) (object : Nat) (edge : W64) (wf : Memory.wf s.mem = true) :
    Memory.wf (s.writeStation core begin_ release waiter arriver kind object edge).2.mem = true := by simp [State.writeStation, wf]

@[simp] theorem State.writeMarker_wf (s : State) (core : Nat) (waiter : W32) (step : Nat) (edge : W64) (wf : Memory.wf s.mem = true) :
    Memory.wf (s.writeMarker core waiter step edge).mem = true := by simp [State.writeMarker, wf]

@[simp] theorem State.waitOver_mem (s : State) (g : Agent) (began : Nat) (arriver : W32) (edge : W64) (kind object : Nat) :
    (s.waitOver g began arriver edge kind object).mem = s.mem := by
  unfold State.waitOver
  dsimp only
  split
  · split <;> simp
  · simp

@[simp] theorem State.numberStations_wf (s : State) (dt : Nat) (wf : Memory.wf s.mem = true) :
    Memory.wf (s.numberStations dt).mem = true := by
  unfold State.numberStations
  dsimp only
  split
  · simp [wf]
  · refine State.foldl_wf (by simp [wf]) (fun u wf a => ?_)
    simp [wf]

@[simp] theorem State.halt_wf (s : State) (g : Agent) (lanes : Mask) (laneStop : Bool) (cause : Cause) (pc : W64) (wf : Memory.wf s.mem = true) :
    Memory.wf (s.halt g lanes laneStop cause pc).mem = true := by
  unfold State.halt
  dsimp only
  split <;> simp [wf]

end Sys2Proof.Machine
end

section
/-!
PROOFS. What the operations of Sys2Proof/Machine/Barrier.lean leave of memory.
-/

namespace Sys2Proof.Machine

@[simp] theorem State.stampRead_mem (s : State) (k line : Nat) (key : BitVec 6) (part : Nat) (home2 : Bool) (c : W32) :
    (s.stampRead k line key part home2 c).2.mem = s.mem := by
  unfold State.stampRead
  dsimp only
  split <;> simp

@[simp] theorem State.raiseObj_mem (s : State) (o : ObjLoc) (c : W32) :
    (s.raiseObj o c).mem = s.mem := by
  unfold State.raiseObj
  split <;> rfl

@[simp] theorem State.objPut_wf (s : State) (part : Nat) (o : ObjLoc) (c : W32) (v : Obj) (wf : Memory.wf s.mem = true) :
    Memory.wf (s.objPut part o c v).2.mem = true := by
  unfold State.objPut
  dsimp only
  split
  · simp [wf]
  · split <;> simp [wf]

@[simp] theorem State.fireWatch_wf (s : State) (o : Obj) (addr : W64) (arriver : W32) (any flip : Bool) (warp : Option Nat) (wf : Memory.wf s.mem = true) :
    Memory.wf (s.fireWatch o addr arriver any flip warp).mem = true := by
  unfold State.fireWatch
  refine State.ite_wf (fun _ => ?_) fun _ => wf
  cases warp with
  | none => simp [wf]
  | some w => exact State.ite_wf (fun _ => by simp [wf]) fun _ => by simp [wf]

theorem forall_some_mem_ite {c : Prop} [Decidable c] {a b : Option State} {m : Mem} (yes : ∀ t, a = some t → t.mem = m)
    (no : ∀ t, b = some t → t.mem = m) : ∀ t, (if c then a else b) = some t → t.mem = m := by
  split
  · exact yes
  · exact no

theorem State.objHeld_mem (s : State) (core part : Nat) (write : Bool) (o : ObjLoc) :
    ∀ t, s.objHeld core part write o = some t → t.mem = s.mem := by
  unfold State.objHeld
  split
  · simp
  · exact forall_some_mem_ite (by simp) (forall_some_mem_ite (by simp) (State.clearHost_mem _ _ _ _ _))

theorem State.objWait_mem (s : State) (iss : Iss) (write : Bool) (r : LaneRes) : ∀ t, s.objWait iss write r = some t → t.mem = s.mem := by
  unfold State.objWait
  split
  · exact State.objHeld_mem _ _ _ _ _
  · split
    · simp
    · dsimp only
      split
      · split <;> simp
      · simp
  · simp

theorem State.objWaits_mem (s : State) (iss : Iss) (write : Bool) (rs : List (Nat × LaneRes)) :
    ∀ t, s.objWaits iss write rs = some t → t.mem = s.mem := by
  intro t found
  obtain ⟨r, -, waits⟩ := List.exists_of_findSome?_eq_some found
  exact State.objWait_mem _ _ _ _ t waits

@[simp] theorem Plan.checkObjs_mem (p : Plan) (iss : Iss) :
    (p.checkObjs iss).st.mem = p.st.mem := rfl

@[simp] theorem State.countObj_mem (s : State) (w : Who) (kind : Nat) (o : ObjLoc) :
    (s.countObj w kind o).mem = s.mem := by
  unfold State.countObj
  split
  · rfl
  · simp

theorem State.arrive_wf (s : State) (w : Who) (o : ObjLoc) (n : Nat) (x : W32) (wf : Memory.wf s.mem = true) :
    ∀ t, s.arrive w o n x = some t → Memory.wf t.mem = true := by
  unfold State.arrive
  dsimp only
  split
  · simp [wf]
  · split
    · simp
    · split <;> simp [wf]

@[simp] theorem State.observe_mem (s : State) (w : Who) (o : ObjLoc) :
    (s.observe w o).mem = s.mem := by
  unfold State.observe
  dsimp only
  split
  · simp
  · split <;> simp

@[simp] theorem State.block_mem (s : State) (iss : Iss) (lanes : List (Nat × Why)) :
    (s.block iss lanes).mem = s.mem := by
  unfold State.block
  split <;> rfl

end Sys2Proof.Machine
end

section
/-!
PROOFS. What the operations of Sys2Proof/Machine/Sync.lean leave of memory.
-/

namespace Sys2Proof.Machine

@[simp] theorem State.initObj_wf (s : State) (iss : Iss) (expect : Nat) (o : ObjLoc) (wf : Memory.wf s.mem = true) :
    Memory.wf (s.initObj iss expect o).mem = true := by
  unfold State.initObj
  dsimp only
  split
  · simp [wf]
  · split <;> simp [wf]

@[simp] theorem State.findAgain_wf (s : State) (w : Who) (o : ObjLoc) (wf : Memory.wf s.mem = true) :
    Memory.wf (s.findAgain w o).2.mem = true := by
  unfold State.findAgain
  dsimp only
  split
  · simp [wf]
  · split
    · dsimp only
      split <;> simp [wf]
    · dsimp only
      split <;> simp [wf]

@[simp] theorem State.barwRaise_mem (s : State) (w : Nat) (lanes : List Nat) (pc : W64) (c : Cause) (addr : W64) :
    (s.barwRaise w lanes pc c addr).mem = s.mem := rfl

@[simp] theorem State.barwTest_wf (s : State) (w : Nat) (who : Who) (b : Block) (lanes : List Nat) (o : ObjLoc) (e : Nat) (wf : Memory.wf s.mem = true) :
    Memory.wf (s.barwTest w who b lanes o e).mem = true := by
  unfold State.barwTest
  dsimp only
  split
  next _ t found => simp [snd_mem found, wf]
  next _ _ t found =>
    split
    next _ v later => simp [snd_mem found, State.objHeld_mem _ _ _ _ _ _ later, wf]
    · split
      · simp [snd_mem found, wf]
      · split
        · simp [snd_mem found, wf]
        · split <;> simp [snd_mem found, wf]

@[simp] theorem State.retestBarw_wf (s : State) (w : Nat) (wf : Memory.wf s.mem = true) :
    Memory.wf (s.retestBarw w).mem = true := by
  unfold State.retestBarw
  split
  · refine State.foldl_wf (by simp [wf]) (fun u wf a => ?_)
    split <;> simp [wf]
  · simp [wf]

@[simp] theorem State.retestWaitc_mem (s : State) (w : Nat) :
    (s.retestWaitc w).mem = s.mem := by
  unfold State.retestWaitc
  dsimp only
  split
  · rfl
  · refine State.foldl_mem (fun u a => ?_)
    split
    · split
      · rfl
      · split
        · rfl
        · simp
    · rfl

@[simp] theorem State.joinTimeout_mem (s : State) (w k : Nat) :
    (s.joinTimeout w k).mem = s.mem := by
  unfold State.joinTimeout
  dsimp only
  split
  · rfl
  · split
    · split <;> rfl
    · rfl

@[simp] theorem State.napExpire_mem (s : State) (w : Nat) :
    (s.napExpire w).mem = s.mem := by
  unfold State.napExpire
  dsimp only
  split <;> rfl

end Sys2Proof.Machine
end

section
/-!
PROOFS. What the operations of Sys2Proof/Machine/Control.lean leave of memory.
-/

namespace Sys2Proof.Machine

@[simp] theorem State.setDepth_mem (s : State) (g : Agent) (spec : Option Nat) (lane n : Nat) :
    (s.setDepth g spec lane n).mem = s.mem := by simp [State.setDepth]

@[simp] theorem State.link_mem (s : State) (iss : Iss) (lanes : List Nat) (spec : Option Nat) :
    (s.link_ iss lanes spec).mem = s.mem := by simp [State.link_]

@[simp] theorem State.predict_mem (s : State) (iss : Iss) (w : Nat) (call : Bool) (target : Nat → W64) :
    (s.predict iss w call target).st.mem = s.mem := by
  unfold State.predict
  dsimp only
  split
  · rfl
  · split
    · rfl
    · dsimp only
      split
      · rw [State.link_mem]
        split <;> simp [State.foldl_mem]
      · rw [State.updWarp_mem]
        split <;> rfl

theorem State.takeSafe_mem (s : State) (g : Agent) (i : Nat) :
    ∀ t, s.takeSafe g i = some t → t.mem = s.mem := by
  unfold State.takeSafe
  dsimp only
  split
  · simp
  · split
    · split
      · split
        · split <;> simp
        · split
          · split <;> simp
          · simp
      · simp
    · simp

@[simp] theorem State.uniformGo_mem (s : State) (iss : Iss) (tgt : W64) (cause : Option Cause) (depth : Nat → Nat) :
    (s.uniformGo iss tgt cause depth).st.mem = s.mem := by
  unfold State.uniformGo
  split
  · rfl
  · refine State.foldl_mem (fun u a => ?_)
    simp

end Sys2Proof.Machine
end

section
/-!
PROOFS. What the operations of Sys2Proof/Machine/Engine.lean leave of memory.
-/

namespace Sys2Proof.Machine

@[simp] theorem State.pushEvent_mem (s : State) (team : Nat) (r : EvRec) :
    (s.pushEvent team r).mem = s.mem := rfl

@[simp] theorem State.teamRecord_mem (s : State) (entry num : Nat) (r : EvRec) :
    (s.teamRecord entry num r).mem = s.mem := by
  unfold State.teamRecord
  split
  · rfl
  · split <;> rfl

@[simp] theorem State.lock_mem (s : State) (core : Nat) (ls : List Lock) :
    (s.lock core ls).mem = s.mem := rfl

@[simp] theorem State.unlock_mem (s : State) (owner : Nat) (destOnly : Bool) :
    (s.unlock owner destOnly).mem = s.mem := rfl

@[simp] theorem State.updPiece_mem (s : State) (r : EngRef) (at_ : Nat) (f : Piece → Piece) :
    (s.updPiece r at_ f).mem = s.mem := by
  unfold State.updPiece
  dsimp only
  split <;> rfl

@[simp] theorem State.raiseT_mem (s : State) (r : EngRef) (t : W32) :
    (s.raiseT r t).mem = s.mem := by
  unfold State.raiseT
  split <;> rfl

@[simp] theorem State.engFail_mem (s : State) (r : EngRef) (c : Cause) (va : W64) :
    (s.engFail r c va).mem = s.mem := by
  unfold State.engFail
  split <;> rfl

@[simp] theorem State.setNoPage_mem (s : State) (r : EngRef) (x : Option (W64 × Cause)) :
    (s.setNoPage r x).mem = s.mem := by
  unfold State.setNoPage
  split <;> rfl

@[simp] theorem State.pieceBad_mem (s : State) (r : EngRef) (at_ : Nat) (c : Cause) (va : W64) :
    (s.pieceBad r at_ c va).mem = s.mem := by simp [State.pieceBad]

@[simp] theorem State.engNote_mem (s : State) (team : Nat) (c : Cause) (va : W64) :
    (s.engNote team c va).mem = s.mem := by
  unfold State.engNote
  split
  · simp
  · rfl

@[simp] theorem State.engWalk_mem (s : State) (w : Who) (r : EngRef) (va : W64) (access : Access) : (s.engWalk w r va access).mem = s.mem := by
  unfold State.engWalk
  split
  · rfl
  · split
    next id t found => exact State.askWalk_mem _ _ _ _ _ _ (id, t) found
    · rfl

theorem State.engMiss_mem (s : State) (w : Who) (r : EngRef) (va : W64) (access : Access) :
    ∀ t, s.engMiss w r va access = .wait t → t.mem = s.mem := by
  unfold State.engMiss
  split
  · split <;> simp
  · simp

theorem State.engReach_mem (s : State) (w : Who) (r : EngRef) (va : W64) (n : Nat) (access : Access) :
    ∀ t, s.engReach w r va n access = .wait t → t.mem = s.mem := by
  unfold State.engReach
  split
  · simp
  · simp
  · exact s.engMiss_mem _ _ _ _
  · split
    · simp
    · split <;> simp

@[simp] theorem State.countEng_mem (s : State) (w : Who) (r : EngRef) (sg : Seg) :
    (s.countEng w r sg).mem = s.mem := by
  unfold State.countEng
  split
  · split
    · simp
    · rfl
  · split
    · simp
    · rfl

theorem State.engTouch_mem (s : State) (w : Who) (r : EngRef) (team off n : Nat) (by_ : W32 × W64) :
    ∀ t, s.engTouch w r team off n by_ = .wait t → t.mem = s.mem := by
  unfold State.engTouch
  split
  · simp
  · split
    · simp
    · split
      · simp
      · split
        · split
          · simp
          · intro v same
            cases same
            exact State.fillRegions_mem (fun u sg => State.countEng_mem ..)
        · exact s.engMiss_mem _ _ _ _
        · simp
        · simp
        · simp

@[simp] theorem State.engBytes_mem (s : State) (r : EngRef) (at_ pos n v : Nat) :
    (s.engBytes r at_ pos n v).mem = s.mem := by simp [State.engBytes]

@[simp] theorem State.engRead_mem (s : State) (w : Who) (r : EngRef) (at_ : Nat) (c : W32) (edge : W64) (sg : Seg) :
    (s.engRead w r at_ c edge sg).mem = s.mem := by
  unfold State.engRead
  dsimp only
  split
  · split
    · split <;> simp
    · simp
  · simp
  · simp
  · simp
  · split <;> simp
  · simp
  · simp

@[simp] theorem State.engWrite_mem (s : State) (w : Who) (r : EngRef) (at_ : Nat) (c : W32) (edge : W64) (sg : Seg) (data : Nat) :
    (s.engWrite w r at_ c edge sg data).mem = s.mem := by
  unfold State.engWrite
  dsimp only
  split <;> simp

@[simp] theorem State.moreReads_mem (s : State) (r : EngRef) (at_ : Nat) :
    (s.moreReads r at_).mem = s.mem := by simp [State.moreReads]

@[simp] theorem State.moreWrites_mem (s : State) (r : EngRef) (at_ : Nat) :
    (s.moreWrites r at_).mem = s.mem := by simp [State.moreWrites]

@[simp] theorem State.readDone_mem (s : State) (r : EngRef) (at_ : Nat) :
    (s.readDone r at_).mem = s.mem := by simp [State.readDone]

@[simp] theorem State.writeDone_mem (s : State) (r : EngRef) (at_ : Nat) :
    (s.writeDone r at_).mem = s.mem := by simp [State.writeDone]

@[simp] theorem State.engReads_mem (s : State) (w : Who) (r : EngRef) (at_ : Nat) (c : W32) (edge : W64) (segs : List Seg) :
    (s.engReads w r at_ c edge segs).mem = s.mem := by
  unfold State.engReads
  split
  · simp
  · refine State.foldl_mem (fun u a => ?_)
    simp

@[simp] theorem State.engWrites_mem (s : State) (w : Who) (r : EngRef) (at_ : Nat) (c : W32) (edge : W64) (segs : List Seg) (data : Nat) :
    (s.engWrites w r at_ c edge segs data).mem = s.mem := by
  unfold State.engWrites
  split
  · simp
  · refine State.foldl_mem (fun u a => ?_)
    simp

@[simp] theorem State.spRead_mem (s : State) (r : EngRef) (at_ team off pos n : Nat) :
    (s.spRead r at_ team off pos n).mem = s.mem := by
  unfold State.spRead
  split <;> simp

@[simp] theorem State.spReads_mem (s : State) (r : EngRef) (at_ team off pos n : Nat) :
    (s.spReads r at_ team off pos n).mem = s.mem := by
  unfold State.spReads
  split
  · simp
  · refine State.foldl_mem (fun u a => ?_)
    simp

@[simp] theorem State.spWrites_mem (s : State) (r : EngRef) (at_ owner team off n data : Nat) (c : W32) :
    (s.spWrites r at_ owner team off n data c).mem = s.mem := by
  unfold State.spWrites
  split
  · rfl
  · refine State.foldl_mem (fun u a => ?_)
    simp

@[simp] theorem State.keepCarry_mem (s : State) (r : EngRef) (p : Piece) :
    (s.keepCarry r p).mem = s.mem := by
  unfold State.keepCarry
  dsimp only
  split <;> rfl

@[simp] theorem State.sendPiece_mem (s : State) (r : EngRef) (at_ : Nat) :
    (s.sendPiece r at_).mem = s.mem := by
  unfold State.sendPiece
  dsimp only
  split
  · split
    · rfl
    · split
      · rfl
      · split
        · simp
        · simp [State.foldl_mem]
  · rfl

@[simp] theorem State.sendPieces_mem (s : State) (r : EngRef) (ps : List Piece) :
    (s.sendPieces r ps).mem = s.mem := by
  unfold State.sendPieces
  simp [State.foldl_mem]

@[simp] theorem State.engData_mem (s : State) (r : EngRef) (at_ pos n v : Nat) (c : Cause) :
    (s.engData r at_ pos n v c).mem = s.mem := by
  unfold State.engData
  dsimp only
  split <;> simp

@[simp] theorem State.engWrote_mem (s : State) (r : EngRef) (at_ : Nat) (core : Nat) (w' : Option W32) :
    (s.engWrote r at_ core w').mem = s.mem := by
  unfold State.engWrote
  dsimp only
  split <;> simp

@[simp] theorem State.performUnit_mem (s : State) (team : Nat) (k : UnitKind) :
    (s.performUnit team k).mem = s.mem := by
  unfold State.performUnit
  dsimp only
  split
  · split
    · simp
    · rfl
  · split
    · simp
    · rfl
  · split
    · split
      · simp
      · rfl
    · rfl
  · split
    · split
      · simp
      · rfl
    · rfl
  · split
    · simp
    · rfl
  · split
    · simp
    · rfl

@[simp] theorem State.unitMove_mem (s : State) (id : Nat) :
    (s.unitMove id).mem = s.mem := by
  unfold State.unitMove
  dsimp only
  split
  · rfl
  · split <;> simp

end Sys2Proof.Machine
end

section
/-!
PROOFS. What the operations of Sys2Proof/Machine/Matrix.lean leave of memory.
-/

namespace Sys2Proof.Machine

@[simp] theorem State.enqueue_mem (s : State) (iss : Iss) (w : Nat) (o : Nat → MxOp) (locks : Nat → List Lock) :
    (s.enqueue iss w o locks).mem = s.mem := by
  unfold State.enqueue
  dsimp only
  split
  · split
    · rfl
    · simp
  · rfl

@[simp] theorem State.latchRows_mem (s : State) (iss : Iss) (y : Warp) (base : Nat) (regs : Tab W32) :
    (s.latchRows iss y base regs).2.mem = s.mem := by
  unfold State.latchRows
  dsimp only
  split <;> rfl

@[simp] theorem State.mxqGo_mem (s : State) (iss : Iss) (w : Nat) (y : Warp) :
    (s.mxqGo iss w y).mem = s.mem := by simp [State.mxqGo]

@[simp] theorem State.mxMemGo_mem (s : State) (iss : Iss) (w : Nat) (y : Warp) (store : Bool) :
    (s.mxMemGo iss w y store).mem = s.mem := by simp [State.mxMemGo]

@[simp] theorem State.mxDone_mem (s : State) (w : Nat) (o : MxOp) :
    (s.mxDone w o).mem = s.mem := by
  unfold State.mxDone
  dsimp only
  split <;> rfl

@[simp] theorem State.mxRecord_mem (s : State) (w : Nat) (o : MxOp) (status flags : Nat) (c : Cause) :
    (s.mxRecord w o status flags c).mem = s.mem := by
  unfold State.mxRecord
  split <;> rfl

@[simp] theorem State.mxError_mem (s : State) (w : Nat) (o : MxOp) (c : Cause) (va : W64) :
    (s.mxError w o c va).mem = s.mem := by simp [State.mxError]

@[simp] theorem State.mxFault_mem (s : State) (w : Nat) (o : MxOp) (asid : W16) (c : Cause) (va : W64) (serve : Bool) (access : Access) :
    (s.mxFault w o asid c va serve access).mem = s.mem := by
  unfold State.mxFault
  dsimp only
  split
  · simp
  · split
    · split
      · rfl
      · simp
    · split
      · simp
      · rfl

@[simp] theorem State.mxPri_mem (s : State) (w : Nat) (o : MxOp) (asid : W16) (pa : Nat) :
    (s.mxPri w o asid pa).mem = s.mem := by
  unfold State.mxPri
  dsimp only
  split
  · rfl
  · simp

@[simp] theorem State.touchHead_mem (s : State) (w : Nat) (x : Warp) (o : MxOp) : (s.touchHead w x o).mem = s.mem := by
  unfold State.touchHead
  split
  · simp
  · split
    · rfl
    · split
      · rfl
      · split
        next t found => exact State.engTouch_mem _ _ _ _ _ _ _ _ found
        · rfl
        · simp

@[simp] theorem State.touchHeads_mem (s : State) (core : Nat) : (s.touchHeads core).mem = s.mem := by
  refine State.foldl_mem (fun u e => ?_)
  split
  · split <;> simp
  · rfl

@[simp] theorem State.beginPass_mem (s : State) (core : Nat) (pass : Pass) (ptr : Nat) (rest : Option (Nat × Nat)) :
    (s.beginPass core pass ptr rest).mem = s.mem := by
  unfold State.beginPass
  refine State.foldl_mem (fun u a => ?_)
  dsimp only
  split
  · split <;> rfl
  · rfl

@[simp] theorem State.passStart_mem (s : State) (core : Nat) : (s.passStart core).mem = s.mem := by
  unfold State.passStart
  dsimp only
  split
  · simp
  · split
    · simp
    · split <;> simp

@[simp] theorem State.passWritePart_mem (s : State) (p : Pass) (e : Nat × Nat × Nat) :
    (s.writePart_ p e).mem = s.mem := by
  unfold State.writePart_
  dsimp only
  split
  · rfl
  · split
    · rfl
    · split
      · simp
      · rfl

@[simp] theorem State.passWrite_mem (s : State) (core : Nat) :
    (s.passWrite core).mem = s.mem := by
  unfold State.passWrite
  split
  · split
    · rfl
    · refine State.foldl_mem (fun u a => ?_)
      simp
  · rfl

@[simp] theorem State.mxPiece_mem (s : State) (w : Nat) (x : Warp) (o : MxOp) (total : Nat) : (s.mxPiece w x o total).mem = s.mem := by
  unfold State.mxPiece
  dsimp only
  split
  · rfl
  · split
    · rfl
    · split
      · split
        next t found => exact State.engTouch_mem _ _ _ _ _ _ _ _ found
        · simp
        · split
          · simp
          · split <;> simp
      · split
        next t found => exact State.engReach_mem _ _ _ _ _ _ _ found
        · simp
        · split
          next sg t found => simp [snd_mem found]
          next t found => split <;> simp [snd_mem found]

@[simp] theorem State.mxLand_mem (s : State) (w : Nat) (o : MxOp) (p : Piece) :
    (s.mxLand w o p).mem = s.mem := rfl

@[simp] theorem State.updMx_mem (s : State) (w id : Nat) (f : MxOp → MxOp) :
    (s.updMx w id f).mem = s.mem := rfl

@[simp] theorem State.mxOver_mem (s : State) (w id : Nat) :
    (s.mxOver w id).mem = s.mem := by
  unfold State.mxOver
  split
  · rfl
  · split
    · rfl
    · split
      · rfl
      · split <;> simp

@[simp] theorem State.mxMemory_mem (s : State) (core w : Nat) (x : Warp) (o : MxOp) :
    (s.mxMemory core w x o).mem = s.mem := by
  unfold State.mxMemory
  dsimp only
  split
  · simp
  · split
    · simp
    · rfl
  · split
    · rfl
    · split
      · split
        · rfl
        · split
          · simp
          · rfl
      · simp

@[simp] theorem State.portOp_mem (s : State) (core w : Nat) (x : Warp) (o : MxOp) : (s.portOp core w x o).mem = s.mem := by
  unfold State.portOp
  split
  · rfl
  · dsimp only
    rw [State.mxDone_mem]
    split
    · rfl
    · exact (State.foldl_mem (fun u j => by simp)).trans (State.updFlight_mem ..)
    · rfl
    · exact (State.foldl_mem (fun u j => by simp)).trans (State.updFlight_mem ..)
    · rfl

@[simp] theorem State.portTake_mem (s : State) (core : Nat) :
    (s.portTake core).mem = s.mem := by
  unfold State.portTake
  split
  · rfl
  · split <;> rfl

@[simp] theorem State.portServe_mem (s : State) (core : Nat) :
    (s.portServe core).mem = s.mem := by
  unfold State.portServe
  dsimp only
  split
  · simp
  · rw [State.portTake_mem]
    split <;> simp

@[simp] theorem State.portMove_mem (s : State) (core : Nat) :
    (s.portMove core).mem = s.mem := by
  unfold State.portMove
  split <;> simp

@[simp] theorem State.engineError_mem (s : State) (w tile : Nat) :
    (s.engineError w tile).mem = s.mem := by
  unfold State.engineError
  dsimp only
  split
  · rfl
  · split
    · rfl
    · split <;> rfl

end Sys2Proof.Machine
end

section
/-!
PROOFS. What the operations of Sys2Proof/Machine/Transfer.lean leave of memory.
-/

namespace Sys2Proof.Machine

@[simp] theorem State.updateObj_wf (s : State) (c : Cmd) (part : Nat) (o : ObjLoc) (who : W32) (arrives : Bool) (f : Obj → Bool × Obj) (wf : Memory.wf s.mem = true) :
    Memory.wf (s.updateObj c part o who arrives f).mem = true := by
  unfold State.updateObj
  dsimp only
  split <;> simp [wf]

theorem State.objsHeld_mem (s : State) (c : Cmd) (os : List ObjLoc) : ∀ t, s.objsHeld c os = some t → t.mem = s.mem := by
  unfold State.objsHeld
  split
  · simp
  · intro t found
    obtain ⟨o, -, waits⟩ := List.exists_of_findSome?_eq_some found
    split at waits
    · exact State.objHeld_mem _ _ _ _ _ t waits
    · split at waits
      next v touched =>
        cases waits
        exact State.engTouch_mem _ _ _ _ _ _ _ _ touched
      · cases waits

theorem State.barHeld_mem (s : State) (c : Cmd) : ∀ t, s.barHeld c = some t → t.mem = s.mem := by
  unfold State.barHeld
  dsimp only
  split
  next t waits =>
    split at waits
    · cases waits
    · split at waits
      · cases waits
      · split at waits
        · cases waits
          simp
        · cases waits
  · exact State.objsHeld_mem _ _ _

@[simp] theorem State.updObjs_wf (s : State) (c : Cmd) (os : List ObjLoc) (arrives : Bool) (f : Obj → Bool × Obj) (wf : Memory.wf s.mem = true) :
    Memory.wf (s.updObjs c os arrives f).mem = true := by
  unfold State.updObjs
  refine State.foldl_wf (by simp [wf]) (fun u wf a => ?_)
  simp [wf]

@[simp] theorem State.updCmd_mem (s : State) (id : Nat) (f : Cmd → Cmd) :
    (s.updCmd id f).mem = s.mem := rfl

@[simp] theorem State.cmdMarks_wf (s : State) (c : Cmd) (wf : Memory.wf s.mem = true) :
    Memory.wf (s.cmdMarks c).mem = true := by
  unfold State.cmdMarks
  dsimp only
  split
  · split
    · simp [wf]
    · refine State.foldl_wf (by simp [wf]) (fun u wf a => ?_)
      simp [wf]
  · simp [wf]

@[simp] theorem State.cmdCounted_mem (s : State) (c : Cmd) :
    (s.cmdCounted c).mem = s.mem := by
  unfold State.cmdCounted
  split <;> rfl

@[simp] theorem State.cmdEvent_mem (s : State) (c : Cmd) (cause : Option Cause) :
    (s.cmdEvent c cause).mem = s.mem := by
  unfold State.cmdEvent
  dsimp only
  split
  · rfl
  · split <;> rfl

@[simp] theorem State.cmdEnd_wf (s : State) (c : Cmd) (cause : Option Cause) (wf : Memory.wf s.mem = true) :
    Memory.wf (s.cmdEnd c cause).mem = true := by
  unfold State.cmdEnd
  dsimp only
  split
  · split
    · dsimp only
      split <;> simp [wf]
    · split <;> simp [wf]
  · split
    · dsimp only
      split <;> simp [wf]
    · split <;> simp [wf]

@[simp] theorem State.castAck_wf (s : State) (id rank : Nat) (wf : Memory.wf s.mem = true) :
    Memory.wf (s.castAck id rank).mem = true := by
  unfold State.castAck
  split
  · exact wf
  · refine State.ite_wf (fun _ => wf) fun _ => ?_
    split
    next t found => exact State.objsHeld_mem _ _ _ t found ▸ wf
    next =>
      refine State.ite_wf (fun _ => ?_) fun _ => ?_
      · change Memory.wf (State.mem (State.unlock _ id false)) = true
        rw [State.unlock_mem]
        split
        · exact wf
        · split <;> simp [wf]
      · rw [State.updCmd_mem]
        split
        · exact wf
        · split <;> simp [wf]

theorem State.startWait_mem (s : State) (w : Who) (d : Desc) (id : Nat) (by_ : W32 × W64) : ∀ t, s.startWait w d id by_ = some t → t.mem = s.mem := by
  unfold State.startWait
  split
  · simp
  · dsimp only
    split
    next t touched =>
      split at touched
      · split at touched
        next v found =>
          cases touched
          simpa using State.engTouch_mem _ _ _ _ _ _ _ _ found
        · cases touched
      · cases touched
    · intro t filled
      obtain ⟨pa, -, rfl⟩ := Option.map_eq_some_iff.1 filled
      exact State.fillHost_mem ..

@[simp] theorem State.takeLocks_mem (s : State) (locks : List (Nat × Lock)) :
    (s.takeLocks locks).mem = s.mem := by
  unfold State.takeLocks
  refine State.foldl_mem (fun u a => ?_)
  rfl

theorem State.startCmd_mem (s : State) (w : Who) (d : Desc) (o : Origin) (held : Option Nat) :
    ∀ t, s.startCmd w d o held = .ok t ∨ s.startCmd w d o held = .error t → t.mem = s.mem := by
  unfold State.startCmd
  split
  · simp
  · split
    · simp
    · split
      next id u numbered =>
        have same : u.mem = s.mem := by
          split at numbered <;> cases numbered <;> rfl
        dsimp only
        split
        next t found => simp [State.startWait_mem _ _ _ _ _ _ found, same]
        · split
          · simp [same]
          · split
            · simp [same]
            · split <;> simp [same]

@[simp] theorem State.beginPiece_mem (s : State) (w : Who) (c : Cmd) (p : Piece) (reads : List Seg) (unit off : Nat) (sp : Option (Nat × Nat × Nat)) :
    (s.beginPiece w c p reads unit off sp).mem = s.mem := by
  unfold State.beginPiece
  dsimp only
  rw [State.sendPiece_mem]
  rw [State.engReads_mem]
  split
  · simp
  · rfl

theorem State.engReaches_mem (s : State) (w : Who) (r : EngRef) (as : List (W64 × Nat × Nat)) (access : Access) :
    ∀ t, s.engReaches w r as access = .wait t → t.mem = s.mem := by
  refine List.foldlRecOn (motive := fun x : EngReach => ∀ t, x = .wait t → t.mem = s.mem) as _ (by simp) fun x kept a _ => ?_
  split
  · split
    · simp
    · exact s.engReach_mem _ _ _ _ _
  · exact kept

theorem State.pieceDst_mem (s : State) (w : Who) (c : Cmd) (dst : Int) (n : Nat) :
    ∀ x, s.pieceDst w c dst n = .error x → ∀ t, x = .wait t → t.mem = s.mem := by
  unfold State.pieceDst
  dsimp only
  split
  · split
    next x found =>
      obtain ⟨k, -, touched⟩ := List.exists_of_findSome?_eq_some found
      split at touched
      · cases touched
      · cases touched
        simpa using State.engTouch_mem _ _ _ _ _ _ _
    · simp
  · split
    · simp
    · intro y same
      cases same
      exact s.engReach_mem _ _ _ _ _

theorem EngReach.asStep_mem {r : EngReach} {s : State} (kept : ∀ t, r = .wait t → t.mem = s.mem) (access : Access) :
    ∀ t, r.asStep s access = .go t → t.mem = s.mem := by
  unfold EngReach.asStep
  split
  · simp
  next v => simpa using kept
  · simp

theorem State.orPri_mem {s : State} {segs : List Seg} {go : State → EngStep} (kept : ∀ u t, go u = .go t → t.mem = u.mem) :
    ∀ t, s.orPri segs go = .go t → t.mem = s.mem := by
  unfold State.orPri
  split
  · simp
  next u found =>
    intro t gone
    rw [kept u t gone, snd_mem found, State.atsMiss_mem]

theorem State.decodeInto_mem (s : State) (w : Who) (c : Cmd) (k unit off : Nat) (dst : Int) (n : Nat) (t4 : Bool) (wide : Ty) (scales : List Nat)
    (raw : Tab Byte) (reads : List Seg) :
    ∀ t, s.decodeInto w c k unit off dst n t4 wide scales raw reads = .go t → t.mem = s.mem := by
  unfold State.decodeInto
  dsimp only
  split
  next x found => exact EngReach.asStep_mem (State.pieceDst_mem _ _ _ _ _ x found) _
  · refine State.orPri_mem (fun u t gone => ?_)
    cases gone
    split <;> simp

theorem State.decodePiece_mem (s : State) (w : Who) (c : Cmd) (src0 : Int) (b k : Nat) (dst : Int) (n : Nat) :
    ∀ t, s.decodePiece w c src0 b k dst n = .go t → t.mem = s.mem := by
  unfold State.decodePiece
  dsimp only
  split
  · simp
  · split
    · exact State.decodeInto_mem _ _ _ _ _ _ _ _ _ _ _ _ _
    · split
      · split
        · simp
        · split
          · simp
          · split
            · exact State.decodeInto_mem _ _ _ _ _ _ _ _ _ _ _ _ _
            · exact EngReach.asStep_mem (State.engReaches_mem _ _ _ _ _) _
      · exact EngReach.asStep_mem (State.engReach_mem _ _ _ _ _ _) _

theorem State.sourcePiece_mem (s : State) (w : Who) (c : Cmd) (p : Piece) (b len extra : Nat) (reads out : List Seg) (unit : Nat) :
    ∀ t, s.sourcePiece w c p b len extra reads out unit = .go t → t.mem = s.mem := by
  have begins : ∀ (p : Piece) (reads : List Seg) (sp : Option (Nat × Nat × Nat)) (u t : State),
      EngStep.go (u.beginPiece w c p reads unit 0 sp) = .go t → t.mem = u.mem := by
    intro p reads sp u t gone
    cases gone
    exact State.beginPiece_mem ..
  unfold State.sourcePiece
  dsimp only
  split
  · split
    · split
      · simp
      · exact State.orPri_mem (begins _ _ _)
    · exact EngReach.asStep_mem (State.engTouch_mem _ _ _ _ _ _ _) _
  · split
    · exact State.orPri_mem (begins _ _ _)
    · split
      · exact State.orPri_mem (begins _ _ _)
      · exact EngReach.asStep_mem (State.engReach_mem _ _ _ _ _ _) _

theorem State.encodePiece_mem (s : State) (w : Who) (c : Cmd) (src0 : Int) (b k : Nat) (dst : Int) (n left : Nat) :
    ∀ t, s.encodePiece w c src0 b k dst n left = .go t → t.mem = s.mem := by
  unfold State.encodePiece
  dsimp only
  split
  · simp
  · split
    · split
      · simp
      · split
        · simp
        · split
          · exact State.sourcePiece_mem _ _ _ _ _ _ _ _ _ _
          · exact EngReach.asStep_mem (State.engReaches_mem _ _ _ _ _) _
    · exact EngReach.asStep_mem (State.engReach_mem _ _ _ _ _ _) _

theorem State.movePiece_mem (s : State) (w : Who) (c : Cmd) (src0 : Int) (b k : Nat) (dst : Int) (n left : Nat) :
    ∀ t, s.movePiece w c src0 b k dst n left = .go t → t.mem = s.mem := by
  unfold State.movePiece
  dsimp only
  split
  · simp
  · split
    next x found => exact EngReach.asStep_mem (State.pieceDst_mem _ _ _ _ _ x found) _
    · exact State.sourcePiece_mem _ _ _ _ _ _ _ _ _ _

theorem State.barReach_mem (s : State) (w : Who) (c : Cmd) :
    ∀ x, s.barReach w c = .error x → ∀ t, x = .wait t → t.mem = s.mem := by
  unfold State.barReach
  dsimp only
  split
  · split
    next x found =>
      obtain ⟨k, -, touched⟩ := List.exists_of_findSome?_eq_some found
      split at touched
      · cases touched
      · cases touched
        simpa using State.engTouch_mem _ _ _ _ _ _ _
    · simp
  · split
    · split <;> simp
    · simp
    next x _ _ =>
      intro y same
      cases same
      exact s.engReach_mem _ _ _ _ _

theorem State.cmdStep_mem (s : State) (c : Cmd) : ∀ t, s.cmdStep c = .go t → t.mem = s.mem := by
  unfold State.cmdStep
  dsimp only
  split
  · simp
  · split
    next x found => exact EngReach.asStep_mem (State.barReach_mem _ _ _ x found) _
    · split
      · split
        next x found => exact EngReach.asStep_mem (State.pieceDst_mem _ _ _ _ _ x found) _
        · refine State.orPri_mem (fun u t gone => ?_)
          cases gone
          exact State.beginPiece_mem ..
      · split
        · exact State.decodePiece_mem _ _ _ _ _ _ _ _
        · split
          · exact State.encodePiece_mem _ _ _ _ _ _ _ _ _
          · exact State.movePiece_mem _ _ _ _ _ _ _ _ _

@[simp] theorem State.cmdLand_wf (s : State) (c : Cmd) (p : Piece) (wf : Memory.wf s.mem = true) :
    Memory.wf (s.cmdLand c p).mem = true := by
  unfold State.cmdLand
  dsimp only
  split
  next _ t found => simp [State.objsHeld_mem _ _ _ _ found, wf]
  · split
    · split <;> simp [wf]
    · simp [wf]

@[simp] theorem State.pieceTurn_wf (s : State) (id : Nat) (wf : Memory.wf s.mem = true) :
    Memory.wf (s.pieceTurn id).mem = true := by
  unfold State.pieceTurn
  split
  · simp [wf]
  · split
    · simp [wf]
    · split
      · simp [wf]
      · split
        · split
          · split
            next _ t found => simp [State.barHeld_mem _ _ _ found, wf]
            · simp [wf]
          · simp [wf]
        · split
          · simp [wf]
          · split
            next _ t found => simp [State.cmdStep_mem _ _ _ found, wf]
            · simp [wf]

@[simp] theorem State.pieceLand_wf (s : State) (id : Nat) (wf : Memory.wf s.mem = true) :
    Memory.wf (s.pieceLand id).mem = true := by
  unfold State.pieceLand
  split <;> simp [wf]

@[simp] theorem State.cmdFault_mem (s : State) (c : Cmd) (k : Cause) (va : W64) (serve : Bool) (access : Access) :
    (s.cmdFault c k va serve access).mem = s.mem := by
  unfold State.cmdFault
  dsimp only
  split
  · rfl
  · split
    · simp
    · split
      · rfl
      · simp

@[simp] theorem State.pieceFault_mem (s : State) (id : Nat) :
    (s.pieceFault id).mem = s.mem := by
  unfold State.pieceFault
  dsimp only
  split
  · rfl
  · split
    · rfl
    · split
      · rfl
      · simp
      · split <;> rfl

@[simp] theorem State.nextCsn_mem (s : State) (iss : Iss) :
    (s.nextCsn iss).mem = s.mem := by
  unfold State.nextCsn
  split <;> rfl

theorem State.copyStart_mem (s : State) (iss : Iss) (counts : Bool) (off : Nat) :
    ∀ t, s.copyStart iss counts off = .ok t ∨ s.copyStart iss counts off = .error t → t.mem = s.mem := by
  unfold State.copyStart
  intro t started
  exact (State.startCmd_mem _ _ _ _ _ t started).trans (State.nextCsn_mem ..)

@[simp] theorem State.releaseDesc_mem (s : State) (w : Who) (k : Nat) (o : Origin) :
    (s.releaseDesc w k o).mem = s.mem := by
  unfold State.releaseDesc
  dsimp only
  split
  · rfl
  · split
    · rfl
    · split
      · rfl
      · split
        · simp
        · rfl

@[simp] theorem State.releaseStage_mem (s : State) (team : Nat) (o : Origin) :
    (s.releaseStage team o).mem = s.mem := by
  unfold State.releaseStage
  split
  · refine State.foldl_mem (fun u a => ?_)
    simp
  · rfl

@[simp] theorem State.advanceStage_mem (s : State) (team new : Nat) (ct : Bool) (o : Origin) :
    (s.advanceStage team new ct o).mem = s.mem := by simp [State.advanceStage]

@[simp] theorem State.schedIssue_mem (s : State) (team : Nat) : (s.schedIssue team).mem = s.mem := by
  unfold State.schedIssue
  split
  · split
    · split
      next t found => exact State.startCmd_mem _ _ _ _ _ t (.inr found)
      next t found => exact State.startCmd_mem _ _ _ _ _ t (.inl found)
    · split
      · split
        · split
          · rfl
          · split
            next t found => exact State.startCmd_mem _ _ _ _ _ t (.inr found)
            next t found => exact State.startCmd_mem _ _ _ _ _ t (.inl found)
        · rfl
      · rfl
  · rfl

end Sys2Proof.Machine
end

section
/-!
PROOFS. What the operations of Sys2Proof/Machine/Queues.lean leave of memory.
-/

namespace Sys2Proof.Machine

@[simp] theorem State.retestDqpop_mem (s : State) (w : Nat) :
    (s.retestDqpop w).mem = s.mem := by
  unfold State.retestDqpop
  dsimp only
  split
  · rfl
  · refine State.foldl_mem (fun u a => ?_)
    split
    · split
      · rfl
      · split
        · simp
        · split <;> rfl
    · rfl

@[simp] theorem State.askSvc_mem (s : State) (w : Nat) (r : SvcReq) :
    (s.askSvc w r).mem = s.mem := rfl

@[simp] theorem State.callPlain_mem (s : State) (iss : Iss) (w : Nat) (t : Team) :
    (s.callPlain iss w t).mem = s.mem := by simp [State.callPlain]

@[simp] theorem State.callGuess_mem (s : State) (iss : Iss) (w : Nat) (t : Team) (v : W64) :
    (s.callGuess iss w t v).mem = s.mem := by simp [State.callGuess]

@[simp] theorem State.learnSvc_mem (s : State) (team : Nat) (r : SvcReq) (v : W64) :
    (s.learnSvc team r v).mem = s.mem := rfl

@[simp] theorem State.deferCall_mem (s : State) (team : Nat) (r : SvcReq) (v : W64) :
    (s.deferCall team r v).mem = s.mem := by
  unfold State.deferCall
  dsimp only
  split <;> rfl

@[simp] theorem State.oweTrap_mem (s : State) (g : Agent) :
    (s.oweTrap g).mem = s.mem := by
  unfold State.oweTrap
  split
  · split
    · rfl
    · simp
  · rfl

@[simp] theorem State.svcLands_mem (s : State) (w : Nat) (r : SvcReq) (lanes : Mask) (dest : List RegWrite) (err : Bool) :
    (s.svcLands w r lanes dest err).mem = s.mem := by
  unfold State.svcLands
  dsimp only
  split
  · rfl
  · split
    · split <;> simp
    · simp

@[simp] theorem State.svcChecks_wf (s : State) (w : Nat) (e : SpecEntry) (lanes : Mask) (dest : List RegWrite) (value : W64) (err : Bool) (wf : Memory.wf s.mem = true) :
    Memory.wf (s.svcChecks w e lanes dest value err).mem = true := by
  unfold State.svcChecks
  dsimp only
  split
  · split
    · simp [wf]
    · split
      · split <;> simp [wf]
      · simp [wf]
  · split
    · simp [wf]
    · split
      · split <;> simp [wf]
      · simp [wf]

@[simp] theorem State.landOlder_mem (s : State) (w : Nat) :
    (s.landOlder w).mem = s.mem := by
  unfold State.landOlder
  dsimp only
  split
  · rfl
  · split
    · simp
    · simp [State.foldl_mem]

@[simp] theorem State.svcAnswer_wf (s0 : State) (w : Nat) (value : W64) (err : Bool) (wf : Memory.wf s0.mem = true) :
    Memory.wf (s0.svcAnswer w value err).mem = true := by
  unfold State.svcAnswer
  dsimp only
  split
  · exact wf
  · split
    · exact wf
    · refine State.ite_wf (fun _ => wf) fun _ => ?_
      split
      · simp [apply_ite State.mem, wf]
      · generalize Option.isSome _ = predicted
        split
        · simp [apply_ite State.mem, wf]
        · exact State.svcChecks_wf _ _ _ _ _ _ _ (by simp [apply_ite State.mem, wf])

@[simp] theorem State.takeEvent_mem (s : State) (iss : Iss) (r : EvRec) :
    (s.takeEvent iss r).mem = s.mem := by
  unfold State.takeEvent
  dsimp only
  split <;> simp

@[simp] theorem State.noEvent_mem (s : State) (iss : Iss) :
    (s.noEvent iss).mem = s.mem := by simp [State.noEvent]

@[simp] theorem State.lostEvent_mem (s : State) (iss : Iss) :
    (s.lostEvent iss).st.mem = s.mem := by simp [State.lostEvent]

@[simp] theorem State.evwaitExpire_mem (s : State) (t : Nat) :
    (s.evwaitExpire t).mem = s.mem := by
  unfold State.evwaitExpire
  split
  · rfl
  · split
    · split <;> rfl
    · rfl

end Sys2Proof.Machine
end

section
/-!
PROOFS. What the operations of Sys2Proof/Machine/System.lean leave of memory.
-/

namespace Sys2Proof.Machine

@[simp] theorem State.srClear_mem (s : State) (iss : Iss) :
    (s.srClear iss).mem = s.mem := by
  unfold State.srClear
  split
  · split <;> rfl
  · rfl

@[simp] theorem State.srRead_mem (s : State) (iss : Iss) :
    (s.srRead iss).mem = s.mem := by
  unfold State.srRead
  dsimp only
  split
  · simp
  · split
    · rfl
    · simp

@[simp] theorem State.awaitTable_mem (s : State) (team : Nat) :
    (s.awaitTable team).mem = s.mem := rfl

@[simp] theorem State.srWrite_mem (s : State) (iss : Iss) :
    (s.srWrite iss).st.mem = s.mem := by
  unfold State.srWrite
  dsimp only
  split
  · rfl
  · split
    · split
      · refine State.foldl_mem (fun u a => ?_)
        simp
      · rfl
    · dsimp only
      split <;> simp

@[simp] theorem State.syncWait_mem (s : State) (iss : Iss) :
    (s.syncWait iss).2.mem = s.mem := by
  unfold State.syncWait
  dsimp only
  split <;> split <;> simp

end Sys2Proof.Machine
end

section
/-!
PROOFS. What the operations of Sys2Proof/Machine/Coherence.lean leave of memory.
-/

namespace Sys2Proof.Machine

@[simp] theorem State.commitRecords_mem (s : State) :
    s.commitRecords.mem = s.mem := rfl

@[simp] theorem State.updCounts_mem (s : State) (f : Counts → Counts) :
    (s.updCounts f).mem = s.mem := rfl

@[simp] theorem State.countCorrected_mem (s : State) (unit : Nat) :
    (s.countCorrected unit).mem = s.mem := rfl

@[simp] theorem State.countUncorrected_mem (s : State) (unit addr : Nat) :
    (s.countUncorrected unit addr).mem = s.mem := rfl

@[simp] theorem State.arriveReq_mem (s : State) (id : Nat) :
    (s.arriveReq id).mem = s.mem := rfl

theorem State.serve_mem {s : State} {id : Nat} {write : Bool} {kind : ReqKind → Bool} {f : State → Req → Nat → State}
    (kept : ∀ u r k, (f u r k).mem = u.mem) : (s.serve id write kind f).mem = s.mem := by
  unfold State.serve
  split
  · rfl
  · split
    · rfl
    · split
      · split <;> simp
      · split
        · rfl
        · split
          next t found => exact State.clearHost_mem _ _ _ _ _ t found
          · exact kept ..

@[simp] theorem State.reply_mem (s : State) (r : Reply) :
    (s.reply r).mem = s.mem := rfl

@[simp] theorem State.dropReply_mem (s : State) (id : Nat) :
    (s.dropReply id).mem = s.mem := rfl

@[simp] theorem State.toFlight_mem (s : State) (g : Agent) (fid lane pos n v : Nat) (c : Cause) (clk : Option W32) :
    (s.toFlight g fid lane pos n v c clk).mem = s.mem := by
  unfold State.toFlight
  dsimp only
  split
  · rfl
  · split <;> split <;> simp

@[simp] theorem State.fetchFails_mem (s : State) (g : Agent) (c : Cause) :
    (s.fetchFails g c).mem = s.mem := by
  unfold State.fetchFails
  dsimp only
  split
  · rfl
  · split <;> rfl

@[simp] theorem State.holdFlit_mem (s : State) (since : Nat) (e : Flit) :
    (s.holdFlit since e).mem = s.mem := rfl

@[simp] theorem State.peerAnswer_mem (s : State) (p : PeerWait) (v : Nat) (c : Cause) :
    (s.peerAnswer p v c).mem = s.mem := by
  unfold State.peerAnswer
  dsimp only
  split
  · rfl
  · split
    · rfl
    · split
      · rfl
      · simp

@[simp] theorem State.regionFails_mem (s : State) (team k line : Nat) (cause : Cause) :
    (s.regionFails team k line cause).mem = s.mem := by
  unfold State.regionFails
  dsimp only
  split
  · rfl
  · split
    · rfl
    · refine State.foldl_mem (fun u a => ?_)
      split
      · simp
      · simp
      · rfl
      · simp

@[simp] theorem State.answerRead_mem (s : State) (a : Await) (data : Line) (bad : ByteMask) (cause : Cause) (clk : Option W32) :
    (s.answerRead a data bad cause clk).mem = s.mem := by
  unfold State.answerRead
  dsimp only
  split
  · simp
  · simp
  · split
    · rfl
    · simp
  · split
    · rfl
    · simp
  · split
    · simp
    · rw [State.regionBytes_mem]
      split
      · simp
      · rfl
  · rfl

@[simp] theorem State.answerWrite_mem (s : State) (a : Await) (core : Nat) (w' : Option W32) (cause : Cause) :
    (s.answerWrite a core w' cause).mem = s.mem := by
  unfold State.answerWrite
  dsimp only
  split
  · split
    · split
      · rfl
      · split
        · split
          · split <;> simp
          · simp
        · split
          · split <;> simp
          · simp
    · rfl
  · split <;> simp
  · split
    · rfl
    · simp
  · rfl
  · rfl

@[simp] theorem State.noteClock_mem (s : State) (k : Nat) (r : Req) :
    (s.noteClock k r).mem = s.mem := by simp [State.noteClock]

@[simp] theorem State.homeRenew_mem (s : State) (id : Nat) :
    (s.homeRenew id).mem = s.mem := by
  unfold State.homeRenew
  refine State.serve_mem (fun u r k => ?_)
  dsimp only
  split
  · split
    · simp
    · split
      · simp
      · split <;> simp
  · rfl

@[simp] theorem State.installL1_mem (s : State) (p : Reply) :
    (s.installL1 p).mem = s.mem := by
  unfold State.installL1
  dsimp only
  split
  · rfl
  · simp

@[simp] theorem State.awaitDirty_mem (s : State) (a : Await) (l : L1Line) :
    (s.awaitDirty a l).mem = s.mem := by
  unfold State.awaitDirty
  split
  · simp
  · rfl

@[simp] theorem State.renewalReply_mem (s : State) (id : Nat) :
    (s.renewalReply id).mem = s.mem := by
  unfold State.renewalReply
  dsimp only
  split
  · rfl
  · rw [State.foldl_mem (fun u a => State.answerRead_mem ..)]
    split <;> simp [apply_ite State.mem, State.foldl_mem]

@[simp] theorem State.home1Serve_mem (s : State) (id : Nat) :
    (s.home1Serve id).mem = s.mem := by
  unfold State.home1Serve
  refine State.serve_mem (fun u r k => ?_)
  dsimp only
  split
  · split <;> simp
  · split <;> rfl
  · rfl

@[simp] theorem State.home1Read_mem (s : State) (id : Nat) :
    (s.home1Read id).mem = s.mem := by
  unfold State.home1Read
  dsimp only
  split
  · simp
  · refine State.foldl_mem (fun u a => ?_)
    rw [State.answerRead_mem]
    split
    · simp
    · rfl

theorem State.serve_wf {s : State} {id : Nat} {write : Bool} {kind : ReqKind → Bool} {f : State → Req → Nat → State}
    (wf : Memory.wf s.mem = true) (kept : ∀ u r k, Memory.wf u.mem = true → Memory.wf (f u r k).mem = true) :
    Memory.wf (s.serve id write kind f).mem = true := by
  unfold State.serve
  split
  · exact wf
  · split
    · exact wf
    · split
      · split <;> simp [wf]
      · split
        · exact wf
        · split
          next t found => simp [State.clearHost_mem _ _ _ _ _ _ found, wf]
          · exact kept _ _ _ wf

@[simp] theorem State.homeWriteback_wf (s : State) (id : Nat) (wf : Memory.wf s.mem = true) : Memory.wf (s.homeWriteback id).mem = true := by
  refine State.serve_wf wf (fun u r k wf => ?_)
  split
  · dsimp only
    split <;> split <;> simp [State.foldl_mem, wf]
  · dsimp only
    split <;> simp [wf]
  · exact wf

@[simp] theorem State.writebackReply_mem (s : State) (id : Nat) :
    (s.writebackReply id).mem = s.mem := by
  unfold State.writebackReply
  dsimp only
  split
  · rfl
  next p _ =>
    rw [State.foldl_mem (fun u a => State.answerWrite_mem ..)]
    cases p.stamp <;> split <;> simp [apply_ite State.mem]

@[simp] theorem State.homeAtomic_wf (s : State) (id : Nat) (wf : Memory.wf s.mem = true) : Memory.wf (s.homeAtomic id).mem = true := by
  refine State.serve_wf wf (fun u r k wf => ?_)
  split
  · dsimp only
    rw [State.reply_mem]
    split <;> simp [wf]
  · simp [wf]
  · exact wf

@[simp] theorem State.atomicReply_mem (s : State) (id : Nat) :
    (s.atomicReply id).mem = s.mem := by
  unfold State.atomicReply
  dsimp only
  split
  · rfl
  · split <;> simp [State.foldl_mem]

@[simp] theorem State.clockCreep_mem (s : State) (g : Agent) :
    (s.clockCreep g).mem = s.mem := by
  unfold State.clockCreep
  split
  · rfl
  · split
    · simp
    · rfl

@[simp] theorem State.sweepStep_mem (s : State) (k : Nat) :
    (s.sweepStep k).mem = s.mem := by
  unfold State.sweepStep
  dsimp only
  split <;> rfl

@[simp] theorem State.floorBroadcast_mem (s : State) :
    s.floorBroadcast.mem = s.mem := by
  unfold State.floorBroadcast
  dsimp only
  split
  · rfl
  · refine State.foldl_mem (fun u a => ?_)
    rfl

@[simp] theorem State.cacheError_mem (s : State) (site : EccSite) :
    (s.cacheError site).mem = s.mem := by
  unfold State.cacheError
  dsimp only
  split
  · rfl
  · split
    · split <;> rfl
    · rfl
  · split
    · simp
    · rfl
  · split
    · split <;> rfl
    · rfl
  · split
    · simp
    · rfl
    · rfl
  · split <;> rfl
  · split
    · split
      · rfl
      · simp
    · rfl
  · rfl
  · split
    · split <;> rfl
    · rfl

end Sys2Proof.Machine
end

section
/-!
PROOFS. What the operations of Sys2Proof/Machine/Peers.lean leave of memory.
-/

namespace Sys2Proof.Machine

@[simp] theorem State.peerToHome_mem (s : State) (p : PeerWait) (pa : Nat) (leaf : W64) (home2 : Bool) :
    (s.peerToHome p pa leaf home2).mem = s.mem := rfl

@[simp] theorem State.peerHostSend_mem (s : State) (p : PeerWait) (pa : Nat) :
    (s.peerHostSend p pa).mem = s.mem := rfl

@[simp] theorem State.peerToHost_mem (s : State) (p : PeerWait) (pa : Nat) :
    (s.peerToHost p pa).mem = s.mem := by
  unfold State.peerToHost
  dsimp only
  split <;> rfl

@[simp] theorem State.peerRaw_mem (s : State) (p : PeerWait) (pa : Nat) (key : BitVec 6) :
    (s.peerRaw p pa key).mem = s.mem := by
  unfold State.peerRaw
  dsimp only
  split
  · rfl
  · rfl
  · simp

@[simp] theorem State.peerReach_mem (s : State) (p : PeerWait) (pa : Nat) (leaf : W64) :
    (s.peerReach p pa leaf).mem = s.mem := by
  unfold State.peerReach
  dsimp only
  split
  · split
    · rfl
    · simp
  · split
    · rfl
    · simp
  · split <;> simp
  · split
    · simp
    · split <;> simp
  · split
    · split
      · simp
      · split <;> simp
    · split
      · simp
      · split <;> simp
  · simp
  · simp

@[simp] theorem State.peerFault_mem (s : State) (p : PeerWait) :
    (s.peerFault p).mem = s.mem := rfl

@[simp] theorem State.peerLater_mem (s : State) (p : PeerWait) :
    (s.peerLater p).mem = s.mem := rfl

@[simp] theorem State.servePeer_wf (s : State) (p : PeerWait) (wf : Memory.wf s.mem = true) :
    Memory.wf (s.servePeer p).mem = true := by
  unfold State.servePeer
  dsimp only
  split
  · simp [wf]
  · split
    · simp [wf]
    · split
      · simp [wf]
      · split
        · split <;> simp [wf]
        · simp [wf]
        · split
          · simp [wf]
          · split <;> simp [wf]

@[simp] theorem State.peerRequest_wf (s : State) (chip : Nat) (pasid : W16) (va : W64) (op : PeerOp) (edge : W64) (wf : Memory.wf s.mem = true) :
    Memory.wf (s.peerRequest chip pasid va op edge).mem = true := by
  unfold State.peerRequest
  dsimp only
  split <;> simp [wf]

@[simp] theorem State.remoteAck_mem (s : State) (id : Nat) (c : Cause) :
    (s.remoteAck id c).mem = s.mem := by
  unfold State.remoteAck
  split
  · rfl
  · simp

@[simp] theorem State.fillPeer_mem (s : State) (core line sector : Nat) (data : Line) :
    (s.fillPeer core line sector data).mem = s.mem := by simp [State.fillPeer]

@[simp] theorem State.peerReplied_mem (s : State) (id : Nat) (data : BitVec 512) (c : Cause) :
    (s.peerReplied id data c).mem = s.mem := by
  unfold State.peerReplied
  dsimp only
  split
  · simp
  · rw [State.answerRead_mem]
    rw [State.meetFar_mem]
    split
    · split
      · split <;> simp
      · split <;> rfl
    · split <;> rfl

@[simp] theorem State.expirePeers_mem (s : State) :
    s.expirePeers.mem = s.mem := rfl

@[simp] theorem State.windowStart_mem (s : State) :
    s.windowStart.mem = s.mem := by
  unfold State.windowStart
  split
  · rfl
  · simp

@[simp] theorem State.refuseTransit_mem (s : State) (src : Nat) (edge : W64) (op : PeerOp) (pasid : W16) (va : W64) :
    (s.refuseTransit src edge op pasid va).mem = s.mem := by
  unfold State.refuseTransit
  dsimp only
  split
  · rfl
  · simp

@[simp] theorem State.forward_mem (s : State) (io dest src : Nat) (edge : W64) (op : PeerOp) (pasid : W16) (va : W64) :
    (s.forward io dest src edge op pasid va).mem = s.mem := by
  unfold State.forward
  split <;> simp

@[simp] theorem State.belcyArrive_wf (s : State) (port dest src : Nat) (edge : W64) (op : PeerOp) (pasid : W16) (va : W64) (wf : Memory.wf s.mem = true) :
    Memory.wf (s.belcyArrive port dest src edge op pasid va).mem = true := by
  unfold State.belcyArrive
  split
  · simp [wf]
  · split
    · simp [wf]
    · split <;> simp [wf]

@[simp] theorem State.laneFail_mem (s : State) (port : Nat) :
    (s.laneFail port).mem = s.mem := by
  unfold State.laneFail
  dsimp only
  split <;> simp

@[simp] theorem State.hostRoom_mem (s : State) (line part : Nat) :
    (s.hostRoom line part).2.mem = s.mem := by
  unfold State.hostRoom
  split
  · rfl
  · simp

@[simp] theorem State.hostDone_mem (s : State) (id : Nat) (data : Line) (ok : Bool) :
    (s.hostDone id data ok).mem = s.mem := by
  unfold State.hostDone
  dsimp only
  split
  · rfl
  · split
    · rw [State.answerWrite_mem]
      split
      · simp
      · split <;> rfl
    · rw [State.answerRead_mem]
      rw [State.meetFar_mem]
      split
      · simp
      · split <;> rfl

@[simp] theorem State.ackFlit_mem (s : State) (since id : Nat) :
    (s.ackFlit since id).mem = s.mem := by
  unfold State.ackFlit
  split
  · rfl
  · simp

@[simp] theorem State.peerFlit_wf (s : State) (since port dest src : Nat) (edge : W64) (op : PeerOp) (pasid : W16) (va : W64) (wf : Memory.wf s.mem = true) :
    Memory.wf (s.peerFlit since port dest src edge op pasid va).mem = true := by
  unfold State.peerFlit
  dsimp only
  split <;> simp [wf]

@[simp] theorem State.hostFlit_mem (s : State) (since id : Nat) (data : Line) (ok : Bool) :
    (s.hostFlit since id data ok).mem = s.mem := by
  unfold State.hostFlit
  split
  · rfl
  · split
    · simp
    · split
      · rfl
      · simp

@[simp] theorem State.flitAgain_wf (s : State) (since : Nat) (f : Flit) (wf : Memory.wf s.mem = true) :
    Memory.wf (s.flitAgain since f).mem = true := by
  unfold State.flitAgain
  split <;> simp [wf]

end Sys2Proof.Machine
end

section
/-!
PROOFS. What the operations of Sys2Proof/Machine/Waiting.lean leave of memory.
-/

namespace Sys2Proof.Machine

@[simp] theorem State.tagFree_mem (s0 : State) (g : Agent) (tag : Nat) :
    (s0.tagFree g tag).mem = s0.mem := by
  unfold State.tagFree
  dsimp only
  split
  · simp
  · split
    · split
      · split <;> simp
      · simp
    · simp

@[simp] theorem State.deferredDone_mem (s0 : State) (t : Nat) (request : W32) (value : W64) (err : Bool) :
    (s0.deferredDone t request value err).mem = s0.mem := by
  unfold State.deferredDone
  dsimp only
  split
  · rfl
  · split
    · split
      · rfl
      · simp
    · rfl

@[simp] theorem State.answerTicket_mem (s : State) (id : Nat) (a : Option Cause) :
    (s.answerTicket id a).mem = s.mem := by
  unfold State.answerTicket
  dsimp only
  split
  · rfl
  · split
    · split <;> rfl
    · rfl

@[simp] theorem State.answerEngine_mem (s : State) (r : EngRef) (va : W64) (a : Option Cause) :
    (s.answerEngine r va a).mem = s.mem := by
  unfold State.answerEngine
  split
  · simp
  · split <;> rfl

@[simp] theorem State.answerSavedEngine_mem (s : State) (r : EngRef) (a : Option Cause) :
    (s.answerSavedEngine r a).mem = s.mem := rfl

@[simp] theorem State.answerWho_wf (s : State) (id : Nat) (va : W64) (who : Waiter) (a : Option Cause) (wf : Memory.wf s.mem = true) :
    Memory.wf (s.answerWho id va who a).mem = true := by
  unfold State.answerWho
  split
  · simp [wf]
  · simp [wf]
  · refine State.peerTake_wf wf (fun u p wf => ?_)
    split <;> simp [wf]
  · simp [wf]
  · exact wf

@[simp] theorem State.priReply_wf (s : State) (id : Nat) (ok : Bool) (wf : Memory.wf s.mem = true) :
    Memory.wf (s.priReply id ok).mem = true := by
  unfold State.priReply
  dsimp only
  split
  · exact wf
  · split
    · split <;> simp [wf]
    · refine State.peerTake_wf wf (fun u p wf => ?_)
      split <;> simp [wf]
    · exact State.answerWho_wf _ _ _ _ _ wf
    · exact State.answerWho_wf _ _ _ _ _ wf

@[simp] theorem State.walkEnds_mem (s : State) (g : Agent) (id : Nat) :
    (s.walkEnds g id).mem = s.mem := by
  unfold State.walkEnds
  dsimp only
  split <;> rfl

@[simp] theorem State.walkOwes_mem (s : State) (asid : W16) (g : Agent) (lanes : Mask) (va : W64) (access : Access) (cause : Cause) :
    (s.walkOwes asid g lanes va access cause).mem = s.mem := by
  unfold State.walkOwes
  dsimp only
  split <;> simp [apply_ite State.mem]

@[simp] theorem State.walkFails_wf (s : State) (k : Walk) (x : WalkWaiter) (cause : Cause) (wf : Memory.wf s.mem = true) :
    Memory.wf (s.walkFails k x cause).mem = true := by
  unfold State.walkFails
  dsimp only
  split
  · split
    · exact wf
    · split <;> simp [wf]
  · simp [wf]
  · exact State.peerTake_wf wf (fun u p wf => State.servePeer_wf _ _ wf)
  · exact wf

@[simp] theorem State.walkHelps_wf (s : State) (id : Nat) (x : WalkWaiter) (wf : Memory.wf s.mem = true) :
    Memory.wf (s.walkHelps id x).mem = true := by
  unfold State.walkHelps
  split
  · simp [wf]
  · split <;> simp [wf]
  · exact State.peerTake_wf wf (fun u p wf => State.servePeer_wf _ _ wf)
  · exact wf

@[simp] theorem State.setAds_wf (s : State) (f : Walked) (xs : List WalkWaiter) (wf : Memory.wf s.mem = true) :
    Memory.wf (s.setAds f xs).2.mem = true := by
  unfold State.setAds
  refine State.foldl_pair_wf (by simp [wf]) (fun u wf a => ?_)
  simp [wf]

@[simp] theorem State.walkFound_wf (s : State) (k : Walk) (f : Walked) (wf : Memory.wf s.mem = true) :
    Memory.wf (s.walkFound k f).mem = true := by
  unfold State.walkFound
  dsimp only
  refine State.foldl_wf (State.foldl_wf ?_ fun u wf x => State.walkHelps_wf _ _ _ wf) fun u wf o =>
    State.foldl_wf wf fun u wf x => State.walkHelps_wf _ _ _ wf
  rw [State.foldl_mem (fun u c => by simp)]
  simp [wf]

@[simp] theorem State.invalDone_mem (s : State) :
    s.invalDone.mem = s.mem := by
  unfold State.invalDone
  dsimp only
  split
  · rfl
  · split <;> rfl

end Sys2Proof.Machine
end

section
/-!
PROOFS. What the operations of Sys2Proof/Machine/LaunchFront.lean leave of memory.
-/

namespace Sys2Proof.Machine

@[simp] theorem State.ringRead_mem (s : State) (k line : Nat) :
    (s.ringRead k line).mem = s.mem := by
  unfold State.ringRead
  dsimp only
  split <;> simp

@[simp] theorem State.recordConsume_mem (s : State) (q : Nat) (bad : Bool) :
    (s.recordConsume q bad).mem = s.mem := by
  unfold State.recordConsume
  dsimp only
  split
  · rfl
  · split
    · rfl
    · split
      · simp
      · rfl
      · split
        · rfl
        · dsimp only
          rw [State.setQueue_mem]
          split
          · simp
          · rfl
          · rfl

@[simp] theorem State.featTouch_mem (s : State) (asid : W16) :
    (s.featTouch asid).mem = s.mem := by
  unfold State.featTouch
  dsimp only
  split <;> rfl

@[simp] theorem State.rejectGrid_mem (s : State) (entry : Nat) (c : Cause) :
    (s.rejectGrid entry c).mem = s.mem := rfl

@[simp] theorem State.dependencesMet_mem (s : State) (entry : Nat) :
    (s.dependencesMet entry).mem = s.mem := by
  unfold State.dependencesMet
  split
  · rfl
  · split <;> rfl

@[simp] theorem State.slotAdmission_mem (s : State) (entry : Nat) :
    (s.slotAdmission entry).mem = s.mem := by
  unfold State.slotAdmission
  dsimp only
  split
  · rfl
  · split <;> rfl

@[simp] theorem State.noteRoom_mem (s : State) :
    s.noteRoom.mem = s.mem := rfl

@[simp] theorem State.placeNew_mem (s : State) (entry : Nat) (g : Grid) (num core : Nat) (slots : List Nat) :
    (s.placeNew entry g num core slots).mem = s.mem := rfl

@[simp] theorem State.placeSaved_mem (s : State) (entry : Nat) (g : Grid) (x : SavedTeam) (core : Nat) (slots : List Nat) :
    (s.placeSaved entry g x core slots).mem = s.mem := rfl

@[simp] theorem State.nowRunning_mem (s : State) (entry : Nat) :
    (s.nowRunning entry).mem = s.mem := rfl

@[simp] theorem State.placement_mem (s0 : State) :
    s0.placement.mem = s0.mem := by
  unfold State.placement
  dsimp only
  split
  · rfl
  · split
    · rfl
    · split
      · rfl
      · split <;> rfl

@[simp] theorem State.decisionDone_mem (s : State) (t : Team) :
    (s.decisionDone t).mem = s.mem := rfl

@[simp] theorem State.startTeamClocks_mem (s : State) (t : Nat) (clk : W32) :
    (s.startTeamClocks t clk).mem = s.mem := by
  unfold State.startTeamClocks
  dsimp only
  split
  · rfl
  · refine State.foldl_mem (fun u a => ?_)
    rfl

@[simp] theorem State.holdLeaves_mem (s : State) (t : Nat) (asid : W16) :
    (s.holdLeaves t asid).mem = s.mem := by simp [State.holdLeaves]

@[simp] theorem State.fmtDone_mem (s : State) (t : Nat) (fmt : Tab FmtWord) :
    (s.fmtDone t fmt).mem = s.mem := rfl

@[simp] theorem State.fmtDrop_mem (s : State) (t : Nat) (g : Agent) (id : Nat) :
    (s.fmtDrop t g id).mem = s.mem := by simp [State.fmtDrop]

@[simp] theorem State.fmtBegin_wf (s : State) (t : Nat) (w : Who) (base : W64) (wf : Memory.wf s.mem = true) :
    Memory.wf (s.fmtBegin t w base).mem = true := by
  unfold State.fmtBegin
  dsimp only
  split
  · simp [wf]
  · simp [wf]
  · refine State.ite_wf (fun _ => ?_) fun _ => State.ite_wf (fun _ => ?_) fun _ => ?_
    · simp [wf]
    · simp [wf]
    · split
      next sg u missed =>
        have same := snd_mem missed
        simp only [State.atsMiss_mem] at same
        simp [same, wf]
      next u missed =>
        have same := snd_mem missed
        simp only [State.atsMiss_mem] at same
        have touched : Memory.wf u.mem = true := same ▸ wf
        simp [State.foldl_mem, touched]

@[simp] theorem State.flushRegions_wf (s : State) (t : Nat) (wf : Memory.wf s.mem = true) :
    Memory.wf (s.flushRegions t).mem = true := by
  unfold State.flushRegions
  dsimp only
  split
  · refine State.foldl_wf wf (fun u wf e => ?_)
    rw [State.writeRegion_mem (fun u i pa => State.countFlushAt_mem ..)]
    exact State.foldl_wf wf (fun u wf line => State.hwTouch_wf _ _ _ _ _ _ _ _ wf)
  · exact wf

@[simp] theorem State.freePlaces_mem (s : State) (t : Nat) (x : Team) :
    (s.freePlaces t x).mem = s.mem := by
  unfold State.freePlaces
  refine State.foldl_mem (fun u a => ?_)
  rfl

@[simp] theorem State.gridRetire_mem (s : State) (entry : Nat) :
    (s.gridRetire entry).mem = s.mem := by
  unfold State.gridRetire
  dsimp only
  split
  · rfl
  · split
    · rfl
    · split
      · refine State.foldl_mem (fun u a => ?_)
        simp
      · split
        · rfl
        · split <;> rfl

@[simp] theorem State.childRecord_mem (s : State) (g : Grid) :
    (s.childRecord g).mem = s.mem := by
  unfold State.childRecord
  dsimp only
  split
  · rfl
  · simp

@[simp] theorem State.completionEnd_mem (s : State) (entry : Nat) (g : Grid) (ok : Bool) :
    (s.completionEnd entry g ok).mem = s.mem := by
  unfold State.completionEnd
  dsimp only
  split
  · split <;> split <;> simp
  · split <;> simp

@[simp] theorem State.gridEndRequest_mem (s : State) (t : Nat) :
    (s.gridEndRequest t).mem = s.mem := by
  unfold State.gridEndRequest
  split
  · rfl
  · split
    · split
      · simp
      · rfl
    · rfl

end Sys2Proof.Machine
end

section
/-!
PROOFS. What the operations of Sys2Proof/Machine/Preempt.lean leave of memory.
-/

namespace Sys2Proof.Machine

@[simp] theorem State.rankPressure_mem (s : State) (entry : Nat) :
    (s.rankPressure entry).mem = s.mem := by
  unfold State.rankPressure
  dsimp only
  split
  · rfl
  · split
    · split
      · rfl
      · split
        · rfl
        · rfl
        · rfl
        · refine State.foldl_mem (fun u a => ?_)
          split
          · split
            · rfl
            · simp
          · rfl
    · rfl

@[simp] theorem State.areaSupplied_mem (s : State) (t : Nat) (base : Option W64) :
    (s.areaSupplied t base).mem = s.mem := by
  unfold State.areaSupplied
  split <;> rfl

@[simp] theorem State.areaRetry_mem (s : State) (t : Nat) :
    (s.areaRetry t).mem = s.mem := by
  unfold State.areaRetry
  split
  · split
    · simp
    · rfl
  · rfl

@[simp] theorem State.drainDone_mem (s : State) (t : Nat) :
    (s.drainDone t).mem = s.mem := by
  unfold State.drainDone
  dsimp only
  split
  · split <;> rfl
  · simp

@[simp] theorem State.safePointTake_mem (s0 : State) (g : Agent) : (s0.safePointTake g).mem = s0.mem := by
  unfold State.safePointTake
  dsimp only
  split
  · simp
  next k _ =>
    cases taken : (s0.land g).takeSafe g k with
    | none => simp
    | some t => exact (State.takeSafe_mem _ _ _ t taken).trans (State.land_mem ..)

theorem State.afterSafe_mem {s : State} {g : Agent} {f : State → State} (kept : ∀ u, (f u).mem = u.mem) : (s.afterSafe g f).mem = s.mem := by
  have goes : ∀ u : State, u.mem = s.mem → (if u.safeHeld g then u else f u).mem = s.mem := fun u same => by
    split
    · exact same
    · exact (kept u).trans same
  exact goes _ (by split <;> simp)

@[simp] theorem State.forceSave_mem (s : State) (g : Agent) :
    (s.forceSave g).mem = s.mem := by
  unfold State.forceSave
  dsimp only
  split <;> rfl

@[simp] theorem State.deadline_mem (s : State) (t : Nat) : (s.deadline t).mem = s.mem := by
  unfold State.deadline
  split
  · rfl
  · split
    · dsimp only
      have held : ∀ {c : Bool} {u : State}, u.mem = s.mem → (if c then s else u).mem = s.mem := fun same => by split <;> simp [same]
      refine held ((State.setPart_mem ..).trans ?_)
      exact (State.foldl_mem (fun u g => State.forceSave_mem ..)).trans (State.foldl_mem (fun u g => State.safePointTake_mem ..))
    · rfl

@[simp] theorem State.takeForced_mem (s : State) (x : Team) :
    (s.takeForced x).mem = s.mem := by
  unfold State.takeForced
  refine State.foldl_mem (fun u a => ?_)
  dsimp only
  split
  · split
    · split <;> split <;> simp
    · rfl
  · rfl

@[simp] theorem State.writeBlock_wf (s : State) (g : Grid) (core : Nat) (va : W64) (v : Nat) (wf : Memory.wf s.mem = true) :
    Memory.wf (s.writeBlock g core va v).mem = true := by
  unfold State.writeBlock
  dsimp only
  split <;> simp [wf]

@[simp] theorem State.resumeCmds_mem (s : State) (t : Nat) (x : Team) (cmds : List Cmd) :
    (s.resumeCmds t x cmds).mem = s.mem := rfl

@[simp] theorem State.bringBack_mem (s : State) (entry : Nat) (g : Grid) (y : SavedTeam) (t : Nat) (x : Team) (scr : Mem) :
    (s.bringBack entry g y t x scr).mem = s.mem := by simp [State.bringBack]

end Sys2Proof.Machine
end

section
/-!
PROOFS. What the operations of Sys2Proof/Machine/HostPort.lean leave of memory.
-/

namespace Sys2Proof.Machine

@[simp] theorem State.hostStamp_mem (s : State) (k line : Nat) :
    (s.hostStamp k line).mem = s.mem := by
  unfold State.hostStamp
  dsimp only
  split <;> simp

@[simp] theorem State.hostSaw_mem (s : State) (line : Nat) :
    (s.hostSaw line).mem = s.mem := by
  unfold State.hostSaw
  split <;> rfl

@[simp] theorem State.hostFetch_mem (s : State) (k line : Nat) (key : BitVec 6) :
    (s.hostFetch k line key).mem = s.mem := by simp [State.hostFetch]

@[simp] theorem State.hostPut_wf (s : State) (line : Nat) (data : Line) (mask : ByteMask) (wf : Memory.wf s.mem = true) :
    Memory.wf (s.hostPut line data mask).mem = true := by simp [State.hostPut, wf]

theorem State.hostAwaits_mem (s : State) (line : Nat) (key : BitVec 6) (write : Bool) :
    ∀ t, s.hostAwaits line key write = some t → t.mem = s.mem := by
  unfold State.hostAwaits
  split
  · simp
  · split
    · dsimp only
      split
      · simp
      · split <;> simp
    · exact State.clearHost_mem _ _ _ _ _

theorem State.grantRoom_mem (s : State) (k line : Nat) :
    ∀ t, s.grantRoom k line = some t → t.mem = s.mem := by
  unfold State.grantRoom
  dsimp only
  split
  · simp
  · split <;> simp

@[simp] theorem State.writeWindow_mem (s : State) (line : Nat) (data : Line) (bytes : ByteMask) :
    (s.writeWindow line data bytes).mem = s.mem := by
  unfold State.writeWindow
  refine State.foldl_mem (fun u a => ?_)
  dsimp only
  split
  · simp
  · rfl

@[simp] theorem State.hostNoKey_mem (s : State) (port line : Nat) (read : Bool) :
    (s.hostNoKey port line read).mem = s.mem := by
  unfold State.hostNoKey
  dsimp only
  split <;> rfl

@[simp] theorem State.setHost_mem (s : State) (line : Nat) (h : HState) : (s.setHost line h).mem = s.mem := rfl

@[simp] theorem State.sharedRead_mem (s : State) (port line : Nat) :
    (s.sharedRead port line).mem = s.mem := by
  unfold State.sharedRead
  dsimp only
  split
  · rfl
  · split
    · split
      · rfl
      · split
        next _ t found => simp [State.hostAwaits_mem _ _ _ _ _ found]
        · split
          next _ t found => simp [State.grantRoom_mem _ _ _ _ found]
          · simp
    · rfl
    · rfl

@[simp] theorem State.ownershipRead_mem (s : State) (port line : Nat) :
    (s.ownershipRead port line).mem = s.mem := by
  unfold State.ownershipRead
  dsimp only
  split
  · rfl
  · split
    · split
      · rfl
      · split
        next _ t found => simp [State.hostAwaits_mem _ _ _ _ _ found]
        · split
          next _ t found => simp [State.grantRoom_mem _ _ _ _ found]
          · simp
    · rfl
    · rfl

@[simp] theorem State.hostRekey_mem (s : State) (k line : Nat) (key : BitVec 6) :
    (s.hostRekey k line key).mem = s.mem := by
  unfold State.hostRekey
  dsimp only
  split
  · rfl
  · split
    · rfl
    · simp

@[simp] theorem State.hostWriteBack_wf (s : State) (port line : Nat) (data : Line) (bytes : ByteMask) (keep : Bool) (wf : Memory.wf s.mem = true) :
    Memory.wf (s.hostWriteBack port line data bytes keep).mem = true := by
  unfold State.hostWriteBack
  split
  · simp [wf]
  · split
    · split
      · simp [wf]
      · split <;> simp [wf]
    · simp [wf]
    · simp [wf]

@[simp] theorem State.snoopAnswer_wf (s : State) (line : Nat) (data : Line) (bytes : ByteMask) (wf : Memory.wf s.mem = true) :
    Memory.wf (s.snoopAnswer line data bytes).mem = true := by
  unfold State.snoopAnswer
  dsimp only
  split
  · simp [wf]
  · split
    · simp [wf]
    · dsimp only
      split <;> simp [wf]

@[simp] theorem State.bar4Piece_wf (s : State) (port pa n v : Nat) (wf : Memory.wf s.mem = true) :
    Memory.wf (s.bar4Piece port pa n v).mem = true := by
  unfold State.bar4Piece
  dsimp only
  split <;> simp [wf]

theorem State.bar4Awaits_mem (s : State) (port pa n : Nat) (write : Bool) : ∀ t, s.bar4Awaits port pa n write = some t → t.mem = s.mem := by
  unfold State.bar4Awaits
  split
  · simp
  · intro t found
    obtain ⟨cut, -, awaits⟩ := List.exists_of_findSome?_eq_some found
    split at awaits
    · exact State.hostAwaits_mem _ _ _ _ t awaits
    · cases awaits

@[simp] theorem State.bar4Write_wf (s : State) (port pa n : Nat) (data : BitVec 512) (wf : Memory.wf s.mem = true) :
    Memory.wf (s.bar4Write port pa n data).mem = true := by
  unfold State.bar4Write
  split
  · exact wf
  · split
    next t found => simp [State.bar4Awaits_mem _ _ _ _ _ _ found, wf]
    · exact State.foldl_wf wf (fun u wf cut => by simp [wf])

@[simp] theorem State.bar4Read_mem (s : State) (port pa n : Nat) : (s.bar4Read port pa n).mem = s.mem := by
  unfold State.bar4Read
  split
  · rfl
  · dsimp only
    split
    · simp
    · simp
    · split
      next t found => exact State.bar4Awaits_mem _ _ _ _ _ t found
      · rw [apply_ite State.mem, State.emit_mem, State.emit_mem, ite_self]
        refine State.foldl_mem (fun u cut => ?_)
        split <;> simp

@[simp] theorem State.hostAtomicOp_wf (s : State) (port pa : Nat) (op : AtomOp) (wf : Memory.wf s.mem = true) :
    Memory.wf (s.hostAtomicOp port pa op).mem = true := by
  unfold State.hostAtomicOp
  dsimp only
  split
  · exact wf
  · split
    · simp [wf]
    · simp [wf]
    · split
      next t found => simp [State.hostAwaits_mem _ _ _ _ _ found, wf]
      · split <;> simp [wf]

@[simp] theorem State.registerWrite_mem (s : State) (addr : Nat) (v : W64) (port : Option Nat) :
    (s.registerWrite addr v port).mem = s.mem := by
  unfold State.registerWrite
  dsimp only
  split
  · simp
  · split
    · simp
    · rfl

@[simp] theorem State.hostRefused_mem (s : State) (port addr : Nat) (write : Bool) :
    (s.hostRefused port addr write).mem = s.mem := by
  unfold State.hostRefused
  dsimp only
  split
  · rfl
  · split <;> rfl

@[simp] theorem State.registerRead_mem (s : State) (addr : Nat) (port : Option Nat) :
    (s.registerRead addr port).mem = s.mem := by
  unfold State.registerRead
  split
  · split <;> simp
  · simp

@[simp] theorem State.keyDone_mem (s : State) :
    s.keyDone.mem = s.mem := by
  unfold State.keyDone
  dsimp only
  split
  · rfl
  · split
    · simp
    · split <;> rfl

@[simp] theorem State.keyStart_mem (s : State) (slot : BitVec 6) (load : Bool) :
    (s.keyStart slot load).mem = s.mem := by simp [State.keyStart]

end Sys2Proof.Machine
end

section
/-!
PROOFS. What the operations of Sys2Proof/Machine/Power.lean leave of memory.
-/

namespace Sys2Proof.Machine

@[simp] theorem State.fatalNow_mem (s : State) (c : FatalCause) :
    (s.fatalNow c).mem = s.mem := by
  unfold State.fatalNow
  refine State.foldl_mem (fun u a => ?_)
  rfl

@[simp] theorem State.afterReset_mem (s : State) (v : Vudor) (p : Pkg) : (s.afterReset v p).mem = [] := rfl

@[simp] theorem State.afterReset_wf (s : State) (v : Vudor) (p : Pkg) : Memory.wf (s.afterReset v p).mem = true := rfl

@[simp] theorem State.packageReset_wf (s : State) (wf : Memory.wf s.mem = true) : Memory.wf s.packageReset.mem = true := by
  unfold State.packageReset
  exact State.ite_wf (fun _ => wf) fun _ => State.afterReset_wf ..

@[simp] theorem State.powerLoss_wf (s : State) : Memory.wf s.powerLoss.mem = true :=
  State.afterReset_wf ..

@[simp] theorem State.bootVerify_mem (s : State) :
    s.bootVerify.mem = s.mem := by
  unfold State.bootVerify
  dsimp only
  split
  · rfl
  · split
    · split <;> rfl
    · rfl

@[simp] theorem State.firmwareUpdate_mem (s : State) (i : Image) (interrupted : Bool) :
    (s.firmwareUpdate i interrupted).mem = s.mem := by
  unfold State.firmwareUpdate
  dsimp only
  split
  · rfl
  · split
    · rfl
    · split <;> rfl

@[simp] theorem State.corePowerUp_mem (s : State) :
    s.corePowerUp.mem = s.mem := by
  unfold State.corePowerUp
  dsimp only
  split
  · rfl
  · split
    · rfl
    · split <;> rfl

@[simp] theorem State.wakeParts_mem (s : State) :
    s.wakeParts.mem = s.mem := by
  unfold State.wakeParts
  refine State.foldl_mem (fun u a => ?_)
  dsimp only
  split <;> rfl

@[simp] theorem State.partitionIdle_mem (s : State) (p : Nat) :
    (s.partitionIdle p).mem = s.mem := by
  unfold State.partitionIdle
  dsimp only
  split
  · rfl
  · split
    · refine State.foldl_mem (fun u a => ?_)
      refine State.foldl_mem (fun u a => ?_)
      simp
    · refine State.foldl_mem (fun u a => ?_)
      rfl

@[simp] theorem State.setLevels_mem (s : State) (cause : Nat) (ls : List (Nat × Nat)) :
    (s.setLevels cause ls).mem = s.mem := by
  unfold State.setLevels
  refine State.foldl_mem (fun u a => ?_)
  rfl

@[simp] theorem State.allLevels_mem (s : State) (cause level : Nat) :
    (s.allLevels cause level).mem = s.mem := by simp [State.allLevels]

@[simp] theorem State.hallLevels_mem (s : State) (f : BitVec 320) (m : Measure) :
    (s.hallLevels f m).mem = s.mem := by simp [State.hallLevels]

@[simp] theorem State.hallRelease_mem (s : State) :
    s.hallRelease.mem = s.mem := by simp [State.hallRelease]

@[simp] theorem State.capFrame_mem (s : State) (f : BitVec 320) (m : Measure) :
    (s.capFrame f m).mem = s.mem := by
  unfold State.capFrame
  dsimp only
  split
  · rfl
  · split <;> simp

@[simp] theorem State.hallRecompute_mem (s : State) (m : Measure) :
    (s.hallRecompute m).mem = s.mem := by
  unfold State.hallRecompute
  split
  · split
    · simp
    · rfl
  · rfl

@[simp] theorem State.hallExpire_mem (s : State) :
    s.hallExpire.mem = s.mem := by
  unfold State.hallExpire
  split
  · simp
  · rfl

@[simp] theorem State.boardMeasure_mem (s : State) (m : Measure) :
    (s.boardMeasure m).mem = s.mem := by
  unfold State.boardMeasure
  dsimp only
  split
  · rfl
  · split
    · simp
    · split
      · simp
      · split
        · simp
        · rfl

@[simp] theorem State.histograms_mem (s : State) (celsius : Nat) (dies : List Nat) :
    (s.histograms celsius dies).mem = s.mem := by
  unfold State.histograms
  rfl

@[simp] theorem State.thermalStep_mem (s : State) (celsius : Nat) (dies : List Nat) :
    (s.thermalStep celsius dies).mem = s.mem := by
  unfold State.thermalStep
  dsimp only
  split
  · simp
  · split
    · rfl
    · split
      · simp
      · split <;> simp

@[simp] theorem State.currentTrip_mem (s : State) :
    s.currentTrip.mem = s.mem := by simp [State.currentTrip]

@[simp] theorem State.currentRestore_mem (s : State) :
    s.currentRestore.mem = s.mem := by
  unfold State.currentRestore
  dsimp only
  split
  · rfl
  · simp

@[simp] theorem State.ageCounts_mem (s : State) (dt : Nat) :
    (s.ageCounts dt).mem = s.mem := by
  unfold State.ageCounts
  dsimp only
  split <;> rfl

@[simp] theorem State.lifetimeCommit_mem (s : State) :
    s.lifetimeCommit.mem = s.mem := by
  unfold State.lifetimeCommit
  split <;> rfl

@[simp] theorem State.attest_mem (s : State) (nonce : BitVec 256) :
    (s.attest nonce).mem = s.mem := rfl

end Sys2Proof.Machine
end

section
/-!
PROOFS. What the operations of Sys2Proof/Machine/Links.lean leave of memory.
-/

namespace Sys2Proof.Machine

@[simp] theorem State.openWindow_mem (s : State) (n : Nat) :
    (s.openWindow n).mem = s.mem := by
  unfold State.openWindow
  dsimp only
  split <;> rfl

@[simp] theorem State.serveLinks_mem (s : State) :
    s.serveLinks.mem = s.mem := by
  unfold State.serveLinks
  refine State.foldl_mem (fun u a => ?_)
  dsimp only
  split
  · split
    · rfl
    · simp
  · rfl

@[simp] theorem State.closeWindow_mem (s : State) (n : Nat) :
    (s.closeWindow n).mem = s.mem := by
  unfold State.closeWindow
  dsimp only
  split
  · rfl
  · simp

@[simp] theorem State.runLinks_mem (s : State) :
    s.runLinks.mem = s.mem := by
  unfold State.runLinks
  simp [State.foldl_mem]

@[simp] theorem State.stepUp_mem (s : State) (n : Nat) :
    (s.stepUp n).mem = s.mem := by
  unfold State.stepUp
  dsimp only
  split
  · rfl
  · simp

@[simp] theorem State.stepDown_mem (s : State) (n : Nat) :
    (s.stepDown n).mem = s.mem := by
  unfold State.stepDown
  dsimp only
  split
  · rfl
  · simp

@[simp] theorem State.crcError_mem (s : State) (n : Nat) :
    (s.crcError n).mem = s.mem := by
  unfold State.crcError
  dsimp only
  split
  · rfl
  · split
    · split <;> rfl
    · rfl

@[simp] theorem State.downLink_mem (s : State) (n : Nat) :
    (s.downLink n).mem = s.mem := by
  unfold State.downLink
  dsimp only
  split
  · rfl
  · split <;> simp

end Sys2Proof.Machine
end

section
/-!
PROOFS. What the operations of Sys2Proof/Machine/Ready.lean leave of memory.
-/

namespace Sys2Proof.Machine

@[simp] theorem State.settleTags_mem (s : State) (g : Agent) :
    (s.settleTags g).mem = s.mem := by
  unfold State.settleTags
  split
  · rfl
  · simp [State.foldl_mem]

@[simp] theorem State.settleTrap_wf (s : State) (g : Agent) (wf : Memory.wf s.mem = true) :
    Memory.wf (s.settleTrap g).mem = true := by
  unfold State.settleTrap
  dsimp only
  split
  · split
    · split <;> simp [wf]
    · split
      · split <;> simp [wf]
      · simp [wf]
  · simp [wf]

@[simp] theorem State.settleHalt_wf (s : State) (w : Nat) (wf : Memory.wf s.mem = true) :
    Memory.wf (s.settleHalt w).mem = true := by
  unfold State.settleHalt
  split
  · simp [wf]
  · split <;> simp [wf]

@[simp] theorem State.retryWalks_mem (s : State) (w : Nat) :
    (s.retryWalks w).mem = s.mem := by
  unfold State.retryWalks
  dsimp only
  split
  · rfl
  · rw [State.roomFound_mem]
    split <;> rfl

@[simp] theorem State.retest_wf (s : State) (w : Nat) (wf : Memory.wf s.mem = true) :
    Memory.wf (s.retest w).mem = true := by
  unfold State.retest
  dsimp only
  rw [State.retestDqpop_mem]
  refine State.retestBarw_wf _ _ ?_
  rw [State.retestWaitc_mem]
  rw [State.retryWalks_mem]
  split
  · split <;> simp [wf, State.foldl_mem]
  · split <;> simp [wf]

@[simp] theorem State.settleCt_wf (s : State) (t : Nat) (wf : Memory.wf s.mem = true) :
    Memory.wf (s.settleCt t).mem = true := by
  unfold State.settleCt
  dsimp only
  split <;> simp [wf]

end Sys2Proof.Machine
end

section
/-!
PROOFS. What the operations of Sys2Proof/Machine/Debug.lean leave of memory.
-/

namespace Sys2Proof.Machine

theorem State.slotRead_mem (s : State) (pa n : Nat) : ∀ t, s.slotRead pa n = .error t → t.mem = s.mem := by
  unfold State.slotRead
  split <;> simp

@[simp] theorem State.unitWrite_wf (s : State) (pa n v : Nat) (wf : Memory.wf s.mem = true) :
    Memory.wf (s.unitWrite pa n v).mem = true := by simp [State.unitWrite, wf]

@[simp] theorem State.slotDone_wf (s : State) (slot : Nat) (seq : W32) (status : Nat) (data : Option W64) (wf : Memory.wf s.mem = true) :
    Memory.wf (s.slotDone slot seq status data).mem = true := by
  unfold State.slotDone
  dsimp only
  split
  · simp [wf]
  · split
    · refine State.foldl_wf (by simp [wf]) (fun u wf a => ?_)
      simp [wf]
    · simp [wf]

@[simp] theorem State.resume_mem (s : State) (g : Agent) :
    (s.resume g).mem = s.mem := by
  unfold State.resume
  split <;> rfl

/-- The state that a command leaves has a canonical memory. -/
def CmdEnd.Wf : CmdEnd → Prop
  | .done s _ | .begun s | .wait s => Memory.wf s.mem = true

theorem State.cmdAttach_wf (s : State) (c : DbgCmd) (wf : Memory.wf s.mem = true) : (s.cmdAttach c).Wf := wf

theorem State.cmdDetach_wf (s : State) (c : DbgCmd) (wf : Memory.wf s.mem = true) : (s.cmdDetach c).Wf := by
  unfold State.cmdDetach
  split
  · exact wf
  · exact (congrArg (fun m => Memory.wf m = true) (State.foldl_mem (fun u w => State.resume_mem ..))).mpr wf

theorem State.cmdHalt_wf (s : State) (c : DbgCmd) (wf : Memory.wf s.mem = true) : (s.cmdHalt c).Wf := by
  unfold State.cmdHalt
  split
  · exact wf
  · split
    · exact wf
    · simp [CmdEnd.Wf, wf]
  · split
    · exact wf
    · split
      · exact wf
      · split <;> simp [CmdEnd.Wf, wf]

theorem State.cmdResume_wf (s : State) (c : DbgCmd) (wf : Memory.wf s.mem = true) : (s.cmdResume c).Wf := by
  unfold State.cmdResume
  split
  · split
    · simpa [CmdEnd.Wf] using wf
    · exact wf
  · exact wf

theorem State.cmdRun_wf (s : State) (slot : Nat) (c : DbgCmd) (base : Nat) (exec : Bool) (wf : Memory.wf s.mem = true) :
    (s.cmdRun slot c base exec).Wf := by
  unfold State.cmdRun
  split
  · exact wf
  · dsimp only
    split
    · exact wf
    · split
      · simpa [CmdEnd.Wf] using wf
      · split <;> simpa [CmdEnd.Wf] using wf

theorem State.cmdBp_wf (s : State) (c : DbgCmd) (set : Bool) (wf : Memory.wf s.mem = true) : (s.cmdBp c set).Wf := by
  unfold State.cmdBp
  split <;> exact wf

@[simp] theorem State.writeWatch_wf (s : State) (c : DbgCmd) (w : Who) (o : ObjLoc) (v : Nat) (wf : Memory.wf s.mem = true) :
    Memory.wf (s.writeWatch c w o v).mem = true := by
  unfold State.writeWatch
  split <;> simp [wf]

theorem State.cmdWatch_wf (s : State) (c : DbgCmd) (set : Bool) (wf : Memory.wf s.mem = true) : (s.cmdWatch c set).Wf := by
  unfold State.cmdWatch
  split
  · split
    · exact wf
    · split
      · exact wf
      · simpa [CmdEnd.Wf] using wf
      · dsimp only
        split
        · simp [CmdEnd.Wf, wf]
        · simp [CmdEnd.Wf, wf]
  · exact wf

theorem State.debugCmd_wf (s : State) (slot base : Nat) (c : DbgCmd) (wf : Memory.wf s.mem = true) : (s.debugCmd slot base c).Wf := by
  unfold State.debugCmd
  split
  · exact State.cmdAttach_wf _ _ wf
  · exact State.cmdDetach_wf _ _ wf
  · exact State.cmdHalt_wf _ _ wf
  · exact State.cmdResume_wf _ _ wf
  · exact State.cmdRun_wf _ _ _ _ _ wf
  · exact State.cmdRun_wf _ _ _ _ _ wf
  · exact State.cmdBp_wf _ _ _ wf
  · exact State.cmdBp_wf _ _ _ wf
  · exact State.cmdWatch_wf _ _ _ wf
  · exact State.cmdWatch_wf _ _ _ wf
  · exact wf

@[simp] theorem State.sampleOut_wf (s : State) (p v : Nat) (wf : Memory.wf s.mem = true) :
    Memory.wf (s.sampleOut p v).mem = true := by simp [State.sampleOut, wf]

@[simp] theorem State.pcSample_wf (s : State) (core : Nat) (wf : Memory.wf s.mem = true) :
    Memory.wf (s.pcSample core).mem = true := by
  unfold State.pcSample
  dsimp only
  split
  · simp [wf]
  · split
    · simp [wf]
    · split
      · simp [wf]
      · split <;> simp [wf]

@[simp] theorem State.memSample_wf (s : State) (core : Nat) (wf : Memory.wf s.mem = true) :
    Memory.wf (s.memSample core).mem = true := by
  unfold State.memSample
  dsimp only
  split <;> simp [wf]

@[simp] theorem State.jtag_wf (s : State) (off n : Nat) (write : Bool) (data : W64) (wf : Memory.wf s.mem = true) :
    Memory.wf (s.jtag off n write data).mem = true := by
  unfold State.jtag
  split
  · simp [wf]
  · split
    · simp [wf]
    · split
      · refine State.foldl_wf (by simp [wf]) (fun u wf a => ?_)
        simp [wf]
      · split <;> simp [wf]

end Sys2Proof.Machine
end

section
/-!
PROOFS. What the operations of Sys2Proof/Machine/Pipeline.lean leave of memory.
-/

namespace Sys2Proof.Machine

@[simp] theorem State.hitBreak_wf (s : State) (g : Agent) (d : DbgCtx) (lanes : Mask) (pc : W64) (wf : Memory.wf s.mem = true) :
    Memory.wf (s.hitBreak g d lanes pc).mem = true := by
  unfold State.hitBreak
  split <;> simp [wf]

@[simp] theorem State.begin_mem (s : State) (g : Agent) (e : Mask) (pc : W64) (lanes : Mask) (len : Nat) (step : Bool) :
    (s.begin_ g e pc lanes len step).mem = s.mem := by
  unfold State.begin_
  dsimp only
  split <;> rfl

@[simp] theorem State.raiseWord_wf (s : State) (w : Who) (c : Cause) (wf : Memory.wf s.mem = true) :
    Memory.wf (s.raiseWord w c).mem = true := by
  unfold State.raiseWord
  dsimp only
  refine State.finish_wf _ _ ?_
  split <;> split <;> simp [wf]

@[simp] theorem State.after_issue_mem (s0 s1 : State) (uni : Bool) (s2 : State) : (State.after_issue s0 s1 uni s2).mem = s2.mem := by
  unfold State.after_issue
  split
  · rfl
  · dsimp only
    split
    · split <;> simp
    · split <;> simp

@[simp] theorem State.holdDeadlines_mem (s : State) (dt : Nat) :
    (s.holdDeadlines dt).mem = s.mem := rfl

@[simp] theorem State.tick_wf (s : State) (n : Nat) (wf : Memory.wf s.mem = true) :
    Memory.wf (s.tick n).mem = true := by
  unfold State.tick
  dsimp only
  split
  · rw [State.wakeParts_mem]
    rw [State.runLinks_mem]
    rw [State.rollWindow_mem]
    refine State.foldl_wf (by simp [wf]) (fun u wf a => ?_)
    simp [wf]
  · refine State.foldl_wf (by simp [wf]) (fun u wf a => ?_)
    simp [wf]

@[simp] theorem State.noteReady_mem (s : State) (gs : List Agent) (ready : List Agent) :
    (s.noteReady gs ready).mem = s.mem := by
  unfold State.noteReady
  refine State.foldl_mem (fun u a => ?_)
  simp

@[simp] theorem State.holdAgain_mem (s : State) (r : DbgRun) :
    (s.holdAgain r).mem = s.mem := by
  unfold State.holdAgain
  split
  · simp
  · split
    · simp
    · rfl

@[simp] theorem State.debugEnd_wf (s : State) (r : DbgRun) (status : Nat) (data : Option W64) (wf : Memory.wf s.mem = true) :
    Memory.wf (s.debugEnd r status data).mem = true := by
  unfold State.debugEnd
  dsimp only
  split <;> simp [wf]

@[simp] theorem State.haltStepped_mem (s : State) (r : DbgRun) :
    (s.haltStepped r).mem = s.mem := by
  unfold State.haltStepped
  split <;> rfl

end Sys2Proof.Machine
end

section
/-!
PROOFS. Walks, completion records, tables, schedules and areas in memory: what they write leaves canonical memory canonical.
-/

namespace Sys2Proof.Machine

theorem State.snd_wf {α : Type} {x : α × State} {a : α} {t : State} (found : x = (a, t)) (wf : Memory.wf x.2.mem = true) :
    Memory.wf t.mem = true := by
  rw [found] at wf
  exact wf

/-- Memory is in canonical form in the state that a completion write leaves. -/
def Recorded.Wf : Recorded → Prop
  | .no => True
  | .yes s => Memory.wf s.mem = true
  | .waits s => Memory.wf s.mem = true

theorem State.completionHome_wf (s : State) (entry pa : Nat) (leaf : W64) (n v : Nat) (next : Compl) (wf : Memory.wf s.mem = true) :
    (s.completionHome entry pa leaf n v next).Wf := by
  unfold State.completionHome
  dsimp only
  split
  · trivial
  · split
    next t stored => exact State.snd_wf stored (State.ownStore_wf _ _ _ _ _ _ _ _ wf)
    next t stored =>
      change Memory.wf (State.mem _) = true
      rw [State.updGrid_mem]
      exact State.snd_wf stored (State.ownStore_wf _ _ _ _ _ _ _ _ wf)

theorem Recorded.Wf.ite {p : Prop} [Decidable p] {a b : Recorded} (yes : a.Wf) (no : b.Wf) : (if p then a else b).Wf := by
  split
  · exact yes
  · exact no

theorem State.completionWrite_wf (s : State) (entry : Nat) (g : Grid) (ask : Bool) (va : W64) (n v : Nat) (next : Compl)
    (wf : Memory.wf s.mem = true) : (s.completionWrite entry g ask va n v next).Wf := by
  unfold State.completionWrite
  dsimp only
  have touched := State.hwTouch_wf s 0 g.asid g.part va n .write false wf
  split
  · trivial
  · simp [Recorded.Wf, wf]
  · split
    · refine Recorded.Wf.ite trivial (Recorded.Wf.ite ?_ ?_) <;> simp [Recorded.Wf, wf]
    · refine Recorded.Wf.ite ?_ trivial
      simp [Recorded.Wf, wf]
    · trivial
    · simp [Recorded.Wf, wf]
    · exact State.completionHome_wf _ _ _ _ _ _ _ touched

@[simp] theorem State.completionLast_wf (s : State) (entry : Nat) (g : Grid) (wf : Memory.wf s.mem = true) :
    Memory.wf (s.completionLast entry g).mem = true := by
  have write := s.completionWrite_wf entry g false g.rec_.compl 8 (g.completion % 2 ^ 64) .last wf
  unfold State.completionLast
  split <;> simp_all [Recorded.Wf]

@[simp] theorem State.completion_wf (s : State) (entry : Nat) (wf : Memory.wf s.mem = true) : Memory.wf (s.completion entry).mem = true := by
  unfold State.completion
  dsimp only
  split
  · exact wf
  next g _ =>
    refine State.ite_wf (fun _ => wf) fun _ => ?_
    split
    case h_1 | h_2 =>
      have write (ask : Bool) := s.completionWrite_wf entry g ask (g.rec_.compl + 8) 24 (g.completion / 2 ^ 64) .first wf
      refine State.ite_wf (fun _ => by simp [wf]) fun _ => ?_
      split <;> simp_all [Recorded.Wf]
    · simp [wf]
    · simp [wf]
    · simp [wf]
    · exact wf

@[simp] theorem State.fmtLoad_wf (s : State) (t : Nat) (wf : Memory.wf s.mem = true) : Memory.wf (s.fmtLoad t).mem = true := by
  unfold State.fmtLoad
  dsimp only
  split
  · exact wf
  · refine State.ite_wf (fun _ => wf) fun _ => ?_
    split
    · exact wf
    · split
      · refine State.ite_wf (fun _ => ?_) fun _ => by simp [wf]
        split
        · exact State.ite_wf (fun _ => wf) fun _ => by simp [wf]
        · simp [wf]
      · exact State.ite_wf (fun _ => by simp [wf]) fun _ => State.fmtBegin_wf _ _ _ _ wf

@[simp] theorem State.teamExit_wf (s : State) (t : Nat) (wf : Memory.wf s.mem = true) : Memory.wf (s.teamExit t).mem = true := by
  unfold State.teamExit
  dsimp only
  split
  · exact wf
  · refine State.ite_wf (fun _ => wf) fun _ => State.ite_wf (fun _ => ?_) fun _ => State.ite_wf (fun _ => wf) fun _ => by simp [wf]
    split <;> simp [wf]

@[simp] theorem State.hwTake_wf (s : State) (die : Nat) (asid : W16) (part : Nat) (va : W64) (n k : Nat) (wf : Memory.wf s.mem = true) :
    Memory.wf (s.hwTake die asid part va n k).2.mem = true := by
  induction k generalizing s va with
  | zero => exact wf
  | succ j ih =>
    unfold State.hwTake
    have touched := State.hwTouch_wf s die asid part va n .read false wf
    split
    · exact wf
    · exact touched
    · split
      next took => exact State.snd_wf took (ih _ _ touched)
      next => exact ih _ _ touched

@[simp] theorem State.faultReply_wf (s : State) (id : Nat) (a : FaultAnswer) (wf : Memory.wf s.mem = true) :
    Memory.wf (s.faultReply id a).mem = true := by
  unfold State.faultReply
  split
  · exact wf
  · exact State.answerWho_wf _ _ _ _ _ wf

@[simp] theorem State.walkComplete_wf (s0 : State) (id : Nat) (wf : Memory.wf s0.mem = true) :
    Memory.wf (s0.walkComplete id).mem = true := by
  have helps {s : State} (wf : Memory.wf s.mem = true) (xs : List WalkWaiter) :
      Memory.wf (xs.foldl (fun s x => s.walkHelps id x) s).mem = true := State.foldl_wf wf fun u wf x => State.walkHelps_wf _ _ _ wf
  have fails {s : State} (wf : Memory.wf s.mem = true) (k : Walk) (c : Cause) (xs : List WalkWaiter) :
      Memory.wf (xs.foldl (fun s x => s.walkFails k x c) s).mem = true := State.foldl_wf wf fun u wf x => State.walkFails_wf _ _ _ _ wf
  unfold State.walkComplete
  dsimp only
  split
  · exact wf
  · refine State.ite_wf (fun _ => wf) fun _ => State.ite_wf (fun _ => by simp [wf]) fun _ => ?_
    split
    · simp [wf]
    · refine State.ite_wf (fun _ => helps ?_ _) fun _ => fails ?_ _ _ _
      all_goals split <;> simp [wf]
    · refine State.ite_wf (fun _ => helps (by simp [wf]) _) fun _ => State.ite_wf (fun _ => fails (by simp [wf]) _ _ _) fun _ =>
        State.ite_wf (fun _ => by simp [wf]) fun _ => ?_
      exact State.walkFound_wf _ _ _ (State.setAds_wf _ _ _ wf)

@[simp] theorem State.writeArea_wf (s : State) (g : Grid) (core : Nat) (va : W64) (n v : Nat) (wf : Memory.wf s.mem = true) :
    Memory.wf (s.writeArea g core va n v).mem = true := by
  induction n generalizing s va v with
  | zero => exact wf
  | succ k ih => exact ih _ _ _ (State.writeBlock_wf _ _ _ _ _ wf)

@[simp] theorem State.readDescs_wf (s : State) (die : Nat) (g : Grid) (va : W64) (n : Nat) (wf : Memory.wf s.mem = true) :
    Memory.wf (s.readDescs die g va n).2.mem = true := by
  induction n generalizing s va with
  | zero => exact wf
  | succ k ih =>
    have took := State.hwTake_wf s die g.asid g.part va 8 8 wf
    unfold State.readDescs
    split
    next found => exact State.snd_wf found took
    next found => exact State.snd_wf found took
    next found =>
      split
      next rest => exact State.snd_wf rest (ih _ _ (State.snd_wf found took))
      next => exact ih _ _ (State.snd_wf found took)

@[simp] theorem State.fillArea_wf (s : State) (g : Grid) (core : Nat) (va : W64) (n : Nat) (wf : Memory.wf s.mem = true) :
    Memory.wf (s.fillArea g core va n).mem = true := by
  induction n generalizing s va with
  | zero => exact wf
  | succ k ih => exact ih _ _ (State.writeArea_wf _ _ _ _ _ _ (by simp [wf]))

theorem State.tableEntry_wf (s : State) (g : Grid) (va : W64) (wf : Memory.wf s.mem = true) :
    ∀ r, s.tableEntry g va = .ok r → Memory.wf r.2.mem = true := by
  have took := State.hwTake_wf s 0 g.asid g.part va 8 1 wf
  intro r found
  unfold State.tableEntry at found
  split at found <;> cases found
  next read => exact State.snd_wf read took
  next read => exact State.snd_wf read took

theorem State.safeTable_wf (s : State) (g : Grid) (va : W64) (n : Nat) (wf : Memory.wf s.mem = true) :
    ∀ r, s.safeTable g va n = .ok r → Memory.wf r.2.mem = true := by
  induction n generalizing s va with
  | zero =>
    intro r found
    cases found
    exact wf
  | succ k ih =>
    intro r found
    unfold State.safeTable at found
    split at found
    · cases found
    next first =>
      split at found
      · cases found
      next second =>
        have seconds := State.tableEntry_wf _ _ _ (State.tableEntry_wf _ _ _ wf _ first) _ second
        cases rest : State.safeTable _ g (va + 16) k with
        | error pa => rw [rest] at found; cases found
        | ok q =>
          rw [rest] at found
          cases found
          exact ih _ _ seconds q rest

theorem State.readArea_wf (s : State) (g : Grid) (core : Nat) (base : W64) (old : Mem) (wf : Memory.wf s.mem = true) :
    ∀ r, s.readArea g core base old = .ok r → Memory.wf r.2.mem = true := by
  have took := State.hwTake_wf s (dieOf core) g.asid g.part (base + 4096) 64 (g.rec_.scratch / 64) wf
  intro r found
  unfold State.readArea at found
  split at found <;> cases found
  next read => exact State.snd_wf read took
  next read => exact State.snd_wf read took

@[simp] theorem State.teamRestore_wf (s : State) (entry : Nat) (wf : Memory.wf s.mem = true) :
    Memory.wf (s.teamRestore entry).mem = true := by
  unfold State.teamRestore
  split
  · exact wf
  · split
    · exact wf
    · split
      · exact wf
      · refine State.ite_wf (fun _ => wf) fun _ => ?_
        split
        · simp [wf]
        · simp [wf]
        next read _ =>
          rw [State.bringBack_mem]
          exact State.readArea_wf _ _ _ _ _ wf _ read

end Sys2Proof.Machine
end

section
/-!
PROOFS. Fetches, launches, saves, polls and the end of an issue: what they write leaves canonical memory canonical.
-/

namespace Sys2Proof.Machine

theorem State.fetchTurn_wf (s : State) (g : Agent) (pc : W64) (lanes : Mask) (step : Bool) (wf : Memory.wf s.mem = true) :
    ∀ t, s.fetchTurn g pc lanes step = some t → Memory.wf t.mem = true := by
  unfold State.fetchTurn
  split
  · simp
  next w _ =>
    have failing (guess : Bool) (bp : Option DbgCtx) (t : State) (twf : Memory.wf t.mem = true) : ∀ r,
        (if guess then none else match (generalizing := false) bp with
          | some d => some (s.hitBreak g d lanes pc)
          | none => some t) = some r → Memory.wf r.mem = true := by
      intro r found
      split at found
      · cases found
      · split at found <;> cases found
        · exact State.hitBreak_wf _ _ _ _ _ wf
        · exact twf
    have fetched := s.fetch_mem w pc lanes
    dsimp only
    split
    · refine failing _ _ _ ?_
      simp [wf]
    · split
      · simp
      next u read =>
        rw [read] at fetched
        rintro t ⟨⟩
        exact fetched ▸ wf
      · simp
      · refine failing _ _ _ ?_
        simp [wf]
      · split
        · simp
        · split
          · simp [wf]
          · refine failing _ _ _ (State.ite_wf (fun _ => ?_) fun _ => ?_)
            all_goals simp [wf]
      next u read =>
        rw [read] at fetched
        refine failing _ _ _ ?_
        rw [State.parkPri_mem]
        exact fetched ▸ wf

theorem State.fetchOne_wf (s : State) (gs : List Agent) (wf : Memory.wf s.mem = true) :
    ∀ t, s.fetchOne gs = some t → Memory.wf t.mem = true := by
  intro t found
  obtain ⟨g, -, turn⟩ := List.exists_of_findSome?_eq_some found
  split at turn
  · exact State.fetchTurn_wf _ _ _ _ _ wf t turn
  · cases turn

@[simp] theorem State.readSched_wf (s : State) (die : Nat) (g : Grid) (wf : Memory.wf s.mem = true) :
    Memory.wf (s.readSched die g).2.mem = true := by
  have took := State.hwTake_wf s die g.asid g.part g.rec_.sched 8 8 wf
  unfold State.readSched
  split
  · exact wf
  · split
    next read => exact State.snd_wf read took
    next read => exact State.snd_wf read took
    next read =>
      split
      · exact State.snd_wf read took
      · exact State.readDescs_wf _ _ _ _ _ (State.snd_wf read took)

@[simp] theorem State.checkHeader_wf (s : State) (entry : Nat) (g : Grid) (h : Nat) (wf : Memory.wf s.mem = true) :
    Memory.wf (s.checkHeader entry g h).mem = true := by
  unfold State.checkHeader
  split
  · simp [wf]
  · split
    · simp [wf]
    next table =>
      rw [State.updGrid_mem]
      exact State.safeTable_wf _ _ _ _ wf _ table

@[simp] theorem State.checkRec_wf (s : State) (entry : Nat) (g : Grid) (wf : Memory.wf s.mem = true) :
    Memory.wf (s.checkRec entry g).mem = true := by
  have took := State.hwTake_wf s 0 g.asid g.part g.rec_.code 8 32 wf
  unfold State.checkRec
  dsimp only
  refine State.ite_wf (fun _ => by simp [wf]) fun _ => ?_
  split
  · simp [wf]
  next read =>
    rw [State.rejectGrid_mem]
    exact State.snd_wf read took
  · simp [wf]
  next read _ =>
    refine State.checkHeader_wf _ _ _ _ ?_
    rw [State.featTouch_mem]
    exact State.snd_wf read took

@[simp] theorem State.launchCheck_wf (s : State) (entry : Nat) (wf : Memory.wf s.mem = true) :
    Memory.wf (s.launchCheck entry).mem = true := by
  unfold State.launchCheck
  split
  · exact wf
  next g _ =>
    refine State.ite_wf (fun _ => wf) fun _ => ?_
    split
    · exact State.checkRec_wf _ _ _ wf
    next va _ =>
      have took := State.hwTake_wf s 0 g.asid g.part va 8 16 wf
      split
      · simp [wf]
      next read =>
        rw [State.updGrid_mem, State.rejectGrid_mem]
        exact State.snd_wf read took
      next read =>
        have taken := State.snd_wf read took
        exact State.checkRec_wf _ _ _ taken

@[simp] theorem State.saveTeam_wf (s : State) (t : Nat) (x : Team) (g : Grid) (base : W64) (wf : Memory.wf s.mem = true) :
    Memory.wf (s.saveTeam t x g base).mem = true := by
  unfold State.saveTeam
  dsimp only
  rw [State.setPart_mem]
  change Memory.wf (State.mem (State.freePlaces _ t x)) = true
  rw [State.freePlaces_mem]
  have kept : ∀ u : State, Memory.wf u.mem = true → ∀ a : SavedWarp, Memory.wf (State.mem
      (if a.forced.isSome then u.fillArea g x.core (g.areaOf base a.k) (g.areaSize / 256) else u)) = true :=
    fun u wf a => State.ite_wf (fun _ => State.fillArea_wf _ _ _ _ _ wf) fun _ => wf
  refine State.ite_wf (fun _ => State.fillArea_wf _ _ _ _ _ (State.foldl_wf ?_ kept)) fun _ => State.foldl_wf ?_ kept
  all_goals exact State.fillArea_wf _ _ _ _ _ (State.writeArea_wf _ _ _ _ _ _ wf)

@[simp] theorem State.teamStart_wf (s : State) (t : Nat) (wf : Memory.wf s.mem = true) : Memory.wf (s.teamStart t).mem = true := by
  unfold State.teamStart
  split
  · exact wf
  next x _ =>
    split
    · exact wf
    next g _ =>
      have read := State.readSched_wf (s.holdLeaves t g.asid) (dieOf x.core) g (by simp [wf])
      dsimp only
      refine State.ite_wf (fun _ => wf) fun _ => ?_
      split
      · simp [wf]
      · split
        next found => simp [State.snd_wf found read]
        next found => simp [State.snd_wf found read]
        next found => simp [State.snd_wf found read]

@[simp] theorem State.pollSlots_wf (s : State) (base : Nat) (slots : List Nat) (wf : Memory.wf s.mem = true) :
    Memory.wf (s.pollSlots base slots).mem = true := by
  induction slots generalizing s with
  | nil => exact wf
  | cons k rest ih =>
    unfold State.pollSlots
    refine State.ite_wf (fun _ => wf) fun _ => ?_
    split
    next t read => exact State.slotRead_mem _ _ _ t read ▸ wf
    next v _ =>
      refine State.ite_wf (fun _ => ih _ wf) fun _ => ?_
      have command := State.debugCmd_wf s k base (DbgCmd.ofBytes v) wf
      dsimp only
      split
      next did =>
        rw [did] at command
        exact ih _ (State.slotDone_wf _ _ _ _ _ command)
      next did =>
        rw [did] at command
        exact command
      next did =>
        rw [did] at command
        exact command

@[simp] theorem State.debugPoll_wf (s : State) (wf : Memory.wf s.mem = true) : Memory.wf s.debugPoll.mem = true := by
  unfold State.debugPoll
  split
  · exact wf
  · exact State.ite_wf (fun _ => wf) fun _ => State.ite_wf (fun _ => wf) fun _ => State.pollSlots_wf _ _ _ wf

@[simp] theorem State.hardwareSave_wf (s0 : State) (t : Nat) (wf : Memory.wf s0.mem = true) :
    Memory.wf (s0.hardwareSave t).mem = true := by
  unfold State.hardwareSave
  split
  · exact wf
  · split
    · dsimp only
      split
      · simp [wf]
      · refine State.ite_wf (fun _ => by simp [wf]) fun _ => State.ite_wf (fun _ => ?_) fun _ => by simp [wf]
        split <;> simp [wf]
    · refine State.ite_wf (fun _ => wf) fun _ => ?_
      split <;> simp [wf]
    · exact wf

theorem State.afterSafe_wf {s : State} {g : Agent} {f : State → State} (wf : Memory.wf s.mem = true)
    (kept : ∀ u, Memory.wf u.mem = true → Memory.wf (f u).mem = true) : Memory.wf (s.afterSafe g f).mem = true := by
  unfold State.afterSafe
  dsimp only
  have taken : Memory.wf (if s.safeWanted g then s.safePointTake g else s).mem = true :=
    State.ite_wf (fun _ => by simp [wf]) fun _ => wf
  exact State.ite_wf (fun _ => taken) fun _ => kept _ taken

@[simp] theorem State.settleWarp_wf (s : State) (w : Nat) (wf : Memory.wf s.mem = true) : Memory.wf (s.settleWarp w).mem = true := by
  unfold State.settleWarp
  dsimp only
  rw [State.updWarp_mem]
  refine State.settleHalt_wf _ _ (State.settleTrap_wf _ _ (State.afterSafe_wf ?_ fun u wf => State.retest_wf _ _ wf))
  simp [wf]

theorem State.conclude_wf {s : State} {i : Instr} {iss : Iss} {owed : List (Nat × Cause × W64)} {e : Eff}
    (wf : Memory.wf e.st.mem = true) : Memory.wf (s.conclude i iss owed e).mem = true := by
  unfold State.conclude
  exact State.ite_wf (fun _ => State.finish_wf _ _ (by simp [wf])) fun _ => State.finish_wf _ _ (by simp [wf])

@[simp] theorem State.debugAfter_wf (s1 s2 : State) (wf : Memory.wf s2.mem = true) : Memory.wf (s1.debugAfter s2).mem = true := by
  unfold State.debugAfter
  split
  · exact wf
  · refine State.ite_wf (fun _ => ?_) fun _ => State.ite_wf (fun _ => wf) fun _ => wf
    refine State.ite_wf (fun _ => wf) fun _ => ?_
    split
    · simp [wf]
    · simp [wf]
    · exact State.ite_wf (fun _ => wf) fun _ => by simp [wf]

@[simp] theorem State.after_wf (s0 s1 : State) (i : Instr) (s2 : State) (wf : Memory.wf s2.mem = true) :
    Memory.wf (s0.after s1 i s2).mem = true := by
  simp [State.after, wf]

end Sys2Proof.Machine
end

section
/-!
PROOFS. What is planned starts from canonical memory, or leaves it.
-/

namespace Sys2Proof.Machine

/-- Memory is in canonical form in the state that a planned step leaves or starts from. -/
def Todo.Canonical : Todo → Prop
  | .done s | .run _ s => Memory.wf s.mem = true

/-- A turn finds nothing to do, or a step that leaves or starts from canonical memory. -/
def Todo.AllCanonical : Option Todo → Prop
  | none => True
  | some t => t.Canonical

theorem Todo.canonical_ite {c : Prop} [Decidable c] {a b : Todo} (yes : a.Canonical) (no : b.Canonical) :
    (if c then a else b).Canonical := by
  split
  · exact yes
  · exact no

theorem Todo.allCanonical_ite {c : Prop} [Decidable c] {a b : Option Todo} (yes : Todo.AllCanonical a) (no : Todo.AllCanonical b) :
    Todo.AllCanonical (if c then a else b) := by
  split
  · exact yes
  · exact no

/-- A turn leaves canonical memory, whatever it finds to do. -/
def State.TurnCanonical (x : State × Option Todo) : Prop := Memory.wf x.1.mem = true ∧ Todo.AllCanonical x.2

theorem State.turnCanonical_ite {c : Prop} [Decidable c] {a b : State × Option Todo} (yes : State.TurnCanonical a) (no : State.TurnCanonical b) :
    State.TurnCanonical (if c then a else b) := by
  split
  · exact yes
  · exact no

theorem State.issueAt_canonical (s : State) (g : Agent) (e : Mask) (pc : W64) (lanes : Mask) (i : Option Instr) (len : Nat) (step : Bool)
    (wf : Memory.wf s.mem = true) : (s.issueAt g e pc lanes i len step).Canonical := by
  unfold State.issueAt
  split
  · exact wf
  · dsimp only
    split
    · refine Todo.canonical_ite ?_ ?_
      · simp [Todo.Canonical, wf]
      · simp [Todo.Canonical, wf]
    · simp [Todo.Canonical, wf]
    · simp [Todo.Canonical, wf]

theorem State.portTurn_canonical (s : State) (gs : List Agent) (free : Bool) (fits : Cand → Bool) (wf : Memory.wf s.mem = true) :
    State.TurnCanonical (s.portTurn gs free fits) := by
  unfold State.portTurn
  split
  next t fetched =>
    have left := State.fetchOne_wf _ _ wf _ fetched
    exact ⟨left, left⟩
  next =>
    dsimp only
    have noted : Memory.wf (State.mem (s.noteReady gs ((gs.filterMap fun g => s.candOf g).map (·.g)))) = true := by simp [wf]
    refine State.turnCanonical_ite ⟨wf, trivial⟩ ?_
    split
    · exact ⟨noted, trivial⟩
    · exact ⟨noted, State.issueAt_canonical _ _ _ _ _ _ _ _ noted⟩

theorem State.placeTurn_canonical (s : State) (n : Nat) (wf : Memory.wf s.mem = true) : State.TurnCanonical (s.placeTurn n) := by
  simp only [State.placeTurn]
  refine State.turnCanonical_ite (State.portTurn_canonical _ _ _ _ ?_) (State.portTurn_canonical _ _ _ _ ?_)
  · exact State.foldl_wf wf fun u wf t => State.settleCt_wf _ _ wf
  · exact State.foldl_wf wf fun u wf w => State.settleWarp_wf _ _ wf

theorem State.scan_canonical (places : List Nat) (s : State) (wf : Memory.wf s.mem = true) : (s.scan places).Canonical := by
  induction places generalizing s with
  | nil =>
    unfold State.scan
    exact State.ite_wf (fun _ => State.tick_wf _ _ wf) fun _ => wf
  | cons p rest ih =>
    have turn := s.placeTurn_canonical p wf
    rw [State.scan]
    split
    case h_1 found => rw [found] at turn; exact turn.2
    case h_2 found => rw [found] at turn; exact turn.2
    case h_3 found => rw [found] at turn; exact ih _ turn.1

theorem State.stepEnd_canonical (s : State) (r : DbgRun) (wf : Memory.wf s.mem = true) : Todo.AllCanonical (s.stepEnd r) := by
  unfold State.stepEnd
  split
  · simp [Todo.AllCanonical, Todo.Canonical, wf]
  · refine Todo.allCanonical_ite trivial ?_
    simp [Todo.AllCanonical, Todo.Canonical, wf]

theorem State.bufferTurn_canonical (s : State) (r : DbgRun) (wf : Memory.wf s.mem = true) : Todo.AllCanonical (s.bufferTurn r) := by
  have ends (t : State) (same : t.mem = s.mem) (status : Nat) (data : Option W64) : (Todo.done (t.debugEnd r status data)).Canonical :=
    State.debugEnd_wf _ _ _ _ (same ▸ wf)
  unfold State.bufferTurn
  split
  · split
    · exact ends _ (State.updCtx_mem ..) _ _
    · refine Todo.allCanonical_ite trivial ?_
      split
      · exact ends _ rfl _ _
      · split
        · exact Todo.allCanonical_ite trivial (ends _ rfl _ _)
        · exact Todo.allCanonical_ite trivial wf
  · exact ends _ rfl _ _

theorem State.debugTurn_canonical (s : State) (wf : Memory.wf s.mem = true) : State.TurnCanonical s.debugTurn := by
  simp only [State.debugTurn]
  split
  · exact ⟨wf, trivial⟩
  next r _ =>
    have settled : Memory.wf (State.mem (match r.agent with | .warp w => s.settleWarp w | .ct t => s.settleCt t)) = true := by
      cases r.agent with
      | warp w => exact State.settleWarp_wf _ _ wf
      | ct t => exact State.settleCt_wf _ _ wf
    refine State.turnCanonical_ite ⟨settled, State.bufferTurn_canonical _ r settled⟩
      (State.turnCanonical_ite ⟨settled, State.stepEnd_canonical _ r settled⟩ ?_)
    split
    · exact State.turnCanonical_ite ⟨settled, State.debugEnd_wf _ _ _ _ settled⟩ ⟨settled, trivial⟩
    next pc lanes _ =>
      refine ⟨settled, ?_⟩
      cases fetched : State.fetchTurn _ r.agent pc lanes true with
      | none => trivial
      | some t => exact State.fetchTurn_wf _ _ _ _ _ settled t fetched
    · exact ⟨settled, trivial⟩
    · exact ⟨settled, State.issueAt_canonical _ _ _ _ _ _ _ _ settled⟩

theorem State.move_canonical (s : State) (m : Move) (wf : Memory.wf s.mem = true) : (s.move m).Canonical := by
  have place (n : Nat) : (match s.placeTurn n with | (_, some t) => t | (u, none) => Todo.done u).Canonical := by
    have turn := s.placeTurn_canonical n wf
    split
    next found => rw [found] at turn; exact turn.2
    next found => rw [found] at turn; exact turn.1
  cases m with
  | slot core slot => exact Todo.canonical_ite (place _) wf
  | pipe core => exact Todo.canonical_ite (place _) wf
  | tick n => exact State.tick_wf _ _ wf
  | array team id => exact State.ite_wf (fun _ => by simp [wf]) fun _ => wf
  | unit id => exact State.ite_wf (fun _ => by simp [wf]) fun _ => wf
  | flit since f => exact State.ite_wf (fun _ => State.flitAgain_wf _ _ _ wf) fun _ => by simp [wf]
  | event e => exact Todo.canonical_ite wf wf

theorem State.listedMove_canonical (s : State) (m : Move) (rest : List Move) (wf : Memory.wf s.mem = true) :
    (s.listedMove m rest).Canonical := by
  have moves {t : State} (same : t.mem = s.mem) : (t.move m).Canonical := State.move_canonical _ _ (same ▸ wf)
  have ticks : (Todo.done (s.tick 50)).Canonical := State.tick_wf _ _ wf
  simp only [State.listedMove]
  refine Todo.canonical_ite (moves rfl) ?_
  split
  · exact moves rfl
  · exact Todo.canonical_ite ticks (moves rfl)
  · exact Todo.canonical_ite ticks (moves rfl)
  · refine Todo.canonical_ite ?_ (Todo.canonical_ite ticks (moves rfl))
    split
    · exact moves rfl
    · exact State.scan_canonical _ _ wf
    · exact State.scan_canonical _ _ wf

theorem State.defaultTurn_canonical (s : State) (wf : Memory.wf s.mem = true) : s.defaultTurn.Canonical := by
  have ticks : (Todo.done (s.tick 50)).Canonical := State.tick_wf _ _ wf
  unfold State.defaultTurn
  split
  · exact wf
  · exact Todo.canonical_ite (State.scan_canonical _ _ wf) ticks
  · exact Todo.canonical_ite (State.scan_canonical _ _ wf) ticks
  · exact ticks

/-- What the plan comes to leaves, or starts from, canonical memory. -/
theorem State.plan_canonical (s : State) (wf : Memory.wf s.mem = true) : s.plan.Canonical := by
  have turn : State.TurnCanonical (if s.live && s.inPlaces then s.debugTurn else (s, none)) :=
    State.turnCanonical_ite (s.debugTurn_canonical wf) ⟨wf, trivial⟩
  unfold State.plan
  split
  next found => rw [found] at turn; exact turn.2
  next found =>
    rw [found] at turn
    split
    · exact State.listedMove_canonical _ _ _ turn.1
    · exact State.defaultTurn_canonical _ turn.1

end Sys2Proof.Machine
end

section
/-!
PROOFS. What the events leave of memory.
-/

namespace Sys2Proof.Machine

/-! ## What each event leaves -/

/-- The next state, where there is one, has canonical memory. -/
def OutcomeCanonical (o : Host.Outcome State Fault Refusal) : Prop := ∀ t, o = .next t → Memory.wf t.mem = true

theorem outcomeCanonical_next {t : State} (wf : Memory.wf t.mem = true) : OutcomeCanonical (.next t) := by
  rintro u ⟨⟩
  exact wf

theorem State.whileLive_canonical {s : State} {f : State → State} (wf : Memory.wf s.mem = true)
    (kept : ∀ u, Memory.wf u.mem = true → Memory.wf (f u).mem = true) : OutcomeCanonical (s.whileLive f) :=
  outcomeCanonical_next (State.ite_wf (fun _ => kept s wf) fun _ => wf)

theorem State.whileStanding_canonical {s : State} {f : State → State} (wf : Memory.wf s.mem = true)
    (kept : ∀ u, Memory.wf u.mem = true → Memory.wf (f u).mem = true) : OutcomeCanonical (s.whileStanding f) :=
  outcomeCanonical_next (State.ite_wf (fun _ => kept s wf) fun _ => wf)

theorem State.whileLive_same {s : State} {f : State → State} (wf : Memory.wf s.mem = true) (same : ∀ u, (f u).mem = u.mem) :
    OutcomeCanonical (s.whileLive f) :=
  State.whileLive_canonical wf fun u wf => same u ▸ wf

theorem State.whileStanding_same {s : State} {f : State → State} (wf : Memory.wf s.mem = true) (same : ∀ u, (f u).mem = u.mem) :
    OutcomeCanonical (s.whileStanding f) :=
  State.whileStanding_canonical wf fun u wf => same u ▸ wf

/-- An event leaves canonical memory canonical. -/
theorem exec_event_canonical {i : Instr} (event : argsOf i = none) {s : State} (wf : Memory.wf s.mem = true) : OutcomeCanonical (exec i s) := by
  cases i with
  | branchResolve w => exact State.whileLive_same wf fun u => State.land_mem ..
  | tagFree g tag => exact State.whileLive_same wf fun u => State.tagFree_mem ..
  | joinTimeout w k => exact State.whileLive_same wf fun u => State.afterSafe_mem fun v => State.joinTimeout_mem ..
  | napExpire w => exact State.whileLive_same wf fun u => State.napExpire_mem ..
  | evwaitTimeout t => exact State.whileLive_same wf fun u => State.evwaitExpire_mem ..
  | barwRetest w => exact State.whileLive_canonical wf fun u wf => State.afterSafe_wf wf fun v wf => State.retestBarw_wf _ _ wf
  | svcReply w value err => exact State.whileLive_canonical wf fun u wf => State.svcAnswer_wf _ _ _ _ wf
  | deferredCallComplete t request value err => exact State.whileLive_same wf fun u => State.deferredDone_mem ..
  | faultReply ticket answer => exact State.whileLive_canonical wf fun u wf => State.faultReply_wf _ _ _ wf
  | priReply request ok => exact State.whileLive_canonical wf fun u wf => State.priReply_wf _ _ _ wf
  | homeRenew req => exact State.whileLive_same wf fun u => State.homeRenew_mem ..
  | renewalReply req => exact State.whileLive_same wf fun u => State.renewalReply_mem ..
  | home1Read req => exact State.whileLive_same wf fun u => State.home1Read_mem ..
  | homeWriteback req => exact State.whileLive_canonical wf fun u wf => State.homeWriteback_wf _ _ wf
  | writebackReply req => exact State.whileLive_same wf fun u => State.writebackReply_mem ..
  | homeAtomic req => exact State.whileLive_canonical wf fun u wf => State.homeAtomic_wf _ _ wf
  | atomicReply req => exact State.whileLive_same wf fun u => State.atomicReply_mem ..
  | clockCreep g => exact State.whileLive_same wf fun u => State.clockCreep_mem ..
  | l2SweepStep home => exact State.whileLive_same wf fun u => State.sweepStep_mem ..
  | clockFloorBroadcast => exact State.whileLive_same wf fun u => State.floorBroadcast_mem ..
  | cacheError site => exact State.whileLive_same wf fun u => State.cacheError_mem ..
  | peerRequest chip pasid va op =>
    change OutcomeCanonical (execPeerRequest chip pasid va op s)
    refine State.whileLive_canonical wf fun u wf => ?_
    exact State.ite_wf (fun _ => State.peerRequest_wf _ _ _ _ _ _ wf) fun _ => wf
  | remoteWriteAck id => exact State.whileLive_same wf fun u => State.ackFlit_mem ..
  | datumWindowStart => exact State.whileLive_same wf fun u => State.windowStart_mem ..
  | pageWalkComplete walk => exact State.whileLive_canonical wf fun u wf => State.walkComplete_wf _ _ wf
  | tlbinvLeaf asid => exact State.whileLive_same wf fun u => State.postInval_mem ..
  | tlbinvAsid asid => exact State.whileLive_same wf fun u => State.postInval_mem ..
  | tlbinvNonglobal => exact State.whileLive_same wf fun u => State.postInval_mem ..
  | tlbinvAll => exact State.whileLive_same wf fun u => State.postInval_mem ..
  | tlbInvalidationComplete => exact State.whileLive_same wf fun u => State.invalDone_mem ..
  | matrixPassStart core => exact State.whileLive_same wf fun u => State.passStart_mem ..
  | matrixPassWrite core => exact State.whileLive_same wf fun u => State.passWrite_mem ..
  | accPortOperation core => exact State.whileLive_same wf fun u => State.portMove_mem ..
  | engineUncorrectable w tile =>
    change OutcomeCanonical (execEngineUncorrectable w tile s)
    refine State.whileLive_canonical wf fun u wf => ?_
    exact State.ite_wf (fun _ => by simp [wf]) fun _ => wf
  | transferPieceLand cmd => exact State.whileLive_canonical wf fun u wf => State.pieceLand_wf _ _ wf
  | transferPieceFault cmd => exact State.whileLive_same wf fun u => State.pieceFault_mem ..
  | multicastAck cmd rank => exact State.whileLive_canonical wf fun u wf => State.castAck_wf _ _ _ wf
  | scheduleDescriptorIssue t => exact State.whileLive_same wf fun u => State.schedIssue_mem ..
  | recordConsume q uncorrectable => exact State.whileLive_same wf fun u => State.recordConsume_mem ..
  | launchCheck entry => exact State.whileLive_canonical wf fun u wf => State.launchCheck_wf _ _ wf
  | gridDependencesMet entry => exact State.whileLive_same wf fun u => State.dependencesMet_mem ..
  | slotAdmission entry => exact State.whileLive_same wf fun u => State.slotAdmission_mem ..
  | placementDecision => exact State.whileLive_same wf fun u => State.placement_mem ..
  | teamStart t => exact State.whileLive_canonical wf fun u wf => State.teamStart_wf _ _ wf
  | formatTableLoad t => exact State.whileLive_canonical wf fun u wf => State.fmtLoad_wf _ _ wf
  | teamExit t => exact State.whileLive_canonical wf fun u wf => State.teamExit_wf _ _ wf
  | gridEndRequest t => exact State.whileLive_same wf fun u => State.gridEndRequest_mem ..
  | partitionIdle p => exact State.whileLive_same wf fun u => State.partitionIdle_mem ..
  | pcSample core => exact State.whileLive_canonical wf fun u wf => State.pcSample_wf _ _ wf
  | gridRetire entry => exact State.whileLive_same wf fun u => State.gridRetire_mem ..
  | completionRecordWrite entry => exact State.whileLive_canonical wf fun u wf => State.completion_wf _ _ wf
  | rankPressure entry => exact State.whileLive_same wf fun u => State.rankPressure_mem ..
  | saveAreaSupplied t base => exact State.whileLive_same wf fun u => State.areaSupplied_mem ..
  | saveAreaRetry t => exact State.whileLive_same wf fun u => State.areaRetry_mem ..
  | multicastDrainDone t => exact State.whileLive_same wf fun u => State.drainDone_mem ..
  | safePointTake g => exact State.whileLive_same wf fun u => State.safePointTake_mem ..
  | preemptDeadline t => exact State.whileLive_same wf fun u => State.deadline_mem ..
  | hardwareSave t => exact State.whileLive_canonical wf fun u wf => State.hardwareSave_wf _ _ wf
  | teamRestore entry => exact State.whileLive_canonical wf fun u wf => State.teamRestore_wf _ _ wf
  | preemptGo p minRank => exact State.whileLive_same wf fun u => State.goPreempt_mem ..
  | preemptHold p hold => exact State.whileLive_same wf fun u => State.setPart_mem ..
  | post q off size value =>
    change OutcomeCanonical (execPost q off size value s)
    refine State.whileLive_canonical wf fun u wf => ?_
    exact State.ite_wf (fun _ => by simp [wf]) fun _ => wf
  | queueEnable q word0 => exact State.whileLive_same wf fun u => State.writeQ0_mem ..
  | queueDisable q word0 => exact State.whileLive_same wf fun u => State.writeQ0_mem ..
  | queueSync q word1 => exact State.whileLive_same wf fun u => State.writeQ1_mem ..
  | partitionEnable p word0 => exact State.whileLive_same wf fun u => State.writePart0_mem ..
  | partitionDisable p word0 => exact State.whileLive_same wf fun u => State.writePart0_mem ..
  | keyLoad slot => exact State.whileLive_same wf fun u => State.keyStart_mem ..
  | keyClear slot => exact State.whileLive_same wf fun u => State.keyStart_mem ..
  | hostSharedRead port line => exact State.whileLive_same wf fun u => State.sharedRead_mem ..
  | hostOwnershipRead port line => exact State.whileLive_same wf fun u => State.ownershipRead_mem ..
  | hostWriteback port line data bytes keep => exact State.whileLive_canonical wf fun u wf => State.hostWriteBack_wf _ _ _ _ _ _ wf
  | bisnpResponse line data bytes => exact State.whileLive_canonical wf fun u wf => State.snoopAnswer_wf _ _ _ _ wf
  | hostBar4Write port pa n data => exact State.whileLive_canonical wf fun u wf => State.bar4Write_wf _ _ _ _ _ wf
  | hostBar4Read port pa n => exact State.whileLive_same wf fun u => State.bar4Read_mem ..
  | hostAtomic port pa op ty operand cmp => exact State.whileLive_canonical wf fun u wf => State.hostAtomicOp_wf _ _ _ _ wf
  | hostRefusedAccess port off write => exact State.whileLive_same wf fun u => State.hostRefused_mem ..
  | registerWrite addr value port => exact State.whileLive_same wf fun u => State.registerWrite_mem ..
  | dlctlPin link value => exact State.whileLive_same wf fun u => State.writePin_mem ..
  | linkStepUp link => exact State.whileLive_same wf fun u => State.stepUp_mem ..
  | linkStepDown link => exact State.whileLive_same wf fun u => State.stepDown_mem ..
  | retrainWindowEnd link => exact State.whileLive_same wf fun u => State.closeWindow_mem ..
  | flitCrcError link => exact State.whileLive_same wf fun u => State.crcError_mem ..
  | linkDown link => exact State.whileLive_same wf fun u => State.downLink_mem ..
  | belcyMessageArrive port dest src edge op pasid va => exact State.whileLive_canonical wf fun u wf => State.peerFlit_wf _ _ _ _ _ _ _ _ _ wf
  | belcyLaneFail port => exact State.whileLive_same wf fun u => State.laneFail_mem ..
  | chipcfgWrite value => exact State.whileLive_same wf fun u => State.regWrite_mem ..
  | powerOn =>
    change OutcomeCanonical (execPowerOn s)
    refine State.whileStanding_canonical wf fun u wf => ?_
    exact State.ite_wf (fun _ => wf) fun _ => wf
  | bootVerify => exact State.whileStanding_same wf fun u => State.bootVerify_mem ..
  | corePowerUp => exact State.whileLive_same wf fun u => State.corePowerUp_mem ..
  | fatalEntry cause => exact State.whileLive_same wf fun u => State.fatalNow_mem ..
  | packageReset => exact State.whileStanding_canonical wf fun u wf => State.packageReset_wf _ wf
  | hallCapFrame frame m => exact State.whileStanding_same wf fun u => State.capFrame_mem ..
  | hallRecompute m => exact State.whileStanding_same wf fun u => State.hallRecompute_mem ..
  | hallHoldExpire => exact State.whileStanding_same wf fun u => State.hallExpire_mem ..
  | boardLimitMeasure m =>
    have measured : Memory.wf (s.boardMeasure m).mem = true := by simp [wf]
    exact outcomeCanonical_next (State.ite_wf (a := s.boardMeasure m) (fun _ => measured) fun _ => wf)
  | thermalStep heat => exact State.whileLive_same wf fun u => State.thermalStep_mem ..
  | currentLimitTrip => exact State.whileLive_same wf fun u => State.currentTrip_mem ..
  | currentLimitRestore => exact State.whileLive_same wf fun u => State.currentRestore_mem ..
  | pwrcfgWrite p value => exact State.whileLive_same wf fun u => State.regWrite_mem ..
  | lifetimeCommit => exact State.whileStanding_same wf fun u => State.lifetimeCommit_mem ..
  | lifetimeRead =>
    change OutcomeCanonical (execLifetimeRead s)
    refine State.whileStanding_same wf fun u => ?_
    exact rfl
  | firmwareUpdate image interrupted => exact State.whileStanding_same wf fun u => State.firmwareUpdate_mem ..
  | attestationRequest nonce => exact State.whileStanding_same wf fun u => State.attest_mem ..
  | setStoredChipId id =>
    change OutcomeCanonical (execSetStoredChipId id s)
    refine State.whileStanding_same wf fun u => ?_
    exact rfl
  | debugPoll => exact State.whileLive_canonical wf fun u wf => State.debugPoll_wf _ wf
  | memorySample core => exact State.whileLive_canonical wf fun u wf => State.memSample_wf _ _ wf
  | rcRegisterRead read => exact State.whileLive_same wf fun u => State.registerRead_mem ..
  | hostPortLinkTraining port training =>
    change OutcomeCanonical (execHostPortLinkTraining port training s)
    refine State.whileLive_same wf fun u => ?_
    exact rfl
  | hostPortDown port =>
    change OutcomeCanonical (execHostPortDown port s)
    refine State.whileLive_same wf fun u => ?_
    exact rfl
  | standbyPowerOn => exact outcomeCanonical_next (State.ite_wf (fun _ => wf) fun _ => wf)
  | standbyPowerLoss => exact State.whileStanding_canonical wf fun u _ => State.powerLoss_wf u
  | keyOperationDone => exact State.whileLive_same wf fun u => State.keyDone_mem ..
  | fixedLatencyResultLand g lanes => exact State.whileLive_same wf fun u => State.landIn_mem ..
  | hostWindowCompletion id data ok => exact State.whileLive_same wf fun u => State.hostFlit_mem ..
  | jtagAccess off n write data => exact State.whileLive_canonical wf fun u wf => State.jtag_wf _ _ _ _ _ wf
  | _ => cases event

end Sys2Proof.Machine
end

section
/-!
PROOFS. What the instructions leave of memory.
-/

namespace Sys2Proof.Machine

/-! ## What each instruction leaves -/

/-- An instruction whose body leaves canonical memory canonical does so too. -/
theorem State.issue_canonical {s : State} {i : Instr} {x : Args} {body : Iss → State → Eff} (wf : Memory.wf s.mem = true)
    (kept : ∀ iss u, Memory.wf u.mem = true → Memory.wf (body iss u).st.mem = true) : OutcomeCanonical (s.issue i x body) := by
  unfold State.issue
  split
  · rintro t ⟨⟩
  next w _ =>
    have opened : Memory.wf (s.opened w.g).mem = true := by simp [wf]
    dsimp only
    split
    · exact outcomeCanonical_next (State.finish_wf _ _ (by simp [wf]))
    · split
      · refine outcomeCanonical_next (State.finish_wf _ _ ?_)
        rw [Eff.all_mem]
        exact State.ite_wf (fun _ => opened) fun _ => State.countRetired_wf _ _ _ opened
      · split
        · refine outcomeCanonical_next (State.finish_wf _ _ ?_)
          simp [State.countRetired_wf _ _ _ opened]
        · exact outcomeCanonical_next (State.conclude_wf (kept _ _ opened))

/-- An instruction whose body leaves memory as it is leaves canonical memory canonical. -/
theorem State.issue_same {s : State} {i : Instr} {x : Args} {body : Iss → State → Eff} (wf : Memory.wf s.mem = true)
    (same : ∀ iss u, (body iss u).st.mem = u.mem) : OutcomeCanonical (s.issue i x body) :=
  State.issue_canonical wf fun iss u wf => same iss u ▸ wf

theorem State.fixed_canonical {s : State} {i : Instr} {x : Args} {f : Iss → State → Nat → List RegWrite} (wf : Memory.wf s.mem = true) :
    OutcomeCanonical (s.fixed i x f) := by
  unfold State.fixed
  exact State.issue_same wf fun iss u => Iss.results_mem ..

theorem State.atObjects_wf {s : State} {iss : Iss} {jss : List Nat × Iss} {write : Bool} {release : List (Nat × LaneRes) → Option Nat}
    {f : State → Nat → ObjLoc → Option State} (wf : Memory.wf s.mem = true)
    (kept : ∀ u j o t, Memory.wf u.mem = true → f u j o = some t → Memory.wf t.mem = true) :
    Memory.wf (s.atObjects iss jss write release f).st.mem = true := by
  unfold State.atObjects
  dsimp only
  split
  next t found => exact State.splitAccess_error_mem _ _ _ _ t found ▸ wf
  next u rs stay found =>
    have split_ : Memory.wf u.mem = true := State.splitAccess_ok_mem _ _ _ _ u rs stay found ▸ wf
    split
    next t waits => exact State.objWaits_mem _ _ _ _ t waits ▸ split_
    · split
      next t gated =>
        split at gated
        · exact (State.snd_wf gated (by simp [split_]) :)
        · cases gated
      next v gated =>
        have gate_ : Memory.wf v.mem = true := by
          split at gated
          · exact State.snd_wf gated (by simp [split_])
          · cases gated
            exact split_
        refine List.foldlRecOn (motive := fun a : State × List (Nat × Cause × W64) => Memory.wf a.1.mem = true) _ _ ?_ fun a kept_ r _ => ?_
        · simp [gate_]
        · split
          next o _ =>
            split
            next t performed => exact kept _ _ _ t kept_ performed
            · exact kept_
          · exact kept_

theorem State.loadOp_canonical {s : State} {i : Instr} {x : Args} (wf : Memory.wf s.mem = true) : OutcomeCanonical (s.loadOp i x) := by
  unfold State.loadOp
  refine State.issue_same wf fun iss u => ?_
  split
  · simp
  · dsimp only
    split
    next t found => exact State.splitAccess_error_mem _ _ _ _ t found
    next t _ _ found => simp [State.splitAccess_ok_mem _ _ _ _ t _ _ found]

theorem State.storeOp_canonical {s : State} {i : Instr} {x : Args} (wf : Memory.wf s.mem = true) : OutcomeCanonical (s.storeOp i x) := by
  unfold State.storeOp
  refine State.issue_same wf fun iss u => ?_
  split
  · rfl
  · dsimp only
    split
    next t found => exact State.splitAccess_error_mem _ _ _ _ t found
    next t _ _ found =>
      have split_ := State.splitAccess_ok_mem _ _ _ _ t _ _ found
      split
      next gated => simp [snd_mem gated, split_]
      next gated => simp [snd_mem gated, split_]

theorem State.atomOp_canonical {s : State} {i : Instr} {x : Args} {cas result : Bool} (wf : Memory.wf s.mem = true) :
    OutcomeCanonical (s.atomOp i x cas result) := by
  unfold State.atomOp
  refine State.issue_same wf fun iss u => ?_
  split
  · cases result <;> simp
  · dsimp only
    split
    next t found => exact State.splitAccess_error_mem _ _ _ _ t found
    next t _ _ found =>
      have split_ := State.splitAccess_ok_mem _ _ _ _ t _ _ found
      split
      next gated => simp [snd_mem gated, split_]
      next gated => simp [snd_mem gated, split_]

theorem execLdf_canonical {s : State} {x : Args} (wf : Memory.wf s.mem = true) : OutcomeCanonical (execLdf x s) := by
  unfold execLdf
  refine State.issue_same wf fun iss u => ?_
  split
  · simp
  · dsimp only
    split
    next t found =>
      split at found
      · cases found
        rfl
      · exact State.splitAccess_error_mem _ _ _ _ t found
    next t _ _ found =>
      split at found
      · cases found
      · simp [State.splitAccess_ok_mem _ _ _ _ t _ _ found]

theorem execStf_canonical {s : State} {x : Args} (wf : Memory.wf s.mem = true) : OutcomeCanonical (execStf x s) := by
  unfold execStf
  refine State.issue_same wf fun iss u => ?_
  split
  · rfl
  · dsimp only
    split
    · rfl
    · split
      · split
        · simp
        · split
          · rfl
          · split
            next gated => simp [snd_mem gated]
            next gated => simp [snd_mem gated]
      · split
        next t found => exact State.splitAccess_error_mem _ _ _ _ t found
        next t _ _ found =>
          have split_ := State.splitAccess_ok_mem _ _ _ _ t _ _ found
          split
          · simp [split_]
          · split
            next gated => simp [snd_mem gated, split_]
            next gated => simp [snd_mem gated, split_]

theorem execPref_canonical {s : State} {x : Args} (wf : Memory.wf s.mem = true) : OutcomeCanonical (execPref x s) := by
  unfold execPref
  refine State.issue_same wf fun iss u => ?_
  dsimp only
  have folded : (iss.each.foldl (fun (acc : Mask × State) j => let (m, s) := acc.2.prefLane iss (modBit x.mod 8) j; (acc.1 ||| m, s))
      (0, u)).2.mem = u.mem := State.foldl_pair_mem fun v j => State.prefLane_mem ..
  split
  · exact folded
  · exact folded

theorem execCwb_canonical {s : State} {x : Args} (wf : Memory.wf s.mem = true) : OutcomeCanonical (execCwb x s) := by
  unfold execCwb
  refine State.issue_same wf fun iss u => ?_
  split
  · rfl
  · dsimp only
    split
    next t found => exact State.splitAccess_error_mem _ _ _ _ t found
    next t _ _ found => simp [State.splitAccess_ok_mem _ _ _ _ t _ _ found]

theorem execCwbAll_canonical {s : State} {x : Args} (wf : Memory.wf s.mem = true) : OutcomeCanonical (execCwbAll x s) := by
  unfold execCwbAll
  refine State.issue_same wf fun iss u => ?_
  split
  · rfl
  · split <;> simp

theorem execSpmap_canonical {s : State} {x : Args} (wf : Memory.wf s.mem = true) : OutcomeCanonical (execSpmap x s) := by
  unfold execSpmap
  refine State.issue_same wf fun iss u => ?_
  split
  · rfl
  · dsimp only
    split
    · split
      · rfl
      · split <;> simp
    · rfl

theorem State.regionOp_canonical {s : State} {i : Instr} {x : Args} {unmap : Bool} (wf : Memory.wf s.mem = true) :
    OutcomeCanonical (s.regionOp i x unmap) := by
  unfold State.regionOp
  refine State.issue_same wf fun iss u => ?_
  split
  · rfl
  · dsimp only
    split
    · rfl
    · split
      · simp
      · split
        · simp
        · split <;> simp

theorem State.fenceOp_canonical {s : State} {i : Instr} {x : Args} (wf : Memory.wf s.mem = true) : OutcomeCanonical (s.fenceOp i x) := by
  unfold State.fenceOp
  refine State.issue_same wf fun iss u => ?_
  dsimp only
  split
  · rfl
  · have gated : ∀ b t, (if 2 ≤ orderOf x.mod then u.gate iss (scopeOf x.mod)
          (!((orderOf x.mod == 1 || orderOf x.mod == 3) && u.awaiting iss.w.g) && !u.rawBusy iss.w.g)
        else if !((orderOf x.mod == 1 || orderOf x.mod == 3) && u.awaiting iss.w.g) && !u.rawBusy iss.w.g then (true, u.endHold iss.w.g)
        else (false, u.holdIn iss (.release u.time))) = (b, t) → t.mem = u.mem := by
      intro b t found
      split at found
      · simp [snd_mem found]
      · split at found <;> cases found <;> simp
    split
    next found => exact gated _ _ found
    next found =>
      have := gated _ _ found
      split <;> simp [this]

theorem execBari_canonical {s : State} {x : Args} (wf : Memory.wf s.mem = true) : OutcomeCanonical (execBari x s) := by
  unfold execBari
  refine State.issue_canonical wf fun iss u wf => ?_
  split
  · exact wf
  · refine State.atObjects_wf wf fun v j o t kept did => ?_
    cases did
    exact State.initObj_wf _ _ _ _ kept

theorem State.arriveOp_canonical {s : State} {i : Instr} {x : Args} {n : Nat} {bytes : Iss → State → Nat → W32}
    (wf : Memory.wf s.mem = true) : OutcomeCanonical (s.arriveOp i x n bytes) := by
  unfold State.arriveOp
  refine State.issue_canonical wf fun iss u wf => ?_
  split
  · exact wf
  · exact State.atObjects_wf wf fun v j o t kept did => State.arrive_wf _ _ _ _ _ kept t did

theorem execBarsync_canonical {s : State} {x : Args} (wf : Memory.wf s.mem = true) : OutcomeCanonical (execBarsync x s) := by
  unfold execBarsync
  refine State.issue_canonical wf fun iss u wf => ?_
  split
  · exact wf
  · have arrived : Memory.wf (u.atObjects iss (iss.arrivals false) true (fun rs => some (u.objScope rs))
        (fun s _ o => s.arrive iss.w o 1 0)).st.mem = true :=
      State.atObjects_wf wf fun v j o t kept did => State.arrive_wf _ _ _ _ _ kept t did
    dsimp only
    split
    · exact arrived
    · split
      · exact arrived
      · split
        · rw [State.block_mem]
          exact arrived
        · split
          · exact arrived
          · rw [State.observe_mem]
            exact arrived

theorem execBarw_canonical {s : State} {x : Args} (wf : Memory.wf s.mem = true) : OutcomeCanonical (execBarw x s) := by
  unfold execBarw
  refine State.issue_same wf fun iss u => ?_
  split
  · rfl
  · dsimp only
    split
    next t found => exact State.splitAccess_error_mem _ _ _ _ t found
    next t _ _ found =>
      have split_ := State.splitAccess_ok_mem _ _ _ _ t _ _ found
      split
      next v waits => exact (State.objWaits_mem _ _ _ _ v waits).trans split_
      next =>
        rw [State.block_mem, State.foldl_mem (fun v e => State.observe_mem ..), State.foldl_mem (fun v e => State.countObj_mem ..)]
        simp [split_]

theorem execBarq_canonical {s : State} {x : Args} (wf : Memory.wf s.mem = true) : OutcomeCanonical (execBarq x s) := by
  unfold execBarq
  refine State.issue_same wf fun iss u => ?_
  split
  · rfl
  · dsimp only
    split
    next t found => exact State.splitAccess_error_mem _ _ _ _ t found
    next t _ _ found =>
      have split_ := State.splitAccess_ok_mem _ _ _ _ t _ _ found
      split
      next v waits => exact (State.objWaits_mem _ _ _ _ v waits).trans split_
      next =>
        rw [Iss.results_mem, State.foldl_mem (fun v e => ?_), State.foldl_mem (fun v e => State.countObj_mem ..)]
        · simp [split_]
        · split <;> simp

theorem execWaitc_canonical {s : State} {x : Args} (wf : Memory.wf s.mem = true) : OutcomeCanonical (execWaitc x s) := by
  unfold execWaitc
  refine State.issue_same wf fun iss u => ?_
  dsimp only
  split
  · rfl
  · split
    · rfl
    · split
      · simp
      · split <;> simp

theorem execJset_canonical {s : State} {x : Args} (wf : Memory.wf s.mem = true) : OutcomeCanonical (execJset x s) := by
  unfold execJset
  refine State.issue_same wf fun iss u => ?_
  split
  · rfl
  · simp

theorem execJoin_canonical {s : State} {x : Args} (wf : Memory.wf s.mem = true) : OutcomeCanonical (execJoin x s) := by
  unfold execJoin
  refine State.issue_same wf fun iss u => ?_
  split
  · rfl
  · split
    · rfl
    · simp

theorem execYield_canonical {s : State} {x : Args} (wf : Memory.wf s.mem = true) : OutcomeCanonical (execYield_ x s) := by
  unfold execYield_
  refine State.issue_same wf fun iss u => ?_
  split <;> rfl

theorem execNap_canonical {s : State} {x : Args} (wf : Memory.wf s.mem = true) : OutcomeCanonical (execNap x s) := by
  unfold execNap
  refine State.issue_same wf fun iss u => ?_
  dsimp only
  split <;> simp

theorem State.transOp_canonical {s : State} {i : Instr} {x : Args} {f : Nat → Res} (wf : Memory.wf s.mem = true) :
    OutcomeCanonical (s.transOp i x f) := by
  unfold State.transOp
  refine State.issue_same wf fun iss u => ?_
  split
  · rfl
  · split
    · simp
    · split
      · rfl
      next t taken => exact (State.later_mem ..).trans (State.takeUnit_mem _ _ _ t taken)

theorem State.branchOp_canonical {s : State} {i : Instr} {x : Args} {call : Bool} {target : Iss → State → Nat → W64}
    (wf : Memory.wf s.mem = true) : OutcomeCanonical (s.branchOp i x call target) := by
  unfold State.branchOp
  refine State.issue_same wf fun iss u => ?_
  split
  · simp
  · dsimp only
    split
    · rw [State.link_mem, State.foldl_mem (fun v j => State.setDepth_mem ..)]
    · rfl

theorem execRet_canonical {s : State} {x : Args} (wf : Memory.wf s.mem = true) : OutcomeCanonical (execRet x s) := by
  unfold execRet
  exact State.issue_same wf fun iss u => State.foldl_mem fun v j => State.setDepth_mem ..

theorem execExit_canonical {s : State} {x : Args} (wf : Memory.wf s.mem = true) : OutcomeCanonical (execExit x s) := by
  unfold execExit
  refine State.issue_same wf fun iss u => ?_
  split
  · rfl
  · split
    · rfl
    · split <;> simp

theorem execExitTeam_canonical {s : State} {x : Args} (wf : Memory.wf s.mem = true) : OutcomeCanonical (execExitTeam x s) := by
  unfold execExitTeam
  refine State.issue_same wf fun iss u => ?_
  split
  · rfl
  · split <;> simp

theorem execExitGrid_canonical {s : State} {x : Args} (wf : Memory.wf s.mem = true) : OutcomeCanonical (execExitGrid x s) := by
  unfold execExitGrid
  refine State.issue_same wf fun iss u => ?_
  split
  · rfl
  · split <;> simp

theorem execTrap_canonical {s : State} {x : Args} (wf : Memory.wf s.mem = true) : OutcomeCanonical (execTrap x s) := by
  unfold execTrap
  exact State.issue_same wf fun iss u => Eff.all_mem ..

theorem execBrk_canonical {s : State} {x : Args} (wf : Memory.wf s.mem = true) : OutcomeCanonical (execBrk x s) := by
  unfold execBrk
  refine State.issue_canonical wf fun iss u wf => ?_
  split
  · exact wf
  · split <;> simp [wf]

theorem execStep_canonical {s : State} {x : Args} (wf : Memory.wf s.mem = true) : OutcomeCanonical (execStep_ x s) := by
  unfold execStep_
  refine State.issue_canonical wf fun iss u wf => ?_
  split
  · exact wf
  · dsimp only
    rw [State.updCtx_mem]
    exact State.ite_wf (fun _ => State.writeMarker_wf _ _ _ _ _ wf) fun _ => wf

theorem Eff.ite_mem {p : Prop} [Decidable p] {a b : Eff} {m : Mem} (yes : a.st.mem = m) (no : b.st.mem = m) :
    (if p then a else b).st.mem = m := by
  split
  · exact yes
  · exact no

theorem execSafe_canonical {s : State} {x : Args} (wf : Memory.wf s.mem = true) : OutcomeCanonical (execSafe x s) := by
  unfold execSafe
  refine State.issue_same wf fun iss u => ?_
  refine Eff.ite_mem rfl ?_
  split
  next t taken => exact State.takeSafe_mem _ _ _ t taken
  next => exact Eff.ite_mem rfl rfl

theorem State.matrixOp_canonical {s : State} {i : Instr} {x : Args} {locks : Nat} {cause : Iss → State → Warp → Option (Cause × W64)}
    {go : Iss → State → Nat → Warp → Eff} (wf : Memory.wf s.mem = true) (same : ∀ iss u w y, (go iss u w y).st.mem = u.mem) :
    OutcomeCanonical (s.matrixOp i x locks cause go) := by
  unfold State.matrixOp
  refine State.issue_same wf fun iss u => ?_
  split
  · rfl
  · split
    · rfl
    · split
      · dsimp only
        split <;> simp
      · split
        · simp
        · split
          · rfl
          · exact same ..

theorem execMxq_canonical {s : State} {x : Args} (wf : Memory.wf s.mem = true) : OutcomeCanonical (execMxq x s) := by
  unfold execMxq
  refine State.matrixOp_canonical wf fun iss u w y => ?_
  split <;> simp

theorem execMxz_canonical {s : State} {x : Args} (wf : Memory.wf s.mem = true) : OutcomeCanonical (execMxz x s) := by
  unfold execMxz
  exact State.matrixOp_canonical wf fun iss u w y => State.enqueue_mem ..

theorem State.mxReadOp_canonical {s : State} {i : Instr} {x : Args} {kind : Nat} (wf : Memory.wf s.mem = true) :
    OutcomeCanonical (s.mxReadOp i x kind) := by
  unfold State.mxReadOp
  refine State.matrixOp_canonical wf fun iss u w y => ?_
  simp

theorem execMxwr_canonical {s : State} {x : Args} (wf : Memory.wf s.mem = true) : OutcomeCanonical (execMxwr x s) := by
  unfold execMxwr
  exact State.matrixOp_canonical wf fun iss u w y => State.enqueue_mem ..

theorem State.mxMemOp_canonical {s : State} {i : Instr} {x : Args} {store : Bool} (wf : Memory.wf s.mem = true) :
    OutcomeCanonical (s.mxMemOp i x store) := by
  unfold State.mxMemOp
  refine State.matrixOp_canonical wf fun iss u w y => ?_
  split <;> simp

theorem execMxcfg_canonical {s : State} {x : Args} (wf : Memory.wf s.mem = true) : OutcomeCanonical (execMxcfg x s) := by
  unfold execMxcfg
  exact State.matrixOp_canonical wf fun iss u w y => State.enqueue_mem ..

theorem State.copyOp_canonical {s : State} {i : Instr} {x : Args} {counts : Bool} (wf : Memory.wf s.mem = true) :
    OutcomeCanonical (s.copyOp i x counts) := by
  unfold State.copyOp
  refine State.issue_same wf fun iss u => ?_
  split
  · rfl
  · dsimp only
    split
    · simp
    · split
      · rfl
      · split
        next t found => exact State.splitAccess_error_mem _ _ _ _ t found
        next t _ _ found =>
          have split_ := State.splitAccess_ok_mem _ _ _ _ t _ _ found
          refine Eff.ite_mem ?_ (Eff.ite_mem ?_ (Eff.ite_mem ?_ ?_))
          · simp [split_]
          · simp [split_]
          · simp [split_]
          · split
            next v start => exact (State.copyStart_mem _ _ _ _ v (.inr start)).trans split_
            next v start =>
              have started := (State.copyStart_mem _ _ _ _ v (.inl start)).trans split_
              cases counts <;> simp [started]

theorem State.ite_mem {p : Prop} [Decidable p] {a b : State} {m : Mem} (yes : a.mem = m) (no : b.mem = m) :
    (if p then a else b).mem = m := by
  split
  · exact yes
  · exact no

theorem State.stageOp_canonical {s : State} {i : Instr} {x : Args} (wf : Memory.wf s.mem = true) : OutcomeCanonical (s.stageOp i x) := by
  unfold State.stageOp
  refine State.issue_same wf fun iss u => ?_
  split
  · rfl
  · split
    · rfl
    · have counted : (if iss.uni then u.nextCsn iss else u).mem = u.mem := by split <;> simp
      dsimp only
      split
      · exact counted
      · exact State.ite_mem ((State.advanceStage_mem ..).trans counted) counted

theorem execDqpop_canonical {s : State} {x : Args} (wf : Memory.wf s.mem = true) : OutcomeCanonical (execDqpop x s) := by
  unfold execDqpop
  refine State.issue_same wf fun iss u => ?_
  split
  · rfl
  · split
    · simp
    · split
      · dsimp only
        split
        · simp
        · split <;> simp
      · rfl

theorem execDqpeek_canonical {s : State} {x : Args} (wf : Memory.wf s.mem = true) : OutcomeCanonical (execDqpeek x s) := by
  unfold execDqpeek
  refine State.issue_same wf fun iss u => ?_
  split
  · rfl
  · split
    · simp
    · split
      · dsimp only
        rw [State.later_mem]
        split <;> simp
      · rfl

theorem execDqpush_canonical {s : State} {x : Args} (wf : Memory.wf s.mem = true) : OutcomeCanonical (execDqpush x s) := by
  unfold execDqpush
  refine State.issue_same wf fun iss u => ?_
  refine Eff.ite_mem rfl (Eff.ite_mem rfl ?_)
  split
  next gated => simp [snd_mem gated]
  next gated =>
    split <;> simp [snd_mem gated]

theorem execSvc_canonical {s : State} {x : Args} (wf : Memory.wf s.mem = true) : OutcomeCanonical (execSvc x s) := by
  unfold execSvc
  refine State.issue_same wf fun iss u => ?_
  split
  · rfl
  · refine Eff.ite_mem (State.passTag_mem ..) (Eff.ite_mem rfl ?_)
    split
    next gated => simp [snd_mem gated]
    next gated =>
      split
      · simp [snd_mem gated]
      · split <;> simp [snd_mem gated]

theorem execFeatq_canonical {s : State} {x : Args} (wf : Memory.wf s.mem = true) : OutcomeCanonical (execFeatq x s) := by
  unfold execFeatq
  exact State.issue_same wf fun iss u => Eff.ite_mem rfl (Iss.results_mem ..)

theorem execRft_canonical {s : State} {x : Args} (wf : Memory.wf s.mem = true) : OutcomeCanonical (execRft x s) := by
  unfold execRft
  refine State.issue_same wf fun iss u => ?_
  split
  · rfl
  · refine Eff.ite_mem rfl (Eff.ite_mem (Eff.all_mem ..) ?_)
    dsimp only
    split
    · simp
    · rw [State.updWarp_mem, State.rft_mem]
      split <;> simp

theorem execDbgret_canonical {s : State} {x : Args} (wf : Memory.wf s.mem = true) : OutcomeCanonical (execDbgret x s) := by
  unfold execDbgret
  exact State.issue_same wf fun iss u => Eff.ite_mem rfl (Eff.ite_mem (Eff.all_mem ..) rfl)

theorem execUnpark_canonical {s : State} {x : Args} (wf : Memory.wf s.mem = true) : OutcomeCanonical (execUnpark x s) := by
  unfold execUnpark
  refine State.issue_same wf fun iss u => ?_
  split
  · rfl
  · exact Eff.ite_mem rfl (State.updWarp_mem ..)

theorem execTlbsync_canonical {s : State} {x : Args} (wf : Memory.wf s.mem = true) : OutcomeCanonical (execTlbsync x s) := by
  unfold execTlbsync
  refine State.issue_same wf fun iss u => Eff.ite_mem rfl ?_
  split
  next waited => simp [snd_mem waited]
  next waited => simp [snd_mem waited]

theorem execRetired_canonical {s : State} {i : Instr} {x : Args} (wf : Memory.wf s.mem = true) :
    OutcomeCanonical (s.issue i x fun iss s => .all s iss.lanes .retiredForm 0) :=
  State.issue_same wf fun _ _ => Eff.all_mem ..

theorem execUbra_canonical {s : State} {x : Args} (wf : Memory.wf s.mem = true) : OutcomeCanonical (execUbra x s) := by
  unfold execUbra
  exact State.issue_same wf fun iss u => Eff.ite_mem rfl rfl

theorem execUbrx_canonical {s : State} {x : Args} (wf : Memory.wf s.mem = true) : OutcomeCanonical (execUbrx x s) := by
  unfold execUbrx
  exact State.issue_same wf fun iss u => Eff.ite_mem rfl (Eff.ite_mem (Eff.all_mem ..) rfl)

theorem execUcall_canonical {s : State} {x : Args} (wf : Memory.wf s.mem = true) : OutcomeCanonical (execUcall x s) := by
  unfold execUcall
  refine State.issue_same wf fun iss u => Eff.ite_mem rfl (Eff.ite_mem (Eff.all_mem ..) ?_)
  simp

theorem execUret_canonical {s : State} {x : Args} (wf : Memory.wf s.mem = true) : OutcomeCanonical (execUret x s) := by
  unfold execUret
  exact State.issue_same wf fun iss u => Eff.ite_mem rfl (State.uniformGo_mem ..)

theorem execUloop_canonical {s : State} {x : Args} (wf : Memory.wf s.mem = true) : OutcomeCanonical (execUloop x s) := by
  unfold execUloop
  exact State.issue_same wf fun iss u => Eff.ite_mem rfl (Iss.results_mem ..)

theorem execUexit_canonical {s : State} {x : Args} (wf : Memory.wf s.mem = true) : OutcomeCanonical (execUexit x s) := by
  unfold execUexit
  refine State.issue_same wf fun iss u => Eff.ite_mem rfl ?_
  split <;> simp

theorem execUlaunch_canonical {s : State} {x : Args} (wf : Memory.wf s.mem = true) : OutcomeCanonical (execUlaunch x s) := by
  unfold execUlaunch
  refine State.issue_same wf fun iss u => Eff.ite_mem rfl ?_
  split
  · rfl
  · refine Eff.ite_mem (Eff.all_mem ..) ?_
    split
    · rfl
    · dsimp only
      split
      next gated => simp [snd_mem gated]
      next gated => split <;> simp [snd_mem gated]

theorem execUtrig_canonical {s : State} {x : Args} (wf : Memory.wf s.mem = true) : OutcomeCanonical (execUtrig x s) := by
  unfold execUtrig
  refine State.issue_same wf fun iss u => Eff.ite_mem rfl (Eff.ite_mem (Eff.all_mem ..) ?_)
  split
  next gated => simp [snd_mem gated]
  next gated =>
    split
    · refine Eff.ite_mem ?_ ?_ <;> simp [snd_mem gated]
    · simp [snd_mem gated]

theorem execUgwait_canonical {s : State} {x : Args} (wf : Memory.wf s.mem = true) : OutcomeCanonical (execUgwait x s) := by
  unfold execUgwait
  refine State.issue_same wf fun iss u => Eff.ite_mem rfl (Eff.ite_mem rfl ?_)
  dsimp only
  split <;> simp

theorem execEvpop_canonical {s : State} {x : Args} (wf : Memory.wf s.mem = true) : OutcomeCanonical (execEvpop x s) := by
  unfold execEvpop
  refine State.issue_same wf fun iss u => Eff.ite_mem rfl ?_
  split
  · rfl
  · refine Eff.ite_mem (State.lostEvent_mem ..) ?_
    split <;> simp

theorem execEvwait_canonical {s : State} {x : Args} (wf : Memory.wf s.mem = true) : OutcomeCanonical (execEvwait x s) := by
  unfold execEvwait
  refine State.issue_same wf fun iss u => Eff.ite_mem rfl ?_
  split
  · rfl
  · refine Eff.ite_mem (State.lostEvent_mem ..) ?_
    dsimp only
    split <;> simp

theorem execUclock_canonical {s : State} {x : Args} (wf : Memory.wf s.mem = true) : OutcomeCanonical (execUclock x s) := by
  unfold execUclock
  exact State.issue_same wf fun iss u => Eff.ite_mem rfl (Iss.results_mem ..)

theorem execUsread_canonical {s : State} {x : Args} (wf : Memory.wf s.mem = true) : OutcomeCanonical (execUsread x s) := by
  unfold execUsread
  refine State.issue_same wf fun iss u => Eff.ite_mem ?_ (State.srRead_mem ..)
  split
  next waited => simp [snd_mem waited]
  next waited => simp [snd_mem waited]

theorem execUswriteRft_canonical {s : State} {x : Args} (wf : Memory.wf s.mem = true) : OutcomeCanonical (execUswriteRft x s) := by
  unfold execUswriteRft
  refine State.issue_same wf fun iss u => ?_
  split
  · rfl
  · exact Eff.ite_mem rfl (Eff.ite_mem (Eff.all_mem ..) (State.updTeam_mem ..))

end Sys2Proof.Machine
end

section
/-!
PROOFS. Every instruction and every event, and so every step, keeps memory in canonical form (O59).
-/

namespace Sys2Proof.Machine

theorem State.intOp1_canonical {s : State} {i : Instr} {x : Args} {f : Int → Int} (wf : Memory.wf s.mem = true) :
    OutcomeCanonical (s.intOp1 i x f) := by
  unfold State.intOp1
  exact State.fixed_canonical wf

theorem State.intOp2_canonical {s : State} {i : Instr} {x : Args} {f : Int → Int → Int} (wf : Memory.wf s.mem = true) :
    OutcomeCanonical (s.intOp2 i x f) := by
  unfold State.intOp2
  exact State.fixed_canonical wf

theorem State.intOp3_canonical {s : State} {i : Instr} {x : Args} {f : Int → Int → Int → Int} (wf : Memory.wf s.mem = true) :
    OutcomeCanonical (s.intOp3 i x f) := by
  unfold State.intOp3
  exact State.fixed_canonical wf

theorem State.carry_canonical {s : State} {i : Instr} {x : Args} {sub : Bool} (wf : Memory.wf s.mem = true) :
    OutcomeCanonical (s.carry i x sub) := by
  unfold State.carry
  exact State.fixed_canonical wf

theorem State.leaOp_canonical {s : State} {i : Instr} {x : Args} (wf : Memory.wf s.mem = true) : OutcomeCanonical (s.leaOp i x) := by
  unfold State.leaOp
  exact State.fixed_canonical wf

theorem State.bitOp2_canonical {s : State} {i : Instr} {x : Args} {f : Nat → Nat → Nat} (wf : Memory.wf s.mem = true) :
    OutcomeCanonical (s.bitOp2 i x f) := by
  unfold State.bitOp2
  exact State.fixed_canonical wf

theorem State.bitOpB_canonical {s : State} {i : Instr} {x : Args} {f : Nat → Nat → Nat} (wf : Memory.wf s.mem = true) :
    OutcomeCanonical (s.bitOpB i x f) := by
  unfold State.bitOpB
  exact State.fixed_canonical wf

theorem State.bfxOp_canonical {s : State} {i : Instr} {x : Args} (wf : Memory.wf s.mem = true) : OutcomeCanonical (s.bfxOp i x) := by
  unfold State.bfxOp
  exact State.fixed_canonical wf

theorem State.countOp_canonical {s : State} {i : Instr} {x : Args} {f : Nat → Nat → Nat} (wf : Memory.wf s.mem = true) :
    OutcomeCanonical (s.countOp i x f) := by
  unfold State.countOp
  exact State.fixed_canonical wf

theorem State.cmpOp_canonical {s : State} {i : Instr} {x : Args} (wf : Memory.wf s.mem = true) : OutcomeCanonical (s.cmpOp i x) := by
  unfold State.cmpOp
  exact State.fixed_canonical wf

theorem State.selOp_canonical {s : State} {i : Instr} {x : Args} (wf : Memory.wf s.mem = true) : OutcomeCanonical (s.selOp i x) := by
  unfold State.selOp
  exact State.fixed_canonical wf

theorem State.movOp_canonical {s : State} {i : Instr} {x : Args} (wf : Memory.wf s.mem = true) : OutcomeCanonical (s.movOp i x) := by
  unfold State.movOp
  exact State.fixed_canonical wf

theorem State.foldOp_canonical {s : State} {i : Instr} {x : Args} {upTo : Nat → Nat → Bool} (wf : Memory.wf s.mem = true) :
    OutcomeCanonical (s.foldOp i x upTo) := by
  unfold State.foldOp
  exact State.fixed_canonical wf

theorem State.float1_canonical {s : State} {i : Instr} {x : Args} {f : Nat → Res} (wf : Memory.wf s.mem = true) :
    OutcomeCanonical (s.float1 i x f) := by
  unfold State.float1
  exact State.fixed_canonical wf

theorem State.float2_canonical {s : State} {i : Instr} {x : Args} {f : Nat → Nat → Res} (wf : Memory.wf s.mem = true) :
    OutcomeCanonical (s.float2 i x f) := by
  unfold State.float2
  exact State.fixed_canonical wf

theorem State.float3_canonical {s : State} {i : Instr} {x : Args} {f : Nat → Nat → Nat → Res} (wf : Memory.wf s.mem = true) :
    OutcomeCanonical (s.float3 i x f) := by
  unfold State.float3
  exact State.fixed_canonical wf

theorem State.packed2_canonical {s : State} {i : Instr} {x : Args} {f : Nat → Nat → Res} (wf : Memory.wf s.mem = true) :
    OutcomeCanonical (s.packed2 i x f) := by
  unfold State.packed2
  exact State.fixed_canonical wf

/-- An instruction leaves canonical memory canonical. -/
theorem exec_word_canonical {i : Instr} {x : Args} (word : argsOf i = some x) {s : State} (wf : Memory.wf s.mem = true) :
    OutcomeCanonical (exec i s) := by
  unfold exec
  cases i with
  | iadd _ | isub _ | imul _ | imulh _ | imin _ | imax _ | uadd _ | usub _ | umul _ | umin _ | umax _ =>
    exact State.intOp2_canonical wf
  | imad _ | umad _ => exact State.intOp3_canonical wf
  | imadw _ | idot4 _ | isad _ | bool3 _ | shf _ | bfi _ | brev _ | bytep _ | fcmp _ | pset _ | pmov _ | pmovUnpack _ | shfl _ | vote _
  | match_ _ | fscale _ | fclass _ | fdot2 _ | pfma _ | fcvt _ | icvt _ | fcvti _ | pack _ | unpk _ | imad24 _ | ufrom _ =>
    simp only [execImadw, execIdot4, execIsad, execBool3, execShf, execBfi, execBrev, execBytep, execFcmp, execPset,
      execPmov, execPmovUnpack, execShfl, execVote, execMatch_, execFscale, execFclass, execFdot2, execPfma, execFcvt, execIcvt, execFcvti,
      execPack, execUnpk, execImad24, execUfrom]
    exact State.fixed_canonical wf
  | ineg _ | iabs _ => exact State.intOp1_canonical wf
  | iaddc _ | isubb _ => exact State.carry_canonical wf
  | lea _ | ulea _ => exact State.leaOp_canonical wf
  | and _ | or _ | xor _ | andn _ | uand _ | uor _ | uxor _ => exact State.bitOp2_canonical wf
  | shl _ | shr _ | sar _ | rot _ | ushl _ | ushr _ | usar _ => exact State.bitOpB_canonical wf
  | bfx _ | ubfx _ => exact State.bfxOp_canonical wf
  | popc _ | clz _ | ctz _ => exact State.countOp_canonical wf
  | icmp _ | ucmp _ => exact State.cmpOp_canonical wf
  | sel _ | usel _ => exact State.selOp_canonical wf
  | mov _ | umov _ => exact State.movOp_canonical wf
  | redux _ | scan _ => exact State.foldOp_canonical wf
  | fadd _ | fsub _ | fmul _ | fmin _ | fmax _ => exact State.float2_canonical wf
  | ffma _ => exact State.float3_canonical wf
  | frnd _ => exact State.float1_canonical wf
  | padd _ | pmul _ | pmin _ | pmax _ => exact State.packed2_canonical wf
  | frcp _ | frsq _ | fsqrt _ | fexp2 _ | flog2 _ | fsin _ | fcos _ | ftanh _ =>
    exact State.transOp_canonical wf
  | ld _ | uld _ =>
    exact State.loadOp_canonical wf
  | st _ | ust _ =>
    exact State.storeOp_canonical wf
  | ldf _ => exact execLdf_canonical wf
  | stf _ => exact execStf_canonical wf
  | pref _ => exact execPref_canonical wf
  | cwb _ => exact execCwb_canonical wf
  | cwbAll _ => exact execCwbAll_canonical wf
  | spmap _ => exact execSpmap_canonical wf
  | spwb _ | sprel _ =>
    exact State.regionOp_canonical wf
  | atom _ | atomn _ | acas _ | uatom _ =>
    exact State.atomOp_canonical wf
  | fence _ | ufence _ =>
    exact State.fenceOp_canonical wf
  | bari _ => exact execBari_canonical wf
  | bara _ | barax _ =>
    exact State.arriveOp_canonical wf
  | barw _ => exact execBarw_canonical wf
  | barq _ => exact execBarq_canonical wf
  | waitc _ => exact execWaitc_canonical wf
  | jset _ => exact execJset_canonical wf
  | join _ => exact execJoin_canonical wf
  | yield_ _ => exact execYield_canonical wf
  | nap _ => exact execNap_canonical wf
  | bra _ | brx _ | call _ | callx _ =>
    exact State.branchOp_canonical wf
  | ret _ => exact execRet_canonical wf
  | exit _ => exact execExit_canonical wf
  | exitTeam _ => exact execExitTeam_canonical wf
  | exitGrid _ => exact execExitGrid_canonical wf
  | trap _ => exact execTrap_canonical wf
  | brk _ => exact execBrk_canonical wf
  | step_ _ => exact execStep_canonical wf
  | safe _ => exact execSafe_canonical wf
  | mxq _ => exact execMxq_canonical wf
  | mxz _ => exact execMxz_canonical wf
  | mxrd _ | mxrdCfg _ =>
    exact State.mxReadOp_canonical wf
  | mxwr _ => exact execMxwr_canonical wf
  | mxld _ | mxst _ =>
    exact State.mxMemOp_canonical wf
  | mxcfg _ => exact execMxcfg_canonical wf
  | cpy _ | ucpy _ =>
    exact State.copyOp_canonical wf
  | cpys _ | ucpys _ =>
    exact State.stageOp_canonical wf
  | dqpop _ => exact execDqpop_canonical wf
  | dqpeek _ => exact execDqpeek_canonical wf
  | svc _ => exact execSvc_canonical wf
  | sread _ => exact State.issue_same wf fun _ _ => State.srRead_mem ..
  | swrite _ | uswrite _ =>
    exact State.issue_same wf fun _ _ => State.srWrite_mem ..
  | featq _ => exact execFeatq_canonical wf
  | rft _ => exact execRft_canonical wf
  | dbgret _ => exact execDbgret_canonical wf
  | unpark _ => exact execUnpark_canonical wf
  | tlbsync _ => exact execTlbsync_canonical wf
  | barsync _ => exact execBarsync_canonical wf
  | frcpa _ | ldgx _ =>
    exact execRetired_canonical wf
  | ubra _ => exact execUbra_canonical wf
  | ubrx _ => exact execUbrx_canonical wf
  | ucall _ => exact execUcall_canonical wf
  | uret _ => exact execUret_canonical wf
  | uloop _ => exact execUloop_canonical wf
  | uexit _ => exact execUexit_canonical wf
  | dqpush _ => exact execDqpush_canonical wf
  | ulaunch _ => exact execUlaunch_canonical wf
  | utrig _ => exact execUtrig_canonical wf
  | ugwait _ => exact execUgwait_canonical wf
  | evpop _ => exact execEvpop_canonical wf
  | evwait _ => exact execEvwait_canonical wf
  | uclock _ => exact execUclock_canonical wf
  | usread _ => exact execUsread_canonical wf
  | uswriteRft _ => exact execUswriteRft_canonical wf
  | _ => cases word

/-- Running anything leaves canonical memory canonical. -/
theorem exec_canonical (i : Instr) {s : State} (wf : Memory.wf s.mem = true) : OutcomeCanonical (exec i s) := by
  cases args : argsOf i with
  | none => exact exec_event_canonical args wf
  | some x => exact exec_word_canonical args wf

/-- Settles O59: the plan leaves canonical memory, what it runs keeps it, and so does the end of the issue. -/
theorem stepKeepsCanonical : Obligations.StepKeepsCanonical := by
  intro s t canonical stepped
  have planned := s.plan_canonical canonical
  unfold step at stepped
  split at stepped
  next plan =>
    cases stepped
    rw [plan] at planned
    exact planned
  next i u plan =>
    rw [plan] at planned
    split at stepped
    next v ran =>
      cases stepped
      exact State.after_wf _ _ _ _ (exec_canonical i planned v ran)
    next => cases stepped
    next => cases stepped

end Sys2Proof.Machine
end
